-- ==== Sys2Proof/Word.lean ====
section
/-!
DEFINITION. The words the spec numbers by bits, and the keyed lists every sparse store of the model uses.
-/

namespace Sys2Proof

abbrev Byte := BitVec 8
abbrev W16 := BitVec 16
abbrev W32 := BitVec 32
abbrev W64 := BitVec 64
/-- A wide register operand (R118). -/
abbrev W128 := BitVec 128
/-- A pod-global virtual address, 72 bits (R25, R118). -/
abbrev VA := BitVec 72
/-- A 32-bit thread mask; bit t stands for thread t of a group (R24). -/
abbrev Mask := BitVec 32
/-- One 128-byte line, byte 0 in the low bits (R2, R25). -/
abbrev LineData := BitVec 1024

/-- Data by natural-number key, keys strictly rising. -/
abbrev AList (α : Type) := List (Nat × α)

/-- The value a released or undefined register reads as (R39, R45). -/
def poison32 : W32 := 0xFFCAFE00#32
/-- The 64-bit form of `poison32` (R39, R198). -/
def poison64 : W64 := 0xFFCAFE00FFCAFE00#64

end Sys2Proof
end

