-- ==== Sys2Proof/Syntax.lean ====
section
/-!
DEFINITION. The instructions of Amsout as data: operands, modes, one constructor of `Instr` for each row of the
opcode table. Rows 0x0 to 0xB carry what their 96-bit word says (R33 to R40); the event rows carry what the step
acts on and, where the spec leaves a choice to the device or to the outside, that choice.
-/

namespace Sys2Proof

/-- The type codes of R49. -/
inductive Ty where
  | i4 | n4 | i8 | n8 | i16 | n16 | i32 | n32 | i64 | n64
  | f16 | bf16 | f32 | f64 | e5m2 | e4m3 | e3m2 | e2m3 | e2m1 | e8m0
  | bin1 | sgn1 | tri2 | b8 | b16 | b32 | b64 | b128
  deriving DecidableEq, Repr

/-- The guard field (R34). -/
structure Guard where
  neg  : Bool
  pred : BitVec 3
  deriving DecidableEq, Repr

/-- The hint field (R33, R42, R43). -/
structure Hint where
  gap   : BitVec 4
  cede  : Bool
  setsb : BitVec 3
  wait  : BitVec 6
  deriving DecidableEq, Repr

/-- What every instruction word carries beside its operation. -/
structure Ctl where
  guard : Guard
  hint  : Hint
  deriving DecidableEq, Repr

/-- The L and K bits of a register source (R36, R39); both set is no value of this type. -/
inductive Life where
  | plain | last | keep
  deriving DecidableEq, Repr

/-- A source operand (R37). -/
inductive Src where
  | v (n : BitVec 8) (l : Life)
  | s (n : BitVec 6) (l : Life)
  | latch (n : BitVec 2)
  | zero
  | tid
  | p (n : BitVec 3)
  | h (n : BitVec 4)
  | cb (n : BitVec 3)
  | k (n : BitVec 7)
  | imm (n : BitVec 7)
  deriving DecidableEq, Repr

/-- A destination operand (R35). Write-back suppression exists for file v alone. -/
inductive Dst where
  | v (n : BitVec 8) (nwb : Bool)
  | s (n : BitVec 6)
  | p (n : BitVec 3)
  | tile (n : BitVec 4)
  | h (n : BitVec 4)
  | cb (n : BitVec 3)
  deriving DecidableEq, Repr

/-- Rounding modes (R68). -/
inductive RM where
  | rne | rz | ru | rd | rna
  deriving DecidableEq, Repr

/-- Comparison codes (R114). -/
inductive Cmp where
  | f | lt | eq | le | gt | ne | ge | num | nan | ltu | equ | leu | gtu | neu | geu | t
  deriving DecidableEq, Repr

/-- Predicate combination (R115). -/
inductive BoolOp where
  | and | or | xor
  deriving DecidableEq, Repr

/-- MOVI modes (R117). -/
inductive MoviMode where
  | zx | sx | hi
  deriving DecidableEq, Repr

/-- LEAX modes with the operands each has (R119). -/
inductive LeaxMode where
  | add (c : Src) (sh : BitVec 3)
  | join
  | win
  deriving DecidableEq, Repr

/-- VOTE modes (R157, R159). -/
inductive VoteMode where
  | all | any | uni | ballot
  deriving DecidableEq, Repr

/-- SHFL modes (R160). -/
inductive ShflMode where
  | idx | up | down | xor
  deriving DecidableEq, Repr

/-- REDUX, SCAN and collective reduction operations (R161). -/
inductive RedOp where
  | add | min | max | and | or | xor
  deriving DecidableEq, Repr

/-- Atomic operations (R242). -/
inductive Aop where
  | add | min | max | and | or | xor | exch | cas | inc | dec
  deriving DecidableEq, Repr

/-- SEM of class 0x6 (R239). -/
inductive Sem where
  | rlx | acq | rel | ar
  deriving DecidableEq, Repr

/-- Scopes (R217). -/
inductive Scope where
  | grp | team | clu | dist | dev | pod
  deriving DecidableEq, Repr

/-! Operand shapes. The field `ctl` is the guard and hints; `d` a destination; `a`, `b`, `c` the sources SA, SB, SC. -/

structure CtlOnly where
  ctl : Ctl
  deriving DecidableEq, Repr

structure Un where
  ctl : Ctl
  ty  : Ty
  d   : Dst
  a   : Src
  deriving DecidableEq, Repr

structure UnS where
  ctl : Ctl
  ty  : Ty
  sat : Bool
  d   : Dst
  a   : Src
  deriving DecidableEq, Repr

structure Bin where
  ctl : Ctl
  ty  : Ty
  d   : Dst
  a   : Src
  b   : Src
  deriving DecidableEq, Repr

structure BinS where
  ctl : Ctl
  ty  : Ty
  sat : Bool
  d   : Dst
  a   : Src
  b   : Src
  deriving DecidableEq, Repr

structure Ter where
  ctl : Ctl
  ty  : Ty
  d   : Dst
  a   : Src
  b   : Src
  c   : Src
  deriving DecidableEq, Repr

structure TerS where
  ctl : Ctl
  ty  : Ty
  sat : Bool
  d   : Dst
  a   : Src
  b   : Src
  c   : Src
  deriving DecidableEq, Repr

structure Movi where
  ctl  : Ctl
  mode : MoviMode
  d    : Dst
  imm  : W32
  deriving DecidableEq, Repr

structure Carry where
  ctl : Ctl
  ty  : Ty
  d   : Dst
  co  : BitVec 3
  a   : Src
  b   : Src
  ci  : Src
  deriving DecidableEq, Repr

structure Setp where
  ctl  : Ctl
  ty   : Ty
  cmp  : Cmp
  bop  : BoolOp
  negc : Bool
  pd   : BitVec 3
  a    : Src
  b    : Src
  pc   : BitVec 3
  deriving DecidableEq, Repr

structure Sel where
  ctl  : Ctl
  ty   : Ty
  negc : Bool
  d    : Dst
  a    : Src
  b    : Src
  pc   : BitVec 3
  deriving DecidableEq, Repr

structure Lea where
  ctl : Ctl
  ty  : Ty
  sh  : BitVec 3
  d   : Dst
  a   : Src
  b   : Src
  c   : Src
  deriving DecidableEq, Repr

structure Leax where
  ctl  : Ctl
  ty   : Ty
  mode : LeaxMode
  d    : Dst
  a    : Src
  b    : Src
  deriving DecidableEq, Repr

structure FBin where
  ctl : Ctl
  ty  : Ty
  rm  : RM
  sat : Bool
  d   : Dst
  a   : Src
  b   : Src
  deriving DecidableEq, Repr

structure FTer where
  ctl : Ctl
  ty  : Ty
  rm  : RM
  sat : Bool
  d   : Dst
  a   : Src
  b   : Src
  c   : Src
  deriving DecidableEq, Repr

structure FMinMax where
  ctl  : Ctl
  ty   : Ty
  nanp : Bool
  d    : Dst
  a    : Src
  b    : Src
  deriving DecidableEq, Repr

structure Frnd where
  ctl : Ctl
  ty  : Ty
  rm  : RM
  x   : Bool
  d   : Dst
  a   : Src
  deriving DecidableEq, Repr

structure SpecUn where
  ctl : Ctl
  d   : Dst
  a   : Src
  deriving DecidableEq, Repr

structure Cvt where
  ctl : Ctl
  dt  : Ty
  st  : Ty
  rm  : RM
  sat : Bool
  d   : Dst
  a   : Src
  deriving DecidableEq, Repr

structure Packn where
  ctl : Ctl
  dt  : Ty
  st  : Ty
  rm  : RM
  sat : Bool
  p   : BitVec 3
  d   : Dst
  a   : Src
  b   : Src
  c   : Src
  deriving DecidableEq, Repr

structure Unpackn where
  ctl : Ctl
  dt  : Ty
  st  : Ty
  i   : BitVec 5
  d   : Dst
  a   : Src
  deriving DecidableEq, Repr

structure Scaleb where
  ctl : Ctl
  dt  : Ty
  rm  : RM
  sat : Bool
  j   : BitVec 2
  d   : Dst
  a   : Src
  b   : Src
  deriving DecidableEq, Repr

structure RandF where
  ctl : Ctl
  ty  : Ty
  d   : Dst
  deriving DecidableEq, Repr

structure Part where
  ctl   : Ctl
  log2s : BitVec 3
  deriving DecidableEq, Repr

structure Vote where
  ctl  : Ctl
  mode : VoteMode
  nega : Bool
  d    : Dst
  pa   : BitVec 3
  deriving DecidableEq, Repr

structure Shfl where
  ctl  : Ctl
  ty   : Ty
  mode : ShflMode
  pv   : BitVec 3
  d    : Dst
  a    : Src
  b    : Src
  deriving DecidableEq, Repr

structure Redux where
  ctl : Ctl
  ty  : Ty
  op  : RedOp
  d   : Dst
  a   : Src
  deriving DecidableEq, Repr

structure Scan where
  ctl  : Ctl
  ty   : Ty
  op   : RedOp
  excl : Bool
  d    : Dst
  a    : Src
  deriving DecidableEq, Repr

structure Elect where
  ctl : Ctl
  pd  : BitVec 3
  deriving DecidableEq, Repr

structure BraF where
  ctl : Ctl
  imm : W32
  deriving DecidableEq, Repr

structure CallF where
  ctl : Ctl
  d   : BitVec 8
  imm : W32
  deriving DecidableEq, Repr

structure CallxF where
  ctl : Ctl
  d   : BitVec 8
  a   : Src
  deriving DecidableEq, Repr

/-- One 32-bit or uniform source and nothing else. -/
structure SrcF where
  ctl : Ctl
  a   : Src
  deriving DecidableEq, Repr

structure Cbarm where
  ctl : Ctl
  or  : Bool
  n   : BitVec 3
  deriving DecidableEq, Repr

structure Cbwait where
  ctl : Ctl
  n   : BitVec 3
  deriving DecidableEq, Repr

structure BarF where
  ctl : Ctl
  b   : BitVec 4
  deriving DecidableEq, Repr

structure BarcF where
  ctl : Ctl
  b   : BitVec 2
  deriving DecidableEq, Repr

/-- The address fields of class 0x5 (R192). -/
structure Addr where
  a     : Src
  b     : Src
  scale : BitVec 3
  ixu   : Bool
  off   : BitVec 10
  deriving DecidableEq, Repr

/-- A load; `var` is NL1 of LD and LDX, the peer form of LDS, 0 otherwise (R193). -/
structure Ld where
  ctl : Ctl
  ty  : Ty
  var : Bool
  d   : Dst
  ad  : Addr
  deriving DecidableEq, Repr

structure St where
  ctl : Ctl
  ty  : Ty
  var : Bool
  ad  : Addr
  c   : Src
  deriving DecidableEq, Repr

structure Mcst where
  ctl : Ctl
  ty  : Ty
  a   : Src
  m   : Src
  c   : Src
  off : BitVec 10
  deriving DecidableEq, Repr

structure Ldc where
  ctl   : Ctl
  ty    : Ty
  d     : Dst
  a     : Src
  b     : Src
  scale : BitVec 3
  ixu   : Bool
  bank  : BitVec 3
  off   : BitVec 7
  deriving DecidableEq, Repr

structure Pref where
  ctl : Ctl
  l2  : Bool
  ad  : Addr
  deriving DecidableEq, Repr

structure Wbp where
  ctl : Ctl
  ad  : Addr
  deriving DecidableEq, Repr

structure Qpop where
  ctl : Ctl
  ty  : Ty
  n   : BitVec 3
  pv  : BitVec 3
  d   : Dst
  deriving DecidableEq, Repr

structure Fpush where
  ctl : Ctl
  ty  : Ty
  n   : BitVec 2
  c   : Src
  deriving DecidableEq, Repr

structure Fpop where
  ctl : Ctl
  ty  : Ty
  n   : BitVec 2
  pv  : BitVec 3
  d   : Dst
  deriving DecidableEq, Repr

/-- ATOM and ATOMX; `c` is present for .cas alone (R240). -/
structure Atom where
  ctl   : Ctl
  ty    : Ty
  aop   : Aop
  sem   : Sem
  scope : Scope
  off   : BitVec 6
  d     : Dst
  a     : Src
  b     : Src
  c     : Option Src
  deriving DecidableEq, Repr

structure Atoms where
  ctl   : Ctl
  ty    : Ty
  aop   : Aop
  sem   : Sem
  scope : Scope
  pe    : Bool
  off   : BitVec 5
  d     : Dst
  a     : Src
  b     : Src
  c     : Option Src
  deriving DecidableEq, Repr

structure Red where
  ctl   : Ctl
  ty    : Ty
  aop   : Aop
  rel   : Bool
  scope : Scope
  off   : BitVec 6
  a     : Src
  b     : Src
  deriving DecidableEq, Repr

structure ScopeF where
  ctl   : Ctl
  scope : Scope
  deriving DecidableEq, Repr

structure Ptsrd where
  ctl : Ctl
  d   : Dst
  deriving DecidableEq, Repr

/-- LEASE and SWARM: an address, an operand, no destination. -/
structure Off2 where
  ctl : Ctl
  off : BitVec 6
  a   : Src
  b   : Src
  deriving DecidableEq, Repr

structure Swwait where
  ctl : Ctl
  off : BitVec 6
  d   : Dst
  a   : Src
  b   : Src
  deriving DecidableEq, Repr

structure Swgen where
  ctl : Ctl
  off : BitVec 6
  d   : Dst
  a   : Src
  deriving DecidableEq, Repr

structure Objdecl where
  ctl  : Ctl
  race : Bool
  d    : BitVec 6
  a    : Src
  deriving DecidableEq, Repr

structure Mxop where
  ctl : Ctl
  off : BitVec 10
  d   : BitVec 6
  a   : Src
  deriving DecidableEq, Repr

structure Mxzero where
  ctl  : Ctl
  mask : BitVec 16
  deriving DecidableEq, Repr

structure Mxrd where
  ctl : Ctl
  n   : BitVec 4
  d   : Dst
  a   : Src
  deriving DecidableEq, Repr

structure Mxwr where
  ctl : Ctl
  n   : BitVec 4
  a   : Src
  b   : Src
  deriving DecidableEq, Repr

structure Mxst where
  ctl : Ctl
  n   : BitVec 4
  off : BitVec 6
  a   : Src
  deriving DecidableEq, Repr

/-- PLANE; `p1` is P − 1 (R270). -/
structure PlaneF where
  ctl : Ctl
  fmt : Ty
  p1  : BitVec 4
  off : BitVec 10
  a   : Src
  b   : Src
  c   : Src
  deriving DecidableEq, Repr

structure Unplane where
  ctl : Ctl
  fmt : Ty
  p1  : BitVec 4
  off : BitVec 10
  d   : Dst
  a   : Src
  c   : Src
  deriving DecidableEq, Repr

structure Mxperm where
  ctl : Ctl
  col : Bool
  td  : BitVec 4
  ts  : BitVec 4
  a   : Src
  deriving DecidableEq, Repr

structure Mxqry where
  ctl : Ctl
  d   : BitVec 6
  sel : BitVec 2
  deriving DecidableEq, Repr

structure Mxepi where
  ctl  : Ctl
  dt   : Ty
  st   : Ty
  relu : Bool
  sat  : Bool
  off  : BitVec 4
  n    : BitVec 4
  a    : Src
  b    : Src
  deriving DecidableEq, Repr

structure Mxscl where
  ctl : Ctl
  col : Bool
  n   : BitVec 4
  a   : Src
  deriving DecidableEq, Repr

structure Cpstat where
  ctl : Ctl
  d   : BitVec 6
  i   : BitVec 3
  deriving DecidableEq, Repr

structure Outrdy where
  ctl : Ctl
  i   : BitVec 3
  deriving DecidableEq, Repr

structure Tcond where
  ctl : Ctl
  d   : BitVec 6
  n   : BitVec 12
  a   : Src
  deriving DecidableEq, Repr

/-- An s destination and one source. -/
structure SdA where
  ctl : Ctl
  d   : BitVec 6
  a   : Src
  deriving DecidableEq, Repr

/-- An s destination and two sources (for class 0xA, `a` is SA and `b` is z in SB). -/
structure SdAB where
  ctl : Ctl
  d   : BitVec 6
  a   : Src
  b   : Src
  deriving DecidableEq, Repr

/-- An s destination and the zone number in SB. -/
structure SdZ where
  ctl : Ctl
  d   : BitVec 6
  z   : Src
  deriving DecidableEq, Repr

/-- An s destination alone. -/
structure Sd where
  ctl : Ctl
  d   : BitVec 6
  deriving DecidableEq, Repr

structure SdSel where
  ctl : Ctl
  d   : BitVec 6
  sel : BitVec 3
  deriving DecidableEq, Repr

structure Aloop where
  ctl : Ctl
  lvl : BitVec 2
  a   : Src
  deriving DecidableEq, Repr

structure Astrm where
  ctl : Ctl
  ty  : Ty
  sp  : Bool
  q   : BitVec 3
  a   : Src
  m   : BitVec 7
  deriving DecidableEq, Repr

structure TrapF where
  ctl : Ctl
  brk : Bool
  n   : BitVec 12
  deriving DecidableEq, Repr

structure Srrd where
  ctl : Ctl
  ty  : Ty
  num : BitVec 8
  d   : Dst
  deriving DecidableEq, Repr

structure Srwr where
  ctl : Ctl
  ty  : Ty
  num : BitVec 8
  a   : Src
  deriving DecidableEq, Repr

structure Ctxsave where
  ctl : Ctl
  n   : BitVec 2
  d   : BitVec 6
  a   : Src
  b   : Src
  c   : Src
  deriving DecidableEq, Repr

structure Ctxq where
  ctl : Ctl
  d   : BitVec 6
  sel : BitVec 3
  a   : Src
  deriving DecidableEq, Repr

structure Zslices where
  ctl  : Ctl
  d    : BitVec 6
  dist : BitVec 3
  a    : Src
  z    : Src
  deriving DecidableEq, Repr

structure ZwaysL2 where
  ctl   : Ctl
  d     : BitVec 6
  dist  : BitVec 3
  slice : BitVec 6
  z     : Src
  m     : Src
  deriving DecidableEq, Repr

structure ZwaysVault where
  ctl : Ctl
  d   : BitVec 6
  v   : BitVec 2
  z   : Src
  m   : Src
  deriving DecidableEq, Repr

structure Zquery where
  ctl  : Ctl
  d    : BitVec 6
  sel  : BitVec 4
  dist : BitVec 3
  z    : Src
  deriving DecidableEq, Repr

structure Ptprd where
  ctl : Ctl
  st  : Bool
  d   : BitVec 6
  deriving DecidableEq, Repr

structure Rlease where
  ctl : Ctl
  off : BitVec 10
  a   : Src
  b   : Src
  deriving DecidableEq, Repr

/-! Data of the event rows. -/

/-- Who writes a device register or doorbell (R29, R168, R304, R305, R418). -/
inductive Writer where
  | ctx (n : Nat)      -- a context's store
  | pf0                -- the host through physical function 0
  | vf (z : Nat)       -- the host through virtual function z + 1
  | controller         -- the management controller
  deriving DecidableEq, Repr

/-- What a request that arrives from another device asks (R398, R400). A write names the bytes of its 64 or 128 that it writes, bit i the
byte i (DEDUCED, log 95: stores of fewer bytes cross the fabric too, R400). -/
inductive RemoteOp where
  | load (exp : Nat)
  | store (mask : W128) (bytes : List Byte)
  | atom (ty : Ty) (aop : Aop) (b c : W128)
  deriving DecidableEq, Repr

/-- What a response brings (R402, R208): the bytes read, the first lowest, or the old values of atomics. `poisoned`: the bytes read are
uncorrectable (R7); `refused`: not performed; `hostFailed`: the host has failed the access (R419). -/
inductive RemoteReply where
  | data (line : LineData)
  | poisoned
  | ack (olds : List W128)
  | refused
  | hostFailed
  deriving DecidableEq, Repr

/-- A host request to the bridge device (R418, R419). -/
inductive HostOp where
  | read
  | write (bytes : List Byte)
  deriving DecidableEq, Repr

/-- Where the device puts a cluster: for each team its core and the quadrant of each group (R291). -/
structure Placement where
  cores : List Nat
  quads : List (List Nat)
  deriving DecidableEq, Repr

/-- One instruction or event: one constructor for each row of spec/opcode_table.json. -/
inductive Instr where
  -- class 0x0 (R107)
  | mov (x : Un) | movi (x : Movi) | movs (x : Un) | movv (x : Bin)
  | iadd (x : BinS) | iaddc (x : Carry) | isub (x : BinS) | isubb (x : Carry)
  | imul (x : BinS) | imulh (x : Bin) | imad (x : TerS) | imadw (x : TerS)
  | idiv (x : BinS) | irem (x : Bin) | imin (x : Bin) | imax (x : Bin)
  | iabs (x : UnS) | ineg (x : UnS)
  | and (x : Bin) | or (x : Bin) | xor (x : Bin) | andn (x : Bin) | not (x : Un)
  | shl (x : Bin) | shr (x : Bin) | sar (x : Bin) | rot (x : Bin) | fshl (x : Ter)
  | popc (x : Un) | clz (x : Un) | ctz (x : Un) | brev (x : Un)
  | bfx (x : Bin) | bfi (x : Ter)
  | isetp (x : Setp) | isel (x : Sel) | lea (x : Lea) | leax (x : Leax)
  -- class 0x1 (R121)
  | fadd (x : FBin) | fsub (x : FBin) | fmul (x : FBin) | ffma (x : FTer)
  | fmin (x : FMinMax) | fmax (x : FMinMax) | fsetp (x : Setp) | fclass (x : Un)
  | fscale (x : FBin) | frnd (x : Frnd)
  | hadd2 (x : FBin) | hmul2 (x : FBin) | hfma2 (x : FTer) | hmin2 (x : FMinMax) | hmax2 (x : FMinMax)
  | dadd (x : FBin) | dmul (x : FBin) | dfma (x : FTer) | dsetp (x : Setp)
  | dmin (x : FMinMax) | dmax (x : FMinMax)
  -- class 0x2 (R82, R128)
  | rcp (x : SpecUn) | rsq (x : SpecUn) | sqrt (x : SpecUn) | ex2 (x : SpecUn)
  | lg2 (x : SpecUn) | sinpi (x : SpecUn) | cospi (x : SpecUn) | tanh (x : SpecUn)
  | cvtff (x : Cvt) | cvtfi (x : Cvt) | cvtif (x : Cvt)
  | packn (x : Packn) | unpackn (x : Unpackn) | scaleb (x : Scaleb) | rand (x : RandF) | cvtsr (x : Cvt)
  -- class 0x3 (R157)
  | part (x : Part) | vote (x : Vote) | shfl (x : Shfl) | redux (x : Redux) | scan (x : Scan)
  | match_ (x : Un) | elect (x : Elect) | bcast (x : Un)
  -- class 0x4 (R143)
  | bra (x : BraF) | brx (x : SrcF) | call (x : CallF) | callx (x : CallxF) | ret (x : SrcF)
  | land (x : CtlOnly) | exit (x : CtlOnly) | yield (x : CtlOnly) | pause (x : CtlOnly)
  | sleep (x : SrcF) | nop (x : CtlOnly) | cbarm (x : Cbarm) | cbwait (x : Cbwait)
  | bar (x : BarF) | barc (x : BarcF)
  -- class 0x5 (R193)
  | ld (x : Ld) | st (x : St) | lds (x : Ld) | sts (x : St) | ldp (x : Ld) | stp (x : St)
  | ldx (x : Ld) | stx (x : St) | mcst (x : Mcst) | ldc (x : Ldc) | ldun (x : Ld)
  | pref (x : Pref) | wbp (x : Wbp) | wbpAll (x : CtlOnly)
  | qpop (x : Qpop) | qpeek (x : Qpop) | fpush (x : Fpush) | fpop (x : Fpop)
  -- class 0x6 (R240)
  | atom (x : Atom) | atoms (x : Atoms) | atomx (x : Atom) | red (x : Red)
  | fence (x : ScopeF) | xfence (x : CtlOnly) | acq (x : ScopeF) | rel (x : ScopeF)
  | acqr (x : SrcF) | ptsrd (x : Ptsrd) | lease (x : Off2)
  | swarm (x : Off2) | swwait (x : Swwait) | swgen (x : Swgen)
  | objdecl (x : Objdecl) | objdrop (x : SdA)
  -- class 0x7 (R270)
  | mxop (x : Mxop) | mxzero (x : Mxzero) | mxrd (x : Mxrd) | mxwr (x : Mxwr) | mxst (x : Mxst)
  | plane (x : PlaneF) | unplane (x : Unplane) | mxperm (x : Mxperm) | mxwait (x : SrcF)
  | mxqry (x : Mxqry) | mxepi (x : Mxepi) | leave (x : SrcF) | mxscl (x : Mxscl)
  -- class 0x8 (R313)
  | cpstat (x : Cpstat) | outrdy (x : Outrdy) | tcond (x : Tcond) | tdone (x : SrcF)
  | tspawn (x : SdA) | tqry (x : SdSel) | astart (x : CtlOnly) | aloop (x : Aloop)
  | astrm (x : Astrm) | aend (x : CtlOnly)
  -- class 0x9 (R348)
  | trap (x : TrapF) | rett (x : CtlOnly) | srrd (x : Srrd) | srwr (x : Srwr) | logrd (x : Sd)
  | haltStop (x : SdA) | haltResume (x : SdA) | haltKill (x : SdA)
  | sysc (x : SdA) | evwait (x : SdA) | evsigSig (x : SdAB) | evsigAns (x : SdAB)
  | tlbinvVa (x : SdAB) | tlbinvCtx (x : SdAB) | tlbinvZone (x : SdAB)
  | fbresp (x : SdA) | ctxsave (x : Ctxsave) | ctxload (x : SdA) | ctxq (x : Ctxq)
  | qmap (x : SdAB) | qunmap (x : SdA)
  -- class 0xA (R384)
  | zcreate (x : SdAB) | zdestroy (x : SdZ) | zgrow (x : SdAB) | zshrink (x : SdAB)
  | zslices (x : Zslices) | zwaysL2 (x : ZwaysL2) | zwaysVault (x : ZwaysVault)
  | zchan (x : SdAB) | zcoins (x : SdAB) | zscrub (x : SdA) | zcommit (x : SdZ)
  | zquery (x : Zquery) | capq (x : SdA)
  -- class 0xB (R421)
  | ffenceFull (x : CtlOnly) | ffenceRel (x : CtlOnly) | ffenceAcq (x : CtlOnly)
  | ptprd (x : Ptprd) | timens (x : Sd) | peerq (x : SdA) | rlease (x : Rlease)
  | fcontainFence (x : SdA) | fcontainClear (x : SdA)
  -- events; `g` a group, `tm` a team, `z` a zone, `q` a quadrant, `gr` a graph, `nd` a node
  | illegalWord (opc : BitVec 10)
  | haltsib (g : Nat)
  | arithlog (g : Nat)
  | instructionComplete (g k : Nat)
  | slotRefill (q slot : Nat)
  | holdExpiry (g t : Nat)
  | sleepExpiry (g t : Nat)
  | barRelease (tm b : Nat)
  | barcRelease (tm b : Nat)
  | groupRetire (g : Nat)
  | ptsWindowTick (g : Nat)
  | grantL2 (g ld k : Nat)
  | lineFill (g ld k : Nat)
  | renewalReturn (g ld k : Nat)
  | epochRollover (z : Nat)
  | storeBufferLeave (g : Nat)
  | performAtHome (g k : Nat)
  | storeAck (g k : Nat)
  | walk (g : Nat)
  | faultRecord (g : Nat)
  | bankReqmode (from_ : Writer) (bank : Nat) (mode : BitVec 2)
  | writeback (bank : Nat)
  | waitrelease (bank : Nat)
  | zerofill (bank : Nat)
  | peerAccessResume (tm : Nat)
  | mxopAccept (g : Nat)
  | matrixOpStart (q : Nat)
  | matrixOpComplete (q : Nat)
  | leaveGrant (d : Nat)
  | leaveReturn (q : Nat)
  | governorPeriod (d : Nat)
  | powerSample (overrun : Bool) (rates : List Nat)
  | kick (from_ : Writer) (q : Nat) (w : W32)
  | directoryW1c (from_ : Writer) (q : Nat) (v : W64)
  | packetFetch (slot : Nat)
  | nodeReady (gr nd : Nat)
  | clusterPlace (gr nd : Nat) (pl : Placement)
  | nodeDispatch (gr nd : Nat)
  | conditionRead (gr nd : Nat)
  | nodeRetire (gr nd : Nat)
  | completionRecord (gr : Nat)
  | tramLine (k : Nat)
  | copyEnd (k : Nat)
  | streamStart (g qn : Nat)
  | streamRead (g qn : Nat)
  | coinPeriod
  | eventPlace (target : Nat)
  | evwaitTimeout (g : Nat)
  | sliceChange (q ctx : Nat)
  | stopRequest (tm : Nat)
  | teamStopped (tm : Nat)
  | overrun (tm : Nat) (cycles : Nat)
  | migration (tm : Nat) (core : Nat) (quads : List Nat)
  | imageUpdate (k : Nat)
  | scrubEnd (bank : Bool) (n : Nat)
  | departureEnd (z : Nat)
  | wayFree (z : Nat)
  | sweepEnd (z d : Nat)
  | migrationBatch (z : Nat)
  | zoneCommit (z : Nat)
  | remoteRequest (dev : Nat) (pa : Nat) (n : Nat) (op : RemoteOp)
  | remoteResponse (k : Nat) (r : RemoteReply)
  | heldWriteRelease (k : Nat)
  | fenceAssistAnswer (g : Nat)
  | suspect (dev : Nat)
  | probeTimeout (dev : Nat)
  | linkDown (dev : Nat)
  | remoteFailure (k : Nat)
  | remote (g : Nat)
  | collectiveRetire (gr nd : Nat) (status : W16) (inputs : List (List Byte))
  | ptpMessage (locked : Bool) (now : Nat)
  | ppsEdge (now : Nat)
  | holdoverExpiry
  | referenceLoss
  | hostCompletion (k : Nat) (ok : Bool)
  | hostRequest (from_ : Writer) (pa : Nat) (n : Nat) (op : HostOp)
  | chipletFence (from_ : Writer) (c : Nat)
  | chipletPowerOff (from_ : Writer) (c : Nat)
  | chipletReset (from_ : Writer) (c : Nat)
  | resetDone (c : Nat) (pass : Bool)
  | chipletError (c : Nat)
  | exchangeTakeover
  | coreFence (core : Nat)
  | channelLoss (ch : Nat) (readable : Bool)
  | healthW1c (from_ : Writer) (v : W64)
  | coldReset
  | attestationRequest (from_ : Writer) (nonce : List Byte) (zone : BitVec 8) (dest : Nat)
  | registerWrite (from_ : Writer) (pa : Nat) (n : Nat) (v : W64)
  | sweepVisit (z d line : Nat)
  deriving DecidableEq, Repr

end Sys2Proof
end

