-- ==== Sys2Proof/Machine/Forms.lean ====
section
/-!
DEFINITION. What each form of the opcode map takes: its operation code (R50), its operands with their roles and widths,
the privilege it needs (R51), whether it is a group instruction (R136) and what else its description rejects (R46).
-/

namespace Sys2Proof

/-- Bits of one element of a type (R62 to R66). -/
def Ty.width : Ty → Nat
  | .i4 | .n4 | .e2m1 => 4
  | .i8 | .n8 | .e5m2 | .e4m3 | .e8m0 | .b8 => 8
  | .e3m2 | .e2m3 => 6
  | .i16 | .n16 | .f16 | .bf16 | .b16 => 16
  | .i32 | .n32 | .f32 | .b32 => 32
  | .i64 | .n64 | .f64 | .b64 => 64
  | .b128 => 128
  | .bin1 | .sgn1 => 1
  | .tri2 => 2

/-- Container bits of a packed element (R67). -/
def Ty.container : Ty → Nat
  | .e3m2 | .e2m3 => 8
  | t => t.width

/-- Width of the register operand that holds a value of the type (R38). -/
def Ty.regw (t : Ty) : Nat := if t.width ≤ 32 then 32 else t.width

/-- The signed types of R49. -/
def Ty.signed : Ty → Bool
  | .i4 | .i8 | .i16 | .i32 | .i64 => true
  | _ => false

/-- What a source field accepts, with the width it is read at (R38, R99). -/
inductive Role where
  | any (w : Nat)
  | mov (w : Nat)
  | vreg (w : Nat)
  | uni (w : Nat)
  | skm (w : Nat)
  | sm
  | spair
  | sreg
  | pred
  | predZero
  | cb
  deriving DecidableEq, Repr

def Role.width : Role → Nat
  | .any w | .mov w | .vreg w | .uni w | .skm w => w
  | .sm | .pred | .predZero | .cb => 32
  | .spair => 128
  | .sreg => 64

/-- The register number starts a pair or quad of the width (R35). -/
def alignedReg (w n : Nat) : Bool := n % (w / 32) == 0

/-- Whether a source may stand in a field of the role (R37, R38, R99). -/
def Role.accepts : Role → Src → Bool
  | .any w, .v n _ => alignedReg w n.toNat
  | .any w, .s n _ => w ≤ 64 || n.toNat % 2 == 0
  | .any _, .zero => true
  | .any w, .latch _ => w == 32
  | .any w, .tid => w == 32
  | .any w, .k n => w == 32 || (w == 64 && n.toNat % 2 == 0)
  | .any w, .imm _ => w ≤ 64
  | .any _, _ => false
  | .mov w, .h _ => w ≤ 64
  | .mov w, .v n _ => alignedReg w n.toNat
  | .mov w, .s n _ => w ≤ 64 || n.toNat % 2 == 0
  | .mov _, .zero => true
  | .mov w, .latch _ => w == 32
  | .mov w, .tid => w == 32
  | .mov w, .k n => w == 32 || (w == 64 && n.toNat % 2 == 0)
  | .mov w, .imm _ => w ≤ 64
  | .mov _, _ => false
  | .vreg w, .v n _ => alignedReg w n.toNat
  | .vreg _, _ => false
  | .uni _, .s _ _ => true
  | .uni _, .zero => true
  | .uni _, .imm _ => true
  | .uni w, .k n => w == 32 || n.toNat % 2 == 0
  | .uni _, _ => false
  | .skm _, .s _ _ => true
  | .skm _, .imm _ => true
  | .skm w, .k n => w == 32 || n.toNat % 2 == 0
  | .skm _, _ => false
  | .sm, .s _ _ => true
  | .sm, .imm _ => true
  | .sm, _ => false
  | .spair, .s n _ => n.toNat % 2 == 0
  | .spair, _ => false
  | .sreg, .s _ _ => true
  | .sreg, _ => false
  | .pred, .p _ => true
  | .pred, _ => false
  | .predZero, .p _ => true
  | .predZero, .zero => true
  | .predZero, _ => false
  | .cb, .cb _ => true
  | .cb, _ => false

/-- Sources that leave an instruction uniform (R21, R99). -/
def Src.scalar : Src → Bool
  | .s _ _ | .k _ | .imm _ | .zero => true
  | _ => false

/-- One source operand of a form: its role, and the bits `lo` up to `bits` that the form reads (R103). -/
structure SrcUse where
  src  : Src
  role : Role
  bits : Nat
  lo   : Nat := 0
  deriving DecidableEq, Repr

/-- What a destination field accepts. -/
inductive DRole where
  | vs (w : Nat)
  | v (w : Nat)
  | p
  | vsh (w : Nat)
  | s
  | sEven
  | tile
  | cb
  deriving DecidableEq, Repr

def DRole.width : DRole → Nat
  | .vs w | .v w | .vsh w => w
  | .p => 1
  | .s => 64
  | .sEven => 128
  | .tile | .cb => 32

def dstIsV (w : Nat) : Dst → Bool
  | .v n nwb => alignedReg w n.toNat && (!nwb || w == 32)
  | _ => false

def dstIsS (w : Nat) : Dst → Bool
  | .s n => w ≤ 64 || n.toNat % 2 == 0
  | _ => false

def dstIsH : Dst → Bool
  | .h _ => true
  | _ => false

/-- Whether a destination may stand in a field of the role (R35). -/
def DRole.accepts : DRole → Dst → Bool
  | .vs w, d => dstIsV w d || dstIsS w d
  | .v w, d => dstIsV w d
  | .p, .p _ => true
  | .p, _ => false
  | .vsh w, d => dstIsV w d || dstIsS w d || (w ≤ 64 && dstIsH d)
  | .s, d => dstIsS 64 d
  | .sEven, d => dstIsS 128 d
  | .tile, .tile _ => true
  | .tile, _ => false
  | .cb, .cb _ => true
  | .cb, _ => false

structure DstUse where
  dst  : Dst
  role : DRole
  deriving DecidableEq, Repr

/-- The privilege a form needs (R51). -/
inductive PrivNeed where
  | any | sup | hyp
  deriving DecidableEq, Repr

/-- The operands of an instruction, in SA, SB, SC order, with the limits its form sets. -/
structure Uses where
  ctl    : Ctl
  dst    : Option DstUse := none
  srcs   : List SrcUse := []
  /-- Predicates written beside the destination: pO of IADDC, pV of SHFL, QPOP, FPOP. -/
  pds    : List (BitVec 3) := []
  /-- A group instruction (R34, R136). -/
  group  : Bool := false
  priv   : PrivNeed := .any
  /-- Forms that are never uniform (R143, R194, R240, R99). -/
  lane   : Bool := false
  /-- Each source is read once, from the lowest thread of the execution mask (MOVS, R117; SRWR, R349). -/
  once   : Bool := false
  /-- The form acts once for the group and its traps name the whole execution mask (R272). -/
  whole  : Bool := false
  /-- What else the form's description demands (R46 condition 10). -/
  ok     : Bool := true
  deriving DecidableEq, Repr

def srcAny (w : Nat) (x : Src) : SrcUse := ⟨x, .any w, w, 0⟩
def srcUni (w : Nat) (x : Src) : SrcUse := ⟨x, .uni w, w, 0⟩
def srcPair (x : Src) : SrcUse := ⟨x, .spair, 128, 0⟩
def srcPred (n : BitVec 3) : SrcUse := ⟨.p n, .pred, 1, 0⟩
/-- A source of a type: its register width, of which the low `width` bits are read. -/
def srcTy (t : Ty) (x : Src) : SrcUse := ⟨x, .any t.regw, t.width, 0⟩
def dstVS (w : Nat) (d : Dst) : Option DstUse := some ⟨d, .vs w⟩
def dstV (w : Nat) (d : Dst) : Option DstUse := some ⟨d, .v w⟩
def dstS (n : BitVec 6) : Option DstUse := some ⟨.s n, .s⟩

def Ty.isB3264 (t : Ty) : Bool := t == .b32 || t == .b64
def Ty.isInt4 (t : Ty) : Bool := t == .i32 || t == .n32 || t == .i64 || t == .n64
def Ty.isSInt2 (t : Ty) : Bool := t == .i32 || t == .i64
def Ty.isNat2 (t : Ty) : Bool := t == .n32 || t == .n64
def Ty.isWideFloat (t : Ty) : Bool := t == .f16 || t == .bf16 || t == .f32 || t == .f64
def Ty.isPacked16 (t : Ty) : Bool := t == .f16 || t == .bf16
def Ty.isFloat (t : Ty) : Bool :=
  t.isWideFloat || t == .e5m2 || t == .e4m3 || t == .e3m2 || t == .e2m3 || t == .e2m1
def Ty.isCvtInt (t : Ty) : Bool :=
  t.isInt4 || t == .i8 || t == .n8 || t == .i16 || t == .n16
def Ty.isNarrowFloat (t : Ty) : Bool := t.isFloat && t != .f32 && t != .f64
/-- Fraction bits of a float format (R62). -/
def Ty.frac : Ty → Nat
  | .f64 => 52 | .f32 => 23 | .f16 => 10 | .bf16 => 7 | .e5m2 => 2 | .e4m3 => 3
  | .e3m2 => 2 | .e2m3 => 3 | .e2m1 => 1 | _ => 0
/-- Load types of R193. -/
def Ty.isLoad (t : Ty) : Bool :=
  t == .i8 || t == .n8 || t == .i16 || t == .n16 || t == .b32 || t == .b64 || t == .b128
/-- Store types of R193. -/
def Ty.isStore (t : Ty) : Bool := t == .b8 || t == .b16 || t == .b32 || t == .b64 || t == .b128
/-- Matrix formats of R257. -/
def Ty.isMatrix (t : Ty) : Bool :=
  t == .bin1 || t == .sgn1 || t == .tri2 || t == .i4 || t == .i8 || t == .n4 || t == .n8 || t == .e2m1 || t == .e2m3
    || t == .e3m2 || t == .e4m3 || t == .e5m2 || t == .bf16 || t == .f16
/-- Float operand formats of the matrix engine. -/
def Ty.isMatrixFloat (t : Ty) : Bool :=
  t == .e2m1 || t == .e2m3 || t == .e3m2 || t == .e4m3 || t == .e5m2 || t == .bf16 || t == .f16
/-- The plane count rule of R257 and R270. -/
def planesOk (t : Ty) (p : Nat) : Bool :=
  t.isMatrix && (if t.isMatrixFloat then 2 ≤ p && p ≤ 16 else p == t.width)
/-- Epilogue output types of R260. -/
def Ty.isEpi (t : Ty) : Bool :=
  t == .f32 || t == .bf16 || t == .f16 || t == .e4m3 || t == .e5m2 || t == .i8 || t == .i32

def Src.isImm : Src → Bool
  | .imm _ => true
  | _ => false

/-- The pairings of R90. -/
def unpackOk (dt st : Ty) : Bool :=
  match st with
  | .f16 | .bf16 | .e5m2 | .e4m3 | .e3m2 | .e2m3 | .e2m1 | .e8m0 => dt == .f32
  | .i4 | .i8 | .i16 => dt == .i32
  | .n4 | .n8 | .n16 => dt == .n32
  | .sgn1 | .tri2 => dt == .i32 || dt == .f32
  | .bin1 => dt == .i32 || dt == .f32 || dt == .n32
  | _ => false

/-- The operation and type pairs of R161. -/
def redOk (op : RedOp) (t : Ty) : Bool :=
  match op with
  | .add | .min | .max => t.isInt4 || t == .f32
  | .and | .or | .xor => t.isB3264

/-- The operation and type pairs of R242. -/
def aopOk (op : Aop) (t : Ty) : Bool :=
  match op with
  | .add | .min | .max => t.isInt4 || t == .f32 || t == .f64
  | .and | .or | .xor => t.isB3264
  | .exch | .cas => t.isB3264 || t == .b128
  | .inc | .dec => t.isNat2

/-- Comparison codes ISETP accepts (R114). -/
def Cmp.intOk : Cmp → Bool
  | .f | .lt | .eq | .le | .gt | .ne | .ge | .t => true
  | _ => false

/-- Numbers of the table of R326. -/
def srKnown (n : Nat) : Bool :=
  n ≤ 0x05 || (0x08 ≤ n && n ≤ 0x0C) || (0x10 ≤ n && n ≤ 0x14) || (0x18 ≤ n && n ≤ 0x1D) || n == 0x20

def binUses (c : Ctl) (t : Ty) (d : Dst) (a b : Src) (ok : Bool) : Uses :=
  { ctl := c, dst := dstVS t.regw d, srcs := [srcTy t a, srcTy t b], ok := ok }
def terUses (c : Ctl) (t : Ty) (d : Dst) (a b e : Src) (ok : Bool) : Uses :=
  { ctl := c, dst := dstVS t.regw d, srcs := [srcTy t a, srcTy t b, srcTy t e], ok := ok }
def unUses (c : Ctl) (t : Ty) (d : Dst) (a : Src) (ok : Bool) : Uses :=
  { ctl := c, dst := dstVS t.regw d, srcs := [srcTy t a], ok := ok }
/-- A shift: operand b is a 32-bit count (R107). -/
def shiftUses (x : Bin) : Uses :=
  { ctl := x.ctl, dst := dstVS x.ty.regw x.d, srcs := [srcTy x.ty x.a, srcAny 32 x.b], ok := x.ty.isB3264 }
/-- A count: a 32-bit destination (R107). -/
def countUses (x : Un) (ok : Bool) : Uses :=
  { ctl := x.ctl, dst := dstVS 32 x.d, srcs := [srcTy x.ty x.a], ok := ok }
def carryUses (x : Carry) : Uses :=
  { ctl := x.ctl, dst := dstV x.ty.regw x.d,
    srcs := [srcTy x.ty x.a, srcTy x.ty x.b, ⟨x.ci, .predZero, 1, 0⟩], pds := [x.co], lane := true, ok := x.ty.isNat2 }
def setpUses (x : Setp) (ok : Bool) : Uses :=
  { ctl := x.ctl, dst := some ⟨.p x.pd, .p⟩, srcs := [srcTy x.ty x.a, srcTy x.ty x.b, srcPred x.pc], ok := ok }
def fbinUses (x : FBin) (ok : Bool) : Uses := binUses x.ctl x.ty x.d x.a x.b ok
def fterUses (x : FTer) (ok : Bool) : Uses := terUses x.ctl x.ty x.d x.a x.b x.c ok
def fmmUses (x : FMinMax) (ok : Bool) : Uses := binUses x.ctl x.ty x.d x.a x.b ok
/-- Packed forms read and write 32-bit registers (R121). -/
def packedUses (c : Ctl) (d : Dst) (xs : List Src) (ok : Bool) : Uses :=
  { ctl := c, dst := dstVS 32 d, srcs := xs.map (srcAny 32), ok := ok }
def Src.isZero : Src → Bool
  | .zero => true
  | _ => false
/-- R83 names neither `zero` as a 64-bit source of a conversion nor `zero` beside its s destination. -/
def zeroOk (w : Nat) (d : Dst) (xs : List Src) : Bool :=
  xs.all fun x => !x.isZero || (w != 64 && (match d with
    | .s _ => false
    | _ => true))
/-- RCP to TANH take the operands of R99 (R128). -/
def specUses (x : SpecUn) : Uses :=
  { ctl := x.ctl, dst := dstVS 32 x.d, srcs := [srcAny 32 x.a] }
/-- A conversion; a small immediate only where R83 accepts it. -/
def cvtUses (x : Cvt) (ok : Bool) : Uses :=
  { ctl := x.ctl, dst := dstVS x.dt.regw x.d, srcs := [srcTy x.st x.a],
    ok := ok && (!x.a.isImm || x.st.isWideFloat || x.st.isCvtInt) && zeroOk x.st.regw x.d [x.a] }
def addrSrcs (w : Nat) (ad : Addr) : List SrcUse := [srcAny w ad.a, srcAny 32 ad.b]
def loadUses (x : Ld) (w : Nat) (d : Option DstUse) (ok : Bool) : Uses :=
  { ctl := x.ctl, dst := d, srcs := addrSrcs w x.ad, ok := ok && decide (x.ad.scale.toNat ≤ 4) }
def storeUses (x : St) (w : Nat) (lane ok : Bool) : Uses :=
  { ctl := x.ctl, srcs := addrSrcs w x.ad ++ [srcTy x.ty x.c], lane := lane,
    ok := ok && x.ty.isStore && decide (x.ad.scale.toNat ≤ 4) }
def qpopUses (x : Qpop) : Uses :=
  { ctl := x.ctl, dst := dstV x.ty.regw x.d, pds := [x.pv], lane := true, ok := x.ty.isB3264 }
def atomUses (c : Ctl) (t : Ty) (op : Aop) (d : Option DstUse) (w : Nat) (a b : Src) (e : Option Src) (ok : Bool) : Uses :=
  { ctl := c, dst := d, srcs := [srcAny w a, srcTy t b] ++ (e.map (srcTy t)).toList,
    ok := ok && aopOk op t && (e.isSome == (op == .cas)) }
/-- .pod only on a relaxed ATOM, ATOMX or RED (R218). -/
def podOk (scope : Scope) (rlx : Bool) : Bool := scope != .pod || rlx
def scopeUses (x : ScopeF) : Uses := { ctl := x.ctl, lane := true, ok := x.scope != .pod }
def planeUses (c : Ctl) (d : Option DstUse) (srcs : List SrcUse) (t : Ty) (p1 : BitVec 4) : Uses :=
  { ctl := c, dst := d, srcs := srcs, ok := planesOk t (p1.toNat + 1) }
def grpUses (c : Ctl) (srcs : List SrcUse) (ok : Bool) : Uses := { ctl := c, srcs := srcs, group := true, ok := ok }
def sdUses (c : Ctl) (d : BitVec 6) (srcs : List SrcUse) (p : PrivNeed) (ok : Bool) : Uses :=
  { ctl := c, dst := dstS d, srcs := srcs, priv := p, ok := ok }
def ctlUses (c : Ctl) : Uses := { ctl := c, lane := true }
/-- The control word of an event row: it has none; guard true, no hints. -/
def noCtl : Ctl := ⟨⟨false, 7⟩, ⟨0, false, 7, 0⟩⟩

/-- Operands and limits of every form. Event rows take none. PACKN's third source has no source type: R83 rejects no
small immediate there and the model accepts one, read as a 32-bit integer (DESIGN CHOICE, log 73). R103 does not say whether a half
whose bits a form ignores is read: the upper half of LEAX.join's and .win's b is not, that of BFX's and BFI's control word is (DESIGN
CHOICE, log 117). -/
def Instr.uses : Instr → Uses
  | .mov x => { ctl := x.ctl, dst := some ⟨x.d, .vsh x.ty.regw⟩, srcs := [⟨x.a, .mov x.ty.regw, x.ty.width, 0⟩],
                ok := x.ty.isB3264 || x.ty == .b128 }
  | .movi x => { ctl := x.ctl, dst := dstVS 32 x.d, ok := x.mode == .zx || dstIsS 64 x.d }
  | .movs x => { ctl := x.ctl, dst := some ⟨x.d, .s⟩, srcs := [⟨x.a, .vreg x.ty.regw, x.ty.width, 0⟩], lane := true, once := true,
                 ok := x.ty.isB3264 }
  | .movv x => { ctl := x.ctl, dst := dstV x.ty.regw x.d, srcs := [⟨x.a, .skm x.ty.regw, x.ty.width, 0⟩, ⟨x.b, .sm, 32, 0⟩],
                 lane := true, ok := x.ty.isB3264 }
  | .iadd x => binUses x.ctl x.ty x.d x.a x.b x.ty.isInt4
  | .iaddc x => carryUses x
  | .isub x => binUses x.ctl x.ty x.d x.a x.b x.ty.isInt4
  | .isubb x => carryUses x
  | .imul x => binUses x.ctl x.ty x.d x.a x.b x.ty.isInt4
  | .imulh x => binUses x.ctl x.ty x.d x.a x.b x.ty.isInt4
  | .imad x => terUses x.ctl x.ty x.d x.a x.b x.c x.ty.isInt4
  | .imadw x => { ctl := x.ctl, dst := dstVS 64 x.d, srcs := [srcAny 32 x.a, srcAny 32 x.b, srcAny 64 x.c],
                  ok := x.ty == .i32 || x.ty == .n32 }
  | .idiv x => binUses x.ctl x.ty x.d x.a x.b x.ty.isInt4
  | .irem x => binUses x.ctl x.ty x.d x.a x.b x.ty.isInt4
  | .imin x => binUses x.ctl x.ty x.d x.a x.b x.ty.isInt4
  | .imax x => binUses x.ctl x.ty x.d x.a x.b x.ty.isInt4
  | .iabs x => unUses x.ctl x.ty x.d x.a x.ty.isSInt2
  | .ineg x => unUses x.ctl x.ty x.d x.a x.ty.isSInt2
  | .and x => binUses x.ctl x.ty x.d x.a x.b x.ty.isB3264
  | .or x => binUses x.ctl x.ty x.d x.a x.b x.ty.isB3264
  | .xor x => binUses x.ctl x.ty x.d x.a x.b x.ty.isB3264
  | .andn x => binUses x.ctl x.ty x.d x.a x.b x.ty.isB3264
  | .not x => unUses x.ctl x.ty x.d x.a x.ty.isB3264
  | .shl x => shiftUses x
  | .shr x => shiftUses x
  | .sar x => shiftUses x
  | .rot x => shiftUses x
  | .fshl x => { ctl := x.ctl, dst := dstVS x.ty.regw x.d, srcs := [srcTy x.ty x.a, srcTy x.ty x.b, srcAny 32 x.c],
                 ok := x.ty.isB3264 }
  | .popc x => countUses x x.ty.isB3264
  | .clz x => countUses x x.ty.isB3264
  | .ctz x => countUses x x.ty.isB3264
  | .brev x => unUses x.ctl x.ty x.d x.a x.ty.isB3264
  | .bfx x => { ctl := x.ctl, dst := dstVS x.ty.regw x.d, srcs := [srcTy x.ty x.a, srcAny 32 x.b], ok := x.ty.isInt4 }
  | .bfi x => { ctl := x.ctl, dst := dstVS x.ty.regw x.d, srcs := [srcTy x.ty x.a, srcTy x.ty x.b, srcAny 32 x.c],
                ok := x.ty.isB3264 }
  | .isetp x => setpUses x (x.ty.isInt4 && x.cmp.intOk)
  | .isel x => { ctl := x.ctl, dst := dstVS x.ty.regw x.d, srcs := [srcTy x.ty x.a, srcTy x.ty x.b, srcPred x.pc],
                 ok := x.ty.isB3264 }
  | .lea x => { ctl := x.ctl, dst := dstVS 64 x.d, srcs := [srcAny 64 x.a, srcTy x.ty x.b, srcAny 32 x.c],
                ok := x.ty.isInt4 }
  | .leax x =>
    match x.mode with
    | .add c _ => { ctl := x.ctl, dst := dstVS 128 x.d, srcs := [⟨x.a, .any 128, 72, 0⟩, srcTy x.ty x.b, srcAny 32 c],
                    ok := x.ty.isInt4 }
    | .join | .win => { ctl := x.ctl, dst := dstVS 128 x.d, srcs := [srcAny 64 x.a, ⟨x.b, .any 32, 8, 0⟩], ok := x.ty.isInt4 }
  | .fadd x => fbinUses x (x.ty == .f32)
  | .fsub x => fbinUses x (x.ty == .f32)
  | .fmul x => fbinUses x (x.ty == .f32)
  | .ffma x => fterUses x (x.ty == .f32)
  | .fmin x => fmmUses x (x.ty == .f32)
  | .fmax x => fmmUses x (x.ty == .f32)
  | .fsetp x => setpUses x (x.ty == .f32)
  | .fclass x => countUses x x.ty.isWideFloat
  | .fscale x => { ctl := x.ctl, dst := dstVS x.ty.regw x.d, srcs := [srcTy x.ty x.a, srcAny 32 x.b], ok := x.ty.isWideFloat }
  | .frnd x => unUses x.ctl x.ty x.d x.a x.ty.isWideFloat
  | .hadd2 x => packedUses x.ctl x.d [x.a, x.b] x.ty.isPacked16
  | .hmul2 x => packedUses x.ctl x.d [x.a, x.b] x.ty.isPacked16
  | .hfma2 x => packedUses x.ctl x.d [x.a, x.b, x.c] x.ty.isPacked16
  | .hmin2 x => packedUses x.ctl x.d [x.a, x.b] x.ty.isPacked16
  | .hmax2 x => packedUses x.ctl x.d [x.a, x.b] x.ty.isPacked16
  | .dadd x => fbinUses x (x.ty == .f64)
  | .dmul x => fbinUses x (x.ty == .f64)
  | .dfma x => fterUses x (x.ty == .f64)
  | .dsetp x => setpUses x (x.ty == .f64)
  | .dmin x => fmmUses x (x.ty == .f64)
  | .dmax x => fmmUses x (x.ty == .f64)
  | .rcp x => specUses x
  | .rsq x => specUses x
  | .sqrt x => specUses x
  | .ex2 x => specUses x
  | .lg2 x => specUses x
  | .sinpi x => specUses x
  | .cospi x => specUses x
  | .tanh x => specUses x
  | .cvtff x => cvtUses x (x.dt.isFloat && x.st.isFloat && x.dt != x.st)
  | .cvtfi x => cvtUses x (x.dt.isCvtInt && x.st.isWideFloat && !x.sat)
  | .cvtif x => cvtUses x (x.dt.isWideFloat && x.st.isCvtInt)
  | .packn x =>
    { ctl := x.ctl, dst := dstVS 32 x.d, srcs := [srcAny 32 x.a, srcAny 32 x.b, srcAny 32 x.c],
      ok := ((x.dt.isNarrowFloat && x.st == .f32)
              || ((x.dt == .i16 || x.dt == .n16 || x.dt == .i8 || x.dt == .n8 || x.dt == .i4 || x.dt == .n4)
                  && (x.st == .i32 || x.st == .n32) && x.rm == .rne))
            && decide (x.p.toNat < 16 / x.dt.container) && zeroOk 32 x.d [x.a, x.b] }
  | .unpackn x =>
    { ctl := x.ctl, dst := dstVS 32 x.d, srcs := [⟨x.a, .any 32, (x.i.toNat + 1) * x.st.container, x.i.toNat * x.st.container⟩],
      ok := unpackOk x.dt x.st && decide (x.i.toNat < 32 / x.st.container)
            && (!x.a.isImm || x.st.isWideFloat || x.st.isCvtInt) && zeroOk 32 x.d [x.a] }
  | .scaleb x => { ctl := x.ctl, dst := dstVS x.dt.regw x.d,
                   srcs := [srcTy x.dt x.a, ⟨x.b, .any 32, (x.j.toNat + 1) * 8, x.j.toNat * 8⟩],
                   ok := x.dt.isWideFloat && !x.b.isImm && zeroOk x.dt.regw x.d [x.a] && zeroOk 32 x.d [x.b] }
  | .rand x => { ctl := x.ctl, dst := dstV x.ty.regw x.d, lane := true, ok := x.ty == .b32 || x.ty == .f32 || x.ty == .b64 }
  | .cvtsr x => cvtUses x (x.dt.isNarrowFloat && (x.st == .f32 || x.st == .f16 || x.st == .bf16)
                           && decide (x.dt.frac < x.st.frac) && x.rm == .rne)
  | .part x => grpUses x.ctl [] (1 ≤ x.log2s.toNat && x.log2s.toNat ≤ 5)
  | .vote x => { ctl := x.ctl, dst := if x.mode == .ballot then dstV 32 x.d else some ⟨x.d, .p⟩,
                 srcs := [srcPred x.pa], lane := true }
  | .shfl x => { ctl := x.ctl, dst := dstV x.ty.regw x.d, srcs := [srcTy x.ty x.a, srcAny 32 x.b], pds := [x.pv],
                 lane := true, ok := x.ty.isB3264 }
  | .redux x => { ctl := x.ctl, dst := dstV x.ty.regw x.d, srcs := [srcTy x.ty x.a], lane := true, ok := redOk x.op x.ty }
  | .scan x => { ctl := x.ctl, dst := dstV x.ty.regw x.d, srcs := [srcTy x.ty x.a], lane := true, ok := redOk x.op x.ty }
  | .match_ x => { ctl := x.ctl, dst := dstV 32 x.d, srcs := [srcTy x.ty x.a], lane := true, ok := x.ty.isB3264 }
  | .elect x => { ctl := x.ctl, dst := some ⟨.p x.pd, .p⟩, group := true }
  | .bcast x => { ctl := x.ctl, dst := dstV x.ty.regw x.d, srcs := [srcTy x.ty x.a], lane := true, ok := x.ty.isB3264 }
  | .bra x => ctlUses x.ctl
  | .brx x => { ctl := x.ctl, srcs := [srcAny 32 x.a], lane := true }
  | .call x => { ctl := x.ctl, dst := dstV 32 (.v x.d false), lane := true }
  | .callx x => { ctl := x.ctl, dst := dstV 32 (.v x.d false), srcs := [srcAny 32 x.a], lane := true }
  | .ret x => { ctl := x.ctl, srcs := [srcAny 32 x.a], lane := true }
  | .land x => ctlUses x.ctl
  | .exit x => ctlUses x.ctl
  | .yield x => ctlUses x.ctl
  | .pause x => ctlUses x.ctl
  | .sleep x => { ctl := x.ctl, srcs := [srcAny 32 x.a], lane := true }
  | .nop x => ctlUses x.ctl
  | .cbarm x => ctlUses x.ctl
  | .cbwait x => ctlUses x.ctl
  | .bar x => grpUses x.ctl [] true
  | .barc x => grpUses x.ctl [] true
  | .ld x => loadUses x 128 (dstVS x.ty.regw x.d) x.ty.isLoad
  | .st x => storeUses x 128 false (!x.var)
  | .lds x => loadUses x (if x.var then 64 else 32) (dstVS x.ty.regw x.d) x.ty.isLoad
  | .sts x => storeUses x (if x.var then 64 else 32) false true
  | .ldp x => { loadUses x 32 (dstV x.ty.regw x.d) (x.ty.isLoad && !x.var) with lane := true }
  | .stp x => storeUses x 32 true (!x.var)
  | .ldx x => loadUses x 128 (dstVS x.ty.regw x.d) x.ty.isLoad
  | .stx x => storeUses x 128 false (!x.var)
  | .mcst x => { ctl := x.ctl, srcs := [srcAny 32 x.a, srcAny 128 x.m, srcTy x.ty x.c], lane := true, ok := x.ty.isB3264 }
  | .ldc x => { ctl := x.ctl, dst := dstVS x.ty.regw x.d, srcs := [srcAny 32 x.a, srcAny 32 x.b],
                ok := x.ty.isB3264 && decide (x.scale.toNat ≤ 4) }
  | .ldun x => { loadUses x 128 (dstV x.ty.regw x.d)
                  (!x.var && (x.ty == .i16 || x.ty == .n16 || x.ty == .b32 || x.ty == .b64 || x.ty == .b128)) with lane := true }
  | .pref x => { ctl := x.ctl, srcs := addrSrcs 128 x.ad, lane := true, ok := decide (x.ad.scale.toNat ≤ 4) }
  | .wbp x => { ctl := x.ctl, srcs := addrSrcs 32 x.ad, lane := true, ok := decide (x.ad.scale.toNat ≤ 4) }
  | .wbpAll x => ctlUses x.ctl
  | .qpop x => qpopUses x
  | .qpeek x => qpopUses x
  | .fpush x => { ctl := x.ctl, srcs := [srcTy x.ty x.c], lane := true, ok := x.ty.isB3264 }
  | .fpop x => { ctl := x.ctl, dst := dstV x.ty.regw x.d, pds := [x.pv], lane := true, ok := x.ty.isB3264 }
  | .atom x => atomUses x.ctl x.ty x.aop (dstVS x.ty.regw x.d) 128 x.a x.b x.c (podOk x.scope (x.sem == .rlx))
  | .atoms x => atomUses x.ctl x.ty x.aop (dstVS x.ty.regw x.d) (if x.pe then 64 else 32) x.a x.b x.c
      (x.scope == .grp || x.scope == .team || x.scope == .clu)
  | .atomx x => atomUses x.ctl x.ty x.aop (dstVS x.ty.regw x.d) 128 x.a x.b x.c (podOk x.scope (x.sem == .rlx))
  | .red x => atomUses x.ctl x.ty x.aop none 128 x.a x.b none
      (podOk x.scope (!x.rel) && x.aop != .exch && x.aop != .cas)
  | .fence x => scopeUses x
  | .xfence x => ctlUses x.ctl
  | .acq x => scopeUses x
  | .rel x => scopeUses x
  | .acqr x => { ctl := x.ctl, srcs := [srcAny 32 x.a], lane := true }
  | .ptsrd x => { ctl := x.ctl, dst := dstVS 64 x.d }
  | .lease x => { ctl := x.ctl, srcs := [srcAny 128 x.a, srcAny 32 x.b] }
  | .swarm x => { ctl := x.ctl, srcs := [srcAny 32 x.a, srcAny 32 x.b] }
  | .swwait x => { ctl := x.ctl, dst := dstVS 64 x.d, srcs := [srcAny 32 x.a, srcAny 32 x.b] }
  | .swgen x => { ctl := x.ctl, dst := dstVS 64 x.d, srcs := [srcAny 32 x.a] }
  | .objdecl x => { ctl := x.ctl, dst := dstS x.d, srcs := [srcPair x.a] }
  | .objdrop x => { ctl := x.ctl, dst := dstS x.d, srcs := [⟨x.a, .sreg, 64, 0⟩] }
  | .mxop x => { grpUses x.ctl [srcUni 32 x.a] true with dst := dstS x.d }
  | .mxzero x => { ctl := x.ctl, ok := x.mask != 0 }
  | .mxrd x => { ctl := x.ctl, dst := dstV 32 x.d, srcs := [srcAny 32 x.a], lane := true }
  | .mxwr x => { ctl := x.ctl, dst := some ⟨.tile x.n, .tile⟩, srcs := [srcAny 32 x.a, srcAny 32 x.b], lane := true }
  | .mxst x => { ctl := x.ctl, srcs := [srcAny 32 x.a], lane := true }
  | .plane x => { planeUses x.ctl none [srcUni 32 x.a, ⟨x.b, .any 32, x.fmt.width, 0⟩, srcUni 32 x.c] x.fmt x.p1 with whole := true }
  | .unplane x => { planeUses x.ctl (dstV 32 x.d) [srcUni 32 x.a, srcUni 32 x.c] x.fmt x.p1 with lane := true }
  | .mxperm x => { ctl := x.ctl, dst := some ⟨.tile x.td, .tile⟩, srcs := [srcUni 32 x.a] }
  | .mxwait x => { ctl := x.ctl, srcs := [srcUni 32 x.a] }
  | .mxqry x => sdUses x.ctl x.d [] .any true
  | .mxepi x => { ctl := x.ctl, srcs := [srcAny 32 x.a, srcAny 32 x.b], lane := true,
                  ok := x.dt.isEpi && (x.st == .f32 || x.st == .i32) }
  | .leave x => { ctl := x.ctl, srcs := [srcUni 32 x.a] }
  | .mxscl x => { ctl := x.ctl, srcs := [srcAny 32 x.a], lane := true }
  | .cpstat x => sdUses x.ctl x.d [] .any true
  | .outrdy x => { ctl := x.ctl }
  | .tcond x => sdUses x.ctl x.d [srcUni 64 x.a] .any true
  | .tdone x => grpUses x.ctl [srcUni 32 x.a] true
  | .tspawn x => sdUses x.ctl x.d [srcPair x.a] .any true
  | .tqry x => sdUses x.ctl x.d [] .any true
  | .astart x => grpUses x.ctl [] true
  | .aloop x => grpUses x.ctl [srcUni 32 x.a] true
  | .astrm x => grpUses x.ctl [if x.sp then srcUni 32 x.a else srcPair x.a] (x.ty.isB3264 && decide (x.m.toNat ≤ 123))
  | .aend x => grpUses x.ctl [] true
  | .trap x => { ctl := x.ctl }
  | .rett x => { ctl := x.ctl }
  | .srrd x => { ctl := x.ctl, dst := dstVS x.ty.regw x.d,
                 ok := x.ty.isB3264 && srKnown x.num.toNat && (match x.d with | .v _ nwb => !nwb | _ => true) }
  | .srwr x => { ctl := x.ctl, srcs := [srcTy x.ty x.a], once := true, ok := x.ty.isB3264 && srKnown x.num.toNat }
  | .logrd x => { ctl := x.ctl, dst := some ⟨.s x.d, .sEven⟩ }
  | .haltStop x => sdUses x.ctl x.d [srcUni 64 x.a] .sup true
  | .haltResume x => sdUses x.ctl x.d [srcUni 64 x.a] .sup true
  | .haltKill x => sdUses x.ctl x.d [srcUni 64 x.a] .sup true
  | .sysc x => sdUses x.ctl x.d [srcUni 32 x.a] .any true
  | .evwait x => { sdUses x.ctl x.d [srcUni 32 x.a] .sup true with dst := some ⟨.s x.d, .sEven⟩ }
  | .evsigSig x => sdUses x.ctl x.d [srcUni 32 x.a, srcUni 64 x.b] .sup true
  | .evsigAns x => sdUses x.ctl x.d [srcUni 64 x.a, srcUni 64 x.b] .sup true
  | .tlbinvVa x => sdUses x.ctl x.d [srcPair x.a, srcUni 32 x.b] .sup true
  | .tlbinvCtx x => sdUses x.ctl x.d [srcUni 32 x.a, srcUni 32 x.b] .sup true
  | .tlbinvZone x => sdUses x.ctl x.d [srcUni 32 x.a, srcUni 32 x.b] .hyp true
  | .fbresp x => sdUses x.ctl x.d [srcUni 32 x.a] .sup true
  | .ctxsave x => sdUses x.ctl x.d [srcPair x.a, srcUni 32 x.b, srcUni 64 x.c] .sup (x.n == 1 || x.n == 2)
  | .ctxload x => sdUses x.ctl x.d [srcPair x.a] .sup true
  | .ctxq x => sdUses x.ctl x.d [srcUni 32 x.a] .sup (x.sel.toNat ≤ 4)
  | .qmap x => sdUses x.ctl x.d [srcUni 32 x.a, srcUni 32 x.b] .sup true
  | .qunmap x => sdUses x.ctl x.d [srcUni 32 x.a] .sup true
  | .zcreate x => sdUses x.ctl x.d [srcPair x.a, srcUni 32 x.b] .hyp true
  | .zdestroy x => sdUses x.ctl x.d [srcUni 32 x.z] .hyp true
  | .zgrow x => sdUses x.ctl x.d [srcPair x.a, srcUni 32 x.b] .hyp true
  | .zshrink x => sdUses x.ctl x.d [srcPair x.a, srcUni 32 x.b] .hyp true
  | .zslices x => sdUses x.ctl x.d [srcPair x.a, srcUni 32 x.z] .hyp true
  | .zwaysL2 x => sdUses x.ctl x.d [srcUni 32 x.z, srcUni 64 x.m] .hyp true
  | .zwaysVault x => sdUses x.ctl x.d [srcUni 32 x.z, srcUni 64 x.m] .hyp true
  | .zchan x => sdUses x.ctl x.d [srcPair x.a, srcUni 32 x.b] .hyp true
  | .zcoins x => sdUses x.ctl x.d [srcUni 64 x.a, srcUni 32 x.b] .hyp true
  | .zscrub x => sdUses x.ctl x.d [srcPair x.a] .hyp true
  | .zcommit x => sdUses x.ctl x.d [srcUni 32 x.z] .hyp true
  | .zquery x => sdUses x.ctl x.d [srcUni 32 x.z] .any (x.sel.toNat ≤ 9)
  | .capq x => sdUses x.ctl x.d [srcPair x.a] .any true
  | .ffenceFull x => ctlUses x.ctl
  | .ffenceRel x => ctlUses x.ctl
  | .ffenceAcq x => ctlUses x.ctl
  | .ptprd x => sdUses x.ctl x.d [] .any true
  | .timens x => sdUses x.ctl x.d [] .any true
  | .peerq x => sdUses x.ctl x.d [srcUni 32 x.a] .any true
  | .rlease x => { ctl := x.ctl, srcs := [srcAny 128 x.a, srcAny 32 x.b] }
  | .fcontainFence x => sdUses x.ctl x.d [srcUni 32 x.a] .hyp true
  | .fcontainClear x => sdUses x.ctl x.d [srcUni 32 x.a] .hyp true
  | _ => { ctl := noCtl, ok := false }

/-- OPC of each form, class and operation (R33, R50); none for an event row. -/
def Instr.opc : Instr → Option (BitVec 10)
  | .mov _ => some 0x000 | .movi _ => some 0x001 | .movs _ => some 0x002 | .movv _ => some 0x003
  | .iadd _ => some 0x004 | .iaddc _ => some 0x005 | .isub _ => some 0x006 | .isubb _ => some 0x007
  | .imul _ => some 0x008 | .imulh _ => some 0x009 | .imad _ => some 0x00A | .imadw _ => some 0x00B
  | .idiv _ => some 0x00C | .irem _ => some 0x00D | .imin _ => some 0x00E | .imax _ => some 0x00F
  | .iabs _ => some 0x010 | .ineg _ => some 0x011 | .and _ => some 0x012 | .or _ => some 0x013
  | .xor _ => some 0x014 | .andn _ => some 0x015 | .not _ => some 0x016 | .shl _ => some 0x017
  | .shr _ => some 0x018 | .sar _ => some 0x019 | .rot _ => some 0x01A | .fshl _ => some 0x01B
  | .popc _ => some 0x01C | .clz _ => some 0x01D | .ctz _ => some 0x01E | .brev _ => some 0x01F
  | .bfx _ => some 0x020 | .bfi _ => some 0x021 | .isetp _ => some 0x022 | .isel _ => some 0x023
  | .lea _ => some 0x024 | .leax _ => some 0x025
  | .fadd _ => some 0x040 | .fsub _ => some 0x041 | .fmul _ => some 0x042 | .ffma _ => some 0x043
  | .fmin _ => some 0x044 | .fmax _ => some 0x045 | .fsetp _ => some 0x046 | .fclass _ => some 0x047
  | .fscale _ => some 0x048 | .frnd _ => some 0x049 | .hadd2 _ => some 0x04A | .hmul2 _ => some 0x04B
  | .hfma2 _ => some 0x04C | .hmin2 _ => some 0x04D | .hmax2 _ => some 0x04E | .dadd _ => some 0x04F
  | .dmul _ => some 0x050 | .dfma _ => some 0x051 | .dsetp _ => some 0x052 | .dmin _ => some 0x053
  | .dmax _ => some 0x054
  | .rcp _ => some 0x080 | .rsq _ => some 0x081 | .sqrt _ => some 0x082 | .ex2 _ => some 0x083
  | .lg2 _ => some 0x084 | .sinpi _ => some 0x085 | .cospi _ => some 0x086 | .tanh _ => some 0x087
  | .cvtff _ => some 0x088 | .cvtfi _ => some 0x089 | .cvtif _ => some 0x08A | .packn _ => some 0x08B
  | .unpackn _ => some 0x08C | .scaleb _ => some 0x08D | .rand _ => some 0x08E | .cvtsr _ => some 0x08F
  | .part _ => some 0x0C0 | .vote _ => some 0x0C1 | .shfl _ => some 0x0C2 | .redux _ => some 0x0C3
  | .scan _ => some 0x0C4 | .match_ _ => some 0x0C5 | .elect _ => some 0x0C6 | .bcast _ => some 0x0C7
  | .bra _ => some 0x100 | .brx _ => some 0x101 | .call _ => some 0x102 | .callx _ => some 0x103
  | .ret _ => some 0x104 | .land _ => some 0x105 | .exit _ => some 0x106 | .yield _ => some 0x107
  | .pause _ => some 0x108 | .sleep _ => some 0x109 | .nop _ => some 0x10A | .cbarm _ => some 0x10B
  | .cbwait _ => some 0x10C | .bar _ => some 0x10D | .barc _ => some 0x10E
  | .ld _ => some 0x140 | .st _ => some 0x141 | .lds _ => some 0x142 | .sts _ => some 0x143
  | .ldp _ => some 0x144 | .stp _ => some 0x145 | .ldx _ => some 0x146 | .stx _ => some 0x147
  | .mcst _ => some 0x148 | .ldc _ => some 0x149 | .ldun _ => some 0x14A | .pref _ => some 0x14B
  | .wbp _ => some 0x14C | .wbpAll _ => some 0x14C | .qpop _ => some 0x14D | .qpeek _ => some 0x14E
  | .fpush _ => some 0x14F | .fpop _ => some 0x150
  | .atom _ => some 0x180 | .atoms _ => some 0x181 | .atomx _ => some 0x182 | .red _ => some 0x183
  | .fence _ => some 0x184 | .xfence _ => some 0x185 | .acq _ => some 0x186 | .rel _ => some 0x187
  | .acqr _ => some 0x188 | .ptsrd _ => some 0x189 | .lease _ => some 0x18A | .swarm _ => some 0x18B
  | .swwait _ => some 0x18C | .swgen _ => some 0x18D | .objdecl _ => some 0x18E | .objdrop _ => some 0x18F
  | .mxop _ => some 0x1C0 | .mxzero _ => some 0x1C1 | .mxrd _ => some 0x1C2 | .mxwr _ => some 0x1C3
  | .mxst _ => some 0x1C4 | .plane _ => some 0x1C5 | .unplane _ => some 0x1C6 | .mxperm _ => some 0x1C7
  | .mxwait _ => some 0x1C8 | .mxqry _ => some 0x1C9 | .mxepi _ => some 0x1CA | .leave _ => some 0x1CB
  | .mxscl _ => some 0x1CC
  | .cpstat _ => some 0x200 | .outrdy _ => some 0x201 | .tcond _ => some 0x202 | .tdone _ => some 0x203
  | .tspawn _ => some 0x204 | .tqry _ => some 0x205 | .astart _ => some 0x206 | .aloop _ => some 0x207
  | .astrm _ => some 0x208 | .aend _ => some 0x209
  | .trap _ => some 0x240 | .rett _ => some 0x241 | .srrd _ => some 0x242 | .srwr _ => some 0x243
  | .logrd _ => some 0x244 | .haltStop _ => some 0x245 | .haltResume _ => some 0x245 | .haltKill _ => some 0x245
  | .sysc _ => some 0x246 | .evwait _ => some 0x247 | .evsigSig _ => some 0x248 | .evsigAns _ => some 0x248
  | .tlbinvVa _ => some 0x249 | .tlbinvCtx _ => some 0x249 | .tlbinvZone _ => some 0x249
  | .fbresp _ => some 0x24A | .ctxsave _ => some 0x24B | .ctxload _ => some 0x24C | .ctxq _ => some 0x24D
  | .qmap _ => some 0x24E | .qunmap _ => some 0x24F
  | .zcreate _ => some 0x280 | .zdestroy _ => some 0x281 | .zgrow _ => some 0x282 | .zshrink _ => some 0x283
  | .zslices _ => some 0x284 | .zwaysL2 _ => some 0x285 | .zwaysVault _ => some 0x285 | .zchan _ => some 0x286
  | .zcoins _ => some 0x287 | .zscrub _ => some 0x288 | .zcommit _ => some 0x289 | .zquery _ => some 0x28A
  | .capq _ => some 0x28B
  | .ffenceFull _ => some 0x2C0 | .ffenceRel _ => some 0x2C0 | .ffenceAcq _ => some 0x2C0 | .ptprd _ => some 0x2C1
  | .timens _ => some 0x2C2 | .peerq _ => some 0x2C3 | .rlease _ => some 0x2C4 | .fcontainFence _ => some 0x2C5
  | .fcontainClear _ => some 0x2C5
  | _ => none

/-- R21: destination and sources all in the scalar file. ISEL's predicate is not counted (R99). -/
def Uses.uniform (u : Uses) : Bool :=
  !u.lane && u.pds.isEmpty
    && (match u.dst with
        | none => true
        | some ⟨.s _, _⟩ => true
        | some _ => false)
    && u.srcs.all fun x => x.role == .pred || x.src.scalar

/-- An s destination takes only scalar sources (R83, R99, R194, R240); MOVS is the exception (R99). -/
def Uses.sDstOk (u : Uses) : Bool :=
  match u.dst with
  | some ⟨.s _, .s⟩ => true
  | some ⟨.s _, .sEven⟩ => true
  | some ⟨.s _, _⟩ => u.srcs.all fun x => x.role == .pred || x.src.scalar
  | _ => true

/-- R34: group instructions take only the true guard or NEVER. -/
def Guard.plainOnly (g : Guard) : Bool := g.pred == 7

/-- Conditions 3 to 10 of R46 as far as the word alone decides them; the allocated v count is checked at issue. -/
def Uses.legal (u : Uses) : Bool :=
  u.ok && u.ctl.hint.setsb != 6 && (!u.group || u.ctl.guard.plainOnly)
    && (match u.dst with
        | none => true
        | some d => d.role.accepts d.dst)
    && u.srcs.all (fun x => x.role.accepts x.src) && u.sDstOk

/-- The v registers an operand names stay below the allocated count (R46 condition 4). -/
def Uses.regsOk (u : Uses) (regs : Nat) : Bool :=
  (match u.dst with
    | some ⟨.v n _, r⟩ => decide (n.toNat + (r.width + 31) / 32 ≤ regs)
    | _ => true)
    && u.srcs.all fun x =>
        match x.src with
        | .v n _ => decide (n.toNat + (x.role.width + 31) / 32 ≤ regs)
        | _ => true

/-- Unit classes of R50. -/
inductive UnitClass where
  | integer | float | special | cross | control | memory | matrix | task | system
  deriving DecidableEq, Repr

def unitOf (opc : BitVec 10) : UnitClass :=
  match (opc >>> 6).toNat with
  | 0 => .integer
  | 1 => .float
  | 2 => .special
  | 3 => .cross
  | 4 => .control
  | 5 | 6 => .memory
  | 7 => .matrix
  | 8 => .task
  | _ => .system

/-- R44: a lane instruction with a 32-bit result in file v; MOVV writes no latch (R117). -/
def Instr.latches (i : Instr) : Bool :=
  match i with
  | .movv _ => false
  | _ =>
    match i.uses.dst with
    | some ⟨.v _ _, r⟩ => r.width == 32
    | _ => false

end Sys2Proof
end

