-- ==== Sys2Proof/WellFormed.lean ====
section
/-!
DEFINITION. Well-formed instructions: those some 96-bit word stands for, as R46 leaves them.
-/

namespace Sys2Proof

/-- The instruction has an encoding and its form accepts every operand, type and mode it holds. -/
def Instr.wellFormed (i : Instr) : Bool := i.opc.isSome && i.uses.legal

end Sys2Proof
end

