-- ==== Sys2Proof/Decode.lean ====
section
/-!
DEFINITION. The 96-bit word: its fields (R33), the encoding of every operand and form (R34 to R50), the decoder, which
rejects by name, and the encoder.
-/

namespace Sys2Proof

/-- The fields of R33, from the highest bit down. -/
structure Fields where
  opc : BitVec 10
  grd : BitVec 4
  dst : BitVec 12
  sa  : BitVec 12
  sb  : BitVec 12
  sc  : BitVec 12
  mod : BitVec 20
  hnt : BitVec 14
  deriving DecidableEq, Repr

/-- The word that holds the fields (R33). -/
def Fields.word (f : Fields) : BitVec 96 :=
  f.opc ++ f.grd ++ f.dst ++ f.sa ++ f.sb ++ f.sc ++ f.mod ++ f.hnt

/-- The fields of a word (R33). -/
def Fields.ofWord (w : BitVec 96) : Fields :=
  { opc := w.extractLsb' 86 10, grd := w.extractLsb' 82 4, dst := w.extractLsb' 70 12, sa := w.extractLsb' 58 12,
    sb := w.extractLsb' 46 12, sc := w.extractLsb' 34 12, mod := w.extractLsb' 14 20, hnt := w.extractLsb' 0 14 }

def bit1 (b : Bool) : BitVec 1 := BitVec.ofBool b

/-! Codes. -/

/-- Type codes (R49). -/
def Ty.code : Ty → BitVec 5
  | .i4 => 0x01 | .n4 => 0x02 | .i8 => 0x03 | .n8 => 0x04 | .i16 => 0x05 | .n16 => 0x06 | .i32 => 0x07 | .n32 => 0x08
  | .i64 => 0x09 | .n64 => 0x0A | .f16 => 0x0B | .bf16 => 0x0C | .f32 => 0x0D | .f64 => 0x0E | .e5m2 => 0x0F
  | .e4m3 => 0x10 | .e3m2 => 0x11 | .e2m3 => 0x12 | .e2m1 => 0x13 | .e8m0 => 0x14 | .bin1 => 0x15 | .sgn1 => 0x16
  | .tri2 => 0x17 | .b8 => 0x18 | .b16 => 0x19 | .b32 => 0x1A | .b64 => 0x1B | .b128 => 0x1C

def Ty.ofCode (c : BitVec 5) : Option Ty :=
  match c.toNat with
  | 0x01 => some .i4 | 0x02 => some .n4 | 0x03 => some .i8 | 0x04 => some .n8 | 0x05 => some .i16 | 0x06 => some .n16
  | 0x07 => some .i32 | 0x08 => some .n32 | 0x09 => some .i64 | 0x0A => some .n64 | 0x0B => some .f16
  | 0x0C => some .bf16 | 0x0D => some .f32 | 0x0E => some .f64 | 0x0F => some .e5m2 | 0x10 => some .e4m3
  | 0x11 => some .e3m2 | 0x12 => some .e2m3 | 0x13 => some .e2m1 | 0x14 => some .e8m0 | 0x15 => some .bin1
  | 0x16 => some .sgn1 | 0x17 => some .tri2 | 0x18 => some .b8 | 0x19 => some .b16 | 0x1A => some .b32
  | 0x1B => some .b64 | 0x1C => some .b128
  | _ => none

/-- RM (R68). -/
def RM.code : RM → BitVec 3
  | .rne => 0 | .rz => 1 | .ru => 2 | .rd => 3 | .rna => 4

def RM.ofCode (c : BitVec 3) : Option RM :=
  match c.toNat with
  | 0 => some .rne | 1 => some .rz | 2 => some .ru | 3 => some .rd | 4 => some .rna
  | _ => none

/-- CMP (R114). -/
def Cmp.code : Cmp → BitVec 4
  | .f => 0x0 | .lt => 0x1 | .eq => 0x2 | .le => 0x3 | .gt => 0x4 | .ne => 0x5 | .ge => 0x6 | .num => 0x7
  | .nan => 0x8 | .ltu => 0x9 | .equ => 0xA | .leu => 0xB | .gtu => 0xC | .neu => 0xD | .geu => 0xE | .t => 0xF

def Cmp.ofCode (c : BitVec 4) : Cmp :=
  match c.toNat with
  | 0x0 => .f | 0x1 => .lt | 0x2 => .eq | 0x3 => .le | 0x4 => .gt | 0x5 => .ne | 0x6 => .ge | 0x7 => .num
  | 0x8 => .nan | 0x9 => .ltu | 0xA => .equ | 0xB => .leu | 0xC => .gtu | 0xD => .neu | 0xE => .geu
  | _ => .t

/-- BOOL (R115). -/
def BoolOp.code : BoolOp → BitVec 2
  | .and => 0 | .or => 1 | .xor => 2

def BoolOp.ofCode (c : BitVec 2) : Option BoolOp :=
  match c.toNat with
  | 0 => some .and | 1 => some .or | 2 => some .xor
  | _ => none

def MoviMode.code : MoviMode → BitVec 2
  | .zx => 0 | .sx => 1 | .hi => 2

def MoviMode.ofCode (c : BitVec 2) : Option MoviMode :=
  match c.toNat with
  | 0 => some .zx | 1 => some .sx | 2 => some .hi
  | _ => none

def VoteMode.code : VoteMode → BitVec 2
  | .all => 0 | .any => 1 | .uni => 2 | .ballot => 3

def VoteMode.ofCode (c : BitVec 2) : VoteMode :=
  match c.toNat with
  | 0 => .all | 1 => .any | 2 => .uni
  | _ => .ballot

def ShflMode.code : ShflMode → BitVec 2
  | .idx => 0 | .up => 1 | .down => 2 | .xor => 3

def ShflMode.ofCode (c : BitVec 2) : ShflMode :=
  match c.toNat with
  | 0 => .idx | 1 => .up | 2 => .down
  | _ => .xor

/-- OP of R161. -/
def RedOp.code : RedOp → BitVec 3
  | .add => 0 | .min => 1 | .max => 2 | .and => 3 | .or => 4 | .xor => 5

def RedOp.ofCode (c : BitVec 3) : Option RedOp :=
  match c.toNat with
  | 0 => some .add | 1 => some .min | 2 => some .max | 3 => some .and | 4 => some .or | 5 => some .xor
  | _ => none

/-- AOP (R242). -/
def Aop.code : Aop → BitVec 4
  | .add => 0 | .min => 1 | .max => 2 | .and => 3 | .or => 4 | .xor => 5 | .exch => 6 | .cas => 7 | .inc => 8 | .dec => 9

def Aop.ofCode (c : BitVec 4) : Option Aop :=
  match c.toNat with
  | 0 => some .add | 1 => some .min | 2 => some .max | 3 => some .and | 4 => some .or | 5 => some .xor
  | 6 => some .exch | 7 => some .cas | 8 => some .inc | 9 => some .dec
  | _ => none

/-- SEM (R239). -/
def Sem.code : Sem → BitVec 2
  | .rlx => 0 | .acq => 1 | .rel => 2 | .ar => 3

def Sem.ofCode (c : BitVec 2) : Sem :=
  match c.toNat with
  | 0 => .rlx | 1 => .acq | 2 => .rel
  | _ => .ar

/-- SCOPE (R217). -/
def Scope.code : Scope → BitVec 3
  | .grp => 0 | .team => 1 | .clu => 2 | .dist => 3 | .dev => 4 | .pod => 5

def Scope.ofCode (c : BitVec 3) : Option Scope :=
  match c.toNat with
  | 0 => some .grp | 1 => some .team | 2 => some .clu | 3 => some .dist | 4 => some .dev | 5 => some .pod
  | _ => none

/-! Operand fields. -/

def Guard.enc (g : Guard) : BitVec 4 := bit1 g.neg ++ g.pred
def Guard.dec (b : BitVec 4) : Guard := ⟨b.getLsbD 3, b.extractLsb' 0 3⟩
def Hint.enc (h : Hint) : BitVec 14 := h.gap ++ bit1 h.cede ++ h.setsb ++ h.wait
def Hint.dec (b : BitVec 14) : Hint := ⟨b.extractLsb' 10 4, b.getLsbD 9, b.extractLsb' 6 3, b.extractLsb' 0 6⟩

/-- DST (R33, R35). -/
def Dst.enc : Dst → BitVec 12
  | .v n nwb => bit1 nwb ++ 0#2 ++ n ++ 0#1
  | .s n => 0#1 ++ 1#2 ++ 0#2 ++ n ++ 0#1
  | .p n => 0#1 ++ 2#2 ++ 0#5 ++ n ++ 0#1
  | .tile n => 0#1 ++ 3#2 ++ 0#4 ++ n ++ 0#1
  | .h n => 0#1 ++ 3#2 ++ 4#4 ++ n ++ 0#1
  | .cb n => 0#1 ++ 3#2 ++ 12#5 ++ n ++ 0#1

def Dst.dec (b : BitVec 12) : Option Dst :=
  match (b.extractLsb' 9 2).toNat with
  | 0 => some (.v (b.extractLsb' 1 8) (b.getLsbD 11))
  | 1 => some (.s (b.extractLsb' 1 6))
  | 2 => some (.p (b.extractLsb' 1 3))
  | _ =>
    match (b.extractLsb' 5 4).toNat with
    | 0 => some (.tile (b.extractLsb' 1 4))
    | 4 => some (.h (b.extractLsb' 1 4))
    | 6 => some (.cb (b.extractLsb' 1 3))
    | _ => none

/-- L and K (R36, R39). -/
def Life.enc : Life → BitVec 2
  | .plain => 0 | .keep => 1 | .last => 2

def Life.dec (b : BitVec 2) : Option Life :=
  match b.toNat with
  | 0 => some .plain | 1 => some .keep | 2 => some .last
  | _ => none

/-- A source field (R36, R37). -/
def Src.enc : Src → BitVec 12
  | .v n l => l.enc ++ 0#2 ++ n
  | .s n l => l.enc ++ 1#2 ++ 0#2 ++ n
  | .latch n => 0#2 ++ 2#2 ++ 0#6 ++ n
  | .zero => 0x210#12
  | .tid => 0x211#12
  | .p n => 0#2 ++ 2#2 ++ 4#5 ++ n
  | .h n => 0#2 ++ 2#2 ++ 4#4 ++ n
  | .cb n => 0#2 ++ 2#2 ++ 12#5 ++ n
  | .k n => 0#2 ++ 3#2 ++ 0#1 ++ n
  | .imm n => 0#2 ++ 3#2 ++ 1#1 ++ n

def Src.dec (b : BitVec 12) : Option Src :=
  match (b.extractLsb' 8 2).toNat with
  | 0 => (Life.dec (b.extractLsb' 10 2)).map (.v (b.extractLsb' 0 8))
  | 1 => (Life.dec (b.extractLsb' 10 2)).map (.s (b.extractLsb' 0 6))
  | 2 =>
    match (b.extractLsb' 4 4).toNat with
    | 0 => some (.latch (b.extractLsb' 0 2))
    | 1 => some (if b.getLsbD 0 then .tid else .zero)
    | 2 => some (.p (b.extractLsb' 0 3))
    | 4 => some (.h (b.extractLsb' 0 4))
    | 6 => some (.cb (b.extractLsb' 0 3))
    | _ => none
  | _ => some (if b.getLsbD 7 then .imm (b.extractLsb' 0 7) else .k (b.extractLsb' 0 7))

/-! Forms. A shape's encoder fills the fields its form uses and leaves the others zero (R33); its decoder reads them back. -/

def Fields.ctl (f : Fields) : Ctl := ⟨Guard.dec f.grd, Hint.dec f.hnt⟩

/-- The fields of a form, unused ones zero. -/
def mkFields (c : Ctl) (opc : BitVec 10) (dst sa sb sc : BitVec 12) (mod : BitVec 20) : Fields :=
  { opc := opc, grd := c.guard.enc, dst := dst, sa := sa, sb := sb, sc := sc, mod := mod, hnt := c.hint.enc }

def Fields.ty (f : Fields) : Option Ty := Ty.ofCode (f.mod.extractLsb' 15 5)
def Fields.ty2 (f : Fields) : Option Ty := Ty.ofCode (f.mod.extractLsb' 10 5)
def Fields.rm (f : Fields) : Option RM := RM.ofCode (f.mod.extractLsb' 7 3)
def Fields.sat (f : Fields) : Bool := f.mod.getLsbD 6
def Fields.d (f : Fields) : Option Dst := Dst.dec f.dst
def Fields.a (f : Fields) : Option Src := Src.dec f.sa
def Fields.b (f : Fields) : Option Src := Src.dec f.sb
def Fields.c (f : Fields) : Option Src := Src.dec f.sc
/-- The s or v register number of a destination whose file the form fixes. -/
def Fields.dS (f : Fields) : BitVec 6 := f.dst.extractLsb' 1 6
def Fields.dV (f : Fields) : BitVec 8 := f.dst.extractLsb' 1 8
def sDst (n : BitVec 6) : BitVec 12 := Dst.enc (.s n)
/-- The I32 immediate (R40). -/
def Fields.imm32 (f : Fields) : W32 := f.sc ++ f.sb ++ f.mod.extractLsb' 0 8

def CtlOnly.enc (o : BitVec 10) (m : BitVec 20) (x : CtlOnly) : Fields := mkFields x.ctl o 0 0 0 0 m
def CtlOnly.dec (f : Fields) : Option CtlOnly := some ⟨f.ctl⟩

def Un.enc (o : BitVec 10) (x : Un) : Fields := mkFields x.ctl o x.d.enc x.a.enc 0 0 (x.ty.code ++ 0#15)
def Un.dec (f : Fields) : Option Un := do return ⟨f.ctl, ← f.ty, ← f.d, ← f.a⟩

def UnS.enc (o : BitVec 10) (x : UnS) : Fields :=
  mkFields x.ctl o x.d.enc x.a.enc 0 0 (x.ty.code ++ 0#8 ++ bit1 x.sat ++ 0#6)
def UnS.dec (f : Fields) : Option UnS := do return ⟨f.ctl, ← f.ty, f.sat, ← f.d, ← f.a⟩

def Bin.enc (o : BitVec 10) (x : Bin) : Fields := mkFields x.ctl o x.d.enc x.a.enc x.b.enc 0 (x.ty.code ++ 0#15)
def Bin.dec (f : Fields) : Option Bin := do return ⟨f.ctl, ← f.ty, ← f.d, ← f.a, ← f.b⟩

def BinS.enc (o : BitVec 10) (x : BinS) : Fields :=
  mkFields x.ctl o x.d.enc x.a.enc x.b.enc 0 (x.ty.code ++ 0#8 ++ bit1 x.sat ++ 0#6)
def BinS.dec (f : Fields) : Option BinS := do return ⟨f.ctl, ← f.ty, f.sat, ← f.d, ← f.a, ← f.b⟩

def Ter.enc (o : BitVec 10) (x : Ter) : Fields :=
  mkFields x.ctl o x.d.enc x.a.enc x.b.enc x.c.enc (x.ty.code ++ 0#15)
def Ter.dec (f : Fields) : Option Ter := do return ⟨f.ctl, ← f.ty, ← f.d, ← f.a, ← f.b, ← f.c⟩

def TerS.enc (o : BitVec 10) (x : TerS) : Fields :=
  mkFields x.ctl o x.d.enc x.a.enc x.b.enc x.c.enc (x.ty.code ++ 0#8 ++ bit1 x.sat ++ 0#6)
def TerS.dec (f : Fields) : Option TerS := do return ⟨f.ctl, ← f.ty, f.sat, ← f.d, ← f.a, ← f.b, ← f.c⟩

/-- MOVI (R40, R117). -/
def Movi.enc (o : BitVec 10) (x : Movi) : Fields :=
  mkFields x.ctl o x.d.enc 0 (x.imm.extractLsb' 8 12) (x.imm.extractLsb' 20 12)
    (0#10 ++ x.mode.code ++ x.imm.extractLsb' 0 8)
def Movi.dec (f : Fields) : Option Movi := do
  return ⟨f.ctl, ← MoviMode.ofCode (f.mod.extractLsb' 8 2), ← f.d, f.imm32⟩

def Carry.enc (o : BitVec 10) (x : Carry) : Fields :=
  mkFields x.ctl o x.d.enc x.a.enc x.b.enc x.ci.enc (x.ty.code ++ 0#12 ++ x.co)
def Carry.dec (f : Fields) : Option Carry := do
  return ⟨f.ctl, ← f.ty, ← f.d, f.mod.extractLsb' 0 3, ← f.a, ← f.b, ← f.c⟩

/-- ISETP, FSETP, DSETP (R115): the predicate operand stands in SC. -/
def Setp.enc (o : BitVec 10) (x : Setp) : Fields :=
  mkFields x.ctl o (Dst.enc (.p x.pd)) x.a.enc x.b.enc (Src.enc (.p x.pc))
    (x.ty.code ++ 0#5 ++ x.cmp.code ++ x.bop.code ++ bit1 x.negc ++ 0#3)
def Setp.dec (f : Fields) : Option Setp := do
  return ⟨f.ctl, ← f.ty, Cmp.ofCode (f.mod.extractLsb' 6 4), ← BoolOp.ofCode (f.mod.extractLsb' 4 2), f.mod.getLsbD 3,
    f.dst.extractLsb' 1 3, ← f.a, ← f.b, f.sc.extractLsb' 0 3⟩

def Sel.enc (o : BitVec 10) (x : Sel) : Fields :=
  mkFields x.ctl o x.d.enc x.a.enc x.b.enc (Src.enc (.p x.pc)) (x.ty.code ++ 0#11 ++ bit1 x.negc ++ 0#3)
def Sel.dec (f : Fields) : Option Sel := do
  return ⟨f.ctl, ← f.ty, f.mod.getLsbD 3, ← f.d, ← f.a, ← f.b, f.sc.extractLsb' 0 3⟩

def Lea.enc (o : BitVec 10) (x : Lea) : Fields :=
  mkFields x.ctl o x.d.enc x.a.enc x.b.enc x.c.enc (x.ty.code ++ 0#12 ++ x.sh)
def Lea.dec (f : Fields) : Option Lea := do
  return ⟨f.ctl, ← f.ty, f.mod.extractLsb' 0 3, ← f.d, ← f.a, ← f.b, ← f.c⟩

/-- LEAX (R119): `.join` and `.win` have no c and no shift. -/
def Leax.enc (o : BitVec 10) (x : Leax) : Fields :=
  match x.mode with
  | .add c sh => mkFields x.ctl o x.d.enc x.a.enc x.b.enc c.enc (x.ty.code ++ 0#12 ++ sh)
  | .join => mkFields x.ctl o x.d.enc x.a.enc x.b.enc 0 (x.ty.code ++ 0#5 ++ 1#2 ++ 0#8)
  | .win => mkFields x.ctl o x.d.enc x.a.enc x.b.enc 0 (x.ty.code ++ 0#5 ++ 2#2 ++ 0#8)
def Leax.decMode (f : Fields) : Option LeaxMode :=
  match (f.mod.extractLsb' 8 2).toNat with
  | 0 => f.c.map fun c => .add c (f.mod.extractLsb' 0 3)
  | 1 => some .join
  | 2 => some .win
  | _ => none
def Leax.dec (f : Fields) : Option Leax := do return ⟨f.ctl, ← f.ty, ← Leax.decMode f, ← f.d, ← f.a, ← f.b⟩

def FBin.enc (o : BitVec 10) (x : FBin) : Fields :=
  mkFields x.ctl o x.d.enc x.a.enc x.b.enc 0 (x.ty.code ++ 0#5 ++ x.rm.code ++ bit1 x.sat ++ 0#6)
def FBin.dec (f : Fields) : Option FBin := do return ⟨f.ctl, ← f.ty, ← f.rm, f.sat, ← f.d, ← f.a, ← f.b⟩

def FTer.enc (o : BitVec 10) (x : FTer) : Fields :=
  mkFields x.ctl o x.d.enc x.a.enc x.b.enc x.c.enc (x.ty.code ++ 0#5 ++ x.rm.code ++ bit1 x.sat ++ 0#6)
def FTer.dec (f : Fields) : Option FTer := do return ⟨f.ctl, ← f.ty, ← f.rm, f.sat, ← f.d, ← f.a, ← f.b, ← f.c⟩

def FMinMax.enc (o : BitVec 10) (x : FMinMax) : Fields :=
  mkFields x.ctl o x.d.enc x.a.enc x.b.enc 0 (x.ty.code ++ 0#9 ++ bit1 x.nanp ++ 0#5)
def FMinMax.dec (f : Fields) : Option FMinMax := do return ⟨f.ctl, ← f.ty, f.mod.getLsbD 5, ← f.d, ← f.a, ← f.b⟩

def Frnd.enc (o : BitVec 10) (x : Frnd) : Fields :=
  mkFields x.ctl o x.d.enc x.a.enc 0 0 (x.ty.code ++ 0#5 ++ x.rm.code ++ 0#1 ++ bit1 x.x ++ 0#5)
def Frnd.dec (f : Fields) : Option Frnd := do return ⟨f.ctl, ← f.ty, ← f.rm, f.mod.getLsbD 5, ← f.d, ← f.a⟩

/-- RCP to TANH (R128): the type field is .f32. -/
def SpecUn.enc (o : BitVec 10) (x : SpecUn) : Fields := mkFields x.ctl o x.d.enc x.a.enc 0 0 (0x0D#5 ++ 0#15)
def SpecUn.dec (f : Fields) : Option SpecUn := do return ⟨f.ctl, ← f.d, ← f.a⟩

def Cvt.enc (o : BitVec 10) (x : Cvt) : Fields :=
  mkFields x.ctl o x.d.enc x.a.enc 0 0 (x.dt.code ++ x.st.code ++ x.rm.code ++ bit1 x.sat ++ 0#6)
def Cvt.dec (f : Fields) : Option Cvt := do return ⟨f.ctl, ← f.ty, ← f.ty2, ← f.rm, f.sat, ← f.d, ← f.a⟩

def Packn.enc (o : BitVec 10) (x : Packn) : Fields :=
  mkFields x.ctl o x.d.enc x.a.enc x.b.enc x.c.enc (x.dt.code ++ x.st.code ++ x.rm.code ++ bit1 x.sat ++ 0#3 ++ x.p)
def Packn.dec (f : Fields) : Option Packn := do
  return ⟨f.ctl, ← f.ty, ← f.ty2, ← f.rm, f.sat, f.mod.extractLsb' 0 3, ← f.d, ← f.a, ← f.b, ← f.c⟩

def Unpackn.enc (o : BitVec 10) (x : Unpackn) : Fields :=
  mkFields x.ctl o x.d.enc x.a.enc 0 0 (x.dt.code ++ x.st.code ++ 0#5 ++ x.i)
def Unpackn.dec (f : Fields) : Option Unpackn := do
  return ⟨f.ctl, ← f.ty, ← f.ty2, f.mod.extractLsb' 0 5, ← f.d, ← f.a⟩

/-- SCALEB (R82): the source type field is .e8m0. -/
def Scaleb.enc (o : BitVec 10) (x : Scaleb) : Fields :=
  mkFields x.ctl o x.d.enc x.a.enc x.b.enc 0 (x.dt.code ++ 0x14#5 ++ x.rm.code ++ bit1 x.sat ++ 0#4 ++ x.j)
def Scaleb.dec (f : Fields) : Option Scaleb := do
  return ⟨f.ctl, ← f.ty, ← f.rm, f.sat, f.mod.extractLsb' 0 2, ← f.d, ← f.a, ← f.b⟩

def RandF.enc (o : BitVec 10) (x : RandF) : Fields := mkFields x.ctl o x.d.enc 0 0 0 (x.ty.code ++ 0#15)
def RandF.dec (f : Fields) : Option RandF := do return ⟨f.ctl, ← f.ty, ← f.d⟩

def Part.enc (o : BitVec 10) (x : Part) : Fields := mkFields x.ctl o 0 0 0 0 (0#17 ++ x.log2s)
def Part.dec (f : Fields) : Option Part := some ⟨f.ctl, f.mod.extractLsb' 0 3⟩

def Vote.enc (o : BitVec 10) (x : Vote) : Fields :=
  mkFields x.ctl o x.d.enc (Src.enc (.p x.pa)) 0 0 (0#10 ++ x.mode.code ++ 0#4 ++ bit1 x.nega ++ 0#3)
def Vote.dec (f : Fields) : Option Vote := do
  return ⟨f.ctl, VoteMode.ofCode (f.mod.extractLsb' 8 2), f.mod.getLsbD 3, ← f.d, f.sa.extractLsb' 0 3⟩

def Shfl.enc (o : BitVec 10) (x : Shfl) : Fields :=
  mkFields x.ctl o x.d.enc x.a.enc x.b.enc 0 (x.ty.code ++ 0#5 ++ x.mode.code ++ 0#5 ++ x.pv)
def Shfl.dec (f : Fields) : Option Shfl := do
  return ⟨f.ctl, ← f.ty, ShflMode.ofCode (f.mod.extractLsb' 8 2), f.mod.extractLsb' 0 3, ← f.d, ← f.a, ← f.b⟩

def Redux.enc (o : BitVec 10) (x : Redux) : Fields :=
  mkFields x.ctl o x.d.enc x.a.enc 0 0 (x.ty.code ++ 0#5 ++ x.op.code ++ 0#7)
def Redux.dec (f : Fields) : Option Redux := do
  return ⟨f.ctl, ← f.ty, ← RedOp.ofCode (f.mod.extractLsb' 7 3), ← f.d, ← f.a⟩

def Scan.enc (o : BitVec 10) (x : Scan) : Fields :=
  mkFields x.ctl o x.d.enc x.a.enc 0 0 (x.ty.code ++ 0#5 ++ x.op.code ++ bit1 x.excl ++ 0#6)
def Scan.dec (f : Fields) : Option Scan := do
  return ⟨f.ctl, ← f.ty, ← RedOp.ofCode (f.mod.extractLsb' 7 3), f.sat, ← f.d, ← f.a⟩

def Elect.enc (o : BitVec 10) (x : Elect) : Fields := mkFields x.ctl o (Dst.enc (.p x.pd)) 0 0 0 0
def Elect.dec (f : Fields) : Option Elect := some ⟨f.ctl, f.dst.extractLsb' 1 3⟩

/-- BRA (R40, R143). -/
def BraF.enc (o : BitVec 10) (x : BraF) : Fields :=
  mkFields x.ctl o 0 0 (x.imm.extractLsb' 8 12) (x.imm.extractLsb' 20 12) (0#12 ++ x.imm.extractLsb' 0 8)
def BraF.dec (f : Fields) : Option BraF := some ⟨f.ctl, f.imm32⟩

def CallF.enc (o : BitVec 10) (x : CallF) : Fields :=
  mkFields x.ctl o (Dst.enc (.v x.d false)) 0 (x.imm.extractLsb' 8 12) (x.imm.extractLsb' 20 12)
    (0#12 ++ x.imm.extractLsb' 0 8)
def CallF.dec (f : Fields) : Option CallF := some ⟨f.ctl, f.dV, f.imm32⟩

def CallxF.enc (o : BitVec 10) (x : CallxF) : Fields := mkFields x.ctl o (Dst.enc (.v x.d false)) x.a.enc 0 0 0
def CallxF.dec (f : Fields) : Option CallxF := do return ⟨f.ctl, f.dV, ← f.a⟩

def SrcF.enc (o : BitVec 10) (x : SrcF) : Fields := mkFields x.ctl o 0 x.a.enc 0 0 0
def SrcF.dec (f : Fields) : Option SrcF := do return ⟨f.ctl, ← f.a⟩

def Cbarm.enc (o : BitVec 10) (x : Cbarm) : Fields := mkFields x.ctl o (Dst.enc (.cb x.n)) 0 0 0 (0#19 ++ bit1 x.or)
def Cbarm.dec (f : Fields) : Option Cbarm := some ⟨f.ctl, f.mod.getLsbD 0, f.dst.extractLsb' 1 3⟩

def Cbwait.enc (o : BitVec 10) (x : Cbwait) : Fields := mkFields x.ctl o 0 (Src.enc (.cb x.n)) 0 0 0
def Cbwait.dec (f : Fields) : Option Cbwait := some ⟨f.ctl, f.sa.extractLsb' 0 3⟩

def BarF.enc (o : BitVec 10) (x : BarF) : Fields := mkFields x.ctl o 0 0 0 0 (0#16 ++ x.b)
def BarF.dec (f : Fields) : Option BarF := some ⟨f.ctl, f.mod.extractLsb' 0 4⟩

def BarcF.enc (o : BitVec 10) (x : BarcF) : Fields := mkFields x.ctl o 0 0 0 0 (0#18 ++ x.b)
def BarcF.dec (f : Fields) : Option BarcF := some ⟨f.ctl, f.mod.extractLsb' 0 2⟩

/-- MOD of class 0x5 (R192). -/
def memMod (ty : BitVec 5) (ad : Addr) (var : Bool) : BitVec 20 :=
  ty ++ ad.scale ++ bit1 ad.ixu ++ bit1 var ++ ad.off
def Fields.addr (f : Fields) : Option Addr := do
  return ⟨← f.a, ← f.b, f.mod.extractLsb' 12 3, f.mod.getLsbD 11, f.mod.extractLsb' 0 10⟩

def Ld.enc (o : BitVec 10) (x : Ld) : Fields :=
  mkFields x.ctl o x.d.enc x.ad.a.enc x.ad.b.enc 0 (memMod x.ty.code x.ad x.var)
def Ld.dec (f : Fields) : Option Ld := do return ⟨f.ctl, ← f.ty, f.mod.getLsbD 10, ← f.d, ← f.addr⟩

def St.enc (o : BitVec 10) (x : St) : Fields :=
  mkFields x.ctl o 0 x.ad.a.enc x.ad.b.enc x.c.enc (memMod x.ty.code x.ad x.var)
def St.dec (f : Fields) : Option St := do return ⟨f.ctl, ← f.ty, f.mod.getLsbD 10, ← f.addr, ← f.c⟩

def Mcst.enc (o : BitVec 10) (x : Mcst) : Fields :=
  mkFields x.ctl o 0 x.a.enc x.m.enc x.c.enc (x.ty.code ++ 0#5 ++ x.off)
def Mcst.dec (f : Fields) : Option Mcst := do return ⟨f.ctl, ← f.ty, ← f.a, ← f.b, ← f.c, f.mod.extractLsb' 0 10⟩

def Ldc.enc (o : BitVec 10) (x : Ldc) : Fields :=
  mkFields x.ctl o x.d.enc x.a.enc x.b.enc 0 (x.ty.code ++ x.scale ++ bit1 x.ixu ++ 0#1 ++ x.bank ++ x.off)
def Ldc.dec (f : Fields) : Option Ldc := do
  return ⟨f.ctl, ← f.ty, ← f.d, ← f.a, ← f.b, f.mod.extractLsb' 12 3, f.mod.getLsbD 11, f.mod.extractLsb' 7 3,
    f.mod.extractLsb' 0 7⟩

def Pref.enc (o : BitVec 10) (x : Pref) : Fields := mkFields x.ctl o 0 x.ad.a.enc x.ad.b.enc 0 (memMod 0 x.ad x.l2)
def Pref.dec (f : Fields) : Option Pref := do return ⟨f.ctl, f.mod.getLsbD 10, ← f.addr⟩

def Wbp.enc (o : BitVec 10) (x : Wbp) : Fields := mkFields x.ctl o 0 x.ad.a.enc x.ad.b.enc 0 (memMod 0 x.ad false)
def Wbp.dec (f : Fields) : Option Wbp := do return ⟨f.ctl, ← f.addr⟩

def Qpop.enc (o : BitVec 10) (x : Qpop) : Fields :=
  mkFields x.ctl o x.d.enc 0 0 0 (x.ty.code ++ 0#5 ++ x.n ++ 0#4 ++ x.pv)
def Qpop.dec (f : Fields) : Option Qpop := do
  return ⟨f.ctl, ← f.ty, f.mod.extractLsb' 7 3, f.mod.extractLsb' 0 3, ← f.d⟩

def Fpush.enc (o : BitVec 10) (x : Fpush) : Fields := mkFields x.ctl o 0 0 0 x.c.enc (x.ty.code ++ 0#6 ++ x.n ++ 0#7)
def Fpush.dec (f : Fields) : Option Fpush := do return ⟨f.ctl, ← f.ty, f.mod.extractLsb' 7 2, ← f.c⟩

def Fpop.enc (o : BitVec 10) (x : Fpop) : Fields :=
  mkFields x.ctl o x.d.enc 0 0 0 (x.ty.code ++ 0#6 ++ x.n ++ 0#4 ++ x.pv)
def Fpop.dec (f : Fields) : Option Fpop := do
  return ⟨f.ctl, ← f.ty, f.mod.extractLsb' 7 2, f.mod.extractLsb' 0 3, ← f.d⟩

def optSrc : Option Src → BitVec 12
  | none => 0
  | some c => c.enc
/-- SC of an atomic: present for .cas alone (R240). -/
def Fields.casSrc (f : Fields) (op : Aop) : Option (Option Src) :=
  if op = .cas then f.c.map some else some none
def atomMod (t : Ty) (op : Aop) (sem : BitVec 2) (sc : Scope) (off : BitVec 6) : BitVec 20 :=
  t.code ++ op.code ++ sem ++ sc.code ++ off
def Fields.aop (f : Fields) : Option Aop := Aop.ofCode (f.mod.extractLsb' 11 4)
def Fields.sem (f : Fields) : Sem := Sem.ofCode (f.mod.extractLsb' 9 2)
def Fields.scope (f : Fields) : Option Scope := Scope.ofCode (f.mod.extractLsb' 6 3)

def Atom.enc (o : BitVec 10) (x : Atom) : Fields :=
  mkFields x.ctl o x.d.enc x.a.enc x.b.enc (optSrc x.c) (atomMod x.ty x.aop x.sem.code x.scope x.off)
def Atom.dec (f : Fields) : Option Atom := do
  let op ← f.aop
  return ⟨f.ctl, ← f.ty, op, f.sem, ← f.scope, f.mod.extractLsb' 0 6, ← f.d, ← f.a, ← f.b, ← f.casSrc op⟩

def Atoms.enc (o : BitVec 10) (x : Atoms) : Fields :=
  mkFields x.ctl o x.d.enc x.a.enc x.b.enc (optSrc x.c) (atomMod x.ty x.aop x.sem.code x.scope (bit1 x.pe ++ x.off))
def Atoms.dec (f : Fields) : Option Atoms := do
  let op ← f.aop
  return ⟨f.ctl, ← f.ty, op, f.sem, ← f.scope, f.mod.getLsbD 5, f.mod.extractLsb' 0 5, ← f.d, ← f.a, ← f.b, ← f.casSrc op⟩

/-- RED (R240): SEM is 00 or 10. -/
def Red.enc (o : BitVec 10) (x : Red) : Fields :=
  mkFields x.ctl o 0 x.a.enc x.b.enc 0 (atomMod x.ty x.aop (bit1 x.rel ++ 0#1) x.scope x.off)
def Red.dec (f : Fields) : Option Red := do
  return ⟨f.ctl, ← f.ty, ← f.aop, f.mod.getLsbD 10, ← f.scope, f.mod.extractLsb' 0 6, ← f.a, ← f.b⟩

def ScopeF.enc (o : BitVec 10) (x : ScopeF) : Fields := mkFields x.ctl o 0 0 0 0 (0#11 ++ x.scope.code ++ 0#6)
def ScopeF.dec (f : Fields) : Option ScopeF := do return ⟨f.ctl, ← f.scope⟩

def Ptsrd.enc (o : BitVec 10) (x : Ptsrd) : Fields := mkFields x.ctl o x.d.enc 0 0 0 0
def Ptsrd.dec (f : Fields) : Option Ptsrd := do return ⟨f.ctl, ← f.d⟩

def Off2.enc (o : BitVec 10) (x : Off2) : Fields := mkFields x.ctl o 0 x.a.enc x.b.enc 0 (0#14 ++ x.off)
def Off2.dec (f : Fields) : Option Off2 := do return ⟨f.ctl, f.mod.extractLsb' 0 6, ← f.a, ← f.b⟩

def Swwait.enc (o : BitVec 10) (x : Swwait) : Fields := mkFields x.ctl o x.d.enc x.a.enc x.b.enc 0 (0#14 ++ x.off)
def Swwait.dec (f : Fields) : Option Swwait := do return ⟨f.ctl, f.mod.extractLsb' 0 6, ← f.d, ← f.a, ← f.b⟩

def Swgen.enc (o : BitVec 10) (x : Swgen) : Fields := mkFields x.ctl o x.d.enc x.a.enc 0 0 (0#14 ++ x.off)
def Swgen.dec (f : Fields) : Option Swgen := do return ⟨f.ctl, f.mod.extractLsb' 0 6, ← f.d, ← f.a⟩

def Objdecl.enc (o : BitVec 10) (x : Objdecl) : Fields := mkFields x.ctl o (sDst x.d) x.a.enc 0 0 (0#19 ++ bit1 x.race)
def Objdecl.dec (f : Fields) : Option Objdecl := do return ⟨f.ctl, f.mod.getLsbD 0, f.dS, ← f.a⟩

def Mxop.enc (o : BitVec 10) (x : Mxop) : Fields := mkFields x.ctl o (sDst x.d) x.a.enc 0 0 (0#10 ++ x.off)
def Mxop.dec (f : Fields) : Option Mxop := do return ⟨f.ctl, f.mod.extractLsb' 0 10, f.dS, ← f.a⟩

def Mxzero.enc (o : BitVec 10) (x : Mxzero) : Fields := mkFields x.ctl o 0 0 0 0 (0#4 ++ x.mask)
def Mxzero.dec (f : Fields) : Option Mxzero := some ⟨f.ctl, f.mod.extractLsb' 0 16⟩

def Mxrd.enc (o : BitVec 10) (x : Mxrd) : Fields := mkFields x.ctl o x.d.enc x.a.enc 0 0 (0x1A#5 ++ 0#11 ++ x.n)
def Mxrd.dec (f : Fields) : Option Mxrd := do return ⟨f.ctl, f.mod.extractLsb' 0 4, ← f.d, ← f.a⟩

def Mxwr.enc (o : BitVec 10) (x : Mxwr) : Fields :=
  mkFields x.ctl o (Dst.enc (.tile x.n)) x.a.enc x.b.enc 0 (0x1A#5 ++ 0#15)
def Mxwr.dec (f : Fields) : Option Mxwr := do return ⟨f.ctl, f.dst.extractLsb' 1 4, ← f.a, ← f.b⟩

def Mxst.enc (o : BitVec 10) (x : Mxst) : Fields := mkFields x.ctl o 0 x.a.enc 0 0 (0x1A#5 ++ 0#5 ++ x.off ++ x.n)
def Mxst.dec (f : Fields) : Option Mxst := do return ⟨f.ctl, f.mod.extractLsb' 0 4, f.mod.extractLsb' 4 6, ← f.a⟩

def PlaneF.enc (o : BitVec 10) (x : PlaneF) : Fields :=
  mkFields x.ctl o 0 x.a.enc x.b.enc x.c.enc (x.fmt.code ++ 0#1 ++ x.p1 ++ x.off)
def PlaneF.dec (f : Fields) : Option PlaneF := do
  return ⟨f.ctl, ← f.ty, f.mod.extractLsb' 10 4, f.mod.extractLsb' 0 10, ← f.a, ← f.b, ← f.c⟩

def Unplane.enc (o : BitVec 10) (x : Unplane) : Fields :=
  mkFields x.ctl o x.d.enc x.a.enc 0 x.c.enc (x.fmt.code ++ 0#1 ++ x.p1 ++ x.off)
def Unplane.dec (f : Fields) : Option Unplane := do
  return ⟨f.ctl, ← f.ty, f.mod.extractLsb' 10 4, f.mod.extractLsb' 0 10, ← f.d, ← f.a, ← f.c⟩

def Mxperm.enc (o : BitVec 10) (x : Mxperm) : Fields :=
  mkFields x.ctl o (Dst.enc (.tile x.td)) x.a.enc 0 0 (0#15 ++ bit1 x.col ++ x.ts)
def Mxperm.dec (f : Fields) : Option Mxperm := do
  return ⟨f.ctl, f.mod.getLsbD 4, f.dst.extractLsb' 1 4, f.mod.extractLsb' 0 4, ← f.a⟩

def Mxqry.enc (o : BitVec 10) (x : Mxqry) : Fields := mkFields x.ctl o (sDst x.d) 0 0 0 (0#18 ++ x.sel)
def Mxqry.dec (f : Fields) : Option Mxqry := some ⟨f.ctl, f.dS, f.mod.extractLsb' 0 2⟩

def Mxepi.enc (o : BitVec 10) (x : Mxepi) : Fields :=
  mkFields x.ctl o 0 x.a.enc x.b.enc 0 (x.dt.code ++ x.st.code ++ bit1 x.relu ++ bit1 x.sat ++ x.off ++ x.n)
def Mxepi.dec (f : Fields) : Option Mxepi := do
  return ⟨f.ctl, ← f.ty, ← f.ty2, f.mod.getLsbD 9, f.mod.getLsbD 8, f.mod.extractLsb' 4 4, f.mod.extractLsb' 0 4,
    ← f.a, ← f.b⟩

def Mxscl.enc (o : BitVec 10) (x : Mxscl) : Fields :=
  mkFields x.ctl o 0 x.a.enc 0 0 (0x0D#5 ++ 0#10 ++ bit1 x.col ++ x.n)
def Mxscl.dec (f : Fields) : Option Mxscl := do return ⟨f.ctl, f.mod.getLsbD 4, f.mod.extractLsb' 0 4, ← f.a⟩

def Cpstat.enc (o : BitVec 10) (x : Cpstat) : Fields := mkFields x.ctl o (sDst x.d) 0 0 0 (0#17 ++ x.i)
def Cpstat.dec (f : Fields) : Option Cpstat := some ⟨f.ctl, f.dS, f.mod.extractLsb' 0 3⟩

def Outrdy.enc (o : BitVec 10) (x : Outrdy) : Fields := mkFields x.ctl o 0 0 0 0 (0#17 ++ x.i)
def Outrdy.dec (f : Fields) : Option Outrdy := some ⟨f.ctl, f.mod.extractLsb' 0 3⟩

def Tcond.enc (o : BitVec 10) (x : Tcond) : Fields := mkFields x.ctl o (sDst x.d) x.a.enc 0 0 (0#8 ++ x.n)
def Tcond.dec (f : Fields) : Option Tcond := do return ⟨f.ctl, f.dS, f.mod.extractLsb' 0 12, ← f.a⟩

/-- An s destination and SA, with the low MOD bits the form's mode takes. -/
def SdA.enc (o : BitVec 10) (m : BitVec 20) (x : SdA) : Fields := mkFields x.ctl o (sDst x.d) x.a.enc 0 0 m
def SdA.dec (f : Fields) : Option SdA := do return ⟨f.ctl, f.dS, ← f.a⟩

def SdAB.enc (o : BitVec 10) (m : BitVec 20) (x : SdAB) : Fields := mkFields x.ctl o (sDst x.d) x.a.enc x.b.enc 0 m
def SdAB.dec (f : Fields) : Option SdAB := do return ⟨f.ctl, f.dS, ← f.a, ← f.b⟩

def SdZ.enc (o : BitVec 10) (x : SdZ) : Fields := mkFields x.ctl o (sDst x.d) 0 x.z.enc 0 0
def SdZ.dec (f : Fields) : Option SdZ := do return ⟨f.ctl, f.dS, ← f.b⟩

def Sd.enc (o : BitVec 10) (x : Sd) : Fields := mkFields x.ctl o (sDst x.d) 0 0 0 0
def Sd.dec (f : Fields) : Option Sd := some ⟨f.ctl, f.dS⟩

def SdSel.enc (o : BitVec 10) (x : SdSel) : Fields := mkFields x.ctl o (sDst x.d) 0 0 0 (0#17 ++ x.sel)
def SdSel.dec (f : Fields) : Option SdSel := some ⟨f.ctl, f.dS, f.mod.extractLsb' 0 3⟩

def Aloop.enc (o : BitVec 10) (x : Aloop) : Fields := mkFields x.ctl o 0 x.a.enc 0 0 (0#18 ++ x.lvl)
def Aloop.dec (f : Fields) : Option Aloop := do return ⟨f.ctl, f.mod.extractLsb' 0 2, ← f.a⟩

/-- ASTRM (R313): SB names a constant slot. -/
def Astrm.enc (o : BitVec 10) (x : Astrm) : Fields :=
  mkFields x.ctl o 0 x.a.enc (Src.enc (.k x.m)) 0 (x.ty.code ++ 0#5 ++ x.q ++ bit1 x.sp ++ 0#6)
def Astrm.dec (f : Fields) : Option Astrm := do
  return ⟨f.ctl, ← f.ty, f.mod.getLsbD 6, f.mod.extractLsb' 7 3, ← f.a, f.sb.extractLsb' 0 7⟩

def TrapF.enc (o : BitVec 10) (x : TrapF) : Fields := mkFields x.ctl o 0 0 0 0 (0#7 ++ bit1 x.brk ++ x.n)
def TrapF.dec (f : Fields) : Option TrapF := some ⟨f.ctl, f.mod.getLsbD 12, f.mod.extractLsb' 0 12⟩

def Srrd.enc (o : BitVec 10) (x : Srrd) : Fields := mkFields x.ctl o x.d.enc 0 0 0 (x.ty.code ++ 0#7 ++ x.num)
def Srrd.dec (f : Fields) : Option Srrd := do return ⟨f.ctl, ← f.ty, f.mod.extractLsb' 0 8, ← f.d⟩

def Srwr.enc (o : BitVec 10) (x : Srwr) : Fields := mkFields x.ctl o 0 x.a.enc 0 0 (x.ty.code ++ 0#7 ++ x.num)
def Srwr.dec (f : Fields) : Option Srwr := do return ⟨f.ctl, ← f.ty, f.mod.extractLsb' 0 8, ← f.a⟩

def Ctxsave.enc (o : BitVec 10) (x : Ctxsave) : Fields :=
  mkFields x.ctl o (sDst x.d) x.a.enc x.b.enc x.c.enc (0#18 ++ x.n)
def Ctxsave.dec (f : Fields) : Option Ctxsave := do return ⟨f.ctl, f.mod.extractLsb' 0 2, f.dS, ← f.a, ← f.b, ← f.c⟩

def Ctxq.enc (o : BitVec 10) (x : Ctxq) : Fields := mkFields x.ctl o (sDst x.d) x.a.enc 0 0 (0#17 ++ x.sel)
def Ctxq.dec (f : Fields) : Option Ctxq := do return ⟨f.ctl, f.dS, f.mod.extractLsb' 0 3, ← f.a⟩

def Zslices.enc (o : BitVec 10) (x : Zslices) : Fields :=
  mkFields x.ctl o (sDst x.d) x.a.enc x.z.enc 0 (0#17 ++ x.dist)
def Zslices.dec (f : Fields) : Option Zslices := do return ⟨f.ctl, f.dS, f.mod.extractLsb' 0 3, ← f.a, ← f.b⟩

/-- ZWAYS (R384): LVL in MOD[9]. -/
def ZwaysL2.enc (o : BitVec 10) (x : ZwaysL2) : Fields :=
  mkFields x.ctl o (sDst x.d) 0 x.z.enc x.m.enc (0#11 ++ x.dist ++ x.slice)
def ZwaysL2.dec (f : Fields) : Option ZwaysL2 := do
  return ⟨f.ctl, f.dS, f.mod.extractLsb' 6 3, f.mod.extractLsb' 0 6, ← f.b, ← f.c⟩

def ZwaysVault.enc (o : BitVec 10) (x : ZwaysVault) : Fields :=
  mkFields x.ctl o (sDst x.d) 0 x.z.enc x.m.enc (0#10 ++ 1#1 ++ 0#7 ++ x.v)
def ZwaysVault.dec (f : Fields) : Option ZwaysVault := do return ⟨f.ctl, f.dS, f.mod.extractLsb' 0 2, ← f.b, ← f.c⟩

def Zquery.enc (o : BitVec 10) (x : Zquery) : Fields :=
  mkFields x.ctl o (sDst x.d) 0 x.z.enc 0 (0#13 ++ x.dist ++ x.sel)
def Zquery.dec (f : Fields) : Option Zquery := do
  return ⟨f.ctl, f.dS, f.mod.extractLsb' 0 4, f.mod.extractLsb' 4 3, ← f.b⟩

def Ptprd.enc (o : BitVec 10) (x : Ptprd) : Fields := mkFields x.ctl o (sDst x.d) 0 0 0 (0#19 ++ bit1 x.st)
def Ptprd.dec (f : Fields) : Option Ptprd := some ⟨f.ctl, f.mod.getLsbD 0, f.dS⟩

def Rlease.enc (o : BitVec 10) (x : Rlease) : Fields := mkFields x.ctl o 0 x.a.enc x.b.enc 0 (0#10 ++ x.off)
def Rlease.dec (f : Fields) : Option Rlease := do return ⟨f.ctl, f.mod.extractLsb' 0 10, ← f.a, ← f.b⟩

/-- The fields of every instruction (R50 and the encoding tables of the classes); none for an event row. -/
def Instr.fields : Instr → Option Fields
  | .mov x => some (Un.enc 0x000 x)
  | .movi x => some (Movi.enc 0x001 x)
  | .movs x => some (Un.enc 0x002 x)
  | .movv x => some (Bin.enc 0x003 x)
  | .iadd x => some (BinS.enc 0x004 x)
  | .iaddc x => some (Carry.enc 0x005 x)
  | .isub x => some (BinS.enc 0x006 x)
  | .isubb x => some (Carry.enc 0x007 x)
  | .imul x => some (BinS.enc 0x008 x)
  | .imulh x => some (Bin.enc 0x009 x)
  | .imad x => some (TerS.enc 0x00A x)
  | .imadw x => some (TerS.enc 0x00B x)
  | .idiv x => some (BinS.enc 0x00C x)
  | .irem x => some (Bin.enc 0x00D x)
  | .imin x => some (Bin.enc 0x00E x)
  | .imax x => some (Bin.enc 0x00F x)
  | .iabs x => some (UnS.enc 0x010 x)
  | .ineg x => some (UnS.enc 0x011 x)
  | .and x => some (Bin.enc 0x012 x)
  | .or x => some (Bin.enc 0x013 x)
  | .xor x => some (Bin.enc 0x014 x)
  | .andn x => some (Bin.enc 0x015 x)
  | .not x => some (Un.enc 0x016 x)
  | .shl x => some (Bin.enc 0x017 x)
  | .shr x => some (Bin.enc 0x018 x)
  | .sar x => some (Bin.enc 0x019 x)
  | .rot x => some (Bin.enc 0x01A x)
  | .fshl x => some (Ter.enc 0x01B x)
  | .popc x => some (Un.enc 0x01C x)
  | .clz x => some (Un.enc 0x01D x)
  | .ctz x => some (Un.enc 0x01E x)
  | .brev x => some (Un.enc 0x01F x)
  | .bfx x => some (Bin.enc 0x020 x)
  | .bfi x => some (Ter.enc 0x021 x)
  | .isetp x => some (Setp.enc 0x022 x)
  | .isel x => some (Sel.enc 0x023 x)
  | .lea x => some (Lea.enc 0x024 x)
  | .leax x => some (Leax.enc 0x025 x)
  | .fadd x => some (FBin.enc 0x040 x)
  | .fsub x => some (FBin.enc 0x041 x)
  | .fmul x => some (FBin.enc 0x042 x)
  | .ffma x => some (FTer.enc 0x043 x)
  | .fmin x => some (FMinMax.enc 0x044 x)
  | .fmax x => some (FMinMax.enc 0x045 x)
  | .fsetp x => some (Setp.enc 0x046 x)
  | .fclass x => some (Un.enc 0x047 x)
  | .fscale x => some (FBin.enc 0x048 x)
  | .frnd x => some (Frnd.enc 0x049 x)
  | .hadd2 x => some (FBin.enc 0x04A x)
  | .hmul2 x => some (FBin.enc 0x04B x)
  | .hfma2 x => some (FTer.enc 0x04C x)
  | .hmin2 x => some (FMinMax.enc 0x04D x)
  | .hmax2 x => some (FMinMax.enc 0x04E x)
  | .dadd x => some (FBin.enc 0x04F x)
  | .dmul x => some (FBin.enc 0x050 x)
  | .dfma x => some (FTer.enc 0x051 x)
  | .dsetp x => some (Setp.enc 0x052 x)
  | .dmin x => some (FMinMax.enc 0x053 x)
  | .dmax x => some (FMinMax.enc 0x054 x)
  | .rcp x => some (SpecUn.enc 0x080 x)
  | .rsq x => some (SpecUn.enc 0x081 x)
  | .sqrt x => some (SpecUn.enc 0x082 x)
  | .ex2 x => some (SpecUn.enc 0x083 x)
  | .lg2 x => some (SpecUn.enc 0x084 x)
  | .sinpi x => some (SpecUn.enc 0x085 x)
  | .cospi x => some (SpecUn.enc 0x086 x)
  | .tanh x => some (SpecUn.enc 0x087 x)
  | .cvtff x => some (Cvt.enc 0x088 x)
  | .cvtfi x => some (Cvt.enc 0x089 x)
  | .cvtif x => some (Cvt.enc 0x08A x)
  | .packn x => some (Packn.enc 0x08B x)
  | .unpackn x => some (Unpackn.enc 0x08C x)
  | .scaleb x => some (Scaleb.enc 0x08D x)
  | .rand x => some (RandF.enc 0x08E x)
  | .cvtsr x => some (Cvt.enc 0x08F x)
  | .part x => some (Part.enc 0x0C0 x)
  | .vote x => some (Vote.enc 0x0C1 x)
  | .shfl x => some (Shfl.enc 0x0C2 x)
  | .redux x => some (Redux.enc 0x0C3 x)
  | .scan x => some (Scan.enc 0x0C4 x)
  | .match_ x => some (Un.enc 0x0C5 x)
  | .elect x => some (Elect.enc 0x0C6 x)
  | .bcast x => some (Un.enc 0x0C7 x)
  | .bra x => some (BraF.enc 0x100 x)
  | .brx x => some (SrcF.enc 0x101 x)
  | .call x => some (CallF.enc 0x102 x)
  | .callx x => some (CallxF.enc 0x103 x)
  | .ret x => some (SrcF.enc 0x104 x)
  | .land x => some (CtlOnly.enc 0x105 0 x)
  | .exit x => some (CtlOnly.enc 0x106 0 x)
  | .yield x => some (CtlOnly.enc 0x107 0 x)
  | .pause x => some (CtlOnly.enc 0x108 0 x)
  | .sleep x => some (SrcF.enc 0x109 x)
  | .nop x => some (CtlOnly.enc 0x10A 0 x)
  | .cbarm x => some (Cbarm.enc 0x10B x)
  | .cbwait x => some (Cbwait.enc 0x10C x)
  | .bar x => some (BarF.enc 0x10D x)
  | .barc x => some (BarcF.enc 0x10E x)
  | .ld x => some (Ld.enc 0x140 x)
  | .st x => some (St.enc 0x141 x)
  | .lds x => some (Ld.enc 0x142 x)
  | .sts x => some (St.enc 0x143 x)
  | .ldp x => some (Ld.enc 0x144 x)
  | .stp x => some (St.enc 0x145 x)
  | .ldx x => some (Ld.enc 0x146 x)
  | .stx x => some (St.enc 0x147 x)
  | .mcst x => some (Mcst.enc 0x148 x)
  | .ldc x => some (Ldc.enc 0x149 x)
  | .ldun x => some (Ld.enc 0x14A x)
  | .pref x => some (Pref.enc 0x14B x)
  | .wbp x => some (Wbp.enc 0x14C x)
  | .wbpAll x => some (CtlOnly.enc 0x14C 0x400 x)
  | .qpop x => some (Qpop.enc 0x14D x)
  | .qpeek x => some (Qpop.enc 0x14E x)
  | .fpush x => some (Fpush.enc 0x14F x)
  | .fpop x => some (Fpop.enc 0x150 x)
  | .atom x => some (Atom.enc 0x180 x)
  | .atoms x => some (Atoms.enc 0x181 x)
  | .atomx x => some (Atom.enc 0x182 x)
  | .red x => some (Red.enc 0x183 x)
  | .fence x => some (ScopeF.enc 0x184 x)
  | .xfence x => some (CtlOnly.enc 0x185 0 x)
  | .acq x => some (ScopeF.enc 0x186 x)
  | .rel x => some (ScopeF.enc 0x187 x)
  | .acqr x => some (SrcF.enc 0x188 x)
  | .ptsrd x => some (Ptsrd.enc 0x189 x)
  | .lease x => some (Off2.enc 0x18A x)
  | .swarm x => some (Off2.enc 0x18B x)
  | .swwait x => some (Swwait.enc 0x18C x)
  | .swgen x => some (Swgen.enc 0x18D x)
  | .objdecl x => some (Objdecl.enc 0x18E x)
  | .objdrop x => some (SdA.enc 0x18F 0 x)
  | .mxop x => some (Mxop.enc 0x1C0 x)
  | .mxzero x => some (Mxzero.enc 0x1C1 x)
  | .mxrd x => some (Mxrd.enc 0x1C2 x)
  | .mxwr x => some (Mxwr.enc 0x1C3 x)
  | .mxst x => some (Mxst.enc 0x1C4 x)
  | .plane x => some (PlaneF.enc 0x1C5 x)
  | .unplane x => some (Unplane.enc 0x1C6 x)
  | .mxperm x => some (Mxperm.enc 0x1C7 x)
  | .mxwait x => some (SrcF.enc 0x1C8 x)
  | .mxqry x => some (Mxqry.enc 0x1C9 x)
  | .mxepi x => some (Mxepi.enc 0x1CA x)
  | .leave x => some (SrcF.enc 0x1CB x)
  | .mxscl x => some (Mxscl.enc 0x1CC x)
  | .cpstat x => some (Cpstat.enc 0x200 x)
  | .outrdy x => some (Outrdy.enc 0x201 x)
  | .tcond x => some (Tcond.enc 0x202 x)
  | .tdone x => some (SrcF.enc 0x203 x)
  | .tspawn x => some (SdA.enc 0x204 0 x)
  | .tqry x => some (SdSel.enc 0x205 x)
  | .astart x => some (CtlOnly.enc 0x206 0 x)
  | .aloop x => some (Aloop.enc 0x207 x)
  | .astrm x => some (Astrm.enc 0x208 x)
  | .aend x => some (CtlOnly.enc 0x209 0 x)
  | .trap x => some (TrapF.enc 0x240 x)
  | .rett x => some (CtlOnly.enc 0x241 0 x)
  | .srrd x => some (Srrd.enc 0x242 x)
  | .srwr x => some (Srwr.enc 0x243 x)
  | .logrd x => some (Sd.enc 0x244 x)
  | .haltStop x => some (SdA.enc 0x245 0 x)
  | .haltResume x => some (SdA.enc 0x245 1 x)
  | .haltKill x => some (SdA.enc 0x245 2 x)
  | .sysc x => some (SdA.enc 0x246 0 x)
  | .evwait x => some (SdA.enc 0x247 0 x)
  | .evsigSig x => some (SdAB.enc 0x248 0 x)
  | .evsigAns x => some (SdAB.enc 0x248 1 x)
  | .tlbinvVa x => some (SdAB.enc 0x249 0 x)
  | .tlbinvCtx x => some (SdAB.enc 0x249 1 x)
  | .tlbinvZone x => some (SdAB.enc 0x249 2 x)
  | .fbresp x => some (SdA.enc 0x24A 0 x)
  | .ctxsave x => some (Ctxsave.enc 0x24B x)
  | .ctxload x => some (SdA.enc 0x24C 0 x)
  | .ctxq x => some (Ctxq.enc 0x24D x)
  | .qmap x => some (SdAB.enc 0x24E 0 x)
  | .qunmap x => some (SdA.enc 0x24F 0 x)
  | .zcreate x => some (SdAB.enc 0x280 0 x)
  | .zdestroy x => some (SdZ.enc 0x281 x)
  | .zgrow x => some (SdAB.enc 0x282 0 x)
  | .zshrink x => some (SdAB.enc 0x283 0 x)
  | .zslices x => some (Zslices.enc 0x284 x)
  | .zwaysL2 x => some (ZwaysL2.enc 0x285 x)
  | .zwaysVault x => some (ZwaysVault.enc 0x285 x)
  | .zchan x => some (SdAB.enc 0x286 0 x)
  | .zcoins x => some (SdAB.enc 0x287 0 x)
  | .zscrub x => some (SdA.enc 0x288 0 x)
  | .zcommit x => some (SdZ.enc 0x289 x)
  | .zquery x => some (Zquery.enc 0x28A x)
  | .capq x => some (SdA.enc 0x28B 0 x)
  | .ffenceFull x => some (CtlOnly.enc 0x2C0 0 x)
  | .ffenceRel x => some (CtlOnly.enc 0x2C0 1 x)
  | .ffenceAcq x => some (CtlOnly.enc 0x2C0 2 x)
  | .ptprd x => some (Ptprd.enc 0x2C1 x)
  | .timens x => some (Sd.enc 0x2C2 x)
  | .peerq x => some (SdA.enc 0x2C3 0 x)
  | .rlease x => some (Rlease.enc 0x2C4 x)
  | .fcontainFence x => some (SdA.enc 0x2C5 0 x)
  | .fcontainClear x => some (SdA.enc 0x2C5 1 x)
  | _ => none

/-- The operations of class 0x0 (R50). -/
def decodeClass0 (op : Nat) (f : Fields) : Option Instr :=
  match op with
  | 0x0 => (Un.dec f).map .mov
  | 0x1 => (Movi.dec f).map .movi
  | 0x2 => (Un.dec f).map .movs
  | 0x3 => (Bin.dec f).map .movv
  | 0x4 => (BinS.dec f).map .iadd
  | 0x5 => (Carry.dec f).map .iaddc
  | 0x6 => (BinS.dec f).map .isub
  | 0x7 => (Carry.dec f).map .isubb
  | 0x8 => (BinS.dec f).map .imul
  | 0x9 => (Bin.dec f).map .imulh
  | 0xa => (TerS.dec f).map .imad
  | 0xb => (TerS.dec f).map .imadw
  | 0xc => (BinS.dec f).map .idiv
  | 0xd => (Bin.dec f).map .irem
  | 0xe => (Bin.dec f).map .imin
  | 0xf => (Bin.dec f).map .imax
  | 0x10 => (UnS.dec f).map .iabs
  | 0x11 => (UnS.dec f).map .ineg
  | 0x12 => (Bin.dec f).map .and
  | 0x13 => (Bin.dec f).map .or
  | 0x14 => (Bin.dec f).map .xor
  | 0x15 => (Bin.dec f).map .andn
  | 0x16 => (Un.dec f).map .not
  | 0x17 => (Bin.dec f).map .shl
  | 0x18 => (Bin.dec f).map .shr
  | 0x19 => (Bin.dec f).map .sar
  | 0x1a => (Bin.dec f).map .rot
  | 0x1b => (Ter.dec f).map .fshl
  | 0x1c => (Un.dec f).map .popc
  | 0x1d => (Un.dec f).map .clz
  | 0x1e => (Un.dec f).map .ctz
  | 0x1f => (Un.dec f).map .brev
  | 0x20 => (Bin.dec f).map .bfx
  | 0x21 => (Ter.dec f).map .bfi
  | 0x22 => (Setp.dec f).map .isetp
  | 0x23 => (Sel.dec f).map .isel
  | 0x24 => (Lea.dec f).map .lea
  | 0x25 => (Leax.dec f).map .leax
  | _ => none

/-- The operations of class 0x1 (R50). -/
def decodeClass1 (op : Nat) (f : Fields) : Option Instr :=
  match op with
  | 0x0 => (FBin.dec f).map .fadd
  | 0x1 => (FBin.dec f).map .fsub
  | 0x2 => (FBin.dec f).map .fmul
  | 0x3 => (FTer.dec f).map .ffma
  | 0x4 => (FMinMax.dec f).map .fmin
  | 0x5 => (FMinMax.dec f).map .fmax
  | 0x6 => (Setp.dec f).map .fsetp
  | 0x7 => (Un.dec f).map .fclass
  | 0x8 => (FBin.dec f).map .fscale
  | 0x9 => (Frnd.dec f).map .frnd
  | 0xa => (FBin.dec f).map .hadd2
  | 0xb => (FBin.dec f).map .hmul2
  | 0xc => (FTer.dec f).map .hfma2
  | 0xd => (FMinMax.dec f).map .hmin2
  | 0xe => (FMinMax.dec f).map .hmax2
  | 0xf => (FBin.dec f).map .dadd
  | 0x10 => (FBin.dec f).map .dmul
  | 0x11 => (FTer.dec f).map .dfma
  | 0x12 => (Setp.dec f).map .dsetp
  | 0x13 => (FMinMax.dec f).map .dmin
  | 0x14 => (FMinMax.dec f).map .dmax
  | _ => none

/-- The operations of class 0x2 (R50). -/
def decodeClass2 (op : Nat) (f : Fields) : Option Instr :=
  match op with
  | 0x0 => (SpecUn.dec f).map .rcp
  | 0x1 => (SpecUn.dec f).map .rsq
  | 0x2 => (SpecUn.dec f).map .sqrt
  | 0x3 => (SpecUn.dec f).map .ex2
  | 0x4 => (SpecUn.dec f).map .lg2
  | 0x5 => (SpecUn.dec f).map .sinpi
  | 0x6 => (SpecUn.dec f).map .cospi
  | 0x7 => (SpecUn.dec f).map .tanh
  | 0x8 => (Cvt.dec f).map .cvtff
  | 0x9 => (Cvt.dec f).map .cvtfi
  | 0xa => (Cvt.dec f).map .cvtif
  | 0xb => (Packn.dec f).map .packn
  | 0xc => (Unpackn.dec f).map .unpackn
  | 0xd => (Scaleb.dec f).map .scaleb
  | 0xe => (RandF.dec f).map .rand
  | 0xf => (Cvt.dec f).map .cvtsr
  | _ => none

/-- The operations of class 0x3 (R50). -/
def decodeClass3 (op : Nat) (f : Fields) : Option Instr :=
  match op with
  | 0x0 => (Part.dec f).map .part
  | 0x1 => (Vote.dec f).map .vote
  | 0x2 => (Shfl.dec f).map .shfl
  | 0x3 => (Redux.dec f).map .redux
  | 0x4 => (Scan.dec f).map .scan
  | 0x5 => (Un.dec f).map .match_
  | 0x6 => (Elect.dec f).map .elect
  | 0x7 => (Un.dec f).map .bcast
  | _ => none

/-- The operations of class 0x4 (R50). -/
def decodeClass4 (op : Nat) (f : Fields) : Option Instr :=
  match op with
  | 0x0 => (BraF.dec f).map .bra
  | 0x1 => (SrcF.dec f).map .brx
  | 0x2 => (CallF.dec f).map .call
  | 0x3 => (CallxF.dec f).map .callx
  | 0x4 => (SrcF.dec f).map .ret
  | 0x5 => (CtlOnly.dec f).map .land
  | 0x6 => (CtlOnly.dec f).map .exit
  | 0x7 => (CtlOnly.dec f).map .yield
  | 0x8 => (CtlOnly.dec f).map .pause
  | 0x9 => (SrcF.dec f).map .sleep
  | 0xa => (CtlOnly.dec f).map .nop
  | 0xb => (Cbarm.dec f).map .cbarm
  | 0xc => (Cbwait.dec f).map .cbwait
  | 0xd => (BarF.dec f).map .bar
  | 0xe => (BarcF.dec f).map .barc
  | _ => none

/-- The operations of class 0x5 (R50). -/
def decodeClass5 (op : Nat) (f : Fields) : Option Instr :=
  match op with
  | 0x0 => (Ld.dec f).map .ld
  | 0x1 => (St.dec f).map .st
  | 0x2 => (Ld.dec f).map .lds
  | 0x3 => (St.dec f).map .sts
  | 0x4 => (Ld.dec f).map .ldp
  | 0x5 => (St.dec f).map .stp
  | 0x6 => (Ld.dec f).map .ldx
  | 0x7 => (St.dec f).map .stx
  | 0x8 => (Mcst.dec f).map .mcst
  | 0x9 => (Ldc.dec f).map .ldc
  | 0xa => (Ld.dec f).map .ldun
  | 0xb => (Pref.dec f).map .pref
  | 0xc =>
    match f.mod.getLsbD 10 with
    | false => (Wbp.dec f).map .wbp
    | true => (CtlOnly.dec f).map .wbpAll
  | 0xd => (Qpop.dec f).map .qpop
  | 0xe => (Qpop.dec f).map .qpeek
  | 0xf => (Fpush.dec f).map .fpush
  | 0x10 => (Fpop.dec f).map .fpop
  | _ => none

/-- The operations of class 0x6 (R50). -/
def decodeClass6 (op : Nat) (f : Fields) : Option Instr :=
  match op with
  | 0x0 => (Atom.dec f).map .atom
  | 0x1 => (Atoms.dec f).map .atoms
  | 0x2 => (Atom.dec f).map .atomx
  | 0x3 => (Red.dec f).map .red
  | 0x4 => (ScopeF.dec f).map .fence
  | 0x5 => (CtlOnly.dec f).map .xfence
  | 0x6 => (ScopeF.dec f).map .acq
  | 0x7 => (ScopeF.dec f).map .rel
  | 0x8 => (SrcF.dec f).map .acqr
  | 0x9 => (Ptsrd.dec f).map .ptsrd
  | 0xa => (Off2.dec f).map .lease
  | 0xb => (Off2.dec f).map .swarm
  | 0xc => (Swwait.dec f).map .swwait
  | 0xd => (Swgen.dec f).map .swgen
  | 0xe => (Objdecl.dec f).map .objdecl
  | 0xf => (SdA.dec f).map .objdrop
  | _ => none

/-- The operations of class 0x7 (R50). -/
def decodeClass7 (op : Nat) (f : Fields) : Option Instr :=
  match op with
  | 0x0 => (Mxop.dec f).map .mxop
  | 0x1 => (Mxzero.dec f).map .mxzero
  | 0x2 => (Mxrd.dec f).map .mxrd
  | 0x3 => (Mxwr.dec f).map .mxwr
  | 0x4 => (Mxst.dec f).map .mxst
  | 0x5 => (PlaneF.dec f).map .plane
  | 0x6 => (Unplane.dec f).map .unplane
  | 0x7 => (Mxperm.dec f).map .mxperm
  | 0x8 => (SrcF.dec f).map .mxwait
  | 0x9 => (Mxqry.dec f).map .mxqry
  | 0xa => (Mxepi.dec f).map .mxepi
  | 0xb => (SrcF.dec f).map .leave
  | 0xc => (Mxscl.dec f).map .mxscl
  | _ => none

/-- The operations of class 0x8 (R50). -/
def decodeClass8 (op : Nat) (f : Fields) : Option Instr :=
  match op with
  | 0x0 => (Cpstat.dec f).map .cpstat
  | 0x1 => (Outrdy.dec f).map .outrdy
  | 0x2 => (Tcond.dec f).map .tcond
  | 0x3 => (SrcF.dec f).map .tdone
  | 0x4 => (SdA.dec f).map .tspawn
  | 0x5 => (SdSel.dec f).map .tqry
  | 0x6 => (CtlOnly.dec f).map .astart
  | 0x7 => (Aloop.dec f).map .aloop
  | 0x8 => (Astrm.dec f).map .astrm
  | 0x9 => (CtlOnly.dec f).map .aend
  | _ => none

/-- The operations of class 0x9 (R50). -/
def decodeClass9 (op : Nat) (f : Fields) : Option Instr :=
  match op with
  | 0x0 => (TrapF.dec f).map .trap
  | 0x1 => (CtlOnly.dec f).map .rett
  | 0x2 => (Srrd.dec f).map .srrd
  | 0x3 => (Srwr.dec f).map .srwr
  | 0x4 => (Sd.dec f).map .logrd
  | 0x5 =>
    match (f.mod.extractLsb' 0 2).toNat with
    | 0 => (SdA.dec f).map .haltStop
    | 1 => (SdA.dec f).map .haltResume
    | 2 => (SdA.dec f).map .haltKill
    | _ => none
  | 0x6 => (SdA.dec f).map .sysc
  | 0x7 => (SdA.dec f).map .evwait
  | 0x8 =>
    match f.mod.getLsbD 0 with
    | false => (SdAB.dec f).map .evsigSig
    | true => (SdAB.dec f).map .evsigAns
  | 0x9 =>
    match (f.mod.extractLsb' 0 2).toNat with
    | 0 => (SdAB.dec f).map .tlbinvVa
    | 1 => (SdAB.dec f).map .tlbinvCtx
    | 2 => (SdAB.dec f).map .tlbinvZone
    | _ => none
  | 0xa => (SdA.dec f).map .fbresp
  | 0xb => (Ctxsave.dec f).map .ctxsave
  | 0xc => (SdA.dec f).map .ctxload
  | 0xd => (Ctxq.dec f).map .ctxq
  | 0xe => (SdAB.dec f).map .qmap
  | 0xf => (SdA.dec f).map .qunmap
  | _ => none

/-- The operations of class 0xa (R50). -/
def decodeClass10 (op : Nat) (f : Fields) : Option Instr :=
  match op with
  | 0x0 => (SdAB.dec f).map .zcreate
  | 0x1 => (SdZ.dec f).map .zdestroy
  | 0x2 => (SdAB.dec f).map .zgrow
  | 0x3 => (SdAB.dec f).map .zshrink
  | 0x4 => (Zslices.dec f).map .zslices
  | 0x5 =>
    match f.mod.getLsbD 9 with
    | false => (ZwaysL2.dec f).map .zwaysL2
    | true => (ZwaysVault.dec f).map .zwaysVault
  | 0x6 => (SdAB.dec f).map .zchan
  | 0x7 => (SdAB.dec f).map .zcoins
  | 0x8 => (SdA.dec f).map .zscrub
  | 0x9 => (SdZ.dec f).map .zcommit
  | 0xa => (Zquery.dec f).map .zquery
  | 0xb => (SdA.dec f).map .capq
  | _ => none

/-- The operations of class 0xb (R50). -/
def decodeClass11 (op : Nat) (f : Fields) : Option Instr :=
  match op with
  | 0x0 =>
    match (f.mod.extractLsb' 0 2).toNat with
    | 0 => (CtlOnly.dec f).map .ffenceFull
    | 1 => (CtlOnly.dec f).map .ffenceRel
    | 2 => (CtlOnly.dec f).map .ffenceAcq
    | _ => none
  | 0x1 => (Ptprd.dec f).map .ptprd
  | 0x2 => (Sd.dec f).map .timens
  | 0x3 => (SdA.dec f).map .peerq
  | 0x4 => (Rlease.dec f).map .rlease
  | 0x5 =>
    match f.mod.getLsbD 0 with
    | false => (SdA.dec f).map .fcontainFence
    | true => (SdA.dec f).map .fcontainClear
  | _ => none

/-- The operation is assigned in its class (R46 conditions 1 and 2, R50). -/
def opAssigned (cls op : Nat) : Bool :=
  match cls with
  | 0x0 => op ≤ 0x25
  | 0x1 => op ≤ 0x14
  | 0x2 => op ≤ 0xf
  | 0x3 => op ≤ 0x7
  | 0x4 => op ≤ 0xe
  | 0x5 => op ≤ 0x10
  | 0x6 => op ≤ 0xf
  | 0x7 => op ≤ 0xc
  | 0x8 => op ≤ 0x9
  | 0x9 => op ≤ 0xf
  | 0xa => op ≤ 0xb
  | 0xb => op ≤ 0x5
  | _ => false

/-- The instruction the fields would be, before the limits of R46 are applied. -/
def decodeForm (f : Fields) : Option Instr :=
  let op := (f.opc.extractLsb' 0 6).toNat
  match (f.opc.extractLsb' 6 4).toNat with
  | 0x0 => decodeClass0 op f
  | 0x1 => decodeClass1 op f
  | 0x2 => decodeClass2 op f
  | 0x3 => decodeClass3 op f
  | 0x4 => decodeClass4 op f
  | 0x5 => decodeClass5 op f
  | 0x6 => decodeClass6 op f
  | 0x7 => decodeClass7 op f
  | 0x8 => decodeClass8 op f
  | 0x9 => decodeClass9 op f
  | 0xa => decodeClass10 op f
  | 0xb => decodeClass11 op f
  | _ => none
/-- Why a word is no instruction, by the conditions of R46. -/
inductive Reject where
  | reservedClass    -- condition 1
  | unassignedOp     -- condition 2
  | reservedBit      -- condition 3
  | badOperand       -- conditions 4, 5 and 10: an operand, type or mode value that decodes to nothing
  | unusedField      -- condition 8
  | formRejects      -- conditions 6, 7, 9 and 10
  deriving DecidableEq, Repr

/-- The decoder (R31, R33, R46). A candidate stands for the word only if it is well-formed and encodes to this word, so every
unused or reserved bit must be zero. -/
def decodeWord (w : BitVec 96) : Except Reject Instr :=
  let f := Fields.ofWord w
  let cls := (f.opc.extractLsb' 6 4).toNat
  if 0xC ≤ cls then .error .reservedClass
  else if !opAssigned cls (f.opc.extractLsb' 0 6).toNat then .error .unassignedOp
  else if f.dst.getLsbD 0 then .error .reservedBit
  else
    match decodeForm f with
    | none => .error .badOperand
    | some i =>
      if i.fields = some f then
        if i.wellFormed then .ok i else .error .formRejects
      else .error .unusedField

/-- The instruction of a word, if it is one. -/
def decode? (w : BitVec 96) : Option Instr :=
  match decodeWord w with
  | .ok i => some i
  | .error _ => none

/-- The word of an instruction (R31, R33); zero for an event row, which has none. -/
def encode (i : Instr) : BitVec 96 :=
  match i.fields with
  | some f => f.word
  | none => 0

/-- OPC of any word, legal or not (R33). -/
def opcOf (w : BitVec 96) : BitVec 10 := w.extractLsb' 86 10

/-- The word of twelve bytes, little-endian (R31). -/
def wordOfBytes : List Byte → BitVec 96
  | [] => 0
  | b :: bs => (wordOfBytes bs <<< 8) ||| b.setWidth 96

/-- The n low bytes of a word, lowest first (R31). -/
def bytesOfNat : Nat → Nat → List Byte
  | 0, _ => []
  | n + 1, w => BitVec.ofNat 8 w :: bytesOfNat n (w / 256)

/-- The twelve bytes of a word in memory (R31). -/
def bytesOfWord (w : BitVec 96) : List Byte := bytesOfNat 12 w.toNat

/-- The decoder on the bytes at a PC. -/
def decodeBytes (bs : List Byte) : Except Reject Instr := decodeWord (wordOfBytes (bs.take 12))

/-- The instruction the decoder reads from a table row's word; the bits above `nbits` are zero. -/
def decodeTableWord (nbits w : Nat) : Option Instr :=
  decode? (wordOfBytes (bytesOfWord (BitVec.ofNat 96 (w % 2 ^ nbits))))

end Sys2Proof
end

