-- ==== Sys2Proof/Config.lean ====
section
/-!
DEFINITION. What the spec leaves to one chip: values it does not fix. Each is an opaque constant without a body, so no
proof can rest on what it is.
-/

namespace Sys2Proof.Config

/-- A value the spec leaves open, one for each count of State's `nfree` (log entry 2). -/
opaque freeValue : Nat → W64

/-- A byte the spec leaves open. -/
opaque freeByte : Nat → Byte

/-- The bits that a special function (its operation number, R128) returns for an operand whose exact result R130 does not
fix. One function of the operand, since R129 makes the bits the same whatever the lane, the core, the slot or the time. -/
opaque specialBits : Nat → W32 → W32

/-- The Ed448 signature of a byte string under the device's identity key, which never leaves the controller (R441, R442). -/
opaque signature : List Byte → BitVec 912

end Sys2Proof.Config
end

