-- ==== Sys2Proof/Machine/Store.lean ====
section
/-!
DEFINITION. Keyed stores: lists of (key, value), keys rising. `look` and `put` obey their laws on any list; `put` keeps keys
rising.
-/

namespace Sys2Proof

/-- The value at a key. -/
def look {α : Type} : AList α → Nat → Option α
  | [], _ => none
  | (j, a) :: l, k => if j = k then some a else look l k

/-- Set the value at a key. -/
def put {α : Type} : AList α → Nat → α → AList α
  | [], k, a => [(k, a)]
  | (j, b) :: l, k, a =>
    if k < j then (k, a) :: (j, b) :: l
    else if j = k then (k, a) :: l
    else (j, b) :: put l k a

/-- Remove a key. -/
def del {α : Type} (l : AList α) (k : Nat) : AList α := l.filter fun x => x.1 != k

/-- Change the value at a key that is present. -/
def upd {α : Type} (l : AList α) (k : Nat) (f : α → α) : AList α :=
  match look l k with
  | some a => put l k (f a)
  | none => l

/-- Change every value. -/
def mapVals {α : Type} (l : AList α) (f : Nat → α → α) : AList α := l.map fun x => (x.1, f x.1 x.2)

/-- A register array: what a key not listed reads as is `d`. -/
def rget {α : Type} (d : α) (l : AList α) (k : Nat) : α := (look l k).getD d

/-- Write a register array; an entry equal to what an unlisted key reads as is not kept. -/
def rput {α : Type} [DecidableEq α] (d : α) (l : AList α) (k : Nat) (a : α) : AList α :=
  if a = d then del l k else put l k a

/-- Keys strictly rising. -/
def risingKeys {α : Type} : AList α → Bool
  | [] => true
  | [_] => true
  | (j, _) :: (k, b) :: l => j < k && risingKeys ((k, b) :: l)

/-- The canonical form of a register array or a memory. -/
def canonical {α : Type} [DecidableEq α] (d : α) (l : AList α) : Bool :=
  risingKeys l && l.all fun x => decide (x.2 ≠ d)

/-! Byte memory (R31: little-endian). An unlisted address reads as zero. -/

abbrev Memory := List Host.Cell

def Memory.wf (m : Memory) : Bool := canonical (0 : Byte) m
def readByte (m : Memory) (a : Nat) : Byte := rget 0 m a
def writeByte (m : Memory) (a : Nat) (b : Byte) : Memory := rput 0 m a b

/-- `n` bytes from an address, lowest first. -/
def readBytes (m : Memory) (a : Nat) : Nat → List Byte
  | 0 => []
  | n + 1 => readByte m a :: readBytes m (a + 1) n

def writeBytes (m : Memory) (a : Nat) : List Byte → Memory
  | [] => m
  | b :: bs => writeBytes (writeByte m a b) (a + 1) bs

/-- The number of little-endian bytes. -/
def natOfBytes : List Byte → Nat
  | [] => 0
  | b :: bs => b.toNat + 256 * natOfBytes bs

/-- The n low bytes of a number, lowest first. -/
def bytesOf : Nat → Nat → List Byte
  | 0, _ => []
  | n + 1, w => BitVec.ofNat 8 w :: bytesOf n (w / 256)

/-- `n` bytes as a number. -/
def readNat (m : Memory) (a n : Nat) : Nat := natOfBytes (readBytes m a n)
def writeNat (m : Memory) (a n w : Nat) : Memory := writeBytes m a (bytesOf n w)

/-- A field of a number: `w` bits from bit `lo`. -/
def bitsOf (x lo w : Nat) : Nat := (x >>> lo) % 2 ^ w

/-! Masks. -/

/-- Thread t is in the mask. -/
def inMask (m : Mask) (t : Nat) : Bool := m.getLsbD t
/-- The threads of a mask in ascending order. -/
def threadsOf (m : Mask) : List Nat := (List.range 32).filter (inMask m)
/-- The mask of the threads below n that meet a condition. -/
def maskUpTo (p : Nat → Bool) : Nat → Mask
  | 0 => 0
  | n + 1 => (if p n then 1#32 <<< n else 0) ||| maskUpTo p n
/-- The mask of the threads that meet a condition. -/
def maskOf (p : Nat → Bool) : Mask := maskUpTo p 32
/-- The lowest thread of a mask; 0 if none. -/
def lowest (m : Mask) : Nat := (threadsOf m).headD 0
/-- The highest thread of a mask; 0 if none. -/
def highest (m : Mask) : Nat := (threadsOf m).getLastD 0

/-- Remove the k-th element of a list. -/
def dropAt {α : Type} : List α → Nat → List α
  | [], _ => []
  | _ :: l, 0 => l
  | a :: l, n + 1 => a :: dropAt l n

/-- Change the k-th element of a list. -/
def setAt {α : Type} : List α → Nat → (α → α) → List α
  | [], _, _ => []
  | a :: l, 0, f => f a :: l
  | a :: l, n + 1, f => a :: setAt l n f

/-- The elements of a list without repeats, first occurrences kept. -/
def dedup : List Nat → List Nat
  | [] => []
  | a :: l => a :: (dedup l).filter (· != a)

end Sys2Proof
end

