-- ==== Sys2Proof/Machine/Numbers.lean ====
section
/-!
DEFINITION. Number formats (R62 to R67), Round (R69) and the arithmetic that ends in it, exact on dyadic numbers.
-/

namespace Sys2Proof

/-- An exception set in the layout of SR.FFLAGS (R75). -/
abbrev Flags := BitVec 5
def flagNV : Flags := 16#5
def flagDZ : Flags := 8#5
def flagOF : Flags := 4#5
def flagUF : Flags := 2#5
def flagNX : Flags := 1#5

/-- A value of a float format: NaN, an infinity, or (−1)^neg × m × 2^e (m = 0 is a signed zero). -/
inductive FVal where
  | nan
  | inf (neg : Bool)
  | fin (neg : Bool) (m : Nat) (e : Int)
  deriving DecidableEq, Repr

/-- BIAS (R62). -/
def Ty.bias : Ty → Nat
  | .f64 => 1023 | .f32 => 127 | .f16 => 15 | .bf16 => 127 | .e5m2 => 15 | .e4m3 => 7 | .e3m2 => 3 | .e2m3 => 1
  | .e2m1 => 1 | _ => 0
/-- Exponent bits (R62). -/
def Ty.ebits : Ty → Nat
  | .f64 => 11 | .f32 => 8 | .f16 => 5 | .bf16 => 8 | .e5m2 => 5 | .e4m3 => 4 | .e3m2 => 3 | .e2m3 => 2 | .e2m1 => 2
  | _ => 0
def Ty.emin (t : Ty) : Int := 1 - (t.bias : Int)
/-- HasInf (R63). -/
def Ty.hasInf (t : Ty) : Bool := t.isWideFloat || t == .e5m2
/-- HasNaN (R63). -/
def Ty.hasNaN (t : Ty) : Bool := t.hasInf || t == .e4m3
/-- Exponent and fraction of the largest finite value, as one number (R62, R63). -/
def Ty.maxCode (t : Ty) : Nat :=
  if t.hasInf then (2 ^ t.ebits - 1) * 2 ^ t.frac - 1
  else if t == .e4m3 then 126
  else 2 ^ (t.ebits + t.frac) - 1

def signBit (t : Ty) (neg : Bool) : Nat := if neg then 2 ^ (t.ebits + t.frac) else 0
def zeroF (t : Ty) (neg : Bool) : Nat := signBit t neg
def maxF (t : Ty) (neg : Bool) : Nat := signBit t neg + t.maxCode
def infF (t : Ty) (neg : Bool) : Nat := signBit t neg + (2 ^ t.ebits - 1) * 2 ^ t.frac
/-- QNaN (R63). -/
def qnanF : Ty → Nat
  | .f64 => 0x7FF8000000000000
  | .f32 => 0x7FC00000
  | .f16 => 0x7E00
  | .bf16 => 0x7FC0
  | .e5m2 => 0x7E
  | .e4m3 => 0x7F
  | _ => 0

/-- Sign bit of the low bits of a register that hold a value of the format. -/
def fneg (t : Ty) (b : Nat) : Bool := b.testBit (t.ebits + t.frac)
def fexp (t : Ty) (b : Nat) : Nat := bitsOf b t.frac t.ebits
def ffrac (t : Ty) (b : Nat) : Nat := b % 2 ^ t.frac

/-- IsNaN (R63). -/
def isNaNF (t : Ty) (b : Nat) : Bool :=
  if t.hasInf then fexp t b == 2 ^ t.ebits - 1 && ffrac t b != 0
  else if t == .e4m3 then b % 128 == 127
  else false
/-- IsSNaN (R63). -/
def isSNaNF (t : Ty) (b : Nat) : Bool := t.isWideFloat && isNaNF t b && !b.testBit (t.frac - 1)
def isInfF (t : Ty) (b : Nat) : Bool := t.hasInf && fexp t b == 2 ^ t.ebits - 1 && ffrac t b == 0
def isSubnormalF (t : Ty) (b : Nat) : Bool := fexp t b == 0 && ffrac t b != 0

/-- Formats that FTZ touches (R70). -/
def Ty.ftzable (t : Ty) : Bool := t == .f32 || t == .bf16

/-- Decode (R71); `ftz` is FtzIn. -/
def decodeF (t : Ty) (ftz : Bool) (b : Nat) : FVal :=
  if isNaNF t b then .nan
  else if isInfF t b then .inf (fneg t b)
  else if fexp t b == 0 then
    if ftz && t.ftzable then .fin (fneg t b) 0 0
    else .fin (fneg t b) (ffrac t b) (t.emin - t.frac)
  else .fin (fneg t b) (2 ^ t.frac + ffrac t b) ((fexp t b : Int) - t.bias - t.frac)

/-- A rounding direction: those of R68 and the stochastic one with its draw. -/
inductive RMode where
  | fixed (rm : RM)
  | sr (d : Nat)
  deriving DecidableEq, Repr

/-- RoundsAway (R69): the discarded part is rem / 2^k, not zero. -/
def roundsAway (rem k m : Nat) (rm : RMode) (neg : Bool) : Bool :=
  match rm with
  | .fixed .rne => 2 * rem > 2 ^ k || (2 * rem == 2 ^ k && m % 2 == 1)
  | .fixed .rna => 2 * rem ≥ 2 ^ k
  | .fixed .rz => false
  | .fixed .ru => !neg
  | .fixed .rd => neg
  | .sr d => rem * 2 ^ 32 / 2 ^ k + d ≥ 2 ^ 32

/-- Overflow (R69). -/
def overflowF (t : Ty) (rm : RMode) (sat neg : Bool) : Nat × Flags :=
  let fl := flagOF ||| flagNX
  let big := match rm with
    | .fixed .rne | .fixed .rna | .sr _ => true
    | .fixed .ru => !neg
    | .fixed .rd => neg
    | .fixed .rz => false
  if sat || !t.hasNaN || !big then (maxF t neg, fl)
  else if t.hasInf then (infF t neg, fl)
  else (qnanF t, fl)

/-- m × 2^e against the grid 2^qe: the integer part, the discarded part and the binary width of that part. A discarded part
far below the grid is held as a small nonzero one. -/
def gridSplit (m : Nat) (e qe : Int) : Nat × Nat × Nat :=
  if qe ≤ e then (m * 2 ^ (e - qe).toNat, 0, 0)
  else
    let k := (qe - e).toNat
    if k > Nat.log2 m + 40 then (0, if m = 0 then 0 else 1, 64)
    else (m / 2 ^ k, m % 2 ^ k, k)

/-- Round (R69) of (−1)^neg × m × 2^e; `ftz` is FtzOut. -/
def roundF (t : Ty) (rm : RMode) (sat ftz neg : Bool) (m : Nat) (e : Int) : Nat × Flags :=
  if m = 0 then (zeroF t neg, 0)
  else
    let top := (Nat.log2 m : Int) + e
    if ftz && t.ftzable && top < t.emin then (zeroF t neg, flagUF ||| flagNX)
    else if top > (2 ^ t.ebits : Int) then overflowF t rm sat neg
    else
      let ex := max top t.emin
      let (n, rem, k) := gridSplit m e (ex - t.frac)
      let n' := if rem ≠ 0 && roundsAway rem k n rm neg then n + 1 else n
      let fl : Flags := if rem ≠ 0 then (if top < t.emin then flagNX ||| flagUF else flagNX) else 0
      let code := if n' < 2 ^ t.frac then n' else (ex - t.emin + 1).toNat * 2 ^ t.frac + (n' - 2 ^ t.frac)
      if code > t.maxCode then
        let (b, f) := overflowF t rm sat neg
        (b, f ||| fl)
      else (signBit t neg + code, fl)

/-- Round of a decoded value that is finite. -/
def roundV (t : Ty) (rm : RMode) (sat ftz : Bool) : FVal → Nat × Flags
  | .nan => (qnanF t, 0)
  | .inf s => (infF t s, 0)
  | .fin s m e => roundF t rm sat ftz s m e

/-! Exact arithmetic. -/

def FVal.negate : FVal → FVal
  | .nan => .nan
  | .inf s => .inf (!s)
  | .fin s m e => .fin (!s) m e

def FVal.isNaN : FVal → Bool
  | .nan => true
  | _ => false

/-- A signed number at exponent e, brought to a lower exponent. -/
def scaledInt (s : Bool) (m : Nat) (e lo : Int) : Int :=
  let n : Int := (m : Int) * 2 ^ (e - lo).toNat
  if s then -n else n

/-- The exact sum, with the zero sign of R122: a sum of zeros of one sign keeps it; any other zero is − only under RD. None
for infinities of opposite sign; NaN when either addend is. -/
def addF (rd : Bool) (a b : FVal) : Option FVal :=
  match a, b with
  | .nan, _ | _, .nan => some .nan
  | .inf s, .inf s' => if s = s' then some (.inf s) else none
  | .inf s, .fin .. => some (.inf s)
  | .fin .., .inf s => some (.inf s)
  | .fin s m e, .fin s' m' e' =>
    if m = 0 ∧ m' = 0 then some (.fin (if s = s' then s else rd) 0 0)
    else
      let lo := if m = 0 then e' else if m' = 0 then e else min e e'
      let x := scaledInt s m (max e lo) lo + scaledInt s' m' (max e' lo) lo
      if x = 0 then some (.fin rd 0 0) else some (.fin (x < 0) x.natAbs lo)

/-- The exact product (R122); none for zero times infinity. -/
def mulF (a b : FVal) : Option FVal :=
  match a, b with
  | .nan, _ | _, .nan => some .nan
  | .inf s, .inf s' => some (.inf (s != s'))
  | .inf s, .fin s' m _ => if m = 0 then none else some (.inf (s != s'))
  | .fin s m _, .inf s' => if m = 0 then none else some (.inf (s != s'))
  | .fin s m e, .fin s' m' e' => some (.fin (s != s') (m * m') (e + e'))

/-- What a float operation takes beside its operands: SR.FMASK.FTZ where it applies, the mode and SAT. -/
structure FEnv where
  ftz : Bool
  rm  : RM
  sat : Bool
  deriving DecidableEq, Repr

def snanFlag (t : Ty) (bs : List Nat) : Flags := if bs.any (isSNaNF t) then flagNV else 0

/-- The end of R122: NaN, an invalid operation, or one rounding. -/
def finishF (t : Ty) (v : FEnv) (fl : Flags) (anyNaN : Bool) (x : Option FVal) : Nat × Flags :=
  if anyNaN then (qnanF t, fl)
  else
    match x with
    | none => (qnanF t, fl ||| flagNV)
    | some y => let (b, f) := roundV t (.fixed v.rm) v.sat v.ftz y; (b, f ||| fl)

/-- a + b (R122). -/
def addBits (t : Ty) (v : FEnv) (a b : Nat) : Nat × Flags :=
  let x := decodeF t v.ftz a
  let y := decodeF t v.ftz b
  finishF t v (snanFlag t [a, b]) (x.isNaN || y.isNaN) (addF (v.rm == .rd) x y)

/-- a − b: a sign flip of b, then the sum (R122). -/
def subBits (t : Ty) (v : FEnv) (a b : Nat) : Nat × Flags :=
  let x := decodeF t v.ftz a
  let y := (decodeF t v.ftz b).negate
  finishF t v (snanFlag t [a, b]) (x.isNaN || y.isNaN) (addF (v.rm == .rd) x y)

/-- a × b (R122). -/
def mulBits (t : Ty) (v : FEnv) (a b : Nat) : Nat × Flags :=
  let x := decodeF t v.ftz a
  let y := decodeF t v.ftz b
  finishF t v (snanFlag t [a, b]) (x.isNaN || y.isNaN) (mulF x y)

/-- a × b + c, rounded once (R122). -/
def fmaBits (t : Ty) (v : FEnv) (a b c : Nat) : Nat × Flags :=
  let x := decodeF t v.ftz a
  let y := decodeF t v.ftz b
  let z := decodeF t v.ftz c
  finishF t v (snanFlag t [a, b, c]) (x.isNaN || y.isNaN || z.isNaN)
    ((mulF x y).bind fun p => addF (v.rm == .rd) p z)

/-! Order. -/

/-- Strictly less on numbers; zeros compare equal. -/
def ltF : FVal → FVal → Bool
  | .nan, _ | _, .nan => false
  | .inf s, .inf s' => s && !s'
  | .inf s, .fin .. => s
  | .fin .., .inf s => !s
  | .fin s m e, .fin s' m' e' =>
    let lo := min e e'
    scaledInt s m e lo < scaledInt s' m' e' lo

def eqF : FVal → FVal → Bool
  | .nan, _ | _, .nan => false
  | a, b => !ltF a b && !ltF b a

/-- The value sits below another when zeros are told apart by sign (R124). -/
def belowF (a b : FVal) : Bool :=
  if eqF a b then
    match a, b with
    | .fin s 0 _, .fin s' 0 _ => s && !s'
    | _, _ => false
  else ltF a b

/-- The bits of a finite or infinite value that its format holds exactly. -/
def encodeF (t : Ty) (x : FVal) : Nat := (roundV t (.fixed .rne) false false x).1

/-- FMIN and FMAX (R124); `big` chooses the larger. -/
def minmaxBits (t : Ty) (ftz nanp big : Bool) (a b : Nat) : Nat × Flags :=
  let x := decodeF t ftz a
  let y := decodeF t ftz b
  let fl := snanFlag t [a, b]
  if x.isNaN && y.isNaN then (qnanF t, fl)
  else if x.isNaN || y.isNaN then
    if nanp then (qnanF t, fl) else (encodeF t (if x.isNaN then y else x), fl)
  else
    let pickY := if big then belowF x y else belowF y x
    (encodeF t (if pickY then y else x), fl)

/-! Integers. -/

/-- The integer that the low bits denote in a type (R65). -/
def intOf (t : Ty) (b : Nat) : Int :=
  let n := b % 2 ^ t.width
  if t.signed && n ≥ 2 ^ (t.width - 1) then (n : Int) - 2 ^ t.width else n

/-- IntMin and IntMax (R71). -/
def intMin (t : Ty) : Int := if t.signed then -(2 ^ (t.width - 1) : Int) else 0
def intMax (t : Ty) : Int := if t.signed then 2 ^ (t.width - 1) - 1 else 2 ^ t.width - 1

def clampI (x lo hi : Int) : Int := max lo (min hi x)

/-- x mod 2^w as bits. -/
def wrap (w : Nat) (x : Int) : Nat := (x % (2 ^ w : Int)).toNat

/-- Clamp or reduce (R108). -/
def satWrap (t : Ty) (sat : Bool) (x : Int) : Nat :=
  wrap t.width (if sat then clampI x (intMin t) (intMax t) else x)

/-- A rounded integer and whether it differs from the value (R87, R127). -/
def roundToInt (rm : RM) (neg : Bool) (m : Nat) (e : Int) : Nat × Bool :=
  let (n, rem, k) := gridSplit m e 0
  (if rem ≠ 0 && roundsAway rem k n (.fixed rm) neg then n + 1 else n, rem ≠ 0)

/-! Conversions (R86 to R93). -/

/-- CVTFF (R86), with the rounding given as a mode. -/
def cvtFF (dt st : Ty) (ftz : Bool) (rm : RMode) (sat : Bool) (a : Nat) : Nat × Flags :=
  match decodeF st ftz a with
  | .nan =>
    let fl := snanFlag st [a]
    if dt.hasNaN then (qnanF dt, fl) else (zeroF dt false, fl ||| flagNV)
  | .inf s =>
    if dt.hasInf then (infF dt s, 0)
    else if sat || !dt.hasNaN then (maxF dt s, flagNV) else (qnanF dt, flagNV)
  | .fin s m e => roundF dt rm sat ftz s m e

/-- CVTFI (R87): the bits of the result at the type's width. -/
def cvtFI (dt st : Ty) (ftz : Bool) (rm : RM) (a : Nat) : Nat × Flags :=
  match decodeF st ftz a with
  | .nan => (0, flagNV)
  | .inf s => (wrap dt.width (if s then intMin dt else intMax dt), flagNV)
  | .fin s m e =>
    if m ≠ 0 ∧ (Nat.log2 m : Int) + e > 70 then (wrap dt.width (if s then intMin dt else intMax dt), flagNV)
    else
      let (n, inex) := roundToInt rm s m e
      let i : Int := if s then -(n : Int) else n
      if i < intMin dt ∨ i > intMax dt then (wrap dt.width (clampI i (intMin dt) (intMax dt)), flagNV)
      else (wrap dt.width i, if inex then flagNX else 0)

/-- An integer as a value. -/
def ofIntF (x : Int) : FVal := .fin (x < 0) x.natAbs 0

/-- CVTIF (R88). -/
def cvtIF (dt st : Ty) (rm : RM) (sat : Bool) (a : Nat) : Nat × Flags :=
  roundV dt (.fixed rm) sat false (ofIntF (intOf st a))

/-- The value of a bit format (R66). -/
def bitFormatVal (t : Ty) (b : Nat) : Int :=
  match t with
  | .bin1 => (b % 2 : Nat)
  | .sgn1 => if b % 2 = 0 then 1 else -1
  | .tri2 => if b % 2 = 0 then 0 else if (b / 2) % 2 = 0 then 1 else -1
  | _ => 0

/-- An .e8m0 byte times a value (R64, R91). -/
def scaleE8 (e : Nat) : FVal → FVal
  | .fin s m x => .fin s m (x + (e : Int) - 127)
  | v => v

/-- UNPACKN of one element (R90). -/
def unpackElem (dt st : Ty) (b : Nat) : Nat × Flags :=
  match st with
  | .e8m0 => if b % 256 = 255 then (qnanF .f32, 0) else roundF .f32 (.fixed .rne) false false false 1 ((b % 256 : Nat) - 127)
  | .bin1 | .sgn1 | .tri2 =>
    if dt == .f32 then roundV .f32 (.fixed .rne) false false (ofIntF (bitFormatVal st b))
    else (wrap 32 (bitFormatVal st b), 0)
  | _ =>
    if st.isFloat then
      if isNaNF st b then (qnanF .f32, snanFlag st [b]) else roundV .f32 (.fixed .rne) false false (decodeF st false b)
    else (wrap 32 (intOf st b), 0)

/-- SCALEB (R91). -/
def scalebBits (t : Ty) (v : FEnv) (a e : Nat) : Nat × Flags :=
  match decodeF t v.ftz a with
  | .nan => (qnanF t, snanFlag t [a])
  | x =>
    if e = 255 then (qnanF t, 0)
    else
      match x with
      | .inf s => (infF t s, 0)
      | y => roundV t (.fixed v.rm) v.sat v.ftz (scaleE8 e y)

/-- FSCALE (R127). -/
def fscaleBits (t : Ty) (v : FEnv) (a : Nat) (n : Int) : Nat × Flags :=
  match decodeF t v.ftz a with
  | .nan => (qnanF t, snanFlag t [a])
  | .inf s => (infF t s, 0)
  | .fin s m e => roundF t (.fixed v.rm) v.sat v.ftz s m (e + n)

/-- FRND (R127): the value rounded to an integer, in the format; a zero keeps the sign of a. -/
def frndBits (t : Ty) (ftz : Bool) (rm : RM) (x : Bool) (a : Nat) : Nat × Flags :=
  match decodeF t ftz a with
  | .nan => (qnanF t, snanFlag t [a])
  | .inf s => (infF t s, 0)
  | .fin s m e =>
    if 0 ≤ e then (encodeF t (.fin s m e), 0)
    else
      let (n, inex) := roundToInt rm s m e
      (encodeF t (.fin s n 0), if x && inex then flagNX else 0)

/-- FCLASS (R126). -/
def fclassBits (t : Ty) (ftz : Bool) (a : Nat) : Nat :=
  match decodeF t ftz a with
  | .nan => if isSNaNF t a then 2 ^ 8 else 2 ^ 9
  | .inf s => if s then 2 ^ 0 else 2 ^ 7
  | .fin s m _ =>
    if m = 0 then (if s then 2 ^ 3 else 2 ^ 4)
    else if fexp t a = 0 then (if s then 2 ^ 2 else 2 ^ 5)
    else (if s then 2 ^ 1 else 2 ^ 6)

/-! Comparison (R114). -/

/-- The comparison of decoded values; unordered when either is NaN. -/
def cmpF (c : Cmp) (a b : FVal) : Bool :=
  let un := a.isNaN || b.isNaN
  let lt := ltF a b
  let eq := eqF a b
  let gt := ltF b a
  match c with
  | .f => false
  | .lt => lt
  | .eq => eq
  | .le => lt || eq
  | .gt => gt
  | .ne => !un && !eq
  | .ge => gt || eq
  | .num => !un
  | .nan => un
  | .ltu => un || lt
  | .equ => un || eq
  | .leu => un || lt || eq
  | .gtu => un || gt
  | .neu => un || !eq
  | .geu => un || gt || eq
  | .t => true

/-- The last column of R114. -/
def Cmp.quietNV : Cmp → Bool
  | .lt | .le | .gt | .ge | .ltu | .leu | .gtu | .geu => true
  | _ => false

/-- NV of a comparison: signalling operands under every code but .f and .t; quiet ones where R114 says so. -/
def cmpFlags (t : Ty) (c : Cmp) (a b : Nat) : Flags :=
  if (c != .f && c != .t) && (isSNaNF t a || isSNaNF t b) then flagNV
  else if c.quietNV && (isNaNF t a || isNaNF t b) then flagNV
  else 0

/-- ISETP's comparison (R114): never unordered. -/
def cmpI (c : Cmp) (a b : Int) : Bool :=
  match c with
  | .f => false
  | .lt => a < b
  | .eq => a = b
  | .le => a ≤ b
  | .gt => b < a
  | .ne => a ≠ b
  | .ge => b ≤ a
  | _ => true

def BoolOp.run : BoolOp → Bool → Bool → Bool
  | .and, a, b => a && b
  | .or, a, b => a || b
  | .xor, a, b => a != b

end Sys2Proof
end

