-- ==== Sys2Proof/Machine/Flags.lean ====
section
/-!
DEFINITION. What one thread of an arithmetic form gives: its result bits, a predicate, its exception set (R75, R101).
-/

namespace Sys2Proof

/-- The result of one thread. `d` holds the destination's bits; `p` the predicate a form writes beside or instead of it;
`draws` how many draws the thread made (R74). -/
structure LaneOut where
  d     : Nat := 0
  p     : Bool := false
  fl    : Flags := 0
  draws : Nat := 0
  deriving DecidableEq, Repr

def LaneOut.bits (d : Nat) : LaneOut := { d := d }
def LaneOut.float (r : Nat × Flags) : LaneOut := { d := r.1, fl := r.2 }
def LaneOut.pred (p : Bool) : LaneOut := { p := p }

/-- The exception sets of both elements of a packed form, ORed (R123). -/
def packedOut (lo hi : Nat × Flags) : LaneOut := { d := lo.1 + hi.1 * 2 ^ 16, fl := lo.2 ||| hi.2 }

/-- The integer types whose 32-bit results fill an s register with their sign (R35). -/
def Ty.sfill : Ty → Bool
  | .i8 | .i16 | .i32 => true
  | _ => false

/-- Bits [63:0] of an s register written with a result of a given width (R35). -/
def fillS (w : Nat) (sx : Bool) (d : Nat) : W64 :=
  if w ≤ 32 ∧ sx then (BitVec.ofNat 32 d).signExtend 64 else BitVec.ofNat 64 (if w ≤ 32 then d % 2 ^ 32 else d)

end Sys2Proof
end

