-- ==== Sys2Proof/Machine/State.lean ====
section
/-!
DEFINITION. Everything the spec gives the machine, as plain data, the ways a step can stop, and the state after reset.
-/

namespace Sys2Proof.Machine

/-! ## Threads -/

/-- Thread status (R133). The counts of HOLD and SLEEP are due times on the context's count of scheduled cycles. -/
inductive TStat where
  | run
  | cbwait (n : BitVec 3)
  | sleep (due : Nat)
  | hold (due : Nat)
  | barwait (cluster : Bool) (b : Nat)
  | exited
  deriving DecidableEq, Repr

/-- One thread (R34, R45, R72, R132 to R134), with its part of the trap frame (R332). -/
structure Thread where
  pc       : VA := 0
  stat     : TStat := .run
  pausing  : Bool := false
  preds    : BitVec 7 := 0
  v        : AList W32 := []
  b0       : W32 := poison32
  b1       : W32 := poison32
  b2       : W32 := poison32
  b3       : W32 := poison32
  /-- Latch producers so far; a lane switch adds four (R44, R45). It gives a pending result its place. -/
  lseq     : Nat := 0
  rctr     : W64 := 0
  fpc      : VA := 0
  fstat    : TStat := .run
  fpausing : Bool := false
  fpreds   : BitVec 7 := 0
  deriving DecidableEq, Repr

/-! ## Groups -/

/-- Register files that carry error marks (R102, R189, R333). -/
inductive MarkFile where
  | v | s | p | h | tile
  deriving DecidableEq, Repr

/-- An uncorrectable 16-bit half: of a register of a thread (files v), or of the group. `mem` is a memory-error mark
(R189); otherwise the error is the register file's (R103). -/
structure Mark where
  file : MarkFile
  thr  : Nat
  reg  : Nat
  half : Nat
  mem  : Bool
  deriving DecidableEq, Repr

/-- An arithmetic log record (R78). -/
structure LogRec where
  pc    : W64
  opc   : BitVec 10
  cause : BitVec 5
  deriving DecidableEq, Repr

/-- What an instruction that has issued still waits for before it completes (R43): nothing, a destination, the lines of a
load without a register, the waits of a release, a matrix operation. -/
inductive DoneWhen where
  | now
  | pend (id : Nat)
  | load (id : Nat)
  | release (seq : Nat)
  | mx (quad id : Nat)
  deriving DecidableEq, Repr

/-- An instruction issued and not complete (R43, R75, R79). -/
structure Inflight where
  pc    : W64
  opc   : BitVec 10
  flags : BitVec 5
  sb    : Option Nat
  when_ : DoneWhen
  deriving DecidableEq, Repr

/-! ## Translation and accesses -/

/-- Access kinds of a walk and of a fault record (R182, R187). -/
inductive Acc where
  | load | store | fetch | atomic | privLoad | privStore | qslice
  deriving DecidableEq, Repr

/-- What a leaf says of a page (R181). -/
structure Leaf where
  unc   : Bool := false
  homed : Nat := 0
  sh    : Bool := true
  u     : Bool := true
  x     : Bool := false
  w     : Bool := false
  rd    : Bool := false
  /-- Page size as a power of two: 16, 21 or 30. -/
  k     : Nat := 16
  deriving DecidableEq, Repr

/-- A TLB entry (R184): `loc` is the core of a first-level TLB, the district of a second-level one. -/
structure TlbE where
  loc  : Nat
  zone : Nat
  ctx  : Nat
  vpn  : Nat
  ppn  : Nat
  leaf : Leaf
  deriving DecidableEq, Repr

/-- A fault record (R187); the team is its number in the model. -/
structure FaultRec where
  va    : VA := 0
  kind  : Nat := 0
  acc   : Acc := .load
  level : Nat := 5
  zone  : Nat := 0
  tmask : Mask := 0
  team  : Nat := 0
  group : Nat := 0
  /-- The access of the lowest of its threads (R333). -/
  low   : VA := 0
  /-- The write of a log record (R79). -/
  log   : Bool := false
  deriving DecidableEq, Repr

/-- How an instruction waits that will be tried again: `again`, not issued, the stage counts the PCs anew; `kept`, issued, it
holds the group's issue in its slot; `away`, the same in a stall of R23; `operand`, not issued, in a stall of R23 (R41, R43). -/
inductive HoldKind where
  | again | kept | away | operand
  deriving DecidableEq, Repr

/-- What an instruction that has issued and holds its group was issued for: its threads, and, when its pair has issued with it and
neither is done, both instructions' PCs and threads (R140, R141). -/
structure Held where
  mask : Mask
  pair : Option ((VA × Mask) × (VA × Mask)) := none
  deriving DecidableEq, Repr

/-- Why a group is held beside its threads' status: a stall of R23, a walk (R186), a parked fault (R187; `entry` once the
record has one), a matrix operation to be accepted (R263), or an instruction that waits and is tried again. `pc` is the
instruction that issues next. Of a walk, `by_` names the accesses: their threads, their first byte on a page, their start. -/
inductive GWait where
  | none
  | retry (pc : VA) (how : HoldKind)
  | walk (pc : VA) (va : VA) (acc : Acc) (by_ : List (Mask × VA × VA))
  | parked (pc : VA) (rec : FaultRec) (entry : Option Nat)
  | accept
  deriving DecidableEq, Repr

/-! ## Memory accesses in progress -/

/-- A destination whose value comes later (R41): the threads that wait, the latch place of each (R44), the values and the
threads whose data are uncorrectable (R189) so far. -/
structure Pend where
  id   : Nat
  dst  : Dst
  ty   : Ty
  unif : Bool
  mask : Mask
  lat  : List (Nat × Nat)
  got  : List (Nat × Nat) := []
  bad  : List Nat := []
  deriving DecidableEq, Repr

/-- A piece of a load: thread, byte index of the datum, physical address, bytes. -/
structure Piece where
  thr : Nat
  at_ : Nat
  pa  : Nat
  n   : Nat
  deriving DecidableEq, Repr

/-- Progress of one line of a load (R207): wants an L2 grant, wants its fill, waits for a renewal, is to be performed at its
home without a copy, waits for another device or the host, has arrived. -/
inductive LineStat where
  | l2 | fill | renew | home | ext | done
  deriving DecidableEq, Repr

/-- `n`: the lease asked for, in ticks, or in nanoseconds for a remote line (R206, R402); `xp`: the copy is to be installed
expired (R210). -/
structure LineReq where
  line : Nat
  leaf : Leaf
  stat : LineStat
  n    : Nat := 16
  xp   : Bool := false
  deriving DecidableEq, Repr

/-- What a load does with its lines: fills registers, gives its bytes to the instruction that waits (R249, R319), fills the next entry
of a queue's stream (R303), or only asks for leases (R247), remote copies (R427) or copies (R197). -/
inductive LoadKind where
  | data | form | lease | rlease | pref
  | stream (qn : Nat)
  deriving DecidableEq, Repr

/-- A load whose lines have not all arrived; `id` is its place in the group's order of accesses (R186, R196,
R207). `p` is the group's clock when it issued; `got` holds the
bytes so far by thread and index; `bad` the threads with uncorrectable data; `at_` its place in the order of sending (R6, R12). -/
structure LoadRec where
  id     : Nat
  kind   : LoadKind
  ty     : Ty
  nl1    : Bool
  p      : Nat
  pieces : List Piece
  got    : List (Nat × Nat × Byte)
  bad    : List Nat
  lines  : List LineReq
  at_    : Nat := 0
  /-- Threads whose access has failed (R414, R433). -/
  gone   : List Nat := []
  deriving DecidableEq, Repr

/-- What a store-buffer entry does to one location for one thread. -/
inductive SOp where
  | store (bytes : List Byte)
  | atom (ty : Ty) (aop : Aop) (b c : Nat)
  deriving DecidableEq, Repr

structure SPart where
  va   : VA := 0
  thr  : Nat
  pa   : Nat
  n    : Nat
  leaf : Leaf
  op   : SOp
  deriving DecidableEq, Repr

/-- A store-buffer entry (R215), with the semantics of its atomics (R243). -/
structure SEntry where
  id    : Nat
  parts : List SPart
  sem   : Sem
  scope : Scope
  /-- The store of a TCOND (R346). -/
  tcond : Bool := false
  deriving DecidableEq, Repr

/-- A line of an entry that has left the buffer (R215), with the group's clock `p` when it left. `remote`: its home is
another device; `accepted`: the home has accepted it (R408); `at_`: its place in the order of sending (R6, R12). `done`: it has been performed, with its timestamp, the old
values by thread, the version of the line after it; a failed one gives no timestamp. -/
structure FlyLine where
  fid    : Nat
  id     : Nat
  line   : Nat
  p      : Nat
  parts  : List SPart
  sem    : Sem
  scope  : Scope
  remote : Bool
  at_    : Nat := 0
  accepted : Bool := false
  /-- Its place in the order of acceptance at a home that holds it (R400, R403). -/
  heldAt : Option Nat := none
  sent   : Bool := false
  done   : Option (Option Nat × List (Nat × Nat) × Option LineData) := none
  deriving DecidableEq, Repr

/-- A store to the scratchpad of a team that is away, held at the cluster (R176, R178): the store's place in program order, its
target and the writer's clock. -/
structure CluStore where
  id    : Nat
  team  : Nat
  off   : Nat
  bytes : List Byte
  pts   : Nat
  deriving DecidableEq, Repr

/-- A release whose waits may not have ended (R223); `pod` also waits for remote entries (R406). -/
structure RelMark where
  seq   : Nat
  scope : Scope
  pod   : Bool := false
  deriving DecidableEq, Repr

/-- A matrix operation (R260, R263): its parameter block, the group and team that issued it, the group's clock at acceptance,
the leave it still needs, whether it has asked for some and has started (R269). -/
structure MxOp where
  id      : Nat
  group   : Nat
  team    : Nat
  blk     : List Byte
  pts     : Nat
  left    : Nat
  asked   : Bool := false
  started : Bool := false
  /-- Where the team's overwritten bytes since its acceptance begin (R265). -/
  since   : Nat := 0
  deriving DecidableEq, Repr

/-- An MXOP that has issued and waits until its block has been read and checked (R263): the instruction, its PC, the execution mask, the
threads selected, the block's offset. -/
structure MxPend where
  x   : Mxop
  pc  : VA
  m   : Mask
  sel : Mask
  off : Nat
  deriving DecidableEq, Repr

/-- A failure report that waits for its trap (R415). -/
structure Report where
  kind : Nat
  dev  : Nat
  mask : Mask
  deriving DecidableEq, Repr

/-- One stream of an access slice (R300, R301): its base, strides S0 to S3 and TS, trip counts and next indices. -/
structure Stream where
  sp      : Bool
  w64     : Bool
  base    : Nat
  strides : List Int
  ts      : Int
  trips   : List Nat := []
  next    : List Nat := [0, 0, 0, 0]
  pts     : Nat := 0
  seq     : Nat := 0
  deriving DecidableEq, Repr

/-- Why a stream stopped at an entry (R303): a translation fault, with its entry in the fault buffer once it has one, or addresses that
trap. -/
inductive Stop where
  | fault (rec : FaultRec) (entry : Option Nat)
  | trap (code : Nat) (mask : Mask) (info : Nat)
  deriving DecidableEq, Repr

/-- An operand queue (R190): entries hold one element for each thread, and the threads whose element is uncorrectable.
`waits`: its stream has no channel yet (R302). `chan`: the bank part that serves it, and whether it is reserved for the group. `poison`: elements of the
next entry that read as poison once the trap is taken (R303). -/
structure OpQueue where
  width   : Nat := 32
  bound   : Bool := false
  ended   : Bool := true
  entries : List (List Nat × Mask) := []
  stream  : Option Stream := none
  stop    : Option Stop := none
  poison  : Mask := 0
  waits   : Bool := false
  chan    : Option (Nat × Bool) := none
  deriving DecidableEq, Repr

/-- An access slice being defined (R300): trip counts, streams by queue. -/
structure SliceDef where
  trips   : List Nat := [1, 1, 1, 1]
  streams : AList Stream := []
  deriving DecidableEq, Repr

/-- A SYSC that waits (R352): its destination and, while it can be abandoned (R341), its threads and the registers that it read last. -/
structure SyscWait where
  d    : BitVec 6
  mask : Mask := 0
  old  : AList W64 := []
  deriving DecidableEq, Repr

/-- A group of 32 threads (R24, R35, R41 to R45, R132 to R134, R156, R327, R329). -/
structure Group where
  team     : Nat := 0
  gidx     : Nat := 0
  quad     : Nat := 0
  slot     : Option Nat := none
  readyAt  : Option Nat := none
  regs     : Nat := 8
  threads  : List Thread := List.replicate 32 {}
  s        : AList W64 := []
  h        : AList W64 := []
  cb       : AList W32 := []
  sb       : AList Nat := []
  part     : BitVec 3 := 5
  fpart    : BitVec 3 := 5
  cause    : Byte := 0
  handler  : Bool := false
  double   : Bool := false
  epc      : W64 := 0
  tmask    : W32 := 0
  tinfo    : W64 := 0
  tvec     : W32 := 0
  mxinfo   : W64 := 0
  fflags   : BitVec 5 := 0
  heldLog  : Option LogRec := none
  /-- RETT left the record held: ARITHLOG comes before any instruction (R80). -/
  relog    : Bool := false
  /-- Log records with a slot that are not in the store buffer yet (R79). -/
  logOut   : List (VA × List Byte) := []
  marks    : List Mark := []
  /-- Halves with a correctable error that no read has found yet (R102). -/
  soft     : List Mark := []
  inflight : List Inflight := []
  /-- The scheduled cycle of the last issue, plus 1; 0 before the first (R42). -/
  lastIssue : Nat := 0
  /-- Cycles that were not scheduled cycles of the group, and the cycle since which it is gated (R340). -/
  gacc     : Nat := 0
  gat      : Option Nat := none
  stopped  : Bool := false
  skid     : Nat := 0
  /-- The group has raised a trap of its own since its team was halted (R336). -/
  tripped  : Bool := false
  wait     : GWait := .none
  /-- The issued instruction that `wait` holds (R135). -/
  issuedAs : Option Held := none
  /-- HNT.CEDE of a pair whose second instruction has still to act (R140). -/
  pairCede : Bool := false
  pts      : Nat := 0
  lmax     : Nat := 0
  ah       : Nat := 0
  racq     : Nat := 0
  winEnd   : Nat := 1024
  winLoad  : Bool := false
  seq      : Nat := 0
  pends    : List Pend := []
  loads    : List LoadRec := []
  reports  : List Report := []
  sbuf     : List SEntry := []
  fly      : List FlyLine := []
  cluOut   : List CluStore := []
  rels     : List RelMark := []
  pdirty   : AList Byte := []
  pleaf    : AList Leaf := []
  signalAt : Option Nat := none
  /-- The victims that a waiting ACQR of the group has stopped (R230). -/
  acqr     : List Nat := []
  mxpend   : Option MxPend := none
  /-- A LEAVE that waits: granted or not (R281). -/
  leave    : Option Bool := none
  ps       : Nat := 0
  queues   : AList OpQueue := []
  slice    : Option SliceDef := none
  /-- s registers that wait for a copy's status word (R296). -/
  spend    : List Nat := []
  /-- Status registers written and not read yet (R298). -/
  acqs     : List Nat := []
  /-- A form that holds the group has begun: what it acts on. -/
  begun    : Option Nat := none
  /-- The device time at which an FCONTAIN.clear that holds the group began (R428). -/
  clearAt  : Option Nat := none
  /-- The zone of a form of class 0xA that holds the group, and its place in the order of issue (R370). -/
  zform    : Option (Nat × Nat) := none
  /-- The bytes that a load of that form has brought, and whether they are uncorrectable. -/
  formRead : Option (List Byte × Bool) := none
  /-- A SYSC that waits for its answer (R352). -/
  sysc     : Option SyscWait := none
  /-- When an EVWAIT gives up (R353). -/
  evUntil  : Option Nat := none
  /-- The device time of the next-to-last acquire whose remote requests must be performed first (R406). -/
  facq     : Option Nat := none
  launched : Bool := true
  deriving DecidableEq, Repr

/-! ## Teams -/

/-- One BAR or BARC barrier of a team (R153, R154): the phase, the groups that have arrived, by GIDX, and their largest clock at
arrival, with the acknowledgements since (R227). -/
structure Barrier where
  phase   : Bool := false
  arrived : List Nat := []
  clk     : Nat := 0
  deriving DecidableEq, Repr

/-- A constant bank as its launch supplied it (R167). -/
structure ConstBank where
  size  : Nat := 0
  bytes : Memory := []
  deriving DecidableEq, Repr

/-- An entry of a team FIFO (R191, R226): the valid mask, one element for each thread, the stamp. -/
structure FifoE where
  valid : Mask
  elems : List Nat
  wide  : Bool
  stamp : Nat
  /-- Restored from a record, which does not keep the width of the push (log entry 19). -/
  raw   : Bool := false
  deriving DecidableEq, Repr

/-- Whether a team's groups may issue (R336, R341, R351): `killed` is being ended, `stopping` is asked to stop, `stopped`
has, `spilled` is off its core, `saved` is in a record that is still being updated (R345). -/
inductive TeamRun where
  | running | halted | retired | stopping | stopped | spilled | killed | saved
  deriving DecidableEq, Repr

/-- An update that a saved record still waits for (R345), with offsets in the record: an entry's acknowledgement (its group,
number, whether its homes are remote, the counter), an input's copy (its number, the scratchpad image, the group blocks), a SYSC
answer (its group, that group's block, the register). -/
inductive ImgItem where
  | ack (g id : Nat) (remote : Bool) (off : Nat)
  | copy (k input scr : Nat) (blocks : List Nat)
  | sysc (g blk d : Nat)
  deriving DecidableEq, Repr

/-- A quadrant's matrix unit (R252, R253, R263, R269): the team that holds the tile store, tile words by
1024 × tile + 32 × row + column, marked halves of words (key 2 × word + half, memory error or not), identifiers, queue, leave. -/
structure Quad where
  holder  : Option Nat := none
  tiles   : AList W32 := []
  tmarks  : AList Bool := []
  last    : Nat := 0
  done    : Nat := 0
  queue   : List MxOp := []
  /-- The leave balance by grants not used up: the cycle of each and what is left of it (R269). -/
  grants  : List (Nat × Nat) := []
  /-- Zones that hold the quadrant, shared or not (R363), its SCRUB mark as for a bank, the context that issues (R340). -/
  zones   : List Nat := []
  shared  : Bool := false
  scrub   : Nat := 0
  ctx     : Option Nat := none
  /-- The cycle at which that context's slice began (R340). -/
  since   : Nat := 0
  /-- Which of its team's tile stores it is (R253, R344). -/
  place   : Nat := 0
  /-- Tile halves with a correctable error (R102, R254); the slot that issued last (R138). -/
  soft    : List Nat := []
  rr      : Nat := 7
  deriving DecidableEq, Repr

/-- A resident team (R24, R58, R132). -/
structure Team where
  ctx      : Nat := 0
  graph    : Nat := 0
  node     : Nat := 0
  cluster  : Nat := 0
  clid     : Nat := 0
  crank    : Nat := 0
  gti      : Nat := 0
  gpt      : Nat := 1
  tpc      : Nat := 1
  core     : Nat := 0
  codeBase : VA := 0
  textSize : Nat := 0
  groups   : List Nat := []
  banks    : AList ConstBank := []
  bars     : AList Barrier := []
  barcs    : AList Barrier := []
  run      : TeamRun := .running
  scratchSize : Nat := 0
  scratch  : Memory := []
  stamps   : AList Nat := []
  /-- Scratchpad halves with a memory-error mark (R296, R346), by byte offset / 2. -/
  scrbad   : List Nat := []
  /-- Matrix operations accepted and not complete; scratchpad bytes overwritten meanwhile, with what they were and
  whether that was uncorrectable (R265, R254). -/
  mxin     : Nat := 0
  past     : List (Nat × Byte × Bool) := []
  fifoN    : Nat := 0
  fifos    : AList (List FifoE) := []
  relc     : Nat := 0
  privBase : VA := 0
  privL    : Nat := 0
  away     : Bool := false
  /-- Promotions that stop the team (R230). -/
  promo    : Nat := 0
  /-- The code-object header's VA and the kernel's index, for the record (R344). -/
  codeVa   : VA := 0
  kidx     : Nat := 0
  /-- The queue's PRIO at dispatch (R320). -/
  prio     : Nat := 0
  regs     : Nat := 8
  entry    : Nat := 0
  nstrm    : Nat := 0
  matrix   : Bool := false
  /-- The team is launched by a task node (R314). -/
  task     : Bool := false
  /-- Its groups have been dispatched (R287). -/
  live     : Bool := true
  nout     : Nat := 0
  outmask  : Nat := 0
  /-- For each input its status register and, once the copy has ended, its status word (R296). -/
  inputs   : List (Nat × Option W64) := []
  /-- Banks that hold its granules and its channels (R171, R191, R302). -/
  granules : List Nat := []
  chans    : List Nat := []
  /-- Running or halted, as the team was when it was asked to stop (R341). -/
  haltRun  : TeamRun := .running
  /-- Where a stop request came from (R341): the cycle of its deadline. -/
  deadline : Nat := 0
  stoppedAt : Nat := 0
  /-- Where its block lies in the context's spill area, and its length (R342). -/
  spillAt  : Nat := 0
  spillLen : Nat := 0
  /-- Updates to its record, and the physical addresses of the record's 4 KiB blocks (R345). -/
  img      : List ImgItem := []
  imgMap   : List Nat := []
  /-- Tile stores of a spilled team (R342). -/
  stores   : List Quad := []
  deriving DecidableEq, Repr

/-! ## Contexts -/

/-- Privilege levels (R323). -/
inductive Priv where
  | user | sup | hyp
  deriving DecidableEq, Repr

/-- A context (R76, R77, R323, R324, R326). -/
structure Ctx where
  zone     : Nat := 64
  priv     : Priv := .user
  ptroot   : W64 := 0
  ftz      : Bool := false
  logen    : BitVec 5 := 0
  rseed    : W64 := 0
  alogbase : W64 := 0
  alogerr  : Bool := false
  alogwidx : W16 := 0
  alogcap  : W16 := 0
  /-- Resume class (R343), DRAIN and SLICE in microseconds, spill area (R344). -/
  cls      : Nat := 0
  drain    : Nat := 1
  slice    : Nat := 10
  spill    : VA := 0
  spillsz  : Nat := 0
  /-- The group whose CTXSAVE stops its teams (R324, R357). -/
  saver    : Option Nat := none
  /-- Guest time (R417): the last TN returned, BASEVAL, BASEPTP, RUN. -/
  tlast    : Nat := 0
  baseval  : Nat := 0
  baseptp  : Nat := 0
  trun     : Bool := false
  deriving DecidableEq, Repr

/-! ## Zones -/

/-- States of a zone that exists (R364). -/
inductive ZState where
  | ready | transit
  deriving DecidableEq, Repr

/-- Work of a transition that has not ended (R370 to R376): departing resources, slice windows, ways on their way out, a
channel migration. -/
structure Migration where
  chans   : List (Nat × Nat)
  newSize : Nat
  oldSize : Nat
  wm      : Nat := 0
  excl    : Bool := false
  auto    : Bool := false
  deriving DecidableEq, Repr

/-- A window of a zone on a channel (R367), with EXCL of the map it belongs to (R392). -/
structure Win where
  chan  : Nat
  first : Nat
  len   : Nat
  excl  : Bool
  deriving DecidableEq, Repr

/-- A zone (R363 to R368, R380). -/
structure Zone where
  hbmbase  : Nat := 0
  hbmmax   : Nat := 0
  size     : Nat := 0
  hostbase : Nat := 0
  hostsize : Nat := 0
  /-- The channel map (R16, R367): channel and BASE of each entry. -/
  chans    : List (Nat × Nat) := []
  /-- Slice map of each district (R15); its length is the live count. -/
  slices   : AList (List Nat) := []
  /-- LH of each district (R206). -/
  lh       : AList Nat := []
  zclk     : Nat := 0
  epoch    : Nat := 0
  /-- MTS of each home (R205). -/
  mts      : AList Nat := []
  expfloor : AList Nat := []
  oquota   : Nat := 0
  pquota   : Nat := 0
  state    : ZState := .ready
  slots    : List Nat := []
  /-- Way masks by cache: vaults 0 to 3, slices 4 + 64 × district + slice (R391). -/
  ways     : AList Nat := []
  /-- Ways being removed (R391). -/
  leaving  : AList Nat := []
  /-- New slice maps of open windows by district (R374). -/
  newMaps  : AList (List Nat) := []
  mig      : Option Migration := none
  /-- A channel loss found while a migration runs (R433). -/
  lostChs  : List Nat := []
  /-- Old windows kept until the commit, and a size that waits for it (R375). -/
  oldWins  : List Win := []
  newSize  : Option Nat := none
  /-- EXCL of the map in force (R392). -/
  excl     : Bool := false
  /-- The entries of a ZSHRINK that runs, the cycle it started and its group (R372). -/
  shrink   : List Nat := []
  shrinkAt : Nat := 0
  shrinkBy : Nat := 0
  /-- Its bound: the largest DRAIN of the affected teams, in cycles (R372). -/
  shrinkMax : Nat := 0
  /-- The status of a ZSHRINK that has ended and whose group has not read it. -/
  shrunk   : AList Nat := []
  /-- A re-hash commits by itself (R433); the groups whose ZCOMMIT waits, in the order of issue (R370, R376). -/
  commit   : Bool := false
  commits  : List Nat := []
  /-- Coins (R310, R311, R380, R393). -/
  allow    : Nat := 0
  cap      : Nat := 0
  floor    : Nat := 0
  /-- ALLOW, CAP and FLOOR in force until the next period, when a ZCOINS has set others (R393). -/
  oldCoin  : Option (Nat × Nat × Nat) := none
  bal      : Int := 0
  /-- Coins of service received in the period, by channel (R380). -/
  used     : AList Nat := []
  lent     : Nat := 0
  /-- Loans not repaid: lender and the instalments to come. -/
  loans    : List (Nat × List Nat) := []
  /-- Overrun charges for the next period (R341). -/
  charge   : Nat := 0
  deriving DecidableEq, Repr

/-! ## Tasks -/

/-- A mapped queue's slot (R306): queue number, the context of its graphs, the 64 bytes of its QCB. -/
structure Slot where
  queue : Nat
  ctx   : Nat
  qcb   : List Byte
  deriving DecidableEq, Repr

/-- Node states (R286, R287, R344): `chosen` runs and is not ready yet. -/
inductive NStat where
  | waiting | chosen | ready | running | retired | skipped
  deriving DecidableEq, Repr

/-- What readiness read of a kernel (R59, R293): descriptor fields, code, constant banks, input records (status register,
shape-record bytes), copies' scratchpad sizes. -/
structure Kern where
  codeVa   : VA
  base     : VA
  textSize : Nat
  entry    : Nat
  regs     : Nat
  gpt      : Nat
  clw      : Nat
  clh      : Nat
  privw    : Nat
  scratch  : Nat
  nout     : Nat
  inputs   : List (Nat × List Byte)
  banks    : AList ConstBank
  objs     : List Nat
  deriving DecidableEq, Repr

/-- A node of a loaded graph. -/
structure Node where
  tcb     : List Byte
  succ    : List Nat
  st      : NStat := .waiting
  count   : Nat := 0
  gotRun  : Bool := false
  from_   : List Nat := []
  armed   : Bool := false
  iter    : Nat := 0
  status  : Nat := 0
  nextClu : Nat := 0
  /-- Clusters to be placed again (R294). -/
  again   : List Nat := []
  live    : Bool := false
  kern    : Option Kern := none
  /-- A collective's engine has written its receive buffer, and a write of it to another device has failed (R411, R414). -/
  wrote   : Bool := false
  lost    : Bool := false
  deriving DecidableEq, Repr

/-- A loaded graph (R285 to R290, R308, R309). -/
structure Graph where
  ctx    : Nat
  queue  : Nat
  prio   : Nat
  base   : VA
  nodes  : List Node
  done   : VA
  tag    : Nat
  fail   : Option (Nat × Nat) := none
  nrun   : Nat := 0
  priv   : VA := 0
  privsz : Nat := 0
  deriving DecidableEq, Repr

/-- A declared-input copy (R295 to R297): `pos` and `bytes` of the destination written, `order` its age, `leave` the leave
it still asks for. -/
structure TCopy where
  team    : Nat
  input   : Nat
  shape   : List Byte
  pos     : Nat := 0
  bytes   : Nat := 0
  bad     : Bool := false
  serving : Bool := false
  status  : Option Nat := none
  /-- Lines of other devices and of the host that have come for the next piece (R400, R419). -/
  far     : AList LineData := []
  /-- Those that came poisoned (R7). -/
  farBad  : List Nat := []
  /-- Lines of the next piece that their channels have served, and the one that waits for its channel (R310, R381). -/
  fetched : List Nat := []
  want    : Option Nat := none
  leave   : Nat := 0
  deriving DecidableEq, Repr

/-- An event record (R347). -/
structure EvRec where
  code  : Nat
  ctx   : Nat := 0xFFF
  group : Nat := 0
  arg   : Nat := 0
  data  : Nat := 0
  deriving DecidableEq, Repr

/-! ## Device-wide records -/

/-- A chiplet's STATE and FAILS (R430). -/
inductive ChipState where
  | active | fenced | off | resetting
  deriving DecidableEq, Repr
structure Chip where
  st    : ChipState := .active
  fails : Nat := 0
  deriving DecidableEq, Repr

/-- The capacity record's live units (R434): site masks, slice masks by district, channels, stations. -/
structure Capacity where
  cores    : AList Nat := []
  slices   : AList Nat := []
  chans    : Nat := 0
  stations : Nat := 0
  gate     : Nat := 0
  deriving DecidableEq, Repr

/-- The health register and the error log (R435, R436). -/
structure Health where
  ce       : Nat := 0
  logfull  : Bool := false
  lost     : Bool := false
  degraded : Bool := false
  replace  : Bool := false
  log      : AList (List Byte) := []
  next     : Nat := 0
  deriving DecidableEq, Repr

/-- A request that has been accepted at this home from another device (dev) or from the host and is not performed yet (R400, R403);
`sent`: it has gone on to the host (R419). -/
structure HeldReq where
  dev : Option Nat
  pa  : Nat
  n   : Nat
  op  : RemoteOp
  sent : Bool := false
  deriving DecidableEq, Repr

/-- The answer that the home sent last (R400, R401, R418): to another device or to the host, for n bytes at an address. -/
structure Answer where
  dev   : Option Nat
  pa    : Nat
  n     : Nat
  reply : RemoteReply
  deriving DecidableEq, Repr

/-- A signed image (R440): its 256-byte header, its payload, and whether its signature verifies under the root key. -/
structure SignedImage where
  head    : List Byte
  payload : List Byte
  signed  : Bool
  deriving DecidableEq, Repr

/-- What bring-up is given from outside (R439, R440, R455, R456): whether the boot ROM, the self-test and HBM training pass; the
images of the controller, the Exchange, the hypervisor and the pod configuration, with the fused minimum SVN of each kind; the live
units, the device's place in the pod and its host group's bridge; where the hypervisor's payload and the pod configuration block lie
in HBM, what else is placed there (`image`), context 0's root and code header. -/
structure Boot where
  passes  : Bool
  images  : List SignedImage
  minSvn  : List Nat
  gate1   : Bool
  cap     : Capacity
  failed  : List Nat
  device  : Nat
  groupBridge : Option Nat
  routes  : AList (BitVec 32)
  codeAt  : Nat
  podAt   : Nat
  image   : Memory
  root    : W64
  header  : VA
  deriving DecidableEq, Repr

/-- The device before, during and instead of normal work (R439). -/
inductive Phase where
  | cold | running | recovery
  deriving DecidableEq, Repr

/-- The attestation mailbox (R442). -/
structure Mailbox where
  nonce : List Byte := []
  zone  : Nat := 0
  dest  : Nat := 0
  done  : Bool := false
  /-- A request that the hypervisor has made and whose report is not written yet. -/
  asked : Bool := false
  deriving DecidableEq, Repr

/-- An HDM decoder (R418): a host range, and where it lies in a zone's HBM. -/
structure Hdm where
  valid  : Bool := false
  zone   : Nat := 0
  base   : Nat := 0
  size   : Nat := 0
  target : Nat := 0
  deriving DecidableEq, Repr

/-! ## The device -/

/-- A queue directory entry (R305); `slot` while MAPPED. -/
structure QDir where
  valid   : Bool := false
  qcbpa   : Nat := 0
  zone    : Nat := 0
  lastw   : W32 := 0
  slot    : Option Nat := none
  pending : Bool := false
  error   : Bool := false
  deriving DecidableEq, Repr

/-- A cached copy (R205). -/
structure Copy where
  data : LineData
  wts  : Nat
  rts  : Nat
  xp   : Bool
  bad  : Bool
  deriving DecidableEq, Repr

/-- A home copy's stamps and expired flag (R205) and the largest physical lease granted on it (R403). -/
structure Home where
  wts    : Nat := 0
  rts    : Nat := 0
  xp     : Bool := false
  expmax : Nat := 0
  /-- The zone of the line and its home's number (R214). -/
  zn     : Nat := 64
  at_    : Nat := 0
  /-- Written and not written back (R433). -/
  dirty  : Bool := false
  deriving DecidableEq, Repr

/-- A cached copy of a remote line (R402). -/
structure RCopy where
  data : LineData
  exp  : Nat
  ft   : Nat
  deriving DecidableEq, Repr

/-- An SRAM bank's control register (R168) and its SCRUB mark (R373). HOLDERS is the count of teams that hold a part of it. -/
structure Bank where
  mode    : BitVec 2 := 0
  reqmode : BitVec 2 := 0
  stage   : BitVec 2 := 0
  owner   : Option Nat := none
  /-- 0 clean, 1 marked SCRUB, 2 being scrubbed. -/
  scrub   : Nat := 0
  deriving DecidableEq, Repr

/-- Who waits for an entry of a fault buffer: a parked group (R187), or a stream that has stopped (R303). -/
inductive FaultSrc where
  | group (g : Nat)
  | stream (g qn : Nat)
  deriving DecidableEq, Repr

/-- Who waits for the answer of another device or of the host (R400, R419): `held` another device's request to the host window, `coll`
a collective node's write of its receive buffer. -/
inductive ReqSrc where
  | load (g id k : Nat)
  | store (g fid : Nat)
  | copy (k : Nat)
  | held (k : Nat)
  | coll (gr nd : Nat)
  | probe
  deriving DecidableEq, Repr

/-- A request for an HBM channel: a line of a load, a flight, the next line of a copy, or an access that an agent has made and whose
coins the channel has still to serve: the zone, the line, the coins. -/
inductive ChanSrc where
  | line (g id k : Nat)
  | fly (g fid : Nat)
  | copy (k : Nat)
  | post (id zn line coins : Nat)
  deriving DecidableEq, Repr

/-- A request in the queue of a channel since a cycle (R381). -/
structure ChanReq where
  src : ChanSrc
  at_ : Nat
  deriving DecidableEq, Repr

/-- A request that has been sent and not answered. `exp` is the lease it asked for. -/
structure Req where
  src  : ReqSrc
  dev  : Nat
  line : Nat
  host : Bool
  exp  : Nat
  at_  : Nat
  deriving DecidableEq, Repr

/-- Who asks a governor for leave. -/
inductive GovSrc where
  | op (quad : Nat)
  | leave (g : Nat)
  | tram (k : Nat)
  deriving DecidableEq, Repr

/-- A district power governor (R438) with its requests in arrival order and the cycle its period began. -/
structure Gov where
  pool  : Nat := 1280000
  rate  : Nat := 1280000
  queue : List (GovSrc × Nat) := []
  at_   : Nat := 0
  deriving DecidableEq, Repr

/-- Time status (R416). -/
inductive TimeStat where
  | freerun | locking | locked | holdover
  deriving DecidableEq, Repr

/-- Liveness of another device (R413) and the device time at which the state was entered. -/
inductive Live where
  | alive | suspect | dead | fenced
  deriving DecidableEq, Repr
structure Peer where
  live  : Live := .alive
  since : Nat := 0
  deriving DecidableEq, Repr

/-- Race-check state of an object tile (R233): `rt` none, one team, or many. -/
structure RaceTile where
  wt   : Option Nat := none
  wts  : Nat := 0
  wrel : Nat := 0
  rt   : List Nat := []
  rpts : Nat := 0
  rrel : Nat := 0
  deriving DecidableEq, Repr

/-- A coherence object (R231): the lines of each of its tiles, with what the leaf of each line says of its home. -/
structure Obj where
  zone  : Nat
  race  : Bool
  tiles : List (List Nat)
  leafs : List (List Leaf) := []
  rstat : AList RaceTile
  deriving DecidableEq, Repr

/-- An error that the outside world causes (R102, R103, R189, R254): of a register half of a group, of a tile half of a
quadrant, of a line of memory, or one that is corrected. -/
inductive Upset where
  | reg (gid : Nat) (m : Mark)
  | tile (quad key : Nat)
  | line (line : Nat)
  | soft (gid : Nat) (m : Mark)
  | softTile (quad key : Nat)
  | corrected
  deriving DecidableEq, Repr

/-- What the schedule lets move next (log entry 1). -/
inductive Pick where
  | event (i : Instr)
  | issue (quad : Nat) (busy : List Nat)
  | evict (level key : Nat)
  | hostStore (a : Nat) (bytes : List Byte)
  | coins (z line n : Nat)
  | arrive (src : ChanSrc)
  | boot (b : Boot)
  | upset (x : Upset)
  | tick (cycles ns : Nat)
  deriving DecidableEq, Repr

structure State where
  sched  : List Pick := []
  cur    : Nat := 0
  curPc  : VA := 0
  curMask : Mask := 0xFFFFFFFF#32
  /-- The issuing instruction is the one of a pair that completes though it reads an uncorrectable half (R104). -/
  curBlind : Bool := false
  /-- The foremost thread of each grid (context, graph, node) and the cycles counted since it became that (R164). -/
  ahead  : List ((Nat × Nat × Nat) × Nat × Nat) := []
  nfree  : Nat := 0
  trapSeq : Nat := 0
  cycle  : Nat := 0
  /-- The cycle at which the current period of the coins began (R310). -/
  period : Nat := 0
  /-- Requests in the queues of HBM channels (R381). -/
  chanq  : List ChanReq := []
  groups : AList Group := []
  teams  : AList Team := []
  ctxs   : AList Ctx := []
  zones  : AList Zone := []
  mem    : Memory := []
  homes  : AList Home := []
  l1     : AList Copy := []
  l2     : AList Copy := []
  bases  : AList Nat := []
  tlb1   : List TlbE := []
  tlb2   : List TlbE := []
  /-- CODE and WRITABLE of frames (R185): ranges of (first frame, count). -/
  code   : List (Nat × Nat) := []
  writable : List (Nat × Nat) := []
  fbuf   : AList FaultRec := []
  fwait  : List FaultSrc := []
  objs   : AList Obj := []
  qdir   : AList QDir := []
  banks  : AList Bank := []
  badLines : List Nat := []
  /-- Channels whose lines cannot be read (R433). -/
  deadChs : List Nat := []
  rcopies : AList RCopy := []
  rout   : AList Req := []
  reqSeq : Nat := 0
  now    : Nat := 0
  tstat  : TimeStat := .freerun
  holdoverAt : Nat := 0
  /-- Device time at which HOLDOVER was last left (R404); 0 for never. -/
  leftAt : Nat := 0
  routes : AList (BitVec 32) := []
  peers  : AList Peer := []
  quads  : AList Quad := []
  govs   : AList Gov := []
  devNum : Nat := 0
  bridge : Bool := false
  /-- The bridge device of the device's host group (R420). -/
  groupBridge : Option Nat := none
  hostMem : Memory := []
  phase  : Phase := .cold
  boot   : Option Boot := none
  capgen : Nat := 0
  cap    : Capacity := {}
  chips  : AList Chip := []
  health : Health := {}
  slots  : AList Slot := []
  graphs : AList Graph := []
  nextGraph : Nat := 0
  copies : AList TCopy := []
  uid    : Nat := 1
  evq    : AList (List EvRec) := []
  evHeld : List (Nat × EvRec) := []
  exportW : AList Nat := []
  held   : AList HeldReq := []
  answer : Option Answer := none
  mailbox : Mailbox := {}
  /-- The HDM decoders (R418), by number. -/
  hdm    : AList Hdm := []
  deriving DecidableEq, Repr

/-- Why the machine stops. -/
inductive Fault where
  /-- The model's own: an instruction is executed while no group is chosen to issue it. No run of the machine does so. Safe. -/
  | noCurrentGroup
  deriving DecidableEq, Repr

/-- Why an instruction has no meaning. -/
inductive Refusal where
  /-- An arm of the dispatch that is not written yet. Safe. -/
  | notModelled (mnemonic : String)
  deriving DecidableEq, Repr

/-- The machine right after reset. -/
def State.reset : State := {}

end Sys2Proof.Machine
end

