-- ==== Sys2Proof/Machine/Operands.lean ====
section
/-!
DEFINITION. Reading operands (R34 to R38): the group an instruction issues for, its execution mask, and the bits of every
operand kind at every width.
-/

namespace Sys2Proof.Machine

/-- What an instruction sees: the state, the number of the group it issues for, that group, its team and its context. -/
structure View where
  s  : State
  u  : Nat
  g  : Group
  tm : Team
  cx : Ctx
  deriving DecidableEq, Repr

/-- The group that the issue stage has chosen. -/
def State.view? (s : State) : Option View :=
  match look s.groups s.cur with
  | none => none
  | some g =>
    match look s.teams g.team with
    | none => none
    | some tm =>
      match look s.ctxs tm.ctx with
      | none => none
      | some cx => some { s := s, u := s.cur, g := g, tm := tm, cx := cx }

def Group.thread (g : Group) (t : Nat) : Thread := g.threads.getD t {}

def Group.mapThreads (g : Group) (f : Nat → Thread → Thread) : Group := { g with threads := g.threads.mapIdx f }

/-- A thread is live while it is not EXITED (R133). -/
def Thread.live (th : Thread) : Bool := th.stat != .exited
def Thread.running (th : Thread) : Bool := th.stat == .run

def Thread.pred (th : Thread) (n : BitVec 3) : Bool := if n = 7 then true else th.preds.getLsbD n.toNat
def Thread.vreg (th : Thread) (n : Nat) : W32 := rget 0 th.v n
def Thread.latch (th : Thread) (n : BitVec 2) : W32 :=
  match n.toNat with
  | 0 => th.b0
  | 1 => th.b1
  | 2 => th.b2
  | _ => th.b3

def Group.sreg (g : Group) (n : Nat) : W64 := rget 0 g.s n
def Group.hreg (g : Group) (n : Nat) : W64 := rget 0 g.h n
/-- members(N) of R152. -/
def Group.cbreg (g : Group) (n : Nat) : W32 := rget 0 g.cb n

/-- Threads of the group that meet a condition. -/
def Group.maskIf (g : Group) (p : Thread → Bool) : Mask := maskOf fun t => decide (t < g.threads.length) && p (g.thread t)
/-- The live threads. -/
def Group.liveMask (g : Group) : Mask := g.maskIf Thread.live

/-- The selected threads: the runnable threads at the PC (R135). -/
def View.sel (w : View) : Mask := w.g.maskIf (fun th => th.running && th.pc == w.s.curPc) &&& w.s.curMask

/-- The guard's value in a thread (R34). -/
def guardHolds (gd : Guard) (th : Thread) : Bool := th.pred gd.pred != gd.neg

/-- The execution mask (R34, R135). -/
def View.execMask (w : View) (gd : Guard) : Mask :=
  w.g.maskIf (fun th => th.running && th.pc == w.s.curPc && guardHolds gd th) &&& w.s.curMask

/-- VA[63:0] of the PC. -/
def View.pc64 (w : View) : W64 := w.s.curPc.setWidth 64

/-- The word at a byte offset of a constant bank; bytes beyond its size read as zero (R167). -/
def Team.constNat (tm : Team) (bank off n : Nat) : Nat :=
  match look tm.banks bank with
  | none => 0
  | some b => natOfBytes ((List.range n).map fun i => if off + i < b.size then readByte b.bytes (off + i) else 0)

/-- A small immediate at a type (R38): the signed number, or for float types its value in the format. -/
def immBits (ty : Ty) (n : BitVec 7) : Nat :=
  if ty.isFloat then encodeF ty (ofIntF n.toInt) else wrap ty.regw n.toInt

/-- Consecutive 32-bit registers as one number. -/
def Thread.vwide (th : Thread) (n : Nat) : Nat → Nat
  | 0 => 0
  | k + 1 => (th.vreg n).toNat + 2 ^ 32 * th.vwide (n + 1) k

def Group.swide (g : Group) (w n : Nat) : Nat :=
  if w = 32 then (g.sreg n).toNat % 2 ^ 32
  else if w = 64 then (g.sreg n).toNat
  else (g.sreg n).toNat + 2 ^ 64 * (g.sreg (n + 1)).toNat

/-- The bits of an operand of a type for thread t (R37, R38). -/
def View.rd (w : View) (ty : Ty) (x : Src) (t : Nat) : Nat :=
  let th := w.g.thread t
  match x with
  | .v n _ => th.vwide n.toNat (ty.regw / 32)
  | .s n _ => w.g.swide ty.regw n.toNat
  | .latch n => (th.latch n).toNat
  | .zero => 0
  | .tid => t
  | .p n => if th.pred n then 1 else 0
  | .h n => if ty.regw = 32 then (w.g.hreg n.toNat).toNat % 2 ^ 32 else (w.g.hreg n.toNat).toNat
  | .cb n => (w.g.cbreg n.toNat).toNat
  | .k n => w.tm.constNat 0 (4 * n.toNat) (ty.regw / 8)
  | .imm n => immBits ty n

/-- An operand as the integer its type gives it. -/
def View.int (w : View) (ty : Ty) (x : Src) (t : Nat) : Int := intOf ty (w.rd ty x t)
/-- A 32-bit operand read as .n32. -/
def View.n32 (w : View) (x : Src) (t : Nat) : Nat := w.rd .n32 x t
/-- A 64-bit operand. -/
def View.n64 (w : View) (x : Src) (t : Nat) : Nat := w.rd .n64 x t
/-- A 128-bit operand. -/
def View.n128 (w : View) (x : Src) (t : Nat) : Nat := w.rd .b128 x t

/-- An operand of a packed form: 32 bits of two elements; an immediate stands in both (R121). -/
def View.packed (w : View) (ty : Ty) (x : Src) (t : Nat) : Nat × Nat :=
  match x with
  | .imm n => (immBits ty n, immBits ty n)
  | _ => let b := w.rd .b32 x t; (b % 2 ^ 16, b / 2 ^ 16 % 2 ^ 16)

/-! Error marks (R103, R104, R189). -/

/-- The halves of one operand as (register, half). -/
def useHalves (x : SrcUse) (perReg base : Nat) : List (Nat × Nat) :=
  ((List.range ((x.bits + 15) / 16)).filter fun k => x.lo / 16 ≤ k).map fun k => (base + k / perReg, k % perReg)

/-- The halves among a list's that an operand reads in the threads of a mask. The seven predicates of a thread share a protected
word (R102; the record of R356 keeps one mark a thread: log 74), so a mark of that word stands for the predicate that is read. -/
def consumes (ms : List Mark) (m : Mask) (x : SrcUse) : List Mark :=
  match x.src with
  | .v n _ => ms.filter fun k => k.file == .v && inMask m k.thr && (useHalves x 2 n.toNat).contains (k.reg, k.half)
  | .s n _ => ms.filter fun k => k.file == .s && (useHalves x 4 n.toNat).contains (k.reg, k.half)
  | .h n => ms.filter fun k => k.file == .h && (useHalves x 4 n.toNat).contains (k.reg, k.half)
  | .p n =>
    if n = 7 then []
    else (ms.filter fun k => k.file == .p && inMask m k.thr).map fun k => { k with reg := n.toNat }
  | _ => []

/-- The threads a source is read in: the lowest of the mask for a source that is read once, and for the predicate of a uniform
ISEL (R99). -/
def readIn (u : Uses) (m : Mask) (x : SrcUse) : Mask :=
  if u.once || (u.uniform && x.role == .pred) then maskOf (· == lowest m) else m

def MarkFile.code : MarkFile → Nat
  | .v => 0
  | .s => 1
  | .p => 2
  | .h => 3
  | .tile => 4

/-- SR.TINFO of RFUE and MEMUE (R333). -/
def Mark.tinfo (k : Mark) : Nat := k.reg + 256 * k.file.code

/-- The guard predicate as an operand that is read. -/
def guardUse (gd : Guard) : List SrcUse := if gd.pred = 7 then [] else [⟨.p gd.pred, .pred, 1, 0⟩]

/-- The halves among a list's that the guard and the sources of an instruction read on an execution mask. -/
def readMarks (ms : List Mark) (u : Uses) (m : Mask) : List Mark :=
  (guardUse u.ctl.guard).flatMap (consumes ms m) ++ u.srcs.flatMap fun x => consumes ms (readIn u m x) x

/-- RFUE or MEMUE of the operands, if any: the cause code, the faulting threads and SR.TINFO. The spec gives no order for an instruction
that consumes both kinds of mark: it takes RFUE, with the threads of both (DESIGN CHOICE, log 111). -/
def View.operandError (w : View) (u : Uses) (m : Mask) : Option (Nat × Mask × Nat) :=
  if w.g.marks.isEmpty || w.s.curBlind then none
  else
    let ks := readMarks w.g.marks u m
    match ks with
    | [] => none
    | k :: _ =>
      let bad := if u.whole || ks.any (fun k => k.file != .v) then m else maskOf fun t => ks.any fun k => k.thr == t
      some (if ks.all (fun k => k.mem) then 0x41 else 0x40, bad, k.tinfo)

def View.privOk (w : View) : PrivNeed → Bool
  | .any => true
  | .sup => w.cx.priv != .user
  | .hyp => w.cx.priv == .hyp

end Sys2Proof.Machine
end

