-- ==== Sys2Proof/Machine/Ops.lean ====
section
/-!
DEFINITION. The shared operations of every instruction: writing results, moving threads, issue and its decode traps, taking
an exception and returning from one, halting a team, barriers.
-/

namespace Sys2Proof.Machine

abbrev Out := Host.Outcome State Fault Refusal

/-! ## Groups and their slots (R45, R142) -/

/-- A lane switch: the latches of every thread read as poison (R45). -/
def Group.laneSwitch (g : Group) : Group :=
  g.mapThreads fun _ th => { th with b0 := poison32, b1 := poison32, b2 := poison32, b3 := poison32, lseq := th.lseq + 4 }

/-- The group has a runnable thread. -/
def Group.hasRun (g : Group) : Bool := g.threads.any Thread.running
def Group.hasLive (g : Group) : Bool := g.threads.any Thread.live

/-- Leave the active slot for the pending set (R142). -/
def Group.leaveSlot (g : Group) (ready : Option Nat) : Group :=
  { g.laneSwitch with slot := none, readyAt := ready }

/-- The group's next instruction may be tried: nothing is waited for, or only what a new try finds out (log entry 16). -/
def GWait.triable : GWait → Bool
  | .none | .retry .. => true
  | _ => false

/-- The group waits in a stall of R23. -/
def GWait.stalled : GWait → Bool
  | .retry _ .away | .retry _ .operand => true
  | _ => false

/-- The group stands at an instruction boundary: no instruction has issued that still holds it. -/
def GWait.boundary : GWait → Bool
  | .none | .retry _ .again | .retry _ .operand => true
  | _ => false

/-- How the instruction goes on after a walk or an answered fault: one that has issued keeps the group; after a fetch, or the write of
a log record, none has, and the PCs are counted anew (R138). -/
def Group.afterWalk (g : Group) : HoldKind := if g.issuedAs.isNone then .again else .kept

/-- After a change: a group whose live threads all wait leaves its slot; a pending group that has a runnable thread and no
stall is ready (R142). -/
def Group.settle (now : Nat) (g : Group) : Group :=
  if g.slot.isSome && g.hasLive && !g.hasRun then g.leaveSlot none
  else if g.slot.isNone && g.readyAt.isNone && g.hasRun && g.wait.triable && !g.wait.stalled then { g with readyAt := some now }
  else if g.slot.isNone && !g.hasRun then { g with readyAt := none }
  else g

def State.setGroup (s : State) (u : Nat) (g : Group) : State :=
  { s with groups := put s.groups u (g.settle s.cycle) }

def State.updGroup (s : State) (u : Nat) (f : Group → Group) : State :=
  match look s.groups u with
  | some g => s.setGroup u (f g)
  | none => s

/-- The resident groups of a team. -/
def State.groupsOf (s : State) (team : Nat) : AList Group := s.groups.filter fun g => g.2.team == team

def State.updTeam (s : State) (u : Nat) (f : Team → Team) : State := { s with teams := upd s.teams u f }
def State.updCtx (s : State) (n : Nat) (f : Ctx → Ctx) : State := { s with ctxs := upd s.ctxs n f }

/-- The cycles in which a group's context has been scheduled on its quadrant (R42, R150, R151, R340). -/
def State.schedOf (s : State) (g : Group) : Nat := g.gat.getD s.cycle - g.gacc

/-- The context of a group. -/
def State.ctxOf (s : State) (g : Group) : Option Nat := (look s.teams g.team).map fun tm : Team => tm.ctx

/-- The context that issues on a quadrant (R340). -/
def State.quadCtx (s : State) (q : Nat) : Option Nat :=
  let own := s.groups.filter fun g => g.2.quad == q
  match (look s.quads q).bind fun x : Quad => x.ctx with
  | some c => if own.any fun g => s.ctxOf g.2 == some c then some c else own.head?.bind fun g => s.ctxOf g.2
  | none => own.head?.bind fun g => s.ctxOf g.2

/-! ## Registers -/

def Thread.setV (th : Thread) (n : Nat) (x : W32) : Thread := { th with v := rput 0 th.v n x }

/-- Write k consecutive registers from a number (R35). -/
def Thread.setVwide (th : Thread) (n d : Nat) : Nat → Thread
  | 0 => th
  | k + 1 => (th.setV n (BitVec.ofNat 32 d)).setVwide (n + 1) (d / 2 ^ 32) k

/-- A predicate write; p7 discards it (R35). -/
def Thread.setPred (th : Thread) (n : BitVec 3) (b : Bool) : Thread :=
  if n = 7 then th
  else
    let bit := (1#7) <<< n.toNat
    { th with preds := if b then th.preds ||| bit else th.preds &&& ~~~bit }

/-- A latch producer shifts (R44). -/
def Thread.shiftLatch (th : Thread) (x : W32) : Thread :=
  { th with b3 := th.b2, b2 := th.b1, b1 := th.b0, b0 := x, lseq := th.lseq + 1 }

def Group.setS (g : Group) (n : Nat) (x : W64) : Group := { g with s := rput 0 g.s n x }
def Group.setH (g : Group) (n : Nat) (x : W64) : Group := { g with h := rput 0 g.h n x }
def Group.setCb (g : Group) (n : Nat) (x : W32) : Group := { g with cb := rput 0 g.cb n x }

/-- A last-use v source reads as poison afterwards (R39). -/
def releaseV (srcs : List SrcUse) (th : Thread) : Thread :=
  srcs.foldl (fun th x =>
    match x.src with
    | .v n .last => (List.range (x.role.width / 32)).foldl (fun th k => th.setV (n.toNat + k) poison32) th
    | _ => th) th

/-- A last-use s source reads as poison afterwards (R39). -/
def releaseS (srcs : List SrcUse) (g : Group) : Group :=
  srcs.foldl (fun g x =>
    match x.src with
    | .s n .last =>
      if x.role.width ≤ 64 then g.setS n.toNat poison64 else (g.setS n.toNat poison64).setS (n.toNat + 1) poison64
    | _ => g) g

/-- A write replaces the check bits of every half it writes (R105). -/
def Group.clearMarks (g : Group) (file : MarkFile) (m : Mask) (base regs : Nat) : Group :=
  if g.marks.isEmpty && g.soft.isEmpty then g
  else
    let kept := fun k : Mark => !(k.file == file && (file == .p || (base ≤ k.reg && k.reg < base + regs))
        && ((file != .v && file != .p) || inMask m k.thr))
    { g with marks := g.marks.filter kept, soft := g.soft.filter kept }

/-- A predicate is written; p7 is none (R35). -/
def Group.clearPred (m : Mask) (g : Group) (n : BitVec 3) : Group := if n = 7 then g else g.clearMarks .p m n.toNat 1

/-- The part of a result that goes to a thread: file v or p. -/
def Thread.write (th : Thread) (d : Option DstUse) (pds : List (BitVec 3)) (o : LaneOut) : Thread :=
  let th := match d with
    | some ⟨.v n nwb, r⟩ => if nwb then th else th.setVwide n.toNat o.d (r.width / 32)
    | some ⟨.p n, _⟩ => th.setPred n o.p
    | _ => th
  pds.foldl (fun th n => th.setPred n o.p) th

/-- The part of a result that goes to the group: file s or h. A result of 32 bits or fewer fills an s register as R35 says. -/
def Group.write (g : Group) (m : Mask) (d : Option DstUse) (sx : Bool) (o : LaneOut) : Group :=
  match d with
  | some ⟨.s n, r⟩ =>
    if r.width ≤ 64 then (g.setS n.toNat (fillS r.width sx o.d)).clearMarks .s m n.toNat 1
    else ((g.setS n.toNat (BitVec.ofNat 64 o.d)).setS (n.toNat + 1) (BitVec.ofNat 64 (o.d / 2 ^ 64))).clearMarks .s m
      n.toNat 2
  | some ⟨.h n, _⟩ => (g.setH n.toNat (BitVec.ofNat 64 o.d)).clearMarks .h m n.toNat 1
  | some ⟨.v n nwb, r⟩ => if nwb then g else g.clearMarks .v m n.toNat (r.width / 32)
  | some ⟨.p n, _⟩ => g.clearPred m n
  | _ => g

/-! ## Moving and finishing -/

def Thread.step12 (th : Thread) : Thread := { th with pc := th.pc + 12 }

/-- The threads of a mask move past the instruction (R135). -/
def Group.advance (g : Group) (m : Mask) : Group := g.mapThreads fun t th => if inMask m t then th.step12 else th

/-- A pending group of the quadrant is ready (R42). -/
def State.readyInQuad (s : State) (quad u : Nat) : Bool :=
  s.groups.any fun x => x.1 != u && x.2.quad == quad && x.2.slot.isNone && x.2.readyAt.isSome

/-- A group's instruction has issued and holds it no more: the cycle of issue, the skid of a halting team (R336). -/
def Group.wasIssued (g : Group) (at_ : Nat) (halted : Bool) : Group :=
  { g with lastIssue := at_ + 1, skid := if halted then g.skid + 1 else g.skid, wait := .none, issuedAs := none, pairCede := false
           begun := none, clearAt := none, zform := none, formRead := none }

/-- What every issue does to its group; then CEDE (R42). -/
def State.issued (s : State) (u : Nat) (ctl : Ctl) (halted : Bool) (g : Group) : State :=
  let cede := ctl.hint.cede || g.pairCede
  let g := g.wasIssued (s.schedOf g) halted
  s.setGroup u (if cede && g.slot.isSome && s.readyInQuad g.quad u then g.leaveSlot (some s.cycle) else g)

def View.halting (w : View) : Bool := w.tm.run == .halted

/-- The counter an instruction joins (R43). -/
def setsbOf (ctl : Ctl) : Option Nat := if ctl.hint.setsb.toNat < 6 then some ctl.hint.setsb.toNat else none

def Group.joinSb (g : Group) (n : Option Nat) : Group :=
  match n with
  | some k => { g with sb := rput 0 g.sb k (rget 0 g.sb k + 1) }
  | none => g

def Group.leaveSb (g : Group) (n : Option Nat) : Group :=
  match n with
  | some k => { g with sb := rput 0 g.sb k (rget 0 g.sb k - 1) }
  | none => g

/-- An instruction that issued with a non-empty mask joins its counter; its exceptions and counter leave when it completes
(R43, R75). -/
def View.track (w : View) (i : Instr) (fl : Flags) (when_ : DoneWhen) (g : Group) : Group :=
  let sb := setsbOf i.uses.ctl
  if sb.isNone && fl == 0 && when_ == .now then g
  else { g.joinSb sb with inflight := g.inflight ++
          [{ pc := w.pc64, opc := i.opc.getD 0, flags := fl, sb := sb, when_ := when_ }] }

/-- An issue with an empty mask: the selected threads move on and nothing else happens (R34, R135, R137). -/
def View.skip (w : View) (ctl : Ctl) : State := w.s.issued w.u ctl w.halting (w.g.advance w.sel)

/-! ## Taking an exception (R331 to R336) -/

/-- The handler offset is usable: a multiple of 12 below TEXTSIZE (R331). -/
def View.handlerOffset (w : View) : Option Nat :=
  let off := w.g.tvec.toNat / 2 * 2
  if w.g.tvec.getLsbD 0 && off % 12 == 0 && off < w.tm.textSize then some off else none

/-- The trap registers (R329, R333); `halted`: the team has halted before (R336). -/
def Group.setTrap (g : Group) (code : Nat) (mask : Mask) (epc : W64) (tinfo : Nat) (halted : Bool) : Group :=
  { g with tripped := g.tripped || halted, wait := .none, issuedAs := none, pairCede := false, relog := false, formRead := none, cause := BitVec.ofNat 8 code, double := false, tmask := mask, epc := epc, tinfo := BitVec.ofNat 64 tinfo }

/-- Trap entry (R332). -/
def Group.enterHandler (g : Group) (pc : VA) : Group :=
  let g := g.mapThreads fun _ th =>
    if th.live then
      { th with fpc := th.pc, fstat := th.stat, fpausing := th.pausing, fpreds := th.preds, pc := pc, stat := .run,
                pausing := false }
    else th
  { g with fpart := g.part, part := 5, handler := true }.laneSwitch

/-- An event reaches the arbiter (R347): it enters its queue, or is held at its source while the queue is full or others are
held before it. -/
def State.raise (s : State) (target : Nat) (e : EvRec) : State :=
  let q := rget [] s.evq target
  if q.length < 1024 && !(s.evHeld.any fun h => h.1 == target) then { s with evq := put s.evq target (q ++ [e]) }
  else { s with evHeld := s.evHeld ++ [(target, e)] }

/-- The queue for events that concern a context: its zone's, or the hypervisor's for a supervisor context (R347). -/
def Ctx.clerk (cx : Ctx) : Nat := if cx.priv == .user then cx.zone else 64

/-- SR.TEAM (R327). -/
def Team.sr (tm : Team) : Nat := tm.graph * 2 ^ 32 + tm.gti

/-- Raise an event for the context of a group. -/
def State.raiseFor (s : State) (u code arg data : Nat) : State :=
  match look s.groups u with
  | none => s
  | some g =>
    match look s.teams g.team with
    | none => s
    | some tm => s.raise (match look s.ctxs tm.ctx with
        | some cx => cx.clerk
        | none => 64) { code := code, ctx := tm.ctx, group := g.gidx, arg := arg, data := data }

/-- The halt of a team by a trap (R336): the group that raised the trap stops at once, the others at an instruction boundary.
The first trap raises TEAMHALT. -/
def State.haltTeam (s : State) (team u code : Nat) : State :=
  match look s.teams team with
  | none => s
  | some tm =>
    let s := if tm.run == .halted then s else s.raiseFor u 0x04 code tm.sr
    (s.updTeam team fun tm => { tm with run := .halted }).updGroup u fun g => { g with stopped := true }

/-- Taking a precise trap (R331): the handler when one is installed and the group is not in one, else the team halts. The
group is given as the instruction leaves it. A group of a halted team that traps before it stops keeps this trap's registers (R336). -/
def View.takeTrap (w : View) (g : Group) (code : Nat) (mask : Mask) (epc : W64) (tinfo : Nat) : State :=
  let s := { w.s with trapSeq := w.s.trapSeq + 1 }
  let g := g.setTrap code mask epc tinfo (w.tm.run == .halted)
  match w.handlerOffset with
  | some off =>
    if g.handler then (s.setGroup w.u { g with double := true }).haltTeam g.team w.u code
    else s.setGroup w.u (g.enterHandler (w.tm.codeBase + BitVec.ofNat 72 off))
  | none => (s.setGroup w.u { g with double := g.handler }).haltTeam g.team w.u code

/-- A trap that leaves the instruction without effect: no selected thread moves (R135). HNT.CEDE of an instruction that takes a
trap has no effect: R42 offers the slot after the instruction issues and does not say what it does then (DESIGN CHOICE, log 81). -/
def View.trapHere (w : View) (code : Nat) (mask : Mask) (tinfo : Nat) : State :=
  w.takeTrap { w.g with lastIssue := w.s.schedOf w.g + 1 } code mask w.pc64 tinfo

/-- ILLOP of a word (R46 to R48, R333): the mask is every thread whose PC is the instruction. -/
def View.illop (w : View) (opc : BitVec 10) : State := w.trapHere 0x01 w.sel opc.toNat
/-- PRIV (R47, R333). -/
def View.priv (w : View) (opc : BitVec 10) : State := w.trapHere 0x02 w.sel opc.toNat

/-- SR.EPC names an instruction of the text (R335). -/
def Team.epcOffset (tm : Team) (epc : W64) : Option Nat :=
  let off := (epc - tm.codeBase.setWidth 64).toNat
  if off % 12 == 0 && off < tm.textSize then some off else none

/-- The frame restored (R335): each live thread's PC, status, pausing flag and predicates; the threads of SR.TMASK take
SR.EPC. The predicates written take new check bits (R105). R446 has a predicate written in a handler outlive RETT; R335 restores it
(DEDUCED, log 122). -/
def Group.leaveHandler (g : Group) (pc : Option VA) : Group :=
  let g := { g with handler := false, part := g.fpart }.clearMarks .p g.liveMask 0 7
  (g.mapThreads fun t th =>
    if th.live then
      { th with pc := (if inMask g.tmask t then pc.getD th.fpc else th.fpc), stat := th.fstat, pausing := th.fpausing,
                preds := th.fpreds }
    else th).laneSwitch

/-! ## Issue (R47, R104, R135, R137) -/

/-- The first read of a copy's status register is an acquire at .team scope (R298, R222). -/
def View.firstReads (w : View) (srcs : List SrcUse) : View :=
  if w.g.acqs.isEmpty then w
  else
    let hit := w.g.acqs.filter fun n => srcs.any fun x =>
      match x.src with
      | .s k _ => n == k.toNat || (x.role.width == 128 && n == k.toNat + 1)
      | _ => false
    if hit.isEmpty then w
    else { w with g := { w.g with acqs := w.g.acqs.filter (fun n => !hit.contains n), pts := max w.g.pts w.g.lmax } }

/-- The decode traps and operand errors in their order, then the empty mask, then the instruction's own effect on its
execution mask. -/
def issue (i : Instr) (s : State) (body : View → Mask → Out) : Out :=
  match s.view? with
  | none => .fault .noCurrentGroup
  | some w =>
    let u := i.uses
    let opc := i.opc.getD 0
    if !u.legal || !u.regsOk w.g.regs then .next (w.illop opc)
    else if !w.privOk u.priv then .next (w.priv opc)
    else
      let m := w.execMask u.ctl.guard
      if m = 0 then .next (w.skip u.ctl)
      else
        match w.operandError u m with
        | some (code, bad, tinfo) => .next (w.trapHere code bad tinfo)
        | none => body (w.firstReads u.srcs) m

/-- The threads that give results: one for a uniform instruction (R21). -/
def lanes (u : Uses) (m : Mask) : List Nat := if u.uniform then [lowest m] else threadsOf m

/-- Write the results of a lane or uniform instruction: last-use sources first, then the destinations; latches shift; the
selected threads move on (R21, R39, R44, R135). The value of an s destination is that of the lowest thread; of an h
destination that of the last thread written (log entry 8). A uniform CVTSR takes value and exceptions of the lowest thread's draw
while every thread of the mask draws (DESIGN CHOICE, log 80: R93 draws for each active thread, R21 executes once). -/
def results (i : Instr) (m moved : Mask) (sx : Bool) (out : Nat → LaneOut) (g : Group) : Group :=
  let u := i.uses
  let g := releaseS u.srcs g
  let g := g.mapThreads fun t th =>
    let th := if inMask m t then
        let th := (releaseV u.srcs th).write u.dst u.pds (out t)
        let th := { th with rctr := th.rctr + BitVec.ofNat 64 (out t).draws }
        if i.latches then th.shiftLatch (BitVec.ofNat 32 (out t).d) else th
      else th
    if inMask moved t then th.step12 else th
  let pick := match u.dst with
    | some ⟨.h _, _⟩ => highest m
    | _ => lowest m
  u.pds.foldl (Group.clearPred m) (g.write m u.dst sx (out pick))

/-- The exceptions of all threads of the execution mask (R75). -/
def flagsOf (u : Uses) (m : Mask) (out : Nat → LaneOut) : Flags :=
  (lanes u m).foldl (fun f t => f ||| (out t).fl) 0

/-- An instruction whose results are all there when it issues. -/
def View.finish (w : View) (i : Instr) (m : Mask) (sx : Bool) (out : Nat → LaneOut) : State :=
  let g := results i m w.sel sx out w.g
  w.s.issued w.u i.uses.ctl w.halting (w.track i (flagsOf i.uses m out) .now g)

/-- A register form: one result for each thread, from the state before it. -/
def laneOp (i : Instr) (s : State) (sx : Bool) (out : View → Mask → Nat → LaneOut) : Out :=
  issue i s fun w m => .next (w.finish i m sx (out w m))

/-- A form that acts once for the group and then moves its selected threads on. -/
def groupOp (i : Instr) (s : State) (f : View → Mask → Group → Group) : Out :=
  issue i s fun w m =>
    .next (w.s.issued w.u i.uses.ctl w.halting
      (w.track i 0 .now ((releaseS i.uses.srcs (f w m w.g)).advance w.sel)))

/-! ## Convergence barriers (R152, R334) -/

/-- The thread waits at cbN, in its own status or, in handler mode, in its frame's. -/
def waitsCb (n : BitVec 3) (th : Thread) : Bool := th.stat == .cbwait n
def frameWaitsCb (n : BitVec 3) (th : Thread) : Bool := th.live && th.fstat == .cbwait n

/-- Release(N): when some thread waits and every member waits or has exited, all waiters go on past their own CBWAIT and the
mask empties. In handler mode threads whose frame waits count and have their frames moved (R334). -/
def Group.releaseCb (g : Group) (n : BitVec 3) : Group :=
  let waits := fun th : Thread => waitsCb n th || (g.handler && frameWaitsCb n th)
  let wm := g.maskIf waits
  let gone := g.maskIf fun th => !th.live
  if wm != 0 && (g.cbreg n.toNat &&& ~~~(wm ||| gone)) == 0 then
    (g.mapThreads fun _ th =>
      let th := if waitsCb n th then { th with stat := .run, pc := th.pc + 12 } else th
      if g.handler && frameWaitsCb n th then { th with fstat := .run, fpc := th.fpc + 12 } else th).setCb n.toNat 0
  else g

/-- Every convergence barrier is evaluated (R148). -/
def Group.releaseAllCb (g : Group) : Group :=
  (List.range 8).foldl (fun g n => g.releaseCb (BitVec.ofNat 3 n)) g

/-! ## Releases (R217, R223) -/

/-- Entries that have left the buffer for local homes and are not acknowledged (UAL, R215), older than a point. -/
def Group.ualBefore (g : Group) (seq : Nat) : Nat := (g.fly.filter fun f => !f.remote && f.id < seq).length
def Group.uarBefore (g : Group) (seq : Nat) : Nat := (g.fly.filter fun f => f.remote && f.id < seq).length

def Scope.wide : Scope → Bool
  | .clu | .dist | .dev | .pod => true
  | _ => false

/-- The loads of a group that have lines to come and that later instructions are ordered after: a prefetch is none (R197), and no
instruction orders a stream's reads (R303). -/
def Group.reads (g : Group) : List LoadRec := g.loads.filter fun l => match l.kind with
  | .pref | .stream _ => false
  | _ => true

/-- The waits of a release at a scope for everything before a point: earlier loads bound; above .grp also earlier entries
left and acknowledged at local homes; from .clu on the stores that the cluster holds performed (R178); at pod scope earlier remote
entries accepted. Other scratchpad, FIFO and peer writes are performed when they issue. -/
def Group.releaseMet (g : Group) (r : RelMark) : Bool :=
  (g.reads.all fun l => r.seq ≤ l.id)
    && (!Scope.wide r.scope || g.cluOut.all fun c => r.seq ≤ c.id)
    && (r.scope == .grp || ((g.sbuf.all fun e => r.seq ≤ e.id) && g.ualBefore r.seq == 0))
    && (!r.pod || g.fly.all fun f => !f.remote || r.seq ≤ f.id || f.accepted)

/-- A release that has not met its waits yet. -/
def Group.releasePending (g : Group) : Bool := g.rels.any fun r => !g.releaseMet r

/-- The district of the group (R3). -/
def Team.district (tm : Team) : Nat := tm.core / 128

/-- Record a release of the group (R223). -/
def Group.addRelease (g : Group) (scope : Scope) (pod : Bool := false) : Group :=
  { g with seq := g.seq + 1, rels := ⟨g.seq, scope, pod⟩ :: g.rels.filter fun r => !g.releaseMet r }

/-- The waits of a release at a scope are met now for every earlier access. -/
def Group.quiet (g : Group) (scope : Scope) : Bool := g.releaseMet ⟨g.seq, scope, false⟩

/-- The team's release count at .clu scope or wider (R223). -/
def Team.countRelease (tm : Team) (scope : Scope) : Team :=
  if Scope.wide scope then { tm with relc := (tm.relc + 1) % 2 ^ 32 } else tm

end Sys2Proof.Machine
end

