-- ==== Sys2Proof/Machine/Memory.lean ====
section
/-!
DEFINITION. Physical addresses (R15, R16, R27 to R30, R366, R367), homes (R214), page tables, TLBs and frame attributes
(R181 to R185).
-/

namespace Sys2Proof.Machine

/-! ## Physical addresses -/

def paDevice (pa : Nat) : Nat := pa / 2 ^ 46
def paLocal (pa : Nat) : Nat := pa % 2 ^ 46
def lineOf (pa : Nat) : Nat := pa / 128

/-- Ranges of the local physical space (R28). -/
inductive Region where
  | hbm | host | doorbell | devreg | reserved
  deriving DecidableEq, Repr

def regionOf (a : Nat) : Region :=
  if a < 2 ^ 40 then .hbm
  else if 0x100000000000 ≤ a ∧ a < 0x200000000000 then .host
  else if 0x3F0000000000 ≤ a ∧ a < 0x3F0001000000 then .doorbell
  else if 0x3F0001000000 ≤ a ∧ a < 0x3F0002000000 then .devreg
  else .reserved

/-- The swizzle of R15 over a 33-bit line number. -/
def swizzle (l : Nat) : Nat := (l % 2 ^ 20) ^^^ (l / 2 ^ 20 % 2 ^ 13)

/-- The slice of a line in a district for a zone (R15); an open slice window looks up by the new map (R374). -/
def Zone.slice (z : Zone) (d pa : Nat) : Nat :=
  let map := (look z.newMaps d).getD (rget [] z.slices d)
  map.getD (swizzle (pa / 128 % 2 ^ 33) % max 1 map.length) 0

def State.zoneOf (s : State) (zn : Nat) : Zone := (look s.zones zn).getD {}

/-- A lies in the backed part of the zone's HBM range (R366). -/
def Zone.backs (z : Zone) (a : Nat) : Bool := z.hbmbase ≤ a && a < z.hbmbase + z.size

/-- The zone whose backed HBM range holds an address (R28, R16). -/
def State.backer (s : State) (a : Nat) : Option (Nat × Zone) := s.zones.find? fun z => z.2.backs a

/-- Channel and line within the channel (R367); lines below a migration's watermark lie by the new map (R375). -/
def Zone.place (z : Zone) (a : Nat) : Nat × Nat :=
  let l := (a - z.hbmbase) / 128 % 2 ^ 33
  let h := swizzle l
  let map := match z.mig with
    | some m => if l < m.wm then m.chans else z.chans
    | none => z.chans
  let n := max 1 map.length
  let e := map.getD (h % n) (0, 0)
  (e.1, e.2 * 2 ^ 10 + l / 2 ^ 20 * ((2 ^ 20 + n - 1) / n) + h / n)

/-- The atomic home of a local line (R214): vault 0 to 3, or 4 + 64 × district + slice. -/
def State.homeOf (s : State) (z : Zone) (leaf : Leaf) (pa : Nat) : Nat :=
  let a := paLocal pa
  if leaf.sh then
    match regionOf a with
    | .hbm =>
      match s.backer a with
      | some (_, b) => (b.place a).1 / 96
      | none => 0
    | _ => swizzle (a / 128 % 2 ^ 33) % 4
  else 4 + 64 * leaf.homed + z.slice leaf.homed a

/-- The access reaches nothing the device backs, or the device registers through a user page (R30). -/
def State.refusedPa (s : State) (leaf : Leaf) (pa : Nat) : Bool :=
  if paDevice pa ≠ s.devNum then false
  else
    match regionOf (paLocal pa) with
    | .hbm => (s.backer (paLocal pa)).isNone
    | .host => !s.bridge
    | .doorbell => false
    | .devreg => leaf.u
    | .reserved => true

/-- A local address within the zone's physical ranges (R366). -/
def State.inRanges (s : State) (zn : Nat) (z : Zone) (priv : Priv) (pa : Nat) : Bool :=
  let a := paLocal pa
  match regionOf a with
  | .hbm => z.backs a
  | .host => s.bridge && z.hostbase ≤ a && a < z.hostbase + z.hostsize
  | .doorbell =>
    match look s.qdir ((a - 0x3F0000000000) / 0x10000) with
    | some q => q.valid && q.zone == zn
    | none => false
  | .devreg => priv != .user
  | .reserved => false

/-- The one bits among the low f. -/
def popcount : Nat → Nat → Nat
  | 0, _ => 0
  | f + 1, x => x % 2 + popcount f (x / 2)

/-! ## Chiplets and lost lines (R7, R433) -/

def State.chip (s : State) (c : Nat) : Chip := rget {} s.chips c
def State.chipActive (s : State) (c : Nat) : Bool := (s.chip c).st == .active

/-- The line's home lies in a chiplet that is not ACTIVE (R433). -/
def State.homeLost (s : State) (home : Nat) : Bool :=
  !s.chipActive (if home < 4 then 8 + home else (home - 4) / 64)

/-- A line whose data are uncorrectable (R189, R433). -/
def State.badLine (s : State) (line : Nat) : Bool :=
  s.badLines.contains line || (!s.deadChs.isEmpty && regionOf (paLocal (line * 128)) == .hbm &&
    match s.backer (paLocal (line * 128)) with
    | some (_, z) => s.deadChs.contains (z.place (paLocal (line * 128))).1
    | none => false)

/-! ## Page tables (R181, R182) -/

/-- A fault of R187, with the size of the page as a power of two, or a leaf. A walk that stops above a leaf, or at a reserved one,
knows no page size; the fault then counts as one of a 64 KiB page (DESIGN CHOICE, log 82: R187 gives none). -/
inductive WalkRes where
  | ok (pa : Nat) (leaf : Leaf)
  | fault (kind level k : Nat)
  deriving DecidableEq, Repr

def notValid : Nat := 0
def permFault : Nat := 1
def rsvdFault : Nat := 2
def outsideFault : Nat := 3

/-- Permits (R182). -/
def permits (leaf : Leaf) (acc : Acc) (priv : Priv) : Bool :=
  (match acc with
   | .load | .privLoad | .qslice => leaf.rd
   | .store | .privStore | .atomic => leaf.w
   | .fetch => leaf.x) && (leaf.u || priv != .user)

/-- Bit fields of an entry (R181). -/
def pteLeaf (e k : Nat) : Leaf :=
  { unc := e.testBit 12, homed := bitsOf e 9 3, sh := e.testBit 8, u := e.testBit 7, x := e.testBit 6, w := e.testBit 5,
    rd := e.testBit 4, k := k }

/-- The end of a walk at a leaf (R182, R185). R185 does not say where, among the causes of R182, the RSVD of an executable leaf
outside the walking device's HBM stands: here after OUTSIDE and before PERM (DESIGN CHOICE, log 83). -/
def State.leafCheck (s : State) (zn : Nat) (z : Zone) (priv : Priv) (va : Nat) (acc : Acc) (e lv : Nat) : WalkRes :=
  let sz := bitsOf e 2 2
  let pa40 := bitsOf e 16 40 * 2 ^ 16
  if !((lv = 1 && sz ≤ 1) || (lv = 2 && sz = 2)) then .fault rsvdFault lv 16
  else if sz = 1 ∧ bitsOf pa40 16 5 ≠ 0 then .fault rsvdFault lv 16
  else if sz = 2 ∧ bitsOf pa40 16 14 ≠ 0 then .fault rsvdFault lv 16
  else if e.testBit 5 ∧ e.testBit 6 then .fault rsvdFault lv 16
  else
    let k := if sz = 0 then 16 else if sz = 1 then 21 else 30
    let pa := pa40 / 2 ^ k * 2 ^ k + va % 2 ^ k
    let leaf := pteLeaf e k
    if paDevice pa = s.devNum ∧ !s.inRanges zn z priv pa then .fault outsideFault lv k
    else if leaf.x ∧ !(paDevice pa = s.devNum ∧ regionOf (paLocal pa) = .hbm) then .fault rsvdFault lv 16
    else if !permits leaf acc priv then .fault permFault lv k
    else .ok pa leaf

/-- Reserved bits of an entry (R181): [63:56] and [15:13]; of a table pointer also [15:2]. -/
def pteReserved (e : Nat) : Bool :=
  bitsOf e 56 8 != 0 || bitsOf e 13 3 != 0 || (!e.testBit 1 && bitsOf e 2 14 != 0)

/-- A table word that no walk can read: its address is reserved or not backed (R30), or its line is lost or uncorrectable (R7,
R433). The spec gives such a walk no outcome; it returns RSVD at the level of the word (DESIGN CHOICE, log 84). -/
def State.unreadable (s : State) (a : Nat) : Bool :=
  regionOf a != .hbm || (s.backer a).isNone || s.badLine (lineOf (s.devNum * 2 ^ 46 + a)) || s.homeLost (s.homeOf {} {} a)

/-- A walk from the entry of level lv (R182). -/
def State.walkFrom (s : State) (zn : Nat) (z : Zone) (priv : Priv) (va : Nat) (acc : Acc) : Nat → Nat → WalkRes
  | 0, _ => .fault rsvdFault 1 16
  | lv + 1, e =>
    if !e.testBit 0 then .fault notValid (lv + 1) 16
    else if pteReserved e || bitsOf e 2 2 == 3 then .fault rsvdFault (lv + 1) 16
    else if e.testBit 1 then s.leafCheck zn z priv va acc e (lv + 1)
    else if lv = 0 ∨ bitsOf e 46 10 ≠ s.devNum then .fault rsvdFault (lv + 1) 16
    else
      let a := paLocal (bitsOf e 16 40 * 2 ^ 16) + 8 * bitsOf va (16 + 13 * (lv - 1)) 13
      if s.unreadable a then .fault rsvdFault lv 16 else s.walkFrom zn z priv va acc lv (readNat s.mem a 8)

/-- Walk (R182) for a context. -/
def State.walkVa (s : State) (cx : Ctx) (va : VA) (acc : Acc) : WalkRes :=
  match look s.zones cx.zone with
  | none => .fault outsideFault 5 16
  | some z =>
    let a := paLocal (bitsOf cx.ptroot.toNat 7 49 * 128) + 8 * bitsOf va.toNat 68 4
    if s.unreadable a then .fault rsvdFault 5 16 else s.walkFrom cx.zone z cx.priv va.toNat acc 5 (readNat s.mem a 8)

/-- The table words that a walk reads below the entry of level lv (R182). -/
def State.wordsBelow (s : State) (va : Nat) : Nat → Nat → List Nat
  | 0, _ => []
  | lv + 1, e =>
    if !e.testBit 0 || pteReserved e || bitsOf e 2 2 == 3 || e.testBit 1 || lv == 0 || bitsOf e 46 10 != s.devNum then []
    else
      let a := paLocal (bitsOf e 16 40 * 2 ^ 16) + 8 * bitsOf va (16 + 13 * (lv - 1)) 13
      a :: if s.unreadable a then [] else s.wordsBelow va lv (readNat s.mem a 8)

/-- The addresses of the table words that a walk for a context reads. -/
def State.tableWords (s : State) (cx : Ctx) (va : VA) : List Nat :=
  let a := paLocal (bitsOf cx.ptroot.toNat 7 49 * 128) + 8 * bitsOf va.toNat 68 4
  a :: if s.unreadable a then [] else s.wordsBelow va.toNat 5 (readNat s.mem a 8)

/-! ## Frame attributes (R185) -/

def rangesMeet (a b : Nat × Nat) : Bool := a.1 < b.1 + b.2 && b.1 < a.1 + a.2
/-- The frames a leaf covers. -/
def leafFrames (pa : Nat) (leaf : Leaf) : Nat × Nat := (pa / 2 ^ leaf.k * 2 ^ (leaf.k - 16), 2 ^ (leaf.k - 16))
def inFrames (rs : List (Nat × Nat)) (pa : Nat) : Bool := rs.any fun r => r.1 ≤ pa / 2 ^ 16 && pa / 2 ^ 16 < r.1 + r.2

/-- The full physical address of a local one (R27). -/
def State.ownPa (s : State) (a : Nat) : Nat := s.devNum * 2 ^ 46 + a

/-- The frame's CODE bit is set. -/
def State.isCode (s : State) (pa : Nat) : Bool := inFrames s.code pa

/-- A request to the line has been accepted and waits (R400, R403): an access that comes later is performed after it. A frame of code
refuses what waits (R185), so a fetch through an executable leaf comes after nothing. -/
def State.lineQueued (s : State) (line : Nat) : Bool := s.held.any fun h => lineOf h.2.pa == line

/-- A walk would read a table word whose line has a request waiting (R400). -/
def State.walkQueued (s : State) (cx : Ctx) (va : VA) : Bool :=
  !s.held.isEmpty && (s.tableWords cx va).any fun a => s.lineQueued (lineOf (s.ownPa a))

/-- What R185 sets or refuses when a leaf is about to be installed. -/
def State.markFrames (s : State) (pa : Nat) (leaf : Leaf) : Option State :=
  let fr := leafFrames pa leaf
  if leaf.x then (if s.writable.any (rangesMeet fr) then none else some { s with code := fr :: s.code })
  else if leaf.w then (if s.code.any (rangesMeet fr) then none else some { s with writable := fr :: s.writable })
  else some s

/-! ## TLBs (R184) -/

def TlbE.hits (e : TlbE) (loc zone ctx : Nat) (va : VA) : Bool :=
  e.loc == loc && e.zone == zone && e.ctx == ctx && e.vpn == va.toNat / 2 ^ e.leaf.k

def TlbE.pa (e : TlbE) (va : VA) : Nat := e.ppn * 2 ^ e.leaf.k + va.toNat % 2 ^ e.leaf.k

/-- A translation that a TLB of the core or of its district holds and that permits the access. -/
def State.tlbLookup (s : State) (core zone ctx : Nat) (va : VA) (acc : Acc) (priv : Priv) : Option (Nat × Leaf) :=
  match s.tlb1.find? fun e => e.hits core zone ctx va && permits e.leaf acc priv with
  | some e => some (e.pa va, e.leaf)
  | none =>
    match s.tlb2.find? fun e => e.hits (core / 128) zone ctx va && permits e.leaf acc priv with
    | some e => some (e.pa va, e.leaf)
    | none => none

/-- The first n entries of one TLB stay in a list of many. -/
def keepEntries (mine : TlbE → Bool) : Nat → List TlbE → List TlbE
  | _, [] => []
  | 0, es => es.filter fun e => !mine e
  | n + 1, e :: es => if mine e then e :: keepEntries mine n es else e :: keepEntries mine (n + 1) es

/-- Install a leaf in both TLBs; it replaces the entry cached for the address (R184). A full TLB of 384 or 32,768 entries loses
the one installed first (DESIGN CHOICE, log 85: the spec gives no replacement). -/
def State.tlbInstall (s : State) (core zone ctx : Nat) (va : VA) (pa : Nat) (leaf : Leaf) : State :=
  let e : TlbE :=
    { loc := core, zone := zone, ctx := ctx, vpn := va.toNat / 2 ^ leaf.k, ppn := pa / 2 ^ leaf.k, leaf := leaf }
  { s with
    tlb1 := keepEntries (fun x => x.loc == core) 384 (e :: s.tlb1.filter fun x => !x.hits core zone ctx va)
    tlb2 := keepEntries (fun x => x.loc == core / 128) 32768
      ({ e with loc := core / 128 } :: s.tlb2.filter fun x => !x.hits (core / 128) zone ctx va) }

/-- A walk with what R185 adds to it. -/
def State.walkMarks (s : State) (cx : Ctx) (va : VA) (acc : Acc) : WalkRes :=
  match s.walkVa cx va acc with
  | .ok pa leaf => if (s.markFrames pa leaf).isNone then .fault permFault (if leaf.k = 30 then 2 else 1) leaf.k else .ok pa leaf
  | r => r

/-- A walk and what it installs (R182, R184, R185); a fault gives its kind, its level and the page's size. -/
def State.walkInstall (s : State) (core ctx : Nat) (cx : Ctx) (va : VA) (acc : Acc) : Except (Nat × Nat × Nat) State :=
  match s.walkMarks cx va acc with
  | .fault k l n => .error (k, l, n)
  | .ok pa leaf => .ok (((s.markFrames pa leaf).getD s).tlbInstall core cx.zone ctx va pa leaf)

/-- When a TLBINV completes, CODE and WRITABLE stay only where some TLB still holds such an entry (R185). -/
def State.refreshFrames (s : State) : State :=
  let es := s.tlb1 ++ s.tlb2
  { s with
    code := (es.filter fun e => e.leaf.x).map fun e => (e.ppn * 2 ^ (e.leaf.k - 16), 2 ^ (e.leaf.k - 16))
    writable := (es.filter fun e => e.leaf.w).map fun e => (e.ppn * 2 ^ (e.leaf.k - 16), 2 ^ (e.leaf.k - 16)) }

/-- What a translation that never parks finds: the TLBs, else a walk (R145, R197). -/
def View.translateQuiet (w : View) (va : VA) (acc : Acc) : Option (Nat × Leaf) :=
  match w.s.tlbLookup w.tm.core w.cx.zone w.tm.ctx va acc w.cx.priv with
  | some r => some r
  | none =>
    match w.s.walkMarks w.cx va acc with
    | .ok pa leaf => some (pa, leaf)
    | .fault .. => none

/-- Such translations wait for a request that was accepted before (R400). -/
def View.walkBehind (w : View) (acc : Acc) (vas : List VA) : Bool :=
  !w.s.held.isEmpty && vas.any fun va => (w.s.tlbLookup w.tm.core w.cx.zone w.tm.ctx va acc w.cx.priv).isNone && w.s.walkQueued w.cx va

/-- What such translations install: the leaf of each walk that finds one (R184, R185). -/
def View.installQuiet (w : View) (acc : Acc) (vas : List VA) : State :=
  vas.foldl (fun s va =>
    match s.tlbLookup w.tm.core w.cx.zone w.tm.ctx va acc w.cx.priv with
    | some _ => s
    | none =>
      match s.walkInstall w.tm.core w.tm.ctx w.cx va acc with
      | .ok s => s
      | .error _ => s) w.s

/-! ## Instruction words (R31, R32) -/

/-- A window address names no global byte (R166). -/
def isWindow (va : VA) : Bool := va.toNat / 2 ^ 64 == 0xFF

/-- The outcome of fetching twelve bytes (R32). -/
inductive Fetch where
  | ok (w : BitVec 96)
  | prot
  | miss (va : VA)
  deriving DecidableEq, Repr

/-- The bytes of an instruction through executable translations; `tr` gives the translation of a byte. R32 gives no order among
different causes of one fetch: the window's PROT comes first, then the missing translation, then the PROT of R30 (DESIGN CHOICE,
log 86). A byte whose line is lost or uncorrectable takes the PROT of R30 (R7; DESIGN CHOICE, log 84). -/
def State.fetchWith (s : State) (z : Zone) (tr : VA → Option (Nat × Leaf)) (pc : VA) : Fetch :=
  let vas := (List.range 12).map fun i => pc + BitVec.ofNat 72 i
  if vas.any isWindow then .prot
  else
    match vas.find? fun va => (tr va).isNone with
    | some va => .miss va
    | none =>
      let ps := vas.filterMap tr
      if ps.any fun p => s.refusedPa p.2 p.1 || s.badLine (lineOf p.1) || s.homeLost (s.homeOf z p.2 p.1) then .prot
      else .ok (wordOfBytes (ps.map fun p => readByte s.mem (paLocal p.1)))

/-- Fetch for a group (R32): a missing translation is walked by the group's walker, else parks. -/
def View.fetch (w : View) (pc : VA) : Fetch :=
  w.s.fetchWith (w.s.zoneOf w.cx.zone) (fun va => w.s.tlbLookup w.tm.core w.cx.zone w.tm.ctx va .fetch w.cx.priv) pc

/-- The word at a branch target (R145): none when FetchFails. -/
def View.fetchQuiet (w : View) (pc : VA) : Option (BitVec 96) :=
  match w.s.fetchWith (w.s.zoneOf w.cx.zone) (fun va => w.translateQuiet va .fetch) pc with
  | .ok x => some x
  | _ => none

end Sys2Proof.Machine
end

