-- ==== Sys2Proof/Machine/Coherence.lean ====
section
/-!
DEFINITION. Timestamp coherence (R202 to R214, R231 to R234): homes and cached copies, leases, objects, race checks, and
what an atomic operation computes (R242).
-/

namespace Sys2Proof.Machine

/-! ## Zones, banks -/

def State.updZone (s : State) (zn : Nat) (f : Zone → Zone) : State := { s with zones := upd s.zones zn f }

/-- Entries of a resource list: KIND and the low 48 bits (R389). -/
def entKind (e : Nat) : Nat := e / 2 ^ 60
def entNum (e : Nat) : Nat := e % 2 ^ 12
def entBank (e : Nat) : Nat := e % 2 ^ 16

/-- The quotas that new use must keep to: a ZSHRINK that lowers one gives nothing more of what departs (R372, R389). -/
def Zone.oquotaNow (z : Zone) : Nat := z.shrink.foldl (fun n e => if entKind e = 4 then min n (bitsOf e 0 15) else n) z.oquota
def Zone.pquotaNow (z : Zone) : Nat := z.shrink.foldl (fun n e => if entKind e = 5 then min n (2 ^ 16 * bitsOf e 0 48) else n) z.pquota

/-- A bank control register at reset (R168). -/
def Bank.atReset (b : Nat) : Bank := if b % 10 < 6 then {} else { mode := 1, reqmode := 1 }
def State.bank (s : State) (b : Nat) : Bank := (look s.banks b).getD (Bank.atReset b)
def State.updBank (s : State) (b : Nat) (f : Bank → Bank) : State := { s with banks := put s.banks b (f (s.bank b)) }

/-- A bank serves its zone in a mode and is not switching (R168, R169). -/
def Bank.serves (b : Bank) (zn : Nat) (mode : BitVec 2) : Bool := b.owner == some zn && b.mode == mode && b.stage == 0

/-- The ways of a zone's L1 on a core: its L1-mode banks there (R170). -/
def State.l1Ways (s : State) (core zn : Nat) : Nat := ((List.range 40).filter fun j => (s.bank (40 * core + j)).serves zn 0).length
def State.hasL1 (s : State) (core zn : Nat) : Bool := s.l1Ways core zn != 0

/-! ## Objects (R231, R232) -/

/-- The object tile that covers a line of a zone: the object's handle, the tile's number and its lines. -/
def State.tileOf (s : State) (zn line : Nat) : Option (Nat × Nat × List Nat) :=
  s.objs.findSome? fun o =>
    if o.2.zone = zn then
      (o.2.tiles.findIdx? fun ls => ls.contains line).map fun i => (o.1, i, o.2.tiles.getD i [])
    else none

/-- The lines that share a line's timestamps, the one that names them first. -/
def State.coLines (s : State) (zn line : Nat) : List Nat :=
  match s.tileOf zn line with
  | some (_, _, ls) => ls
  | none => [line]

def State.coKey (s : State) (zn line : Nat) : Nat := (s.coLines zn line).headD line

/-- The home that keeps a line's timestamps: its own, or that of the first line of its tile (R232). -/
def State.stampHome (s : State) (zn home line : Nat) : Nat :=
  match s.tileOf zn line with
  | none => home
  | some (h, i, ls) =>
    let leaf := ((look s.objs h).bind fun o => (o.leafs.getD i []).head?).getD {}
    s.homeOf (s.zoneOf zn) leaf (ls.headD line * 128)

/-! ## Bases (R211) -/

/-- Caches with a BASE: an L1 (core), an L2 slice, which has one for its copies and its home lines, a vault. -/
def l1Loc (core : Nat) : Nat := core
def sliceLoc (d n : Nat) : Nat := 2048 + 64 * d + n
def homeLoc (h : Nat) : Nat := if h < 4 then 4096 + h else 2048 + (h - 4)
def keyAt (loc zn line : Nat) : Nat := (loc * 65 + zn) * 2 ^ 49 + line
/-- The cache of a key, with the zone. -/
def keyLoc (key : Nat) : Nat := key / 2 ^ 49

/-- The slice of a district in which a zone may hold a line (R15, R374). -/
def State.l2Loc (s : State) (d zn line : Nat) : Nat := sliceLoc d ((s.zoneOf zn).slice d (paLocal (line * 128)))

def State.baseOf (s : State) (loc zn : Nat) : Nat := rget 0 s.bases (loc * 65 + zn)

/-- An access by a group with clock p advances the BASE that lies too far behind. -/
def State.touchBase (s : State) (loc zn p : Nat) : State :=
  if s.baseOf loc zn + 2 ^ 19 ≤ p then { s with bases := rput 0 s.bases (loc * 65 + zn) (p - 2 ^ 18) } else s

/-- The largest timestamp that a cache can store. -/
def State.baseTop (s : State) (loc zn : Nat) : Nat := s.baseOf loc zn + 2 ^ 20 - 1

/-- A stored copy as its BASE leaves it. -/
def Copy.eff (c : Copy) (base : Nat) : Copy :=
  { c with wts := max c.wts base, rts := max c.rts base, xp := c.xp || decide (c.rts < base) }

def Home.eff (h : Home) (base : Nat) : Home :=
  { h with wts := max h.wts base, rts := max h.rts base, xp := h.xp || decide (h.rts < base) }

/-! ## Homes -/

/-- The ways a zone has in a slice or vault; with none, a home keeps no line (R369). Slices are 4 + 64 × district + slice. -/
def State.waysAt (s : State) (zn cache : Nat) : Nat := rget 0 (s.zoneOf zn).ways cache

/-- The lines of a zone that fit in a slice or vault: 512 or 65,536 to a way (R3, R25, R363). -/
def State.cacheLines (s : State) (zn cache : Nat) : Nat :=
  popcount 16 (s.waysAt zn cache) * (if cache < 4 then 65536 else 512)

/-- A home's stamps enter MTS and EXPFLOOR (R205, R369, R391, R403). -/
def State.foldHome (s : State) (zn home : Nat) (h : Home) : State :=
  s.updZone zn fun z => { z with mts := rput 0 z.mts home (max (rget 0 z.mts home) h.rts)
                                 expfloor := rput 0 z.expfloor home (max (rget 0 z.expfloor home) h.expmax) }

/-- The HBM channel of a line of a zone (R16, R367). -/
def State.chanOf (s : State) (zn line : Nat) : Option Nat :=
  let z := s.zoneOf zn
  if paDevice (line * 128) = s.devNum ∧ regionOf (paLocal (line * 128)) = .hbm ∧ z.chans ≠ [] then some (z.place (paLocal (line * 128))).1 else none

/-- Coins that a zone spends on the channel of a line (R310, R380). -/
def State.charge (s : State) (zn line n : Nat) : State :=
  let ch := s.chanOf zn line
  s.updZone zn fun z => { z with bal := z.bal - n, used := match ch with
    | some c => rput 0 z.used c (rget 0 z.used c + n)
    | none => z.used }

/-! ## The queues of the HBM channels (R310, R380, R381) -/

/-- A group's zone. -/
def State.zoneNum (s : State) (g : Group) : Nat :=
  match (look s.teams g.team).bind fun tm => look s.ctxs tm.ctx with
  | some cx => cx.zone
  | none => 64

/-- The line is a doorbell or a device register (R29). -/
def isRegLine (line : Nat) : Bool :=
  regionOf (paLocal (line * 128)) == .doorbell || regionOf (paLocal (line * 128)) == .devreg

/-- The line is the host's (R419). -/
def isHostLine (line : Nat) : Bool := regionOf (paLocal (line * 128)) == .host

/-- The home of a store's line: registers keep one order (R29). -/
def State.storeHome (s : State) (zn : Nat) (leaf : Leaf) (line : Nat) : Nat :=
  if isRegLine line then 1000 else s.homeOf (s.zoneOf zn) leaf (line * 128)

/-- What the leaf of a flight's page says of its home. -/
def FlyLine.leaf (f : FlyLine) : Leaf := (f.parts.head?.map fun p : SPart => p.leaf).getD {}

/-- The home of a flight's line, by the maps in force now (R374, R375). -/
def State.flyHome (s : State) (g : Group) (f : FlyLine) : Nat := s.storeHome (s.zoneNum g) f.leaf f.line

def SPart.isAtom (p : SPart) : Bool :=
  match p.op with
  | .atom .. => true
  | .store _ => false

/-- Coins of the atomics of a flight at a vault (R310). -/
def State.flyCoins (s : State) (g : Group) (f : FlyLine) : Nat :=
  if s.flyHome g f < 4 then 4 * (f.parts.filter SPart.isAtom).length else 0

/-- The channel that an access to a line needs: none while its home holds the line. -/
def State.needsChan (s : State) (zn line : Nat) : Option Nat := if (look s.homes (s.coKey zn line)).isSome then none else s.chanOf zn line

/-- A request that a channel has to serve: its zone, its line, the PRIO of its queue, the channel and the coins it costs there. -/
structure ChanAsk where
  zn    : Nat
  line  : Nat
  prio  : Nat
  ch    : Nat
  coins : Nat
  deriving DecidableEq, Repr

/-- An access with coins of its own beside the two that bring its line. -/
def State.chanAsk (s : State) (zn line prio own : Nat) : Option ChanAsk :=
  let coins := own + if (s.needsChan zn line).isSome then 2 else 0
  if coins = 0 then none else (s.chanOf zn line).map fun ch => ⟨zn, line, prio, ch, coins⟩

/-- What a request asks of a channel, while it does. -/
def State.chanInfo (s : State) (src : ChanSrc) : Option ChanAsk :=
  let prio := fun k => ((look s.teams k).map fun t : Team => t.prio).getD 0
  match src with
  | .line u id k =>
    (look s.groups u).bind fun g => (g.loads.find? fun r => r.id == id).bind fun r => (r.lines[k]?).bind fun q =>
      if q.stat == .done || q.stat == .ext then none else s.chanAsk (s.zoneNum g) q.line (prio g.team) 0
  | .fly u fid =>
    (look s.groups u).bind fun g => (g.fly.find? fun f => f.fid == fid).bind fun f =>
      if f.done.isSome || f.remote then none else s.chanAsk (s.zoneNum g) f.line (prio g.team) (s.flyCoins g f)
  | .copy k =>
    (look s.copies k).bind fun c => c.want.bind fun l => (look s.teams c.team).bind fun t => (look s.ctxs t.ctx).bind fun cx : Ctx =>
      s.chanAsk cx.zone l t.prio 0
  | .post _ zn line coins => (s.chanOf zn line).map fun ch => ⟨zn, line, 0, ch, coins⟩

/-- FLOOR in the current period (R380, R393). -/
def Zone.floorNow (z : Zone) : Nat := (z.oldCoin.map fun c => c.2.2).getD z.floor

/-- What decides between two requests for a channel: the cycle of entry, whether the zone has had less than its FLOOR there, whether its
BAL is above 0, its queue's PRIO. -/
structure ChanRank where
  at_   : Nat
  floor : Bool
  bal   : Bool
  prio  : Nat
  deriving DecidableEq, Repr

/-- The rank of a request that entered at a cycle. -/
def State.chanRank (s : State) (x : ChanAsk) (at_ : Nat) : ChanRank :=
  let z := s.zoneOf x.zn
  ⟨at_, decide (rget 0 z.used x.ch < z.floorNow), decide (0 < z.bal), x.prio⟩

/-- The order of R381 at a cycle: those older than 16,384 cycles, the oldest first; zones below their FLOOR; zones with BAL above 0; PRIO;
the oldest. -/
def ChanRank.before (a b : ChanRank) (now : Nat) : Bool :=
  let old := fun x : ChanRank => decide (16384 < now - x.at_)
  let oldest := decide (a.at_ < b.at_)
  if old a || old b then old a && (!old b || oldest)
  else if a.floor != b.floor then a.floor
  else if a.bal != b.bal then a.bal
  else if a.prio != b.prio then decide (b.prio < a.prio)
  else oldest

/-- Coins of service that a channel has given in the period. -/
def State.chanLoad (s : State) (ch : Nat) : Nat := (s.zones.map fun z => rget 0 z.2.used ch).sum

/-- No request in the channel's queue comes before this one, which entered at a cycle, and the channel's 8,000 coins of the period hold
what it costs. -/
def State.chanServes (s : State) (x : ChanAsk) (at_ : Nat) (me : ChanSrc → Bool) : Bool :=
  decide (s.chanLoad x.ch + x.coins ≤ 8000) && s.chanq.all fun r => me r.src || match s.chanInfo r.src with
    | some y => y.ch != x.ch || !(s.chanRank y r.at_).before (s.chanRank x at_) s.cycle
    | none => true

/-- A request may be performed now as far as its channel is concerned; one that is not in the queue enters it now. -/
def State.chanFree (s : State) (src : ChanSrc) : Bool :=
  match s.chanInfo src with
  | none => true
  | some x => s.chanServes x (((s.chanq.find? fun r => r.src == src).map fun r => r.at_).getD s.cycle) fun r => r == src

/-- A request enters the queue of its channel; requests that ask no more leave. -/
def State.enterChan (s : State) (src : ChanSrc) : State :=
  if (s.chanInfo src).isNone || s.chanq.any fun r => r.src == src then s
  else { s with chanq := (s.chanq.filter fun r => (s.chanInfo r.src).isSome) ++ [⟨src, s.cycle⟩] }

/-- A request that is served leaves the queue. -/
def State.leaveChan (s : State) (src : ChanSrc) : State := { s with chanq := s.chanq.filter fun r => r.src != src }

/-- Coins of an access that is performed now: the channel serves it at once where it can, else in its turn, with PRIO 0. The spec does not
say when the accesses of agents and write-backs enter the queues (DESIGN CHOICE, log 99). -/
def State.spend (s : State) (zn line n : Nat) : State :=
  match s.chanOf zn line with
  | none => s
  | some ch =>
    if s.chanServes ⟨zn, line, 0, ch, n⟩ s.cycle fun _ => false then s.charge zn line n
    else { s with uid := s.uid + 1, chanq := s.chanq ++ [⟨.post s.uid zn line n, s.cycle⟩] }

/-- The channels serve what agents have left in their queues. -/
def State.servePosts (s : State) : State :=
  s.chanq.foldl (fun s r => match r.src with
    | .post _ zn line n => if s.chanFree r.src then (s.leaveChan r.src).charge zn line n else s
    | _ => s) s

/-- The two 64-byte channel accesses that move a line (R310). -/
def State.chargeLine (s : State) (zn line : Nat) : State := s.spend zn line 2

/-- An agent reads lines: those that no home holds come from HBM (R310). -/
def State.touchLines (s : State) (zn : Nat) (lines : List Nat) : State :=
  (dedup lines).foldl (fun s l => if (s.needsChan zn l).isSome then s.chargeLine zn l else s) s

/-- A walk reads its table words. -/
def State.walkTouch (s : State) (cx : Ctx) (va : VA) : State := s.touchLines cx.zone ((s.tableWords cx va).map fun a => lineOf (s.ownPa a))

/-- The home that a line of a home has by the maps in force (R374, R375): a slice window looks up by the new one. -/
def State.homeNow (s : State) (zn at_ key : Nat) : Nat :=
  if at_ < 4 then ((s.chanOf zn key).map fun c => c / 96).getD at_ else 4 + 64 * ((at_ - 4) / 64) + (s.zoneOf zn).slice ((at_ - 4) / 64) (paLocal (key * 128))

/-- A home record leaves its cache; a written line goes to HBM. What comes for the line next finds its stamps in the MTS of the home
that the line has then (R205, R374). -/
def State.evictHome (s : State) (key : Nat) : State :=
  match look s.homes key with
  | some h =>
    let s := { (s.foldHome h.zn h.at_ h).foldHome h.zn (s.homeNow h.zn h.at_ key) h with homes := del s.homes key }
    if h.dirty then s.chargeLine h.zn key else s
  | none => s

/-- The place of a zone's copies in a slice, or of its remote copies in a vault, among the caches. -/
def cacheLoc (zn cache : Nat) : Nat := (if cache < 4 then 4200 + cache else 2048 + (cache - 4)) * 65 + zn

/-- A slice or vault that is full for a zone gives up a line: the first of its remote copies, else of its copies, else of its home
lines. The spec gives neither the index of these caches nor their replacement: only the number of lines binds, and the schedule may
evict any line at any time (DESIGN CHOICE, log 87). -/
def State.roomAt (s : State) (zn cache : Nat) : State :=
  let mine := fun {α : Type} (l : AList α) => l.filter fun c => keyLoc c.1 == cacheLoc zn cache
  let homes := s.homes.filter fun h => h.2.zn == zn && h.2.at_ == cache
  if homes.length + (mine s.l2).length + (mine s.rcopies).length < s.cacheLines zn cache then s
  else
    match mine s.rcopies, mine s.l2, homes with
    | c :: _, _, _ => { s with rcopies := del s.rcopies c.1 }
    | [], c :: _, _ => { s with l2 := del s.l2 c.1 }
    | [], [], h :: _ => s.evictHome h.1
    | [], [], [] => s

/-- EXPFLOOR for a line at a home; a line of the host window is every zone's (R403, R419). -/
def State.floorAt (s : State) (zn at_ line : Nat) : Nat :=
  if isHostLine line then s.zones.foldl (fun m z => max m (rget 0 z.2.expfloor at_)) 0 else rget 0 (s.zoneOf zn).expfloor at_

/-- The home's stamps for a line: its record, or MTS and EXPFLOOR when it has been evicted (R205, R403). A home without ways has no
record; one that another home of the zone still has is folded as it moves (R369, R374, R391). -/
def State.homeRec (s : State) (zn home line : Nat) : Home :=
  let z := s.zoneOf zn
  let at_ := s.stampHome zn home line
  let held := look s.homes (s.coKey zn line)
  let folded := fun (h : Home) =>
    let ts := max (rget 0 z.mts at_) h.rts
    { wts := ts, rts := ts, expmax := max (s.floorAt zn at_ line) h.expmax : Home }
  let h := match held with
    | some h => if s.waysAt zn at_ = 0 then folded h else h
    | none => folded {}
  h.eff (s.baseOf (homeLoc at_) zn)

/-- What a home keeps of a record: the lease ends where its offsets end; none when it cannot keep the copy (R211, R369). -/
def State.homeKeeps (s : State) (zn at_ : Nat) (h : Home) : Option Home :=
  if s.waysAt zn at_ = 0 ∨ s.baseTop (homeLoc at_) zn < h.wts then none
  else some { h with rts := min h.rts (s.baseTop (homeLoc at_) zn), zn := zn, at_ := at_ }

/-- A record goes to its home; the record as the home has it. A line that no home holds comes from HBM first; one that another home
holds moves (R374), unless this one cannot store the leases it has granted. An uncached access takes no place in the cache (R180). -/
def State.storeRec (s : State) (zn home line : Nat) (h : Home) (unc : Bool := false) : State × Home :=
  let at_ := s.stampHome zn home line
  let key := s.coKey zn line
  let held := look s.homes key
  let here := held.any fun o => o.zn == zn && o.at_ == at_
  let granted := match held with
    | some o => if here then 0 else o.rts
    | none => 0
  let s := if held.isSome then s else s.chargeLine zn line
  match (if (unc && !here) || decide (s.baseTop (homeLoc at_) zn < granted) then none else s.homeKeeps zn at_ h) with
  | none => ({ s.foldHome zn at_ h with homes := del s.homes key }, h)
  | some k =>
    let s := if here then s else s.roomAt zn at_
    ({ s with homes := put s.homes key k }, k)

def State.putHome (s : State) (zn home line : Nat) (h : Home) (unc : Bool := false) : State := (s.storeRec zn home line h unc).1

/-- A record comes from another home with leases that have been granted: one whose stamps the home cannot store goes to MTS. -/
def State.moveRec (s : State) (zn home line : Nat) (h : Home) : State :=
  let at_ := s.stampHome zn home line
  if s.baseTop (homeLoc at_) zn < h.rts then { s.foldHome zn at_ h with homes := del s.homes (s.coKey zn line) }
  else s.putHome zn home line h

/-- Bytes at a local physical address: HBM, or what the host answers with (R28, R419). -/
def State.readLocal (s : State) (a n : Nat) : List Byte :=
  readBytes (if regionOf a == .host then s.hostMem else s.mem) a n
def State.writeLocal (s : State) (a : Nat) (bytes : List Byte) : State :=
  if regionOf a == .host then { s with hostMem := writeBytes s.hostMem a bytes }
  else { s with mem := writeBytes s.mem a bytes }

/-- The bytes of a local line as the home holds them. -/
def State.lineData (s : State) (line : Nat) : LineData :=
  BitVec.ofNat 1024 (natOfBytes (s.readLocal (paLocal (line * 128)) 128))

def LineData.byte (d : LineData) (i : Nat) : Byte := d.extractLsb' (8 * (i % 128)) 8

/-- The line is on another device (R400). -/
def State.isRemote (s : State) (line : Nat) : Bool := paDevice (line * 128) != s.devNum

/-! ## Performing at the home (R205, R208) -/

/-- A line that another home of the zone still holds moves to the home that it has now (R374). -/
def State.moveHere (s : State) (zn home line : Nat) : State :=
  match look s.homes (s.coKey zn line) with
  | some h => if h.zn == zn && h.at_ != s.stampHome zn home line then s.putHome zn home line (s.homeRec zn home line) else s
  | none => s

/-- The clock of an access reaches its home's BASE (R211), its line the home. -/
def State.touchHome (s : State) (zn home line p : Nat) : State :=
  (s.touchBase (homeLoc (s.stampHome zn home line)) zn p).moveHere zn home line

/-- The stamps of a write to a line: its timestamp, and the home after it. -/
def State.homeWrite (s : State) (zn home line p : Nat) (unc : Bool := false) : State × Nat :=
  let s := s.touchHome zn home line p
  let h := s.homeRec zn home line
  let ts := max p (h.rts + 1)
  (s.putHome zn home line { h with wts := ts, rts := ts, xp := false, dirty := true } unc, ts)

/-- An access performed at the home without a copy (R205, R211): its timestamp; the home's rts grows to it. It is that of an uncached
page, which takes no place in the home (R180). -/
def State.homeRead (s : State) (zn home line p : Nat) : State × Nat :=
  let s := s.touchHome zn home line p
  let h := s.homeRec zn home line
  let ts := max p h.wts
  (s.putHome zn home line { h with rts := max h.rts ts } true, ts)

/-- Bytes written by an agent that is no group (a tram, the Exchange): a store at each line's home (R229). -/
def State.agentWrite (s : State) (zn : Nat) (leaf : Leaf) (pa p : Nat) (bytes : List Byte) : State :=
  let (s, _) := s.homeWrite zn (s.homeOf (s.zoneOf zn) leaf pa) (lineOf pa) p leaf.unc
  s.writeLocal (paLocal pa) bytes

/-! ## What an L1 holds (R170, R174) -/

/-- The core of a group. -/
def State.coreOf (s : State) (g : Group) : Option Nat := (look s.teams g.team).map fun t : Team => t.core

/-- Bytes of one line written at its home by a private write-back: a line written whole is good again (R189). A line whose home is lost
takes none (R433), nor does a frame of code (R185). Copies of the line that the core and its district hold go, so that the group's
next load of the line finds what it has written (R179; DEDUCED, log 121). -/
def State.writeLine (s : State) (zn core p : Nat) (leaf : Leaf) (line : Nat) (bytes : AList Byte) : State :=
  let home := s.homeOf (s.zoneOf zn) leaf (line * 128)
  if s.homeLost home || s.isCode (line * 128) then s
  else
    let s := (s.homeWrite zn home line p leaf.unc).1
    { s with mem := bytes.foldl (fun m b => writeByte m (paLocal b.1) b.2) s.mem
             badLines := if bytes.length = 128 then s.badLines.filter (· != line) else s.badLines
             l1 := del s.l1 (keyAt (l1Loc core) zn line), l2 := del s.l2 (keyAt (s.l2Loc (core / 128) zn line) zn line) }

/-- Dirty private bytes of some lines go to memory and stay as clean copies (R174, R197). -/
def State.writeBack (s : State) (zn : Nat) (g : Group) (sel : Nat → Bool) : State × Group :=
  let dirty := g.pdirty.filter fun b => sel (lineOf b.1)
  let s := (dedup (dirty.map fun b => lineOf b.1)).foldl (fun s l =>
    s.writeLine zn ((s.coreOf g).getD 0) g.pts (rget {} g.pleaf l) l (dirty.filter fun b => lineOf b.1 == l)) s
  (s, { g with pdirty := g.pdirty.filter (fun b => !sel (lineOf b.1)), pleaf := g.pleaf.filter fun x => !sel x.1 })

/-- The groups of a zone on a core. -/
def State.groupsAt (s : State) (core zn : Nat) : AList Group :=
  s.groups.filter fun g => match look s.teams g.2.team with
    | some tm => tm.core == core && ((look s.ctxs tm.ctx).map fun c : Ctx => c.zone) == some zn
    | none => false

/-- Lines in the set of a line (R170): global copies by key, dirty private lines with their group. -/
def State.l1Set (s : State) (core zn line : Nat) : List Nat :=
  (s.l1.filter fun c => keyLoc c.1 == l1Loc core * 65 + zn && c.1 % 2 ^ 49 % 512 == line % 512).map (·.1)
def State.privSet (s : State) (core zn line : Nat) : List (Nat × Nat) :=
  (s.groupsAt core zn).flatMap fun g => (g.2.pleaf.filter fun l => l.1 % 512 == line % 512).map fun l => (g.1, l.1)

/-- A line leaves a set: the first global copy, else the first private line, which is written back. Replacement is not
architectural (R170); the schedule may evict any other line before (DESIGN CHOICE, log 87). -/
def State.evictL1 (s : State) (core zn line : Nat) : State :=
  match s.l1Set core zn line, s.privSet core zn line with
  | k :: _, _ => { s with l1 := del s.l1 k }
  | [], (u, l) :: _ =>
    match look s.groups u with
    | some g =>
      let (s, g) := s.writeBack zn g fun x => x == l
      { s with groups := put s.groups u g }
    | none => s
  | [], [] => s

/-- Room for a line that the set does not hold. -/
def State.roomL1 (s : State) (core zn line : Nat) : State :=
  if (s.l1Set core zn line).contains (keyAt (l1Loc core) zn line) || (s.privSet core zn line).any (fun x => x.2 == line)
    || decide ((s.l1Set core zn line).length + (s.privSet core zn line).length < s.l1Ways core zn) then s
  else s.evictL1 core zn line

/-! ## Leases (R206) -/

def State.raiseLh (s : State) (zn d v : Nat) : State :=
  s.updZone zn fun z => { z with lh := rput 0 z.lh d (max (rget 0 z.lh d) v) }

def State.getL1 (s : State) (core zn line : Nat) : Option Copy :=
  (look s.l1 (keyAt (l1Loc core) zn line)).map fun c => c.eff (s.baseOf (l1Loc core) zn)
def State.getL2 (s : State) (d zn line : Nat) : Option Copy :=
  (look s.l2 (keyAt (s.l2Loc d zn line) zn line)).map fun c => c.eff (s.baseOf (s.l2Loc d zn line) zn)
/-- The slice of a district in which a zone holds a line, among the caches. -/
def State.sliceHome (s : State) (d zn line : Nat) : Nat := s.l2Loc d zn line - 2048 + 4

def State.putL1 (s : State) (core zn line : Nat) (c : Copy) : State :=
  if s.hasL1 core zn then
    let s := s.roomL1 core zn line
    { s with l1 := put s.l1 (keyAt (l1Loc core) zn line) c }
  else s
def State.putL2 (s : State) (d zn line : Nat) (c : Copy) : State :=
  let key := keyAt (s.l2Loc d zn line) zn line
  if s.waysAt zn (s.sliceHome d zn line) = 0 then s
  else
    let s := if (look s.l2 key).isSome then s else s.roomAt zn (s.sliceHome d zn line)
    { s with l2 := put s.l2 key c }
def State.dropL1 (s : State) (core zn line : Nat) : State := { s with l1 := del s.l1 (keyAt (l1Loc core) zn line) }
def State.dropL2 (s : State) (d zn line : Nat) : State := { s with l2 := del s.l2 (keyAt (s.l2Loc d zn line) zn line) }

/-- A copy fits the offsets of its cache; its lease is cut short where they end (R211). -/
def State.fitCopy (s : State) (loc zn : Nat) (c : Copy) : Option Copy :=
  if s.baseTop loc zn < c.wts then none else some { c with rts := min c.rts (s.baseTop loc zn) }

/-- The home grants a lease from p: its rts grows, and the expired flag goes. -/
def State.grantHome (s : State) (zn home line p n : Nat) : State × Home :=
  let s := s.touchHome zn home line p
  let h := s.homeRec zn home line
  s.storeRec zn home line { h with rts := max h.rts (p + max 64 n), xp := false }

/-- GrantL2: the home's rts grows and the slice of the requester's district gets a copy with the home's version; the other
lines of its tile there take the same version (R206, R232). -/
def State.grantL2 (s : State) (zn d home line p n : Nat) (data : LineData) : State :=
  let (s, h) := s.grantHome zn home line p n
  let s := (s.touchBase (s.l2Loc d zn line) zn p).raiseLh zn d h.rts
  let copy := fun l (dt : LineData) => { data := dt, wts := h.wts, rts := h.rts, xp := false, bad := s.badLine l : Copy }
  let s := match s.fitCopy (s.l2Loc d zn line) zn (copy line data) with
    | some c => s.putL2 d zn line c
    | none => s.dropL2 d zn line
  (s.coLines zn line).foldl (fun s l =>
    if l ≠ line ∧ (s.getL2 d zn l).isSome then
      match s.fitCopy (s.l2Loc d zn l) zn (copy l (s.lineData l)) with
      | some c => s.putL2 d zn l c
      | none => s.dropL2 d zn l
    else s) s

/-- What an L1 is given: data, stamps, whether the data are uncorrectable. -/
structure Given where
  data : LineData
  wts  : Nat
  rts  : Nat
  bad  : Bool
  deriving DecidableEq, Repr

/-- The copy an L1 takes its lease from (R206): the L2 copy of the district when its lease reaches p, or the home slice of a
district-local page, whose own rts grows when it must, and for a zone without ways in the slice any home; a home that holds
no copy grants anew (R369). -/
def State.leaseSource (s : State) (zn d : Nat) (leaf : Leaf) (home line p n : Nat) : Option (State × Given) :=
  if leaf.sh && s.waysAt zn (s.sliceHome d zn line) != 0 then
    let s := s.touchBase (s.l2Loc d zn line) zn p
    match s.getL2 d zn line with
    | some c => if p ≤ c.rts ∧ c.xp = false then some (s, ⟨c.data, c.wts, c.rts, c.bad⟩) else none
    | none => none
  else
    let s := s.touchHome zn home line p
    let h := s.homeRec zn home line
    let at_ := s.stampHome zn home line
    let held := !leaf.sh && s.waysAt zn at_ != 0 && (look s.homes (s.coKey zn line)).isSome && !h.xp
    let (s, h) := if held && p ≤ h.rts then (s, h) else s.grantHome zn home line p n
    some (s, ⟨s.lineData line, h.wts, h.rts, s.badLine line⟩)

/-- The outcome of GrantL1: an L2 copy must be granted first; the L1 cannot keep the copy, so the load is served at the home
(R211); or what the load gets. -/
inductive Lease where
  | need
  | unfit
  | given (s : State) (gv : Given)

/-- GrantL1 and the installation of what it gives, which also renews: lines of the tile with the same version share the
lease, others are dropped from the L1 (R206, R207, R232). -/
def State.grantL1 (s : State) (core zn : Nat) (leaf : Leaf) (home line p n : Nat) (install xp : Bool) : Lease :=
  let d := core / 128
  match s.leaseSource zn d leaf home line p n with
  | none => .need
  | some (s, gv) =>
    let s := s.touchBase (l1Loc core) zn p
    let gv := { gv with rts := min gv.rts (p + n) }
    let copy : Copy := { data := gv.data, wts := gv.wts, rts := gv.rts, xp := xp, bad := gv.bad }
    match (if install then s.fitCopy (l1Loc core) zn copy else some copy) with
    | none => .unfit
    | some c =>
      let s := s.raiseLh zn d c.rts
      let s := if install then s.putL1 core zn line c else s
      let s := (s.coLines zn line).foldl (fun s l =>
        match s.getL1 core zn l with
        | some o =>
          if l = line then s
          else if o.wts = gv.wts then s.putL1 core zn l { o with rts := c.rts, xp := xp }
          else s.dropL1 core zn l
        | none => s) s
      .given s gv

/-! ## Atomic operations (R242) -/

/-- The new value of a location. -/
def atomicNew (op : Aop) (ty : Ty) (old b c : Nat) : Nat :=
  let env : FEnv := { rm := .rne, sat := false, ftz := false }
  match op with
  | .add => if ty.isFloat then (addBits ty env old b).1 else wrap ty.width (intOf ty old + intOf ty b)
  | .min => if ty.isFloat then (minmaxBits ty false false false old b).1
            else if intOf ty b < intOf ty old then b else old
  | .max => if ty.isFloat then (minmaxBits ty false false true old b).1
            else if intOf ty old < intOf ty b then b else old
  | .and => old &&& b
  | .or => old ||| b
  | .xor => old ^^^ b
  | .exch => b
  | .cas => if old = b then c else old
  | .inc => if b ≤ old then 0 else old + 1
  | .dec => if old = 0 ∨ b < old then b else old - 1

/-- One part of an entry done to memory: the memory after it and the old value. -/
def SPart.run (p : SPart) (m : Memory) : Memory × Nat :=
  let a := paLocal p.pa
  let old := readNat m a p.n
  match p.op with
  | .store bs => (writeBytes m a bs, old)
  | .atom ty op b c => (writeNat m a p.n (atomicNew op ty old b c), old)

/-- The parts in ascending thread order (R196, R243). -/
def runParts (parts : List SPart) (m : Memory) : Memory × List (Nat × Nat) :=
  parts.foldl (fun r p => let q := p.run r.1; (q.1, r.2 ++ [(p.thr, q.2)])) (m, [])

/-! ## Race checks (R233, R234) -/

/-- Timestamp of a write that is recorded and not yet performed: above every clock. -/
def pendingTs : Nat := 2 ^ 64

/-- The check of one access of a group of a team to a tile: none when it fails. -/
def RaceTile.check (t : RaceTile) (team relc pts ah : Nat) (relcOf : Nat → Option Nat) (write : Bool) : Option RaceTile :=
  let bad1 := match t.wt with
    | some w => decide (w ≠ team) && (relcOf w == some t.wrel || decide (ah < t.wts))
    | none => false
  let foreign := match t.rt with
    | [] => false
    | [r] => decide (r ≠ team) && (decide (ah < t.rpts) || relcOf r == some t.rrel)
    | _ => decide (ah < t.rpts)
  if bad1 || (write && foreign) then none
  else if write then some { t with wt := some team, wts := pendingTs, wrel := relc, rt := [], rpts := 0 }
  else
    let (rt, rrel) := match t.rt with
      | [] => ([team], relc)
      | [r] => if r = team then ([team], relc) else ([r, team], t.rrel)
      | l => (l, t.rrel)
    some { t with rt := rt, rrel := rrel, rpts := max t.rpts pts }

/-- A team's release count; a team that is gone has released, since its groups' retirement did (R227). -/
def State.relcOf (s : State) (team : Nat) : Option Nat := (look s.teams team).map fun t => t.relc

/-- Check a list of lines for a group's access, recording each in turn; none at the first that fails. -/
def View.raceLines (w : View) (write : Bool) : List Nat → State → Option State
  | [], s => some s
  | l :: ls, s =>
    match s.tileOf w.cx.zone l with
    | none => w.raceLines write ls s
    | some (hd, i, _) =>
      match look s.objs hd with
      | none => w.raceLines write ls s
      | some o =>
        if !o.race then w.raceLines write ls s
        else
          match (rget {} o.rstat i).check w.g.team w.tm.relc w.g.pts w.g.ah s.relcOf write with
          | none => none
          | some t => w.raceLines write ls { s with objs := put s.objs hd { o with rstat := put o.rstat i t } }

/-- A performed write's timestamp enters the tile's record. -/
def State.raceStamp (s : State) (zn line team ts : Nat) : State :=
  match s.tileOf zn line with
  | none => s
  | some (hd, i, _) =>
    { s with objs := upd s.objs hd fun o =>
        { o with rstat := upd o.rstat i fun t => if t.wt = some team then { t with wts := ts } else t } }

/-! ## Acknowledgements (R208) -/

/-- An L1 copy after the acknowledgement of the core's own store (R205, R208): the stored bytes are written into it and its stamps
become ts; other lines of the tile are dropped. When the copy then differs from the version at ts, other bytes of it have been
overtaken: R208 and R454 let it serve loads at ts all the same, R205 and R220 do not, and any line may leave an L1. Which of the two
happens is a free value (DEDUCED, log 88). -/
def State.ackL1 (s : State) (core zn line ts : Nat) (own : Nat → Bool) (data : LineData) : State :=
  (s.coLines zn line).foldl (fun s l =>
    match s.getL1 core zn l with
    | none => s
    | some c =>
      if l = line then
        let merged : LineData := BitVec.ofNat 1024 (natOfBytes ((List.range 128).map fun i =>
          if own i then LineData.byte data i else LineData.byte c.data i))
        let c := { c with data := merged, wts := ts, rts := ts, bad := s.badLine line }
        let fresh := merged == data
        let keep := fresh || (Config.freeByte s.nfree).getLsbD 0
        let s := if fresh then s else { s with nfree := s.nfree + 1 }
        match (if keep then s.fitCopy (l1Loc core) zn c else none) with
        | some c => (s.putL1 core zn l c).raiseLh zn (core / 128) c.rts
        | none => s.dropL1 core zn l
      else s.dropL1 core zn l) s

/-- Cached copies of lines expire in every cache (R232). -/
def State.expireLines (s : State) (zn : Nat) (lines : List Nat) : State :=
  { s with
    l1 := mapVals s.l1 fun k c => if k / 2 ^ 49 % 65 = zn ∧ lines.contains (k % 2 ^ 49) then { c with xp := true } else c
    l2 := mapVals s.l2 fun k c => if k / 2 ^ 49 % 65 = zn ∧ lines.contains (k % 2 ^ 49) then { c with xp := true } else c
    homes := mapVals s.homes fun k h => if h.zn = zn ∧ lines.contains k then { h with xp := true } else h }

end Sys2Proof.Machine
end

