-- ==== Sys2Proof/Machine/Access.lean ====
section
/-!
DEFINITION. Addresses of a memory instruction's threads and the checks it passes before it performs any access (R166, R172
to R178, R186, R195, R244).
-/

namespace Sys2Proof.Machine

/-! ## Spaces -/

/-- A little-endian field of a byte list. -/
def fieldOf (bs : List Byte) (off n : Nat) : Nat := natOfBytes ((bs.drop off).take n)

/-- Where one thread's access lands: a global address, a byte of a team's scratchpad, a byte of the thread's private space. -/
inductive Tgt where
  | glob (va : VA)
  | scr (team off : Nat)
  | priv (off : Nat)
  deriving DecidableEq, Repr

/-- A failed check: its place in the order of R186, the cause, SR.TINFO. -/
structure Chk where
  ord  : Nat
  code : Nat
  info : Nat
  deriving DecidableEq, Repr

def chkAlign (info : Nat) : Chk := ⟨2, 0x12, info⟩
def chkPeer (info : Nat) : Chk := ⟨3, 0x15, info⟩
def chkSpwin (info : Nat) : Chk := ⟨4, 0x14, info⟩
def chkPrivlim (info : Nat) : Chk := ⟨5, 0x13, info⟩
def chkProt (info : Nat) : Chk := ⟨6, 0x11, info⟩

/-- What one thread's address gives: the checks that fail and, when none does, its target. -/
structure AddrOut where
  chks : List Chk
  tgt  : Tgt
  deriving DecidableEq, Repr

def low64 (x : Int) : Nat := (x % 2 ^ 64).toNat

/-- The team of a cluster rank (R176). -/
def View.peer (w : View) (rank : Nat) : Option (Nat × Team) :=
  w.s.teams.find? fun t => t.2.cluster == w.tm.cluster && t.2.crank == rank

/-- Teams in the cluster; ranks below it are valid (R175). -/
def View.peers (w : View) : Nat := w.tm.tpc

/-- An access to a team's scratchpad (R175). -/
def scratchAddr (team : Nat) (tm : Team) (off : Int) (n : Nat) (aligned : Bool) : AddrOut :=
  { chks := (if !aligned || off % n = 0 then [] else [chkAlign (low64 off)])
            ++ (if 0 ≤ off ∧ off + n ≤ tm.scratchSize then [] else [chkSpwin (low64 off)])
    tgt := .scr team off.toNat }

def View.peerAddr (w : View) (rank off n : Nat) : AddrOut :=
  let al := if off % n = 0 then [] else [chkAlign off]
  match w.peer rank with
  | some (k, tm) =>
    if rank < w.peers then
      { chks := al ++ (if off + n ≤ tm.scratchSize then [] else [chkSpwin off]), tgt := .scr k off }
    else { chks := al ++ [chkPeer rank], tgt := .scr 0 off }
  | none => { chks := al ++ [chkPeer rank], tgt := .scr 0 off }

/-- A private access (R173). -/
def View.privAddr (w : View) (off : Int) (n : Nat) : AddrOut :=
  { chks := (if off % n = 0 then [] else [chkAlign (low64 off)])
            ++ (if 0 ≤ off ∧ (off + n - 1) / 4 < w.tm.privL then [] else [chkPrivlim (low64 off)])
    tgt := .priv off.toNat }

/-- A wide address; `win` says whether the form decodes windows (R166, R195). -/
def View.wideAddr (w : View) (a : Nat) (delta : Int) (n : Nat) (win aligned : Bool) : AddrOut :=
  let va : VA := BitVec.ofInt 72 (((a % 2 ^ 72 : Nat) : Int) + delta)
  let lo := va.toNat % 2 ^ 64
  let canon := if a / 2 ^ 72 = 0 then [] else [chkProt lo]
  let al := if !aligned || va.toNat % n = 0 then [] else [chkAlign lo]
  if isWindow va then
    let kind := bitsOf lo 56 8
    let r : AddrOut :=
      if !win || 2 < kind then { chks := al ++ [chkProt lo], tgt := .glob va }
      else if kind = 0 then scratchAddr w.g.team w.tm (bitsOf lo 0 56 : Nat) n aligned
      else if kind = 1 then w.privAddr (bitsOf lo 0 56 : Nat) n
      else w.peerAddr (bitsOf lo 48 8) (bitsOf lo 0 48) n
    { r with chks := r.chks ++ canon }
  else { chks := al ++ canon, tgt := .glob va }

/-- Index and offset of the address fields of class 0x5 (R195). -/
def View.delta (w : View) (ad : Addr) (n t : Nat) : Int :=
  (if ad.ixu then (w.n32 ad.b t : Int) else w.int .i32 ad.b t) * 2 ^ ad.scale.toNat + ad.off.toInt * n

/-- Base plus a signed offset in units (R240). -/
def View.offAddr (w : View) (a : Src) (off : Int) (unit t : Nat) : Int := (w.n32 a t : Int) + off * unit

/-- `pe` addresses (R195). -/
def View.peAddr (w : View) (x : Int) (n : Nat) : AddrOut :=
  if x < 0 ∨ 2 ^ 56 ≤ x then { chks := [chkSpwin (low64 x)], tgt := .scr 0 0 }
  else w.peerAddr (bitsOf x.toNat 48 8) (bitsOf x.toNat 0 48) n

/-! ## Translation of the pieces -/

/-- A piece of a thread's global or private access after translation. -/
structure TPiece where
  thr  : Nat
  at_  : Nat
  n    : Nat
  pa   : Nat
  leaf : Leaf
  va   : VA := 0
  deriving DecidableEq, Repr

/-- The VA of byte b of a thread's private space (R172). -/
def View.privVa (w : View) (t b : Nat) : VA :=
  w.tm.privBase + BitVec.ofNat 72 (128 * w.tm.privL * w.g.ps + (b / 4 * 32 + t) * 4 + b % 4)

/-- Bytes from a on cut where a unit ends: (first byte, index, length); at most `f` pieces. -/
def cutWith (unit : Nat) : Nat → Nat → Nat → Nat → List (Nat × Nat × Nat)
  | 0, _, _, _ => []
  | f + 1, a, i, n =>
    let m := min n (unit - a % unit)
    if n = 0 then [] else (a, i, m) :: cutWith unit f (a + m) (i + m) (n - m)

/-- The pieces of `n` bytes from byte a. -/
def cutAt (unit a n : Nat) : List (Nat × Nat × Nat) := cutWith unit n a 0 n

/-- The pieces of an access with their virtual addresses: a global access by lines, a private one by words. -/
def View.vPieces (w : View) (t n : Nat) : Tgt → List (VA × Nat × Nat)
  | .glob va => (cutAt 128 (va.toNat % 128) n).map fun p => (va + BitVec.ofNat 72 p.2.1, p.2.1, p.2.2)
  | .priv b => (cutAt 4 b n).map fun p => (w.privVa t p.1, p.2.1, p.2.2)
  | .scr .. => []

/-- What a memory instruction's threads do once every check is passed. -/
structure ThreadAcc where
  thr : Nat
  n   : Nat
  tgt : Tgt
  pcs : List TPiece
  deriving DecidableEq, Repr

/-- The page of a private piece lies in this device's HBM. -/
def State.privHere (s : State) (pa : Nat) : Bool := !s.isRemote (lineOf pa) && regionOf (paLocal pa) == .hbm

/-- A private access that reaches another device or the host is made as an uncached global one of its thread: R174 caches private lines
without saying from where (DESIGN CHOICE, log 105). -/
def View.settleTgt (w : View) (a : ThreadAcc) : ThreadAcc :=
  match a.tgt with
  | .priv b =>
    if a.pcs.all fun p => w.s.privHere p.pa then a
    else { a with tgt := .glob (w.privVa a.thr b), pcs := a.pcs.map fun p => { p with leaf := { p.leaf with unc := true } } }
  | _ => a

def accOf (k : Acc) : Tgt → Acc
  | .priv _ => match k with
    | .store | .atomic | .privStore => .privStore
    | _ => .privLoad
  | _ => k

/-- Translation by the TLBs alone. -/
def View.lookupVa (w : View) (va : VA) (acc : Acc) : Option (Nat × Leaf) :=
  w.s.tlbLookup w.tm.core w.cx.zone w.tm.ctx va acc w.cx.priv

/-! ## Holding a group -/

/-- The threads for which the issuing instruction holds the group: those selected when it issued (R135). -/
def View.asIssued (w : View) : Held := { mask := w.sel }

/-- The instruction waits at issue and is tried again; a stall of R23 gives up the active slot (R142). One that has issued
(`kept`, `away`) stays issued for its own threads. -/
def View.hold (w : View) (how : HoldKind) : State :=
  let issuedAs := match how with
    | .kept | .away => some w.asIssued
    | .again | .operand => none
  let g := { w.g with wait := .retry w.s.curPc how, issuedAs := issuedAs }
  w.s.setGroup w.u (if g.wait.stalled && g.slot.isSome then g.leaveSlot none else g)

/-- The group waits for a walk (R184, R186); `by_` names every access of the instruction. The walk of a fetch is no issue. -/
def View.awaitWalk (w : View) (va : VA) (acc : Acc) (by_ : List (Mask × VA × VA)) : State :=
  let g := { w.g with wait := .walk w.s.curPc va acc by_, issuedAs := if acc == Acc.fetch then w.g.issuedAs else some w.asIssued }
  w.s.setGroup w.u (if g.slot.isSome then g.leaveSlot none else g)

/-- The first of the failed checks in the order of R186: cause, threads, SR.TINFO of the lowest. -/
def firstChk (xs : List (Nat × Chk)) : Option (Nat × Mask × Nat) :=
  match xs with
  | [] => none
  | x :: _ =>
    let ord := xs.foldl (fun o y => min o y.2.ord) x.2.ord
    let ys := xs.filter fun y => y.2.ord == ord
    let m := maskOf fun t => ys.any fun y => y.1 == t
    match ys.find? fun y => y.1 == lowest m with
    | some y => some (y.2.code, m, y.2.info)
    | none => none

/-- The lowest virtual address of a list, with its access kind. -/
def lowestVa (xs : List (VA × Acc)) : Option (VA × Acc) :=
  match xs with
  | [] => none
  | x :: rest => some (rest.foldl (fun b y => if y.1.toNat < b.1.toNat then y else b) x)

/-- The threads whose access lies on the page of 2^k bytes that holds an address (R187). -/
def pageMask (by_ : List (Mask × VA × VA)) (va : VA) (k : Nat) : Mask :=
  by_.foldl (fun m x => if x.2.1.toNat / 2 ^ k = va.toNat / 2 ^ k then m ||| x.1 else m) 0

/-- Where the access of the lowest of those threads starts. -/
def pageLow (by_ : List (Mask × VA × VA)) (va : VA) (k : Nat) : VA :=
  ((by_.find? fun x => inMask x.1 (lowest (pageMask by_ va k))).map fun x => x.2.2).getD va

/-- The checks of R186 for the threads of a memory instruction, then the access. `addr` forms each thread's address; a
uniform form makes one access (R194) and its traps name the whole mask. -/
def View.access (w : View) (u : Uses) (m : Mask) (n : Nat) (acc : Acc) (addr : Nat → AddrOut)
    (k : List ThreadAcc → Out) : Out :=
  let ts := lanes u m
  let whole := fun bad : Mask => if u.uniform then m else bad
  let outs := ts.map fun t => (t, addr t)
  match firstChk (outs.flatMap fun o => o.2.chks.map fun c => (o.1, c)) with
  | some (code, bad, info) => .next (w.trapHere code (whole bad) info)
  | none =>
    let vps := outs.flatMap fun o => (w.vPieces o.1 n o.2.tgt).map fun p => (o.1, accOf acc o.2.tgt, p)
    let start := fun t : Nat => (vps.find? fun v => v.1 == t).map fun v => v.2.2.1
    let missing := vps.filter fun v => (w.lookupVa v.2.2.1 v.2.1).isNone
    match lowestVa (missing.map fun v => (v.2.2.1, v.2.1)) with
    | some (va, a) =>
      .next (w.awaitWalk va a (vps.map fun v => (whole (maskOf fun t => t == v.1), v.2.2.1, (start v.1).getD va)))
    | none =>
      let accs : List ThreadAcc := outs.map fun o =>
        w.settleTgt { thr := o.1, n := n, tgt := o.2.tgt,
                      pcs := (w.vPieces o.1 n o.2.tgt).filterMap fun p =>
                        (w.lookupVa p.1 (accOf acc o.2.tgt)).map fun r => ⟨o.1, p.2.1, p.2.2, r.1, r.2, p.1⟩ }
      let prot := vps.filter fun v =>
        match w.lookupVa v.2.2.1 v.2.1 with
        | some (pa, leaf) => w.s.refusedPa leaf pa
        | none => false
      match prot with
      | [] => k accs
      | _ =>
        let bad := maskOf fun t => prot.any fun v => v.1 == t
        let info := ((start (lowest bad)).map fun va : VA => va.toNat % 2 ^ 64).getD 0
        .next (w.trapHere 0x11 (whole bad) info)

/-- The race check of the lines of global and private accesses (R234): each thread's lines are checked against the tiles as
they stand; then all are recorded. `none`: no thread fails and the state holds the records. -/
def View.raceCheck (w : View) (accs : List ThreadAcc) (write : Bool) : Except (Mask × Nat) State :=
  let bad := accs.filter fun a => (w.raceLines write (a.pcs.map fun p => lineOf p.pa) w.s).isNone
  match bad with
  | [] =>
    match w.raceLines write (dedup (accs.flatMap fun a => a.pcs.map fun p => lineOf p.pa)) w.s with
    | some s => .ok s
    | none => .ok w.s
  | a :: _ =>
    .error (maskOf fun t => bad.any fun b => b.thr == t,
      match a.tgt with
      | .glob va => va.toNat % 2 ^ 64
      | .priv b => (w.privVa a.thr b).toNat % 2 ^ 64
      | .scr _ o => o)

/-- RACE, or the access with the records made. -/
def View.raced (w : View) (u : Uses) (m : Mask) (accs : List ThreadAcc) (write : Bool) (k : View → Out) : Out :=
  if w.s.objs.isEmpty then k w
  else
    match w.raceCheck accs write with
    | .ok s => k { w with s := s }
    | .error (bad, info) => .next (w.trapHere 0x30 (if u.uniform then m else bad) info)

/-! ## Scratchpad and private bytes -/

/-- A peer's scratchpad cannot be reached now: the team migrates or is pre-empted, or stores of the group to it are still held
(R176). -/
def State.heldFor (s : State) (g : Group) (k : Nat) : Bool :=
  k != g.team && ((g.cluOut.any fun c => c.team == k) || match look s.teams k with
    | some tm => tm.away
    | none => false)

/-- A load or an atomic meets such a scratchpad. -/
def View.away (w : View) (accs : List ThreadAcc) : Bool :=
  accs.any fun a =>
    match a.tgt with
    | .scr k _ => w.s.heldFor w.g k
    | _ => false

def Team.scrBytes (tm : Team) (off n : Nat) : List Byte := readBytes tm.scratch off n

/-- The stamps of the scratchpad lines of an access (R226). -/
def Team.stampOf (tm : Team) (off : Nat) : Nat := rget 0 tm.stamps (off / 128)

/-- A scratchpad write with the writer's clock. While matrix operations run, what it overwrites is kept for them (R265). -/
def Team.scrWrite (tm : Team) (off : Nat) (bytes : List Byte) (pts : Nat) : Team :=
  { tm with scrbad := (if tm.scrbad.isEmpty then [] else
              tm.scrbad.filter fun h => !(off / 2 ≤ h && h ≤ (off + bytes.length - 1) / 2))
            past := (if tm.mxin = 0 then tm.past else
              tm.past ++ (List.range bytes.length).map fun i => (off + i, readByte tm.scratch (off + i), tm.scrbad.contains ((off + i) / 2)))
            scratch := writeBytes tm.scratch off bytes, stamps := rput 0 tm.stamps (off / 128) (max (tm.stampOf off) pts) }

/-- A private byte: the dirty line in L1 or memory (R174). -/
def Group.privByte (g : Group) (s : State) (pa : Nat) : Byte := (look g.pdirty pa).getD (readByte s.mem (paLocal pa))
def View.privByte (w : View) (pa : Nat) : Byte := w.g.privByte w.s pa

/-- Private bytes kept dirty in L1 (R174). -/
def Group.privWrite (g : Group) (p : TPiece) (bytes : List Byte) : Group :=
  { g with pdirty := (bytes.foldl (fun (r : AList Byte × Nat) b => (put r.1 r.2 b, r.2 + 1)) (g.pdirty, p.pa)).1
           pleaf := put g.pleaf (lineOf p.pa) p.leaf }

/-- A private write of a group of the state: kept dirty in L1, or, when the zone has no L1 bank here or the page is uncached,
performed at the slice (R170, R174, R180). -/
def State.privStore (s : State) (u core zn : Nat) (p : TPiece) (bytes : List Byte) : State :=
  match look s.groups u with
  | none => s
  | some g =>
    if s.hasL1 core zn && !p.leaf.unc then
      let s := s.roomL1 core zn (lineOf p.pa)
      { s with groups := upd s.groups u fun g => g.privWrite p bytes }
    else
      let s := s.agentWrite zn p.leaf p.pa g.pts bytes
      { s with groups := upd s.groups u fun g => { g with pdirty := g.pdirty.filter fun b => !(p.pa ≤ b.1 && b.1 < p.pa + bytes.length) } }

end Sys2Proof.Machine
end

