-- ==== Sys2Proof/Machine/Events.lean ====
section
/-!
DEFINITION. What the device reports (R347, R434 to R436): the error log, the health register, capacity changes, and the
events of the arbiter and of time waits.
-/

namespace Sys2Proof.Machine

/-- An entry of the error log (R436). What the table does not fix for a kind is a free value (log entry 14). -/
def State.logError (s : State) (kind : Nat) (chip : Option Nat) (unit zone pa : Nat) : State :=
  let n := s.health.next
  let unread := match look s.health.log n with
    | some b => fieldOf b 0x0E 2 != 1
    | none => false
  let c := chip.getD (Config.freeByte s.nfree).toNat
  let bs := bytesOf 8 s.now ++ bytesOf 1 kind ++ bytesOf 1 c ++ bytesOf 2 unit ++ bytesOf 2 zone ++ bytesOf 2 0
    ++ bytesOf 8 pa ++ bytesOf 8 (Config.freeValue s.nfree).toNat
  { s with nfree := s.nfree + 1
           health := { s.health with log := put s.health.log n bs, next := (n + 1) % 256, logfull := s.health.logfull || unread } }

/-- A corrected error is counted (R102, R435). -/
def State.countCorrected (s : State) : State :=
  let n := min (s.health.ce + 1) (2 ^ 32 - 1)
  { s with health := { s.health with ce := n, replace := s.health.replace || decide (2 ^ 28 < n) } }

/-- The device time can be trusted (R402, R404). -/
def State.timeGood (s : State) : Bool := s.tstat == .locked || s.tstat == .holdover

/-! ## Capacity (R434) -/

def Capacity.coreMask (c : Capacity) (d : Nat) : Nat := rget 0 c.cores d
def Capacity.sliceMask (c : Capacity) (d : Nat) : Nat := rget 0 c.slices d
def Capacity.coreLive (c : Capacity) (core : Nat) : Bool := (c.coreMask (core / 128)).testBit (core % 128)
def Capacity.sliceLive (c : Capacity) (d n : Nat) : Bool := (c.sliceMask d).testBit n
def Capacity.chanLive (c : Capacity) (k : Nat) : Bool := c.chans.testBit k
def Capacity.coreCount (c : Capacity) : Nat := (List.range 8).foldl (fun n d => n + popcount 128 (c.coreMask d)) 0


/-- Time status code (R416). -/
def TimeStat.code : TimeStat → Nat
  | .freerun => 0
  | .locking => 1
  | .locked => 2
  | .holdover => 3

/-- The capacity record (R434). -/
def State.capRecord (s : State) : List Byte :=
  let chips := ((List.range 14).map fun c => if s.chipActive c then 2 ^ c else 0).sum
  let links := popcount 16 s.cap.stations + 2 ^ 5 * popcount 16 (s.cap.stations / 2 ^ 16) + 2 ^ 10 * s.cap.gate
    + 2 ^ 11 * s.tstat.code + (if s.bridge then 2 ^ 13 else 0)
  bytesOf 8 s.capgen ++ bytesOf 2 s.devNum ++ bytesOf 2 chips ++ bytesOf 2 (2 * popcount 384 s.cap.chans)
    ++ bytesOf 2 links ++ ((List.range 8).flatMap fun d => bytesOf 16 (s.cap.coreMask d))
    ++ ((List.range 8).flatMap fun d => bytesOf 8 (s.cap.sliceMask d)) ++ bytesOf 48 s.cap.chans

/-- A capacity change (R434, R435): the record and its generation change together; COMMIT for the zones that lost a resource,
HEALTH for the hypervisor, whose log kind is a free value for a change that R436 has no kind for (log entry 22). -/
def State.capacityChange (s : State) (f : State → State) (lost : List Nat) (chip : Nat) (kind : Option Nat) (unit : Nat) (down : Bool) : State :=
  let s := f s
  let s := { s with capgen := s.capgen + 1, nfree := s.nfree + 1 }
  let k := kind.getD (Config.freeByte (s.nfree - 1)).toNat
  let h := s.health
  let s := if down then
      { s with health := { h with degraded := true, replace := h.replace || s.chips.any (fun c => c.2.st == .fenced || c.2.st == .off) || kind == some 6 || decide (s.cap.coreCount < 960) } }
    else s
  let s := lost.foldl (fun s z => s.raise z { code := 0x07, data := s.capgen }) s
  s.raise 64 { code := 0x09, arg := chip + 2 ^ 8 * k + 2 ^ 16 * unit, data := s.capgen }

/-- Another time status: it is a field of LINKS, so that this is a capacity change too (R416, R434; log entry 72). -/
def State.setTime (s : State) (t : TimeStat) : State :=
  s.capacityChange (fun s => { s with tstat := t, nfree := s.nfree + 1 }) [] ((Config.freeByte s.nfree).toNat % 16) none 0xFFFF false

/-! ## Event queues (R347, R353) -/

/-- EVENT_PLACE (R347): the event held longest for a queue enters it when an entry is free. -/
def execEventPlace (target : Nat) (s : State) : Out :=
  match s.evHeld.findIdx? fun h => h.1 == target with
  | none => .next s
  | some i =>
    let q := rget [] s.evq target
    if 1024 ≤ q.length then .next s
    else
      match s.evHeld[i]? with
      | some h => .next { s with evq := put s.evq target (q ++ [h.2]), evHeld := dropAt s.evHeld i }
      | none => .next s

/-- The event record's two registers (R347). -/
def EvRec.lo (e : EvRec) : W64 := BitVec.ofNat 64 (e.code + 2 ^ 8 * e.ctx + 2 ^ 20 * e.group + 2 ^ 32 * (e.arg % 2 ^ 32))
def EvRec.hi (e : EvRec) : W64 := BitVec.ofNat 64 e.data

end Sys2Proof.Machine
end

