-- ==== Sys2Proof/Machine/Exchange.lean ====
section
/-!
DEFINITION. What the Exchange does by itself: reads and writes at the homes (R229, R285, R309), held writes (R403, R404), user
queues, their directory and kicks (R304 to R308).
-/

namespace Sys2Proof.Machine

/-! ## Accesses that never park -/

/-- Why an access of the Exchange or of a tram fails (R296). -/
inductive ExFail where
  | notValid | prot | bad | remote
  deriving DecidableEq, Repr

/-- Translate for the Exchange (R229). -/
def State.exAddr (s : State) (cx : Ctx) (va : VA) (acc : Acc) : Except ExFail (Nat × Leaf) :=
  if isWindow va then .error .prot
  else
    match s.walkVa cx va acc with
    | .fault k _ _ => .error (if k = notValid then .notValid else .prot)
    | .ok pa leaf =>
      if paDevice pa ≠ s.devNum then .error .remote
      else if s.refusedPa leaf pa || isRegLine (lineOf pa) then .error .prot
      else if s.homeLost (s.homeOf (s.zoneOf cx.zone) leaf pa) then .error .remote
      else .ok (pa, leaf)

/-- The pieces of a range by lines, translated. -/
def State.exPieces (s : State) (cx : Ctx) (va : VA) (n : Nat) (acc : Acc) : Except ExFail (List (Nat × Leaf × Nat × Nat)) :=
  (cutAt 128 (va.toNat % 128) n).foldl (fun r p =>
    match r with
    | .error e => .error e
    | .ok l =>
      match s.exAddr cx (va + BitVec.ofNat 72 p.2.1) acc with
      | .error e => .error e
      | .ok (pa, leaf) => .ok (l ++ [(pa, leaf, p.2.1, p.2.2)])) (.ok [])

/-- Bytes read at home for a context, and whether some line is uncorrectable. -/
def State.tramRead (s : State) (cx : Ctx) (va : VA) (n : Nat) : Except ExFail (List Byte × Bool) :=
  match s.exPieces cx va n .load with
  | .error e => .error e
  | .ok ps => .ok (ps.flatMap fun p => s.readLocal (paLocal p.1) p.2.2.2, ps.any fun p => s.badLine (lineOf p.1))

def State.exRead (s : State) (cx : Ctx) (va : VA) (n : Nat) : Except ExFail (List Byte) :=
  match s.tramRead cx va n with
  | .error e => .error e
  | .ok (bs, bad) => if bad then .error .bad else .ok bs

def State.exRead? (s : State) (cx : Ctx) (va : VA) (n : Nat) : Option (List Byte) :=
  match s.exRead cx va n with
  | .ok bs => some bs
  | .error _ => none

/-- Bytes written at home for a context, with the zone's clock (R229); a frame with CODE refuses (R185). -/
def State.exWrite (s : State) (cx : Ctx) (va : VA) (bytes : List Byte) : Except ExFail State :=
  match s.exPieces cx va bytes.length .store with
  | .error e => .error e
  | .ok ps =>
    if ps.any fun p => s.isCode p.1 then .error .prot
    else if ps.any fun p => s.badLine (lineOf p.1) then .error .bad
    else
      .ok (ps.foldl (fun s p =>
        s.agentWrite cx.zone p.2.1 p.1 (s.zoneOf cx.zone).zclk ((bytes.drop p.2.2.1).take p.2.2.2)) s)

/-- Bytes at a home in the HBM window, without translation: QCBs (R306). -/
def State.homeBytes (s : State) (pa n : Nat) : List Byte := readBytes s.mem (paLocal pa) n
def State.homePut (s : State) (zn pa : Nat) (bytes : List Byte) : State := s.agentWrite zn {} (s.ownPa pa) 0 bytes

/-! ## Held writes (R403, R404) -/

/-- GUARD in the two states that have one (R403; log entry 102 for the others). -/
def State.guardNs (s : State) : Nat := if s.tstat == .locked then 100 else 2000

/-- A write to the line waits at its home. -/
def State.homeHeld (s : State) (zn home line : Nat) : Bool :=
  let h := s.homeRec zn home line
  h.expmax != 0 && ((s.timeGood && decide (s.now < h.expmax + s.guardNs)) || (s.leftAt != 0 && decide (s.now < s.leftAt + 1002000)))

/-- The translation of a range waits at a table word (R400). -/
def State.exWalks (s : State) (cx : Ctx) (va : VA) (n : Nat) : Bool :=
  !s.held.isEmpty && (cutAt 128 (va.toNat % 128) n).any fun p => s.walkQueued cx (va + BitVec.ofNat 72 p.2.1)

/-- A read of a range comes after a request to one of its lines, or of the table words that lead to them, that waits at the home
(R400). -/
def State.exQueued (s : State) (cx : Ctx) (va : VA) (n : Nat) : Bool :=
  !s.held.isEmpty && (s.exWalks cx va n || match s.exPieces cx va n .load with
    | .error _ => false
    | .ok ps => ps.any fun p => s.lineQueued (lineOf p.1))

/-- The channels serve what a read of a range brings from HBM (R310). -/
def State.exTouch (s : State) (cx : Ctx) (va : VA) (n : Nat) : State :=
  match s.exPieces cx va n .load with
  | .error _ => s
  | .ok ps => s.touchLines cx.zone (ps.map fun p => lineOf p.1)

/-- The zone whose home record a line has: that of its HBM range, else the hypervisor's. -/
def State.lineZone (s : State) (a : Nat) : Nat :=
  match s.backer a with
  | some z => z.1
  | none => 64

/-- Requests wait at homes of the zone: what the Exchange reads to accept or to ready a node comes after them (R400). -/
def State.zoneQueued (s : State) (zn : Nat) : Bool := s.held.any fun h => s.lineZone (paLocal h.2.pa) == zn

/-- Some line of a range is held. -/
def State.exHeld (s : State) (cx : Ctx) (va : VA) (n : Nat) : Bool :=
  s.exWalks cx va n || match s.exPieces cx va n .store with
  | .error _ => false
  | .ok ps => ps.any fun p => s.lineQueued (lineOf p.1) || s.homeHeld cx.zone (s.homeOf (s.zoneOf cx.zone) p.2.1 p.1) (lineOf p.1)

/-! ## Queue control blocks (R306) -/

/-- Replace a little-endian field. -/
def setField (bs : List Byte) (off n v : Nat) : List Byte := bs.take off ++ bytesOf n v ++ bs.drop (off + n)

def Slot.get (x : Slot) (off n : Nat) : Nat := fieldOf x.qcb off n
def Slot.set (x : Slot) (off n v : Nat) : Slot := { x with qcb := setField x.qcb off n v }
def Slot.log2n (x : Slot) : Nat := x.get 0x09 1
def Slot.prio (x : Slot) : Nat := x.get 0x0A 1 % 16
def Slot.enabled (x : Slot) : Bool := (x.get 0x0B 1).testBit 0
def Slot.error (x : Slot) : Bool := (x.get 0x0B 1).testBit 1
def Slot.rdidx (x : Slot) : Nat := x.get 0x0C 4
def Slot.wridx (x : Slot) : Nat := x.get 0x10 4
def Slot.infl (x : Slot) : Nat := x.get 0x14 2
/-- More packets are announced than the ring holds (R307). -/
def Slot.overfull (x : Slot) : Bool := decide (2 ^ x.log2n < (x.wridx + 2 ^ 32 - x.rdidx) % 2 ^ 32)
/-- LOG2N outside 4 to 16, or a nonzero reserved field (R308). -/
def Slot.invalid (x : Slot) : Bool :=
  decide (x.log2n < 4 ∨ 16 < x.log2n) || decide (16 ≤ x.get 0x0A 1) || decide (4 ≤ x.get 0x0B 1)
    || x.get 0x21 7 != 0 || x.get 0x30 16 != 0

def State.qd (s : State) (q : Nat) : QDir := rget {} s.qdir q
def State.updQd (s : State) (q : Nat) (f : QDir → QDir) : State := { s with qdir := put s.qdir q (f (s.qd q)) }
def State.updSlot (s : State) (k : Nat) (f : Slot → Slot) : State := { s with slots := upd s.slots k f }

/-- The queue stops with ERROR, in its QCB and in the directory, and QERR (R307, R309); a QCB that lies in a frame of code takes no
write (R185). -/
def State.stopQueue (s : State) (q : Nat) : State :=
  let e := s.qd q
  let at_ := e.qcbpa * 64 + 0x0B
  let s := match e.slot with
    | some k => s.updSlot k fun x => x.set 0x0B 1 (x.get 0x0B 1 ||| 2)
    | none => if s.isCode (s.ownPa at_) then s else s.homePut e.zone at_ ((s.homeBytes at_ 1).map fun b => b ||| 2)
  (s.updQd q fun e => { e with error := true }).raise e.zone { code := 0x02, arg := q }

/-! ## Kicks and the directory (R304, R305, R307) -/

/-- The zone a writer acts for. -/
def State.writerZone (s : State) (w : Writer) : Option Nat :=
  match w with
  | .ctx n => (look s.ctxs n).map fun c : Ctx => c.zone
  | .vf z => if s.bridge then some z else none
  | .pf0 => if s.bridge then some 64 else none
  | .controller => none

/-- The writer is the hypervisor: its context, or physical function 0 that serves its host (R418). -/
def State.writerHyp (s : State) (w : Writer) : Bool :=
  match w with
  | .ctx n => match look s.ctxs n with
    | some c => c.priv == .hyp
    | none => false
  | .pf0 => s.bridge
  | .vf _ => false
  | .controller => false

/-- The writer is a zone-supervisor context of a zone. -/
def State.writerSup (s : State) (w : Writer) (z : Nat) : Bool :=
  match w with
  | .ctx n => match look s.ctxs n with
    | some c => c.priv == .sup && c.zone == z
    | none => false
  | _ => false

/-- A kick of value w to queue q (R304, R307). -/
def State.kick (s : State) (from_ : Writer) (q : Nat) (w : W32) : State :=
  let e := s.qd q
  if !e.valid || s.writerZone from_ != some e.zone then s
  else
    let d := (w - e.lastw).toNat
    if d = 0 ∨ 2 ^ 31 ≤ d then s
    else
      let s := s.updQd q fun e => { e with lastw := w }
      match e.slot with
      | some k =>
        let s := s.updSlot k fun x => x.set 0x10 4 w.toNat
        match look s.slots k with
        | some x => if x.overfull then s.stopQueue q else s
        | none => s
      | none =>
        if e.pending then s
        else (s.updQd q fun e => { e with pending := true }).raise e.zone { code := 0x01, arg := q }

/-- KICK (R307). -/
def execKick (from_ : Writer) (q : Nat) (w : W32) (s : State) : Out := .next (s.kick from_ q w)

/-- Word 0 of a directory entry, and its write by the hypervisor (R305). -/
def QDir.word0 (e : QDir) : Nat := (if e.valid then 2 ^ 63 else 0) + e.qcbpa * 2 ^ 6 + e.zone
def QDir.word1 (e : QDir) : Nat :=
  e.lastw.toNat * 2 ^ 32 + (if e.slot.isSome then 2 ^ 31 else 0) + (if e.pending then 2 ^ 30 else 0)
    + (if e.error then 2 ^ 29 else 0) + e.slot.getD 0

def State.writeDirectory0 (s : State) (from_ : Writer) (q v : Nat) : State :=
  if s.writerHyp from_ then
    s.updQd q fun e => { e with valid := v.testBit 63, qcbpa := bitsOf v 6 50, zone := bitsOf v 0 6 }
  else s

/-- The W1C bits of word 1 (R305). -/
def State.directoryW1c (s : State) (from_ : Writer) (q : Nat) (v : W64) : State :=
  if s.writerHyp from_ || s.writerSup from_ (s.qd q).zone then
    s.updQd q fun e => { e with pending := e.pending && !v.getLsbD 30, error := e.error && !v.getLsbD 29 }
  else s

/-- DIRECTORY_W1C (R305). -/
def execDirectoryW1c (from_ : Writer) (q : Nat) (v : W64) (s : State) : Out := .next (s.directoryW1c from_ q v)

end Sys2Proof.Machine
end

