-- ==== Sys2Proof/Machine/Loads.lean ====
section
/-!
DEFINITION. Destinations whose values come later, and global loads (R41, R179, R180, R189, R196, R207, R402).
-/

namespace Sys2Proof.Machine

/-! ## Pending destinations -/

def Thread.setLatch (th : Thread) (n : Nat) (x : W32) : Thread :=
  match n with
  | 0 => { th with b0 := x }
  | 1 => { th with b1 := x }
  | 2 => { th with b2 := x }
  | 3 => { th with b3 := x }
  | _ => th

/-- The value a thread's pending destination takes. -/
def Pend.value (p : Pend) (t : Nat) : Nat := ((p.got.find? fun x => x.1 == t).map (·.2)).getD 0

/-- Error marks of a destination written with uncorrectable data (R189). -/
def Pend.marks (p : Pend) : List Mark :=
  match p.dst with
  | .v n nwb =>
    if nwb then []
    else p.bad.flatMap fun t => (List.range (p.ty.regw / 16)).map fun k => ⟨.v, t, n.toNat + k / 2, k % 2, true⟩
  | .s n =>
    if p.bad.isEmpty then [] else (List.range (max 64 p.ty.regw / 16)).map fun k => ⟨.s, 0, n.toNat + k / 4, k % 4, true⟩
  | _ => []

/-- The values of a pending destination are written: registers, latch places, marks (R41, R44, R189). -/
def Group.deliver (g : Group) (p : Pend) : Group :=
  let use : Option DstUse := some ⟨p.dst, .vs p.ty.regw⟩
  let g := g.mapThreads fun t th =>
    if inMask p.mask t then
      let th := th.write use [] (.bits (p.value t))
      match p.lat.find? fun x => x.1 == t with
      | some x => th.setLatch (th.lseq - x.2) (BitVec.ofNat 32 (p.value t))
      | none => th
    else th
  let g := g.write p.mask use p.ty.sfill (.bits (p.value (lowest p.mask)))
  { g with marks := p.marks ++ g.marks }

/-- A pending destination is written and is pending no more. -/
def Group.complete (g : Group) (p : Pend) : Group :=
  { g with pends := g.pends.filter fun q => q.id != p.id }.deliver p

/-- An instruction with a pending destination issues: last-use sources, a latch place for each thread, the threads move on
(R39, R44, R135). -/
def Group.startPend (g : Group) (i : Instr) (m moved : Mask) : Group :=
  let srcs := i.uses.srcs
  (releaseS srcs g).mapThreads fun t th =>
    let th := if inMask m t then
        let th := releaseV srcs th
        if i.latches then th.shiftLatch 0 else th
      else th
    if inMask moved t then th.step12 else th

def Group.latPlaces (g : Group) (i : Instr) (m : Mask) : List (Nat × Nat) :=
  if i.latches then (threadsOf m).map fun t => (t, (g.thread t).lseq) else []

/-! ## The bytes of a load -/

/-- The register value of loaded bytes (R193). -/
def loadValue (ty : Ty) (bs : List Byte) : Nat :=
  if ty.signed then wrap 32 (intOf ty (natOfBytes bs)) else natOfBytes bs

def sizeOf' (ty : Ty) : Nat := ty.width / 8

/-- The bytes a load has for a thread. -/
def LoadRec.bytes (r : LoadRec) (t n : Nat) : List Byte :=
  (List.range n).map fun k => ((r.got.find? fun x => x.1 == t && x.2.1 == k).map (·.2.2)).getD 0

/-- The pieces of a load that lie on a line and are not there yet. -/
def LoadRec.piecesOn (r : LoadRec) (line : Nat) : List Piece := r.pieces.filter fun p => lineOf p.pa == line

def LoadRec.addBytes (r : LoadRec) (p : Piece) (byte : Nat → Byte) : LoadRec :=
  let new := (List.range p.n).filter fun k => !(r.got.any fun x => x.1 == p.thr && x.2.1 == p.at_ + k)
  { r with got := r.got ++ new.map (fun k => (p.thr, p.at_ + k, byte (p.pa + k))) }

/-- The load takes data. -/
def LoadKind.fills : LoadKind → Bool
  | .data | .form | .stream _ => true
  | _ => false
/-- A read of a stream (R303). -/
def LoadKind.streams : LoadKind → Bool
  | .stream _ => true
  | _ => false
/-- A failure of its request is reported (R414, R247); a prefetch and a request for a remote copy report none. -/
def LoadKind.reports : LoadKind → Bool
  | .data | .form | .lease | .stream _ => true
  | _ => false

/-- A line's data reach the load. -/
def LoadRec.bind (r : LoadRec) (k : Nat) (line : Nat) (byte : Nat → Byte) (bad : Bool) : LoadRec :=
  let ps := r.piecesOn line
  let r := if r.kind.fills then ps.foldl (fun r p => r.addBytes p byte) r else r
  { r with lines := setAt r.lines k (fun q => { q with stat := .done })
           bad := if bad then dedup (r.bad ++ ps.map (·.thr)) else r.bad }

/-- Bytes of the value 0xFFCA_FE00. -/
def poisonByte (i : Nat) : Byte := BitVec.ofNat 8 (bitsOf poison32.toNat (8 * (i % 4)) 8)

/-- A request that failed gives poison and an error mark in every thread with a piece on the line (R414). -/
def LoadRec.fail (r : LoadRec) (k : Nat) (line : Nat) : LoadRec :=
  let ts := dedup ((r.piecesOn line).map (·.thr))
  { r with lines := setAt r.lines k (fun q => { q with stat := .done })
           got := (r.got.filter fun x => !ts.contains x.1) ++ (ts.flatMap fun t => (List.range 16).map fun i => (t, i, poisonByte i))
           bad := dedup (r.bad ++ ts), gone := dedup (r.gone ++ ts) }

/-- Poison for a destination whose access has failed, and for that of an atomic whose old value is unknown (R189, R414). -/
def poisonWide : Nat := natOfBytes ((List.range 16).map poisonByte)

def LoadRec.finished (r : LoadRec) : Bool := r.lines.all fun q => q.stat == .done

/-- A destination with the bytes of its load; that of a thread whose access has failed is poison of the register's width (R414). -/
def Pend.loaded (p : Pend) (r : LoadRec) : Pend :=
  { p with got := (if p.unif then [lowest p.mask] else threadsOf p.mask).map fun t =>
             (t, if r.gone.contains t then poisonWide % 2 ^ p.ty.regw else loadValue p.ty (r.bytes t (sizeOf' p.ty)))
           bad := r.bad }

/-- The bytes of a load of a form, thread by thread, and whether some are uncorrectable. -/
def LoadRec.formBytes (r : LoadRec) : List Byte × Bool :=
  ((dedup (r.pieces.map (·.thr))).flatMap fun t => r.bytes t (((r.pieces.filter fun p => p.thr == t).map (·.n)).sum), !r.bad.isEmpty)

/-- The next indices of a stream, level 0 fastest; none after the last entry (R301). -/
def Stream.advance (x : Stream) : Option Stream :=
  let rec go : Nat → List Nat → List Nat → Option (List Nat)
    | 0, _, _ => none
    | f + 1, i :: is, n :: ns => if i + 1 < n then some ((i + 1) :: is) else (go f is ns).map fun r => 0 :: r
    | _ + 1, _, _ => none
  (go 4 x.next x.trips).map fun n => { x with next := n }

/-- An element of a stream that reads as poison (R303). -/
def Stream.poison (x : Stream) : Nat := if x.w64 then poison64.toNat else poison32.toNat
/-- Bytes of an element. -/
def Stream.esize (x : Stream) : Nat := if x.w64 then 8 else 4

/-- An entry has been read: its elements, those that are uncorrectable; the queue ends after the last (R302, R303). -/
def OpQueue.push (q : OpQueue) (x : Stream) (elem : Nat → Nat) (bad : Mask) : OpQueue :=
  let q := { q with entries := q.entries ++ [((List.range 32).map fun t => if inMask q.poison t then x.poison else elem t, bad)], poison := 0 }
  match x.advance with
  | some x => { q with stream := some x }
  | none => { q with stream := none, ended := true }

/-- The entry that a stream's load has read. -/
def OpQueue.loaded (q : OpQueue) (r : LoadRec) : OpQueue :=
  match q.stream with
  | some x => q.push x (fun t => natOfBytes (r.bytes t x.esize)) (maskOf r.bad.contains)
  | none => q

/-- A load with all its lines: its destination is written, its form has its bytes, or its queue its entry, and the load is gone. -/
def Group.finishLoad (g : Group) (r : LoadRec) : Group :=
  if r.finished then
    let g := { g with loads := g.loads.filter fun q => q.id != r.id
                      formRead := if r.kind == LoadKind.form then some r.formBytes else g.formRead
                      queues := match r.kind with
                        | .stream qn => upd g.queues qn fun q => q.loaded r
                        | _ => g.queues }
    match g.pends.find? fun (p : Pend) => p.id == r.id with
    | none => g
    | some p => g.complete (p.loaded r)
  else { g with loads := g.loads.map fun q => if q.id = r.id then r else q }

/-! ## Own stores (R179) -/

/-- The unacknowledged parts of the group's stores and atomics with their place in program order. -/
def Group.openParts (g : Group) : List (Nat × SPart) :=
  (g.fly.flatMap fun f => f.parts.map fun p => (f.id, p)) ++ g.sbuf.flatMap fun e => e.parts.map fun p => (e.id, p)

/-- Unacknowledged parts lie on a line. -/
def Group.openOn (g : Group) (line : Nat) : Bool := g.openParts.any fun x => lineOf x.2.pa == line

/-- The thread's own latest unacknowledged write to a byte: nothing, an atomic, or the byte stored. -/
inductive Own where
  | none | atomic | byte (b : Byte)
  deriving DecidableEq, Repr

def Group.ownByte (g : Group) (t pa : Nat) : Own :=
  let ps := g.openParts.filter fun x => x.2.thr == t && x.2.pa ≤ pa && pa < x.2.pa + x.2.n
  match ps.foldl (fun (b : Option (Nat × SPart)) x =>
      match b with
      | none => some x
      | some y => if y.1 ≤ x.1 then some x else some y) Option.none with
  | none => .none
  | some (_, p) =>
    match p.op with
    | .store bs => .byte (bs.getD (pa - p.pa) 0)
    | .atom .. => .atomic

/-! ## Remote lines (R402, R404) -/

/-- Places that hold remote copies: a zone's parts of an L2 slice of a district, and of the proxy vaults. -/
def State.rDistrict (s : State) (d zn line : Nat) : Nat := keyAt (s.l2Loc d zn line) zn line
def rVault (zn line : Nat) : Nat := keyAt (4200 + swizzle (line % 2 ^ 33) % 4) zn line

/-- A usable copy of a remote line for a group. -/
def State.remoteCopy (s : State) (d zn line racq : Nat) : Option RCopy :=
  let ok := fun c : RCopy => decide (s.now < c.exp) && decide (racq ≤ c.ft)
  match (look s.rcopies (s.rDistrict d zn line)).filter ok with
  | some c => some c
  | none => (look s.rcopies (rVault zn line)).filter ok

def State.peerOf (s : State) (dev : Nat) : Peer := rget {} s.peers dev
/-- Requests to the device are sent (R399, R413). -/
def State.reachable (s : State) (dev : Nat) : Bool :=
  rget 0 s.routes dev != 0 && ((s.peerOf dev).live == .alive || (s.peerOf dev).live == .suspect)

/-- Send a request to another device or to the host. -/
def State.send (s : State) (r : Req) : State := { s with rout := put s.rout s.reqSeq r, reqSeq := s.reqSeq + 1 }

/-! ## Starting the lines of a load (R207) -/

/-- The progress of a load: the state, the load, the largest timestamp bound, the failures of requests not sent. -/
structure LoadRun where
  s    : State
  r    : LoadRec
  ts   : Nat := 0
  fail : List Report := []
  deriving DecidableEq, Repr

/-- What a load needs to know of its group; `behind`: the lines that earlier loads of the group still wait for. -/
structure LoadCtx where
  g     : Nat
  core  : Nat
  zn    : Nat
  racq  : Nat
  behind : List Nat
  deriving DecidableEq, Repr

def LoadRun.stat (x : LoadRun) (k : Nat) (st : LineStat) : LoadRun :=
  { x with r := { x.r with lines := setAt x.r.lines k fun q => { q with stat := st } } }

/-- Threads with a piece of the load on a line. -/
def LoadRec.threadsOn (r : LoadRec) (line : Nat) : Mask := maskOf fun t => (r.piecesOn line).any fun p => p.thr == t

/-- A remote line of a load (R402): a usable copy, else a request; a failure when it cannot be sent (R414). A load of an uncached
page (R180), and one behind an earlier load of the line (R225), takes no copy. -/
def LoadRun.remote (x : LoadRun) (c : LoadCtx) (k : Nat) (q : LineReq) : LoadRun :=
  let dev := paDevice (q.line * 128)
  match (if x.r.kind != .rlease && !q.leaf.unc && !c.behind.contains q.line then x.s.remoteCopy (c.core / 128) c.zn q.line c.racq else none) with
  | some cp => { x with r := x.r.bind k q.line (fun a => LineData.byte cp.data a) false }
  | none =>
    if x.s.reachable dev then
      let d := if x.r.kind == .rlease then q.n else 8000
      let exp := if x.s.timeGood then x.s.now + d else 0
      { x.stat k .ext with s := x.s.send ⟨.load c.g x.r.id k, dev, q.line, false, exp, x.s.now⟩ }
    else
      { x with r := x.r.fail k q.line
               fail := if x.r.kind.reports then x.fail ++ [⟨4, dev, x.r.threadsOn q.line⟩] else x.fail }

/-- The line's home lies in a chiplet that is not ACTIVE (R433). -/
def State.lineLost (s : State) (zn : Nat) (leaf : Leaf) (line : Nat) : Bool :=
  !s.isRemote line && !isRegLine line && s.homeLost (s.homeOf (s.zoneOf zn) leaf (line * 128))

/-- A lost line of a load (R433). -/
def LoadRun.lose (x : LoadRun) (k : Nat) (q : LineReq) : LoadRun :=
  { x with r := x.r.fail k q.line
           fail := if x.r.kind.reports then x.fail ++ [⟨6, x.s.devNum, x.r.threadsOn q.line⟩] else x.fail }

/-- Ask the host for a line (R419), after the requests that its home has accepted before (R400). -/
def LoadRun.askHost (x : LoadRun) (c : LoadCtx) (k : Nat) (q : LineReq) : LoadRun :=
  if x.s.lineQueued q.line then x.stat k .l2
  else { x.stat k .ext with s := x.s.send ⟨.load c.g x.r.id k, x.s.devNum, q.line, true, 0, x.s.now⟩ }

/-- Where a line absent from L1 goes: a fill when the district's slice can give the lease, else a grant. -/
def LoadRun.miss (x : LoadRun) (c : LoadCtx) (k : Nat) (q : LineReq) : LoadRun :=
  if isHostLine q.line && (x.s.getL2 (c.core / 128) c.zn q.line).isNone then x.askHost c k q
  else if (x.s.leaseSource c.zn (c.core / 128) q.leaf (x.s.homeOf (x.s.zoneOf c.zn) q.leaf (q.line * 128)) q.line x.r.p q.n).isSome
  then x.stat k .fill
  else x.stat k .l2

/-- One line of a load starts. -/
def LoadRun.start (x : LoadRun) (c : LoadCtx) (k : Nat) : LoadRun :=
  match x.r.lines[k]? with
  | none => x
  | some q =>
    if q.leaf.unc && (x.r.kind == .lease || x.r.kind == .pref) then x.stat k .done
    else if x.s.isRemote q.line then x.remote c k q
    else if x.r.kind == .rlease then x.stat k .done
    else if isRegLine q.line then x.stat k .home
    else if x.s.lineLost c.zn q.leaf q.line then x.lose k q
    else if q.leaf.unc then
      if isHostLine q.line then x.askHost c k q
      else x.stat k .home
    else
      let s := x.s.touchBase (l1Loc c.core) c.zn x.r.p
      let x := { x with s := s }
      match (if s.hasL1 c.core c.zn then s.getL1 c.core c.zn q.line else none) with
      | none => if c.behind.contains q.line && x.r.kind.fills then x.stat k .fill else x.miss c k q
      | some cp =>
        if x.r.kind == .pref then (if x.r.nl1 then x.miss c k q else x.stat k .done)
        else if c.behind.contains q.line && x.r.kind.fills then x.stat k .fill
        else if cp.xp = false ∧ x.r.p ≤ cp.rts ∧ x.r.kind.fills then
          { x with r := x.r.bind k q.line (fun a => LineData.byte cp.data a) cp.bad, ts := max x.ts (max x.r.p cp.wts) }
        else x.stat k .renew

/-- Every line of a load starts; what is sent has a place in the order of sending (R6, R12). -/
def LoadRun.startAll (x : LoadRun) (c : LoadCtx) : LoadRun :=
  let x := (List.range x.r.lines.length).foldl (fun x k => x.start c k) x
  if x.r.finished then x else { x with r := { x.r with at_ := x.s.uid }, s := { x.s with uid := x.s.uid + 1 } }

/-- The failures of requests that could not be sent are logged (R414, R436). -/
def LoadRun.logged (x : LoadRun) (zn : Nat) : LoadRun :=
  { x with s := x.fail.foldl (fun (s : State) (f : Report) => if f.kind = 4 then s.logError 3 none f.dev zn 0 else s) x.s }

/-- Lines that loads of the group still wait for; a stream's reads are ordered by no later instruction (R303). -/
def Group.openLines (g : Group) : List Nat := g.loads.flatMap fun r => if r.kind.fills && !r.kind.streams then (r.lines.filter fun q => q.stat != .done).map (·.line) else []

/-- What a load of the issuing group needs to know. -/
def View.lineCtx (w : View) : LoadCtx := ⟨w.u, w.tm.core, w.cx.zone, w.g.racq, w.g.openLines⟩

/-! ## Issuing a load -/

/-- A load of the group waits for requests accepted before its acquire (R406). -/
def View.facqWaits (w : View) : Bool :=
  match w.g.facq with
  | some n => w.s.held.any fun h => decide (h.1 < n)
  | none => false

/-- A load must wait for an unacknowledged atomic of the same thread (R179), or for earlier entries to the same device
registers (R29, R180). -/
def View.loadBlocked (w : View) (accs : List ThreadAcc) : Bool :=
  accs.any fun a => a.pcs.any fun p =>
    if isRegLine (lineOf p.pa) && !w.s.isRemote (lineOf p.pa) then w.g.openParts.any fun x => isRegLine (lineOf x.2.pa)
    else if p.leaf.unc && w.g.openParts.any (fun x => x.2.thr == a.thr && x.2.leaf.unc) then true
    else (List.range p.n).any fun k => (look w.g.pdirty (p.pa + k)).isNone && w.g.ownByte a.thr (p.pa + k) == .atomic

/-- The group's own latest byte at an address that no home has yet: dirty in L1, or in a store of the thread (R174, R179). No line has
both (`View.privBehind`, `State.cleanLines`). -/
def View.ownNow (w : View) (t pa : Nat) : Option Byte :=
  match look w.g.pdirty pa with
  | some b => some b
  | none =>
    match w.g.ownByte t pa with
    | .byte b => some b
    | _ => none

/-- The bytes that need no line: scratchpad, private, the thread's own stores. -/
def View.readyBytes (w : View) (a : ThreadAcc) : List (Nat × Nat × Byte) :=
  match a.tgt with
  | .scr team off =>
    match look w.s.teams team with
    | some tm => (tm.scrBytes off a.n).mapIdx fun k b => (a.thr, k, b)
    | none => []
  | .priv _ => a.pcs.flatMap fun p => (List.range p.n).map fun k => (a.thr, p.at_ + k, (w.ownNow a.thr (p.pa + k)).getD (w.privByte (p.pa + k)))
  | .glob _ => a.pcs.flatMap fun p => (List.range p.n).filterMap fun k => (w.ownNow a.thr (p.pa + k)).map fun b => (a.thr, p.at_ + k, b)

/-- Threads whose private or scratchpad data are uncorrectable. -/
def View.badPriv (w : View) (accs : List ThreadAcc) : List Nat :=
  (accs.filter fun a =>
    match a.tgt with
    | .priv _ => a.pcs.any fun p => w.s.badLine (lineOf p.pa)
    | .scr team off =>
      match look w.s.teams team with
      | some tm => tm.scrbad.any fun h => off / 2 ≤ h && h ≤ (off + a.n - 1) / 2
      | none => false
    | .glob _ => false).map (·.thr)

/-- Threads whose private line is lost (R433). -/
def View.privGone (w : View) (accs : List ThreadAcc) : List Nat :=
  (accs.filter fun a => match a.tgt with
    | .priv _ => a.pcs.any fun p => w.s.lineLost w.cx.zone p.leaf (lineOf p.pa)
    | _ => false).map (·.thr)

/-- The lines of the global pieces whose bytes are not all there. -/
def neededLines (accs : List ThreadAcc) (got : List (Nat × Nat × Byte)) : List LineReq :=
  let ps := accs.flatMap fun a => if a.tgt matches Tgt.glob _ then a.pcs else []
  let need := ps.filter fun p => (List.range p.n).any fun k => !(got.any fun x => x.1 == p.thr && x.2.1 == p.at_ + k)
  (dedup (need.map fun p => lineOf p.pa)).filterMap fun l =>
    (need.find? fun p => lineOf p.pa == l).map fun p => { line := l, leaf := p.leaf, stat := .l2 }

/-- The largest stamp of the scratchpad lines read (R226). -/
def View.scrStamp (w : View) (accs : List ThreadAcc) : Nat :=
  accs.foldl (fun s a =>
    match a.tgt with
    | .scr team off =>
      match look w.s.teams team with
      | some tm => max s (max (tm.stampOf off) (tm.stampOf (off + a.n - 1)))
      | none => s
    | _ => s) 0

/-- A load's threads, once every check is passed: what is there is taken, the other lines start, and the destination is
written when the last line has arrived. -/
def View.runLoad (w : View) (i : Instr) (m : Mask) (ty : Ty) (nl1 : Bool) (kind : LoadKind) (accs : List ThreadAcc) : Out :=
  if w.away accs then .next (w.hold .away)
  else if kind == .data && w.loadBlocked accs then .next (w.hold .again)
  else
    let id := w.g.seq
    let gone := if kind == .data then w.privGone accs else []
    let got := if kind == .data then
        ((accs.filter fun a => !gone.contains a.thr).flatMap w.readyBytes)
          ++ gone.flatMap fun t => (List.range 16).map fun i => (t, i, poisonByte i)
      else []
    let glob := accs.any fun a => a.tgt matches Tgt.glob _
    let rec0 : LoadRec :=
      { id := id, kind := kind, ty := ty, nl1 := nl1, p := w.g.pts
        pieces := accs.flatMap fun a => if a.tgt matches Tgt.glob _ then a.pcs.map fun p => ⟨p.thr, p.at_, p.pa, p.n⟩ else []
        got := got, bad := dedup (w.badPriv accs ++ gone), gone := gone, lines := neededLines accs got }
    let x := LoadRun.startAll { s := w.s, r := rec0 } w.lineCtx
    let x := if gone.isEmpty then x else { x with fail := ⟨6, w.s.devNum, maskOf fun t => gone.contains t⟩ :: x.fail }
    let x := x.logged w.cx.zone
    let g := w.g.startPend i m w.sel
    let x := if x.r.bad.isEmpty then x else { x with s := x.s.logError 2 (some w.tm.district) 0xFFFF w.cx.zone 0 }
    let pend : List Pend := match i.uses.dst with
      | some d => [{ id := id, dst := d.dst, ty := ty, unif := i.uses.uniform, mask := m, lat := g.latPlaces i m }]
      | none => []
    let g := { g with seq := id + 1, reports := g.reports ++ x.fail
                      lmax := max g.lmax (max x.ts (w.scrStamp accs)), winLoad := g.winLoad || (glob && kind == LoadKind.data) }
    let g := if x.r.finished then pend.foldl (fun g p => g.deliver (p.loaded x.r)) g
      else { g with pends := g.pends ++ pend, loads := g.loads ++ [x.r] }
    let when_ : DoneWhen := if x.r.finished then .now else if pend.isEmpty then .load id else .pend id
    .next (x.s.issued w.u i.uses.ctl w.halting (w.track i 0 when_ g))

/-- A load that a form of the group makes before it acts (R249, R319): checked and ordered as a load of the group. The form waits as
for a load miss (R23) and then goes on with the bytes, and whether they are uncorrectable. -/
def View.readForm (w : View) (accs : List ThreadAcc) (k : View → List Byte → Bool → Out) : Out :=
  match w.g.formRead with
  | some (bs, bad) => k { w with g := { w.g with formRead := none } } bs bad
  | none =>
    if w.g.loads.any fun r => r.kind == .form then .next (w.hold .away)
    else if w.loadBlocked accs then .next (w.hold .again)
    else
      let got := accs.flatMap w.readyBytes
      let rec0 : LoadRec :=
        { id := w.g.seq, kind := .form, ty := .b128, nl1 := false, p := w.g.pts, got := got, bad := [], lines := neededLines accs got
          pieces := accs.flatMap fun a => a.pcs.map fun p => ⟨p.thr, p.at_, p.pa, p.n⟩ }
      let x := (LoadRun.startAll { s := w.s, r := rec0 } w.lineCtx).logged w.cx.zone
      let s := x.s
      let g := { w.g with seq := w.g.seq + 1, reports := w.g.reports ++ x.fail, lmax := max w.g.lmax x.ts, winLoad := true }
      if x.r.finished then k { w with s := s, g := g } x.r.formBytes.1 x.r.formBytes.2
      else .next ({ w with s := s, g := { g with loads := g.loads ++ [x.r] } }.hold .away)

end Sys2Proof.Machine
end

