-- ==== Sys2Proof/Machine/MemoryAccess.lean ====
section
/-!
DEFINITION. Class 0x5: loads, stores, prefetch, private write-back, operand queues and team FIFOs (R192 to R200).
-/

namespace Sys2Proof.Machine

/-! ## Stores -/

/-- The parts of a store's threads that go to the store buffer. -/
def globParts (accs : List ThreadAcc) (op : Nat → TPiece → SOp) : List SPart :=
  accs.flatMap fun a =>
    match a.tgt with
    | .glob _ => a.pcs.map fun p => { va := p.va, thr := a.thr, pa := p.pa, n := p.n, leaf := p.leaf, op := op a.thr p }
    | _ => []

/-- The bytes of a thread's datum that a piece stores. -/
def storePiece (data : Nat → List Byte) (t : Nat) (p : TPiece) : SOp := .store (((data t).drop p.at_).take p.n)

def isGlob (a : ThreadAcc) : Bool := a.tgt matches Tgt.glob _
def isScr (a : ThreadAcc) : Bool := a.tgt matches Tgt.scr _ _
def isPriv (a : ThreadAcc) : Bool := a.tgt matches Tgt.priv _

/-- The scratchpad accesses of a store that the cluster holds (R176, R178). -/
def View.heldAccs (w : View) (accs : List ThreadAcc) : List ThreadAcc :=
  accs.filter fun a => match a.tgt with
    | .scr k _ => w.s.heldFor w.g k
    | _ => false

/-- Scratchpad bytes written in ascending thread order (R196). -/
def scratchStores (accs : List ThreadAcc) (data : Nat → List Byte) (pts : Nat) (s : State) : State :=
  accs.foldl (fun s a =>
    match a.tgt with
    | .scr team off => s.updTeam team fun tm => tm.scrWrite off (data a.thr) pts
    | _ => s) s

/-- The held ones among them. -/
def View.heldStores (w : View) (accs : List ThreadAcc) (data : Nat → List Byte) : List CluStore :=
  (w.heldAccs accs).filterMap fun a => match a.tgt with
    | .scr k off => some { id := w.g.seq, team := k, off := off, bytes := data a.thr, pts := w.g.pts }
    | _ => none

/-- A private write waits for the group's own unacknowledged stores to its lines, so that no later write-back overtakes them (R179). -/
def View.privBehind (w : View) (accs : List ThreadAcc) : Bool := accs.any fun a => isPriv a && a.pcs.any fun p => w.g.openOn (lineOf p.pa)

/-- Before a global store or atomic enters the buffer, dirty private bytes of its lines, which are older, go home (R174, R179). -/
def View.clean (w : View) (accs : List ThreadAcc) : View :=
  let ls := (accs.filter isGlob).flatMap fun a => a.pcs.map fun p => lineOf p.pa
  if w.g.pdirty.any fun b => ls.contains (lineOf b.1) then
    let (s, g) := w.s.writeBack w.cx.zone w.g fun l => ls.contains l
    { w with s := s, g := g }
  else w

/-- A report of threads whose private lines are lost (R433). -/
def View.goneReport (w : View) (m : Mask) : List Report := if m = 0 then [] else [⟨6, w.s.devNum, m⟩]

/-- Private bytes written in ascending thread order (R170, R174); a lost line takes none (R433). The race check of a private line records the group's clock as the
write's timestamp: a private write has none of its own (DESIGN CHOICE, log 89). -/
def View.privStores (w : View) (accs : List ThreadAcc) (data : Nat → List Byte) (s : State) (g : Group) : State × Group :=
  if !accs.any isPriv then (s, g)
  else
    let s := accs.foldl (fun s a =>
      match a.tgt with
      | .priv _ => if a.pcs.any fun p => w.s.lineLost w.cx.zone p.leaf (lineOf p.pa) then s else a.pcs.foldl (fun (s : State) p =>
          (s.privStore w.u w.tm.core w.cx.zone p (((data a.thr).drop p.at_).take p.n)).raceStamp w.cx.zone (lineOf p.pa) g.team g.pts) s
      | _ => s) { s with groups := put s.groups w.u g }
    (s, (look s.groups w.u).getD g)

/-- A store or an atomic clears the pausing flag of the threads that execute it (R150). -/
def Group.unpause (g : Group) (m : Mask) : Group :=
  g.mapThreads fun t th => if inMask m t then { th with pausing := false } else th

/-- A store's threads, once every check is passed (R177, R179, R196, R215, R223). What goes to a team that is away is held at the
cluster, and the instruction completes (R176, R200). -/
def View.runStore (w : View) (i : Instr) (m : Mask) (accs : List ThreadAcc) (data : Nat → List Byte) : Out :=
  if accs.any isScr && w.g.releasePending then .next (w.hold .again)
  else if (accs.any isGlob && 16 ≤ w.g.sbuf.length) || w.privBehind accs then .next (w.hold .again)
  else
    let w := w.clean accs
    let held := w.heldAccs accs
    let s := scratchStores (accs.filter fun a => !held.contains a) data w.g.pts w.s
    let (s, g) := w.privStores accs data s w.g
    let parts := globParts accs (storePiece data)
    let entry : List SEntry := if parts.isEmpty then [] else [{ id := g.seq, parts := parts, sem := .rlx, scope := .dev }]
    let g := { (g.startPend i m w.sel).unpause m with
      reports := g.reports ++ w.goneReport (maskOf fun t => (w.privGone accs).contains t)
      seq := g.seq + 1, sbuf := g.sbuf ++ entry, cluOut := g.cluOut ++ w.heldStores accs data }
    .next (s.issued w.u i.uses.ctl w.halting (w.track i 0 .now g))

/-- The bytes a thread stores: the low bytes of its source. -/
def View.storeBytes (w : View) (ty : Ty) (c : Src) (t : Nat) : List Byte := bytesOf (ty.width / 8) (w.rd ty c t)

/-! ## Loads and stores by space (R193, R195) -/

def loadOp (i : Instr) (s : State) (x : Ld) (acc : Acc) (race : Bool) (addr : View → Nat → AddrOut) : Out :=
  issue i s fun w m =>
    w.access i.uses m (x.ty.width / 8) acc (addr w) fun accs =>
      let go := fun (w : View) => w.runLoad i m x.ty (x.var && acc == .load) .data accs
      if race then w.raced i.uses m accs false go else go w

def storeOp (i : Instr) (s : State) (x : St) (acc : Acc) (addr : View → Nat → AddrOut) : Out :=
  issue i s fun w m =>
    w.access i.uses m (x.ty.width / 8) acc (addr w) fun accs =>
      w.raced i.uses m accs true fun w => w.runStore i m accs (w.storeBytes x.ty x.c)

def View.globalOf (w : View) (ad : Addr) (n : Nat) (win aligned : Bool) (t : Nat) : AddrOut :=
  w.wideAddr (w.n128 ad.a t) (w.delta ad n t) n win aligned
def View.offsetOf (w : View) (ad : Addr) (n t : Nat) : Int := (w.n32 ad.a t : Int) + w.delta ad n t
def View.scratchOf (w : View) (ad : Addr) (pe : Bool) (n t : Nat) : AddrOut :=
  if pe then w.peAddr ((w.n64 ad.a t : Int) + w.delta ad n t) n
  else scratchAddr w.g.team w.tm (w.offsetOf ad n t) n true

def execLd (x : Ld) (s : State) : Out :=
  loadOp (.ld x) s x .load true fun w t => w.globalOf x.ad (x.ty.width / 8) false true t
def execLdun (x : Ld) (s : State) : Out :=
  loadOp (.ldun x) s x .load true fun w t => w.globalOf x.ad (x.ty.width / 8) false false t
def execLdx (x : Ld) (s : State) : Out :=
  loadOp (.ldx x) s x .load true fun w t => w.globalOf x.ad (x.ty.width / 8) true true t
def execLds (x : Ld) (s : State) : Out :=
  loadOp (.lds x) s x .load false fun w t => w.scratchOf x.ad x.var (x.ty.width / 8) t
def execLdp (x : Ld) (s : State) : Out :=
  loadOp (.ldp x) s x .privLoad true fun w t => w.privAddr (w.offsetOf x.ad (x.ty.width / 8) t) (x.ty.width / 8)
def execSt (x : St) (s : State) : Out :=
  storeOp (.st x) s x .store fun w t => w.globalOf x.ad (x.ty.width / 8) false true t
def execStx (x : St) (s : State) : Out :=
  storeOp (.stx x) s x .store fun w t => w.globalOf x.ad (x.ty.width / 8) true true t
def execSts (x : St) (s : State) : Out :=
  storeOp (.sts x) s x .store fun w t => w.scratchOf x.ad x.var (x.ty.width / 8) t
def execStp (x : St) (s : State) : Out :=
  storeOp (.stp x) s x .privStore fun w t => w.privAddr (w.offsetOf x.ad (x.ty.width / 8) t) (x.ty.width / 8)

/-! ## MCST (R178) -/

/-- Ranks a mask names. -/
def ranksOf (mask : Nat) : List Nat := (List.range 128).filter mask.testBit

def View.mcstAddr (w : View) (x : Mcst) (n t : Nat) : AddrOut :=
  let off : Int := (w.n32 x.a t : Int) + x.off.toInt * n
  let bad := (ranksOf (w.n128 x.m t)).filter fun r => w.peers ≤ r
  let base := scratchAddr w.g.team w.tm off n true
  { base with chks := base.chks ++ (match bad with
      | [] => []
      | r :: _ => [chkPeer r]) }

def execMcst (x : Mcst) (s : State) : Out :=
  issue (.mcst x) s fun w m =>
    let n := x.ty.width / 8
    w.access (Instr.mcst x).uses m n .store (w.mcstAddr x n) fun accs =>
      let targets := accs.flatMap fun a => (ranksOf (w.n128 x.m a.thr)).filterMap fun r =>
        (w.peer r).map fun p => { a with tgt := .scr p.1 (match a.tgt with
          | .scr _ off => off
          | _ => 0) }
      w.runStore (.mcst x) m targets (w.storeBytes x.ty x.c)

/-! ## LDC (R167, R193) -/

/-- A byte of a constant bank; a negative offset names no byte of the bank, and the spec gives no value for it: a free
value (log entry 10). -/
def View.constByte (w : View) (bank : Nat) (off : Int) (fresh : Nat) : Byte :=
  if off < 0 then Config.freeByte (w.s.nfree + fresh)
  else
    match look w.tm.banks bank with
    | some b => if off.toNat < b.size then readByte b.bytes off.toNat else 0
    | none => 0

def View.ldcOffset (w : View) (x : Ldc) (n t : Nat) : Int :=
  (w.n32 x.a t : Int) + (if x.ixu then (w.n32 x.b t : Int) else w.int .i32 x.b t) * 2 ^ x.scale.toNat + x.off.toInt * n

def execLdc (x : Ldc) (s : State) : Out :=
  issue (.ldc x) s fun w m =>
    let i := Instr.ldc x
    let n := x.ty.width / 8
    let ts := lanes i.uses m
    let off := fun t : Nat => w.ldcOffset x n t
    let whole := fun bad : Mask => if i.uses.uniform then m else bad
    match firstChk ((ts.filter fun t => off t % n ≠ 0).map fun t => (t, chkAlign (low64 (off t)))) with
    | some (code, bad, info) => .next (w.trapHere code (whole bad) info)
    | none =>
      let out := fun t : Nat => LaneOut.bits (natOfBytes ((List.range n).map fun k : Nat =>
        w.constByte x.bank.toNat (off t + (k : Int)) (16 * t + k)))
      let s' := w.finish i m x.ty.sfill out
      .next (if ts.any fun t => off t < 0 then { s' with nfree := s'.nfree + 512 } else s')

/-! ## PREF and WBP (R197) -/

/-- A prefetch goes to the lines of the threads whose addresses pass every check; it holds nothing and completes at issue. -/
def execPref (x : Pref) (s : State) : Out :=
  issue (.pref x) s fun w m =>
    let vas := (threadsOf m).filterMap fun t => match w.globalOf x.ad 1 false true t with
      | ⟨[], .glob va⟩ => some va
      | _ => none
    if w.walkBehind .load vas then .next (w.hold .again) else
    let w := { w with s := w.installQuiet .load vas }
    let ok := (threadsOf m).filterMap fun t =>
      let r := w.globalOf x.ad 1 false true t
      match r.chks, r.tgt with
      | [], .glob va =>
        match w.translateQuiet va .load with
        | some (pa, leaf) =>
          if w.s.refusedPa leaf pa || leaf.unc || (!w.s.isRemote (lineOf pa) && isRegLine (lineOf pa)) then none
          else some ({ line := lineOf pa, leaf := leaf, stat := .l2 } : LineReq)
        | none => none
      | _, _ => none
    let lines := (dedup (ok.map (·.line))).filterMap fun l => ok.find? fun q => q.line == l
    let rec0 : LoadRec :=
      { id := w.g.seq, kind := .pref, ty := .b8, nl1 := x.l2, p := w.g.pts, pieces := [], got := [], bad := [], lines := lines }
    let y := LoadRun.startAll { s := w.s, r := rec0 } w.lineCtx
    let g := (w.g.startPend (.pref x) m w.sel)
    let g := { g with seq := g.seq + 1, loads := if y.r.finished then g.loads else g.loads ++ [y.r] }
    .next (y.s.issued w.u x.ctl w.halting (w.track (.pref x) 0 .now g))

/-- A dirty private line whose home is lost (R433): its write-back is a store that fails. -/
def View.dirtyGone (w : View) (line : Nat) : Bool :=
  match look w.g.pleaf line with
  | some leaf => w.s.lineLost w.cx.zone leaf line
  | none => false

def execWbp (x : Wbp) (s : State) : Out :=
  issue (.wbp x) s fun w m =>
    w.access (Instr.wbp x).uses m 4 .privStore (fun t => w.privAddr (w.offsetOf x.ad 4 t) 4) fun accs =>
      let lines := accs.flatMap fun a => a.pcs.map fun p => lineOf p.pa
      let gone := maskOf fun t => accs.any fun a => a.thr == t && a.pcs.any fun p => w.dirtyGone (lineOf p.pa)
      let (s, g) := w.s.writeBack w.cx.zone (w.g.startPend (.wbp x) m w.sel) fun l => lines.contains l
      .next (s.issued w.u x.ctl w.halting (w.track (.wbp x) 0 .now { g with reports := g.reports ++ w.goneReport gone }))

def execWbpAll (x : CtlOnly) (s : State) : Out :=
  issue (.wbpAll x) s fun w m =>
    let gone := if w.g.pleaf.any fun l => w.dirtyGone l.1 then m else 0
    let (s, g) := w.s.writeBack w.cx.zone (w.g.startPend (.wbpAll x) m w.sel) fun _ => true
    .next (s.issued w.u x.ctl w.halting (w.track (.wbpAll x) 0 .now { g with reports := g.reports ++ w.goneReport gone }))

/-! ## Operand queues and FIFOs (R190, R191, R198) -/

/-- The value a pop writes when there is no element (R198). -/
def poisonOf (ty : Ty) : Nat := if ty.width = 64 then poison64.toNat else poison32.toNat

/-- Results of a pop: an element for each thread with its valid bit. -/
def popOut (ty : Ty) (elem : Nat → Option Nat) (t : Nat) : LaneOut :=
  match elem t with
  | some v => { d := v % 2 ^ ty.width, p := true }
  | none => { d := poisonOf ty, p := false }

/-- Memory-error marks that a pop carries into its destination (R303). -/
def popMarks (d : Dst) (bad : Mask) (ty : Ty) : List Mark :=
  match d with
  | .v n nwb =>
    if nwb then []
    else (threadsOf bad).flatMap fun t => (List.range (ty.regw / 16)).map fun k => ⟨.v, t, n.toNat + k / 2, k % 2, true⟩
  | .s n => if bad = 0 then [] else (List.range 4).map fun k => ⟨.s, 0, n.toNat, k, true⟩
  | _ => []

/-- QPOP and QPEEK (R198, R303): a stopped stream's problem is acted on when its entry is reached. -/
def queueOp (i : Instr) (x : Qpop) (pop : Bool) (s : State) : Out :=
  issue i s fun w m =>
    let q := rget {} w.g.queues x.n.toNat
    match q.entries with
    | [] =>
      match q.stop with
      | some (.trap code mask info) =>
        let g := { w.g with queues := put w.g.queues x.n.toNat { q with stop := none, poison := q.poison ||| mask } }
        .next ({ w with g := g }.trapHere code mask info)
      | some (.fault r entry) =>
        let g := { w.g with wait := .parked w.s.curPc r entry, issuedAs := some w.asIssued }
        .next (w.s.setGroup w.u (if g.slot.isSome then g.leaveSlot none else g))
      | none => if q.ended then .next (w.finish i m false (popOut x.ty fun _ => none)) else .next (w.hold .kept)
    | e :: rest =>
      let out := popOut x.ty fun t => some (e.1.getD t 0)
      let g := results i m w.sel false out w.g
      let g := { g with marks := popMarks x.d (m &&& e.2) x.ty ++ g.marks }
      let over_ := rest.isEmpty && q.ended
      let q' := { q with entries := rest, chan := if over_ then none else q.chan, waits := q.waits && !over_ }
      let g := if pop then { g with queues := put g.queues x.n.toNat q' } else g
      .next (w.s.issued w.u x.ctl w.halting (w.track i 0 .now g))

def execQpop (x : Qpop) (s : State) : Out := queueOp (.qpop x) x true s
def execQpeek (x : Qpop) (s : State) : Out := queueOp (.qpeek x) x false s

/-- Entries of a FIFO in use: a 64-bit push takes two. -/
def fifoUsed (es : List FifoE) : Nat := es.foldl (fun n e => n + if e.wide then 2 else 1) 0

/-- FPUSH (R198, R223, R226): a release at team scope; the entry carries the pusher's clock. -/
def execFpush (x : Fpush) (s : State) : Out :=
  issue (.fpush x) s fun w m =>
    let n := x.n.toNat
    if w.tm.fifoN ≤ n then .next (w.trapHere 0x14 m n)
    else
      let es := rget [] w.tm.fifos n
      let wide := x.ty.width == 64
      if 128 < fifoUsed es + (if wide then 2 else 1) || !w.g.quiet .team || w.g.releasePending then .next (w.hold .kept)
      else
        let e : FifoE := { valid := m, elems := (List.range 32).map fun t => if inMask m t then w.rd x.ty x.c t else 0
                           wide := wide, stamp := w.g.pts }
        let g := (w.g.startPend (.fpush x) m w.sel).addRelease .team
        let s := w.s.updTeam w.g.team fun tm => { tm with fifos := put tm.fifos n (es ++ [e]) }
        .next (s.issued w.u x.ctl w.halting (w.track (.fpush x) 0 .now g))

/-- The two entries of a 64-bit push, as one. -/
def fifoJoin (e : FifoE) (rest : List FifoE) : FifoE × List FifoE :=
  match rest with
  | f :: rest =>
    if f.raw then ({ e with elems := (List.range 32).map fun t => e.elems.getD t 0 + 2 ^ 32 * f.elems.getD t 0 }, rest) else (e, f :: rest)
  | [] => (e, [])

/-- FPOP (R198, R222, R226): an acquire at team scope through the entry's stamp. R198 gives a pop of another width than the push only
for queues; the model does the same for FIFOs: a .b32 pop takes the low word of a 64-bit element and removes the whole push, a .b64
pop of a 32-bit push reads it zero-extended (DESIGN CHOICE, log 90). -/
def execFpop (x : Fpop) (s : State) : Out :=
  issue (.fpop x) s fun w m =>
    let n := x.n.toNat
    if w.tm.fifoN ≤ n then .next (w.trapHere 0x14 m n)
    else
      match rget [] w.tm.fifos n with
      | [] => .next (w.hold .kept)
      | e :: rest =>
        if !w.g.reads.isEmpty then .next (w.hold .kept)
        else
          let (e, rest) := if e.raw && x.ty.width == 64 then fifoJoin e rest else (e, rest)
          let out := popOut x.ty fun t => if inMask e.valid t then some (e.elems.getD t 0) else none
          let g := results (.fpop x) m w.sel false out w.g
          let lmax := max g.lmax e.stamp
          let g := { g with lmax := lmax, pts := max g.pts lmax }
          let s := w.s.updTeam w.g.team fun tm => { tm with fifos := put tm.fifos n rest }
          .next (s.issued w.u x.ctl w.halting (w.track (.fpop x) 0 .now g))

end Sys2Proof.Machine
end

