-- ==== Sys2Proof/Machine/Shapes.lean ====
section
/-!
DEFINITION. Shape records (R284) and the lines of an object's tiles (R231).
-/

namespace Sys2Proof.Machine

/-- A shape record. -/
structure Shape where
  va     : VA
  ty     : Ty
  planes : Bool
  pln    : Nat
  d0     : Nat
  d1     : Nat
  d2     : Nat
  s1     : Nat
  s2     : Nat
  t0     : Nat
  t1     : Nat
  t2     : Nat
  spoff  : Nat
  swoff  : Nat
  deriving DecidableEq, Repr

/-- Limits of R284. -/
def Shape.ok (x : Shape) : Bool :=
  x.ty != .b128 && decide (x.va.toNat / 2 ^ 64 ≤ 0xFE)
    && (if x.planes then planesOk x.ty x.pln else x.pln == 0)
    && decide (1 ≤ x.d0 ∧ x.d0 ≤ 2 ^ 24 ∧ 1 ≤ x.d1 ∧ x.d1 ≤ 2 ^ 24 ∧ 1 ≤ x.d2 ∧ x.d2 ≤ 2 ^ 16)
    && decide (x.d0 * x.ty.container ≤ 8 * x.s1 ∧ x.d1 * x.s1 ≤ x.s2)
    && decide (1 ≤ x.t0 ∧ 1 ≤ x.t1 ∧ 1 ≤ x.t2 ∧ x.d0 % x.t0 = 0 ∧ x.d1 % x.t1 = 0 ∧ x.d2 % x.t2 = 0)
    && decide (x.t0 * x.ty.container % 8 = 0)

/-- Read a record; none when a field lies outside its limits. `input`: SPOFF and SWOFF count too. -/
def Shape.read (bs : List Byte) (input : Bool) : Option Shape :=
  match Ty.ofCode (BitVec.ofNat 5 (fieldOf bs 0x09 1)) with
  | none => none
  | some ty =>
    let x : Shape :=
      { va := BitVec.ofNat 72 (fieldOf bs 0 8 + 2 ^ 64 * fieldOf bs 8 1), ty := ty, planes := (fieldOf bs 0x0A 1).testBit 0
        pln := fieldOf bs 0x0B 1, d0 := fieldOf bs 0x0C 4, d1 := fieldOf bs 0x10 4, d2 := fieldOf bs 0x14 4
        s1 := fieldOf bs 0x18 8, s2 := fieldOf bs 0x20 8, t0 := fieldOf bs 0x28 4, t1 := fieldOf bs 0x2C 4
        t2 := fieldOf bs 0x30 4, spoff := fieldOf bs 0x34 4, swoff := fieldOf bs 0x38 4 }
    if decide (32 ≤ fieldOf bs 0x09 1) || decide (1 < fieldOf bs 0x0A 1) || fieldOf bs 0x3C 4 != 0 || !x.ok then none
    else if input && (x.spoff % 128 != 0 || (x.swoff != 0xFFFFFFFF && x.swoff % 16 != 0)) then none
    else some x

/-- Tiles along each dimension, and their number. -/
def Shape.n0 (x : Shape) : Nat := x.d0 / x.t0
def Shape.n1 (x : Shape) : Nat := x.d1 / x.t1
def Shape.n2 (x : Shape) : Nat := x.d2 / x.t2
def Shape.ntile (x : Shape) : Nat := x.n0 * x.n1 * x.n2

/-- Bytes of one tile row. -/
def Shape.rowBytes (x : Shape) : Nat := x.t0 * x.ty.container / 8

/-- The VA of the rows of a tile: y fastest, then z. -/
def Shape.rows (x : Shape) (tile : Nat) : List VA :=
  let a := tile % x.n0
  let b := tile / x.n0 % x.n1
  let d := tile / x.n0 / x.n1
  (List.range x.t2).flatMap fun z => (List.range x.t1).map fun y =>
    x.va + BitVec.ofNat 72 ((d * x.t2 + z) * x.s2 + (b * x.t1 + y) * x.s1 + a * x.t0 * x.ty.container / 8)

/-- Every tile row starts on a line and spans whole lines (R231). -/
def Shape.lineRows (x : Shape) : Bool :=
  x.rowBytes % 128 == 0 && x.va.toNat % 128 == 0 && (x.n1 * x.t1 == 1 || x.s1 % 128 == 0) && (x.d2 == 1 || x.s2 % 128 == 0)

/-- Lines of a tile (R231). -/
def Shape.tileLines (x : Shape) : Nat := x.t1 * x.t2 * (x.rowBytes / 128)

/-- The virtual lines of a tile. -/
def Shape.lineVas (x : Shape) (tile : Nat) : List VA :=
  (x.rows tile).flatMap fun va => (List.range (x.rowBytes / 128)).map fun k => va + BitVec.ofNat 72 (128 * k)

end Sys2Proof.Machine
end

