-- ==== Sys2Proof/Machine/Atomics.lean ====
section
/-!
DEFINITION. Class 0x6: atomics, fences, promotion, leases, synchronisation words, coherence objects (R230, R231, R235 to
R250).
-/

namespace Sys2Proof.Machine

def Sem.isAcq : Sem → Bool
  | .acq | .ar => true
  | _ => false
def Sem.isRel : Sem → Bool
  | .rel | .ar => true
  | _ => false

/-- What an acquire does to the clocks (R217, R222), with a timestamp of its own. -/
def Group.acquire (g : Group) (scope : Scope) (ts : Nat) : Group :=
  if scope == .grp then g
  else
    let p := max g.pts (max g.lmax ts)
    { g with pts := p, ah := if Scope.wide scope then p else g.ah }

/-! ## Atomics (R243) -/

/-- One local atomic: scratchpad bytes at the bank, private bytes in L1. -/
structure LocalRun where
  s   : State
  g   : Group
  old : List (Nat × Nat) := []
  ts  : Nat := 0
  /-- Threads whose old value is uncorrectable, and those whose line is lost (R189, R433). -/
  bad  : List Nat := []
  gone : List Nat := []
  deriving DecidableEq, Repr

/-- The old value of a thread; poison when it is uncorrectable. -/
def LocalRun.note (x : LocalRun) (a : ThreadAcc) (old : Nat) (bad : Bool) : LocalRun :=
  { x with old := x.old ++ [(a.thr, if bad then poisonWide % 2 ^ (8 * a.n) else old)], bad := if bad then x.bad ++ [a.thr] else x.bad }

/-- Scratchpad data with a memory-error mark. -/
def Team.scrBad (tm : Team) (off n : Nat) : Bool := tm.scrbad.any fun h => off / 2 ≤ h && h ≤ (off + n - 1) / 2

def LocalRun.one (x : LocalRun) (w : View) (a : ThreadAcc) (pts : Nat) (f : Nat → Nat) : LocalRun :=
  match a.tgt with
  | .scr team off =>
    match look x.s.teams team with
    | none => x
    | some tm =>
      let old := natOfBytes (tm.scrBytes off a.n)
      let bad := tm.scrBad off a.n
      { x.note a old bad with
        ts := max x.ts (tm.stampOf off)
        s := x.s.updTeam team fun tm =>
          { tm.scrWrite off (bytesOf a.n (f old)) pts with scrbad := (if bad then tm.scrbad else (tm.scrWrite off (bytesOf a.n (f old)) pts).scrbad) } }
  | .priv _ =>
    if a.pcs.any fun p => w.s.lineLost w.cx.zone p.leaf (lineOf p.pa) then { x.note a 0 true with gone := x.gone ++ [a.thr] }
    else
    let bs := a.pcs.flatMap fun p => (List.range p.n).map fun k => x.g.privByte x.s (p.pa + k)
    let new := bytesOf a.n (f (natOfBytes bs))
    let s := a.pcs.foldl (fun s p => s.privStore w.u w.tm.core w.cx.zone p ((new.drop p.at_).take p.n))
      { x.s with groups := put x.s.groups w.u x.g }
    { x.note a (natOfBytes bs) (a.pcs.any fun p => w.s.badLine (lineOf p.pa)) with s := s, g := (look s.groups w.u).getD x.g }
  | .glob _ => x

/-- A global atomic on the doorbell or device-register range raises PROT (R243). -/
def View.atomRegs (w : View) (accs : List ThreadAcc) : Mask :=
  maskOf fun t => accs.any fun a => a.thr == t && a.pcs.any fun p => !w.s.isRemote (lineOf p.pa) && isRegLine (lineOf p.pa)

/-- A private atomic on words of several lines that lie on another device or at the host (log 105): they are read first. -/
def isFar (a : ThreadAcc) : Bool := isGlob a && 1 < a.pcs.length

def View.readFar (w : View) (accs : List ThreadAcc) (k : View → List Byte → Bool → Out) : Out :=
  match accs.filter isFar with
  | [] => k w [] false
  | far => w.readForm far k

def View.runAtomic (w : View) (i : Instr) (m : Mask) (ty : Ty) (op : Aop) (sem : Sem) (scope : Scope)
    (b c : Nat → Nat) (accs : List ThreadAcc) : Out :=
  let local_ := accs.any fun a => !isGlob a
  let glob := accs.any isGlob
  let bad := w.atomRegs accs
  if bad != 0 then
    .next (w.trapHere 0x11 (if i.uses.uniform then m else bad)
      (((accs.find? fun a => a.thr == lowest bad).map fun a => match a.tgt with
        | .glob va => va.toNat % 2 ^ 64
        | _ => 0).getD 0))
  else if w.away accs then .next (w.hold .away)
  else if accs.any isScr && (w.g.releasePending || (Sem.isRel sem && !w.g.quiet scope)) then .next (w.hold .again)
  else if local_ && Sem.isAcq sem && !w.g.reads.isEmpty then .next (w.hold .again)
  else if (glob && 16 ≤ w.g.sbuf.length) || w.privBehind accs then .next (w.hold .again)
  else w.readFar accs fun w bs bad =>
    let w := w.clean accs
    let f := fun (a : ThreadAcc) (old : Nat) => atomicNew op ty old (b a.thr) (c a.thr)
    let x := accs.foldl (fun (x : LocalRun) a => x.one w a w.g.pts (f a)) { s := w.s, g := w.g }
    let far := accs.filter isFar
    let farOld := fun a : ThreadAcc => fieldOf bs (((far.takeWhile fun e => e.thr != a.thr).map (·.n)).sum) a.n
    let x := far.foldl (fun (x : LocalRun) a => x.note a (farOld a) bad) x
    let g := if Sem.isRel sem then x.g.addRelease scope else x.g
    let s := if Sem.isRel sem then x.s.updTeam w.g.team fun tm => tm.countRelease scope else x.s
    let id := g.seq
    let parts := globParts accs fun t p => match far.find? fun a => a.thr == t with
      | some a => storePiece (fun _ => bytesOf a.n (f a (farOld a))) t p
      | none => .atom ty op (b t) (c t)
    let entry : List SEntry := if parts.isEmpty then [] else [{ id := id, parts := parts, sem := sem, scope := scope }]
    let g := { g with reports := g.reports ++ w.goneReport (maskOf fun t => x.gone.contains t) }
    let g := (g.startPend i m w.sel).unpause m
    let pend : Option Pend := i.uses.dst.map fun d =>
      { id := id, dst := d.dst, ty := ty, unif := i.uses.uniform, mask := m, lat := g.latPlaces i m, got := x.old, bad := x.bad }
    let g := { g with seq := id + 1, sbuf := g.sbuf ++ entry, lmax := max g.lmax x.ts }
    let g := if local_ && Sem.isAcq sem then g.acquire scope x.ts else g
    let g := match pend with
      | some p => if parts.isEmpty then g.deliver p else { g with pends := g.pends ++ [p] }
      | none => g
    .next (s.issued w.u i.uses.ctl w.halting
      (w.track i 0 (if pend.isSome && !parts.isEmpty then .pend id else .now) g))

def optSrc (w : View) (ty : Ty) (c : Option Src) (t : Nat) : Nat :=
  match c with
  | some c => w.rd ty c t
  | none => 0

def atomOp (i : Instr) (x : Atom) (win : Bool) (s : State) : Out :=
  issue i s fun w m =>
    let n := x.ty.width / 8
    w.access i.uses m n .atomic (fun t => w.wideAddr (w.n128 x.a t) (x.off.toInt * n) n win true)
      (w.runAtomic i m x.ty x.aop x.sem x.scope (w.rd x.ty x.b) (optSrc w x.ty x.c))

def execAtom (x : Atom) (s : State) : Out := atomOp (.atom x) x false s
def execAtomx (x : Atom) (s : State) : Out := atomOp (.atomx x) x true s

def execAtoms (x : Atoms) (s : State) : Out :=
  issue (.atoms x) s fun w m =>
    let n := x.ty.width / 8
    let addr := fun t =>
      if x.pe then w.peAddr ((w.n64 x.a t : Int) + x.off.toInt * n) n
      else scratchAddr w.g.team w.tm (w.offAddr x.a x.off.toInt n t) n true
    w.access (Instr.atoms x).uses m n .atomic addr
      (w.runAtomic (.atoms x) m x.ty x.aop x.sem x.scope (w.rd x.ty x.b) (optSrc w x.ty x.c))

def execRed (x : Red) (s : State) : Out :=
  issue (.red x) s fun w m =>
    let n := x.ty.width / 8
    w.access (Instr.red x).uses m n .atomic (fun t => w.wideAddr (w.n128 x.a t) (x.off.toInt * n) n false true)
      (w.runAtomic (.red x) m x.ty x.aop (if x.rel then .rel else .rlx) x.scope (w.rd x.ty x.b) fun _ => 0)

/-! ## Fences (R223, R224, R229, R245) -/

/-- A form that acts once for the group; `f` gives the state and the group after its own effect. -/
def fenceOp (i : Instr) (s : State) (ready : View → Bool) (f : View → State × Group) : Out :=
  issue i s fun w _ =>
    if !ready w then .next (w.hold .kept)
    else
      let (s, g) := f w
      .next (s.issued w.u i.uses.ctl w.halting (w.track i 0 .now (g.advance w.sel)))

def execFence (x : ScopeF) (s : State) : Out :=
  fenceOp (.fence x) s (fun w => w.g.quiet x.scope) fun w =>
    (w.s.updTeam w.g.team fun tm => tm.countRelease x.scope, (w.g.addRelease x.scope).acquire x.scope 0)

def execAcq (x : ScopeF) (s : State) : Out :=
  fenceOp (.acq x) s (fun w => w.g.reads.isEmpty) fun w => (w.s, w.g.acquire x.scope 0)

/-- A release that holds nothing itself: it completes when its waits end. -/
def relOp (i : Instr) (s : State) (scope : Scope) (signal : Bool) : Out :=
  issue i s fun w _ =>
    let seq := w.g.seq
    let g := w.g.addRelease scope
    let g := if signal then { g with signalAt := some seq } else g
    let s := w.s.updTeam w.g.team fun tm => tm.countRelease scope
    .next (s.issued w.u i.uses.ctl w.halting (w.track i 0 (.release seq) (g.advance w.sel)))

def execRel (x : ScopeF) (s : State) : Out := relOp (.rel x) s x.scope false
def execXfence (x : CtlOnly) (s : State) : Out := relOp (.xfence x) s .dev true

/-- A signal may issue: an earlier XFENCE's entries are acknowledged, local and remote (R229), and the waits of a release at pod
scope have ended (R406). -/
def Group.signalsClear (g : Group) : Bool :=
  (g.rels.all fun r => !r.pod || g.releaseMet r) && match g.signalAt with
  | none => true
  | some seq => (g.sbuf.all fun e => seq ≤ e.id) && (g.fly.all fun f => seq ≤ f.id)

/-! ## Promotion (R230) -/

/-- The victims of an ACQR: resident teams other than the thief's that have not retired. -/
def View.victims (w : View) (ranks : List Nat) : AList Team :=
  (dedup ranks).filterMap fun r =>
    match w.peer r with
    | some (k, tm) => if k = w.g.team ∨ tm.run = .retired then none else some (k, tm)
    | none => none

/-- A victim's loads are bound, its renewals resolved and its store buffers have drained until UAL = 0: the waits of a .dev fence. The
entries of a spilled team are performed by the Exchange, as its record's are. -/
def State.drained (s : State) (team : Nat) : Bool :=
  (s.groupsOf team).all fun g => g.2.quiet .dev && g.2.sbuf.isEmpty && (g.2.fly.all fun f => f.remote)
    && g.2.loads.all fun r => r.lines.all fun q => q.stat != .renew

/-- Every L2 copy that a district holds for a zone expires. -/
def State.expireDistrict (s : State) (d zn : Nat) : State :=
  { s with l2 := mapVals s.l2 fun k c => if k / 2 ^ 49 % 65 = zn ∧ k / 2 ^ 49 / 65 / 64 = 32 + d then { c with xp := true } else c }

/-- Every L1 copy of a zone on a core expires; fills in flight install expired copies (R210, R230). -/
def State.expireCore (s : State) (core zn : Nat) : State :=
  let mine := fun g : Group => match look s.teams g.team with
    | some tm => tm.core == core && ((look s.ctxs tm.ctx).map fun c : Ctx => c.zone) == some zn
    | none => false
  let stale := fun r : LoadRec => { r with lines := r.lines.map fun q => { q with xp := true } }
  { s with
    l1 := mapVals s.l1 fun k c => if k / 2 ^ 49 = l1Loc core * 65 + zn then { c with xp := true } else c
    groups := mapVals s.groups fun _ g => if mine g then { g with loads := g.loads.map stale } else g }

/-! ## Clock reads and leases (R246, R247) -/

def execPtsrd (x : Ptsrd) (s : State) : Out := laneOp (.ptsrd x) s false fun w _ _ => .bits w.g.pts

/-- The count of a LEASE: 16 for 0, else 1 to 1,024. -/
def leaseCount (b : Nat) : Nat := if b = 0 then 16 else min b 1024

/-- The lines of an access, each with one request: the largest count of the threads on it, since R247 does not say how the counts of
several threads on one line combine (DESIGN CHOICE, log 120). -/
def leaseLines (accs : List ThreadAcc) (n : Nat → Nat) : List LineReq :=
  let ps := accs.flatMap fun a => a.pcs
  (dedup (ps.map fun p => lineOf p.pa)).filterMap fun l =>
    (ps.find? fun p => lineOf p.pa == l).map fun p =>
      { line := l, leaf := p.leaf, stat := .l2
        n := (ps.filter fun q => lineOf q.pa == l).foldl (fun k q => max k (n q.thr)) 0 }

/-- A request of leases or remote copies: a load without a destination; `pieces` name the threads that ask for each line, whose failures
are reported (R247, R415). -/
def View.runLease (w : View) (i : Instr) (m : Mask) (kind : LoadKind) (pieces : List Piece) (lines : List LineReq) : Out :=
  let id := w.g.seq
  let rec0 : LoadRec :=
    { id := id, kind := kind, ty := .b8, nl1 := false, p := w.g.pts, pieces := pieces, got := [], bad := [], lines := lines }
  let y := LoadRun.startAll { s := w.s, r := rec0 } w.lineCtx
  let s := y.fail.foldl (fun (s : State) (f : Report) => if f.kind = 4 then s.logError 3 none f.dev w.cx.zone 0 else s) y.s
  let g := w.g.startPend i m w.sel
  let g := { g with seq := id + 1, loads := (if y.r.finished then g.loads else g.loads ++ [y.r]), reports := g.reports ++ y.fail
                    winLoad := g.winLoad || kind == LoadKind.lease }
  .next (s.issued w.u i.uses.ctl w.halting (w.track i 0 (if y.r.finished then .now else .load id) g))

def execLease (x : Off2) (s : State) : Out :=
  issue (.lease x) s fun w m =>
    w.access (Instr.lease x).uses m 1 .load (fun t => w.wideAddr (w.n128 x.a t) (x.off.toInt * 128) 1 false true) fun accs =>
      w.runLease (.lease x) m .lease (accs.flatMap fun a => a.pcs.map fun p => ⟨p.thr, p.at_, p.pa, p.n⟩)
        (leaseLines accs fun t => leaseCount (w.n32 x.b (if (Instr.lease x).uses.uniform then lowest m else t)))

/-! ## Synchronisation words (R235, R236, R248) -/

/-- The check of R236 on a word as a number. -/
def swCheck (wd : Nat) : Nat :=
  let target := bitsOf wd 0 32
  let count := bitsOf wd 32 32
  let gen := bitsOf wd 64 32
  let build := fun (t c g a o : Nat) => t + 2 ^ 32 * c + 2 ^ 64 * g + 2 ^ 96 * a + 2 ^ 97 * o
  if !wd.testBit 96 then wd
  else if count = target then build target 0 ((gen + 1) % 2 ^ 32) 0 (bitsOf wd 97 1)
  else if target < count then wd - 2 ^ 96 + (if wd.testBit 97 then 0 else 2 ^ 97)
  else wd

/-- Arrive(n) without its stamp. -/
def swArrive (wd n : Nat) : Nat :=
  swCheck (wd - 2 ^ 32 * bitsOf wd 32 32 + 2 ^ 32 * ((bitsOf wd 32 32 + n) % 2 ^ 32))

/-- SWARM(t). -/
def swArm (wd t : Nat) : Nat := swCheck (t + 2 ^ 32 * bitsOf wd 32 32 + 2 ^ 64 * bitsOf wd 64 32 + 2 ^ 96)

/-- The address of a synchronisation word. OFF is signed in all three forms: R240 says so of SWARM, and only '× 16' of SWWAIT and SWGEN
(DESIGN CHOICE, log 118). -/
def View.swAddr (w : View) (a : Src) (off : BitVec 6) (t : Nat) : AddrOut :=
  scratchAddr w.g.team w.tm (w.offAddr a off.toInt 16 t) 16 true

def swOff (a : ThreadAcc) : Nat :=
  match a.tgt with
  | .scr _ off => off
  | _ => 0

def execSwarm (x : Off2) (s : State) : Out :=
  issue (.swarm x) s fun w m =>
    w.access (Instr.swarm x).uses m 16 .store (w.swAddr x.a x.off) fun accs =>
      if w.g.releasePending then .next (w.hold .again)
      else
        let s := accs.foldl (fun s a => s.updTeam w.g.team fun tm =>
          tm.scrWrite (swOff a) (bytesOf 16 (swArm (natOfBytes (tm.scrBytes (swOff a) 16)) (w.n32 x.b a.thr))) w.g.pts) w.s
        .next (s.issued w.u x.ctl w.halting (w.track (.swarm x) 0 .now (w.g.startPend (.swarm x) m w.sel)))

/-- Bits [127:64] of a thread's word. -/
def View.swHigh (w : View) (accs : List ThreadAcc) (t : Nat) : Nat :=
  match accs.find? fun a => a.thr == t with
  | some a => natOfBytes (w.tm.scrBytes (swOff a + 8) 8)
  | none => 0

def View.swFinish (w : View) (i : Instr) (m : Mask) (accs : List ThreadAcc) (acq : Bool) : State :=
  let g := results i m w.sel false (fun t => .bits (w.swHigh accs t)) w.g
  let g := { g with lmax := max g.lmax (w.scrStamp accs) }
  w.s.issued w.u i.uses.ctl w.halting (w.track i 0 .now (if acq then g.acquire .team 0 else g))

def execSwgen (x : Swgen) (s : State) : Out :=
  issue (.swgen x) s fun w m =>
    w.access (Instr.swgen x).uses m 16 .load (w.swAddr x.a x.off) fun accs => .next (w.swFinish (.swgen x) m accs false)

def execSwwait (x : Swwait) (s : State) : Out :=
  issue (.swwait x) s fun w m =>
    w.access (Instr.swwait x).uses m 16 .load (w.swAddr x.a x.off) fun accs =>
      let met := accs.all fun a =>
        let hi := w.swHigh accs a.thr
        hi % 2 ^ 32 != w.n32 x.b a.thr || hi.testBit 33
      if !met || !w.g.reads.isEmpty then .next (w.hold .away) else .next (w.swFinish (.swwait x) m accs true)

/-! ## Coherence objects (R231, R249) -/

/-- A result in an s register, for the forms that act once and write a status. -/
def View.finishS (w : View) (i : Instr) (m : Mask) (s : State) (g : Group) (d : Nat) : State :=
  s.issued w.u i.uses.ctl w.halting (w.track i 0 .now (results i m w.sel false (fun _ => .bits d) g))

/-- The physical lines of an object's tiles, with their leaves; a line without a translation is not covered (log entry 12). -/
def View.objTiles (w : View) (x : Shape) : List (List (Nat × Leaf)) :=
  (List.range x.ntile).map fun t =>
    (x.lineVas t).filterMap fun va => (w.translateQuiet va .load).map fun r => (lineOf r.1, r.2)

/-- The home of a line by its leaf. -/
def State.lineHome (s : State) (zn : Nat) (x : Nat × Leaf) : Nat := s.homeOf (s.zoneOf zn) x.2 (x.1 * 128)

/-- Timestamps of lines that are to share theirs (R232): the largest. -/
def Home.join (a b : Home) : Home :=
  { wts := max a.wts b.wts, rts := max a.rts b.rts, expmax := max a.expmax b.expmax, xp := a.xp || b.xp, dirty := a.dirty || b.dirty }

/-- A line that two tiles of an object name is the first one's (log entry 12). -/
def ownTiles (tiles : List (List (Nat × Leaf))) : List (List (Nat × Leaf)) :=
  (tiles.foldl (fun (r : List (List (Nat × Leaf)) × List Nat) t =>
    let t := t.filter fun x => !r.2.contains x.1
    (r.1 ++ [t], r.2 ++ t.map (·.1))) ([], [])).1

/-- An object enters the table (R232): copies of its lines expire, and each tile's timestamps, no smaller than those of any of its
lines, move to the home of its first line. -/
def State.placeObj (s : State) (zn h : Nat) (race : Bool) (tiles : List (List (Nat × Leaf))) : State :=
  let tiles := ownTiles tiles
  let lines := tiles.flatten.map (·.1)
  let recs := tiles.map fun t => t.foldl (fun r x => r.join (s.homeRec zn (s.lineHome zn x) x.1)) ({} : Home)
  let s := s.expireLines zn lines
  let s := { s with
    objs := put s.objs h { zone := zn, race := race, tiles := tiles.map fun t => t.map (·.1), leafs := tiles.map fun t => t.map (·.2), rstat := [] }
    homes := s.homes.filter fun k => !(k.2.zn == zn && lines.contains k.1) }
  (tiles.zip recs).foldl (fun s t =>
    match t.1 with
    | [] => s
    | x :: _ => s.moveRec zn (s.lineHome zn x) x.1 t.2) s

/-- An object leaves the table (R232): copies of its lines expire, and each line takes its tile's timestamps to its own home. -/
def State.dropObj (s : State) (h : Nat) : State :=
  match look s.objs h with
  | none => s
  | some o =>
    let tiles := (o.tiles.zip o.leafs).map fun t => t.1.zip t.2
    let recs := tiles.map fun t => match t with
      | [] => ({} : Home)
      | x :: _ => s.homeRec o.zone (s.lineHome o.zone x) x.1
    let lines := o.tiles.flatten
    let s := { s.expireLines o.zone lines with objs := del s.objs h }
    let s := { s with homes := s.homes.filter fun k => !(k.2.zn == o.zone && lines.contains k.1) }
    (tiles.zip recs).foldl (fun s t => t.1.foldl (fun s x => s.moveRec o.zone (s.lineHome o.zone x) x.1 t.2) s) s

/-- The table index that a new object gets: the lowest free one; R249 does not say which (DESIGN CHOICE, log 119). -/
def State.freeHandle (s : State) : Option Nat :=
  (List.range (s.objs.length + 1)).find? fun h => (look s.objs h).isNone && decide (h < 16384)

/-- Declare an object: its handle or the failure code of R249. Where several of the codes 1 to 3 hold, the lowest is given
(DESIGN CHOICE, log 91: the spec gives no order). -/
def View.declare (w : View) (x : Shape) (race : Bool) : Except Nat (State × Nat) :=
  let tiles := w.objTiles x
  let lines := tiles.flatten.map (·.1)
  let mine := w.s.objs.filter fun o => o.2.zone == w.cx.zone
  match w.s.freeHandle with
  | none => .error 1
  | some h =>
    if (w.s.zoneOf w.cx.zone).oquotaNow ≤ mine.length then .error 2
    else if mine.any fun o => o.2.tiles.any fun ls => ls.any lines.contains then .error 3
    else .ok (w.s.placeObj w.cx.zone h race tiles, h)

/-- OBJDECL (R249). Its read is a load of the group, checked for races after everything else (R234, R244). R249 gives no order between
OBJALIGN and the failure codes: limits of the record first (4), then OBJALIGN, then tiles of over 512 lines (4), then the codes of
`declare` (DESIGN CHOICE, log 91). A record with an uncorrectable error is consumed by the instruction, which takes MEMUE with SR.TINFO
0 (R189; DEDUCED, log 92). -/
def execObjdecl (x : Objdecl) (s : State) : Out :=
  issue (.objdecl x) s fun w m =>
    let i := Instr.objdecl x
    w.access i.uses m 64 .load (fun _ => w.wideAddr (w.n128 x.a (lowest m)) 0 64 false true) fun accs =>
      w.readForm accs fun w bs bad =>
        let shape := Shape.read bs false
        if bad then .next (w.trapHere 0x41 m 0)
        else if shape.any fun sh => !sh.lineRows then .next (w.trapHere 0x31 m (w.n128 x.a (lowest m) % 2 ^ 64))
        else w.raced i.uses m accs false fun w =>
          let fail := fun k : Nat => (Host.Outcome.next (w.finishS i m w.s w.g (2 ^ 63 + k)) : Out)
          match shape with
          | none => fail 4
          | some sh =>
            if 512 < sh.tileLines then fail 4
            else
              let vas := (List.range sh.ntile).flatMap sh.lineVas
              if w.walkBehind .load vas then .next (w.hold .again) else
              let w := { w with s := w.installQuiet .load vas }
              match w.declare sh x.race with
              | .error k => fail k
              | .ok (s, h) => .next (w.finishS i m s w.g h)

def execObjdrop (x : SdA) (s : State) : Out :=
  issue (.objdrop x) s fun w m =>
    let h := w.n64 x.a (lowest m)
    match look w.s.objs h with
    | some o =>
      if o.zone = w.cx.zone then .next (w.finishS (.objdrop x) m (w.s.dropObj h) w.g 0)
      else .next (w.finishS (.objdrop x) m w.s w.g 1)
    | none => .next (w.finishS (.objdrop x) m w.s w.g 1)

end Sys2Proof.Machine
end

