-- ==== Sys2Proof/Machine/Matrix.lean ====
section
/-!
DEFINITION. Class 0x7: the matrix unit, tiles, operand planes, operations and leave (R252 to R281).
-/

namespace Sys2Proof.Machine

/-! ## Tiles (R253, R254) -/

def State.quadOf (s : State) (q : Nat) : Quad := rget {} s.quads q
def State.updQuad (s : State) (q : Nat) (f : Quad → Quad) : State := { s with quads := put s.quads q (f (s.quadOf q)) }

def tileKey (n r c : Nat) : Nat := 1024 * n + 32 * r + c
def Quad.word (q : Quad) (n r c : Nat) : W32 := rget 0 q.tiles (tileKey n r c)
/-- Write a word; its check bits are replaced (R105, R254). -/
def Quad.setWord (q : Quad) (n r c : Nat) (x : W32) : Quad :=
  { q with tiles := rput 0 q.tiles (tileKey n r c) x
           tmarks := if q.tmarks.isEmpty then [] else q.tmarks.filter fun k => k.1 / 2 != tileKey n r c
           soft := q.soft.filter fun k => k / 2 != tileKey n r c }

/-- The group's team holds the tile store of the group's quadrant (R253). -/
def View.store? (w : View) : Option Quad :=
  let q := w.s.quadOf w.g.quad
  if q.holder = some w.g.team then some q else none

/-- The tiles an operation owns (R264). -/
def MxOp.mt (o : MxOp) : Nat := fieldOf o.blk 4 1
def MxOp.nt (o : MxOp) : Nat := fieldOf o.blk 5 1
def MxOp.ks (o : MxOp) : Nat := fieldOf o.blk 6 2
def MxOp.tb (o : MxOp) : Nat := fieldOf o.blk 8 1
def MxOp.owns (o : MxOp) (n : Nat) : Bool := o.tb ≤ n && n < o.tb + o.mt * o.nt

/-- The leave balance (R269). -/
def Quad.balance (q : Quad) : Nat := (q.grants.map (·.2)).sum

/-- Leave is used, the oldest grant first. -/
def spendGrants : Nat → List (Nat × Nat) → List (Nat × Nat)
  | _, [] => []
  | n, (c, k) :: l => if n < k then (c, k - n) :: l else spendGrants (n - k) l

/-- A grant reaches the balance, which holds at most 2^20 (R269). -/
def Quad.grant (q : Quad) (cycle n : Nat) : Quad := { q with grants := q.grants ++ [(cycle, min n (2 ^ 20 - q.balance))] }

/-- The lowest identifier that owns a tile. -/
def Quad.ownerOf (q : Quad) (n : Nat) : Option Nat := (q.queue.find? fun o => o.owns n).map (·.id)

/-! ## Traps of the class (R262, R264, R268, R272) -/

def mxinfoParam (reason field : Nat) : W64 := BitVec.ofNat 64 (reason * 2 ^ 16 + field * 2 ^ 8 + 16)
def mxinfoBusy (id tile : Nat) : W64 := BitVec.ofNat 64 (id * 2 ^ 32 + 0xFF * 2 ^ 8 + 16 + tile)

def View.mxParam (w : View) (m : Mask) (reason field : Nat) : State :=
  { w with g := { w.g with mxinfo := mxinfoParam reason field } }.trapHere 0x21 m 0
def View.accBusy (w : View) (m : Mask) (id tile : Nat) : State :=
  { w with g := { w.g with mxinfo := mxinfoBusy id tile } }.trapHere 0x20 m 0

/-- A scratchpad region of the thread's team: ALIGN, then SPWIN. -/
def View.region (w : View) (off : Int) (align n : Nat) : List Chk :=
  (if off % align = 0 then [] else [chkAlign (low64 off)])
    ++ (if 0 ≤ off ∧ off + n ≤ w.tm.scratchSize then [] else [chkSpwin (low64 off)])

/-- RFUE or MEMUE of the tile words that a form reads, each with the threads it is read for (R254, R272): the cause code, the
faulting threads and SR.TINFO. -/
def Quad.tileError (q : Quad) (keys : List (Mask × Nat)) : Option (Nat × Mask × Nat) :=
  if q.tmarks.isEmpty then none
  else
    let hit := q.tmarks.filter fun k => keys.any fun x => x.2 == k.1 / 2
    match hit with
    | [] => none
    | k :: _ =>
      some (if hit.all (·.2) then 0x41 else 0x40,
        keys.foldl (fun b x => if hit.any (fun h => h.1 / 2 == x.2) then b ||| x.1 else b) 0, 2 ^ 10 + k.1 / 2048)

/-- A tile word that thread t reads. -/
def keyIn (t k : Nat) : Mask × Nat := (1#32 <<< t, k)

def rowKeys (n r : Nat) : List Nat := (List.range 32).map fun c => tileKey n r c
def colKeys (n c : Nat) : List Nat := (List.range 32).map fun r => tileKey n r c

/-- The checks of a tile form in the order of R272, then its effect: regions, the tile store, selectors, owned tiles, tile
errors. -/
def View.tileForm (w : View) (m : Mask) (regions : List (Nat × Chk)) (badSel : Mask) (tiles : List Nat)
    (keys : List (Mask × Nat)) (k : Quad → Out) : Out :=
  match firstChk regions with
  | some (code, bad, info) => .next (w.trapHere code bad info)
  | none =>
    match w.store? with
    | none => .next (w.mxParam m 0x01 0xFF)
    | some q =>
      if badSel != 0 then .next (w.mxParam badSel 0x09 0xFF)
      else
        match tiles.filterMap fun n => (q.ownerOf n).map fun id => (n, id) with
        | (n, id) :: rest =>
          let lo := rest.foldl (fun b x => if x.1 < b.1 then x else b) (n, id)
          .next (w.accBusy m lo.2 lo.1)
        | [] =>
          match q.tileError keys with
          | some (code, bad, info) => .next (w.trapHere code bad info)
          | none => k q

/-- A form with effect on tiles and scratchpad only. -/
def View.mxDone (w : View) (i : Instr) (m : Mask) (s : State) : Out :=
  .next (s.issued w.u i.uses.ctl w.halting (w.track i 0 .now
    ((releaseS i.uses.srcs (w.g.mapThreads fun t th => if inMask m t then releaseV i.uses.srcs th else th)).advance w.sel)))

/-- The row of a permutation's table at a scratchpad offset: the columns that its bits name (R278). -/
def View.permRow (w : View) (off i : Nat) : Nat := natOfBytes (w.tm.scrBytes (off + 4 * i) 4)
def View.permPick (w : View) (off i : Nat) : Option Nat := (List.range 32).find? (w.permRow off i).testBit

/-- The tile words that a form reads, each with the threads it reads it for (R254, R275, R278). -/
def View.tileReads (w : View) (i : Instr) (m : Mask) : List (Mask × Nat) :=
  match i with
  | .mxrd x => (threadsOf m).map fun t => keyIn t (tileKey x.n.toNat t (w.n32 x.a t))
  | .mxst x => (threadsOf m).flatMap fun t => (rowKeys x.n.toNat t).map (keyIn t)
  | .mxepi x => (threadsOf m).flatMap fun t => (rowKeys x.n.toNat t).map (keyIn t)
  | .mxscl x => (threadsOf m).flatMap fun t => (if x.col then colKeys x.n.toNat t else rowKeys x.n.toNat t).map (keyIn t)
  | .mxperm x => (List.range 1024).map fun k => (m, 1024 * x.ts.toNat + k)
  | _ => []

/-! ## MXZERO, MXRD, MXWR, MXST, MXEPI, MXSCL, MXPERM (R274, R275, R278) -/

def Quad.zeroTiles (q : Quad) (ns : List Nat) : Quad :=
  { q with tiles := q.tiles.filter (fun x => !ns.contains (x.1 / 1024))
           tmarks := q.tmarks.filter fun x => !ns.contains (x.1 / 2 / 1024), soft := q.soft.filter fun k => !ns.contains (k / 2 / 1024) }

def execMxzero (x : Mxzero) (s : State) : Out :=
  issue (.mxzero x) s fun w m =>
    let ns := (List.range 16).filter x.mask.getLsbD
    w.tileForm m [] 0 ns [] fun _ =>
      w.mxDone (.mxzero x) m (w.s.updQuad w.g.quad fun q => q.zeroTiles ns)

/-- Threads whose column selector is out of range. -/
def View.badCol (w : View) (a : Src) (m : Mask) : Mask := maskOf fun t => inMask m t && decide (32 ≤ w.n32 a t)

def execMxrd (x : Mxrd) (s : State) : Out :=
  issue (.mxrd x) s fun w m =>
    let n := x.n.toNat
    w.tileForm m [] (w.badCol x.a m) [n] (w.tileReads (.mxrd x) m) fun q =>
      .next (w.finish (.mxrd x) m false fun t => .bits (q.word n t (w.n32 x.a t)).toNat)

def execMxwr (x : Mxwr) (s : State) : Out :=
  issue (.mxwr x) s fun w m =>
    let n := x.n.toNat
    w.tileForm m [] (w.badCol x.a m) [n] [] fun _ =>
      w.mxDone (.mxwr x) m (w.s.updQuad w.g.quad fun q =>
        (threadsOf m).foldl (fun q t => q.setWord n t (w.n32 x.a t) (BitVec.ofNat 32 (w.n32 x.b t))) q)

/-- Bytes at scratchpad offsets, in ascending thread order, with the group's clock (R226). -/
def View.scrStore (w : View) (parts : List (Nat × List Byte)) : State :=
  parts.foldl (fun s p => s.updTeam w.g.team fun tm =>
    (cutAt 128 p.1 p.2.length).foldl (fun tm c => tm.scrWrite c.1 ((p.2.drop c.2.1).take c.2.2) w.g.pts) tm) w.s

def Quad.rowBytes (q : Quad) (n r : Nat) : List Byte :=
  (List.range 32).flatMap fun c => bytesOf 4 (q.word n r c).toNat

def execMxst (x : Mxst) (s : State) : Out :=
  issue (.mxst x) s fun w m =>
    let n := x.n.toNat
    let off := fun t => w.offAddr x.a (x.off.toInt * 128) 1 t
    w.tileForm m ((threadsOf m).flatMap fun t => (w.region (off t) 128 128).map fun c => (t, c)) 0 [n]
      (w.tileReads (.mxst x) m) fun q =>
        if w.g.releasePending then .next (w.hold .again)
        else w.mxDone (.mxst x) m (w.scrStore ((threadsOf m).map fun t => ((off t).toNat, q.rowBytes n t)))

/-- EpiValue (R266). -/
def epiValue (a alpha : FVal) (relu : Bool) : FVal :=
  match mulF a alpha with
  | none => .nan
  | some y =>
    if relu then
      match y with
      | .inf true => .fin false 0 0
      | .fin true _ _ => .fin false 0 0
      | y => y
    else y

/-- EpiConvert (R266): the bits of one output element. -/
def epiConvert (ty : Ty) (sat : Bool) (y : FVal) : Nat :=
  if ty.isFloat then
    match y with
    | .nan => qnanF ty
    | .inf s =>
      if ty.hasInf then infF ty s
      else if sat || !ty.hasNaN then maxF ty s else qnanF ty
    | .fin s m e => (roundF ty (.fixed .rne) sat false s m e).1
  else
    match y with
    | .nan => 0
    | .inf s => wrap ty.width (if s then intMin ty else intMax ty)
    | .fin s m e =>
      if m ≠ 0 ∧ (Nat.log2 m : Int) + e > 70 then wrap ty.width (if s then intMin ty else intMax ty)
      else
        let n := (roundToInt .rne s m e).1
        wrap ty.width (clampI (if s then -(n : Int) else n) (intMin ty) (intMax ty))

/-- A tile word as the epilogue reads it. -/
def epiRead (st : Ty) (x : W32) : FVal := if st == .f32 then decodeF .f32 false x.toNat else ofIntF x.toInt

def execMxepi (x : Mxepi) (s : State) : Out :=
  issue (.mxepi x) s fun w m =>
    let n := x.n.toNat
    let sz := x.dt.width / 8
    let off := fun t => w.offAddr x.a (x.off.toInt * 128) 1 t
    w.tileForm m ((threadsOf m).flatMap fun t => (w.region (off t) (32 * sz) (32 * sz)).map fun c => (t, c)) 0 [n]
      (w.tileReads (.mxepi x) m) fun q =>
        if w.g.releasePending then .next (w.hold .again)
        else
          let row := fun t => (List.range 32).flatMap fun c =>
            bytesOf sz (epiConvert x.dt x.sat (epiValue (epiRead x.st (q.word n t c)) (decodeF .f32 false (w.rd .f32 x.b t)) x.relu))
          w.mxDone (.mxepi x) m (w.scrStore ((threadsOf m).map fun t => ((off t).toNat, row t)))

def execMxscl (x : Mxscl) (s : State) : Out :=
  issue (.mxscl x) s fun w m =>
    let n := x.n.toNat
    w.tileForm m [] 0 [n] (w.tileReads (.mxscl x) m) fun _ =>
      w.mxDone (.mxscl x) m (w.s.updQuad w.g.quad fun q =>
        (threadsOf m).foldl (fun q t => (List.range 32).foldl (fun q k =>
          let (r, c) := if x.col then (k, t) else (t, k)
          q.setWord n r c (BitVec.ofNat 32 (mulBits .f32 ⟨false, .rne, false⟩ (q.word n r c).toNat (w.rd .f32 x.a t)).1)) q) q)

/-- R254 has MXPERM take RFUE or MEMUE on a marked half that it reads, R278 has memory-error marks arrive unchanged in D: every word of S is
read, the form traps, and no mark moves (DESIGN CHOICE, log 112). -/
def execMxperm (x : Mxperm) (s : State) : Out :=
  issue (.mxperm x) s fun w m =>
    let off : Int := (w.n32 x.a (lowest m) : Nat)
    let row := fun i => w.permRow off.toNat i
    let src := x.ts.toNat
    let dst := x.td.toNat
    let chks := (w.region off 128 128).map fun c => (lowest m, c)
    match firstChk chks with
    | some (code, _, info) => .next (w.trapHere code m info)
    | none =>
      match w.store? with
      | none => .next (w.mxParam m 0x01 0xFF)
      | some _ =>
        if (List.range 32).any fun i => 1 < (threadsOf (maskOf (row i).testBit)).length then .next (w.mxParam m 0x0A 0xFF)
        else
          let pick := fun i => w.permPick off.toNat i
          w.tileForm m [] 0 (dedup [src, dst]) (w.tileReads (.mxperm x) m) fun q =>
            let q' := (List.range 32).foldl (fun (d : Quad) i => (List.range 32).foldl (fun d k =>
              let (r, c) := if x.col then (k, i) else (i, k)
              match pick i with
              | none => d.setWord dst r c 0
              | some j =>
                let (r', c') := if x.col then (k, j) else (j, k)
                d.setWord dst r c (q.word src r' c')) d) q
            w.mxDone (.mxperm x) m (w.s.updQuad w.g.quad fun _ => q')

/-! ## Planes (R256 to R258, R276, R277) -/

/-- The selector of a row and block: row, block; none when a high bit is set. -/
def selRowBlock (c : Nat) : Option (Nat × Nat) := if c / 128 = 0 then some (c % 32, c / 32 % 4) else none

/-- Floor of log2 of a finite nonzero magnitude. -/
def floorLog2 (m : Nat) (e : Int) : Int := (Nat.log2 m : Int) + e

/-- Floor(x × 2^k). -/
def floorScale (s : Bool) (m : Nat) (e : Int) (k : Int) : Int :=
  let x := e + k
  let n : Int := if s then -(m : Int) else m
  if 0 ≤ x then n * 2 ^ x.toNat
  else if (Nat.log2 m : Int) + x < -1 ∧ m ≠ 0 then (if s then -1 else 0)
  else n.fdiv (2 ^ (-x).toNat)

/-- PlaneBlock (R258). -/
def planeBlock (fmt : Ty) (p : Nat) (xs : List FVal) : List Int × Nat :=
  if xs.any fun x => match x with
    | .fin .. => false
    | _ => true
  then (xs.map fun _ => 0, 0xFF)
  else
    let e := xs.foldl (fun b x =>
      match x with
      | .fin _ m e => if m = 0 then b else max b (floorLog2 m e)
      | _ => b) fmt.emin
    (xs.map fun x =>
      match x with
      | .fin s m ex => floorScale s m ex ((p : Int) - 2 - e)
      | _ => 0, (e + 127).toNat)

/-- One element's plane bits as a number (R257, R276). -/
def elemPlanes (fmt : Ty) (b : Nat) : Nat :=
  match fmt with
  | .tri2 => if b % 2 = 0 then 0 else b % 4
  | _ => b % 2 ^ fmt.width

/-- The integer q of an element's plane bits (R257). -/
def planeInt (fmt : Ty) (p bits : Nat) : Int :=
  match fmt with
  | .bin1 | .sgn1 | .tri2 => bitFormatVal fmt bits
  | .n4 | .n8 => bits
  | _ => if bits.testBit (p - 1) then (bits : Int) - 2 ^ p else bits

/-- TSZ (R256). -/
def tileSize (fmt : Ty) (p : Nat) : Nat := 512 * p + if fmt.isMatrixFloat then 128 else 0

/-- PLANE's element of a thread (R276). A small immediate stands for its value in the format (R38); where a narrow format has no
such value the element is open (DESIGN CHOICE, log 75). -/
def View.planeElem (w : View) (fmt : Ty) (b : Src) (t : Nat) : Nat :=
  match b with
  | .imm n =>
    if fmt.isMatrixFloat then
      let (x, fl) := roundV fmt (.fixed .rne) false false (ofIntF n.toInt)
      if fl = 0 then x else (Config.freeByte (n.toNat + 128 * fmt.width)).toNat
    else w.n32 b t
  | _ => w.n32 b t

/-- A thread outside the execution mask gives 0; for .sgn1, which has no pattern for it, the bit 0 (DESIGN CHOICE, log 113). -/
def execPlane (x : PlaneF) (s : State) : Out :=
  issue (.plane x) s fun w m =>
    let p := x.p1.toNat + 1
    let base := w.offAddr x.a (x.off.toInt * 128) 1 (lowest m)
    match firstChk ((w.region base 128 (tileSize x.fmt p)).map fun c => (lowest m, c)) with
    | some (code, _, info) => .next (w.trapHere code m info)
    | none =>
      match selRowBlock (w.n32 x.c (lowest m)) with
      | none => .next (w.mxParam m 0x09 0xFF)
      | some (r, j) =>
        if w.g.releasePending then .next (w.hold .again)
        else
          let elem := fun t => if inMask m t then w.planeElem x.fmt x.b t else 0
          let fl := x.fmt.isMatrixFloat
          let (q, eb) := if fl then planeBlock x.fmt p ((List.range 32).map fun t =>
              if inMask m t then decodeF x.fmt false (elem t % 2 ^ x.fmt.width) else .fin false 0 0) else ([], 0)
          let bits := fun t => if fl then wrap p (q.getD t 0) else if inMask m t then elemPlanes x.fmt (elem t) else 0
          let word := fun k => (maskOf fun t => (bits t).testBit k).toNat
          let parts := (List.range p).map fun k => (base.toNat + 512 * k + 16 * r + 4 * j, bytesOf 4 (word k))
          let parts := if fl then parts ++ [(base.toNat + 512 * p + 4 * r + j, bytesOf 1 eb)] else parts
          w.mxDone (.plane x) m (w.scrStore parts)

/-- The plane bits of element k of a row of a tile at a scratchpad offset (R256). -/
def Team.planeBits (tm : Team) (base p r k : Nat) : Nat :=
  (List.range p).foldl (fun n i =>
    n + if (readByte tm.scratch (base + 512 * i + 16 * r + k / 8)).getLsbD (k % 8) then 2 ^ i else 0) 0

/-- Scratchpad halves with an uncorrectable error that UNPLANE, MXPERM's matrix or MXOP's block reads give their bits, without mark or
trap: the spec gives none (DESIGN CHOICE, log 114). -/
def execUnplane (x : Unplane) (s : State) : Out :=
  issue (.unplane x) s fun w m =>
    let p := x.p1.toNat + 1
    let base := w.offAddr x.a (x.off.toInt * 128) 1 (lowest m)
    match firstChk ((w.region base 128 (tileSize x.fmt p)).map fun c => (lowest m, c)) with
    | some (code, _, info) => .next (w.trapHere code m info)
    | none =>
      match selRowBlock (w.n32 x.c (lowest m)) with
      | none => .next (w.mxParam m 0x09 0xFF)
      | some (r, j) =>
        let q := fun t => planeInt x.fmt p (w.tm.planeBits base.toNat p r (32 * j + t))
        let eb := (readByte w.tm.scratch (base.toNat + 512 * p + 4 * r + j)).toNat
        let out := fun t : Nat => LaneOut.bits (
          if x.fmt.isMatrixFloat then
            if eb = 255 then qnanF .f32
            else (roundF .f32 (.fixed .rne) false false (q t < 0) (q t).natAbs ((eb : Int) - 127 - ((p : Int) - 2))).1
          else wrap 32 (q t))
        let st := (List.range p).foldl (fun b k => max b (w.tm.stampOf (base.toNat + 512 * k + 16 * r + 4 * j))) 0
        .next ({ w with g := { w.g with lmax := max w.g.lmax st } }.finish (.unplane x) m false out)

/-! ## Operations (R259 to R266) -/

/-- A field of R260 fails: reason and offset. The fields in ascending offset, then the regions. An output that overlaps an operand
region (reason 0x0B) names OBASE's offset (DESIGN CHOICE, log 115). -/
def mxCheck (bs : List Byte) (scr : Nat) : Option (Nat × Nat) :=
  let b := fun o => fieldOf bs o 1
  let d := fun o => fieldOf bs o 4
  let ty := fun o => if b o < 32 then (Ty.ofCode (BitVec.ofNat 5 (b o))).filter Ty.isMatrix else none
  let fa := ty 0
  let fb := ty 1
  let fl := b 9
  let epi := b 10
  let acc := fl.testBit 0
  let isFl := fun o : Option Ty => (o.map Ty.isMatrixFloat).getD false
  let et := if b 11 < 32 then (Ty.ofCode (BitVec.ofNat 5 (b 11))).filter Ty.isEpi else none
  let esz := (et.map fun t => t.width / 8).getD 1
  let on := epi.testBit 0
  let finite := fun o => fexp .f32 (d o) != 255
  let tsz := fun (f : Option Ty) o => (f.map fun t => tileSize t (b o)).getD 0
  let inScr := fun (off n align : Nat) => off % align == 0 && decide (off + n ≤ scr)
  let regA := (d 0x18, tsz fa 2 * b 4 * fieldOf bs 6 2)
  let regB := (d 0x1C, tsz fb 3 * b 5 * fieldOf bs 6 2)
  let regSA := (d 0x20, 128 * b 4 * fieldOf bs 6 2)
  let regSB := (d 0x24, 128 * b 5 * fieldOf bs 6 2)
  let outRows := (List.range (32 * b 4)).map fun r => (d 0x28 + r * d 0x2C, 32 * b 5 * esz)
  let ins := [regA, regB] ++ (if fl.testBit 3 then [regSA] else []) ++ if fl.testBit 4 then [regSB] else []
  let meets := fun (x y : Nat × Nat) => decide (x.1 < y.1 + y.2 ∧ y.1 < x.1 + x.2)
  let checks : List (Bool × Nat × Nat) :=
    [ (fa.isNone, 0x02, 0x00), (fb.isNone, 0x02, 0x01),
      (!((fa.map fun t => planesOk t (b 2)).getD false), 0x03, 0x02),
      (!((fb.map fun t => planesOk t (b 3)).getD false), 0x03, 0x03),
      (!(1 ≤ b 4 && b 4 ≤ 4), 0x04, 0x04), (!(1 ≤ b 5 && b 5 ≤ 4), 0x04, 0x05),
      (!(1 ≤ fieldOf bs 6 2 && fieldOf bs 6 2 ≤ 64), 0x04, 0x06),
      (decide (16 < b 8 + b 4 * b 5), 0x04, 0x08),
      (acc && (isFl fa || isFl fb || bitsOf fl 3 4 != 0), 0x05, 0x09),
      (fl.testBit 2 && !acc, 0x05, 0x09), (fl.testBit 7, 0x07, 0x09),
      (bitsOf epi 4 4 != 0 || (!on && bitsOf epi 1 3 != 0), 0x07, 0x0A),
      (!on && b 11 != 0, 0x07, 0x0B), (on && et.isNone, 0x08, 0x0B),
      (!fl.testBit 5 && d 0x0C != 0, 0x07, 0x0C), (fl.testBit 5 && !finite 0x0C, 0x0C, 0x0C),
      (!fl.testBit 6 && d 0x10 != 0, 0x07, 0x10), (fl.testBit 6 && !finite 0x10, 0x0C, 0x10),
      (!on && d 0x14 != 0, 0x07, 0x14),
      (!fl.testBit 3 && d 0x20 != 0, 0x07, 0x20), (!fl.testBit 4 && d 0x24 != 0, 0x07, 0x24),
      (!on && d 0x28 != 0, 0x07, 0x28), (!on && d 0x2C != 0, 0x07, 0x2C),
      (on && (d 0x2C % 16 != 0 || decide (d 0x2C < 32 * b 5 * esz) || decide (2 ^ 20 < d 0x2C)), 0x08, 0x2C),
      (fieldOf bs 0x30 16 != 0, 0x07, 0x30),
      (!inScr regA.1 regA.2 128, 0x06, 0x18), (!inScr regB.1 regB.2 128, 0x06, 0x1C),
      (fl.testBit 3 && !inScr regSA.1 regSA.2 128, 0x06, 0x20), (fl.testBit 4 && !inScr regSB.1 regSB.2 128, 0x06, 0x24),
      (on && (d 0x28 % esz != 0 || outRows.any fun o => decide (scr < o.1 + o.2)), 0x06, 0x28),
      (on && outRows.any fun o => ins.any fun i => meets o i, 0x0B, 0x28) ]
  (checks.find? fun c => c.1).map fun c => c.2

/-- NEED (R269). -/
def mxNeed (bs : List Byte) : Nat := fieldOf bs 4 1 * fieldOf bs 5 1 * fieldOf bs 6 2 * fieldOf bs 2 1 * fieldOf bs 3 1

/-- MXOP (R263, R273): while the queue is full it does not issue; it then waits until its block has been read and checked. Without a tile
store no field of the block fails, and FIELD is 0 (DESIGN CHOICE, log 115). -/
def execMxop (x : Mxop) (s : State) : Out :=
  issue (.mxop x) s fun w m =>
    let off := w.offAddr x.a (x.off.toInt * 64) 1 (lowest m)
    if w.store?.any fun q => 8 ≤ q.queue.length then .next (w.hold .again)
    else
      match firstChk ((w.region off 64 64).map fun c => (lowest m, c)) with
      | some (code, _, info) => .next (w.trapHere code m info)
      | none =>
        if w.store?.isNone then .next (w.mxParam m 0x01 0)
        else
          let s := w.s.issued w.u x.ctl w.halting { w.g with mxpend := some ⟨x, w.s.curPc, m, w.sel, off.toNat⟩ }
          .next (s.updGroup w.u fun g => { g with wait := .accept })

/-- The identifier after one (R263): it skips 0. -/
def nextId (n : Nat) : Nat := if (n + 1) % 2 ^ 32 = 0 then 1 else n + 1

/-- The acceptance of a checked block: the operation enters the queue, its identifier goes to sD, the threads it was issued for move on. -/
def View.mxAccept (w : View) (x : Mxop) (sel : Mask) (bs : List Byte) : State :=
  let q := w.s.quadOf w.g.quad
  let id := nextId q.last
  let op : MxOp := { id := id, group := w.u, team := w.g.team, blk := bs, pts := w.g.pts, left := mxNeed bs, since := w.tm.past.length }
  let s := (w.s.updQuad w.g.quad fun q => { q with last := id, queue := q.queue ++ [op] }).updTeam w.g.team fun tm =>
    { tm with mxin := tm.mxin + 1 }
  let g := ((releaseS (Instr.mxop x).uses.srcs w.g).advance sel).joinSb (setsbOf x.ctl)
  let g := (g.setS x.d.toNat (BitVec.ofNat 64 id)).clearMarks .s 0 x.d.toNat 1
  s.setGroup w.u { g with inflight := g.inflight ++
    [{ pc := w.pc64, opc := 0x1C0, flags := 0, sb := setsbOf x.ctl, when_ := .mx g.quad id }] }

/-- MXOP_ACCEPT (R262, R263): the block is read, once, and checked; a failure is MXOP's precise trap. -/
def execMxopAccept (u : Nat) (s : State) : Out :=
  match (look s.groups u).bind fun g => g.mxpend with
  | none => .next s
  | some p =>
    match { s with cur := u, curPc := p.pc, curMask := 0xFFFFFFFF#32, curBlind := false }.view? with
    | none => .next s
    | some w =>
      if 8 ≤ (s.quadOf w.g.quad).queue.length then .next s
      else
        let w := { w with g := { w.g with mxpend := none, wait := .none } }
        let bs := w.tm.scrBytes p.off 64
        let s' := match mxCheck bs w.tm.scratchSize with
          | some (reason, field) => w.mxParam p.m reason field
          | none => w.mxAccept p.x p.sel bs
        .next { s' with cur := s.cur, curPc := s.curPc, curMask := s.curMask, curBlind := s.curBlind }

/-- Leave is taken from the balance for the head of the queue, or asked for (R269). -/
def State.takeLeave (s : State) (qn : Nat) (q : Quad) (op : MxOp) (rest : List MxOp) : State :=
  let want := min op.left (2 ^ 20)
  if want ≤ q.balance then
    s.updQuad qn fun q =>
      { q with grants := spendGrants want q.grants
               queue := { op with left := op.left - want, started := true, asked := false } :: rest }
  else if op.asked then s
  else
    let s := s.updQuad qn fun q => { q with queue := { op with asked := true } :: rest }
    { s with govs := put s.govs (qn / 512) (let v := rget {} s.govs (qn / 512)
      { v with queue := v.queue ++ [(.op qn, want - q.balance)] }) }

/-- MATRIX_OP_START (R264, R269): also the later portions of an operation above 2^20. -/
def execMatrixOpStart (qn : Nat) (s : State) : Out :=
  let q := s.quadOf qn
  match q.queue with
  | [] => .next s
  | op :: rest => if op.started && op.left == 0 then .next s else .next (s.takeLeave qn q op rest)

/-- The number of an e8m0 block scale, or 1 (R259). -/
def scaleOf (present : Bool) (b : Nat) : FVal := if present then (if b = 255 then .nan else .fin false 1 ((b : Int) - 127))
  else .fin false 1 0

/-- One block's contribution to one element in FP32 mode (R259). -/
def mxStepF (a : FVal) (old : W32) (sum : Int) (unit : Int) (nonfinite : Bool) (scales : List FVal) : W32 :=
  if a.isNaN || nonfinite || scales.any FVal.isNaN then BitVec.ofNat 32 (qnanF .f32)
  else
    match a with
    | .fin .. =>
      if sum = 0 then old
      else
        let f := scales.foldl (fun f x => (mulF f x).getD .nan) (FVal.fin (sum < 0) sum.natAbs unit)
        match addF false a f with
        | some (.fin _ 0 _) => 0
        | some y => BitVec.ofNat 32 (roundV .f32 (.fixed .rne) false false y).1
        | none => old
    | _ => old

/-- An operand tile's element and exponent byte. -/
def opElem (tm : Team) (fmt : Ty) (base p r k : Nat) : Int := planeInt fmt p (tm.planeBits base p r k)

/-- The accumulation of one element over every step and block (R259). -/
def mxElement (tm : Team) (bs : List Byte) (i j r c : Nat) (w0 : W32) : W32 :=
  let b := fun o => fieldOf bs o 1
  let fa := (Ty.ofCode (BitVec.ofNat 5 (b 0))).getD .i8
  let fb := (Ty.ofCode (BitVec.ofNat 5 (b 1))).getD .i8
  let pa := b 2
  let pb := b 3
  let ks := fieldOf bs 6 2
  let fl := b 9
  let sc := fun (bit off : Nat) => if fl.testBit bit then decodeF .f32 false (fieldOf bs off 4) else .fin false 1 0
  (List.range (4 * ks)).foldl (fun acc n =>
    let s := n / 4
    let blk := n % 4
    let ta := fieldOf bs 0x18 4 + tileSize fa pa * (i * ks + s)
    let tb := fieldOf bs 0x1C 4 + tileSize fb pb * (j * ks + s)
    let sum := (List.range 32).foldl (fun (z : Int) k =>
      z + opElem tm fa ta pa r (32 * blk + k) * opElem tm fb tb pb c (32 * blk + k)) 0
    if fl.testBit 0 then
      let v := acc.toInt + sum
      BitVec.ofInt 32 (if fl.testBit 2 then clampI v (-(2 ^ 31)) (2 ^ 31 - 1) else v)
    else
      let eb := fun (t p row : Nat) => (readByte tm.scratch (t + 512 * p + 4 * row + blk)).toNat
      let ea := if fa.isMatrixFloat then eb ta pa r else 0
      let ebb := if fb.isMatrixFloat then eb tb pb c else 0
      let unit : Int := (if fa.isMatrixFloat then (ea : Int) - 127 - ((pa : Int) - 2) else 0)
        + if fb.isMatrixFloat then (ebb : Int) - 127 - ((pb : Int) - 2) else 0
      let bsa := (readByte tm.scratch (fieldOf bs 0x20 4 + 128 * (i * ks + s) + 4 * r + blk)).toNat
      let bsb := (readByte tm.scratch (fieldOf bs 0x24 4 + 128 * (j * ks + s) + 4 * c + blk)).toNat
      mxStepF (decodeF .f32 false acc.toNat) acc sum unit (ea == 255 || ebb == 255)
        [scaleOf (fl.testBit 3) bsa, scaleOf (fl.testBit 4) bsb, sc 5 0x0C, sc 6 0x10]) w0

/-- The scratchpad ranges whose data reach element (r, c) of tile (i, j): planes, block exponents, block scales. -/
def mxRanges (bs : List Byte) (i j r c : Nat) : List (Nat × Nat) :=
  let b := fun o => fieldOf bs o 1
  let ks := fieldOf bs 6 2
  let side := fun (fmt p base row t scl : Nat) (scaled : Bool) =>
    let ty := (Ty.ofCode (BitVec.ofNat 5 fmt)).getD .i8
    let a := base + tileSize ty p * t
    (List.range p).map (fun k => (a + 512 * k + 16 * row, 16)) ++ (if ty.isMatrixFloat then [(a + 512 * p + 4 * row, 4)] else [])
      ++ if scaled then [(scl + 128 * t + 4 * row, 4)] else []
  (List.range ks).flatMap fun s =>
    side (b 0) (b 2) (fieldOf bs 0x18 4) r (i * ks + s) (fieldOf bs 0x20 4) ((b 9).testBit 3)
      ++ side (b 1) (b 3) (fieldOf bs 0x1C 4) c (j * ks + s) (fieldOf bs 0x24 4) ((b 9).testBit 4)

/-- The element used data with an uncorrectable error (R254). -/
def mxBad (tm : Team) (bs : List Byte) (i j r c : Nat) : Bool :=
  !tm.scrbad.isEmpty && (mxRanges bs i j r c).any fun a => tm.scrbad.any fun h => decide (a.1 / 2 ≤ h ∧ h ≤ (a.1 + a.2 - 1) / 2)

/-- A memory-error mark on both halves of a tile word. -/
def Quad.markWord (q : Quad) (key : Nat) : Quad := { q with tmarks := put (put q.tmarks (2 * key) true) (2 * key + 1) true }

/-- The tiles after an operation's accumulation: a marked word keeps its mark, one made of bad data gets one (R254). -/
def mxAccumulate (tm : Team) (op : MxOp) (q : Quad) : Quad :=
  let q := if (fieldOf op.blk 9 1).testBit 1 then q.zeroTiles ((List.range 16).filter op.owns) else q
  let q := { q with soft := q.soft.filter fun k => !op.owns (k / 2 / 1024) }
  (List.range (op.mt * op.nt * 1024)).foldl (fun q' n =>
    let x := n / 1024
    let r := n / 32 % 32
    let c := n % 32
    let key := tileKey (op.tb + x) r c
    let e := mxElement tm op.blk (x / op.nt) (x % op.nt) r c (q.word (op.tb + x) r c)
    let q' := { q' with tiles := rput 0 q'.tiles key e }
    if mxBad tm op.blk (x / op.nt) (x % op.nt) r c then q'.markWord key else q') q

/-- The epilogue (R266): bytes of the output rows, and the tiles after CLR. -/
def mxEpilogue (op : MxOp) (q : Quad) : List (Nat × List Byte) × Quad :=
  let epi := fieldOf op.blk 10 1
  if !epi.testBit 0 then ([], q)
  else
    let ty := (Ty.ofCode (BitVec.ofNat 5 (fieldOf op.blk 11 1))).getD .f32
    let st := if (fieldOf op.blk 9 1).testBit 0 then Ty.i32 else .f32
    let alpha := decodeF .f32 false (fieldOf op.blk 0x14 4)
    let row := fun rr => (List.range (32 * op.nt)).flatMap fun cc =>
      bytesOf (ty.width / 8) (epiConvert ty (epi.testBit 2)
        (epiValue (epiRead st (q.word (op.tb + rr / 32 * op.nt + cc / 32) (rr % 32) (cc % 32))) alpha (epi.testBit 1)))
    ((List.range (32 * op.mt)).map fun rr => (fieldOf op.blk 0x28 4 + rr * fieldOf op.blk 0x2C 4, row rr),
      if epi.testBit 3 then q.zeroTiles ((List.range 16).filter op.owns) else q)

/-- Scratchpad halves that the epilogue writes from marked words: their data have an uncorrectable error too (R254; DEDUCED, log 96). -/
def mxEpiBad (op : MxOp) (q : Quad) : List Nat :=
  let sz := ((Ty.ofCode (BitVec.ofNat 5 (fieldOf op.blk 11 1))).getD .f32).width / 8
  if !(fieldOf op.blk 10 1).testBit 0 then []
  else
    dedup ((dedup (q.tmarks.map fun k => k.1 / 2)).flatMap fun key =>
      let n := key / 1024
      if op.owns n then
        let o := fieldOf op.blk 0x28 4 + (32 * ((n - op.tb) / op.nt) + key / 32 % 32) * fieldOf op.blk 0x2C 4
          + (32 * ((n - op.tb) % op.nt) + key % 32) * sz
        [o / 2, (o + sz - 1) / 2]
      else [])

/-- The team's scratchpad as an operation reads it (R265): a byte written since the operation was accepted is what it was before one
of these writes or what it is now, a free choice for each byte (log entry 13). -/
def MxOp.seen (op : MxOp) (n : Nat) (tm : Team) : Team :=
  let gone := tm.past.drop op.since
  let picks : AList (Byte × Bool) := (dedup (gone.map fun b => b.1)).zipIdx.foldl (fun l a =>
    let vals := (readByte tm.scratch a.1, tm.scrbad.contains (a.1 / 2)) :: (gone.filter fun b => b.1 == a.1).map fun b => b.2
    put l a.1 (vals.getD ((Config.freeValue (n + a.2)).toNat % vals.length) (0, false))) []
  let bad := fun a : Nat => ((look picks a).map fun p : Byte × Bool => p.2).getD (tm.scrbad.contains (a / 2))
  { tm with scratch := picks.foldl (fun m p => writeByte m p.1 p.2.1) tm.scratch
            scrbad := (dedup (tm.scrbad ++ picks.map fun p => p.1 / 2)).filter fun h => bad (2 * h) || bad (2 * h + 1) }

/-- An operation of the team has ended. -/
def Team.opEnded (tm : Team) : Team :=
  { tm with mxin := tm.mxin - 1, past := if tm.mxin ≤ 1 then [] else tm.past }

/-- MATRIX_OP_COMPLETE (R259, R264 to R266). -/
def execMatrixOpComplete (qn : Nat) (s : State) : Out :=
  let q := s.quadOf qn
  match q.queue with
  | [] => .next s
  | op :: rest =>
    match look s.teams op.team with
    | none => .next s
    | some tm =>
      if !op.started || op.left != 0 then .next s
      else
        let q1 := mxAccumulate (op.seen s.nfree tm) op q
        let (rows, q2) := mxEpilogue op q1
        let bad := mxEpiBad op q1
        let found := if (fieldOf op.blk 9 1).testBit 1 then 0 else (q.soft.filter fun k => op.owns (k / 2 / 1024)).length
        let s := (List.range found).foldl (fun s _ => s.countCorrected) s
        let s := { s.updQuad qn fun _ => { q2 with queue := rest, done := op.id } with nfree := s.nfree + tm.past.length }
        .next (s.updTeam op.team fun tm =>
          let tm := (rows.foldl (fun tm p =>
            (cutAt 128 p.1 p.2.length).foldl (fun tm c => tm.scrWrite c.1 ((p.2.drop c.2.1).take c.2.2) op.pts) tm) tm).opEnded
          { tm with scrbad := tm.scrbad ++ bad })

/-! ## MXWAIT, MXQRY, LEAVE (R269, R279 to R281) -/

/-- MXWAIT's condition (R279). -/
def mxWaitMet (q : Quad) (a : Nat) : Bool :=
  let ahead := fun x y : Nat => decide (((x : Int) - y) % 2 ^ 32 < 2 ^ 31)
  if a = 0 then q.done == q.last
  else if ahead q.last a then ahead q.done a
  else true

/-- The head of the queue waits for leave, to start or for its next portion. -/
def Quad.leaveShort (q : Quad) : Bool :=
  match q.queue with
  | op :: _ => op.left != 0 && q.balance < min op.left (2 ^ 20)
  | [] => false

/-- A wait for operations is the leave-wait stall: one of them has not started, and the head of the queue waits for leave (R269). -/
def Quad.leaveStall (q : Quad) (awaited : Nat → Bool) : Bool := q.leaveShort && q.queue.any fun o => awaited o.id && !o.started

/-- The operations that MXWAIT waits for: those up to an identifier, or all (R279). -/
def mxAwaited (a id : Nat) : Bool := a == 0 || decide (((a : Int) - id) % 2 ^ 32 < 2 ^ 31)

def execMxwait (x : SrcF) (s : State) : Out :=
  issue (.mxwait x) s fun w m =>
    match w.store? with
    | none => w.mxDone (.mxwait x) m w.s
    | some q => if mxWaitMet q (w.n32 x.a (lowest m)) then w.mxDone (.mxwait x) m w.s else .next (w.hold (if q.leaveStall (mxAwaited (w.n32 x.a (lowest m))) then .away else .kept))

def mxQuery (q : Quad) (sel : Nat) : Nat :=
  match sel with
  | 0 => q.last
  | 1 => q.done
  | 2 => q.queue.length + (if q.leaveShort then 2 ^ 8 else 0) + q.balance * 2 ^ 32
  | _ => (maskOf fun n => decide (n < 16) && (q.ownerOf n).isSome).toNat

def execMxqry (x : Mxqry) (s : State) : Out :=
  laneOp (.mxqry x) s false fun w _ _ => .bits ((w.store?.map fun q => mxQuery q x.sel.toNat).getD 0)

def execLeave (x : SrcF) (s : State) : Out :=
  issue (.leave x) s fun w m =>
    match w.store? with
    | none => w.mxDone (.leave x) m w.s
    | some q =>
      match w.g.leave with
      | some true => { w with g := { w.g with leave := none } }.mxDone (.leave x) m w.s
      | some false => .next (w.hold .away)
      | none =>
        let n := min (w.n32 x.a (lowest m)) (2 ^ 20 - q.balance)
        if n = 0 then w.mxDone (.leave x) m w.s
        else
          let d := w.tm.district
          let s := { w.s with govs := put w.s.govs d (let v := rget {} w.s.govs d
            { v with queue := v.queue ++ [(.leave w.u, n)] }) }
          .next ({ w with s := s, g := { w.g with leave := some false } }.hold .away)

end Sys2Proof.Machine
end

