-- ==== Sys2Proof/Machine/Task.lean ====
section
/-!
DEFINITION. Graphs and their nodes (R283 to R290, R308, R309, R409): packets, checks, deliveries, retirement, completion.
-/

namespace Sys2Proof.Machine

/-! ## Task control blocks (R283, R409) -/

def Node.fld (x : Node) (off n : Nat) : Nat := fieldOf x.tcb off n
def Node.kind (x : Node) : Nat := x.fld 0x08 1
def Node.pred (x : Node) : Nat := x.fld 0x00 2
def Node.rerun (x : Node) : Bool := (x.fld 0x09 1).testBit 0
def Node.matrix (x : Node) : Bool := (x.fld 0x09 1).testBit 1
def Node.stage (x : Node) : Nat := x.fld 0x0A 1
def Node.nfifo (x : Node) : Nat := x.fld 0x0B 1
def Node.drain (x : Node) : Nat := x.fld 0x0E 2
def Node.nclu (x : Node) : Nat := x.fld 0x18 4
def Node.nstrm (x : Node) : Nat := x.fld 0x34 1
def Node.bodyLo (x : Node) : Nat := x.fld 0x30 2
def Node.bodyHi (x : Node) : Nat := x.fld 0x32 2
def Node.ops (x : Node) (i : Nat) : Nat := x.fld (0x40 + 8 * i) 8
def Node.inBody (x : Node) (n : Nat) : Bool := x.kind == 2 && x.bodyLo ≤ n && n ≤ x.bodyHi

/-- Bytes of a list that must be zero: (offset, length). -/
def zeroAt (bs : List Byte) (rs : List (Nat × Nat)) : Bool := rs.all fun r => fieldOf bs r.1 r.2 == 0

/-- KIND, unused and reserved fields, alignments and limits of one TCB. -/
def Node.fieldsOk (x : Node) : Bool :=
  let b := x.tcb
  let common := x.fld 0x04 4 % 2 == 0 && decide (x.fld 0x02 2 ≤ 4095)
  common && (match x.kind with
    | 0 => decide (x.fld 0x09 1 < 4 ∧ x.nfifo ≤ 4 ∧ 1 ≤ x.nclu ∧ x.nclu ≤ 2 ^ 24 ∧ x.nstrm ≤ 8)
        && x.fld 0x10 8 % 256 == 0 && x.fld 0x28 8 % 128 == 0 && (List.range 8).all (fun i => x.ops i % 64 == 0)
        && zeroAt b [(0x1C, 12), (0x30, 4), (0x35, 11)]
    | 1 => x.fld 0x20 8 % 8 == 0 && zeroAt b [(0x09, 1), (0x0B, 21), (0x28, 88)]
    | 2 => x.fld 0x20 8 % 8 == 0 && zeroAt b [(0x09, 1), (0x0B, 17), (0x28, 8), (0x34, 76)]
    | 3 => decide (x.fld 0x09 1 < 2 ∧ x.nfifo ≤ 4 ∧ 2 ≤ x.fld 0x18 2 ∧ x.fld 0x18 2 ≤ 1024 ∧ x.fld 0x1C 1 ≤ 4)
        && x.fld 0x10 8 % 8 == 0
        && (if x.fld 0x1C 1 ≤ 1 then decide (x.fld 0x1D 1 ≤ 5) else x.fld 0x1D 1 == 0)
        && (x.fld 0x1C 1 == 3 || x.fld 0x1E 2 == 0) && x.ops 0 % 64 == 0 && x.ops 1 % 64 == 0
        && zeroAt b [(0x0C, 4), (0x28, 24), (0x50, 48)]
    | 4 => zeroAt b [(0x09, 1), (0x0B, 117)]
    | _ => false)

/-- Nodes reachable from a set in at most f steps. -/
def reachable (nodes : List Node) : Nat → List Nat → List Nat
  | 0, l => l
  | f + 1, l => reachable nodes f (dedup (l ++ l.flatMap fun n => (nodes.getD n { tcb := [], succ := [] }).succ))

/-- Some check of R285 fails at node n. -/
def badNode (nodes : List Node) (n : Nat) : Bool :=
  match nodes[n]? with
  | none => true
  | some x =>
    let bodies := (List.range nodes.length).filter fun m => (nodes.getD m x).kind == 2
    let span := fun m => ((nodes.getD m x).bodyLo, (nodes.getD m x).bodyHi)
    !x.fieldsOk || x.succ.any (fun m => decide (nodes.length ≤ m))
      || (reachable nodes nodes.length x.succ).contains n
      || (x.kind == 2 && (decide (x.bodyHi < x.bodyLo ∨ nodes.length ≤ x.bodyHi) || x.inBody n
          || bodies.any fun m => m != n &&
              (let (a, b) := span n
               let (c, d) := span m
               !(decide (b < c) || decide (d < a) || (a ≤ c && d ≤ b) || (c ≤ a && b ≤ d)))))
      || x.succ.any fun m => bodies.any fun k => (nodes.getD k x).inBody n != (nodes.getD k x).inBody m

/-! ## Loading (R285, R308) -/

/-- An address that a TCB or packet holds: VA[71:64] is the graph base's. -/
def Graph.addr (g : Graph) (lo : Nat) : VA := BitVec.ofNat 72 (lo + 2 ^ 64 * (g.base.toNat / 2 ^ 64))
def Graph.node (g : Graph) (n : Nat) : Node := g.nodes.getD n { tcb := [], succ := [] }
def Graph.setNode (g : Graph) (n : Nat) (f : Node → Node) : Graph := { g with nodes := setAt g.nodes n f }

/-- Read node n of a graph; none when it cannot be read. -/
def State.readNode (s : State) (cx : Ctx) (g : Graph) (n : Nat) : Option Node :=
  (s.exRead? cx (g.base + BitVec.ofNat 72 (128 * n)) 128).bind fun tcb =>
    let ns := fieldOf tcb 2 2
    if ns = 0 ∨ 4095 < ns then some { tcb := tcb, succ := [] }
    else (s.exRead? cx (g.base + BitVec.ofNat 72 (fieldOf tcb 4 4)) (2 * ns)).map fun bs =>
      { tcb := tcb, succ := (List.range ns).map fun i => fieldOf bs (2 * i) 2 }

/-- A graph as its packet announces it, loaded or failed with BADTCB (R285). -/
def State.loadNodes (s : State) (cx : Ctx) (g : Graph) (count : Nat) : Graph :=
  if g.base.toNat % 128 ≠ 0 then { g with fail := some (0x010B, 0) }
  else
    let read := (List.range count).map fun n => s.readNode cx g n
    match read.findIdx? Option.isNone with
    | some n => { g with fail := some (0x010B, n) }
    | none =>
      let nodes := read.filterMap id
      match (List.range count).find? (badNode nodes) with
      | some n => { g with fail := some (0x010B, n) }
      | none => { g with nodes := nodes.map fun x => { x with count := x.pred } }

/-! ## Deliveries (R286) -/

/-- A delivery under way: from node, to node, RUN or SKIP. -/
structure Deliv where
  src : Nat
  dst : Nat
  run : Bool
  deriving DecidableEq, Repr

/-- Predecessors of a node. -/
def Graph.preds (g : Graph) (n : Nat) : List Nat :=
  (List.range g.nodes.length).filter fun m => (g.node m).succ.contains n

/-- The while nodes whose body holds n. -/
def Graph.whiles (g : Graph) (n : Nat) : List Nat := (List.range g.nodes.length).filter fun m => (g.node m).inBody n

/-- The innermost while node whose body holds n. -/
def Graph.innermost (g : Graph) (n : Nat) : Option Nat :=
  (g.whiles n).foldl (fun b m =>
    match b with
    | none => some m
    | some k => if (g.node m).bodyHi - (g.node m).bodyLo < (g.node k).bodyHi - (g.node k).bodyLo then some m else b) none

def Node.over (x : Node) : Bool := x.st == .retired || x.st == .skipped
/-- Dispatched and not retired. -/
def Node.busy (x : Node) : Bool := x.live && !x.over

/-- While nodes and those in their bodies, in at most f steps: a nested body need not lie in the range of the outer one (R285). -/
def Graph.nested (g : Graph) : Nat → List Nat → List Nat
  | 0, ws => ws
  | f + 1, ws =>
    let more := (List.range g.nodes.length).filter fun m => (g.node m).kind == 2 && !ws.contains m && ws.any fun w => (g.node w).inBody m
    if more.isEmpty then ws else g.nested f (ws ++ more)

/-- The node lies in the body of a while node or in one nested in it. -/
def Graph.inClosure (g : Graph) (wn k : Nat) : Bool := (g.nested g.nodes.length [wn]).any fun w => (g.node w).inBody k

/-- A while node's body closes, and the bodies nested in it: what has not retired in the round retires as SKIPPED (R286). -/
def Graph.closeBody (g : Graph) (wn : Nat) : Graph :=
  let ws := g.nested g.nodes.length [wn]
  { g with nodes := g.nodes.mapIdx fun k x =>
      if (ws.any fun w => (g.node w).inBody k) ∧ !x.over ∧ !x.busy then { x with st := .skipped, status := 1, armed := false } else x }

/-- A node retires with a status; OK and SKIPPED give deliveries, any other status fails the graph (R286, R290). -/
def Graph.settleNode (g : Graph) (n status : Nat) (toRun : Nat → Bool) : Graph × List Deliv :=
  let x := g.node n
  let g := g.setNode n fun x => { x with st := if status = 1 then .skipped else .retired, status := status, live := false }
  let g := if x.kind = 2 then g.closeBody n else g
  if status ≤ 1 then
    (g, if g.fail.isSome then [] else x.succ.mapIdx fun i m => { src := n, dst := m, run := status == 0 && toRun i : Deliv })
  else ({ g with fail := g.fail.orElse fun _ => some (status, n) }, [])

/-- A node whose count is 0 runs or is skipped. Empty nodes retire at once; the others wait for their own step. -/
def Graph.arrive (g : Graph) (n : Nat) : Graph × List Deliv :=
  let x := g.node n
  if x.pred = 0 ∨ x.gotRun then
    if x.kind = 4 then g.settleNode n 0 fun _ => true
    else (g.setNode n fun x => { x with st := if x.st = .waiting then .chosen else x.st }, [])
  else g.settleNode n 1 fun _ => false

/-- Deliveries are worked off; what a failed graph delivers is discarded (R286, R290). -/
def Graph.deliver : Nat → Graph → List Deliv → Graph
  | 0, g, _ => g
  | _, g, [] => g
  | f + 1, g, d :: ds =>
    if g.fail.isSome then g
    else
      let g := g.setNode d.dst fun x =>
        { x with count := x.count - 1, gotRun := x.gotRun || d.run, from_ := d.src :: x.from_ }
      if (g.node d.dst).count = 0 ∧ !(g.node d.dst).over then
        let (g, more) := g.arrive d.dst
        g.deliver f (ds ++ more)
      else g.deliver f ds

def Graph.fuel (g : Graph) : Nat := (g.nodes.map fun x => x.succ.length + 1).sum + g.nodes.length + 1

/-- Nodes of a list with PRED 0 run. -/
def Graph.start (g : Graph) (ns : List Nat) : Graph :=
  ns.foldl (fun g n =>
    if (g.node n).pred = 0 then
      let (g, ds) := g.arrive n
      g.deliver g.fuel ds
    else g) g

/-- Loading makes the nodes with PRED 0 outside every body run (R286). -/
def Graph.begin (g : Graph) : Graph :=
  if g.fail.isSome then g
  else ({ g with nodes := g.nodes.mapIdx fun k (x : Node) => ({ x with armed := (g.whiles k).isEmpty } : Node) }).start
    ((List.range g.nodes.length).filter fun n => (g.whiles n).isEmpty)

/-- Arming a body (R286, R288): counts reset to PRED, nodes with PRED 0 run. Bodies nested in it wait for their own while
node. -/
def Graph.arm (g : Graph) (wn : Nat) : Graph :=
  let body := (List.range g.nodes.length).filter fun n => (g.node wn).inBody n
  let inner := fun n => body.any fun m => (g.node m).inBody n
  let g := { g with nodes := g.nodes.mapIdx fun k (x : Node) =>
    if body.contains k then ({ tcb := x.tcb, succ := x.succ, count := x.pred, armed := !inner k } : Node) else x }
  g.start (body.filter fun n => !inner n)

def State.updGraph (s : State) (k : Nat) (f : Graph → Graph) : State := { s with graphs := upd s.graphs k f }

/-! ## Teams of a node -/

/-- The teams of a node that hold resources. -/
def State.teamsOf (s : State) (gr nd : Nat) : AList Team := s.teams.filter fun t => t.2.task && t.2.graph == gr && t.2.node == nd

/-- A district's governor (R438). -/
def State.gov (s : State) (d : Nat) : Gov := rget {} s.govs d
def State.updGov (s : State) (d : Nat) (f : Gov → Gov) : State := { s with govs := put s.govs d (f (s.gov d)) }

/-- Leave returned goes into the current POOL (R438), whose field has 21 bits (DESIGN CHOICE, log 110: the rest is lost). -/
def Gov.giveBack (v : Gov) (n : Nat) : Gov := { v with pool := min (2 ^ 21 - 1) (v.pool + n) }

/-- A quadrant's store is given up; its leave goes back to the governor (R253, R269). -/
def State.dropStores (s : State) (tk : Nat) : State :=
  (s.quads.filter fun q => q.2.holder == some tk).foldl (fun s q =>
    let s := s.updGov (q.1 / 512) fun v => v.giveBack q.2.balance
    s.updQuad q.1 fun x => { x with holder := none, grants := [], queue := [] }) s

/-- A team's resources are freed: the team, its groups, its copies, its tile stores (R253, R302). -/
def State.freeTeam (s : State) (k : Nat) : State :=
  let s := s.dropStores k
  { s with teams := del s.teams k
           groups := s.groups.filter fun g => g.2.team != k
           copies := s.copies.filter fun c => c.2.team != k }

/-- The objects of a node's kernel are dropped (R293). -/
def State.dropObjs (s : State) (x : Node) : State :=
  match x.kern with
  | some kn => kn.objs.foldl State.dropObj s
  | none => s

/-- A node gives up its teams, its copies and its objects. -/
def State.freeNode (s : State) (gr nd : Nat) (x : Node) : State := (s.teamsOf gr nd).foldl (fun s t => s.freeTeam t.1) (s.dropObjs x)

/-- A node of a failed graph that is placed and not dispatched gives up its teams and copies (R287, R290). -/
def State.freeReady (s : State) (gr n : Nat) : State :=
  match look s.graphs gr with
  | none => s
  | some g =>
    let x := g.node n
    if x.st == .ready && !x.live then
      (s.freeNode gr n x).updGraph gr fun g => g.setNode n fun x => { x with st := .waiting, kern := none, nextClu := 0 }
    else s

/-- What the failure of its graph does to one node that has no kernel: a while
node without dispatched body nodes and a conditional node that has not read its word retire. -/
def State.sweepNode (s : State) (gr n : Nat) : State :=
  match look s.graphs gr with
  | none => s
  | some g =>
    let x := g.node n
    if x.kind = 1 ∧ x.st = .chosen then
      s.updGraph gr fun g => g.setNode n fun x => { x with st := .retired }
    else if x.kind = 2 ∧ (x.st == .chosen || x.st == .running) ∧
        !((List.range g.nodes.length).any fun m => g.inClosure n m && (g.node m).busy) then
      s.updGraph gr fun g => (g.setNode n fun x => { x with st := .retired, live := false }).closeBody n
    else s

/-- What the failure of a graph does to its nodes. -/
def State.failSweep (s : State) (gr : Nat) : State :=
  match look s.graphs gr with
  | none => s
  | some g =>
    if g.fail.isNone then s
    else
      let ns := List.range g.nodes.length
      ns.foldl (fun s n => s.sweepNode gr n) (ns.foldl (fun s n => s.freeReady gr n) s)

/-- A node retires: its deliveries, and the end of a while body's round is left to CONDITION_READ. -/
def State.retireNode (s : State) (gr nd status : Nat) (toRun : Nat → Bool) : State :=
  let s := s.updGraph gr fun g =>
    let (g, ds) := g.settleNode nd status toRun
    g.deliver g.fuel ds
  s.failSweep gr

/-! ## Conditional and while nodes (R288) -/

/-- CONDITION_READ (R288): a conditional node reads its word when it runs; a while node then and each time every node of its
body has retired. -/
def execConditionRead (gr nd : Nat) (s : State) : Out :=
  match look s.graphs gr with
  | none => .next s
  | some g =>
    let x := g.node nd
    let turn := x.st == .chosen
      || (x.kind == 2 && x.st == .running && (List.range g.nodes.length).all fun m => !x.inBody m || (g.node m).over)
    let cx? := look s.ctxs g.ctx
    if g.fail.isSome || !turn || !(x.kind == 1 || x.kind == 2) || (match cx? with
        | some cx => s.exQueued cx (g.addr (x.fld 0x20 8)) 8
        | none => false) then .next s
    else
      let s := match cx? with
        | some cx => s.exTouch cx (g.addr (x.fld 0x20 8)) 8
        | none => s
      match cx?.bind fun cx => s.exRead? cx (g.addr (x.fld 0x20 8)) 8 with
      | none => .next (s.retireNode gr nd 0x0207 fun _ => false)
      | some bs =>
        let v := natOfBytes bs
        if x.kind = 1 then .next (s.retireNode gr nd 0 fun i => i == v)
        else if v = 0 then .next (s.retireNode gr nd 0 fun _ => true)
        else if x.fld 0x1C 4 = 0 ∨ x.iter < x.fld 0x1C 4 then
          .next (s.updGraph gr fun g =>
            (g.setNode nd fun x => { x with st := .running, iter := x.iter + 1 }).arm nd)
        else .next (s.retireNode gr nd 0x0203 fun _ => false)

/-! ## Completion (R290, R309) -/

/-- A graph is complete: nothing of it is dispatched, and every node has retired or the graph has failed. -/
def Graph.complete (g : Graph) : Bool :=
  (g.nodes.all fun x => !x.busy && !(x.kind == 2 && x.st == .running)) && (g.fail.isSome || g.nodes.all Node.over)

/-- INFL of a queue, in its slot or at QCBPA. -/
def State.infl (s : State) (q : Nat) : Nat :=
  match (s.qd q).slot.bind fun k => look s.slots k with
  | some x => x.infl
  | none => natOfBytes (s.homeBytes ((s.qd q).qcbpa * 64 + 0x14) 2)

/-- The queue's QCB lies at home, where a write of it has to wait (R400, R403). -/
def State.qcbHeld (s : State) (q : Nat) : Bool :=
  let a := (s.qd q).qcbpa * 64
  (s.qd q).slot.isNone && (s.lineQueued (lineOf (s.ownPa a))
    || s.homeHeld (s.qd q).zone (s.homeOf (s.zoneOf (s.qd q).zone) {} a) (lineOf (s.ownPa a)))

/-- INFL changes in the slot or at QCBPA, where a CODE frame refuses the write as it does QUNMAP's (R185, R360). -/
def State.addInfl (s : State) (q : Nat) (f : Nat → Nat) : State :=
  let a := (s.qd q).qcbpa * 64
  match (s.qd q).slot with
  | some k => s.updSlot k fun x => x.set 0x14 2 (f x.infl)
  | none => if s.isCode (s.ownPa a) then s.stopQueue q else s.homePut (s.qd q).zone (a + 0x14) (bytesOf 2 (f (s.infl q)))

/-- Write a completion record, bytes 0x00 to 0x0D and then DONE; a failing write stops the queue (R309). -/
def State.writeRecord (s : State) (cx : Ctx) (q : Nat) (va : VA) (tag status node nrun : Nat) : State :=
  match s.exWrite cx va (bytesOf 8 tag ++ bytesOf 2 status ++ bytesOf 2 node ++ bytesOf 2 nrun) with
  | .error _ => s.stopQueue q
  | .ok s =>
    match s.exWrite cx (va + 14) (bytesOf 2 1) with
    | .error _ => s.stopQueue q
    | .ok s => s

/-- DONELO is given: bits [63:0] of the record's address are not 0. -/
def doneGiven (va : VA) : Bool := va.toNat % 2 ^ 64 != 0

/-- COMPLETION_RECORD (R309). -/
def execCompletionRecord (gr : Nat) (s : State) : Out :=
  match look s.graphs gr with
  | none => .next s
  | some g =>
    match look s.ctxs g.ctx with
    | none => .next s
    | some cx =>
      if !g.complete || (s.teams.any fun t => t.2.task && t.2.graph == gr)
          || (doneGiven g.done && s.exHeld cx g.done 16) || s.qcbHeld g.queue then .next s
      else
        let (status, node) := g.fail.getD (0, 0xFFFF)
        let s := s.addInfl g.queue fun n => n - 1
        let s := if doneGiven g.done then s.writeRecord cx g.queue g.done g.tag status node g.nrun else s
        .next { s with graphs := del s.graphs gr }

/-! ## Packets (R308, R319) -/

/-- A packet's fields are valid (R308). -/
def packetOk (bs : List Byte) : Bool :=
  let ty := fieldOf bs 0 1
  (ty == 1 || ty == 2) && decide (fieldOf bs 1 1 < 2)
    && (if ty = 1 then decide (1 ≤ fieldOf bs 2 2 ∧ fieldOf bs 2 2 ≤ 4096) else fieldOf bs 2 2 == 0 && fieldOf bs 8 8 == 0)
    && zeroAt bs [(4, 4), (0x11, 7), (0x28, 24)] && fieldOf bs 0x18 8 % 16 == 0

def packetFence (bs : List Byte) : Bool := (fieldOf bs 1 1).testBit 0
def packetDone (bs : List Byte) : VA := BitVec.ofNat 72 (fieldOf bs 0x18 8 + 2 ^ 64 * fieldOf bs 0x10 1)

/-- The private arena of a queue (R292, R306). -/
def qcbArena (bs : List Byte) : VA × Nat := (BitVec.ofNat 72 (fieldOf bs 0x18 8 + 2 ^ 64 * fieldOf bs 0x20 1), fieldOf bs 0x28 8)

/-- A GRAPH packet is accepted: the graph gets its identifier and is loaded (R285, R308). -/
def State.submit (s : State) (cn : Nat) (cx : Ctx) (q : Nat) (qcb bs : List Byte) : State × Nat :=
  let id := (s.nextGraph + 1) % 2 ^ 32
  let g : Graph :=
    { ctx := cn, queue := q, prio := fieldOf qcb 0x0A 1 % 16, base := BitVec.ofNat 72 (fieldOf bs 8 8 + 2 ^ 64 * fieldOf bs 0x10 1)
      nodes := [], done := packetDone bs, tag := fieldOf bs 0x20 8, priv := (qcbArena qcb).1, privsz := (qcbArena qcb).2 }
  let g := (s.loadNodes cx g (fieldOf bs 2 2)).begin
  ({ s with nextGraph := id, graphs := put s.graphs id g }.addInfl q (· + 1), id)

/-- PACKET_FETCH (R308). -/
def execPacketFetch (slot : Nat) (s : State) : Out :=
  match look s.slots slot with
  | none => .next s
  | some x =>
    match look s.ctxs x.ctx with
    | none => .next s
    | some cx =>
      if !x.enabled || x.error || x.rdidx == x.wridx || 256 ≤ x.infl then .next s
      else
        let ring : VA := BitVec.ofNat 72 (x.get 0 8 + 2 ^ 64 * x.get 8 1)
        let at_ := ring + BitVec.ofNat 72 (64 * (x.rdidx % 2 ^ x.log2n))
        if s.exQueued cx at_ 64 then .next s
        else
        let s := s.exTouch cx at_ 64
        match s.exRead? cx at_ 64 with
        | none => .next (s.stopQueue x.queue)
        | some bs =>
          if !packetOk bs then .next (s.stopQueue x.queue)
          else if packetFence bs && x.infl != 0 then .next s
          else
            let next := fun (s : State) => s.updSlot slot fun x => x.set 0x0C 4 ((x.rdidx + 1) % 2 ^ 32)
            if fieldOf bs 0 1 = 1 ∧ s.zoneQueued cx.zone then .next s
            else if fieldOf bs 0 1 = 1 then .next (next (s.submit x.ctx cx x.queue x.qcb bs).1)
            else if !doneGiven (packetDone bs) then .next (next s)
            else if s.exHeld cx (packetDone bs) 16 then .next s
            else .next ((next s).writeRecord cx x.queue (packetDone bs) (fieldOf bs 0x20 8) 0 0xFFFF 0)

end Sys2Proof.Machine
end

