-- ==== Sys2Proof/Machine/Launch.lean ====
section
/-!
DEFINITION. From a ready kernel node to its retirement: code checks (R61, R289), placement (R291, R292), dispatch (R134, R287),
retirement (R148, R290).
-/

namespace Sys2Proof.Machine

/-! ## Resources of a zone (R171, R291, R302, R325) -/

/-- The resource is leaving its zone (R372). -/
def Zone.leavingBank (z : Zone) (b : Nat) : Bool := z.shrink.any fun e => entKind e == 2 && entBank e == b
def Zone.leavingQuad (z : Zone) (q : Nat) : Bool := z.shrink.any fun e => entKind e == 1 && entNum e == q

/-- Banks of a core that can give parts in a mode to a zone. -/
def State.giving (s : State) (core zn : Nat) (mode : BitVec 2) : List Nat :=
  ((List.range 40).map fun j => 40 * core + j).filter fun b =>
    (s.bank b).serves zn mode && (s.bank b).scrub == 0 && !(s.zoneOf zn).leavingBank b

/-- The state as it would be with no resource leaving its zone and every scrub of a granted one ended: what a launch or a restore may wait
for (R373, R376, R378). -/
def State.hoped (s : State) : State :=
  { s with zones := mapVals s.zones fun _ z => { z with shrink := [] }
           quads := mapVals s.quads fun _ q => { q with scrub := 0 }
           banks := mapVals s.banks fun k b =>
             if b.owner.any fun z => (s.zoneOf z).leavingBank k then { b with reqmode := b.mode, stage := 0 }
             else if b.owner.isSome then { b with mode := if b.mode = 3 then b.reqmode else b.mode, stage := if b.mode = 3 then 0 else b.stage, scrub := 0 }
             else b }

/-- The banks of the channels that placement reserved for a group of a team (R302). -/
def Team.reserved (tm : Team) (gidx : Nat) : List Nat := (tm.chans.drop (tm.fifoN + tm.nstrm * gidx)).take tm.nstrm

/-- The banks of the FIFO channels that a team holds: those of its FIFOs until it retires (R169, R191), those reserved for a group until
the group retires (R302). -/
def State.chansOf (s : State) (t : Nat × Team) : List Nat :=
  (if t.2.run == .retired then [] else t.2.chans.take t.2.fifoN) ++ (s.groupsOf t.1).flatMap fun g => t.2.reserved g.2.gidx

/-- A team's parts of a bank; a spilled team has none. -/
def State.partsOf (s : State) (t : Nat × Team) (b : Nat) : Nat :=
  if t.2.run == .spilled then 0 else (t.2.granules.filter (· == b)).length + ((s.chansOf t).filter (· == b)).length

/-- Granules and channels of 16 KiB in use in a bank (R171, R191, R302). -/
def State.partsUsed (s : State) (b : Nat) : Nat :=
  (s.teams.map fun t => s.partsOf t b).sum
    + (s.groups.map fun g => (g.2.queues.filter fun q => q.2.chan == some (b, false)).length).sum

/-- HOLDERS (R168). -/
def State.holders (s : State) (b : Nat) : Nat :=
  (s.teams.filter fun t => 0 < s.partsOf t b ||
    s.groups.any fun g => g.2.team == t.1 && g.2.queues.any fun q => q.2.chan == some (b, false)).length

/-- Take n free parts from banks in their order. -/
def State.takeParts (s : State) (banks : List Nat) (n : Nat) : Option (List Nat) :=
  let free := banks.flatMap fun b => List.replicate (4 - s.partsUsed b) b
  if n ≤ free.length then some (free.take n) else none

/-- Register banks a context needs on a quadrant (R325). -/
def State.regBanks (s : State) (q ctx : Nat) : Nat :=
  (((s.groups.filter fun g => g.2.quad == q && ((look s.teams g.2.team).map fun t : Team => t.ctx) == some ctx).map
    fun g => g.2.regs * 128).sum + 32767) / 32768

def State.quadCtxs (s : State) (q : Nat) : List Nat :=
  dedup ((s.groups.filter fun g => g.2.quad == q).filterMap fun g => (look s.teams g.2.team).map fun t : Team => t.ctx)

/-- A quadrant's groups and register banks are within bounds (R17, R325). -/
def State.quadFits (s : State) (q : Nat) : Bool :=
  decide ((s.groups.filter fun g => g.2.quad == q).length ≤ 32) && decide (((s.quadCtxs q).map (s.regBanks q)).sum ≤ 8)

/-- The zone may place on a quadrant. -/
def State.quadOpen (s : State) (zn q : Nat) : Bool :=
  (s.quadOf q).zones.contains zn && (s.quadOf q).scrub == 0 && !(s.zoneOf zn).leavingQuad q && s.cap.coreLive (q / 4)

/-- A core of the zone (R289), not one whose quadrants all leave it. -/
def State.zoneCore (s : State) (zn core : Nat) : Bool :=
  s.cap.coreLive core && (List.range 4).any fun k =>
    (s.quadOf (4 * core + k)).zones.contains zn && !(s.zoneOf zn).leavingQuad (4 * core + k)

/-- The core of rank k in a rectangle whose first core is given, when it lies in the mesh (R9, R291). -/
def rectCore (core w k : Nat) : Option Nat :=
  let x := core % 16 + k % w
  let y := core % 128 / 16 + k / w
  if x < 16 ∧ y < 8 then some (core / 128 * 128 + 16 * y + x) else none

/-- The queue of a team's graph. -/
def State.queueOf (s : State) (t : Team) : Option Nat := if t.task then (look s.graphs t.graph).map (·.queue) else none

/-- The lowest private slot of a queue's arena whose words no group of the queue has (R172, R292). -/
def State.freeSlot (s : State) (ctx : Nat) (queue : Option Nat) (base : VA) (size l : Nat) : Option Nat :=
  (List.range (size / (128 * l))).find? fun p =>
    !(s.groups.any fun g =>
      match look s.teams g.2.team with
      | some t => t.run != .retired && t.ctx == ctx && s.queueOf t == queue && t.privBase == base && t.privL != 0
          && decide (128 * t.privL * g.2.ps < 128 * l * (p + 1)) && decide (128 * l * p < 128 * t.privL * (g.2.ps + 1))
      | none => false)

/-! ## Readiness (R61, R287, R289, R293) -/

/-- The encoding hash of B0, byte 0 first (R58). -/
def encodingHash : List Byte :=
  [0xD1, 0xE4, 0x77, 0x0B, 0xCE, 0x92, 0x05, 0xA6, 0x18, 0x7F, 0xD2, 0x44, 0x9A, 0x0C, 0x1E, 0x3B]

/-- Limits of a kernel descriptor (R57, R59). -/
def descOk (d : List Byte) (textSize : Nat) : Bool :=
  let f := fieldOf d
  decide (12 ≤ f 8 8 ∧ f 0 8 + f 8 8 ≤ textSize) && f 0 8 % 12 == 0 && f 8 8 % 12 == 0
    && f 0x14 2 % 8 == 0 && decide (8 ≤ f 0x14 2 ∧ f 0x14 2 ≤ 256 ∧ 1 ≤ f 0x16 2 ∧ f 0x16 2 ≤ 32)
    && decide (1 ≤ f 0x18 2 ∧ f 0x18 2 ≤ 16 ∧ 1 ≤ f 0x1A 2 ∧ f 0x1A 2 ≤ 8 ∧ f 0x18 2 * f 0x1A 2 ≤ 128)
    && decide (f 0x1C 4 ≤ 65536 ∧ f 0x20 4 ≤ 2621440 ∧ f 0x24 1 + f 0x25 1 ≤ 8 ∧ f 0x26 1 ≤ 64) && f 0x20 4 % 128 == 0
    && zeroAt d [(0x27, 1), (0x38, 72)]

/-- The checks of R61: the header and the descriptor, or the status. -/
def State.codeCheck (s : State) (cx : Ctx) (code : VA) (kidx : Nat) : Except Nat (List Byte × List Byte) :=
  match s.exRead? cx code 256 with
  | none => .error 0x0101
  | some h =>
    if fieldOf h 0 4 ≠ 0x4F435057 ∨ fieldOf h 4 2 ≠ 1 then .error 0x0101
    else if (h.drop 8).take 16 ≠ encodingHash then .error 0x0102
    else if fieldOf h 6 2 ≠ 0xB0 ∨ code.toNat % 256 ≠ 0 ∨ fieldOf h 0x20 8 % 256 ≠ 0 ∨ fieldOf h 0x1C 4 ≤ kidx then .error 0x0103
    else
      match s.exRead? cx (code + BitVec.ofNat 72 (fieldOf h 0x50 8 + 128 * kidx)) 128 with
      | none => .error 0x0103
      | some d => if descOk d (fieldOf h 0x28 8) then .ok (h, d) else .error 0x0103

/-- Bytes of an input's copy (R295). -/
def Shape.copySize (x : Shape) : Nat :=
  if x.planes then x.t1 / 32 * (x.t0 / 128) * tileSize x.ty x.pln else x.t0 * x.t1 * x.t2 * x.ty.container / 8

/-- An input's record suits its copy (R295). -/
def Shape.copyOk (x : Shape) (scratch : Nat) : Bool :=
  (!x.planes || (x.t2 == 1 && x.t1 % 32 == 0 && x.t0 % 128 == 0)) && decide (x.spoff + x.copySize ≤ scratch)
    && (x.swoff == 0xFFFFFFFF || (decide (x.swoff + 16 ≤ scratch)
        && (decide (x.swoff + 16 ≤ x.spoff) || decide (x.spoff + x.copySize ≤ x.swoff))))

/-- The lines of an object's tiles for a context, with their leaves. -/
def State.objTilesFor (s : State) (cx : Ctx) (x : Shape) : List (List (Nat × Leaf)) :=
  (List.range x.ntile).map fun t => (x.lineVas t).filterMap fun va =>
    match s.exAddr cx va .load with
    | .ok r => some (lineOf r.1, r.2)
    | .error _ => none

/-- A declaration made by the Exchange for a kernel (R249, R293). -/
def State.declareFor (s : State) (cx : Ctx) (x : Shape) (race : Bool) : Option (State × Nat) :=
  let tiles := s.objTilesFor cx x
  let lines := tiles.flatten.map (·.1)
  let mine := s.objs.filter fun o => o.2.zone == cx.zone
  match s.freeHandle with
  | none => none
  | some h =>
    if !x.lineRows || decide (512 < x.tileLines) || decide ((s.zoneOf cx.zone).oquotaNow ≤ mine.length)
        || mine.any (fun o => o.2.tiles.any fun ls => ls.any lines.contains) then none
    else some (s.placeObj cx.zone h race tiles, h)

/-- Declare a kernel's objects in order; the first failure undoes the earlier ones. -/
def State.declareAll (s : State) (cx : Ctx) : List (Option (Shape × Bool)) → List Nat → Option (State × List Nat)
  | [], hs => some (s, hs)
  | none :: _, _ => none
  | some (x, race) :: l, hs =>
    match s.declareFor cx x race with
    | none => none
    | some (s, h) => s.declareAll cx l (hs ++ [h])

/-- The constant banks of a table (R293). -/
def State.constBanks (s : State) (cx : Ctx) (va : VA) : Option (AList ConstBank) :=
  if va.toNat % 2 ^ 64 = 0 then some []
  else
    (s.exRead? cx va 128).bind fun tb =>
      (List.range 8).foldl (fun r n =>
        r.bind fun (l : AList ConstBank) =>
          let size := fieldOf tb (16 * n + 12) 4
          if fieldOf tb (16 * n + 9) 3 ≠ 0 ∨ size % 4 ≠ 0 ∨ 65536 < size then none
          else if size = 0 then some l
          else (s.exRead? cx (BitVec.ofNat 72 (fieldOf tb (16 * n) 8 + 2 ^ 64 * fieldOf tb (16 * n + 8) 1)) size).map fun bs =>
            put l n { size := size, bytes := writeBytes [] 0 bs }) (some [])

/-- Some core of the device meets a condition. -/
def someCore (p : Nat → Bool) : Bool := (List.range 1024).any p

/-- All the checks of a ready kernel node (R61, R289): the kernel and the state with its objects, or the failing status. -/
def State.readyKernel (s : State) (cx : Ctx) (g : Graph) (x : Node) : Except Nat (State × Kern) :=
  let code := g.addr (x.fld 0x10 8)
  match s.codeCheck cx code (x.fld 0x0C 2) with
  | .error e => .error e
  | .ok (h, d) =>
    let f := fieldOf d
    let zn := cx.zone
    let tpc := f 0x18 2 * f 0x1A 2
    let nin := f 0x24 1
    let nout := f 0x25 1
    let at_ := fun off : Nat => code + BitVec.ofNat 72 off
    match s.exRead? cx (at_ (f 0x28 8)) (16 * (nin + nout)), s.exRead? cx (at_ (f 0x30 8)) (16 * f 0x26 1) with
    | some opt, some obt =>
      let okRec := (List.range (nin + nout)).all fun i =>
        fieldOf opt (16 * i) 1 == (if i < nin then 1 else 2) && zeroAt opt [(16 * i + 2, 6)]
          && (if i < nin then decide (fieldOf opt (16 * i + 1) 1 < 64) else fieldOf opt (16 * i + 1) 1 == 0xFF)
      let okObj := (List.range (f 0x26 1)).all fun i => decide (fieldOf obt (16 * i) 1 < 2) && zeroAt obt [(16 * i + 1, 7)]
      let fits := fun core => (List.range tpc).all fun k =>
        match rectCore core (f 0x18 2) k with
        | some c => s.zoneCore zn c
        | none => false
      let held := fun core mode => 4 * (s.giving core zn mode).length
      let shapeVa := fun i => if x.ops i ≠ 0 then g.addr (x.ops i) else at_ (fieldOf opt (16 * i + 8) 8)
      let shapeBytes := fun i => if (shapeVa i).toNat % 64 = 0 then s.exRead? cx (shapeVa i) 64 else none
      let shapesOk := (List.range (nin + nout)).all fun i =>
        match (shapeBytes i).bind fun bs => Shape.read bs (i < nin) with
        | none => false
        | some sh => decide (nin ≤ i) || sh.copyOk (f 0x20 4)
      let objs := (List.range (f 0x26 1)).map fun i =>
        let va := at_ (fieldOf obt (16 * i + 8) 8)
        if va.toNat % 64 ≠ 0 then none
        else ((s.exRead? cx va 64).bind fun bs => Shape.read bs false).map fun sh => (sh, (fieldOf obt (16 * i) 1).testBit 0)
      if !okRec || !okObj then .error 0x0103
      else if !(someCore fits) then .error 0x0104
      else if !(someCore fun c => s.zoneCore zn c && decide ((f 0x20 4 + 16383) / 16384 ≤ held c 1)) then .error 0x0105
      else if f 0x1C 4 ≠ 0 ∧ g.privsz / (128 * f 0x1C 4) < f 0x16 2 then .error 0x0106
      else if !shapesOk then .error 0x0107
      else if !(someCore fun c => s.zoneCore zn c && decide (x.nfifo + x.nstrm * f 0x16 2 ≤ held c 2)) then .error 0x0108
      else
        match s.declareAll cx objs [] with
        | none => .error 0x0109
        | some (s', hs) =>
          match s.constBanks cx (if x.fld 0x28 8 = 0 then 0 else g.addr (x.fld 0x28 8)) with
          | none => .error 0x010A
          | some banks =>
            .ok (s', { codeVa := code, base := at_ (fieldOf h 0x20 8), textSize := fieldOf h 0x28 8, entry := f 0 8, regs := f 0x14 2
                       gpt := f 0x16 2, clw := f 0x18 2, clh := f 0x1A 2, privw := f 0x1C 4, scratch := f 0x20 4, nout := nout
                       inputs := (List.range nin).map fun i => (fieldOf opt (16 * i + 1) 1, (shapeBytes i).getD [])
                       banks := banks, objs := hs })
    | _, _ => .error 0x0103

/-- A status of a node that has to wait: the zone has what it needs once a ZSHRINK or a scrub has ended (R373, R378). -/
def State.waitsFor (s : State) (cx : Ctx) (g : Graph) (x : Node) (st : Nat) : Bool :=
  [0x0104, 0x0105, 0x0108].contains st && match s.hoped.readyKernel cx g x with
    | .error e => e != st
    | .ok _ => true

/-- Every output of a running kernel node is ready (R316). -/
def State.outputsReady (s : State) (gr nd : Nat) (x : Node) : Bool :=
  match x.kern with
  | none => false
  | some k =>
    x.kind == 0 && x.st == .running && k.nout != 0 && x.again.isEmpty && x.nextClu == x.nclu
      && (s.teamsOf gr nd).all fun t => t.2.run == .retired || t.2.outmask == 2 ^ k.nout - 1

/-- A collective node's two records are as R409 asks. -/
def State.collShapes (s : State) (cx : Ctx) (g : Graph) (x : Node) : Option (Shape × Shape) :=
  let rd := fun i => (s.exRead? cx (g.addr (x.ops i)) 64).bind fun bs => Shape.read bs false
  match rd 0, rd 1 with
  | some a, some b =>
    if !a.planes && !b.planes && a.ntile == 1 && b.ntile == 1 then some (a, b) else none
  | _, _ => none

/-- NODE_READY (R287, R400): when no request waits at the zone's homes and no predecessor is left undelivered but running kernels that have marked every output. -/
def execNodeReady (gr nd : Nat) (s : State) : Out :=
  match look s.graphs gr with
  | none => .next s
  | some g =>
    match look s.ctxs g.ctx with
    | none => .next s
    | some cx =>
      let x := g.node nd
      let open_ := (g.preds nd).filter fun p => !x.from_.contains p
      let early := x.st == .waiting && !open_.isEmpty && x.count == open_.length && open_.all fun p => s.outputsReady gr p (g.node p)
      if !s.zoneQueued cx.zone && nd < g.nodes.length && g.fail.isNone && x.armed && (x.kind == 0 || x.kind == 3) && (x.st == .chosen || early) then
        if x.kind = 3 then
          match s.collShapes cx g x with
          | none => .next (s.retireNode gr nd 0x0107 fun _ => false)
          | some _ => .next (s.updGraph gr fun g => g.setNode nd fun x => { x with st := .running, live := true, wrote := false, lost := false })
        else
          match s.readyKernel cx g x with
          | .error st => .next (if s.waitsFor cx g x st then s else s.retireNode gr nd st fun _ => false)
          | .ok (s, k) => .next (s.updGraph gr fun g => g.setNode nd fun x => { x with st := .ready, kern := some k })
      else .next s

/-! ## Placement (R291, R292) -/

/-- The groups of a team on their quadrants. -/
def State.addGroups (s : State) (tk : Nat) (gr : Graph) (tm : Team) (quads : List Nat) : Option State :=
  (quads.mapIdx fun i q => (i, q)).foldl (fun (r : Option State) iq =>
    r.bind fun s =>
      let ps := if tm.privL = 0 then some 0 else s.freeSlot tm.ctx (some gr.queue) gr.priv gr.privsz tm.privL
      ps.map fun ps =>
        { s with uid := s.uid + 1
                 groups := put s.groups s.uid { team := tk, gidx := iq.1, quad := iq.2, regs := tm.regs, ps := ps, launched := false } }) (some s)

/-- A team takes the tile stores of its quadrants (R253). -/
def State.giveStores (s : State) (tk : Nat) (quads : List Nat) : State :=
  ((dedup quads).mapIdx fun i q => (i, q)).foldl (fun s iq => s.updQuad iq.2 fun x =>
    { x with holder := some tk, place := iq.1, tiles := [], tmarks := [], soft := [], last := 0, done := 0, queue := [], grants := [] }) s

/-- Whether a team fits on a core with its groups on given quadrants, and the state with it there. -/
def State.placeTeam (s : State) (zn : Nat) (gr : Graph) (tm : Team) (core : Nat) (qs : List Nat) : Option State :=
  let quads := qs.map fun q => 4 * core + q
  let own := fun b : Nat => qs.contains (b % 40 / 10)
  let give := s.giving core zn 1
  let order := give.filter own ++ give.filter fun b => !own b
  if qs.length ≠ tm.gpt ∨ qs.any (fun q => decide (4 ≤ q)) ∨ !quads.all (s.quadOpen zn) then none
  else if tm.matrix && quads.any fun q => (s.quadOf q).holder.isSome then none
  else
    match s.takeParts order ((tm.scratchSize + 16383) / 16384), s.takeParts (s.giving core zn 2) (tm.fifoN + tm.nstrm * tm.gpt) with
    | some gs, some cs =>
      let tk := s.uid
      let tm := { tm with core := core, granules := gs, chans := cs }
      let s := { s with uid := s.uid + 1, teams := put s.teams tk tm }
      match s.addGroups tk gr tm quads with
      | none => none
      | some s => if quads.all s.quadFits then some (if tm.matrix then s.giveStores tk quads else s) else none
    | _, _ => none

/-- Tram entries in use in a district (R297). -/
def State.tramLoad (s : State) (d : Nat) : Nat :=
  (s.copies.filter fun c => c.2.status.isNone && ((look s.teams c.2.team).map Team.district) == some d).length

/-- The copies of a team's inputs enter the tram queue; one of more than 1 MiB asks for leave (R269, R297). -/
def State.addCopies (s : State) (tk : Nat) (tm : Team) (k : Kern) : State :=
  (k.inputs.mapIdx fun i r => (i, r.2)).foldl (fun s ib =>
    let size := ((Shape.read ib.2 true).map Shape.copySize).getD 0
    let n := if 2 ^ 20 < size then (size + 511) / 512 else 0
    let key := s.uid
    let s := { s with uid := s.uid + 1, copies := put s.copies key { team := tk, input := ib.1, shape := ib.2, leave := n } }
    if n = 0 then s
    else { s with govs := put s.govs tm.district (let v := rget {} s.govs tm.district
      { v with queue := v.queue ++ [(.tram key, n)] }) }) s

/-- The team of rank k of a cluster as it is placed. -/
def teamOf (gr nd cluster clid rank : Nat) (g : Graph) (x : Node) (k : Kern) : Team :=
  let tpc := k.clw * k.clh
  { ctx := g.ctx, graph := gr, node := nd, cluster := cluster, clid := clid, crank := rank, gti := clid * tpc + rank, gpt := k.gpt
    tpc := tpc, codeBase := k.base, textSize := k.textSize, banks := k.banks, scratchSize := k.scratch, fifoN := x.nfifo
    privBase := g.priv, privL := k.privw, codeVa := k.codeVa, kidx := x.fld 0x0C 2, regs := k.regs, entry := k.entry, nstrm := x.nstrm
    matrix := x.matrix, task := true, live := false, nout := k.nout, inputs := k.inputs.map fun i => (i.1, none) }

/-- Place the teams of a cluster one after another, all or none. -/
def State.placeTeams (s : State) (zn : Nat) (g : Graph) (k : Kern) :
    List (Team × Nat × List Nat) → Option State
  | [] => some s
  | (tm, core, qs) :: l =>
    let tk := s.uid
    match s.placeTeam zn g tm core qs with
    | none => none
    | some s =>
      match look s.teams tk with
      | some tm => (s.addCopies tk tm k).placeTeams zn g k l
      | none => none

/-- The groups of a team with tile stores go to its quadrants in turn; a record keeps no other sharing (log entry 17). -/
def roundRobin (qs : List Nat) : Bool :=
  let ds := dedup qs
  qs == (List.range qs.length).map fun i => ds.getD (i % ds.length) 0

/-- A CTXSAVE stops the context's teams (R324). -/
def Ctx.stopping (c : Ctx) : Bool := c.saver.isSome

/-- The node's next cluster and its kernel, when the node has one to place (R287, R290, R294). -/
def State.toPlace (s : State) (gr nd : Nat) : Option (Graph × Node × Kern × Ctx × Nat) :=
  (look s.graphs gr).bind fun g =>
    let x := g.node nd
    match x.kern, look s.ctxs g.ctx with
    | some k, some cx =>
      if (x.st == .ready || x.st == .running) && (g.fail.isNone || x.live) && (!x.again.isEmpty || decide (x.nextClu < x.nclu)) && !cx.stopping
      then some (g, x, k, cx, x.again.headD x.nextClu) else none
    | _, _ => none

/-- The cluster placed on given cores and quadrants, when it has room there and its copies find entries (R291, R297). -/
def State.placeCluster (s : State) (gr nd : Nat) (g : Graph) (x : Node) (k : Kern) (cx : Ctx) (clid : Nat) (pl : Placement) : Option State :=
  let tpc := k.clw * k.clh
  let first := pl.cores.headD 0
  let rect := (List.range tpc).map fun r => rectCore first k.clw r
  if pl.cores.length == tpc && pl.quads.length == tpc && (!x.matrix || pl.quads.all roundRobin) && rect == pl.cores.map some
      && decide (s.tramLoad (first / 128) + k.inputs.length * tpc ≤ 256)
  then s.placeTeams cx.zone g k ((List.range tpc).map fun r => (teamOf gr nd s.uid clid r g x k, pl.cores.getD r 0, pl.quads.getD r []))
  else none

/-- The even spreads of n groups over some of a core's quadrants. -/
def evenSpreads (n : Nat) : List (List Nat) :=
  (List.range 15).map fun k =>
    let ds := (List.range 4).filter fun b => (k + 1).testBit b
    (List.range n).map fun i => ds.getD (i % ds.length) 0

/-- A cluster's placement from a first core, each of its teams on the first even spread with room. -/
def State.spreadFrom (s : State) (zn : Nat) (g : Graph) (tm : Team) (k : Kern) (first : Nat) : Option Placement :=
  (List.range (k.clw * k.clh)).foldl (fun (r : Option Placement) i =>
    r.bind fun pl =>
      (rectCore first k.clw i).bind fun c =>
        if !s.zoneCore zn c then none
        else ((evenSpreads k.gpt).find? fun qs => (s.placeTeam zn g tm c qs).isSome).map fun qs =>
          ⟨pl.cores ++ [c], pl.quads ++ [qs]⟩) (some ⟨[], []⟩)

/-- The node's next cluster has room somewhere. "With room" is judged by even spreads of each team's groups over quadrants (DESIGN
CHOICE, log 93: R291 leaves open which quadrant receives a group). -/
def State.hasRoom (s : State) (gr nd : Nat) : Bool :=
  match s.toPlace gr nd with
  | none => false
  | some (g, x, k, cx, clid) =>
    someCore fun first => match s.spreadFrom cx.zone g (teamOf gr nd s.uid clid 0 g x k) k first with
      | some pl => (s.placeCluster gr nd g x k cx clid pl).isSome
      | none => false

/-- The PRIO of a graph's queue now: its slot's, or as it was when the graph was loaded. -/
def State.queuePrio (s : State) (gr : Nat) : Nat :=
  match look s.graphs gr with
  | none => 0
  | some g => (((s.qd g.queue).slot.bind fun k => look s.slots k).map Slot.prio).getD g.prio

/-- The order of placement: higher PRIO, then lower STAGE, then the older graph (R287). -/
def placedBefore (a b : Nat × Nat × Nat) : Bool :=
  decide (b.1 < a.1) || (a.1 == b.1 && (decide (a.2.1 < b.2.1) || (a.2.1 == b.2.1 && decide (a.2.2 < b.2.2))))

/-- No node of the zone that comes earlier in the order of placement has a cluster with room (R287). -/
def State.placeTurn (s : State) (gr nd : Nat) (x : Node) (cx : Ctx) : Bool :=
  let rank := (s.queuePrio gr, x.stage, gr)
  s.graphs.all fun h =>
    ((look s.ctxs h.2.ctx).map fun c : Ctx => c.zone) != some cx.zone
      || (List.range h.2.nodes.length).all fun n =>
        (h.1 == gr && n == nd) || !placedBefore (s.queuePrio h.1, (h.2.node n).stage, h.1) rank || !s.hasRoom h.1 n

/-- CLUSTER_PLACE (R287, R291): the next cluster in ascending CLID, where the device's choice puts it, when there is room and no node that
comes earlier has any. -/
def execClusterPlace (gr nd : Nat) (pl : Placement) (s : State) : Out :=
  match s.toPlace gr nd with
  | none => .next s
  | some (g, x, k, cx, clid) =>
    match (if s.placeTurn gr nd x cx then s.placeCluster gr nd g x k cx clid pl else none) with
    | none => .next s
    | some s => .next (s.updGraph gr fun g => g.setNode nd fun x =>
        if x.again.isEmpty then { x with nextClu := x.nextClu + 1 } else { x with again := x.again.drop 1 })

/-! ## Dispatch (R134, R202, R287) -/

/-- A group as it is launched at a cycle. -/
def launchGroup (zclk now : Nat) (tm : Team) (g : Group) : Group :=
  let pc := tm.codeBase + BitVec.ofNat 72 tm.entry
  { team := g.team, gidx := g.gidx, quad := g.quad, regs := g.regs, ps := g.ps, launched := true
    threads := List.replicate 32 { pc := pc }, pts := zclk, lmax := zclk, ah := zclk, gacc := now
    s := tm.inputs.foldl (fun l i => match i.2 with
      | some v => rput 0 l i.1 v
      | none => l) []
    spend := tm.inputs.filterMap fun i => if i.2.isNone then some i.1 else none
    acqs := tm.inputs.filterMap fun i => if i.2.isSome then some i.1 else none
    queues := [] }

/-- The team's groups are launched. -/
def State.launchTeam (s : State) (tk : Nat) : State :=
  match look s.teams tk with
  | none => s
  | some tm =>
    match look s.ctxs tm.ctx with
    | none => s
    | some cx =>
      (s.groupsOf tk).foldl (fun s g =>
        s.updGroup g.1 (launchGroup (s.zoneOf cx.zone).zclk s.cycle tm)) (s.updTeam tk fun t => { t with live := true, prio := s.queuePrio t.graph })

/-- NODE_DISPATCH (R287): with count 0 and every predecessor retired, the placed teams' groups are launched. -/
def execNodeDispatch (gr nd : Nat) (s : State) : Out :=
  match look s.graphs gr with
  | none => .next s
  | some g =>
    let x := g.node nd
    let waiting := (s.teamsOf gr nd).filter fun t => !t.2.live
    if x.kind == 0 && (x.st == .ready || x.st == .running) && x.count == 0 && (g.fail.isNone || x.live) && !waiting.isEmpty then
      let s := waiting.foldl (fun s t => s.launchTeam t.1) s
      .next (s.updGraph gr fun g =>
        let g := g.setNode nd fun x => { x with st := .running, live := true }
        if x.live then g else { g with nrun := (g.nrun + 1) % 2 ^ 16 })
    else .next s

/-! ## Retirement (R148, R202, R290) -/

/-- The first status a node receives (R290, R318). -/
def State.nodeStatus (s : State) (gr nd status : Nat) : State :=
  s.updGraph gr fun g => g.setNode nd fun x => if x.status = 0 then { x with status := status } else x

/-- A cluster whose teams have all retired, with no copy open, gives up what it holds (R176). -/
def State.reap (s : State) (cluster : Nat) : State :=
  let ts := s.teams.filter fun t => t.2.cluster == cluster && t.2.task
  if ts.all fun t => t.2.run == .retired && !(s.copies.any fun c => c.2.team == t.1 && c.2.status.isNone) then
    ts.foldl (fun s t => s.freeTeam t.1) s
  else s

/-- The group has nothing left to do: every thread has exited and every access has completed. -/
def State.groupDone (s : State) (u : Nat) (g : Group) : Bool :=
  g.launched && !g.hasLive && g.loads.isEmpty && g.pends.isEmpty && g.sbuf.isEmpty && g.fly.isEmpty && g.mxpend.isNone
    && g.reports.isEmpty && g.logOut.isEmpty && g.cluOut.isEmpty && !(s.quads.any fun q => q.2.queue.any fun o => o.group == u)

/-- Fault-buffer entries and waits of groups are discarded, those of their streams too (R300, R339, R341). -/
def State.dropWaits (s : State) (us : AList Group) (group : Bool) : State :=
  let tags := us.flatMap fun g =>
    (if group then (match g.2.wait with
      | .parked _ _ (some t) => [t]
      | _ => []) else [])
      ++ g.2.queues.filterMap fun q => match q.2.stop with
        | some (.fault _ e) => e
        | _ => none
  { s with fbuf := s.fbuf.filter (fun e => !tags.contains e.1)
           fwait := s.fwait.filter fun v => match v with
             | .group u => !(group && us.any fun g => g.1 == u)
             | .stream u _ => !us.any fun g => g.1 == u }

/-- A group leaves. Its retirement is a release at .dev (R223, R227): its clock enters ZCLK, its private lines go to memory, its
resources are free; its team retires with its last group. -/
def State.retireGroup (s : State) (u : Nat) (g : Group) : State :=
  let zn := s.zoneNum g
  let s := (s.writeBack zn g fun _ => true).1
  let s := (s.dropWaits [(u, g)] true).updTeam g.team fun t => t.countRelease .dev
  let s := s.updZone zn fun z => { z with zclk := max z.zclk g.pts }
  let s := { s with groups := del s.groups u }
  if (s.groupsOf g.team).isEmpty then
    let s := (s.updTeam g.team fun t => { t with run := .retired }).dropStores g.team
    match look s.teams g.team with
    | some t => s.reap t.cluster
    | none => s
  else s

/-- GROUP_RETIRE (R148). -/
def execGroupRetire (u : Nat) (s : State) : Out :=
  match look s.groups u with
  | none => .next s
  | some g =>
    let killed := match look s.teams g.team with
      | some t => t.run == .halted || t.run == .saved
      | none => true
    .next (if s.groupDone u g && !killed then s.retireGroup u g else s)

/-- NODE_RETIRE (R290): a kernel node whose grid has retired and whose copies have ended. -/
def execNodeRetire (gr nd : Nat) (s : State) : Out :=
  match look s.graphs gr with
  | none => .next s
  | some g =>
    let x := g.node nd
    let ended := (s.teamsOf gr nd).all fun t =>
      t.2.run == .retired && !(s.copies.any fun c => c.2.team == t.1 && c.2.status.isNone)
    if x.kind == 0 && x.live && x.again.isEmpty && x.nextClu == x.nclu && ended then
      let s := (s.teamsOf gr nd).foldl (fun s t => s.freeTeam t.1) (s.dropObjs x)
      .next (s.retireNode gr nd x.status fun _ => true)
    else .next s

end Sys2Proof.Machine
end

