-- ==== Sys2Proof/Machine/Copies.lean ====
section
/-!
DEFINITION. Declared-input copies and the trams that make them (R295 to R298), and access slices (R300 to R303).
-/

namespace Sys2Proof.Machine

/-! ## Copies (R295 to R297) -/

/-- The shape record of a copy. -/
def TCopy.rec? (c : TCopy) : Option Shape := Shape.read c.shape true

/-- FRONT (R297). -/
def Graph.front (g : Graph) : Nat :=
  (g.nodes.filter fun x => x.st == .ready || x.st == .running || x.busy).foldl (fun m x => min m x.stage) 255

/-- The slack of a copy. -/
def State.slack (s : State) (c : TCopy) : Nat :=
  match (look s.teams c.team).bind fun t => (look s.graphs t.graph).map fun g => (g.node t.node).stage - g.front with
  | some n => n
  | none => 0

/-- The marks that made a team's node ready stand: a lost cluster withdraws them until it has made them again (R294). -/
def State.marksStand (s : State) (tk : Nat) : Bool :=
  match (look s.teams tk).bind fun t => (look s.graphs t.graph).map fun g => (t, g) with
  | none => true
  | some (t, g) =>
    let x := g.node t.node
    x.count == 0 || ((g.preds t.node).filter fun p => !x.from_.contains p).all fun p => s.outputsReady t.graph p (g.node p)

/-- A tram may serve the copy: it already does, or a tram of the district is free and no other waiting copy has less slack, or
as little and greater age. -/
def State.mayServe (s : State) (k : Nat) (c : TCopy) (d : Nat) : Bool :=
  s.marksStand c.team && (c.serving ||
    (let open_ := s.copies.filter fun x => x.2.status.isNone && ((look s.teams x.2.team).map Team.district) == some d
     decide ((open_.filter fun x => x.2.serving).length < 16) && open_.all fun x =>
       x.2.serving || x.2.leave != 0 || !s.marksStand x.2.team || decide (s.slack c < s.slack x.2) || (s.slack c == s.slack x.2 && decide (k ≤ x.1))))

def ExFail.status : ExFail → Nat
  | .notValid => 0x0301
  | .prot => 0x0302
  | .bad => 0x0303
  | .remote => 0x0304

/-- The source bytes of a byte range of a copy without transposition: (address, length) by rows. -/
def rowSpans (rows : List VA) (rb : Nat) : Nat → Nat → Nat → List (VA × Nat)
  | 0, _, _ => []
  | f + 1, pos, n =>
    if n = 0 then []
    else
      let m := min n (rb - pos % rb)
      (rows.getD (pos / rb) 0 + BitVec.ofNat 72 (pos % rb), m) :: rowSpans rows rb f (pos + m) (n - m)

/-- Translate for a tram's reads (R229, R400). -/
def State.tramAddr (s : State) (cx : Ctx) (va : VA) : Except ExFail Nat :=
  if isWindow va then .error .prot
  else
    match s.walkVa cx va .load with
    | .fault k _ _ => .error (if k = notValid then .notValid else .prot)
    | .ok pa leaf =>
      if paDevice pa ≠ s.devNum then (if s.reachable (paDevice pa) then .ok pa else .error .remote)
      else if s.refusedPa leaf pa || isRegLine (lineOf pa) then .error .prot
      else if s.homeLost (s.homeOf (s.zoneOf cx.zone) leaf pa) then .error .remote
      else .ok pa

/-- The pieces of spans by lines, translated in order: address and length; the first failure ends it. -/
def State.tramPieces (s : State) (cx : Ctx) (spans : List (VA × Nat)) : Except ExFail (List (Nat × Nat)) :=
  (spans.flatMap fun v => (cutAt 128 (v.1.toNat % 128) v.2).map fun p => (v.1 + BitVec.ofNat 72 p.2.1, p.2.2)).foldl (fun r p =>
    match r with
    | .error e => .error e
    | .ok l =>
      match s.tramAddr cx p.1 with
      | .error e => .error e
      | .ok pa => .ok (l ++ [(pa, p.2)])) (.ok [])

/-- Lines that come from another device or from the host. -/
def State.farLine (s : State) (line : Nat) : Bool := s.isRemote line || isHostLine line

/-- Bytes of pieces at their homes, or as they have come from far, and which of them are uncorrectable. -/
def State.tramBytes (s : State) (far : AList LineData) (farBad : List Nat) (ps : List (Nat × Nat)) : List Byte × List Bool :=
  (ps.flatMap fun p =>
      match look far (lineOf p.1) with
      | some d => (List.range p.2).map fun i => LineData.byte d (p.1 + i)
      | none => s.readLocal (paLocal p.1) p.2,
   ps.flatMap fun p => List.replicate p.2 (if s.farLine (lineOf p.1) then farBad.contains (lineOf p.1) else s.badLine (lineOf p.1)))

/-- Element k of packed bytes (R67). -/
def elemAt (bs : List Byte) (c k : Nat) : Nat :=
  if c < 8 then bitsOf (bs.getD (c * k / 8) 0).toNat (c * k % 8) c else fieldOf bs (c / 8 * k) (c / 8)

/-- An operand tile from 32 rows of packed elements (R256, R258). -/
def operandTile (ty : Ty) (p : Nat) (rows : List (List Byte)) : List Byte :=
  let elem := fun r k => elemAt (rows.getD r []) ty.container k
  let fl := ty.isMatrixFloat
  let block := fun r j => planeBlock ty p ((List.range 32).map fun k => decodeF ty false (elem r (32 * j + k) % 2 ^ ty.width))
  let rowBits := fun r =>
    if fl then ((List.range 4).map fun j => (block r j).1.map fun q => wrap p q).flatten
    else (List.range 128).map fun k => elemPlanes ty (elem r k)
  let bits := (List.range 32).map rowBits
  let planes := (List.range p).flatMap fun i => bits.flatMap fun row => (List.range 16).map fun j =>
    BitVec.ofNat 8 ((List.range 8).map fun b => if (row.getD (8 * j + b) 0).testBit i then 2 ^ b else 0).sum
  planes ++ if fl then (List.range 32).flatMap fun r => (List.range 4).map fun j => BitVec.ofNat 8 (block r j).2 else []

/-- Element k of packed bytes lies on a marked one. -/
def elemMark (bad : List Bool) (c k : Nat) : Bool := if c < 8 then bad.getD (c * k / 8) false else ((bad.drop (c / 8 * k)).take (c / 8)).any id

/-- The bytes of an operand tile that draw on marked source bytes: a plane's byte on its eight elements, for a float format on their
blocks of 32 with the block's scale (R256, R258, R296). -/
def operandMarks (ty : Ty) (p : Nat) (rows : List (List Bool)) : List Bool :=
  let elem := fun r k => elemMark (rows.getD r []) ty.container k
  let any := fun r k n => (List.range n).any fun i => elem r (k + i)
  let plane := (List.range 32).flatMap fun r => (List.range 16).map fun j =>
    if ty.isMatrixFloat then any r (j / 4 * 32) 32 else any r (8 * j) 8
  (List.range p).flatMap (fun _ => plane)
    ++ if ty.isMatrixFloat then (List.range 32).flatMap fun r => (List.range 4).map fun j => any r (32 * j) 32 else []

/-- The next piece of a copy: where it is read, what its bytes become, and what becomes of their marks. -/
def TCopy.spans (c : TCopy) (x : Shape) (gti : Nat) : List (VA × Nat) × (List Byte → List Byte) × (List Bool → List Bool) :=
  let rows := x.rows (gti % x.ntile)
  if x.planes then
    let i := c.pos / tileSize x.ty x.pln
    let m := i / (x.t0 / 128)
    let st := i % (x.t0 / 128)
    let n := 16 * x.ty.container
    ((List.range 32).map fun r => (rows.getD (32 * m + r) 0 + BitVec.ofNat 72 (st * n), n),
     fun bs => operandTile x.ty x.pln ((List.range 32).map fun r => (bs.drop (r * n)).take n),
     fun bad => operandMarks x.ty x.pln ((List.range 32).map fun r => (bad.drop (r * n)).take n))
  else (rowSpans rows x.rowBytes 129 c.pos (min 128 (x.copySize - c.pos)), fun bs => bs, fun bad => bad)

/-- Written lines: bytes, stamps, marks on the uncorrectable ones, and an arrival for each line (R236, R296, R298). -/
def Team.landCopy (tm : Team) (x : Shape) (pos : Nat) (bytes : List Byte) (bad : List Bool) (zclk : Nat) : Team :=
  (cutAt 128 (x.spoff + pos) bytes.length).foldl (fun (tm : Team) p =>
    let tm := tm.scrWrite p.1 ((bytes.drop p.2.1).take p.2.2) zclk
    let tm := { tm with scrbad := tm.scrbad ++ dedup (((List.range p.2.2).filter fun i => bad.getD (p.2.1 + i) false).map fun i => (p.1 + i) / 2) }
    if x.swoff = 0xFFFFFFFF then tm
    else tm.scrWrite x.swoff (bytesOf 16 (swArrive (natOfBytes (tm.scrBytes x.swoff 16)) p.2.2)) zclk) tm

/-- A tram asks for a line of another device or of the host, once (R400, R402: it takes no lease; R419). -/
def State.askFar (s : State) (k line : Nat) : State :=
  if s.rout.any fun r => r.2.src == .copy k && r.2.line == line then s
  else s.send ⟨.copy k, paDevice (line * 128), line, !s.isRemote line, 0, s.now⟩

/-- The device that a copy cannot reach (R414). -/
def State.deadDev (s : State) (cx : Ctx) (spans : List (VA × Nat)) : Option Nat :=
  (spans.flatMap fun v => (cutAt 128 (v.1.toNat % 128) v.2).map fun p => v.1 + BitVec.ofNat 72 p.2.1).findSome? fun va =>
    match s.walkVa cx va .load with
    | .ok pa _ => if paDevice pa ≠ s.devNum ∧ !s.reachable (paDevice pa) then some (paDevice pa) else none
    | .fault .. => none

/-- The channels serve the lines of a copy's next piece in their turn: the copy after that; one that waits is in its channel's
queue (R310, R381). -/
def State.fetchLines (s : State) (zn k : Nat) (c : TCopy) (lines : List Nat) : State × TCopy :=
  let (s, c) := lines.foldl (fun (r : State × TCopy) l =>
    let (s, c) := r
    if c.want.isSome || c.fetched.contains l || s.farLine l || (s.needsChan zn l).isNone then (s, c)
    else
      let s' := { s with copies := put s.copies k { c with want := some l } }
      if s'.chanFree (.copy k) then ((s.leaveChan (.copy k)).charge zn l 2, { c with fetched := l :: c.fetched }) else (s, { c with want := some l })) (s, { c with want := none })
  (({ s with copies := put s.copies k c } : State).enterChan (.copy k), c)

/-- TRAM_LINE (R297). -/
def execTramLine (k : Nat) (s : State) : Out :=
  match look s.copies k with
  | none => .next s
  | some c =>
    match look s.teams c.team, c.rec? with
    | some tm, some x =>
      match look s.ctxs tm.ctx with
      | none => .next s
      | some cx =>
        if c.status.isSome || c.leave != 0 || decide (x.copySize ≤ c.pos) || !s.mayServe k c tm.district then .next s
        else
          let (spans, f, marks) := c.spans x tm.gti
          match s.tramPieces cx spans with
          | .error e =>
            let s := match (if e = .remote then s.deadDev cx spans else none) with
              | some d => s.logError 3 none d cx.zone 0
              | none => s
            .next { s with copies := put s.copies k { c with status := some e.status, serving := false } }
          | .ok ps =>
            let lines := dedup (ps.map fun p => lineOf p.1)
            let missing := lines.filter fun l => s.farLine l && (look c.far l).isNone
            if (lines.any s.lineQueued) || spans.any (fun v => s.exWalks cx v.1 v.2) then .next s
            else if !missing.isEmpty then
              .next (missing.foldl (fun s l => s.askFar k l) { s with copies := put s.copies k { c with serving := true } })
            else
            let (s, c) := s.fetchLines cx.zone k { c with serving := true } lines
            if c.want.isSome then .next s else
            let s := (lines.filter fun l => !s.farLine l && s.badLine l).foldl (fun s l =>
              s.logError 2 (some tm.district) 0xFFFF cx.zone (paLocal (l * 128))) s
            let (raw, bad) := s.tramBytes c.far c.farBad ps
            let bs := f raw
            let pos := c.pos + bs.length
            let done := x.copySize ≤ pos
            let c := { c with pos := pos, bytes := pos, bad := c.bad || bad.any id, far := [], farBad := [], fetched := []
                              serving := !done && pos / 4096 == c.pos / 4096 }
            let s := s.updTeam c.team fun t => t.landCopy x (pos - bs.length) bs (marks bad) (s.zoneOf cx.zone).zclk
            .next { s with copies := put s.copies k c }
    | _, _ => .next s

/-- The status word of a copy (R296). -/
def statusWord (done : Bool) (status bytes : Nat) : W64 :=
  BitVec.ofNat 64 ((if done then 2 ^ 63 else 0) + status * 2 ^ 32 + bytes)

/-- The word reaches a status register of a group. -/
def Group.takeStatus (g : Group) (n : Nat) (w : W64) : Group :=
  { (g.setS n w).clearMarks .s 0 n 1 with spend := g.spend.filter (· != n), acqs := n :: g.acqs.filter (· != n) }

/-- COPY_END (R296): the status word reaches every group of the team. -/
def execCopyEnd (k : Nat) (s : State) : Out :=
  match look s.copies k with
  | none => .next s
  | some c =>
    match look s.teams c.team, c.rec? with
    | some tm, some x =>
      let failed := c.status.isSome
      if !failed && decide (c.pos < x.copySize) then .next s
      else
        let st := c.status.getD (if c.bad then 0x0303 else 0)
        let w := statusWord true st c.bytes
        let n := ((tm.inputs[c.input]?).map fun i => i.1).getD 0
        let s := { s with copies := del s.copies k }
        let s := s.updTeam c.team fun t => { t with inputs := setAt t.inputs c.input fun i => (i.1, some w) }
        let s := if tm.live then (s.groupsOf c.team).foldl (fun s g => s.updGroup g.1 fun g => g.takeStatus n w) s else s
        .next (s.reap tm.cluster)
    | _, _ => .next { s with copies := del s.copies k }

/-! ## Streams (R300 to R303) -/

/-- A(t) of an entry. -/
def Stream.addr (x : Stream) (t : Nat) : Int :=
  (x.base : Int) + ((List.range 4).map fun d => ((x.next.getD d 0 : Nat) : Int) * x.strides.getD d 0).sum + (t : Int) * x.ts

/-- The channel a stream takes: one reserved for its group, else any free one of the zone on the core (R302). -/
def State.streamChannel (s : State) (g : Group) (tm : Team) (zn : Nat) : Option (Nat × Bool) :=
  let taken := g.queues.filterMap fun q => match q.2.chan with
    | some (b, true) => some b
    | _ => none
  match taken.foldl List.erase (tm.reserved g.gidx) with
  | b :: _ => some (b, true)
  | [] => ((s.giving tm.core zn 2).find? fun b => s.partsUsed b < 4).map fun b => (b, false)

/-- STREAM_START (R302): a stream that waits for a channel takes one. -/
def execStreamStart (u qn : Nat) (s : State) : Out :=
  match look s.groups u with
  | none => .next s
  | some g =>
    match look g.queues qn, look s.teams g.team with
    | some q, some tm =>
      match (if q.waits then s.streamChannel g tm (s.zoneNum g) else none) with
      | some c => .next (s.updGroup u fun g => { g with queues := put g.queues qn { q with waits := false, chan := some c } })
      | none => .next s
    | _, _ => .next s

/-- What reading an entry meets: its elements and the uncorrectable ones, at once; a load to be started; a problem; or the wait for an
atomic of the same thread (R179). -/
inductive EntryRes where
  | ok (elem : Nat → Nat) (bad : Mask) (ts : Nat)
  | load (accs : List ThreadAcc)
  | stop (p : Stop)
  | wait

def Team.entryScratch (tm : Team) (q : OpQueue) (x : Stream) : EntryRes :=
  let n := x.esize
  let live := fun t => !inMask q.poison t
  let out := maskOf fun t => live t && (decide (x.addr t < 0) || decide ((tm.scratchSize : Int) < x.addr t + (n : Int)))
  if out != 0 then .stop (.trap 0x14 out (low64 (x.addr (lowest out))))
  else
    let at_ := fun t => (x.addr t).toNat
    .ok (fun t => natOfBytes (tm.scrBytes (at_ t) n))
      (maskOf fun t => live t && tm.scrbad.any fun h => at_ t / 2 ≤ h && h ≤ (at_ t + n - 1) / 2)
      (((List.range 32).filter live).foldl (fun m t => max m (tm.stampOf (at_ t))) 0)

/-- The threads' global addresses of an entry are translated and checked (R303). -/
def View.entryGlobal (w : View) (q : OpQueue) (x : Stream) : EntryRes :=
  let va := fun t : Nat => (BitVec.ofInt 72 (x.addr t) : VA)
  let live := (List.range 32).filter fun t => !inMask q.poison t
  let trap := fun bad : Mask => EntryRes.stop (.trap 0x11 bad ((va (lowest bad)).toNat % 2 ^ 64))
  let win := maskOf fun t => live.contains t && isWindow (va t)
  if win != 0 then trap win
  else
    match lowestVa ((live.filter fun t => (w.translateQuiet (va t) .qslice).isNone).map fun t => (va t, Acc.qslice)) with
    | some (v, _) =>
      match w.s.walkMarks w.cx v .qslice with
      | .fault k lv size =>
        let by_ := live.map fun t => ((maskOf fun k => k == t), va t, va t)
        .stop (.fault { va := v, kind := k, acc := .qslice, level := lv, zone := w.cx.zone, tmask := pageMask by_ v size, team := w.g.team
                        group := w.u, low := pageLow by_ v size } none)
      | .ok .. => .wait
    | none =>
      let at_ := live.filterMap fun t => (w.translateQuiet (va t) .qslice).map fun r => (t, r)
      let prot := maskOf fun t => at_.any fun p => p.1 == t && w.s.refusedPa p.2.2 p.2.1
      if prot != 0 then trap prot
      else .load (at_.map fun p => { thr := p.1, n := x.esize, tgt := .glob (va p.1), pcs := [⟨p.1, 0, x.esize, p.2.1, p.2.2, va p.1⟩] })

/-- A stream stops at an entry (R303). -/
def View.stopStream (w : View) (qn : Nat) (p : Stop) : State :=
  let s := match p with
    | .fault .. => { w.s with fwait := w.s.fwait ++ [FaultSrc.stream w.u qn] }
    | .trap .. => w.s
  s.setGroup w.u { w.g with queues := upd w.g.queues qn fun q => { q with stop := some p } }

/-- The load of an entry starts, or the stream stops there for a race (R234; DEDUCED, log 106). It is a load of the group with the clock
and the place of its AEND: it forwards only stores before that, and waits for their atomics (R179, R303). -/
def View.startEntry (w : View) (qn : Nat) (x : Stream) (accs : List ThreadAcc) : State :=
  let before : View :=
    { w with g := { w.g with sbuf := w.g.sbuf.filter fun e => decide (e.id < x.seq), fly := w.g.fly.filter fun f => decide (f.id < x.seq) } }
  if before.loadBlocked accs || w.facqWaits then w.s
  else match (if w.s.objs.isEmpty then .ok w.s else w.raceCheck accs false) with
  | .error (bad, info) => w.stopStream qn (.trap 0x30 bad info)
  | .ok s =>
    let w := { w with s := s }
    let got := accs.flatMap before.readyBytes
    let r : LoadRec :=
      { id := w.g.seq, kind := .stream qn, ty := if x.w64 then .b64 else .b32, nl1 := false, p := x.pts, got := got, bad := []
        lines := neededLines accs got, pieces := accs.flatMap fun a => a.pcs.map fun p => ⟨p.thr, p.at_, p.pa, p.n⟩ }
    let vas := accs.filterMap fun a => match a.tgt with
      | .glob va => some va
      | _ => none
    if w.walkBehind .qslice vas then w.s else
    let y := (LoadRun.startAll { s := w.installQuiet .qslice vas, r := r } { w.lineCtx with behind := [] }).logged w.cx.zone
    let s := if y.r.bad.isEmpty then y.s else y.s.logError 2 (some w.tm.district) 0xFFFF w.cx.zone 0
    s.setGroup w.u ({ w.g with seq := w.g.seq + 1, reports := w.g.reports ++ y.fail, lmax := max w.g.lmax y.ts
                               loads := w.g.loads ++ [y.r] }.finishLoad y.r)

/-- A stream of a group reads its next entry, when its queue has room and every access before its AEND is done (R302, R303). -/
def View.streamRead (w : View) (qn : Nat) (q : OpQueue) (x : Stream) : State :=
  if q.waits || q.stop.isSome || decide ((if x.w64 then 64 else 128) ≤ q.entries.length) || !w.g.hasLive
      || !(w.tm.run == .running || w.tm.run == .halted)
      || w.g.loads.any fun l => decide (l.id < x.seq) || l.kind == LoadKind.stream qn then w.s
  else
    match (if x.sp then w.tm.entryScratch q x else w.entryGlobal q x) with
    | .wait => w.s
    | .load accs => w.startEntry qn x accs
    | .stop p => w.stopStream qn p
    | .ok elem bad ts => w.s.setGroup w.u { w.g with queues := put w.g.queues qn (q.push x elem bad), lmax := max w.g.lmax ts }

/-- STREAM_READ (R302, R303). -/
def execStreamRead (u qn : Nat) (s : State) : Out :=
  match { s with cur := u }.view? with
  | none => .next s
  | some w =>
    match look w.g.queues qn with
    | none => .next s
    | some q =>
      match q.stream with
      | none => .next s
      | some x => .next { w.streamRead qn q x with cur := s.cur }

end Sys2Proof.Machine
end

