-- ==== Sys2Proof/Machine/TaskForms.lean ====
section
/-!
DEFINITION. Class 0x8 (R313 to R321).
-/

namespace Sys2Proof.Machine

/-- The graph of the group's node. -/
def View.graph? (w : View) : Option Graph := if w.tm.task then look w.s.graphs w.tm.graph else none

/-- CPSTAT's word (R315). -/
def View.copyStatus (w : View) (i : Nat) : W64 :=
  if !w.tm.task then 0
  else
    match w.tm.inputs[i]? with
    | none => statusWord true 0x0305 0
    | some (_, some x) => x
    | some (_, none) =>
      match w.s.copies.find? fun c => c.2.team == w.g.team && c.2.input == i with
      | some c => statusWord false 0 c.2.bytes
      | none => 0

def execCpstat (x : Cpstat) (s : State) : Out :=
  laneOp (.cpstat x) s false fun w _ _ => .bits (w.copyStatus x.i.toNat).toNat

/-- A form that acts once and changes the state beside its group; `ready`: it may go on. -/
def onceOp (i : Instr) (s : State) (ready : View → Bool) (f : View → Mask → State × Group) : Out :=
  issue i s fun w m =>
    if !ready w then .next (w.hold .again)
    else
      let (s, g) := f w m
      .next (s.issued w.u i.uses.ctl w.halting (w.track i 0 .now ((releaseS i.uses.srcs g).advance w.sel)))

/-- OUTRDY (R316): a signal (R229). -/
def execOutrdy (x : Outrdy) (s : State) : Out :=
  onceOp (.outrdy x) s (fun w => w.g.signalsClear) fun w _ =>
    (if w.tm.task ∧ x.i.toNat < w.tm.nout then
      w.s.updTeam w.g.team fun t => { t with outmask := t.outmask ||| 2 ^ x.i.toNat }
    else w.s, w.g)

/-- TCOND (R317): the store of a condition word, checked as an ST. -/
def execTcond (x : Tcond) (s : State) : Out :=
  issue (.tcond x) s fun w m =>
    let i := Instr.tcond x
    match w.graph? with
    | none => .next (w.finishS i m w.s w.g 0)
    | some g =>
      let n := x.n.toNat
      if g.nodes.length ≤ n then .next (w.finishS i m w.s w.g 1)
      else if (g.node n).kind ≠ 1 ∧ (g.node n).kind ≠ 2 then .next (w.finishS i m w.s w.g 2)
      else
        let va := g.addr ((g.node n).fld 0x20 8)
        w.access i.uses m 8 .store (fun _ => w.wideAddr va.toNat 0 8 false true) fun accs =>
          if accs.any fun a => a.pcs.any fun p => !w.s.isRemote (lineOf p.pa) && isRegLine (lineOf p.pa) then
            .next (w.trapHere 0x11 m (va.toNat % 2 ^ 64))
          else
            w.raced i.uses m accs true fun w =>
              if 16 ≤ w.g.sbuf.length then .next (w.hold .again)
              else
                let w := w.clean accs
                let parts := globParts accs (storePiece fun _ => bytesOf 8 (w.n64 x.a (lowest m)))
                let g := { w.g with seq := w.g.seq + 1, sbuf := w.g.sbuf ++ [{ id := w.g.seq, parts := parts, sem := .rlx, scope := .dev, tcond := true }] }
                .next (w.finishS i m w.s g 0)

/-- TDONE (R318): a signal. -/
def execTdone (x : SrcF) (s : State) : Out :=
  onceOp (.tdone x) s (fun w => w.g.signalsClear) fun w m =>
    let a := w.n32 x.a (lowest m) % 2 ^ 15
    (if w.tm.task ∧ a ≠ 0 then w.s.nodeStatus w.tm.graph w.tm.node (0x8000 + a) else w.s, w.g)

/-- Submit a packet that the group has read: the answer's value. The identifier that an accepted NOP packet gives is not stated: a free
value (log entry 15). -/
def View.spawn (w : View) (bs : List Byte) : State × Nat :=
  let s := w.s
  match look s.graphs w.tm.graph with
  | none => (s, 2 ^ 63 + 3)
  | some gr =>
    let e := s.qd gr.queue
    let slot := e.slot.bind fun k => look s.slots k
    if !packetOk bs || packetFence bs then (s, 2 ^ 63 + 1)
    else if ((slot.map Slot.error).getD e.error) || 256 ≤ s.infl gr.queue then (s, 2 ^ 63 + 2)
    else if fieldOf bs 0 1 = 1 then
      s.submit w.tm.ctx w.cx gr.queue ((slot.map Slot.qcb).getD (s.homeBytes (e.qcbpa * 64) 64)) bs
    else
      let s := if doneGiven (packetDone bs) then s.writeRecord w.cx gr.queue (packetDone bs) (fieldOf bs 0x20 8) 0 0xFFFF 0 else s
      ({ s with nfree := s.nfree + 1 }, (Config.freeValue s.nfree).toNat % 2 ^ 32)

/-- What the Exchange writes for a packet has to wait at its home (R400, R403). -/
def View.spawnHeld (w : View) (bs : List Byte) : Bool :=
  (look w.s.graphs w.tm.graph).any (fun gr => w.s.qcbHeld gr.queue)
    || (fieldOf bs 0 1 != 1 && doneGiven (packetDone bs) && w.s.exHeld w.cx (packetDone bs) 16)

/-- TSPAWN (R319): a signal; its packet is a load of the group (R186, R234), and one that comes with an uncorrectable error is consumed by
the instruction, which takes MEMUE (R189; DEDUCED, log 92). -/
def execTspawn (x : SdA) (s : State) : Out :=
  issue (.tspawn x) s fun w m =>
    let i := Instr.tspawn x
    if !w.g.signalsClear || w.s.zoneQueued w.cx.zone then .next (w.hold .again)
    else if !w.tm.task then .next (w.finishS i m w.s w.g (2 ^ 63 + 3))
    else
      w.access i.uses m 64 .load (fun _ => w.wideAddr (w.n128 x.a (lowest m)) 0 64 false true) fun accs =>
        w.raced i.uses m accs false fun w => w.readForm accs fun w bs bad =>
          if bad then .next (w.trapHere 0x41 m 0)
          else if w.spawnHeld bs then .next (w.hold .again)
          else .next (w.finishS i m (w.spawn bs).1 w.g (w.spawn bs).2)

/-- TQRY's value (R320). -/
def View.taskQuery (w : View) (g : Graph) (sel : Nat) : Nat :=
  match sel with
  | 0 => w.tm.node + w.tm.graph * 2 ^ 16
  | 1 => w.tm.clid
  | 2 => (g.node w.tm.node).nclu
  | 3 => w.tm.gti
  | 4 => g.queue + w.tm.prio * 2 ^ 8
  | 5 => g.front + (g.node w.tm.node).stage * 2 ^ 8
  | 6 => ((g.innermost w.tm.node).map fun n => (g.node n).iter).getD 0
  | _ => wrap 64 (w.s.zoneOf w.cx.zone).bal

def execTqry (x : SdSel) (s : State) : Out :=
  laneOp (.tqry x) s false fun w _ _ => .bits ((w.graph?.map fun g => w.taskQuery g x.sel.toNat).getD 0)

/-! ## Access slices (R300 to R302, R321) -/

/-- A queue as ASTART leaves it: emptied and ended, its channel released. -/
def OpQueue.cancel (q : OpQueue) : OpQueue :=
  { q with ended := true, entries := [], stream := none, stop := none, poison := 0, waits := false, chan := none }

/-- The group's slice is gone: its streams, their reads, their queues' entries (R300). -/
def Group.cancelSlice (g : Group) : Group :=
  { g with slice := some {}, queues := mapVals g.queues fun _ q => q.cancel, loads := g.loads.filter fun r => !r.kind.streams }

/-- ASTART (R300). -/
def execAstart (x : CtlOnly) (s : State) : Out :=
  onceOp (.astart x) s (fun _ => true) fun w _ => (w.s.dropWaits [(w.u, w.g)] false, w.g.cancelSlice)

def execAloop (x : Aloop) (s : State) : Out :=
  groupOp (.aloop x) s fun w m g =>
    { g with slice := g.slice.map fun d => { d with trips := setAt d.trips x.lvl.toNat fun _ => w.n32 x.a (lowest m) } }

def execAstrm (x : Astrm) (s : State) : Out :=
  groupOp (.astrm x) s fun w m g =>
    let k := fun j : Nat => ((BitVec.ofNat 32 (w.tm.constNat 0 (4 * (x.m.toNat + j)) 4)).toInt : Int)
    let st : Stream :=
      { sp := x.sp, w64 := x.ty.width == 64, base := if x.sp then w.n32 x.a (lowest m) else w.n128 x.a (lowest m)
        strides := (List.range 4).map k, ts := k 4 }
    { g with slice := g.slice.map fun d => { d with streams := put d.streams x.q.toNat st } }

/-- Multiples of the element size (R301). -/
def Stream.aligned (x : Stream) : Bool :=
  let n : Int := if x.w64 then 8 else 4
  (x.base : Int) % n == 0 && x.strides.all (fun s => s % n == 0) && x.ts % n == 0

/-- The queue a stream starts on (R302). -/
def Stream.queue (x : Stream) (trips : List Nat) (pts seq : Nat) : OpQueue :=
  let q : OpQueue := { width := if x.w64 then 64 else 32, bound := true }
  if trips.any (· == 0) then q
  else { q with ended := false, waits := true, stream := some { x with trips := trips, pts := pts, seq := seq } }

/-- AEND (R300 to R302). -/
def execAend (x : CtlOnly) (s : State) : Out :=
  issue (.aend x) s fun w m =>
    let d := w.g.slice.getD {}
    let info := fun st : Stream => low64 (st.addr (lowest m))
    match d.streams.find? (fun p => !p.2.aligned), d.streams.find? fun p => !p.2.sp && decide (2 ^ 72 ≤ p.2.base) with
    | some p, _ => .next (w.trapHere 0x12 m (info p.2))
    | none, some p => .next (w.trapHere 0x11 m (info p.2))
    | none, none =>
      let qs := d.streams.foldl (fun l p => put l p.1 (p.2.queue d.trips w.g.pts w.g.seq)) w.g.queues
      let g := { w.g with slice := none, queues := qs, seq := w.g.seq + 1, winLoad := w.g.winLoad || d.streams.any fun p => !p.2.sp }
      .next (w.s.issued w.u x.ctl w.halting (w.track (.aend x) 0 .now (g.advance w.sel)))

end Sys2Proof.Machine
end

