-- ==== Sys2Proof/Machine/Complete.lean ====
section
/-!
DEFINITION. Completion of instructions (R43, R75) and the records of the arithmetic log (R77 to R80).
-/

namespace Sys2Proof.Machine

/-! ## Traps at an instruction boundary -/

/-- PC A of a group (R138): the most threads, ties to the lower address. -/
def Group.pcA (g : Group) (skip : Option VA) : Option VA :=
  let run := (List.range 32).filter fun t => (g.thread t).running && some (g.thread t).pc != skip
  let count := fun pc : VA => (run.filter fun t => (g.thread t).pc == pc).length
  (run.map fun t => (g.thread t).pc).foldl (fun b pc =>
    match b with
    | none => some pc
    | some c => if count c < count pc ∨ (count c = count pc ∧ pc.toNat < c.toNat) then some pc else some c) none

/-- Every earlier instruction of the group has completed; a prefetch or a stream's read is part of none (R197, R303). -/
def Group.allDone (g : Group) : Bool := g.inflight.isEmpty && g.pends.isEmpty && g.reads.isEmpty

/-- The next instruction of a group: PC A, or the lowest PC of its live threads (R336). -/
def Group.nextPc (g : Group) : VA :=
  match g.pcA none with
  | some pc => pc
  | none => ((g.threads.filter Thread.live).map (·.pc)).foldl (fun b pc => if pc.toNat < b.toNat then pc else b)
      (((g.threads.filter Thread.live).map (·.pc)).headD 0)

/-- The threads whose next instruction that is. -/
def Group.nextMask (g : Group) : Mask :=
  if g.hasRun then g.maskIf fun th => th.running && th.pc == g.nextPc else g.maskIf fun th => th.live && th.pc == g.nextPc

/-- A trap taken at an instruction boundary of a group. -/
def State.boundaryTrap (s : State) (u : Nat) (g : Group) (code : Nat) (mask : Mask) (info : Nat) : State :=
  match { s with cur := u }.view? with
  | some w =>
    let s' := w.takeTrap g code mask (g.nextPc.setWidth 64) info
    { s' with cur := s.cur }
  | none => s

/-! ## The log (R77 to R80) -/

/-- A log record's bytes (R78). Bits [31:0] of SR.TEAM are GTI (R327). -/
def LogRec.bytes (r : LogRec) (g : Group) (tm : Team) : List Byte :=
  bytesOf 8 r.pc.toNat ++ bytesOf 2 r.opc.toNat ++ bytesOf 1 r.cause.toNat ++ bytesOf 1 g.gidx ++ bytesOf 4 tm.gti

/-- A slot of the log is free; where it is. -/
def Ctx.logFree (c : Ctx) : Bool := c.alogwidx.toNat < c.alogcap.toNat
def Ctx.logVa (c : Ctx) : VA := BitVec.ofNat 72 (bitsOf c.alogbase.toNat 0 60 * 4096 + 16 * c.alogwidx.toNat)

/-- A record takes the next slot (R79). -/
def State.logSlot (s : State) (u : Nat) (r : LogRec) : State :=
  match look s.groups u with
  | none => s
  | some g =>
    match look s.teams g.team with
    | none => s
    | some tm =>
      match look s.ctxs tm.ctx with
      | none => s
      | some cx =>
        (s.updCtx tm.ctx fun c => { c with alogwidx := c.alogwidx + 1 }).setGroup u
          { g with logOut := g.logOut ++ [(cx.logVa, r.bytes g tm)] }

/-- What a completing instruction with exceptions to log produces: a record, or a merge with the held one (R79, R80). -/
def State.logRecord (s : State) (u : Nat) (cx : Ctx) (g : Group) (r : LogRec) : State :=
  match g.heldLog with
  | some h => s.setGroup u { g with heldLog := some { h with cause := h.cause ||| r.cause } }
  | none => if cx.logFree then (s.setGroup u g).logSlot u r else s.setGroup u { g with heldLog := some r }

/-! ## Completion -/

/-- What an instruction waits for has come. -/
def State.doneNow (s : State) (g : Group) : DoneWhen → Bool
  | .now => true
  | .pend id => !(g.pends.any fun p => p.id == id)
  | .load id => !(g.loads.any fun l => l.id == id)
  | .release seq => g.rels.all fun r => r.seq != seq || g.releaseMet r
  | .mx quad id => !((s.quadOf quad).queue.any fun o => o.id == id)

/-- The instruction gives a record; LOGEN counts as 0 in handler mode (R79, R334). -/
def Inflight.logs (x : Inflight) (cx : Ctx) (g : Group) : Bool := !g.handler && (x.flags &&& cx.logen) != 0

/-- Entry k of a group's instructions completes; records keep the issue order of the group. -/
def State.completeInstr (s : State) (u k : Nat) : State :=
  match look s.groups u with
  | none => s
  | some g =>
    match g.inflight[k]?, (look s.teams g.team).bind fun tm => look s.ctxs tm.ctx with
    | some x, some cx =>
      if !s.doneNow g x.when_ || (x.logs cx g && (g.inflight.take k).any fun y => y.logs cx g) then s
      else
        let g := { g with inflight := dropAt g.inflight k, fflags := g.fflags ||| x.flags }.leaveSb x.sb
        if x.logs cx g then s.logRecord u cx g { pc := x.pc, opc := x.opc, cause := x.flags } else s.setGroup u g
    | _, _ => s

/-- The oldest record that waits is discarded: ERR, and PROT at the boundary (R79). R79 gives no SR.TMASK; the model records the
threads whose next instruction SR.EPC is, which makes the trap precise (DESIGN CHOICE, log 76). A group whose threads have all exited
has no boundary left, and takes none. -/
def State.logLost (s : State) (u : Nat) (g : Group) (va : VA) : State :=
  let s := match s.ctxOf g with
    | some n => s.updCtx n fun c => { c with alogerr := true }
    | none => s
  let g := { g with logOut := g.logOut.drop 1 }
  if g.hasLive then (s.setGroup u g).boundaryTrap u g 0x11 g.nextMask (va.toNat % 2 ^ 64) else s.setGroup u g

/-- The group stands where the failed write of a record can park it or trap; a group that is being ended (R351) has only its
stores left. -/
def Group.atBoundary (g : Group) : Bool := g.wait.boundary && (!g.stopped || !g.hasLive)

/-- The oldest record of a group enters its store buffer, checked and translated as its own stores are (R166, R30); a fault parks the
group. -/
def State.logStore (s : State) (u : Nat) (g : Group) : State :=
  match g.logOut, look s.teams g.team with
  | (va, bs) :: rest, some tm =>
    match look s.ctxs tm.ctx with
    | none => s
    | some cx =>
      if 16 ≤ g.sbuf.length then s
      else if isWindow va then (if g.atBoundary then s.logLost u g va else s)
      else
        match s.tlbLookup tm.core cx.zone tm.ctx va .store cx.priv with
        | some (pa, leaf) =>
          if s.refusedPa leaf pa || (!s.isRemote (lineOf pa) && isRegLine (lineOf pa)) then
            if g.atBoundary then s.logLost u g va else s
          else
            let e : SEntry := { id := g.seq, parts := [{ va := va, thr := 0, pa := pa, n := 16, leaf := leaf, op := .store bs }]
                                sem := .rlx, scope := .dev }
            s.setGroup u { g with seq := g.seq + 1, sbuf := g.sbuf ++ [e], logOut := rest }
        | none =>
          if s.walkQueued cx va then s else
          match s.walkInstall tm.core tm.ctx cx va .store with
          | .ok s => s
          | .error (k, lv, _) =>
            if g.atBoundary then
              let pc := g.nextPc
              let r : FaultRec := { va := va, kind := k, acc := .store, level := lv, zone := cx.zone, tmask := g.nextMask,
                                    team := g.team, group := u, log := true }
              let g := { g with wait := .parked pc r none }
              { s with fwait := s.fwait ++ [FaultSrc.group u] }.setGroup u (if g.slot.isSome then g.leaveSlot none else g)
            else s
  | _, _ => s

/-- INSTRUCTION_COMPLETE (R43, R75, R79): entry k completes, or with no such entry the oldest log record goes to the store
buffer. -/
def execInstructionComplete (u k : Nat) (s : State) : Out :=
  match look s.groups u with
  | none => .next s
  | some g => .next (if k < g.inflight.length then s.completeInstr u k else s.logStore u g)

end Sys2Proof.Machine
end

