-- ==== Sys2Proof/Machine/System.lean ====
section
/-!
DEFINITION. Class 0x9 but for the context forms (R323 to R355, R359 to R361), and the events of halts, time slices, stops and
migration (R336, R340 to R342).
-/

namespace Sys2Proof.Machine

/-! ## TRAP and RETT (R335, R350, R80) -/

/-- TRAP (R350): TRAPI saves the next instruction and moves its threads on; BREAK saves the TRAP. -/
def execTrap (x : TrapF) (s : State) : Out :=
  issue (.trap x) s fun w m =>
    let s := if x.brk then w.trapHere 0x51 m x.n.toNat
      else w.takeTrap ({ w.g with lastIssue := w.s.schedOf w.g + 1 }.advance w.sel) 0x50 m (w.pc64 + 12) x.n.toNat
    .next s

/-- RETT (R335): outside handler mode nothing; a bad SR.EPC raises BTGT, which halts the team. -/
def execRett (x : CtlOnly) (s : State) : Out :=
  issue (.rett x) s fun w m =>
    if !w.g.handler then .next (w.s.issued w.u x.ctl w.halting (w.track (.rett x) 0 .now (w.g.advance w.sel)))
    else if w.g.tmask != 0 && (w.tm.epcOffset w.g.epc).isNone then
      .next (w.trapHere 0x17 m (w.g.epc - w.tm.codeBase.setWidth 64).toNat)
    else
      let pc := (w.tm.epcOffset w.g.epc).map fun off => w.tm.codeBase + BitVec.ofNat 72 off
      let s := w.s.issued w.u x.ctl w.halting (w.track (.rett x) 0 .now (w.g.leaveHandler pc))
      .next (match w.g.heldLog with
        | some r => if w.cx.logFree then (s.updGroup w.u fun g => { g with heldLog := none }).logSlot w.u r
          else s.updGroup w.u fun g => { g with relog := true }
        | none => s)

/-- LOGRD (R361). -/
def execLogrd (x : Sd) (s : State) : Out :=
  issue (.logrd x) s fun w _ =>
    let bs := match w.g.heldLog with
      | some r => r.bytes w.g w.tm
      | none => bytesOf 16 0
    let g := (w.g.setS x.d.toNat (BitVec.ofNat 64 (fieldOf bs 0 8))).setS (x.d.toNat + 1) (BitVec.ofNat 64 (fieldOf bs 8 8))
    .next (w.s.issued w.u x.ctl w.halting (w.track (.logrd x) 0 .now ((g.clearMarks .s 0 x.d.toNat 2).advance w.sel)))

/-! ## Special registers (R326 to R328) -/

def Priv.code : Priv → Nat
  | .user => 0
  | .sup => 1
  | .hyp => 2

/-- Guest time TN (R417). -/
def State.guestTime (s : State) (c : Ctx) : Nat := max c.tlast (c.baseval + s.now - c.baseptp)

/-- A register's 64 bits for a thread. -/
def View.sr (w : View) (num t : Nat) : Nat :=
  let g := w.g
  let tm := w.tm
  match num with
  | 0x00 => ((tm.clid * tm.tpc + tm.crank) * tm.gpt + g.gidx) * 32 + t
  | 0x01 => (tm.gpt - 1) * 2 ^ 8 + g.gidx
  | 0x02 => tm.sr
  | 0x03 => (tm.tpc - 1) * 2 ^ 16 + tm.crank
  | 0x04 => tm.ctx * 2 ^ 32 + w.cx.priv.code * 2 ^ 16 + w.cx.zone
  | 0x05 => g.quad % 4 * 2 ^ 16 + tm.core
  | 0x08 => g.pts
  | 0x09 => (w.s.zoneOf w.cx.zone).epoch
  | 0x0A => w.s.guestTime w.cx
  | 0x0B => g.part.toNat
  | 0x0C => w.s.capgen
  | 0x10 => g.cause.toNat + (if g.handler then 2 ^ 15 else 0) + if g.double then 2 ^ 16 else 0
  | 0x11 => g.epc.toNat
  | 0x12 => g.tmask.toNat
  | 0x13 => g.tinfo.toNat
  | 0x14 => g.tvec.toNat
  | 0x18 => g.fflags.toNat
  | 0x19 => w.cx.logen.toNat + if w.cx.ftz then 2 ^ 8 else 0
  | 0x1A => w.cx.rseed.toNat
  | 0x1B => w.cx.alogbase.toNat
  | 0x1C => w.cx.alogcap.toNat + w.cx.alogwidx.toNat * 2 ^ 32 + if w.cx.alogerr then 2 ^ 48 else 0
  | 0x1D => g.mxinfo.toNat
  | 0x20 => w.cx.ptroot.toNat
  | _ => 0

/-- Registers only supervisors and the hypervisor reach (R326). -/
def srSup (num : Nat) : Bool := num == 0x05 || num == 0x20

/-- A read of TN is remembered (R417). -/
def State.noteTime (s : State) (ctx : Nat) : State := s.updCtx ctx fun c => { c with tlast := s.guestTime c }

/-- SRRD (R328): SR.FFLAGS waits until every earlier instruction has completed (R75). -/
def execSrrd (x : Srrd) (s : State) : Out :=
  issue (.srrd x) s fun w m =>
    let n := x.num.toNat
    if srSup n && w.cx.priv == .user then .next (w.trapHere 0x02 m 0x242)
    else if n == 0x18 && !(w.g.inflight.isEmpty && w.g.pends.isEmpty) then .next (w.hold .kept)
    else
      let s := w.finish (.srrd x) m false fun t => .bits (w.sr n t % 2 ^ x.ty.width)
      .next (if n = 0x0A then s.noteTime w.tm.ctx else s)

/-- TLB entries that meet a condition go from every TLB, and frame attributes follow (R185, R354). -/
def State.tlbDrop (s : State) (p : TlbE → Bool) : State :=
  State.refreshFrames { s with tlb1 := s.tlb1.filter (fun e => !p e), tlb2 := s.tlb2.filter fun e => !p e }

/-- What a write does to a register (R326 to R329, R75 to R77, R417); `v` is the value, `h` handler mode. -/
def View.srWrite (w : View) (num : Nat) (v : W64) : State × Group :=
  let g := w.g
  let cx := fun f : Ctx → Ctx => (w.s.updCtx w.tm.ctx f, g)
  match num with
  | 0x0A =>
    if w.cx.priv == .user || v.toNat < w.s.guestTime w.cx then (w.s, g)
    else cx fun c => { c with baseval := v.toNat, baseptp := w.s.now }
  | 0x11 => (w.s, if g.handler then { g with epc := v } else g)
  | 0x12 => (w.s, if g.handler then { g with tmask := v.setWidth 32 } else g)
  | 0x14 => (w.s, { g with tvec := v.setWidth 32 })
  | 0x18 => (w.s, { g with fflags := v.setWidth 5 })
  | 0x19 => cx fun c => { c with ftz := v.getLsbD 8, logen := v.setWidth 5 }
  | 0x1A => cx fun c => { c with rseed := v }
  | 0x1B => cx fun c => { c with alogbase := v &&& 0x0FFFFFFFFFFFFFFF#64 }
  | 0x1C => cx fun c => { c with alogerr := v.getLsbD 48, alogwidx := v.extractLsb' 32 16, alogcap := v.setWidth 16 }
  | 0x20 =>
    let s := w.s.updCtx w.tm.ctx fun c => { c with ptroot := v &&& 0x00FFFFFFFFFFFF80#64 }
    (s.tlbDrop fun e => e.ctx == w.tm.ctx, g)
  | _ => (w.s, g)

/-- SRWR (R328). A write of SR.PTROOT waits as a release at .dev does (R327). A write of SR.FFLAGS is held like the SRRD of it that R75
names, until the exceptions of all earlier instructions are in it (DESIGN CHOICE, log 97). -/
def execSrwr (x : Srwr) (s : State) : Out :=
  issue (.srwr x) s fun w m =>
    let n := x.num.toNat
    if n == 0x20 && w.cx.priv == .user then .next (w.trapHere 0x02 m 0x243)
    else if n == 0x20 && !w.g.quiet .dev then .next (w.hold .kept)
    else if n == 0x18 && !(w.g.inflight.isEmpty && w.g.pends.isEmpty) then .next (w.hold .kept)
    else
      let i := Instr.srwr x
      let v := BitVec.ofNat 64 (w.rd (if x.ty.width = 64 then .b64 else .b32) x.a (lowest m))
      let (s, g) := w.srWrite n v
      let (s, g) := if n = 0x20 then (s.updTeam w.g.team fun t => t.countRelease .dev, g.addRelease .dev) else (s, g)
      let g := (releaseS i.uses.srcs g).mapThreads fun t th => if inMask m t then releaseV i.uses.srcs th else th
      .next (s.issued w.u x.ctl w.halting (w.track i 0 .now (g.advance w.sel)))

/-! ## HALT (R336, R351) -/

/-- The caller may act on a context's things (R323). -/
def Ctx.mayAct (c : Ctx) (zn : Nat) : Bool := c.priv == .hyp || c.zone == zn

/-- The live team that SR.TEAM names, in a zone the caller may act on. -/
def View.teamNamed (w : View) (sr : Nat) : Option (Nat × Team) :=
  w.s.teams.find? fun t => t.2.sr == sr && t.2.run != .retired && t.2.run != .saved &&
    match look w.s.ctxs t.2.ctx with
    | some c => w.cx.mayAct c.zone
    | none => false

/-- Every group of a halted team has stopped; one without live threads has nothing to stop. -/
def State.allStopped (s : State) (tk : Nat) : Bool := (s.groupsOf tk).all fun g => g.2.stopped || !g.2.hasLive

/-- A form that writes a status when it can complete and else holds the group; `s` is what it has done so far. -/
def View.statusOr (w : View) (i : Instr) (m : Mask) (s : State) (done : Option Nat) (mark : Nat) : Out :=
  match done with
  | some d =>
    match look s.groups w.u with
    | some g =>
      let g := { g with acqs := w.g.acqs, pts := max g.pts w.g.pts }
      .next ({ w with s := s, g := g }.finishS i m s g d)
    | none => .next s
  | none => .next (s.updGroup w.u fun g =>
      let g := { g with wait := .retry w.s.curPc .away, issuedAs := some w.asIssued, begun := some mark }
      if g.slot.isSome then g.leaveSlot none else g)

def execHaltStop (x : SdA) (s : State) : Out :=
  issue (.haltStop x) s fun w m =>
    match w.teamNamed (w.n64 x.a (lowest m)) with
    | none => w.statusOr (.haltStop x) m w.s (some 1) 0
    | some (tk, tm) =>
      let s := if tm.run == .running then w.s.updTeam tk fun t => { t with run := .halted } else w.s
      w.statusOr (.haltStop x) m s (if s.allStopped tk then some 0 else none) tk

/-- The team has halted, also when it has been stopped or spilled since (R341). -/
def Team.isHalted (tm : Team) : Bool :=
  tm.run == .halted || ((tm.run == .stopping || tm.run == .stopped || tm.run == .spilled) && tm.haltRun == .halted)

def Team.unhalt (tm : Team) : Team := if tm.run == .halted then { tm with run := .running } else { tm with haltRun := .running }

def execHaltResume (x : SdA) (s : State) : Out :=
  issue (.haltResume x) s fun w m =>
    match w.teamNamed (w.n64 x.a (lowest m)) with
    | none => w.statusOr (.haltResume x) m w.s (some 1) 0
    | some (tk, tm) =>
      if !tm.isHalted then w.statusOr (.haltResume x) m w.s (some 2) 0
      else
        let s := w.s.updTeam tk Team.unhalt
        let s := (s.groupsOf tk).foldl (fun s g => s.updGroup g.1 fun g => { g with stopped := false, skid := 0, tripped := false }) s
        w.statusOr (.haltResume x) m s (some 0) 0

/-- Parked faults of a team's groups are discarded (R339, R341). -/
def State.dropFaults (s : State) (tk : Nat) : State :=
  s.dropWaits (s.groupsOf tk) true

/-- Victims that a waiting ACQR has stopped run on (R230). -/
def State.dropPromos (s : State) (tk : Nat) : State :=
  (s.groupsOf tk).foldl (fun s g => g.2.acqr.foldl (fun s v =>
    s.updTeam v fun t => { t with promo := t.promo - 1 }) s) s

/-- The team ends as by EXIT (R351). Log records that have a slot are stores still to be performed (R79). -/
def State.killTeam (s : State) (tk : Nat) (tm : Team) : State :=
  let s := ((s.dropFaults tk).dropPromos tk).updTeam tk fun t => { t with run := .killed }
  let s := if tm.task then s.nodeStatus tm.graph tm.node 0x0202 else s
  (s.groupsOf tk).foldl (fun s g => s.updGroup g.1 fun g =>
    { (g.mapThreads fun _ th => { th with stat := .exited, pausing := false }) with
      wait := .none, mxpend := none, reports := [], sysc := none, leave := none, stopped := true, acqr := [] }) s

def execHaltKill (x : SdA) (s : State) : Out :=
  issue (.haltKill x) s fun w m =>
    match w.g.begun with
    | some tk =>
      match look w.s.teams tk with
      | none => w.statusOr (.haltKill x) m w.s (some 0) tk
      | some tm => w.statusOr (.haltKill x) m w.s (if tm.run == .retired then some 0 else none) tk
    | none =>
      match w.teamNamed (w.n64 x.a (lowest m)) with
      | none => w.statusOr (.haltKill x) m w.s (some 1) 0
      | some (tk, tm) => w.statusOr (.haltKill x) m (w.s.killTeam tk tm) none tk

/-- HALTSIB (R336): a group of a halted team stops at an instruction boundary; one that has raised a trap of its own since keeps that
trap's registers. -/
def execHaltsib (u : Nat) (s : State) : Out :=
  match look s.groups u with
  | none => .next s
  | some g =>
    match look s.teams g.team with
    | none => .next s
    | some tm =>
      if tm.run != .halted || g.stopped || !g.hasLive then .next s
      else if g.tripped then .next (s.setGroup u { g with stopped := true })
      else
        let run := (List.range 32).filter fun t => (g.thread t).running
        let live := (List.range 32).filter fun t => (g.thread t).live
        let count := fun pc : VA => (run.filter fun t => (g.thread t).pc == pc).length
        let best := fun (b : Option VA) (pc : VA) => match b with
          | none => some pc
          | some c => if count c < count pc ∨ (count c = count pc ∧ pc.toNat < c.toNat) then some pc else some c
        let low := fun (b : Option VA) (pc : VA) => match b with
          | none => some pc
          | some c => if pc.toNat < c.toNat then some pc else some c
        let pc := if run.isEmpty then (live.map fun t => (g.thread t).pc).foldl low none
          else (run.map fun t => (g.thread t).pc).foldl best none
        .next (s.setGroup u { g with stopped := true, cause := 0x60, double := false, tinfo := BitVec.ofNat 64 g.skid
                                     epc := (pc.getD 0).setWidth 64 })

/-! ## SYSC, EVWAIT, EVSIG (R352, R353) -/

def execSysc (x : SdA) (s : State) : Out :=
  issue (.sysc x) s fun w m =>
    let i := Instr.sysc x
    if w.cx.priv == .hyp then .next (w.finishS i m w.s w.g (2 ^ 64 - 1))
    else
      let s := w.s.raiseFor w.u 0x05 (w.n32 x.a (lowest m)) w.tm.sr
      let rel := releaseS i.uses.srcs w.g
      let old := (List.range 64).filterMap fun n => if rel.sreg n = w.g.sreg n then none else some (n, w.g.sreg n)
      let s := s.issued w.u x.ctl w.halting (w.track i 0 .now (rel.advance w.sel))
      .next (s.updGroup w.u fun g =>
        let g := { g with sysc := some ⟨x.d, w.sel, old⟩, wait := .accept }
        if g.slot.isSome then g.leaveSlot none else g)

/-- The answer reaches the waiting group. -/
def Group.answer (g : Group) (d : BitVec 6) (v : W64) : Group :=
  { (g.setS d.toNat v).clearMarks .s 0 d.toNat 1 with sysc := none, wait := .none }

/-- The queue a context reads (R353). -/
def Ctx.evQueue (c : Ctx) : Nat := if c.priv == .hyp then 64 else c.zone

def execEvwait (x : SdA) (s : State) : Out :=
  issue (.evwait x) s fun w m =>
    let i := Instr.evwait x
    let give := fun (s : State) (e : EvRec) =>
      let g := { ((releaseS i.uses.srcs w.g).setS x.d.toNat e.lo).setS (x.d.toNat + 1) e.hi with evUntil := none }
      let g := (g.clearMarks .s 0 x.d.toNat 2).advance w.sel
      (Host.Outcome.next (s.issued w.u x.ctl w.halting (w.track i 0 .now g)) : Out)
    match rget [] w.s.evq w.cx.evQueue with
    | e :: rest => give { w.s with evq := put w.s.evq w.cx.evQueue rest } e
    | [] =>
      let a := w.n32 x.a (lowest m)
      let none_ : EvRec := { code := 0 }
      if a = 0 ∨ w.g.evUntil = some 0 then give w.s none_
      else .next ({ w with g := { w.g with evUntil := w.g.evUntil.orElse fun _ => some (w.s.cycle + a) } }.hold .away)

/-- EVWAIT_TIMEOUT (R353). -/
def execEvwaitTimeout (u : Nat) (s : State) : Out :=
  match look s.groups u with
  | none => .next s
  | some g =>
    match g.evUntil with
    | some t => if t ≤ s.cycle then .next (s.setGroup u { g with evUntil := some 0 }) else .next s
    | none => .next s

def execEvsigSig (x : SdAB) (s : State) : Out :=
  issue (.evsigSig x) s fun w m =>
    let i := Instr.evsigSig x
    let a := w.n32 x.a (lowest m)
    let target := if a.testBit 6 then 64 else a % 64
    let allowed := target == 64 || (w.cx.mayAct target && (look w.s.zones target).isSome)
    if !w.g.signalsClear then .next (w.hold .again)
    else if !allowed then .next (w.finishS i m w.s w.g 1)
    else if 1024 ≤ (rget [] w.s.evq target).length || w.s.evHeld.any fun h => h.1 == target then .next (w.finishS i m w.s w.g 2)
    else
      let e : EvRec := { code := 0x06, ctx := w.tm.ctx, group := w.g.gidx, data := w.n64 x.b (lowest m) }
      .next (w.finishS i m (w.s.raise target e) w.g 0)

def execEvsigAns (x : SdAB) (s : State) : Out :=
  issue (.evsigAns x) s fun w m =>
    let i := Instr.evsigAns x
    let a := w.n64 x.a (lowest m)
    let b := w.n64 x.b (lowest m)
    let hit := w.s.groups.find? fun g => g.2.sysc.isSome && g.2.gidx == b / 2 ^ 59 &&
      match look w.s.teams g.2.team with
      | some t => t.sr == a && match look w.s.ctxs t.ctx with
          | some c => w.cx.mayAct c.zone
          | none => false
      | none => false
    if !w.g.signalsClear then .next (w.hold .again)
    else
      match hit with
      | none => .next (w.finishS i m w.s w.g 1)
      | some (u, g) =>
        match g.sysc with
        | none => .next (w.finishS i m w.s w.g 1)
        | some y =>
          let s := w.s.setGroup u (g.answer y.d (BitVec.ofNat 64 (b % 2 ^ 59)))
          .next (w.finishS i m s w.g 0)

/-! ## TLBINV and FBRESP (R338, R354, R355) -/

/-- An invalidation is a release at .dev (R338). -/
def View.tlbInv (w : View) (i : Instr) (m : Mask) (ok : Bool) (p : TlbE → Bool) : Out :=
  if !w.g.quiet .dev then .next (w.hold .away)
  else
    let s := w.s.updTeam w.g.team fun t => t.countRelease .dev
    let g := w.g.addRelease .dev
    if ok then .next (w.finishS i m (s.tlbDrop p) g 0) else .next (w.finishS i m s g 1)

/-- The caller may act on a live context; numbers above 4,095 hold what a save left (R345). -/
def View.ctxActs (w : View) (n : Nat) : Bool :=
  match look w.s.ctxs n with
  | some c => decide (n < 4096) && w.cx.mayAct c.zone
  | none => false

def execTlbinvVa (x : SdAB) (s : State) : Out :=
  issue (.tlbinvVa x) s fun w m =>
    let b := w.n32 x.b (lowest m)
    let va : VA := BitVec.ofNat 72 (w.n128 x.a (lowest m))
    w.tlbInv (.tlbinvVa x) m (w.ctxActs b) fun e => e.ctx == b && e.vpn == va.toNat / 2 ^ e.leaf.k

def execTlbinvCtx (x : SdAB) (s : State) : Out :=
  issue (.tlbinvCtx x) s fun w m =>
    let b := w.n32 x.b (lowest m)
    w.tlbInv (.tlbinvCtx x) m (w.ctxActs b) fun e => e.ctx == b

def execTlbinvZone (x : SdAB) (s : State) : Out :=
  issue (.tlbinvZone x) s fun w m =>
    let b := w.n32 x.b (lowest m)
    w.tlbInv (.tlbinvZone x) m (decide (b ≤ 64)) fun e => e.zone == b

/-- The answer for the stream of an entry (R303): replay continues it, convert makes it a PROT that the group takes when it reaches the
entry. -/
def OpQueue.answer (q : OpQueue) (tag : Nat) (convert : Bool) : OpQueue :=
  match q.stop with
  | some (.fault r (some t)) =>
    if t ≠ tag then q else { q with stop := if convert then some (.trap 0x11 r.tmask (r.low.toNat % 2 ^ 64)) else none }
  | _ => q

def Group.answerStreams (g : Group) (tag : Nat) (convert : Bool) : Group :=
  { g with queues := mapVals g.queues fun _ q => q.answer tag convert }

/-- An entry's answer (R187, R303): a parked group tries its instruction again on replay and takes PROT on convert. -/
def State.answerFault (s : State) (tag : Nat) (rec : FaultRec) (convert : Bool) : State :=
  let s := { s with fbuf := del s.fbuf tag }
  match look s.groups rec.group with
  | none => s
  | some g =>
    let g := g.answerStreams tag convert
    match g.wait with
    | .parked pc _ (some t) =>
    if t ≠ tag then s.setGroup rec.group g
    else if rec.log && convert then
      let g := { g with wait := .none }
      (s.setGroup rec.group g).logLost rec.group g rec.va
    else
    let s := s.setGroup rec.group { g with wait := .retry pc g.afterWalk }
    if convert && rec.acc != .qslice then
      match { s with cur := rec.group, curPc := pc }.view? with
      | some w =>
        let s' := w.trapHere 0x11 rec.tmask (if rec.acc == .fetch then pc.toNat % 2 ^ 64 else rec.low.toNat % 2 ^ 64)
        { s' with cur := s.cur, curPc := s.curPc }
      | none => s
    else s
    | _ => s.setGroup rec.group g

/-- FBRESP (R355). Of its own group an FBRESP finds only the records of streams (R303): a parked group issues nothing. Fault-buffer
key: district × 512 + TAG. -/
def execFbresp (x : SdA) (s : State) : Out :=
  issue (.fbresp x) s fun w m =>
    let i := Instr.fbresp x
    let a := w.n32 x.a (lowest m)
    let tag := bitsOf a 16 3 * 512 + a % 512
    match look w.s.fbuf tag with
    | some r =>
      let convert := bitsOf a 24 2 == 1
      if bitsOf a 24 2 ≤ 1 && w.cx.mayAct r.zone then
        if r.group = w.u then .next (w.finishS i m { w.s with fbuf := del w.s.fbuf tag } (w.g.answerStreams tag convert) 0)
        else .next (w.finishS i m (w.s.answerFault tag r convert) w.g 0)
      else .next (w.finishS i m w.s w.g 1)
    | none => .next (w.finishS i m w.s w.g 1)

/-! ## QMAP and QUNMAP (R360) -/

/-- A queue leaves its slot: the QCB goes back to QCBPA; a CODE frame refuses it (R185, R360). -/
def State.unmap (s : State) (q : Nat) : State :=
  match (s.qd q).slot.bind fun k => (look s.slots k).map fun x => (k, x) with
  | none => s
  | some (k, x) =>
    let e := s.qd q
    let s := { s with slots := del s.slots k }
    let s := s.updQd q fun e => { e with slot := none }
    if s.isCode (s.ownPa (e.qcbpa * 64)) then s.stopQueue q else s.homePut e.zone (e.qcbpa * 64) x.qcb

def execQmap (x : SdAB) (s : State) : Out :=
  issue (.qmap x) s fun w m =>
    let i := Instr.qmap x
    let a := w.n32 x.a (lowest m)
    let b := w.n32 x.b (lowest m)
    let q := a % 256
    let k := bitsOf a 8 6
    let e := w.s.qd q
    let zoneOk := e.valid && w.cx.mayAct e.zone && (w.s.zoneOf e.zone).slots.contains k
      && ((look w.s.ctxs b).map fun c : Ctx => c.zone) == some e.zone && w.ctxActs b
    if !zoneOk then .next (w.finishS i m w.s w.g 1)
    else if e.slot.isSome || (look w.s.slots k).isSome then .next (w.finishS i m w.s w.g 2)
    else if ((w.s.zoneOf e.zone).shrink.any fun n => n / 2 ^ 60 == 3 && n % 64 == k) then .next (w.hold .away)
    else if w.s.lineQueued (lineOf (w.s.ownPa (e.qcbpa * 64))) then .next (w.hold .away)
    else if w.s.badLine (lineOf (w.s.ownPa (e.qcbpa * 64))) || (w.s.backer (e.qcbpa * 64)).isNone then .next (w.finishS i m w.s w.g 7)
    else
      let x0 : Slot := { queue := q, ctx := b, qcb := w.s.homeBytes (e.qcbpa * 64) 64 }
      let x1 := x0.set 0x10 4 e.lastw.toNat
      let s := { w.s with slots := put w.s.slots k x1 }.updQd q fun e => { e with slot := some k, pending := false }
      .next (w.finishS i m (if x1.overfull || x1.invalid then s.stopQueue q else s) w.g 0)

def execQunmap (x : SdA) (s : State) : Out :=
  issue (.qunmap x) s fun w m =>
    let i := Instr.qunmap x
    let q := w.n32 x.a (lowest m)
    let e := w.s.qd q
    if decide (256 ≤ q) || !e.valid || !w.cx.mayAct e.zone || e.slot.isNone then .next (w.finishS i m w.s w.g 1)
    else .next (w.finishS i m (w.s.unmap q) w.g 0)

/-! ## Time slices (R340) -/

/-- A group is gated while its quadrant issues for another context, or while it is on none (R340). -/
def State.gatedNow (s : State) (g : Group) : Bool := decide (4096 ≤ g.quad) || s.quadCtx g.quad != s.ctxOf g

/-- Scheduled cycles stop while a group is gated and go on after it. -/
def State.regate (s : State) : State :=
  if s.groups.any fun g => s.gatedNow g.2 != g.2.gat.isSome then
    { s with groups := mapVals s.groups fun _ g =>
        match s.gatedNow g, g.gat with
        | true, none => { g with gat := some s.cycle }
        | false, some a => { g with gat := none, gacc := g.gacc + (s.cycle - a) }
        | _, _ => g }
  else s

/-- Contexts with a runnable group on a quadrant. -/
def State.runnableCtxs (s : State) (q : Nat) : List Nat :=
  dedup ((s.groups.filter fun g => g.2.quad == q && g.2.launched && g.2.hasRun && !g.2.stopped).filterMap fun g => s.ctxOf g.2)

/-- The next of them in the rotation: in ascending number from the one that issues. -/
def State.nextCtx (s : State) (q : Nat) : Option Nat :=
  let c := (s.quadCtx q).getD 0
  let least := fun l : List Nat => l.foldl (fun (b : Option Nat) n => match b with
    | none => some n
    | some k => some (min k n)) none
  let run := (s.runnableCtxs q).filter fun n => some n != s.quadCtx q
  (least (run.filter fun n => decide (c < n))).orElse fun _ => least run

/-- The context that issues has none, or its slice of SLICE µs has passed; the first slice counts from when another context waits. -/
def State.sliceOver (s : State) (q : Nat) : Bool :=
  match s.quadCtx q with
  | none => false
  | some c =>
    !(s.runnableCtxs q).contains c
      || ((s.quadOf q).ctx == some c && decide ((s.quadOf q).since + 2500 * ((look s.ctxs c).map fun x : Ctx => x.slice).getD 10 ≤ s.cycle))

/-- The quadrant issues for another context. -/
def State.setSlice (s : State) (q ctx : Nat) : State :=
  let s := s.updQuad q fun x => { x with ctx := some ctx, since := s.cycle }
  State.regate { s with groups := mapVals s.groups fun _ g =>
    if g.quad = q ∧ g.slot.isSome ∧ s.ctxOf g ≠ some ctx then g.leaveSlot (some s.cycle) else g }

/-- SLICE_CHANGE (R340): the slice is over, and the context is the next in the rotation. -/
def execSliceChange (q ctx : Nat) (s : State) : Out :=
  .next (if s.sliceOver q && s.nextCtx q == some ctx then s.setSlice q ctx else s)

/-- The slices of a cycle (R340): a quadrant on which another context can run counts its slice, and changes when it is over. -/
def State.rotate (s : State) : State :=
  ((dedup (s.groups.map fun g => g.2.quad)).foldl (fun s q =>
    match s.nextCtx q with
    | none => s
    | some n =>
      if s.sliceOver q then s.setSlice q n
      else if (s.quadOf q).ctx == s.quadCtx q then s
      else s.updQuad q fun x => { x with ctx := s.quadCtx q, since := s.cycle }) s).regate

/-! ## Stopping and moving teams (R341, R342) -/

/-- A team is asked to stop. -/
def State.askStop (s : State) (tk deadline : Nat) : State :=
  s.updTeam tk fun t =>
    if t.run == .running || t.run == .halted then { t with haltRun := t.run, run := .stopping, deadline := deadline } else t

/-- DRAIN in cycles: the larger of the context's and those of the nodes with teams on the core (R341). -/
def State.drainCycles (s : State) (tm : Team) : Nat :=
  let cd := ((look s.ctxs tm.ctx).map fun c : Ctx => c.drain).getD 0
  2500 * (s.teams.filter fun t => t.2.core == tm.core && t.2.task).foldl (fun m t =>
    max m (((look s.graphs t.2.graph).map fun g => (g.node t.2.node).drain).getD 0)) cd

/-- STOP_REQUEST (R341). -/
def execStopRequest (tk : Nat) (s : State) : Out :=
  match look s.teams tk with
  | some tm => .next (s.askStop tk (s.cycle + s.drainCycles tm))
  | none => .next s

/-- A form that has begun and that R341 does not name is not abandoned: it ends first. CTXSAVE is (R341). -/
def State.formBusy (s : State) (u : Nat) (g : Group) : Bool := g.begun.isSome && !(s.ctxs.any fun c => c.2.saver == some u)

/-- Atomics with a destination are all still in the store buffer. -/
def Group.buffered (g : Group) : Bool := g.pends.all fun p => g.sbuf.any fun e => e.id == p.id

/-- An issued instruction may stay open while its team stops: it waits only for entries of the store buffer, which a stop does not
drain (R215). -/
def Group.mayStay (g : Group) (f : Inflight) : Bool :=
  match f.when_ with
  | .now | .release _ => true
  | .pend id => g.sbuf.any fun e => e.id == id
  | _ => false

/-- Every condition of R341 holds; an atomic with a destination counts as a load once its entry has left the buffer. -/
def State.teamQuiet (s : State) (tk : Nat) : Bool :=
  (s.groupsOf tk).all fun g =>
    !s.formBusy g.1 g.2 && g.2.loads.isEmpty && g.2.buffered && g.2.mxpend.isNone && g.2.leave.isNone
      && g.2.inflight.all g.2.mayStay
      && !(s.quads.any fun q => q.2.queue.any fun o => o.team == tk)

/-- A SYSC that waits is abandoned and executes again (R341): its threads go back to it, and it has read no register for the last time. -/
def Group.dropSysc (g : Group) : Group :=
  match g.sysc with
  | some y =>
    if y.mask = 0 then g
    else
      { (y.old.foldl (fun g r => g.setS r.1 r.2) g).mapThreads fun t th => if inMask y.mask t then { th with pc := th.pc - 12 } else th with
        sysc := none }
  | none => g

/-- A waiting instruction is abandoned and executes again (R341). -/
def Group.abandon (g : Group) : Group :=
  { g with wait := if g.sysc.isSome then .accept else .none, issuedAs := none, pairCede := false, begun := none, clearAt := none, zform := none, evUntil := none
           queues := mapVals g.queues fun _ q => match q.stop with
             | some (.fault ..) => { q with stop := none }
             | _ => q }.leaveSlot none

/-- A stopped team runs on. -/
def State.resumeTeam (s : State) (tk : Nat) : State :=
  s.updTeam tk fun t =>
    if t.run == .stopping || t.run == .stopped then { t with run := t.haltRun, away := false } else t

/-- Teams of a context run on, and no CTXSAVE stops them. -/
def State.resumeCtx (s : State) (n : Nat) : State :=
  (s.teams.foldl (fun s t => if t.2.ctx = n then s.resumeTeam t.1 else s) s).updCtx n fun c => { c with saver := none }

/-- The CTXSAVE of a group is abandoned (R341): the teams it stops run on until it executes again. -/
def State.dropSaves (s : State) (u : Nat) : State :=
  (s.ctxs.filter fun c => c.2.saver == some u).foldl (fun s c => s.resumeCtx c.1) s

/-- The team stops: private lines are written back, parked faults discarded, waiting instructions abandoned. R341 has a SYSC abandoned
too; R345 and R352 have a saved group wait on for its answer: so a stop for a save keeps it, any other abandons it (DEDUCED, log 38). -/
def State.stopTeam (s : State) (tk : Nat) : State :=
  let saving := ((look s.teams tk).bind fun t => look s.ctxs t.ctx).any fun c => c.saver.isSome
  let s := (s.groupsOf tk).foldl (fun s g => s.dropSaves g.1) (s.dropFaults tk)
  let s := (s.groupsOf tk).foldl (fun s g =>
    let (s, g') := s.writeBack (s.zoneNum g.2) g.2 fun _ => true
    s.setGroup g.1 (if saving then g' else g'.dropSysc).abandon) s
  s.updTeam tk fun t => { t with run := .stopped, away := true, stoppedAt := s.cycle }

/-- TEAM_STOPPED (R341). -/
def execTeamStopped (tk : Nat) (s : State) : Out :=
  match look s.teams tk with
  | some tm => .next (if tm.run == .stopping && s.teamQuiet tk then s.stopTeam tk else s)
  | none => .next s

/-- OVERRUN (R341, R347): the charge and the event, once; the end of a cycle brings it when it is due. -/
def execOverrun (tk cycles : Nat) (s : State) : Out :=
  match look s.teams tk with
  | none => .next s
  | some tm =>
    if (tm.run == .stopped || tm.run == .spilled) && tm.deadline + cycles == tm.stoppedAt && cycles != 0 then
      match look s.ctxs tm.ctx with
      | none => .next s
      | some cx =>
        let q := (dedup ((s.groupsOf tk).map fun g => g.2.quad)).length
        let s := s.updTeam tk fun t => { t with deadline := t.stoppedAt }
        let s := s.updZone cx.zone fun z => { z with charge := z.charge + cycles * q }
        .next (s.raise cx.clerk { code := 0x08, ctx := tm.ctx, arg := min cycles (2 ^ 32 - 1) })
    else .next s

/-- The overruns of a cycle. -/
def State.chargeOverruns (s : State) : State :=
  s.teams.foldl (fun s t =>
    match execOverrun t.1 (t.2.stoppedAt - t.2.deadline) s with
    | .next s => s
    | _ => s) s

/-- The stores that the cluster holds for a team are performed, those of each group in its order (R176, R178). -/
def State.deliverHeld (s : State) (tk : Nat) : State :=
  let s := s.groups.foldl (fun s g => (g.2.cluOut.filter fun c => c.team == tk).foldl (fun s c =>
    s.updTeam tk fun tm => tm.scrWrite c.off c.bytes c.pts) s) s
  { s with groups := mapVals s.groups fun _ g =>
      if g.cluOut.any fun c => c.team == tk then { g with cluOut := g.cluOut.filter fun c => c.team != tk } else g }

/-- PEER_ACCESS_RESUME (R176): what was held for a team is performed, and accesses that wait for it are tried again. -/
def execPeerAccessResume (tk : Nat) (s : State) : Out :=
  match look s.teams tk with
  | none => .next s
  | some tm =>
    if tm.away then .next s
    else
      let s := s.deliverHeld tk
      let mates := (s.teams.filter fun t => t.2.cluster == tm.cluster).map fun t => t.1
      .next { s with groups := mapVals s.groups fun _ g =>
        if mates.contains g.team then (match g.wait with
          | .retry pc .away => ({ g with wait := .retry pc .kept }.settle s.cycle)
          | _ => g) else g }

/-! ## Log and failure traps at an instruction boundary (R80, R415) -/

/-- ARITHLOG (R80), at an instruction boundary with every earlier instruction complete, whether or not a thread can run. R80 gives
no SR.TMASK; the model records the threads whose next instruction SR.EPC is (DESIGN CHOICE, log 76). -/
def execArithlog (u : Nat) (s : State) : Out :=
  match look s.groups u with
  | none => .next s
  | some g =>
    if g.heldLog.isSome && !g.handler && g.allDone && g.hasLive && g.wait.boundary && !g.stopped then
      .next (s.boundaryTrap u g 0x70 g.nextMask 0)
    else .next s

/-- REMOTE (R415): reports in arrival order, one trap each; a group that has exited gives its node the status. -/
def execRemote (u : Nat) (s : State) : Out :=
  match look s.groups u with
  | none => .next s
  | some g =>
    match g.reports with
    | [] => .next s
    | r :: rest =>
      let g' := { g with reports := rest }
      if !g.hasLive then
        match look s.teams g.team with
        | some tm => .next ((if tm.task then s.nodeStatus tm.graph tm.node 0x0204 else s).setGroup u g')
        | none => .next (s.setGroup u g')
      else if g.allDone && g.wait.boundary && !g.stopped then
        .next (s.boundaryTrap u g' 0x42 r.mask (r.kind * 2 ^ 12 + r.dev))
      else .next s

end Sys2Proof.Machine
end

