-- ==== Sys2Proof/Machine/Record.lean ====
section
/-!
DEFINITION. Context records: their layout (R344, R346), CTXSAVE, CTXLOAD and CTXQ (R356 to R359), what a save leaves behind
(R345), and the moves of stopped teams (R342).
-/

namespace Sys2Proof.Machine

/-! ## Building blocks -/

/-- Bytes with fields (offset, size, value) over zero. -/
def putFields (size : Nat) (fs : List (Nat × Nat × Nat)) : List Byte :=
  fs.foldl (fun b f => setField b f.1 f.2.1 f.2.2) (bytesOf size 0)

def padTo (unit : Nat) (bs : List Byte) : List Byte := bs ++ bytesOf ((unit - bs.length % unit) % unit) 0

def orBits (bs : List (Bool × Nat)) : Nat := (bs.map fun b => if b.1 then 2 ^ b.2 else 0).sum

/-- TSTATE (R346). -/
def tstate (now : Nat) (st : TStat) (pausing : Bool) : Nat :=
  let (k, n, left) : Nat × Nat × Nat := match st with
    | .run => (0, 0, 0)
    | .cbwait n => (1, n.toNat, 0)
    | .sleep due => (2, 0, due - now)
    | .hold due => (3, 0, due - now)
    | .barwait false b => (4, b, 0)
    | .barwait true b => (5, b, 0)
    | .exited => (6, 0, 0)
  k + (if pausing then 8 else 0) + n * 16 + left * 256

def tstatOf (now x : Nat) : TStat :=
  let n := bitsOf x 4 4
  match x % 8 with
  | 0 => .run
  | 1 => .cbwait (BitVec.ofNat 3 n)
  | 2 => .sleep (now + x / 256)
  | 3 => .hold (now + x / 256)
  | 4 => .barwait false n
  | 5 => .barwait true n
  | _ => .exited

/-- Two bits for each half that an error marks: 1 a register error, 2 a memory error. -/
def markBits (ms : List Mark) (idx : Mark → Nat) : Nat :=
  ms.foldl (fun x k => if bitsOf x (2 * idx k) 2 = 0 then x + (if k.mem then 2 else 1) * 2 ^ (2 * idx k) else x) 0

/-- The marks that a field of n halves holds. -/
def marksFrom (x n : Nat) (mk : Nat → Bool → List Mark) : List Mark :=
  (List.range n).flatMap fun i =>
    match bitsOf x (2 * i) 2 with
    | 1 => mk i false
    | 2 => mk i true
    | _ => []

def Group.marksOf (g : Group) (f : MarkFile) : List Mark := g.marks.filter fun k => k.file == f

/-- The type whose width a store's bytes have. -/
def tyOfBytes (n : Nat) : Ty :=
  match n with
  | 1 => .b8
  | 2 => .b16
  | 4 => .b32
  | 8 => .b64
  | _ => .b128

/-- A store-buffer entry (R346); the parts of an entry made by one thread (R396) stand one to a place. `dst`: the destination of an
atomic that writes one. -/
def SEntry.image (e : SEntry) (dst : Option Nat := none) : List Byte :=
  let part := fun t => if (e.parts.map (·.thr)).Nodup then e.parts.find? fun p => p.thr == t else e.parts[t]?
  let p0 := e.parts.headD { thr := 0, pa := 0, n := 4, leaf := {}, op := .store [] }
  let (kind, ty, aop) : Nat × Ty × Nat := match p0.op with
    | .store _ => (if e.tcond then 4 else 1, tyOfBytes p0.n, 0)
    | .atom ty op _ _ => (if dst.isSome then 2 else 3, ty, op.code.toNat)
  bytesOf 1 kind ++ bytesOf 1 ty.code.toNat ++ bytesOf 1 aop ++ bytesOf 1 (e.sem.code.toNat + 4 * e.scope.code.toNat)
    ++ bytesOf 4 (maskOf fun t => (part t).isSome).toNat ++ bytesOf 1 (dst.getD 0) ++ bytesOf 55 0
    ++ ((List.range 32).flatMap fun t => bytesOf 16 (((part t).map fun p : SPart => p.va.toNat).getD 0))
    ++ ((List.range 32).flatMap fun t => match (part t).map fun p : SPart => p.op with
      | some (.store bs) => bytesOf 32 (natOfBytes bs)
      | some (.atom _ _ b c) => bytesOf 16 b ++ bytesOf 16 c
      | none => bytesOf 32 0)

/-- An entry holds atomics or stores: one with both (log entry 105) is saved as two. -/
def SEntry.split (e : SEntry) : List SEntry :=
  let (a, b) := (e.parts.filter SPart.isAtom, e.parts.filter fun p => !p.isAtom)
  if a.isEmpty || b.isEmpty then [e] else [{ e with parts := a }, { e with parts := b }]

/-- The destination register of an entry's atomic. -/
def Group.entryDst (g : Group) (e : SEntry) : Option Nat :=
  match (g.pends.find? fun p => p.id == e.id && e.parts.any SPart.isAtom).map fun p : Pend => p.dst with
  | some (.v n _) => some n.toNat
  | _ => none

/-- The threads of a pending destination that have their values write them: a record keeps what its entry is to bring. -/
def Group.settlePends (g : Group) : Group :=
  g.pends.foldl (fun g p =>
    if p.got.isEmpty then g else g.deliver { p with mask := maskOf fun t => inMask p.mask t && p.got.any fun x => x.1 == t }) g

/-- The entries a save finds in a group's buffer: those of the buffer and the log records still to enter it. -/
def Group.savedEntries (g : Group) : List SEntry :=
  (g.sbuf.flatMap SEntry.split) ++ g.logOut.map fun r =>
    { id := 0, sem := .rlx, scope := .dev
      parts := [{ va := r.1, thr := 0, pa := 0, n := 8, leaf := {}, op := .store (r.2.take 8) },
                { va := r.1 + 8, thr := 1, pa := 0, n := 8, leaf := {}, op := .store (r.2.drop 8) }] }

/-- One queue of the slice image. -/
def OpQueue.image (q : OpQueue) : List Byte :=
  let st : Stream := q.stream.getD { sp := false, w64 := q.width == 64, base := 0, strides := [], ts := 0, trips := [0, 0, 0, 0], next := [0, 0, 0, 0] }
  let words := fun l : List Nat => (List.range 4).flatMap fun i => bytesOf 4 (l.getD i 0)
  let n := if q.width = 64 then 8 else 4
  bytesOf 1 (orBits [(q.bound, 0), (q.ended, 1), (q.stop.isSome, 2), (q.width == 64, 3)]) ++ bytesOf 1 q.entries.length ++ bytesOf 1 0
    ++ bytesOf 1 (if st.sp then 1 else 0) ++ bytesOf 4 0 ++ bytesOf 16 st.base ++ words st.trips ++ words st.next
    ++ words (st.strides.map fun i => wrap 32 i) ++ bytesOf 4 (wrap 32 st.ts) ++ bytesOf 52 0
    ++ (padTo 16384 (q.entries.flatMap fun e => (List.range 32).flatMap fun t => bytesOf n (e.1.getD t 0)) ++ bytesOf (if q.entries.isEmpty then 16384 else 0) 0)

/-- UAL and UAR: entries that have left and are not acknowledged (R215). -/
def Group.unacked (g : Group) (remote : Bool) : List Nat := dedup ((g.fly.filter fun f => f.remote == remote).map fun f => f.id)

/-- The private words of a group (R172); words that no page backs are not stated: free values (log entry 18). -/
def State.privImage (s : State) (cx : Ctx) (tm : Team) (g : Group) : List Byte :=
  (List.range tm.privL).flatMap fun w =>
    let va : VA := tm.privBase + BitVec.ofNat 72 (128 * (tm.privL * g.ps + w))
    match s.tramRead cx va 128 with
    | .ok r => r.1
    | .error _ => (List.range 128).map fun i => Config.freeByte (s.nfree + 128 * (tm.privL * g.ps + w) + i)

/-- A group block without its size (R346); `priv` says whether the group has private words to save. -/
def State.groupBody (s : State) (cx : Ctx) (tm : Team) (g : Group) (priv : Bool) : List Byte :=
  let now := s.schedOf g
  let g := g.settlePends
  let es := g.savedEntries
  let sz1 := 2048 + 1600 * es.length + 144 * g.regs
  let pv := if priv ∧ tm.privL ≠ 0 then (sz1 + 127) / 128 * 128 else 0
  let sz2 := if pv = 0 then sz1 else pv + 128 * tm.privL
  let qo := if g.queues.isEmpty then 0 else (sz2 + 127) / 128 * 128
  let size := ((if qo = 0 then sz2 else qo + 8 * 16512) + 127) / 128 * 128
  let off := fun pc : VA => ((pc - tm.codeBase).toNat % 2 ^ 64)
  let log := match g.heldLog with
    | some r => r.bytes g tm
    | none => []
  let fixed := putFields 2048
    [ (0, 8, size), (8, 1, g.gidx),
      (9, 1, orBits [(g.handler, 0), (g.sysc.isSome, 1), (tm.haltRun == .halted && g.stopped, 2), (g.heldLog.isSome, 3)]),
      (0x0A, 2, g.ps), (0x0C, 2, g.regs), (0x0E, 1, es.length), (0x0F, 1, g.part.toNat + 16 * g.fpart.toNat),
      (0x10, 8, g.pts), (0x18, 8, g.lmax), (0x20, 8, g.ah), (0x28, 8, g.fflags.toNat), (0x30, 8, g.tvec.toNat),
      (0x38, 8, g.cause.toNat + orBits [(g.handler, 15), (g.double, 16)]), (0x40, 8, g.epc.toNat), (0x48, 8, g.tmask.toNat),
      (0x50, 8, g.tinfo.toNat), (0x58, 8, g.mxinfo.toNat), (0x60, 2, (g.unacked false).length), (0x62, 2, (g.unacked true).length),
      (0x64, 4, g.skid), (0x6E, 2, ((g.sysc.map fun y => y.d.toNat).getD 0)), (0x70, 8, (g.spend.map fun n => 2 ^ n).sum),
      (0x78, 8, pv), (0x80, 16, natOfBytes log),
      (0x780, 64, markBits (g.marksOf .s) fun k => 4 * k.reg + k.half), (0x7C0, 16, markBits (g.marksOf .h) fun k => 4 * k.reg + k.half),
      (0x7D0, 8, markBits (g.marksOf .p) fun k => k.thr), (0x7D8, 8, qo) ]
  let fixed := (List.range 6).foldl (fun b n => setField b (0x68 + n) 1 (rget 0 g.sb n)) fixed
  let fixed := (List.range 8).foldl (fun b n => setField b (0xA0 + 4 * n) 4 (g.cbreg n).toNat) fixed
  let fixed := (List.range 16).foldl (fun b n => setField b (0xC0 + 8 * n) 8 (g.hreg n).toNat) fixed
  let fixed := (List.range 64).foldl (fun b n => setField b (0x140 + 8 * n) 8 (g.sreg n).toNat) fixed
  let fixed := (List.range 32).foldl (fun b t =>
    let th := g.thread t
    [ (0x340 + 8 * t, 8, off th.pc), (0x440 + 4 * t, 4, tstate now th.stat th.pausing), (0x4C0 + t, 1, th.preds.toNat),
      (0x4E0 + 8 * t, 8, th.rctr.toNat), (0x5E0 + 8 * t, 8, if g.handler then off th.fpc else 0),
      (0x6E0 + 4 * t, 4, if g.handler then tstate now th.fstat th.fpausing else 0),
      (0x760 + t, 1, if g.handler then th.fpreds.toNat else 0) ].foldl (fun b f => setField b f.1 f.2.1 f.2.2) b) fixed
  let v := (List.range g.regs).flatMap fun n => (List.range 32).flatMap fun t => bytesOf 4 ((g.thread t).vreg n).toNat
  let vm := (List.range g.regs).flatMap fun n =>
    bytesOf 16 (markBits ((g.marksOf .v).filter fun k => k.reg == n) fun k => 2 * k.thr + k.half)
  let b1 := fixed ++ es.flatMap (fun e => e.image (g.entryDst e)) ++ v ++ vm
  let b2 := if pv = 0 then b1 else padTo 128 b1 ++ s.privImage cx tm g
  padTo 128 (if qo = 0 then b2 else padTo 128 b2 ++ (List.range 8).flatMap fun n => (rget {} g.queues n).image)

/-- A group that has retired before its team: every thread EXITED. -/
def goneGroup (tm : Team) (gidx : Nat) : Group :=
  { gidx := gidx, regs := tm.regs, threads := List.replicate 32 { pc := tm.codeBase, stat := .exited } }

def Barrier.field (b : Barrier) : Nat := (b.arrived.map fun n => 2 ^ n).sum + if b.phase then 2 ^ 32 else 0

/-- A tile-store image (R344). -/
def Quad.image (q : Quad) : List Byte :=
  let marks := q.tmarks.foldl (fun x k => x + (if k.2 then 2 else 1) * 2 ^ (2 * k.1)) 0
  bytesOf 4 q.last ++ bytesOf 60 0 ++ ((List.range 16384).flatMap fun k => bytesOf 4 (rget 0 q.tiles k).toNat) ++ bytesOf 8192 marks

/-- A team FIFO's image (R344): a 64-bit push takes two entries, low words first. -/
def fifoImage (es : List FifoE) : List Byte :=
  let one := fun (e : FifoE) (hi : Nat) =>
    ((List.range 32).flatMap fun t => bytesOf 4 (e.elems.getD t 0 / 2 ^ (32 * hi))) ++ bytesOf 4 e.valid.toNat ++ bytesOf 4 0 ++ bytesOf 8 e.stamp
  let body := es.flatMap fun e => one e 0 ++ if e.wide then one e 1 else []
  (bytesOf 2 0 ++ bytesOf 2 (body.length / 144) ++ bytesOf 60 0 ++ body ++ bytesOf 18432 0).take 18496

/-- The quadrants whose tile stores a team holds, in the order of its groups (R253, R344): a store stays the team's when the groups on
its quadrant have retired. -/
def State.storesOf (s : State) (tk : Nat) : List Nat :=
  (List.range 4).filterMap fun k => (s.quads.find? fun q => q.2.holder == some tk && q.2.place == k).map fun q => q.1

/-- A team block (R344) and where its groups' blocks are. -/
def State.teamBlock (s : State) (cx : Ctx) (tk : Nat) (tm : Team) (gix : Nat) : List Byte × List (Nat × Nat) :=
  let stores := if tm.run = .spilled then tm.stores else (s.storesOf tk).map s.quadOf
  let lines := (tm.scratchSize + 127) / 128
  let scr := tm.scrBytes 0 tm.scratchSize ++ ((List.range lines).flatMap fun l => bytesOf 8 (rget 0 tm.stamps l))
    ++ bytesOf ((tm.scratchSize / 2 * 2 + 7) / 8) ((dedup tm.scrbad).map fun h => 2 * 2 ^ (2 * h)).sum
  let ts := stores.flatMap Quad.image
  let ff := (List.range tm.fifoN).flatMap fun n => fifoImage (rget [] tm.fifos n)
  let o1 := 256
  let o2 := (o1 + scr.length + 127) / 128 * 128
  let o3 := (o2 + ts.length + 127) / 128 * 128
  let o4 := (o3 + ff.length + 127) / 128 * 128
  let bodies := (List.range tm.gpt).map fun i =>
    match (s.groupsOf tk).find? fun g => g.2.gidx == i with
    | some g => s.groupBody cx tm g.2 true
    | none => s.groupBody cx tm (goneGroup tm i) false
  let offs := bodies.foldl (fun (r : List Nat × Nat) b => (r.1 ++ [r.2], r.2 + b.length)) ([], o4)
  let head := putFields 256
    [ (0, 8, offs.2), (8, 8, tm.sr), (0x10, 8, tm.codeVa.toNat % 2 ^ 64), (0x18, 1, tm.codeVa.toNat / 2 ^ 64), (0x19, 1, tm.fifoN),
      (0x1A, 1, stores.length), (0x1B, 1, tm.outmask), (0x1C, 2, tm.kidx), (0x1E, 2, tm.gpt), (0x20, 4, tm.scratchSize), (0x24, 4, tm.relc),
      (0x28, 4, tm.clid), (0x2C, 2, tm.node), (0x2E, 1, tm.crank), (0x30, 8, o1), (0x38, 8, o2), (0x40, 8, o3), (0x48, 8, o4), (0xF0, 2, gix) ]
  let head := (List.range 16).foldl (fun b n => setField b (0x50 + 8 * n) 8 (rget {} tm.bars n).field) head
  let head := (List.range 4).foldl (fun b n => setField b (0xD0 + 8 * n) 8 (rget {} tm.barcs n).field) head
  (padTo 128 (head ++ scr) ++ padTo 128 ts ++ padTo 128 ff ++ bodies.flatten,
   (List.range tm.gpt).filterMap fun i => ((s.groupsOf tk).find? fun g => g.2.gidx == i).map fun g => (g.1, offs.1.getD i 0))

def NStat.code : NStat → Nat
  | .waiting | .chosen | .ready => 0
  | .running => 2
  | .retired => 3
  | .skipped => 4

/-- Teams of a context that are in its record: launched, in clusters that still run. -/
def State.savedTeams (s : State) (n : Nat) : AList Team := s.teams.filter fun t => t.2.ctx == n && t.2.live && t.2.run != .saved

/-- A graph block (R344). -/
def State.graphBlock (s : State) (n id : Nat) (g : Graph) : List Byte :=
  let (st, nd) := g.fail.getD (0, 0xFFFF)
  let live := fun k => (dedup (((s.savedTeams n).filter fun t => t.2.graph == id && t.2.node == k && t.2.run != .retired).map
    fun t => t.2.cluster)).length
  let next := fun (k : Nat) (x : Node) => ((s.teamsOf id k).filter fun t => !t.2.live).foldl (fun m t => min m t.2.clid) x.nextClu
  bytesOf 4 id ++ bytesOf 1 g.queue ++ bytesOf 1 (if g.fail.isSome then 1 else 0) ++ bytesOf 2 g.nodes.length ++ bytesOf 8 g.base.toNat
    ++ bytesOf 1 (g.base.toNat / 2 ^ 64) ++ bytesOf 1 g.prio ++ bytesOf 2 st ++ bytesOf 2 nd ++ bytesOf 2 g.nrun ++ bytesOf 8 g.done.toNat
    ++ bytesOf 8 g.tag ++ bytesOf 24 0
    ++ ((g.nodes.mapIdx fun k (x : Node) => bytesOf 2 x.count ++ bytesOf 1 x.st.code ++ bytesOf 1 (if x.gotRun then 1 else 0) ++ bytesOf 4 x.iter
        ++ bytesOf 4 (if x.st == .running then next k x else 0) ++ bytesOf 4 (live k)).flatten)

/-- SR.FMASK and SR.ALOGCTL of a context. -/
def Ctx.fmask (c : Ctx) : Nat := c.logen.toNat + if c.ftz then 2 ^ 8 else 0
def Ctx.alogctl (c : Ctx) : Nat := c.alogcap.toNat + c.alogwidx.toNat * 2 ^ 32 + if c.alogerr then 2 ^ 48 else 0

/-- PRIVNEED (R344). -/
def State.privNeed (s : State) (n : Nat) : Nat :=
  ((s.savedTeams n).map fun t => ((s.groupsOf t.1).length * 128 * t.2.privL)).sum

/-- What a record still waits for (R345): acknowledgements, copies, SYSC answers. -/
def State.imgItems (s : State) (tk : Nat) (base : Nat) (blocks : List (Nat × Nat)) : List ImgItem :=
  (blocks.flatMap fun b =>
    match look s.groups b.1 with
    | none => []
    | some g =>
      ((g.unacked false).map fun id => ImgItem.ack b.1 id false (base + b.2 + 0x60))
        ++ ((g.unacked true).map fun id => ImgItem.ack b.1 id true (base + b.2 + 0x62))
        ++ match g.sysc with
          | some y => [ImgItem.sysc b.1 (base + b.2) y.d.toNat]
          | none => [])
  ++ (s.copies.filter fun c => c.2.team == tk).map fun c => ImgItem.copy c.1 c.2.input (base + 256) (blocks.map fun b => base + b.2)

/-- The record of a context (R344 to R346) and, by team, the updates it waits for. -/
def State.ctxRecord (s : State) (n : Nat) (cx : Ctx) : List Byte × List (Nat × List ImgItem) :=
  let ts := s.savedTeams n
  let gs := s.graphs.filter fun g => g.2.ctx == n
  let blocks := ts.map fun t => (t.1, s.teamBlock cx t.1 t.2 ((gs.findIdx? fun g => g.1 == t.2.graph).getD 0))
  let graphs := gs.flatMap fun g => s.graphBlock n g.1 g.2
  let goff := 512 + 8 * ts.length
  let t0 := (goff + graphs.length + 127) / 128 * 128
  let offs := blocks.foldl (fun (r : List Nat × Nat) b => (r.1 ++ [r.2], r.2 + b.2.1.length)) ([], t0)
  let items := blocks.mapIdx fun i b => (b.1, s.imgItems b.1 (offs.1.getD i 0) b.2.2)
  let head := putFields 512
    [ (0, 4, 0x58544357), (4, 2, 1), (6, 2, 0xB0), (8, 16, natOfBytes encodingHash), (0x18, 8, offs.2), (0x20, 2, n), (0x22, 1, cx.zone),
      (0x23, 1, cx.priv.code), (0x24, 1, cx.cls), (0x26, 2, cx.drain), (0x28, 2, cx.slice), (0x2A, 2, gs.length), (0x2C, 4, ts.length),
      (0x30, 4, (items.map fun i => i.2.length).sum), (0x34, 4, (s.zoneOf cx.zone).epoch), (0x38, 8, s.privNeed n), (0x40, 8, cx.ptroot.toNat),
      (0x48, 8, cx.fmask), (0x50, 8, cx.rseed.toNat), (0x58, 8, cx.alogbase.toNat), (0x60, 8, cx.alogctl),
      (0x68, 8, s.guestTime cx % 2 ^ 63 + if cx.trun then 2 ^ 63 else 0), (0x70, 8, s.now), (0x78, 8, cx.spill.toNat),
      (0x80, 1, cx.spill.toNat / 2 ^ 64), (0x88, 8, cx.spillsz), (0x90, 8, 512), (0x98, 8, goff) ]
  (padTo 128 (head ++ (offs.1.flatMap fun o => bytesOf 8 o) ++ graphs) ++ blocks.flatMap fun b => b.2.1, items)

/-! ## CTXQ (R359) -/

/-- The context is STOPPING (R324): its teams are being stopped for a migration, a spill or a save. -/
def State.ctxStopping (s : State) (n : Nat) (c : Ctx) : Bool :=
  c.stopping || s.teams.any fun t => t.2.ctx == n && (t.2.run == .stopping || t.2.run == .stopped)

/-- The context is GATED (R324): time slicing has stopped the issue of its groups. -/
def State.ctxGated (s : State) (n : Nat) : Bool :=
  let gs := s.groups.filter fun g => s.ctxOf g.2 == some n && decide (g.2.quad < 4096)
  !gs.isEmpty && gs.all fun g => g.2.gat.isSome

def execCtxq (x : Ctxq) (s : State) : Out :=
  issue (.ctxq x) s fun w m =>
    let n := w.n32 x.a (lowest m)
    let v : Nat := match look w.s.ctxs n with
      | none => 2 ^ 64 - 1
      | some c =>
        if !w.ctxActs n then 2 ^ 64 - 1
        else
          match x.sel.toNat with
          | 0 => (if w.s.ctxStopping n c then 2 else if w.s.ctxGated n then 1 else 0)
              + 2 ^ 16 * ((w.s.teams.filter fun t => t.2.ctx == n && t.2.run != .retired && t.2.run != .spilled).length % 2 ^ 32)
          | 1 => (w.s.ctxRecord n c).1.length
          | 2 => w.s.privNeed n
          | 3 => c.drain + 2 ^ 16 * c.slice
          | _ => c.zone + 2 ^ 8 * c.priv.code + 2 ^ 16 * c.cls
    .next (w.finishS (.ctxq x) m w.s w.g v)

/-! ## CTXSAVE (R357) -/

/-- What the write of one line of a record meets: a status, the wait of R403, or its place. -/
def View.saveLine (w : View) (s : State) (cls : Nat) (va : VA) : Except Nat (Nat × Leaf) :=
  match s.exAddr w.cx va .store with
  | .error .remote => .error 8
  | .error _ => .error 7
  | .ok (pa, leaf) =>
    if s.isCode pa || s.badLine (lineOf pa) then .error 7
    else if regionOf (paLocal pa) == .hbm || (cls == 2 && regionOf (paLocal pa) == .host) then .ok (pa, leaf)
    else .error 8

/-- Write a record line by line from an offset; the first failing line ends it with its status (R357). -/
def View.saveLines (w : View) (cls : Nat) (a : VA) : Nat → State → List Byte → State × Nat
  | _, s, [] => (s, 0)
  | off, s, b :: bs =>
    if off % 128 ≠ 0 then w.saveLines cls a (off + 1) s bs
    else
      match w.saveLine s cls (a + BitVec.ofNat 72 off) with
      | .error e => (s, e)
      | .ok (pa, leaf) =>
        w.saveLines cls a (off + 1) (s.agentWrite w.cx.zone leaf pa w.g.pts ((b :: bs).take 128)) bs

/-- Every instruction of a stopped group that can complete does (R341). -/
def State.settleDone (s : State) (u : Nat) : State :=
  match look s.groups u with
  | none => s
  | some g => (List.range g.inflight.length).foldl (fun s _ => s.completeInstr u 0) s

/-- A team that a save leaves for its updates (R345): it holds no resource and its groups only what they wait for. -/
def State.makeGhost (s : State) (tk ck : Nat) (items : List ImgItem) (map : List Nat) : State :=
  let s := s.updTeam tk fun t => { t with run := .saved, ctx := ck, task := false, privL := 0, granules := [], chans := [], img := items, imgMap := map }
  (s.groupsOf tk).foldl (fun s g => s.updGroup g.1 fun g =>
    { (g.mapThreads fun _ th => { th with stat := .exited }) with
      quad := 2 ^ 32, slot := none, readyAt := none, wait := .accept, stopped := true, sbuf := [], logOut := [], inflight := [], queues := []
      slice := none, rels := [] }) s

/-- A context becomes SAVED: TLB entries, teams, graphs and number go, but for what updates the record (R357). -/
def State.dropCtx (s : State) (n : Nat) (cx : Ctx) (items : List (Nat × List ImgItem)) (map : List Nat) : State :=
  let s := s.tlbDrop fun e => e.ctx == n
  let ck := 4096 + s.uid
  let left := items.filter fun i => !i.2.isEmpty
  let s := if left.isEmpty then s else { s with uid := s.uid + 1, ctxs := put s.ctxs ck { cx with saver := none } }
  let s := s.graphs.foldl (fun s g => if g.2.ctx = n then g.2.nodes.foldl State.dropObjs s else s) s
  let s := s.teams.foldl (fun s t =>
    if t.2.ctx ≠ n then s
    else
      match left.find? fun i => i.1 == t.1 with
      | some i => (s.dropStores t.1).makeGhost t.1 ck i.2 map
      | none => (s.dropStores t.1).freeTeam t.1) s
  { s with graphs := s.graphs.filter (fun g => g.2.ctx != n), ctxs := del s.ctxs n }

/-- Every team has stopped; no atomic that has left a buffer since still owes its result. -/
def State.ctxStopped (s : State) (n : Nat) : Bool :=
  s.teams.all fun t => t.2.ctx != n || !t.2.live || t.2.run == .retired
    || ((t.2.run == .stopped || t.2.run == .spilled) && (s.groupsOf t.1).all fun g => g.2.buffered)

/-- The end of a save once every team has stopped: the status and the state. A line held under R403 makes it wait. -/
def View.saveNow (w : View) (n : Nat) (cx : Ctx) (cls : Nat) (a : VA) (room : Nat) : Option (State × Nat) :=
  let s := (w.s.teams.filter fun t => t.2.ctx == n).foldl (fun s t =>
    (s.groupsOf t.1).foldl (fun s g => s.settleDone g.1) (s.deliverHeld t.1)) w.s
  let cx := (look s.ctxs n).getD cx
  let (bytes, items) := s.ctxRecord n cx
  let resume := fun (s : State) => s.resumeCtx n
  if s.exHeld w.cx a bytes.length then none
  else
    match w.saveLine s cls a with
    | .error e => some (resume s, e)
    | .ok _ =>
      if cx.cls < cls then some (resume s, 8)
      else if room < bytes.length then some (resume s, 9)
      else
        let (s, e) := w.saveLines cls a 0 s bytes
        if e ≠ 0 then some (resume s, e)
        else
          let map := (List.range ((bytes.length + 4095) / 4096)).map fun i =>
            match s.exAddr w.cx (a + BitVec.ofNat 72 (4096 * i)) .store with
            | .ok r => r.1
            | .error _ => 0
          some ({ s.dropCtx n cx items map with nfree := s.nfree + 2 ^ 50 }, 0)

/-- CTXSAVE (R356, R357): the teams stop first, while the form holds its group. -/
def execCtxsave (x : Ctxsave) (s : State) : Out :=
  issue (.ctxsave x) s fun w m =>
    let i := Instr.ctxsave x
    let a : VA := BitVec.ofNat 72 (w.n128 x.a (lowest m))
    let n := w.n32 x.b (lowest m)
    if w.n128 x.a (lowest m) % 4096 ≠ 0 then .next (w.trapHere 0x12 m (a.toNat % 2 ^ 64))
    else
      match w.g.begun, look w.s.ctxs n with
      | _, none => w.statusOr i m w.s (some 1) 0
      | none, some c =>
        let mapped := w.s.slots.any fun k => k.2.ctx == n
        let again := w.s.graphs.any fun g => g.2.ctx == n && g.2.nodes.any fun x => !x.again.isEmpty
        if !w.ctxActs n || n == 0 then w.statusOr i m w.s (some 1) 0
        else if n == w.tm.ctx || w.s.ctxStopping n c || mapped then w.statusOr i m w.s (some 2) 0
        else if again then .next (w.hold .away)
        else
          let s := w.s.updCtx n fun c => { c with saver := some w.u }
          let s := s.teams.foldl (fun s t => if t.2.ctx = n ∧ t.2.live then s.askStop t.1 (s.cycle + s.drainCycles t.2) else s) s
          w.statusOr i m s none n
      | some _, some c =>
        if !w.s.ctxStopped n then w.statusOr i m w.s none n
        else
          match w.saveNow n c x.n.toNat a (w.n64 x.c (lowest m)) with
          | none => w.statusOr i m w.s none n
          | some (s, st) => w.statusOr i m s (some st) n

/-! ## Updates to a saved record (R345) -/

/-- Bytes at an offset of a saved record; a frame that has become CODE refuses them (R185). -/
def State.imgPut (s : State) (zn : Nat) (map : List Nat) (off : Nat) (bytes : List Byte) : State :=
  (cutAt 128 (off % 4096) bytes.length).foldl (fun s c =>
    let o := off / 4096 * 4096 + c.1
    let pa := map.getD (o / 4096) 0 + o % 4096
    if s.isCode pa then s else s.agentWrite zn {} pa (s.zoneOf zn).zclk ((bytes.drop c.2.1).take c.2.2)) s

def State.imgGet (s : State) (map : List Nat) (off n : Nat) : Nat :=
  natOfBytes (s.readLocal (paLocal (map.getD (off / 4096) 0 + off % 4096)) n)

def State.imgSub (s : State) (zn : Nat) (map : List Nat) (off n : Nat) : State :=
  s.imgPut zn map off (bytesOf n (s.imgGet map off n - 1))

/-- The effect has happened. -/
def State.imgReady (s : State) (x : ImgItem) : Bool :=
  match x with
  | .ack g id r _ => match look s.groups g with
    | some g => !(g.unacked r).contains id
    | none => true
  | .copy k _ _ _ => (look s.copies k).isNone
  | .sysc g _ _ => match look s.groups g with
    | some g => g.sysc.isNone
    | none => true

/-- The update of one item. -/
def State.imgApply (s : State) (zn : Nat) (tm : Team) (x : ImgItem) : State :=
  let map := tm.imgMap
  match x with
  | .ack _ _ _ off => s.imgSub zn map off 2
  | .sysc g blk d => match look s.groups g with
    | some g => (s.imgPut zn map (blk + 0x140 + 8 * d) (bytesOf 8 (g.sreg d).toNat)).imgPut zn map (blk + 9)
        (bytesOf 1 (s.imgGet map (blk + 9) 1 &&& 0xFD))
    | none => s
  | .copy _ input scr blocks =>
    let lines := (tm.scratchSize + 127) / 128
    let s := s.imgPut zn map scr (tm.scrBytes 0 tm.scratchSize ++ ((List.range lines).flatMap fun l => bytesOf 8 (rget 0 tm.stamps l))
      ++ bytesOf ((tm.scratchSize / 2 * 2 + 7) / 8) ((dedup tm.scrbad).map fun h => 2 * 2 ^ (2 * h)).sum)
    match tm.inputs[input]? with
    | some (n, some v) => blocks.foldl (fun s b =>
        (s.imgPut zn map (b + 0x140 + 8 * n) (bytesOf 8 v.toNat)).imgPut zn map (b + 0x70)
          (bytesOf 8 (s.imgGet map (b + 0x70) 8 &&& (2 ^ 64 - 1 - 2 ^ n)))) s
    | _ => s

/-- IMAGE_UPDATE (R345): one effect enters the record and IMGPEND falls by one; the last one ends what the save left. -/
def execImageUpdate (tk : Nat) (s : State) : Out :=
  match look s.teams tk with
  | none => .next s
  | some tm =>
    match tm.img.findIdx? s.imgReady, look s.ctxs tm.ctx with
    | some i, some cx =>
      match tm.img[i]? with
      | none => .next s
      | some x =>
        let s := (s.imgApply cx.zone tm x).imgSub cx.zone tm.imgMap 0x30 4
        let s := s.updTeam tk fun t => { t with img := dropAt t.img i }
        if 1 < tm.img.length then .next s
        else
          let s := s.freeTeam tk
          .next (if s.teams.any fun t => t.2.ctx == tm.ctx then s else { s with ctxs := del s.ctxs tm.ctx })
    | _, _ => .next s

end Sys2Proof.Machine
end

