-- ==== Sys2Proof/Machine/Restore.lean ====
section
/-!
DEFINITION. CTXLOAD (R356, R358), and the moves of stopped teams between cores and the spill area (R342).
-/

namespace Sys2Proof.Machine

/-! ## Reading a record -/

/-- The fields of a header that must hold (R344). -/
def headerOk (h : List Byte) : Bool :=
  let f := fieldOf h
  f 0 4 == 0x58544357 && f 4 2 == 1 && f 6 2 == 0xB0 && (h.drop 8).take 16 == encodingHash
    && decide (512 ≤ f 0x18 8 ∧ 1 ≤ f 0x20 2 ∧ f 0x20 2 ≤ 4095 ∧ f 0x22 1 ≤ 63 ∧ f 0x23 1 ≤ 1 ∧ f 0x24 1 ≤ 2 ∧ 1 ≤ f 0x26 2)
    && decide (10 ≤ f 0x28 2 ∧ f 0x28 2 ≤ 10000 ∧ f 0x2A 2 ≤ 4096) && f 0x78 8 % 4096 == 0
    && zeroAt h [(0x25, 1), (0x81, 7), (0xA0, 352)]

/-- The context a header describes (R344, R417). -/
def State.ctxFrom (s : State) (h : List Byte) : Ctx :=
  let f := fieldOf h
  let last := f 0x68 8 % 2 ^ 63
  let run := (fieldOf h 0x68 8).testBit 63
  { zone := f 0x22 1, priv := if f 0x23 1 = 1 then .sup else .user, ptroot := BitVec.ofNat 64 (f 0x40 8) &&& 0x00FFFFFFFFFFFF80#64
    ftz := (f 0x48 8).testBit 8, logen := BitVec.ofNat 5 (f 0x48 8), rseed := BitVec.ofNat 64 (f 0x50 8)
    alogbase := BitVec.ofNat 64 (f 0x58 8) &&& 0x0FFFFFFFFFFFFFFF#64, alogerr := (f 0x60 8).testBit 48
    alogwidx := BitVec.ofNat 16 (f 0x62 4 / 2 ^ 16), alogcap := BitVec.ofNat 16 (f 0x60 2), cls := f 0x24 1
    drain := f 0x26 2, slice := f 0x28 2, spill := BitVec.ofNat 72 (f 0x78 8 + 2 ^ 64 * f 0x80 1), spillsz := f 0x88 8, tlast := 0
    baseval := last + (if run then s.now - f 0x70 8 else 0), baseptp := s.now, trun := run }

/-- Offsets of the graph blocks, each 64 bytes and 16 for each node. -/
def graphOffs (bs : List Byte) : Nat → Nat → List Nat
  | 0, _ => []
  | n + 1, o => o :: graphOffs bs n (o + 64 + 16 * fieldOf bs (o + 6) 2)

/-- Offsets of a team's group blocks. -/
def groupOffs (bs : List Byte) : Nat → Nat → List Nat
  | 0, _ => []
  | n + 1, o => o :: groupOffs bs n (o + fieldOf bs o 8)

/-- Reserved fields of a store-buffer entry, and its codes (R346). -/
def entryBlockOk (bs : List Byte) (o : Nat) : Bool :=
  let b := bs.drop o
  decide (1 ≤ fieldOf b 0 1 ∧ fieldOf b 0 1 ≤ 4) && fieldOf b 3 1 / 32 == 0 && zeroAt b [(9, 55)]

/-- Reserved fields of a slice image (R346). -/
def sliceBlockOk (bs : List Byte) (o : Nat) : Bool :=
  (List.range 8).all fun n =>
    let b := bs.drop (o + 16512 * n)
    decide (fieldOf b 0 1 < 16 ∧ fieldOf b 3 1 < 2 ∧ fieldOf b 1 1 ≤ (if (fieldOf b 0 1).testBit 3 then 64 else 128)) && zeroAt b [(4, 4), (0x4C, 52)]

/-- Reserved fields of a tile-store image and of a FIFO image (R344). -/
def tileBlockOk (bs : List Byte) (o : Nat) : Bool := zeroAt (bs.drop o) [(4, 60)]
def fifoBlockOk (bs : List Byte) (o : Nat) : Bool :=
  decide (fieldOf bs o 2 < 128 ∧ fieldOf bs (o + 2) 2 ≤ 128) && zeroAt (bs.drop o) ((4, 60) :: (List.range 128).map fun e => (64 + 144 * e + 132, 4))

/-- A group block lies within the record and its parts fit it. -/
def groupBlockOk (bs : List Byte) (o : Nat) : Bool :=
  let f := fun off n => fieldOf bs (o + off) n
  let fixed := 2048 + 1600 * f 0x0E 1 + 144 * f 0x0C 2
  decide (o + f 0 8 ≤ bs.length ∧ fixed ≤ f 0 8) && (f 0x78 8 == 0 || decide (fixed ≤ f 0x78 8 ∧ f 0x78 8 ≤ f 0 8))
    && (f 0x7D8 8 == 0 || decide (f 0x7D8 8 + 8 * 16512 ≤ f 0 8)) && f 0x0C 2 % 8 == 0 && decide (f 0x0C 2 ≤ 256)
    && (f 9 1 / 16 == 0) && f 0x90 16 == 0 && zeroAt (bs.drop o) [(0x7E0, 32)]
    && f 0x0F 1 % 16 < 8 && f 0x0F 1 < 128
    && (List.range (f 0x0E 1)).all (fun i => entryBlockOk bs (o + 2048 + 1600 * i))
    && (f 0x7D8 8 == 0 || sliceBlockOk bs (o + f 0x7D8 8))
    && (List.range 32).all fun t => f (0x440 + 4 * t) 4 % 8 != 7

def teamBlockOk (bs : List Byte) (o ngraph : Nat) : Bool :=
  let f := fun off n => fieldOf bs (o + off) n
  o % 128 == 0 && decide (o + 256 ≤ bs.length ∧ o + f 0 8 ≤ bs.length ∧ f 0xF0 2 < ngraph ∧ f 0x19 1 ≤ 4 ∧ f 0x1A 1 ≤ 4)
    && f 0x2F 1 == 0 && zeroAt (bs.drop o) [(0xF2, 14)]
    && decide (f 0x30 8 + f 0x20 4 + 8 * ((f 0x20 4 + 127) / 128) + f 0x20 4 / 8 ≤ f 0 8 ∧ f 0x38 8 + 73792 * f 0x1A 1 ≤ f 0 8)
    && decide (f 0x40 8 + 18496 * f 0x19 1 ≤ f 0 8 ∧ f 0x48 8 ≤ f 0 8 ∧ 1 ≤ f 0x1E 2 ∧ f 0x1E 2 ≤ 32)
    && (List.range (f 0x1A 1)).all (fun i => tileBlockOk bs (o + f 0x38 8 + 73792 * i))
    && (List.range (f 0x19 1)).all (fun i => fifoBlockOk bs (o + f 0x40 8 + 18496 * i))
    && (groupOffs bs (f 0x1E 2) (o + f 0x48 8)).all (groupBlockOk bs)

/-- Offsets and sizes agree with BYTES. -/
def recordOk (bs : List Byte) : Bool :=
  let f := fieldOf bs
  let gs := graphOffs bs (f 0x2A 2) (f 0x98 8)
  decide (f 0x2C 4 = 0 ∨ f 0x90 8 + 8 * f 0x2C 4 ≤ bs.length)
    && gs.all (fun o => decide (o + 64 + 16 * fieldOf bs (o + 6) 2 ≤ bs.length) && zeroAt (bs.drop o) [(0x28, 24)])
    && (List.range (f 0x2C 4)).all fun i => teamBlockOk bs (f (f 0x90 8 + 8 * i) 8) gs.length

/-! ## Graphs -/

/-- A node's state from its 16 bytes; a waiting node whose count is 0 runs. -/
def Node.restore (x : Node) (b : List Byte) : Node :=
  let st := fieldOf b 2 1
  { x with count := fieldOf b 0 2, gotRun := fieldOf b 3 1 != 0, iter := fieldOf b 4 4, nextClu := fieldOf b 8 4, live := st == 2
           st := match st with
             | 2 => .running
             | 3 => .retired
             | 4 => .skipped
             | _ => .waiting }

/-- Bodies that are armed, and nodes that were about to become ready. -/
def Graph.rearm (g : Graph) : Graph :=
  let g := { g with nodes := g.nodes.mapIdx fun k (x : Node) =>
    ({ x with armed := (match g.innermost k with
                | none => true
                | some wn => decide ((g.node wn).st = NStat.running))
              from_ := (g.preds k).filter fun p => (g.node p).over } : Node) }
  { g with nodes := g.nodes.map fun (x : Node) =>
      if x.st == NStat.waiting && x.armed && x.count == 0 && (x.pred == 0 || x.gotRun) && g.fail.isNone then ({ x with st := NStat.chosen } : Node) else x }

/-- Kernels of the nodes that run are read again (R289): resources that the zone has not are NORES, what else fails makes the record bad
(R356). -/
def State.restoreKerns (s : State) (cx : Ctx) (id : Nat) : List Nat → Except Nat State
  | [] => .ok s
  | k :: ks =>
    match look s.graphs id with
    | none => .error 3
    | some g =>
      let x := g.node k
      if x.kind = 0 ∧ x.st = .running then
        match s.readyKernel cx g x with
        | .error e => .error (if e = 0x0104 ∨ e = 0x0105 ∨ e = 0x0106 ∨ e = 0x0108 then 6 else 3)
        | .ok (s, kn) => (s.updGraph id fun g => g.setNode k fun x => { x with kern := some kn }).restoreKerns cx id ks
      else s.restoreKerns cx id ks

/-- One graph of a record gets a new identifier (R358). -/
def State.restoreGraph (s : State) (n : Nat) (cx : Ctx) (b : List Byte) : Except Nat (State × Nat) :=
  let id := (s.nextGraph + 1) % 2 ^ 32
  let q := fieldOf b 4 1
  let e := s.qd q
  let qcb := match e.slot.bind fun k => look s.slots k with
    | some sl => sl.qcb
    | none => s.homeBytes (e.qcbpa * 64) 64
  let hi := 2 ^ 64 * fieldOf b 0x10 1
  let g : Graph :=
    { ctx := n, queue := q, prio := fieldOf b 0x11 1, base := BitVec.ofNat 72 (fieldOf b 8 8 + hi), nodes := []
      done := BitVec.ofNat 72 (fieldOf b 0x18 8 + hi), tag := fieldOf b 0x20 8, priv := (qcbArena qcb).1, privsz := (qcbArena qcb).2 }
  let g := s.loadNodes cx g (fieldOf b 6 2)
  let failed := (fieldOf b 5 1).testBit 0
  if g.fail.isSome ∧ !failed then .error 3
  else
    let g := { g with fail := if failed then some (fieldOf b 0x12 2, fieldOf b 0x14 2) else none, nrun := fieldOf b 0x16 2
                      nodes := g.nodes.mapIdx fun k (x : Node) => x.restore (b.drop (0x40 + 16 * k)) }
    let s := { s with nextGraph := id, graphs := put s.graphs id g.rearm }
    (s.restoreKerns cx id (List.range g.nodes.length)).map fun s => (s, id)

def State.restoreGraphs (s : State) (n : Nat) (cx : Ctx) (bs : List Byte) : List Nat → List Nat → Except Nat (State × List Nat)
  | [], ids => .ok (s, ids)
  | o :: os, ids =>
    match s.restoreGraph n cx (bs.drop o) with
    | .error e => .error e
    | .ok (s, id) => s.restoreGraphs n cx bs os (ids ++ [id])

/-! ## Groups -/

/-- A store-buffer entry of a record, translated again; none when a translation fails. -/
def State.entryFrom (s : State) (cx : Ctx) (id : Nat) (b : List Byte) : Option SEntry :=
  let kind := fieldOf b 0 1
  match Ty.ofCode (BitVec.ofNat 5 (fieldOf b 1 1)), Aop.ofCode (BitVec.ofNat 4 (fieldOf b 2 1)), Scope.ofCode (BitVec.ofNat 3 (fieldOf b 3 1 / 4)) with
  | some ty, some op, some sc =>
    let n := ty.width / 8
    let ts := (List.range 32).filter fun t => (fieldOf b 4 4).testBit t
    let part := fun t : Nat =>
      let va : VA := BitVec.ofNat 72 (fieldOf b (0x40 + 16 * t) 16)
      let dat := (b.drop (0x240 + 32 * t)).take 32
      match s.walkVa cx va (if kind = 1 ∨ kind = 4 then .store else .atomic) with
      | .ok pa leaf => some ({ va := va, thr := t, pa := pa, n := n, leaf := leaf
                               op := if kind = 1 ∨ kind = 4 then .store (dat.take n) else .atom ty op (fieldOf dat 0 16) (fieldOf dat 16 16) } : SPart)
      | .fault .. => none
    if ts.all fun t => (part t).isSome then
      some { id := id, parts := ts.filterMap part, sem := Sem.ofCode (BitVec.ofNat 2 (fieldOf b 3 1)), scope := sc, tcond := kind == 4 }
    else none
  | _, _, _ => none

/-- A queue of the slice image; one that has ended and still holds entries takes a channel for them (R302). -/
def queueFrom (b : List Byte) (pts : Nat) : OpQueue :=
  let fl := fieldOf b 0 1
  let w64 := fl.testBit 3
  let n := if w64 then 8 else 4
  let cap := if w64 then 64 else 128
  let word := fun o => fieldOf b o 4
  let st : Stream :=
    { sp := (fieldOf b 3 1).testBit 0, w64 := w64, base := fieldOf b 8 16, pts := pts
      strides := (List.range 4).map fun i => (BitVec.ofNat 32 (word (0x38 + 4 * i))).toInt, ts := (BitVec.ofNat 32 (word 0x48)).toInt
      trips := (List.range 4).map fun i => word (0x18 + 4 * i), next := (List.range 4).map fun i => word (0x28 + 4 * i) }
  let entry := fun k : Nat => ((List.range 32).map fun t => fieldOf b (128 + 32 * n * ((fieldOf b 2 1 + k) % cap) + n * t) n, (0 : Mask))
  { width := if w64 then 64 else 32, bound := fl.testBit 0, ended := fl.testBit 1, entries := (List.range (fieldOf b 1 1)).map entry
    stream := if fl.testBit 0 && !fl.testBit 1 then some st else none
    waits := fl.testBit 0 && (!fl.testBit 1 || fieldOf b 1 1 != 0) }

/-- A thread of a group block. -/
def threadFrom (b : List Byte) (base : VA) (regs now voff t : Nat) : Thread :=
  let f := fieldOf b
  { pc := base + BitVec.ofNat 72 (f (0x340 + 8 * t) 8), stat := tstatOf now (f (0x440 + 4 * t) 4), pausing := (f (0x440 + 4 * t) 4).testBit 3
    preds := BitVec.ofNat 7 (f (0x4C0 + t) 1), rctr := BitVec.ofNat 64 (f (0x4E0 + 8 * t) 8), fpc := base + BitVec.ofNat 72 (f (0x5E0 + 8 * t) 8)
    fstat := tstatOf now (f (0x6E0 + 4 * t) 4), fpausing := (f (0x6E0 + 4 * t) 4).testBit 3, fpreds := BitVec.ofNat 7 (f (0x760 + t) 1)
    v := (List.range regs).foldl (fun l n => rput 0 l n (BitVec.ofNat 32 (f (voff + 128 * n + 4 * t) 4))) [] }

/-- The error marks of a group block. -/
def groupMarks (b : List Byte) (regs vmoff : Nat) : List Mark :=
  marksFrom (fieldOf b 0x780 64) 256 (fun i e => [⟨.s, 0, i / 4, i % 4, e⟩])
    ++ marksFrom (fieldOf b 0x7C0 16) 64 (fun i e => [⟨.h, 0, i / 4, i % 4, e⟩])
    ++ marksFrom (fieldOf b 0x7D0 8) 32 (fun t e => [⟨.p, t, 0, 0, e⟩])
    ++ (List.range regs).flatMap fun n => marksFrom (fieldOf b (vmoff + 16 * n) 16) 64 fun i e => [⟨.v, i / 2, n, i % 2, e⟩]

/-- A placed group takes the state of its block (R202, R346, R358); none when an entry's address does not translate. The record does
not say which of its entries a release, a barrier's arrival or an XFENCE came after: each comes after the one before it and its
acknowledgement (R223, R227), and the instructions that SB0 to SB5 still count complete with the last (DEDUCED, log 107). -/
def State.groupFrom (s : State) (cx : Ctx) (tm : Team) (sameEpoch : Bool) (g : Group) (b : List Byte) : Option Group :=
  let f := fieldOf b
  let z := s.zoneOf cx.zone
  let pts := if sameEpoch then max (f 0x10 8) z.zclk else z.zclk
  let sbn := f 0x0E 1
  let regs := f 0x0C 2
  let voff := 2048 + 1600 * sbn
  let entries := (List.range sbn).map fun i => s.entryFrom cx (2 * i) (b.drop (2048 + 1600 * i))
  let fl := f 9 1
  if entries.any Option.isNone then none
  else
    let pend := (List.range sbn).filterMap fun i =>
      if fieldOf b (2048 + 1600 * i) 1 = 2 then
        (Ty.ofCode (BitVec.ofNat 5 (fieldOf b (2048 + 1600 * i + 1) 1))).map fun ty =>
          ({ id := 2 * i, dst := .v (BitVec.ofNat 8 (fieldOf b (2048 + 1600 * i + 8) 1)) false, ty := ty, unif := false
             mask := BitVec.ofNat 32 (fieldOf b (2048 + 1600 * i + 4) 4), lat := [] } : Pend)
      else none
    let log : LogRec := { pc := BitVec.ofNat 64 (f 0x80 8), opc := BitVec.ofNat 10 (f 0x88 2), cause := BitVec.ofNat 5 (f 0x8A 1) }
    let g : Group :=
      { g with
        launched := true, regs := regs, threads := (List.range 32).map (threadFrom b tm.codeBase regs 0 voff)
        s := (List.range 64).foldl (fun l n => rput 0 l n (BitVec.ofNat 64 (f (0x140 + 8 * n) 8))) []
        h := (List.range 16).foldl (fun l n => rput 0 l n (BitVec.ofNat 64 (f (0xC0 + 8 * n) 8))) []
        cb := (List.range 8).foldl (fun l n => rput 0 l n (BitVec.ofNat 32 (f (0xA0 + 4 * n) 4))) []
        sb := (List.range 6).foldl (fun l n => rput 0 l n (f (0x68 + n) 1)) []
        part := BitVec.ofNat 3 (f 0x0F 1), fpart := BitVec.ofNat 3 (f 0x0F 1 / 16), cause := BitVec.ofNat 8 (f 0x38 1)
        handler := fl.testBit 0, double := (f 0x38 8).testBit 16, epc := BitVec.ofNat 64 (f 0x40 8), tmask := BitVec.ofNat 32 (f 0x48 8)
        tinfo := BitVec.ofNat 64 (f 0x50 8), tvec := BitVec.ofNat 32 (f 0x30 8), mxinfo := BitVec.ofNat 64 (f 0x58 8)
        fflags := BitVec.ofNat 5 (f 0x28 8), heldLog := if fl.testBit 3 then some log else none, marks := groupMarks b regs (voff + 128 * regs)
        stopped := fl.testBit 2, skid := f 0x64 4, pts := pts, lmax := pts, ah := pts, gacc := s.cycle, winEnd := 1024, racq := s.now, seq := 2 * sbn
        rels := (List.range sbn).map fun i => ⟨2 * i + 1, .dev, true⟩, signalAt := if sbn = 0 then none else some (2 * sbn - 1)
        inflight := (List.range 6).flatMap fun n => List.replicate (f (0x68 + n) 1)
          { pc := 0, opc := 0, flags := 0, sb := some n, when_ := if sbn = 0 then .now else .release (2 * sbn - 1) }
        pends := pend, sbuf := entries.filterMap id, spend := (List.range 64).filter (f 0x70 8).testBit
        sysc := if fl.testBit 1 then some { d := BitVec.ofNat 6 (f 0x6E 2) } else none, wait := if fl.testBit 1 then .accept else .none
        queues := if f 0x7D8 8 = 0 then [] else
          (List.range 8).foldl (fun l n => put l n (queueFrom (b.drop (f 0x7D8 8 + 16512 * n)) pts)) [] }
    some g.releaseAllCb

/-- The saved private words go to the group's slot; a word that no page backs is left out. -/
def State.putPriv (s : State) (cx : Ctx) (tm : Team) (g : Group) (b : List Byte) : State :=
  let off := fieldOf b 0x78 8
  if off = 0 then s
  else (List.range tm.privL).foldl (fun s w =>
    match s.exWrite cx (tm.privBase + BitVec.ofNat 72 (128 * (tm.privL * g.ps + w))) ((b.drop (off + 128 * w)).take 128) with
    | .ok s => s
    | .error _ => s) s

/-! ## Teams -/

/-- The FIFO of an image; the width of a push is not in it. -/
def fifoFrom (b : List Byte) : List FifoE :=
  (List.range (fieldOf b 2 2)).map fun k =>
    let o := 64 + 144 * ((fieldOf b 0 2 + k) % 128)
    { valid := BitVec.ofNat 32 (fieldOf b (o + 128) 4), elems := (List.range 32).map fun t => fieldOf b (o + 4 * t) 4, wide := false
      stamp := fieldOf b (o + 136) 8, raw := true }

/-- A tile store of an image. -/
def Quad.restore (q : Quad) (b : List Byte) : Quad :=
  let m := fieldOf b 65600 8192
  { q with
    last := fieldOf b 0 4, done := fieldOf b 0 4
    tiles := (List.range 16384).foldl (fun l k => rput 0 l k (BitVec.ofNat 32 (fieldOf b (64 + 4 * k) 4))) []
    tmarks := (List.range 32768).filterMap fun i => match bitsOf m (2 * i) 2 with
      | 1 => some (i, false)
      | 2 => some (i, true)
      | _ => none }

def barrierFrom (x : Nat) : Barrier := { phase := x.testBit 32, arrived := (List.range 32).filter x.testBit }

/-- A team as its block describes it. -/
def Team.restore (tm : Team) (b : List Byte) (nfree : Nat) : Team :=
  let f := fieldOf b
  let scr := f 0x30 8
  let lines := (tm.scratchSize + 127) / 128
  { tm with
    live := true, outmask := f 0x1B 1, relc := f 0x24 4
    bars := (List.range 16).foldl (fun l n => put l n (barrierFrom (f (0x50 + 8 * n) 8))) []
    barcs := (List.range 4).foldl (fun l n => put l n (barrierFrom (f (0xD0 + 8 * n) 8))) []
    scratch := writeBytes [] 0 ((b.drop scr).take tm.scratchSize)
    stamps := (List.range lines).foldl (fun l n => rput 0 l n (f (scr + tm.scratchSize + 8 * n) 8)) []
    scrbad := (List.range (tm.scratchSize / 2)).filter fun h =>
      bitsOf (f (scr + tm.scratchSize + 8 * lines) (tm.scratchSize / 8 + 1)) (2 * h) 2 != 0
    fifos := (List.range tm.fifoN).foldl (fun l n => put l n (fifoFrom (b.drop (f 0x40 8 + 18496 * n)))) []
    inputs := tm.inputs.mapIdx fun i r => (r.1, some (Config.freeValue (nfree + i))) }

/-- Groups that a quadrant can still take from a team: slots and register banks (R17, R325). -/
def State.quadRoom (s : State) (q ctx regs : Nat) : Nat :=
  let here := s.groups.filter fun g => g.2.quad == q
  let own := (here.filter fun g => s.ctxOf g.2 == some ctx).map fun g => g.2.regs * 128
  let others := (((s.quadCtxs q).filter (· != ctx)).map (s.regBanks q)).sum
  min (32 - here.length) ((((8 - others) * 32768) - own.sum) / (regs * 128))

/-- Quadrants for a team's groups: in turn over its tile stores, else each of the zone's quadrants filled before the next. -/
def State.quadChoices (s : State) (zn : Nat) (tm : Team) (core nts : Nat) : List (List Nat) :=
  if tm.matrix then
    (([0, 1, 2, 3].sublists).filter fun l => l.length == nts).map fun ds => (List.range tm.gpt).map fun i => ds.getD (i % max 1 nts) 0
  else
    [((((List.range 4).filter fun q => s.quadOpen zn (4 * core + q)).flatMap fun q => List.replicate (s.quadRoom (4 * core + q) tm.ctx tm.regs) q).take tm.gpt)]

/-- The teams of a cluster on the rectangle that starts at a core: (team, record offset). -/
def State.placeSaved (s : State) (zn : Nat) (g : Graph) (k : Kern) (bs : List Byte) (core : Nat) :
    List (Team × Nat) → List (Nat × Nat) → Option (State × List (Nat × Nat))
  | [], done => some (s, done)
  | (tm, o) :: l, done =>
    match rectCore core k.clw tm.crank with
    | none => none
    | some c =>
      let tk := s.uid
      match (s.quadChoices zn tm c (fieldOf bs (o + 0x1A) 1)).findSome? fun qs => s.placeTeam zn g tm c qs with
      | none => none
      | some s => s.placeSaved zn g k bs core l (done ++ [(tk, o)])

/-- The groups of a restored team. -/
def State.restoreGroups (s : State) (cx : Ctx) (tm : Team) (same : Bool) (bs : List Byte) : AList Group → Option State
  | [] => some s
  | (u, g) :: l =>
    let offs := groupOffs bs (fieldOf bs 0x1E 2) (fieldOf bs 0x48 8)
    let b := bs.drop (offs.getD g.gidx 0)
    match s.groupFrom cx tm same g b with
    | none => none
    | some g => ((s.putPriv cx tm g b).setGroup u g).restoreGroups cx tm same bs l

/-- The clock of a restored barrier is the largest of the groups that have arrived (R227). -/
def Barrier.clockFrom (b : Barrier) (pts : List (Nat × Nat)) : Barrier :=
  { b with clk := pts.foldl (fun m p => if b.arrived.contains p.1 then max m p.2 else m) 0 }
def Team.barClocks (tm : Team) (pts : List (Nat × Nat)) : Team :=
  { tm with bars := mapVals tm.bars fun _ b => b.clockFrom pts, barcs := mapVals tm.barcs fun _ b => b.clockFrom pts }

/-- The teams of a record that have been placed take their state; copies of the zone where they are placed expire (log 108). -/
def State.fillTeams (s : State) (cx : Ctx) (same : Bool) (bs : List Byte) : List (Nat × Nat) → Option State
  | [] => some s
  | (tk, o) :: l =>
    match look s.teams tk with
    | none => none
    | some tm =>
      let b := bs.drop o
      let tm := tm.restore b s.nfree
      let s := { s with nfree := s.nfree + tm.inputs.length, teams := put s.teams tk tm }
      let s := ((s.storesOf tk).mapIdx fun i q => (i, q)).foldl (fun s iq =>
        s.updQuad iq.2 fun q => q.restore (b.drop (fieldOf b 0x38 8 + 73792 * iq.1))) s
      match s.restoreGroups cx tm same b (s.groupsOf tk) with
      | none => none
      | some s =>
        let s := (s.expireCore tm.core cx.zone).expireDistrict tm.district cx.zone
        let s := s.updTeam tk fun t => t.barClocks ((s.groupsOf tk).map fun g => (g.2.gidx, g.2.pts))
        let halted := (s.groupsOf tk).any fun g => g.2.stopped
        (if halted then s.updTeam tk fun t => { t with run := .halted } else s).fillTeams cx same bs l

/-- Clusters of a record: the offsets of the team blocks of one graph, node and CLID. -/
def clustersOf (bs : List Byte) (offs : List Nat) : List (List Nat) :=
  let key := fun o => (fieldOf bs (o + 0xF0) 2, fieldOf bs (o + 0x2C) 2, fieldOf bs (o + 0x28) 4)
  (offs.filter fun o => (offs.find? fun p => key p == key o) == some o).map fun o => offs.filter fun p => key p == key o

/-- Every cluster finds cores, in any district with room; none or all. -/
def State.placeClusters (s : State) (zn : Nat) (bs : List Byte) (ids : List Nat) :
    List (List Nat) → List (Nat × Nat) → Except Nat (State × List (Nat × Nat))
  | [], done => .ok (s, done)
  | [] :: l, done => s.placeClusters zn bs ids l done
  | (o :: os) :: l, done =>
    let gr := ids.getD (fieldOf bs (o + 0xF0) 2) 0
    let nd := fieldOf bs (o + 0x2C) 2
    match look s.graphs gr with
    | none => .error 3
    | some g =>
      match (g.node nd).kern with
      | none => .error 3
      | some k =>
        let team := fun p => { teamOf gr nd s.uid (fieldOf bs (p + 0x28) 4) (fieldOf bs (p + 0x2E) 1) g (g.node nd) k with regs := k.regs }
        let teams := (o :: os).map fun p => (team p, p)
        let agree := teams.all fun t =>
          fieldOf bs (t.2 + 0x1E) 2 == t.1.gpt && fieldOf bs (t.2 + 0x20) 4 == t.1.scratchSize && fieldOf bs (t.2 + 0x19) 1 == t.1.fifoN
            && decide (t.1.crank < t.1.tpc)
        if !agree then .error 3
        else
          match (List.range 1024).findSome? fun c => { s with uid := s.uid + 1 }.placeSaved zn g k bs c teams [] with
          | none => .error 6
          | some (s, d) => s.placeClusters zn bs ids l (done ++ d)

/-! ## CTXLOAD (R358) -/

/-- The status of a load, or the state with the context restored. -/
def View.loadCtx (w : View) (a : VA) : Except Nat State :=
  match w.s.exRead w.cx a 512 with
  | .error _ => .error 7
  | .ok h =>
    let n := fieldOf h 0x20 2
    let zn := fieldOf h 0x22 1
    if (n < 4096 ∧ (look w.s.ctxs n).isSome) ∨ fieldOf h 0x30 4 ≠ 0 then .error 2
    else if !headerOk h then .error 3
    else
      match w.s.exRead w.cx a (fieldOf h 0x18 8) with
      | .error _ => .error 7
      | .ok bs =>
        if !recordOk bs then .error 3
        else
          match look w.s.zones zn with
          | none => .error 4
          | some z =>
            if !w.cx.mayAct zn || (fieldOf h 0x23 1 == 1 && w.cx.priv != .hyp) then .error 4
            else if z.pquotaNow < fieldOf h 0x38 8 then .error 5
            else
              let cx := w.s.ctxFrom h
              let s := { w.s with ctxs := put w.s.ctxs n cx }
              match s.restoreGraphs n cx bs (graphOffs bs (fieldOf bs 0x2A 2) (fieldOf bs 0x98 8)) [] with
              | .error e => .error e
              | .ok (s, ids) =>
                let offs := (List.range (fieldOf bs 0x2C 4)).map fun i => fieldOf bs (fieldOf bs 0x90 8 + 8 * i) 8
                match s.placeClusters zn bs ids (clustersOf bs offs) [] with
                | .error e => .error e
                | .ok (s, done) =>
                  match s.fillTeams cx (fieldOf h 0x34 4 == z.epoch) bs done with
                  | none => .error 7
                  | some s => .ok s

/-- A load without room waits when it has some once a ZSHRINK or a scrub has ended (R373, R376, R378). -/
def View.loadWaits (w : View) (a : VA) (e : Nat) : Bool :=
  e == 6 && match { w with s := w.s.hoped }.loadCtx a with
    | .error e => e != 6
    | .ok _ => true

def execCtxload (x : SdA) (s : State) : Out :=
  issue (.ctxload x) s fun w m =>
    let i := Instr.ctxload x
    let a := w.n128 x.a (lowest m)
    if a % 4096 ≠ 0 then .next (w.trapHere 0x12 m (a % 2 ^ 64))
    else if !w.s.held.isEmpty then .next (w.hold .away)
    else
      match w.loadCtx (BitVec.ofNat 72 a) with
      | .error e => if w.loadWaits (BitVec.ofNat 72 a) e then .next (w.hold .away) else .next (w.finishS i m w.s w.g e)
      | .ok s => w.statusOr i m s (some 0) 0

/-! ## Migration and spilling (R342) -/

/-- A place in a context's spill area for a block, clear of the other spilled teams' (R342). -/
def State.spillPlace (s : State) (n : Nat) (cx : Ctx) (len : Nat) : Option Nat :=
  let used := (s.teams.filter fun t => t.2.ctx == n && t.2.run == .spilled).map fun t => (t.2.spillAt, t.2.spillLen)
  (0 :: used.map fun u => u.1 + u.2).find? fun a =>
    decide (a + len ≤ cx.spillsz) && used.all fun u => decide (a + len ≤ u.1) || decide (u.1 + u.2 ≤ a)

/-- A stopped team leaves its core; its tile stores come with it. -/
def State.liftTeam (s : State) (tk : Nat) : State × List Quad :=
  let stores := (s.storesOf tk).map s.quadOf
  let s := (s.dropStores tk).updTeam tk fun t => { t with run := .spilled }
  ((s.groupsOf tk).foldl (fun s g => s.updGroup g.1 fun g =>
    { g with quad := 2 ^ 32, slot := none, readyAt := none
             queues := mapVals g.queues fun _ q => { q with chan := none, waits := q.stream.isSome || !q.entries.isEmpty } }) s, stores)

/-- A team off its core goes to a core and quadrants with room, with the tile stores it had. Copies that the core holds for the zone
expire: an older version there must not follow what the team's loads have returned elsewhere (R225; DEDUCED, log 108). -/
def State.landTeam (s : State) (zn tk : Nat) (tm : Team) (core : Nat) (qs : List Nat) (stores : List Quad) : Option State :=
  let quads := qs.map fun q => 4 * core + q
  let give := s.giving core zn 1
  let gs := s.groupsOf tk
  if qs.length ≠ tm.gpt ∨ qs.any (fun q => decide (4 ≤ q)) ∨ !quads.all (s.quadOpen zn) then none
  else if tm.matrix && (!roundRobin qs || (dedup qs).length != stores.length || quads.any fun q => (s.quadOf q).holder.isSome) then none
  else
    match s.takeParts give ((tm.scratchSize + 16383) / 16384), s.takeParts (s.giving core zn 2) (tm.fifoN + tm.nstrm * tm.gpt) with
    | some gr, some cs =>
      let s := gs.foldl (fun s g => s.updGroup g.1 fun x => { x with quad := quads.getD x.gidx 0 }) s
      let s := (s.updTeam tk fun t => { t with core := core, granules := gr, chans := cs, run := t.haltRun, away := false }).expireCore core zn
      let s := if tm.matrix then
          (((dedup quads).zip stores).foldl (fun s p => s.updQuad p.1 fun x =>
            { x with holder := some tk, place := p.2.place, soft := p.2.soft, tiles := p.2.tiles, tmarks := p.2.tmarks, last := p.2.last, done := p.2.done, queue := [], grants := [] }) s)
        else s
      if (dedup quads).all s.quadFits then some s else none
    | _, _ => none

/-- Some other core of the team's district has room for it. "With room" is judged by even spreads (log 93). -/
def State.otherRoom (s : State) (zn tk : Nat) (tm : Team) (stores : List Quad) : Bool :=
  (List.range 128).any fun k =>
    let c := 128 * tm.district + k
    c != tm.core && (evenSpreads tm.gpt).any fun qs => (s.landTeam zn tk tm c qs stores).isSome

/-- A stopped team that finds no core goes to the spill area in team-block form; without room there it waits. The block is the image of
the state that the model keeps; a team that returns takes that (DESIGN CHOICE, log 94). -/
def State.spillTeam (s : State) (cx : Ctx) (tk : Nat) (tm : Team) : State :=
  let (s', stores) := s.liftTeam tk
  if s'.otherRoom cx.zone tk tm stores then s
  else
    let block := (s.teamBlock cx tk tm 0).1
    match s.spillPlace tm.ctx cx block.length with
    | none => s
    | some a =>
      match s'.exWrite cx (cx.spill + BitVec.ofNat 72 a) block with
      | .error _ => s
      | .ok s => s.updTeam tk fun t => { t with stores := stores, granules := [], chans := [], spillAt := a, spillLen := block.length }

/-- MIGRATION (R342): a stopped team moves to another core of its zone and district, or with no quadrants named goes to its
context's spill area; a spilled team returns to its district. -/
def execMigration (tk core : Nat) (quads : List Nat) (s : State) : Out :=
  match look s.teams tk with
  | none => .next s
  | some tm =>
    match look s.ctxs tm.ctx with
    | none => .next s
    | some cx =>
      let land := fun (s' : State) (stores : List Quad) => if core / 128 ≠ tm.district then s else (s'.landTeam cx.zone tk tm core quads stores).getD s
      if cx.stopping then .next s
      else if tm.run == .stopped then
        if quads.isEmpty then .next (s.spillTeam cx tk tm)
        else if core = tm.core then .next s
        else .next (land (s.liftTeam tk).1 (s.liftTeam tk).2)
      else if tm.run == .spilled then .next (land (s.updTeam tk fun t => { t with stores := [], spillAt := 0, spillLen := 0 }) tm.stores)
      else .next s

end Sys2Proof.Machine
end

