-- ==== Sys2Proof/Machine/Banks.lean ====
section
/-!
DEFINITION. Epochs that are due (R212), SRAM banks that change mode (R168, R169), scrubs (R373), eviction from L2 slices and vaults (R205, R369), coins
(R310, R311, R380).
-/

namespace Sys2Proof.Machine

/-! ## Epochs due (R212) -/

/-- The limit of a zone's timestamps. -/
def epochLimit : Nat := 2 ^ 63 - 2 ^ 40

/-- A group's largest timestamp. -/
def Group.topTs (g : Group) : Nat := max g.pts (max g.lmax g.ah)

/-- Some timestamp of the zone has reached the limit (R212). -/
def State.rollDue (s : State) (z : Nat) : Bool :=
  let zz := s.zoneOf z
  decide (epochLimit ≤ zz.zclk) || zz.lh.any (fun x => decide (epochLimit ≤ x.2)) || zz.mts.any (fun x => decide (epochLimit ≤ x.2))
    || s.groups.any (fun g => decide (epochLimit ≤ g.2.topTs) && s.zoneNum g.2 == z)
    || s.homes.any fun h => h.2.zn == z && decide (epochLimit ≤ h.2.rts)

/-! ## Bank modes (R169) -/

/-- A bank that has left its mode enters its target. -/
def Bank.enter (b : Bank) : Bank :=
  if b.reqmode = 1 ∨ b.reqmode = 2 then { b with stage := 3 } else { b with mode := b.reqmode, stage := 0 }

/-- A write of REQMODE. -/
def Bank.request (b : Bank) (m : BitVec 2) : Bank :=
  let c := { b with reqmode := m }
  if b.stage ≠ 0 ∨ m = b.mode then c
  else
    match b.mode.toNat with
    | 0 => { c with stage := 1 }
    | 3 => c.enter
    | _ => { c with stage := 2 }

/-- Writes of a bank's control register come from the hypervisor and from the owner zone's contexts (R168). -/
def State.mayBank (s : State) (from_ : Writer) (b : Nat) : Bool :=
  s.writerHyp from_ || (match from_ with
    | .ctx _ => s.writerZone from_ == (s.bank b).owner && (s.bank b).owner.isSome
    | _ => false)

/-- BANK_REQMODE (R168, R169). -/
def execBankReqmode (from_ : Writer) (bank : Nat) (mode : BitVec 2) (s : State) : Out :=
  if bank < 40960 && s.mayBank from_ bank then .next (s.updBank bank fun b => b.request mode) else .next s

/-- What a bank that leaves L1 takes with it (R169, R174): one way of each set of its zone's L1. Which line of a set lay in it is not
architectural: the set loses lines, dirty private ones to memory, until it fits in the ways that remain (DESIGN CHOICE, log 87). -/
def State.flushL1 (s : State) (core zn : Nat) : State :=
  let lines := (s.l1.filter fun c => keyLoc c.1 == l1Loc core * 65 + zn).map (fun c => c.1 % 2 ^ 49)
    ++ (s.groupsAt core zn).flatMap fun g => g.2.pleaf.map (·.1)
  lines.foldl (fun s l =>
    if (s.l1Set core zn l).length + (s.privSet core zn l).length ≤ s.l1Ways core zn then s else s.evictL1 core zn l) s

/-- WRITEBACK (R169). -/
def execWriteback (bank : Nat) (s : State) : Out :=
  let b := s.bank bank
  if b.stage != 1 then .next s
  else
    let s := match b.owner with
      | some z => s.flushL1 (bank / 40) z
      | none => s
    .next (s.updBank bank Bank.enter)

/-- WAITRELEASE (R169). -/
def execWaitrelease (bank : Nat) (s : State) : Out :=
  if (s.bank bank).stage == 2 && s.holders bank == 0 then .next (s.updBank bank Bank.enter) else .next s

/-- ZEROFILL (R169): a target replaced meanwhile is entered. -/
def execZerofill (bank : Nat) (s : State) : Out :=
  if (s.bank bank).stage == 3 then .next (s.updBank bank fun b => { b with mode := b.reqmode, stage := 0 }) else .next s

/-! ## Scrubs (R373) -/

/-- A quadrant or bank that no zone holds. -/
def State.freeQuad (s : State) (q : Nat) : Bool := (s.quadOf q).zones.isEmpty
def State.freeBank (s : State) (b : Nat) : Bool := (s.bank b).owner.isNone

/-- A free resource is being zeroed. -/
def State.startScrub (s : State) (bank : Bool) (n : Nat) : State :=
  if bank then s.updBank n fun b => { b with mode := 3, reqmode := 3, stage := 0, scrub := 2 }
  else s.updQuad n fun q => { q with tiles := [], tmarks := [], last := 0, done := 0, scrub := 2 }

/-- SCRUB_END (R373). -/
def execScrubEnd (bank : Bool) (n : Nat) (s : State) : Out :=
  if bank then .next (if (s.bank n).scrub = 2 then s.updBank n fun b => { b with scrub := 0 } else s)
  else .next (if (s.quadOf n).scrub = 2 then s.updQuad n fun q => { q with scrub := 0 } else s)

/-! ## Eviction (R205, R369) -/

/-- Every line of a zone leaves a slice or vault: homes enter MTS, copies go. -/
def State.evictCache (s : State) (zn cache : Nat) : State :=
  let s := (s.homes.filter fun h => h.2.zn == zn && h.2.at_ == cache).foldl (fun s h => s.evictHome h.1) s
  let loc := cacheLoc zn cache
  { s with l2 := s.l2.filter (fun c => keyLoc c.1 != loc), rcopies := s.rcopies.filter fun c => keyLoc c.1 != loc }

/-- WAY_FREE (R391): the lines of removed ways have gone; which lines lay in them is not architectural, so all go. -/
def execWayFree (z : Nat) (s : State) : Out :=
  match look s.zones z with
  | none => .next s
  | some zz =>
    let s := zz.leaving.foldl (fun s c => s.evictCache z c.1) s
    .next (s.updZone z fun z => { z with leaving := [] })

/-! ## Coins (R310, R311, R380) -/

/-- A zone without resident group, ready node or request of a group, a copy or an agent (R311). -/
def State.zoneIdle (s : State) (z : Nat) : Bool :=
  let mine := fun n : Nat => ((look s.ctxs n).map fun c : Ctx => c.zone) == some z
  !(s.groups.any fun g => match look s.teams g.2.team with
      | some t => mine t.ctx && (!(t.run == .spilled || t.run == .saved) || !g.2.fly.isEmpty)
      | none => false)
    && !(s.copies.any fun c => c.2.status.isNone && match look s.teams c.2.team with
      | some t => mine t.ctx
      | none => false)
    && !s.zoneQueued z && !(s.graphs.any fun g => mine g.2.ctx && g.2.nodes.any fun x => x.st == .ready || x.st == .chosen)

/-- A loan for a zone whose balance has run out, from the lowest-numbered idle zones that have coins; the largest the rules
allow (log entry 20). -/
def State.lend (s : State) (z : Nat) : State :=
  match look s.zones z with
  | none => s
  | some b =>
    match s.zones.find? fun l => l.1 != z && s.zoneIdle l.1 && decide (0 < l.2.bal) with
    | none => s
    | some (l, lender) =>
      let (allow, cap, _) := b.oldCoin.getD (b.allow, b.cap, b.floor)
      let n := min (allow / 4) (min lender.bal.toNat (cap - (allow + b.lent)))
      if n = 0 ∨ 16 ≤ b.loans.length ∨ cap ≤ allow + b.lent then s
      else
        let q := (n + 3) / 4
        let parts := [q, min q (n - q), min q (n - 2 * q), n - 3 * q]
        (s.updZone l fun x => { x with bal := x.bal - n }).updZone z fun x =>
          { x with bal := x.bal + n, lent := x.lent + n, loans := x.loans ++ [(l, parts)] }

/-- Coins of an issue (R310). -/
def State.payIssue (s : State) (z n : Nat) : State := s.updZone z fun x => { x with bal := x.bal - n }

/-- The group has an instruction to issue. -/
def Group.wantsIssue (g : Group) : Bool :=
  g.launched && g.hasRun && (match g.wait with
    | .none | .retry .. => !g.wait.stalled
    | _ => false) && (g.slot.isSome || g.readyAt.isSome)

/-- The zone has a request for an issue slot or a channel (R310, R311). -/
def State.zoneAsks (s : State) (z : Nat) : Bool :=
  s.groups.any (fun g => g.2.wantsIssue && s.zoneNum g.2 == z) || s.chanq.any fun r => (s.chanInfo r.src).any fun x => x.zn == z

/-- Zones with a request and no coins left borrow (R311). -/
def State.lendAll (s : State) : State :=
  s.zones.foldl (fun s z => match look s.zones z.1 with
    | some x => if x.bal ≤ 0 ∧ 0 < x.allow ∧ s.zoneAsks z.1 then s.lend z.1 else s
    | none => s) s

/-- COIN_PERIOD (R310, R311, R341, R380, R393). -/
def execCoinPeriod (s : State) : Out :=
  let ret := fun z : Nat => (s.zones.map fun b => ((b.2.loans.filter fun l => l.1 == z).map fun l => l.2.headD 0).sum).sum
  .next { s with period := s.cycle, zones := mapVals s.zones fun k z =>
    let due := (z.loans.map fun l => l.2.headD 0).sum + z.charge
    { z with oldCoin := none, used := [], bal := (z.allow : Int) - due + ret k, lent := 0, charge := 0
             loans := (z.loans.map fun l => (l.1, l.2.drop 1)).filter fun l => !l.2.isEmpty } }

end Sys2Proof.Machine
end

