-- ==== Sys2Proof/Machine/Control.lean ====
section
/-!
DEFINITION. Class 0x4: branches, thread status, convergence barriers and barriers between groups (R143 to R155), and the
events that end their waits.
-/

namespace Sys2Proof.Machine

/-! ## Branches (R145, R146) -/

/-- The PC as an offset from the code base. -/
def View.pcOffset (w : View) : Int := ((w.s.curPc - w.tm.codeBase).toNat : Int)

/-- A direct target (R145). -/
def View.directTarget (w : View) (imm : W32) : Int := w.pcOffset + 12 * imm.toInt

/-- The target lies outside the text or on no instruction (R145). -/
def Team.badOffset (tm : Team) (t : Int) : Bool := t < 0 || t ≥ tm.textSize || t % 12 != 0

def Team.at_ (tm : Team) (t : Int) : VA := tm.codeBase + BitVec.ofNat 72 t.toNat

/-- A thread's branch: it moves, or fails as bad(t) or land(t). -/
inductive BranchRes where
  | go | bad | noLand
  deriving DecidableEq, Repr

def View.branchCheck (w : View) (indirect needLand : Bool) (t : Int) : BranchRes :=
  if w.tm.badOffset t then .bad
  else if indirect then
    match w.fetchQuiet (w.tm.at_ t) with
    | none => .bad
    | some x => if needLand && opcOf x != 0x105 then .noLand else .go
  else .go

/-- The bytes that the check of indirect targets translates; a walk installs what it finds (R184). -/
def View.targetBytes (w : View) (m : Mask) (target : Nat → Int) : List VA :=
  (threadsOf m).flatMap fun t =>
    if w.tm.badOffset (target t) then [] else (List.range 12).map fun i => w.tm.at_ (target t) + BitVec.ofNat 72 i

/-- The branch forms: each thread moves or stays; a failing thread raises the trap of R146. `last` holds the sources, which a
thread releases only when it moves. -/
def branchOp (i : Instr) (s : State) (link : Option (BitVec 8)) (indirect needLand : Bool) (target : View → Nat → Int) : Out :=
  issue i s fun w m =>
    if indirect && w.walkBehind .fetch (w.targetBytes m (target w)) then .next (w.hold .again) else
    let w := if indirect then { w with s := w.installQuiet .fetch (w.targetBytes m (target w)) } else w
    let res := fun t => w.branchCheck indirect needLand (target w t)
    let good := maskOf fun t => inMask m t && res t == .go
    let bad := maskOf fun t => inMask m t && res t != .go
    let out : LaneOut := .bits (w.pcOffset + 12).toNat
    let g := if bad = 0 then releaseS i.uses.srcs w.g else w.g
    let g := g.mapThreads fun t th =>
      if inMask good t then
        let th := releaseV i.uses.srcs th
        let th := match link with
          | some n => (th.setV n.toNat (BitVec.ofNat 32 out.d)).shiftLatch (BitVec.ofNat 32 out.d)
          | none => th
        { th with pc := w.tm.at_ (target w t) }
      else if inMask w.sel t && !inMask m t then th.step12
      else th
    let g := match link with
      | some n => g.clearMarks .v good n.toNat 1
      | none => g
    let g := w.track i 0 .now g
    if bad = 0 then .next (w.s.issued w.u i.uses.ctl w.halting g)
    else
      let code := if (threadsOf bad).any (fun t => res t == .bad) then 0x17 else 0x16
      .next (w.takeTrap { g with lastIssue := w.s.schedOf g + 1 } code bad w.pc64
        (BitVec.ofInt 64 (target w (lowest bad))).toNat)

def execBra (x : BraF) (s : State) : Out := branchOp (.bra x) s none false false fun w _ => w.directTarget x.imm
def execBrx (x : SrcF) (s : State) : Out := branchOp (.brx x) s none true true fun w t => w.n32 x.a t
def execCall (x : CallF) (s : State) : Out :=
  branchOp (.call x) s (some x.d) false false fun w _ => w.directTarget x.imm
def execCallx (x : CallxF) (s : State) : Out := branchOp (.callx x) s (some x.d) true true fun w t => w.n32 x.a t
def execRet (x : SrcF) (s : State) : Out := branchOp (.ret x) s none true false fun w t => w.n32 x.a t

/-- LAND and NOP (R147). -/
def execLand (x : CtlOnly) (s : State) : Out := groupOp (.land x) s fun _ _ g => g
def execNop (x : CtlOnly) (s : State) : Out := groupOp (.nop x) s fun _ _ g => g

/-! ## Thread status (R148 to R151) -/

/-- EXIT (R148): the threads exit and every convergence barrier is evaluated. -/
def execExit (x : CtlOnly) (s : State) : Out :=
  issue (.exit x) s fun w m =>
    let g := w.g.mapThreads fun t th =>
      if inMask m t then { th with stat := .exited, pausing := false }
      else if inMask w.sel t then th.step12 else th
    .next (w.s.issued w.u x.ctl w.halting (w.track (.exit x) 0 .now g.releaseAllCb))

/-- YIELD (R149). -/
def execYield (x : CtlOnly) (s : State) : Out :=
  groupOp (.yield x) s fun w _ g => if g.slot.isSome then g.leaveSlot (some w.s.cycle) else g

/-- The lease horizon of the group's zone in its district (R206). -/
def View.lh (w : View) : Nat :=
  match look w.s.zones w.cx.zone with
  | some z => rget 0 z.lh w.tm.district
  | none => 0

/-- PAUSE (R150, R203). -/
def execPause (x : CtlOnly) (s : State) : Out :=
  groupOp (.pause x) s fun w m g =>
    let g := { g with pts := max (g.pts + 1) (w.lh + 1) }
    g.mapThreads fun t th =>
      if inMask m t then { th with stat := .hold (w.s.schedOf w.g + 64), pausing := true } else th

/-- SLEEP (R151). -/
def execSleep (x : SrcF) (s : State) : Out :=
  groupOp (.sleep x) s fun w m g =>
    g.mapThreads fun t th =>
      if inMask m t then
        let th := releaseV (Instr.sleep x).uses.srcs th
        let c := w.n32 x.a t
        if c = 0 then th else { th with stat := .sleep (w.s.schedOf w.g + min c (2 ^ 20)) }
      else th

/-- The hold or sleep of a status has run out. -/
def TStat.holdDone (now : Nat) : TStat → Bool
  | .hold due => due ≤ now
  | _ => false
def TStat.sleepDone (now : Nat) : TStat → Bool
  | .sleep due => due ≤ now
  | _ => false

/-- A thread whose count has run out runs again; in handler mode the count of its frame (R334). -/
def expire (s : State) (u t : Nat) (done : Nat → TStat → Bool) : State :=
  match look s.groups u with
  | none => s
  | some g =>
    let now := s.schedOf g
    s.setGroup u (g.mapThreads fun k th =>
      if k ≠ t then th
      else
        let th := if done now th.stat then { th with stat := .run } else th
        if g.handler && th.live && done now th.fstat then { th with fstat := .run } else th)

/-- HOLD_EXPIRY (R150). -/
def execHoldExpiry (u t : Nat) (s : State) : Out := .next (expire s u t TStat.holdDone)
/-- SLEEP_EXPIRY (R151). -/
def execSleepExpiry (u t : Nat) (s : State) : Out := .next (expire s u t TStat.sleepDone)

/-! ## Convergence barriers (R152) -/

def execCbarm (x : Cbarm) (s : State) : Out :=
  groupOp (.cbarm x) s fun _ m g =>
    (g.setCb x.n.toNat (if x.or then g.cbreg x.n.toNat ||| m else m)).releaseCb x.n

def execCbwait (x : Cbwait) (s : State) : Out :=
  issue (.cbwait x) s fun w m =>
    let members := w.g.cbreg x.n.toNat
    let g := w.g.mapThreads fun t th =>
      if inMask m t then (if inMask members t then { th with stat := .cbwait x.n } else th.step12)
      else if inMask w.sel t then th.step12 else th
    .next (w.s.issued w.u x.ctl w.halting (w.track (.cbwait x) 0 .now (g.releaseCb x.n)))

/-! ## Barriers between groups (R153 to R155) -/

def Barrier.arrive (b : Barrier) (gidx pts : Nat) : Barrier :=
  if b.arrived.contains gidx then b else { b with arrived := gidx :: b.arrived, clk := max b.clk pts }

/-- BAR and BARC: the threads wait, the group arrives once a phase. The completion is a release by the group of everything before
its last BAR of the phase (R155); it counts once (R223). -/
def barOp (i : Instr) (s : State) (cluster : Bool) (b : Nat) (scope : Scope) : Out :=
  issue i s fun w m =>
    let bars := if cluster then w.tm.barcs else w.tm.bars
    let old := rget {} bars b
    let first := !old.arrived.contains w.g.gidx
    let g := w.g.mapThreads fun t th => if inMask m t then { th with stat := .barwait cluster b } else th
    let g := g.addRelease scope
    let s := w.s.issued w.u i.uses.ctl w.halting (w.track i 0 .now g)
    .next (s.updTeam w.g.team fun tm =>
      let tm := if first then tm.countRelease scope else tm
      let bars := put bars b (old.arrive w.g.gidx w.g.pts)
      if cluster then { tm with barcs := bars } else { tm with bars := bars })

def execBar (x : BarF) (s : State) : Out := barOp (.bar x) s false x.b.toNat .team
def execBarc (x : BarcF) (s : State) : Out := barOp (.barc x) s true x.b.toNat .clu

/-- Every group with a live thread has arrived and met its release waits; the team is neither halted nor away (R153, R154,
R336). -/
def State.teamArrived (s : State) (team : Nat) (tm : Team) (b : Barrier) : Bool :=
  tm.run != .halted && !tm.away
    && (s.groupsOf team).all fun g => !g.2.hasLive || (b.arrived.contains g.2.gidx && !g.2.releasePending)

/-- The threads that wait at the barrier go on past it, frames too (R334); the group's clock takes the arrivals' (R227). -/
def Group.passBar (g : Group) (cluster : Bool) (b pts : Nat) : Group :=
  let waits := fun th : Thread => th.stat == .barwait cluster b
  let fwaits := fun th : Thread => g.handler && th.live && th.fstat == .barwait cluster b
  let any := g.threads.any fun th => waits th || fwaits th
  let g' := g.mapThreads fun _ th =>
    let th := if waits th then { th with stat := .run, pc := th.pc + 12 } else th
    if fwaits th then { th with fstat := .run, fpc := th.fpc + 12 } else th
  if any then { g' with pts := max g.pts (max g.lmax pts), ah := if cluster then max g.pts (max g.lmax pts) else g.ah } else g'

/-- The barrier of a set of teams completes. -/
def completeBar (s : State) (teams : List Nat) (cluster : Bool) (b : Nat) : State :=
  let gs := s.groups.filter fun g => teams.contains g.2.team
  let bar := fun (tm : Team) => rget {} (if cluster then tm.barcs else tm.bars) b
  let pts := teams.foldl (fun p tn => max p (((look s.teams tn).map fun tm : Team => (bar tm).clk).getD 0)) 0
  let s := gs.foldl (fun s g => s.updGroup g.1 fun g => g.passBar cluster b pts) s
  teams.foldl (fun s tn => s.updTeam tn fun tm =>
    let bars := if cluster then tm.barcs else tm.bars
    let old := rget {} bars b
    let bars := put bars b { phase := !old.phase, arrived := [] }
    if cluster then { tm with barcs := bars } else { tm with bars := bars }) s

/-- BAR_RELEASE (R153). -/
def execBarRelease (team b : Nat) (s : State) : Out :=
  match look s.teams team with
  | none => .next s
  | some tm =>
    let bar := rget {} tm.bars b
    if !bar.arrived.isEmpty && s.teamArrived team tm bar then .next (completeBar s [team] false b) else .next s

/-- BARC_RELEASE (R154), named by any team of the cluster. -/
def execBarcRelease (team b : Nat) (s : State) : Out :=
  match look s.teams team with
  | none => .next s
  | some tm =>
    let teams := s.teams.filter fun x => x.2.cluster == tm.cluster
    if (teams.any fun x => !(rget {} x.2.barcs b).arrived.isEmpty)
        && (teams.all fun x => x.2.run == .retired || s.teamArrived x.1 x.2 (rget {} x.2.barcs b)) then
      .next (completeBar s (teams.map fun x => x.1) true b)
    else .next s

/-! ## Slots (R142) -/

/-- The pending group of a quadrant that has been ready longest. -/
def State.longestReady (s : State) (quad : Nat) : Option Nat :=
  ((s.groups.filter fun g => g.2.quad == quad && g.2.slot.isNone && g.2.readyAt.isSome && g.2.launched
      && s.ctxOf g.2 == s.quadCtx quad).foldl
    (fun best g =>
      match best with
      | none => some (g.1, g.2.readyAt.getD 0)
      | some (u, c) => if g.2.readyAt.getD 0 < c then some (g.1, g.2.readyAt.getD 0) else some (u, c)) none).map (·.1)

/-- SLOT_REFILL (R142). -/
def execSlotRefill (quad slot : Nat) (s : State) : Out :=
  if slot < 8 && !(s.groups.any fun g => g.2.quad == quad && g.2.slot == some slot) then
    match s.longestReady quad with
    | some u => .next (s.updGroup u fun g => { g.laneSwitch with slot := some slot, readyAt := none })
    | none => .next s
  else .next s

end Sys2Proof.Machine
end

