-- ==== Sys2Proof/Machine/Cross.lean ====
section
/-!
DEFINITION. Class 0x3: sections and cross-thread forms (R156 to R163).
-/

namespace Sys2Proof.Machine

/-- Section size (R156). -/
def Group.section (g : Group) : Nat := 2 ^ g.part.toNat
/-- The base of a thread's section. -/
def Group.sectionBase (g : Group) (t : Nat) : Nat := t / g.section * g.section
/-- The participants of a thread (R158): the threads of the execution mask in its section, in ascending order. -/
def participants (g : Group) (m : Mask) (t : Nat) : List Nat :=
  (threadsOf m).filter fun j => j / g.section == t / g.section
def maskList (l : List Nat) : Mask := maskOf fun t => l.contains t

/-- PART (R156). -/
def execPart (x : Part) (s : State) : Out := groupOp (.part x) s fun _ _ g => { g with part := x.log2s }

/-- VOTE (R159). -/
def execVote (x : Vote) (s : State) : Out :=
  laneOp (.vote x) s false fun w m t =>
    let ps := participants w.g m t
    let q := fun j => (w.g.thread j).pred x.pa != x.nega
    match x.mode with
    | .all => .pred (ps.all q)
    | .any => .pred (ps.any q)
    | .uni => .pred (ps.all q || ps.all fun j => !q j)
    | .ballot => .bits (maskList (ps.filter q)).toNat

/-- The source thread of SHFL, when it is in range (R160). -/
def shflFrom (mode : ShflMode) (sec base t n : Nat) : Option Nat :=
  match mode with
  | .idx => some (base + n % sec)
  | .up => if t ≥ n + base then some (t - n) else none
  | .down => if t + n < base + sec then some (t + n) else none
  | .xor => some (t ^^^ (n % sec))

/-- SHFL (R160). -/
def execShfl (x : Shfl) (s : State) : Out :=
  laneOp (.shfl x) s false fun w m t =>
    match shflFrom x.mode w.g.section (w.g.sectionBase t) t (w.n32 x.b t) with
    | some j => if inMask m j then { d := w.rd x.ty x.a j, p := true } else .bits (w.rd x.ty x.a t)
    | none => .bits (w.rd x.ty x.a t)

/-- One step of a reduction (R161), with its exceptions. FTZ does not apply. -/
def redStep (op : RedOp) (ty : Ty) (a b : Nat) : Nat × Flags :=
  if ty == .f32 then
    match op with
    | .min => minmaxBits .f32 false false false a b
    | .max => minmaxBits .f32 false false true a b
    | _ => addBits .f32 ⟨false, .rne, false⟩ a b
  else
    match op with
    | .add => ((a + b) % 2 ^ ty.width, 0)
    | .min => (if intOf ty a ≤ intOf ty b then a else b, 0)
    | .max => (if intOf ty b ≤ intOf ty a then a else b, 0)
    | .and => (a &&& b, 0)
    | .or => (a ||| b, 0)
    | .xor => (a ^^^ b, 0)

/-- The identity of SCAN.excl (R161). -/
def redIdentity (op : RedOp) (ty : Ty) : Nat :=
  match op with
  | .add | .or | .xor => 0
  | .and => 2 ^ ty.width - 1
  | .min => if ty == .f32 then infF .f32 false else wrap ty.width (intMax ty)
  | .max => if ty == .f32 then infF .f32 true else wrap ty.width (intMin ty)

/-- x1 … xm of R161, in order, each with the exceptions so far. -/
def redRun (op : RedOp) (ty : Ty) : List Nat → List (Nat × Flags)
  | [] => []
  | a :: as => (a, 0) :: redFrom (a, 0) as
where
  redFrom (acc : Nat × Flags) : List Nat → List (Nat × Flags)
  | [] => []
  | b :: bs =>
    let r := redStep op ty acc.1 b
    (r.1, acc.2 ||| r.2) :: redFrom (r.1, acc.2 ||| r.2) bs

/-- The values of a section's participants, in ascending thread order. -/
def sectionRun (w : View) (m : Mask) (op : RedOp) (ty : Ty) (a : Src) (t : Nat) : List (Nat × Flags) :=
  redRun op ty ((participants w.g m t).map (w.rd ty a))

/-- REDUX (R161). -/
def execRedux (x : Redux) (s : State) : Out :=
  laneOp (.redux x) s x.ty.sfill fun w m t => .float ((sectionRun w m x.op x.ty x.a t).getLastD (0, 0))

/-- SCAN (R161). -/
def execScan (x : Scan) (s : State) : Out :=
  laneOp (.scan x) s x.ty.sfill fun w m t =>
    let run := sectionRun w m x.op x.ty x.a t
    let k := (participants w.g m t).idxOf t
    let all := (run.getLastD (0, 0)).2
    if x.excl then { d := if k = 0 then redIdentity x.op x.ty else (run.getD (k - 1) (0, 0)).1, fl := all }
    else { d := (run.getD k (0, 0)).1, fl := all }

/-- MATCH (R162). -/
def execMatch (x : Un) (s : State) : Out :=
  laneOp (.match_ x) s false fun w m t =>
    .bits (maskList ((participants w.g m t).filter fun j => w.rd x.ty x.a j == w.rd x.ty x.a t)).toNat

/-- ELECT (R162): a group instruction that writes the selected threads' predicates. -/
def execElect (x : Elect) (s : State) : Out :=
  laneOp (.elect x) s false fun w m t => .pred ((participants w.g m t).head? == some t)

/-- BCAST (R162). -/
def execBcast (x : Un) (s : State) : Out :=
  laneOp (.bcast x) s false fun w m t => .bits (w.rd x.ty x.a ((participants w.g m t).headD t))

end Sys2Proof.Machine
end

