-- ==== Sys2Proof/Machine/Shake.lean ====
section
/-!
DEFINITION. SHAKE256, which the spec names for its digests (R440, R442) and does not define (log entry 23). The state is 25 words, the
word of column x and row y at place x + 5 y; the constants of the rounds are computed from what generates them.
-/

namespace Sys2Proof.Machine

/-- The step of the register whose low bits make the round constants: multiplication by x modulo x^8 + x^6 + x^5 + x^4 + 1. -/
def shakeShift (r : Nat) : Nat := if r < 128 then 2 * r else 2 * r ^^^ 0x171

/-- The constant of a round: bit 2^j - 1 is the generator's bit 7 k + j. -/
def shakeConst (k : Nat) : W64 :=
  (List.range 7).foldl (fun c j => if Nat.repeat shakeShift (7 * k + j) 1 % 2 = 1 then c ||| 1#64 <<< (2 ^ j - 1) else c) 0

/-- Every word takes in the parities of the columns on its two sides. -/
def shakeMix (st : List W64) : List W64 :=
  let par := fun x : Nat => (List.range 5).foldl (fun p y => p ^^^ st.getD (x % 5 + 5 * y) 0) 0#64
  let side := (List.range 5).map fun x => par (x + 4) ^^^ (par (x + 1)).rotateLeft 1
  st.zipIdx.map fun w => w.1 ^^^ side.getD (w.2 % 5) 0

/-- The words move along one orbit of 24 places, which starts at column 1 of row 0; the t-th of them turns by the t-th triangular number,
and word 0 stays. -/
def shakeMove (st : List W64) : List W64 :=
  let go := fun (a : List W64 × Nat × Nat) (t : Nat) =>
    let (out, x, y) := a
    let (x', y') := (y, (2 * x + 3 * y) % 5)
    (out.set (x' + 5 * y') ((st.getD (x + 5 * y) 0).rotateLeft ((t + 1) * (t + 2) / 2 % 64)), x', y')
  ((List.range 24).foldl go (st, 1, 0)).1

/-- In each row a word changes where the next is 0 and the one after it is 1. -/
def shakeChoose (st : List W64) : List W64 :=
  st.zipIdx.map fun w =>
    let row := w.2 / 5 * 5
    w.1 ^^^ (st.getD (row + (w.2 + 2) % 5) 0 &&& ~~~st.getD (row + (w.2 + 1) % 5) 0)

/-- The permutation. -/
def shakePerm (st : List W64) : List W64 :=
  (List.range 24).foldl (fun st k =>
    match shakeChoose (shakeMove (shakeMix st)) with
    | w :: l => (w ^^^ shakeConst k) :: l
    | [] => []) st

/-- A message as blocks of 17 words: the suffix 1111, then a 1 bit, zeros, and a last 1 bit. -/
def shakeBlocks (m : List Byte) : List (List W64) :=
  let n := m.length / 136 + 1
  let tail := fun i : Nat => (if i = m.length then 0x1F#8 else 0) ^^^ (if i + 1 = 136 * n then 0x80#8 else 0)
  (List.range n).map fun b => (List.range 17).map fun k =>
    BitVec.ofNat 64 (natOfBytes ((List.range 8).map fun j =>
      let i := 136 * b + 8 * k + j
      if i < m.length then m.getD i 0 else tail i))

/-- The first 512 bits of SHAKE256. -/
def shake256 (m : List Byte) : List Byte :=
  let st := (shakeBlocks m).foldl (fun st blk => shakePerm (st.zipIdx.map fun w => w.1 ^^^ blk.getD w.2 0)) (List.replicate 25 0)
  (st.take 8).flatMap fun w => bytesOf 8 w.toNat

end Sys2Proof.Machine
end

