-- ==== Sys2Proof/Machine/Zones.lean ====
section
/-!
DEFINITION. Class 0xA but for CAPQ (R384 to R395), and the events of transitions (R370 to R376).
-/

namespace Sys2Proof.Machine

/-! ## Forms and statuses (R385, R386) -/

/-- The first failing check in ascending code, or the state after the form's effect. -/
abbrev ZRes := Except Nat State

/-- Later checks run only when earlier ones hold. -/
def zneed (ok : Bool) (code : Nat) (k : ZRes) : ZRes := if ok then k else .error code

/-- A record for a form of class 0xA (R385). -/
def View.zread (w : View) (a n : Nat) (k : List Byte → ZRes) : ZRes :=
  if a / 2 ^ 72 ≠ 0 then .error 2
  else
    match w.s.exRead w.cx (BitVec.ofNat 72 a) n with
    | .error _ => .error 2
    | .ok bs => k bs

/-- Every earlier store of the group is acknowledged. -/
def Group.storesDone (g : Group) : Bool := g.sbuf.isEmpty && g.fly.isEmpty

/-- The group's place among the forms that name a zone: that of its issue (R370). -/
def View.zplace (w : View) : Nat := (w.g.zform.map fun p => p.2).getD w.s.uid

/-- A form on the zone that has issued before is not performed yet (R370). -/
def View.zbehind (w : View) (z : Nat) : Bool :=
  w.s.groups.any fun g => g.1 != w.u && g.2.zform.any fun p => p.1 == z && decide (p.2 < w.zplace)

/-- The form has its place among those of the zone. -/
def View.zqueue (w : View) (z : Nat) : View :=
  { w with s := if w.g.zform.isSome then w.s else { w.s with uid := w.s.uid + 1 }, g := { w.g with zform := some (z, w.zplace) } }

/-- The form waits, in its place, to be performed. -/
def View.zwait (w : View) (z : Nat) : State := (w.zqueue z).hold .away

/-- A form that names one zone and ends at once. -/
def zoneOnce (w : View) (i : Instr) (m : Mask) (z : Nat) (r : ZRes) : Out :=
  if w.zbehind z then .next (w.zwait z)
  else
    match r with
    | .error e => .next (w.finishS i m w.s w.g e)
    | .ok s => w.statusOr i m s (some 0) 0

/-- A form that reads a record at an aligned address and ends at once; the zone it names. -/
def zoneForm (i : Instr) (s : State) (a : Src) (align : Nat) (zone : View → Mask → Option Nat) (f : View → Nat → Mask → ZRes) : Out :=
  issue i s fun w m =>
    let x := w.n128 a (lowest m)
    if x % align ≠ 0 then .next (w.trapHere 0x12 m (x % 2 ^ 64))
    else
      match zone w m, !w.g.storesDone || w.s.zoneQueued w.cx.zone with
      | some z, true => .next (w.zwait z)
      | none, true => .next (w.hold .away)
      | some z, false => zoneOnce w i m z (f w x m)
      | none, false =>
        match f w x m with
        | .error e => .next (w.finishS i m w.s w.g e)
        | .ok s => w.statusOr i m s (some 0) 0

/-- The zone a form names exists; 64 only where the form accepts it. -/
def State.zoneNamed (s : State) (z : Nat) (hyp : Bool) : Bool := (decide (z < 64) || (hyp && z == 64)) && (look s.zones z).isSome

/-- A step opens the zone's transition (R370). -/
def State.openZone (s : State) (z : Nat) : State := s.updZone z fun x => { x with state := .transit }

/-- A ZSHRINK of the zone runs. -/
def State.shrinking (s : State) (z : Nat) : Bool := !(s.zoneOf z).shrink.isEmpty

/-! ## Memory of a zone (R367, R375, R382) -/

def ceilDiv (a b : Nat) : Nat := (a + b - 1) / b

/-- Lines of a window for a size over n channels. -/
def winLines (size n : Nat) : Nat := ceilDiv size (2 ^ 27) * ceilDiv (2 ^ 20) (max 1 n)

/-- The size that a zone's newest map serves. -/
def Zone.fullSize (z : Zone) : Nat := z.newSize.getD z.size

/-- Windows of a map at a size. -/
def winsOf (map : List (Nat × Nat)) (size : Nat) (excl : Bool) : List Win :=
  map.map fun e => ⟨e.1, e.2 * 2 ^ 10, winLines size map.length, excl⟩

/-- Every window of a zone: the old ones, which a migration adds to as it starts, and those of the newest map. -/
def Zone.windows (z : Zone) : List Win :=
  z.oldWins ++ match z.mig with
    | some m => winsOf m.chans z.fullSize m.excl
    | none => winsOf z.chans z.fullSize z.excl

def winsMeet (a b : Win) : Bool := a.chan == b.chan && decide (a.first < b.first + b.len ∧ b.first < a.first + a.len)

/-- Zones with a window on a channel. -/
def State.onChannel (s : State) (ch : Nat) : AList Zone := s.zones.filter fun z => z.2.windows.any fun w => w.chan == ch

/-- FLOORs of the zones on channels stay within 7,200 when a zone has a FLOOR and windows on them (R382). -/
def State.floorsFit (s : State) (z floor : Nat) (chs : List Nat) : Bool :=
  chs.all fun ch => decide ((((s.onChannel ch).filter fun x => x.1 != z).map fun x => x.2.floor).sum + floor ≤ 7200)

/-- Bytes of a range of physical addresses become zero. -/
def State.zeroRange (s : State) (a n : Nat) : State := { s with mem := s.mem.filter fun c => !(decide (a ≤ c.1 ∧ c.1 < a + n)) }

/-- The migration engine starts (R375): the windows of the map in force are old ones, a smaller size takes effect at once. -/
def State.startMigration (s : State) (z : Nat) (map : List (Nat × Nat)) (size : Nat) (excl auto : Bool) : State :=
  s.updZone z fun x =>
    { x with state := .transit, mig := some { chans := map, newSize := size, oldSize := x.size, excl := excl, auto := auto }
             oldWins := x.oldWins ++ winsOf x.chans x.fullSize x.excl, newSize := some size, size := min x.size size }

/-- The lowest free BASE for a window of a length on a channel. -/
def State.freeBase (s : State) (ch lines : Nat) : Option Nat :=
  let taken := s.zones.flatMap fun z => z.2.windows.filter fun w => w.chan == ch
  ((List.range 16384).find? fun b => decide (b * 2 ^ 10 + lines ≤ 2 ^ 24) && !(taken.any (winsMeet ⟨ch, b * 2 ^ 10, lines, false⟩)))

/-- Windows for the remaining channels at a size. -/
def State.placeWins (s : State) (chs : List Nat) (size : Nat) : Option (List (Nat × Nat)) :=
  (chs.map fun ch => (s.freeBase ch (winLines size chs.length)).map fun b => (ch, b)).foldr (fun x r =>
    match x, r with
    | some e, some l => some (e :: l)
    | _, _ => none) (some [])

/-- The re-hash of R433 over the channels that are left. -/
def State.rehash (s : State) (z : Nat) (gone : List Nat) : State :=
  match look s.zones z with
  | none => s
  | some zz =>
    if zz.mig.isSome then s.updZone z fun x => { x with lostChs := dedup (x.lostChs ++ gone) }
    else
      let chs := (zz.chans.filter fun e => !gone.contains e.1).map fun e => e.1
      let sizes := (List.range (zz.fullSize / 2 ^ 21 + 1)).map fun i => zz.fullSize - zz.fullSize % 2 ^ 21 - i * 2 ^ 21
      let sizes := if zz.fullSize % 2 ^ 21 = 0 then sizes else zz.fullSize :: sizes
      let pick := if chs.isEmpty then none else sizes.findSome? fun n => (s.placeWins chs n).map fun m => (m, n)
      match pick with
      | some (m, n) => s.startMigration z m n zz.excl true
      | none => s.startMigration z [] 0 zz.excl true

/-! ## ZCREATE and ZDESTROY (R387, R388) -/

/-- Limits of the descriptor. -/
def zoneDescOk (s : State) (b : List Byte) : Bool :=
  let f := fieldOf b
  f 0 8 % 2 ^ 30 == 0 && f 8 8 % 2 ^ 27 == 0 && decide (f 0 8 + f 8 8 ≤ 2 ^ 40)
    && (if f 0x18 8 = 0 then f 0x10 8 == 0
        else s.bridge && f 0x10 8 % 2 ^ 16 == 0 && f 0x18 8 % 2 ^ 16 == 0
          && decide (0x100000000000 ≤ f 0x10 8 ∧ f 0x10 8 + f 0x18 8 ≤ 0x200000000000))
    && decide (f 0x20 4 < 2 ^ 24 ∧ f 0x20 4 ≤ f 0x24 4 ∧ f 0x24 4 < 2 ^ 24 ∧ f 0x28 2 ≤ 7200)
    && f 0x30 8 % 2 ^ 16 == 0 && ((List.range 8).all fun d => decide (f (0x38 + d) 1 < 64)) && zeroAt b [(0x2C, 4), (0x40, 64)]

/-- The zone of a descriptor (R368, R387). -/
def zoneFrom (b : List Byte) : Zone :=
  let f := fieldOf b
  { hbmbase := f 0 8, hbmmax := f 8 8, hostbase := f 0x10 8, hostsize := f 0x18 8, allow := f 0x20 4, cap := f 0x24 4, floor := f 0x28 2
    oquota := f 0x2A 2, pquota := f 0x30 8, slices := (List.range 8).foldl (fun l d => put l d [f (0x38 + d) 1]) [] }

def rangesApart (a n b m : Nat) : Bool := n == 0 || m == 0 || decide (a + n ≤ b ∨ b + m ≤ a)

/-- The device's total of private bytes: its live HBM (log entry 21). -/
def State.privTotal (s : State) : Nat := 2 ^ 31 * popcount 384 s.cap.chans

def View.zcreate (w : View) (z a : Nat) : ZRes :=
  let s := w.s
  zneed (z < 64) 1 (w.zread a 128 fun b =>
    let n := zoneFrom b
    zneed (zoneDescOk s b) 3 (zneed ((List.range 8).all fun d => s.cap.sliceLive d (fieldOf b (0x38 + d) 1)) 4
      (zneed ((look s.zones z).isNone) 6
        (zneed ((s.zones.all fun x => rangesApart n.hbmbase n.hbmmax x.2.hbmbase x.2.hbmmax && rangesApart n.hostbase n.hostsize x.2.hostbase x.2.hostsize)
            && decide ((s.zones.map fun x => x.2.oquota).sum + n.oquota ≤ 16384 ∧ (s.zones.map fun x => x.2.pquota).sum + n.pquota ≤ s.privTotal)) 9
          (.ok { s with zones := put s.zones z n })))))

def execZcreate (x : SdAB) (s : State) : Out :=
  zoneForm (.zcreate x) s x.a 128 (fun w m => some (w.n32 x.b (lowest m))) fun w a m => w.zcreate (w.n32 x.b (lowest m)) a

/-- A zone leaves a quadrant or a bank; what nobody holds is marked SCRUB. -/
def State.leaveQuad (s : State) (z q : Nat) : State :=
  s.updQuad q fun x =>
    let zs := x.zones.filter (· != z)
    { x with zones := zs, shared := x.shared && !zs.isEmpty, scrub := if zs.isEmpty then 1 else x.scrub }

def State.leaveBank (s : State) (b : Nat) : State := s.updBank b fun x => { x with owner := none, mode := 3, reqmode := 3, stage := 0, scrub := 1 }

/-- ZDESTROY's effect (R388). -/
def State.destroyZone (s : State) (z : Nat) : State :=
  let s := (s.quads.filter fun q => q.2.zones.contains z).foldl (fun s q => s.leaveQuad z q.1) s
  let s := (s.banks.filter fun b => b.2.owner == some z).foldl (fun s b => s.leaveBank b.1) s
  let s := (s.objs.filter fun o => o.2.zone == z).foldl (fun s o => s.dropObj o.1) s
  let s := s.tlbDrop fun e => e.zone == z
  let mine := fun k : Nat => k / 2 ^ 49 % 65 == z
  { s with zones := del s.zones z, homes := s.homes.filter (fun h => h.2.zn != z), l1 := s.l1.filter (fun c => !mine c.1)
           l2 := s.l2.filter (fun c => !mine c.1), rcopies := s.rcopies.filter (fun c => !mine c.1)
           bases := s.bases.filter fun b => b.1 % 65 != z }

def execZdestroy (x : SdZ) (s : State) : Out :=
  issue (.zdestroy x) s fun w m =>
    let z := w.n32 x.z (lowest m)
    let busy := w.s.ctxs.any (fun c => c.1 < 4096 && c.2.zone == z) || (w.s.zoneOf z).slots.any (fun k => (look w.s.slots k).isSome)
      || w.s.graphs.any fun g => ((look w.s.ctxs g.2.ctx).map fun c : Ctx => c.zone) == some z
    zoneOnce w (.zdestroy x) m z (zneed (w.s.zoneNamed z false) 1 (zneed ((w.s.zoneOf z).state == .ready) 6 (zneed (!busy) 8 (.ok (w.s.destroyZone z)))))

/-! ## Resource lists (R389) -/

/-- The entries of a list that a form accepts; none when one is malformed. -/
def listOk (es : List Nat) (kinds : List Nat) (mode : Bool) : Bool :=
  es.all (fun e =>
    let k := entKind e
    kinds.contains k && bitsOf e 48 11 == 0 && (k == 1 || !e.testBit 59)
      && (match k with
        | 1 => bitsOf e 12 36 == 0
        | 2 => bitsOf e 18 30 == 0 && decide (entBank e < 40960) && (mode || bitsOf e 16 2 == 0)
        | 3 => bitsOf e 6 42 == 0
        | 4 => bitsOf e 15 33 == 0
        | _ => true))
    && ((es.map fun e => if entKind e = 1 then e % 2 ^ 12 + 2 ^ 60 else if entKind e = 2 then e % 2 ^ 16 + 2 ^ 61
          else if entKind e = 3 then e % 64 + 2 ^ 62 else entKind e).Nodup : Bool)

/-- The list of a form: a COUNT outside its limits leaves no entry to read. -/
def View.zlist (w : View) (a : Nat) (k : List Nat → ZRes) : ZRes :=
  w.zread a 16 fun h =>
    let n := fieldOf h 0 4
    if n = 0 ∨ 8192 < n then .error 3
    else w.zread a (16 + 8 * n) fun bs =>
      zneed (fieldOf h 4 12 == 0) 3 (k ((List.range n).map fun i => fieldOf bs (16 + 8 * i) 8))

/-- Named quadrants and banks are on live cores. -/
def State.entLive (s : State) (e : Nat) : Bool :=
  match entKind e with
  | 1 => s.cap.coreLive (entNum e / 4)
  | 2 => s.cap.coreLive (entBank e / 40)
  | _ => true

/-! ## ZGROW -/

/-- A quadrant held exclusively, a bank or a slot held, by another zone. -/
def State.entBusy (s : State) (z e : Nat) : Bool :=
  match entKind e with
  | 1 =>
    let q := s.quadOf (entNum e)
    !q.shared && q.zones.any (· != z)
  | 2 => match (s.bank (entBank e)).owner with
    | some o => o != z
    | none => false
  | 3 => s.zones.any fun x => x.1 != z && x.2.slots.contains (e % 64)
  | _ => false

def State.entDirty (s : State) (e : Nat) : Bool :=
  match entKind e with
  | 1 => (s.quadOf (entNum e)).scrub == 1
  | 2 => (s.bank (entBank e)).scrub == 1
  | _ => false

/-- A quadrant wanted exclusively that other zones share, or shared by 8 already (R363), or a quota above the device's total. -/
def State.entNoRoom (s : State) (z e : Nat) : Bool :=
  match entKind e with
  | 1 =>
    let q := s.quadOf (entNum e)
    let others := q.zones.filter (· != z)
    !others.isEmpty && (!e.testBit 59 || decide (8 ≤ others.length))
  | 4 => decide (16384 < ((s.zones.filter fun x => x.1 != z).map fun x => x.2.oquota).sum + bitsOf e 0 15)
  | 5 => decide (s.privTotal < ((s.zones.filter fun x => x.1 != z).map fun x => x.2.pquota).sum + 2 ^ 16 * bitsOf e 0 48)
  | _ => false

/-- A grant's effect. -/
def State.grantEnt (s : State) (z e : Nat) : State :=
  match entKind e with
  | 1 => s.updQuad (entNum e) fun q => { q with zones := if q.zones.contains z then q.zones else q.zones ++ [z], shared := e.testBit 59 }
  | 2 => s.updBank (entBank e) fun b => { b with owner := some z }.request (BitVec.ofNat 2 (bitsOf e 16 2))
  | 3 => s.updZone z fun x => { x with slots := if x.slots.contains (e % 64) then x.slots else x.slots ++ [e % 64] }
  | 4 => s.updZone z fun x => { x with oquota := bitsOf e 0 15 }
  | _ => s.updZone z fun x => { x with pquota := 2 ^ 16 * bitsOf e 0 48 }

/-- ZGROW accepts quotas only to raise them, ZSHRINK only to lower them. -/
def Zone.raises (z : Zone) (up : Bool) (e : Nat) : Bool :=
  let ok := fun old new : Nat => if up then decide (old ≤ new) else decide (new ≤ old)
  match entKind e with
  | 4 => ok z.oquota (bitsOf e 0 15)
  | 5 => ok z.pquota (2 ^ 16 * bitsOf e 0 48)
  | _ => true

def View.zgrow (w : View) (z a : Nat) : ZRes :=
  let s := w.s
  zneed (s.zoneNamed z true) 1 (w.zlist a fun es =>
    zneed (listOk es (if z = 64 then [1, 2] else [1, 2, 3, 4, 5]) true && es.all ((s.zoneOf z).raises true)) 3
      (zneed (es.all s.entLive) 4 (zneed (!s.shrinking z && !es.any (s.entBusy z)) 6 (zneed (!es.any s.entDirty) 7
        (zneed (!es.any (s.entNoRoom z)) 9 (.ok (es.foldl (fun s e => s.grantEnt z e) (s.openZone z))))))))

def execZgrow (x : SdAB) (s : State) : Out := zoneForm (.zgrow x) s x.a 64 (fun w m => some (w.n32 x.b (lowest m))) fun w a m => w.zgrow (w.n32 x.b (lowest m)) a

/-! ## ZSHRINK (R372) -/

def State.entHeld (s : State) (z e : Nat) : Bool :=
  match entKind e with
  | 1 => (s.quadOf (entNum e)).zones.contains z
  | 2 => (s.bank (entBank e)).owner == some z
  | 3 => (s.zoneOf z).slots.contains (e % 64)
  | _ => true

/-- Private bytes of a zone in use. -/
def State.privUsed (s : State) (z : Nat) : Nat := (s.ctxs.map fun c => if c.2.zone = z then s.privNeed c.1 else 0).sum

/-- A lowered quota covers what is in use. -/
def State.entInUse (s : State) (z e : Nat) : Bool :=
  match entKind e with
  | 4 => decide (bitsOf e 0 15 < (s.objs.filter fun o => o.2.zone == z).length)
  | 5 => decide (2 ^ 16 * bitsOf e 0 48 < s.privUsed z)
  | _ => false

/-- A team has something on the departing resources. -/
def State.teamAffected (s : State) (z : Nat) (es : List Nat) (t : Nat × Team) : Bool :=
  ((look s.ctxs t.2.ctx).map fun c : Ctx => c.zone) == some z && t.2.run != .spilled && t.2.run != .saved &&
    es.any fun e => match entKind e with
      | 1 => s.groups.any fun g => g.2.team == t.1 && g.2.quad == entNum e
      | 2 => decide (0 < s.partsOf t (entBank e))
        || s.groups.any fun g => g.2.team == t.1 && g.2.queues.any fun q => (q.2.chan.map fun c : Nat × Bool => c.1) == some (entBank e)
      | _ => false

/-- The largest DRAIN of the contexts with teams on departing resources, in cycles (R371). -/
def State.shrinkDrain (s : State) (z : Nat) (es : List Nat) : Nat :=
  (s.teams.filter (s.teamAffected z es)).foldl (fun m t => max m (s.drainCycles t.2)) 0

def View.zshrink (w : View) (z a : Nat) : ZRes :=
  let s := w.s
  zneed (s.zoneNamed z true) 1 (w.zlist a fun es =>
    zneed (listOk es (if z = 64 then [1, 2] else [1, 2, 3, 4, 5]) false && es.all ((s.zoneOf z).raises false)) 3
      (zneed (es.all s.entLive) 4 (zneed (es.all (s.entHeld z)) 5 (zneed (!s.shrinking z) 6 (zneed (!es.any (s.entInUse z)) 8
        (.ok (let s := (s.openZone z).updZone z fun x =>
                { x with shrink := es, shrinkAt := s.cycle, shrinkBy := w.u, shrinkMax := s.shrinkDrain z es }
              s.teams.foldl (fun s t => if s.teamAffected z es t then s.askStop t.1 (s.cycle + s.drainCycles t.2) else s) s)))))))

/-- ZSHRINK holds its group until the departure ends (R372). -/
def execZshrink (x : SdAB) (s : State) : Out :=
  issue (.zshrink x) s fun w m =>
    let i := Instr.zshrink x
    let a := w.n128 x.a (lowest m)
    let z := w.n32 x.b (lowest m)
    match w.g.begun with
    | some _ =>
      let st := look (w.s.zoneOf z).shrunk w.u
      w.statusOr i m (w.s.updZone z fun x => { x with shrunk := del x.shrunk w.u }) st z
    | none =>
      if a % 64 ≠ 0 then .next (w.trapHere 0x12 m (a % 2 ^ 64))
      else if !w.g.storesDone || w.s.zoneQueued w.cx.zone || w.zbehind z then .next (w.zwait z)
      else
        match w.zshrink z a with
        | .error e => .next (w.finishS i m w.s w.g e)
        | .ok s => w.statusOr i m (s.updGroup w.u fun g => { g with zform := none }) none z

/-- A departing slot is unmapped; packets not read are announced again (R372). -/
def State.departSlot (s : State) (k : Nat) : State :=
  match look s.slots k with
  | none => s
  | some x =>
    let s := s.unmap x.queue
    if x.wridx = x.rdidx then s
    else (s.updQd x.queue fun e => { e with pending := true }).raise (s.qd x.queue).zone { code := 0x01, arg := x.queue }

/-- The departing resources leave the zone. -/
def State.departEnt (s : State) (z e : Nat) : State :=
  match entKind e with
  | 1 => s.leaveQuad z (entNum e)
  | 2 => s.leaveBank (entBank e)
  | 3 => (s.departSlot (e % 64)).updZone z fun x => { x with slots := x.slots.filter (· != e % 64) }
  | 4 => s.updZone z fun x => { x with oquota := bitsOf e 0 15 }
  | _ => s.updZone z fun x => { x with pquota := 2 ^ 16 * bitsOf e 0 48 }

/-- The bound of R371 in cycles: DMAX as the ZSHRINK started, and 50 µs. -/
def Zone.shrinkBound (z : Zone) : Nat := z.shrinkMax + 125000

/-- A ZSHRINK ends with a status for its group. -/
def Zone.shrinkDone (st : Nat) (z : Zone) : Zone := { z with shrink := [], shrunk := put z.shrunk z.shrinkBy st }

/-- DEPARTURE_END (R372): once the teams have moved the banks go to IDLE, then everything leaves; past its bound the form
gives NOROOM, the zone keeps what it has and the teams that have not moved run on. -/
def execDepartureEnd (z : Nat) (s : State) : Out :=
  match look s.zones z with
  | none => .next s
  | some zz =>
    let es := zz.shrink
    if es.isEmpty then .next s
    else if s.teams.any (s.teamAffected z es) then
      if zz.shrinkAt + zz.shrinkBound < s.cycle then
        let s := (s.teams.filter fun t => s.teamAffected z es t && !((look s.ctxs t.2.ctx).any fun c => c.saver.isSome)).foldl
          (fun s t => s.resumeTeam t.1) s
        .next (s.updZone z (Zone.shrinkDone 9))
      else .next s
    else
      let banks := (es.filter fun e => entKind e == 2).map entBank
      if banks.all fun b => (s.bank b).mode == 3 && (s.bank b).stage == 0 then
        .next ((es.foldl (fun s e => s.departEnt z e) s).updZone z (Zone.shrinkDone 0))
      else .next (banks.foldl (fun s b => if (s.bank b).reqmode = 3 then s else s.updBank b fun x => x.request 3) s)

/-! ## ZSLICES (R374, R390) -/

def View.zslices (w : View) (z d a : Nat) : ZRes :=
  let s := w.s
  zneed (s.zoneNamed z true) 1 (w.zread a 128 fun b =>
    let n := fieldOf b 0 1
    let map := (List.range n).map fun i => fieldOf b (64 + i) 1
    zneed (decide (1 ≤ n ∧ n ≤ 64) && fieldOf b 1 63 == 0 && map.all (fun x => decide (x < 64)) && decide map.Nodup
        && fieldOf b (64 + n) (64 - n) == 0) 3
      (zneed (map.all (s.cap.sliceLive d)) 4
        (zneed (!s.shrinking z && (look (s.zoneOf z).newMaps d).isNone) 6
          (if rget [] (s.zoneOf z).slices d = map then .ok s
           else
             let homes := (dedup (rget [] (s.zoneOf z).slices d ++ map)).map fun n => 4 + 64 * d + n
             .ok (s.updZone z fun x =>
               let top := homes.foldl (fun t h => max t (rget 0 x.mts h)) 0
               { x with state := .transit, newMaps := put x.newMaps d map
                        mts := map.foldl (fun l n => rput 0 l (4 + 64 * d + n) top) x.mts })))))

def execZslices (x : Zslices) (s : State) : Out :=
  zoneForm (.zslices x) s x.a 64 (fun w m => some (w.n32 x.z (lowest m))) fun w a m => w.zslices (w.n32 x.z (lowest m)) x.dist.toNat a

/-- A home of a district is at the slice that the new map gives its line: it moves there as for an access (R374). -/
def State.moveHome (s : State) (z d key : Nat) : State :=
  s.moveHere z (4 + 64 * d + (s.zoneOf z).slice d (paLocal (key * 128))) key

/-- A line that now maps elsewhere moves, its copies in the old slice go. -/
def State.sweepLine (s : State) (z d line : Nat) : State :=
  let zz := s.zoneOf z
  let a := paLocal (line * 128)
  let old := (rget [] zz.slices d).getD (swizzle (a / 128 % 2 ^ 33) % max 1 (rget [] zz.slices d).length) 0
  let s := match look s.homes line with
    | some h => if h.zn = z ∧ 4 + 64 * d ≤ h.at_ ∧ h.at_ < 4 + 64 * (d + 1) then s.moveHome z d line else s
    | none => s
  let key := keyAt (sliceLoc d old) z line
  if old = zz.slice d a then s else { s with l2 := del s.l2 key, rcopies := del s.rcopies key }

/-- SWEEP_VISIT (R374); a rollover pauses it, as it does the end of the sweep and the migration engine (R378). -/
def execSweepVisit (z d line : Nat) (s : State) : Out :=
  if (look (s.zoneOf z).newMaps d).isSome && !s.rollDue z then .next (s.sweepLine z d line) else .next s

/-- The key is of a copy that a zone holds in a slice of a district. -/
def sliceKey (d z key : Nat) : Bool := decide (sliceLoc d 0 ≤ keyLoc key / 65 ∧ keyLoc key / 65 < sliceLoc d 64) && keyLoc key % 65 == z

/-- SWEEP_END (R374). -/
def execSweepEnd (z d : Nat) (s : State) : Out :=
  match look (s.zoneOf z).newMaps d with
  | none => .next s
  | some map =>
    if s.rollDue z then .next s
    else
    let lines := dedup ((s.homes.map fun h => h.1) ++ 
      ((s.l2.map fun c => c.1) ++ s.rcopies.map fun c => c.1).filterMap fun k => if sliceKey d z k then some (k % 2 ^ 49) else none)
    let s := lines.foldl (fun s l => s.sweepLine z d l) s
    let gone := (rget [] (s.zoneOf z).slices d).filter fun n => !map.contains n
    .next (s.updZone z fun x =>
      { x with slices := put x.slices d map, newMaps := del x.newMaps d
               ways := x.ways.filter (fun w => !(gone.any fun n => w.1 == 4 + 64 * d + n)) })

/-! ## ZWAYS (R391) -/

def View.zways (w : View) (z cache m : Nat) (live : Bool) : ZRes :=
  let s := w.s
  let others := fun x : Nat × Zone => rget 0 x.2.ways cache ||| rget 0 x.2.leaving cache
  zneed (s.zoneNamed z true) 1 (zneed (m < 2 ^ 16) 3 (zneed live 4
    (zneed (!s.shrinking z && !(s.zones.any fun x => x.1 != z && (others x &&& m) != 0)) 6
      (.ok (s.updZone z fun x =>
        let old := rget 0 x.ways cache
        let gone := (old ||| rget 0 x.leaving cache) &&& (2 ^ 16 - 1 - m)
        { x with state := .transit, ways := rput 0 x.ways cache m, leaving := rput 0 x.leaving cache gone })))))

/-- ZWAYS holds its group until every removed way is free. -/
def waysForm (i : Instr) (s : State) (z m : Src) (cache : Nat) (live : State → Bool) : Out :=
  issue i s fun w mk =>
    let zn := w.n32 z (lowest mk)
    let done := fun s : State => if rget 0 (s.zoneOf zn).leaving cache = 0 then some 0 else none
    match w.g.begun with
    | some _ => w.statusOr i mk w.s (done w.s) zn
    | none =>
      if w.zbehind zn then .next (w.zwait zn) else
      match w.zways zn cache (w.n64 m (lowest mk)) (live w.s) with
      | .error e => .next (w.finishS i mk w.s w.g e)
      | .ok s => w.statusOr i mk (s.updGroup w.u fun g => { g with zform := none }) (done s) zn

def execZwaysL2 (x : ZwaysL2) (s : State) : Out :=
  waysForm (.zwaysL2 x) s x.z x.m (4 + 64 * x.dist.toNat + x.slice.toNat) fun s => s.cap.sliceLive x.dist.toNat x.slice.toNat
def execZwaysVault (x : ZwaysVault) (s : State) : Out :=
  waysForm (.zwaysVault x) s x.z x.m x.v.toNat fun s => s.chipActive (8 + x.v.toNat)

/-! ## ZCHAN (R375, R392) -/

def View.zchan (w : View) (z a : Nat) : ZRes :=
  let s := w.s
  zneed (s.zoneNamed z true) 1 (w.zread a 64 fun h =>
    let size := fieldOf h 0 8
    let n := fieldOf h 8 2
    let zz := s.zoneOf z
    if n = 0 ∨ 384 < n then .error 3
    else w.zread a (64 + 4 * n) fun bs =>
      let es := (List.range n).map fun i => fieldOf bs (64 + 4 * i) 4
      let map := es.map fun e => (e % 2 ^ 9, bitsOf e 18 14)
      let excl := (fieldOf h 0x0A 1).testBit 0
      let wins := winsOf map size excl
      let taken := s.zones.flatMap fun x => x.2.windows
      let others := (s.zones.filter fun x => x.1 != z).flatMap fun x => x.2.windows
      zneed (size % 2 ^ 21 == 0 && decide (size ≤ zz.hbmmax) && decide (fieldOf h 0x0A 1 < 2) && fieldOf h 0x0B 53 == 0 && es.all (fun e => bitsOf e 9 9 == 0 && decide (e % 2 ^ 9 < 384)) && decide (map.map fun e => e.1).Nodup) 3
        (zneed (map.all fun e => s.cap.chanLive e.1) 4
          (zneed (!s.shrinking z && zz.mig.isNone) 6
            (zneed (wins.all (fun x => decide (x.first + x.len ≤ 2 ^ 24) && !(taken.any (winsMeet x)))
                && map.all (fun e => !others.any fun x => x.chan == e.1 && (excl || x.excl))
                && s.floorsFit z zz.floor (map.map fun e => e.1)) 9
              (.ok (s.startMigration z map size excl false))))))

def execZchan (x : SdAB) (s : State) : Out := zoneForm (.zchan x) s x.a 64 (fun w m => some (w.n32 x.b (lowest m))) fun w a m => w.zchan (w.n32 x.b (lowest m)) a

/-- A line's data are gone (R433): what a load of it gives beside its mark is a free value. -/
def State.poisonLine (s : State) (zn line : Nat) : State :=
  let s := { s with badLines := dedup (line :: s.badLines), health := { s.health with lost := true }, nfree := s.nfree + 128
                    mem := writeBytes s.mem (paLocal (line * 128)) ((List.range 128).map fun i => Config.freeByte (s.nfree + i)) }
  s.logError 7 none 0xFFFF zn (paLocal (line * 128))

/-- Coins of the migration engine on a channel: the hypervisor's (R375). -/
def State.chargeEngine (s : State) (ch n : Nat) : State :=
  s.updZone 64 fun z => { z with bal := z.bal - n, used := rput 0 z.used ch (rget 0 z.used ch + n) }

/-- Lines that a migration has still to pass. -/
def Migration.lines (m : Migration) : Nat := max m.oldSize m.newSize / 128

/-- A write to a line of the batch waits in its channel's queue, which has accepted it (R375). -/
def State.batchWrites (s : State) (zz : Zone) (m : Migration) : Bool :=
  let first := s.ownPa zz.hbmbase / 128 + m.wm
  s.chanq.any fun r => match r.src with
    | .fly u fid => match look s.groups u with
      | some g => g.fly.any fun f => f.fid == fid && f.done.isNone && decide (first ≤ f.line ∧ f.line < first + min 32 (m.lines - m.wm))
      | none => false
    | .post _ _ line _ => decide (first ≤ line ∧ line < first + min 32 (m.lines - m.wm))
    | .line .. | .copy _ => false

/-- What a batch of 32 lines takes with it (R375): lines past the old size are zeroed, unreadable ones are poisoned (R433), homes
and timestamps pass to the new vault. -/
def State.moveBatch (s : State) (z : Nat) (zz : Zone) (m : Migration) : State :=
  let base := s.ownPa zz.hbmbase / 128
  let n := m.lines - m.wm
  let lines := (List.range (min 32 n)).map fun i => m.wm + i
  let past := lines.filter fun l => decide (m.oldSize ≤ l * 128)
  let s := if past.isEmpty then s else s.zeroRange (zz.hbmbase + past.headD 0 * 128) (128 * past.length)
  let s := lines.foldl (fun s l =>
    let pl := zz.hbmbase + l * 128
    let s := if m.oldSize ≤ l * 128 then s
      else
        if !s.badLine (base + l) && (zz.chans.isEmpty || s.chipActive (8 + (zz.place pl).1 / 96)) then s
          else s.poisonLine z (base + l)
    let from_ := (zz.place pl).1
    let to_ := ({ zz with mig := some { m with wm := l + 1 } }.place pl).1
    let s := if m.chans.isEmpty then s else s.chargeEngine to_ 2
    let s := if m.oldSize ≤ l * 128 ∨ zz.chans.isEmpty then s else s.chargeEngine from_ 2
    let old := from_ / 96
    let new := to_ / 96
    if old = new then s
    else
      let s := s.updZone z fun x =>
        { x with mts := rput 0 x.mts new (max (rget 0 x.mts new) (rget 0 x.mts old))
                 expfloor := rput 0 x.expfloor new (max (rget 0 x.expfloor new) (rget 0 x.expfloor old)) }
      match look s.homes (base + l) with
      | some h =>
        if h.zn = z ∧ h.at_ = old then s.putHome z new (base + l) (h.eff (s.baseOf (homeLoc old) z)) else s
      | none => s) s
  s.updZone z fun x => { x with mig := some { m with wm := m.wm + 32 } }

/-- The migration's end: the new map is the map. -/
def State.endMigration (s : State) (z : Nat) (zz : Zone) (m : Migration) : State :=
  let s := s.updZone z fun x =>
    { x with chans := m.chans, excl := m.excl, mig := none, commit := x.commit || m.auto }
  if zz.lostChs.isEmpty then s else (s.updZone z fun x => { x with lostChs := [] }).rehash z zz.lostChs

/-- MIGRATION_BATCH (R375). -/
def execMigrationBatch (z : Nat) (s : State) : Out :=
  match look s.zones z with
  | none => .next s
  | some zz =>
    match zz.mig with
    | none => .next s
    | some m =>
      if s.rollDue z || s.batchWrites zz m then .next s
      else if m.lines ≤ m.wm then .next (s.endMigration z zz m) else .next (s.moveBatch z zz m)

/-! ## ZCOINS, ZSCRUB, ZCOMMIT, ZQUERY (R373, R376, R393 to R395) -/

def execZcoins (x : SdAB) (s : State) : Out :=
  issue (.zcoins x) s fun w m =>
    let i := Instr.zcoins x
    let z := w.n32 x.b (lowest m)
    let c := w.n64 x.a (lowest m)
    let zz := w.s.zoneOf z
    let r : ZRes := zneed (w.s.zoneNamed z false) 1 (zneed (decide (c % 2 ^ 24 ≤ bitsOf c 24 24 ∧ c / 2 ^ 48 ≤ 7200)) 3
      (zneed (w.s.floorsFit z (c / 2 ^ 48) (dedup (zz.windows.map fun x => x.chan))) 9
        (.ok (w.s.updZone z fun x =>
          { x with allow := c % 2 ^ 24, cap := bitsOf c 24 24, floor := c / 2 ^ 48, oldCoin := some (x.oldCoin.getD (x.allow, x.cap, x.floor)) }))))
    zoneOnce w i m z r

def View.zscrub (w : View) (a : Nat) : ZRes :=
  let s := w.s
  w.zlist a fun es =>
    zneed (listOk es [1, 2] false) 3 (zneed (es.all s.entLive) 4
      (zneed (es.all fun e => if entKind e = 1 then s.freeQuad (entNum e) else s.freeBank (entBank e)) 5
        (.ok (es.foldl (fun s e => if entKind e = 1 then s.startScrub false (entNum e) else s.startScrub true (entBank e)) s))))

def execZscrub (x : SdA) (s : State) : Out := zoneForm (.zscrub x) s x.a 64 (fun _ _ => none) fun w a _ => w.zscrub a

/-- Every step of the transition has ended. -/
def Zone.settled (z : Zone) : Bool := z.shrink.isEmpty && z.leaving.isEmpty && z.newMaps.isEmpty && z.mig.isNone

/-- The generation changes and the clerk hears of it (R376, R434). -/
def State.announce (s : State) (z : Nat) : State :=
  { s with capgen := s.capgen + 1 }.raise z { code := 0x07, data := s.capgen + 1 }

/-- ZONE_COMMIT (R376): the commit that a ZCOMMIT or a lost channel's re-hash waits for. Of several ZCOMMITs that wait the first commits
and finds the zone in transit; the others follow in the order of issue and find it READY (R370). -/
def execZoneCommit (z : Nat) (s : State) : Out :=
  match look s.zones z with
  | none => .next s
  | some zz =>
    if (zz.commit || !zz.commits.isEmpty) && zz.settled then
      let s := (s.updZone z fun x =>
        { x with oldWins := [], size := x.newSize.getD x.size, newSize := none, state := .ready, commit := false, commits := [] }).announce z
      .next ((zz.commits.drop (if zz.commit then 0 else 1)).foldl (fun s _ => s.announce z) s)
    else .next s

def execZcommit (x : SdZ) (s : State) : Out :=
  issue (.zcommit x) s fun w m =>
    let i := Instr.zcommit x
    let z := w.n32 x.z (lowest m)
    match w.g.begun with
    | some _ => w.statusOr i m w.s (if (w.s.zoneOf z).commits.contains w.u then none else some 0) z
    | none =>
      if w.zbehind z then .next (w.zwait z)
      else if !w.s.zoneNamed z true then .next (w.finishS i m w.s w.g 1)
      else if (w.s.zoneOf z).state == .ready then w.statusOr i m (w.s.announce z) (some 0) z
      else
        let q := w.zqueue z
        w.statusOr i m ((q.s.setGroup w.u q.g).updZone z fun x => { x with commits := x.commits ++ [w.u] }) none z

/-- ZQUERY's value (R395). -/
def State.zoneQuery (s : State) (z : Nat) (zz : Zone) (sel d : Nat) : Nat :=
  match sel with
  | 0 => (if zz.state = .ready then 1 else 2) + 2 ^ 32 * s.capgen
  | 1 =>
    let qs := s.quads.filter fun q => q.2.zones.contains z
    qs.length + 2 ^ 16 * (qs.filter fun q => q.2.shared).length + 2 ^ 32 * (s.banks.filter fun b => b.2.owner == some z).length
  | 2 =>
    let new := look zz.newMaps d
    (rget [] zz.slices d).length + 2 ^ 8 * ((new.map List.length).getD 0) + if new.isSome then 2 ^ 16 else 0
  | 3 => zz.chans.length + match zz.mig with
    | some m => 2 ^ 9 * m.chans.length + 2 ^ 24 * m.wm
    | none => 0
  | 4 => zz.size
  | 5 => zz.allow + 2 ^ 24 * zz.cap + 2 ^ 48 * zz.floor
  | 6 => wrap 64 zz.bal
  | 7 => zz.oquota + 2 ^ 16 * (s.objs.filter fun o => o.2.zone == z).length
  | 8 => zz.pquota
  | _ => (zz.slots.map fun k => 2 ^ k).sum

def execZquery (x : Zquery) (s : State) : Out :=
  issue (.zquery x) s fun w m =>
    let z := w.n32 x.z (lowest m)
    let v := match look w.s.zones z with
      | some zz => if w.cx.mayAct z then w.s.zoneQuery z zz x.sel.toNat x.dist.toNat else 2 ^ 64 - 1
      | none => 2 ^ 64 - 1
    if w.zbehind z then .next (w.zwait z) else .next (w.finishS (.zquery x) m w.s w.g v)

/-! ## CAPQ (R396) -/

/-- CAPQ: the record of one generation enters the store buffer as two relaxed stores. -/
def execCapq (x : SdA) (s : State) : Out :=
  issue (.capq x) s fun w m =>
    let i := Instr.capq x
    let t0 := lowest m
    w.access i.uses m 256 .store (fun _ => w.wideAddr (w.n128 x.a t0) 0 256 false true) fun accs =>
      if accs.any fun a => a.pcs.any fun p => !w.s.isRemote (lineOf p.pa) && isRegLine (lineOf p.pa) then
        .next (w.trapHere 0x11 m (w.n128 x.a t0 % 2 ^ 64))
      else
        w.raced i.uses m accs true fun w =>
          if 15 ≤ w.g.sbuf.length then .next (w.hold .again)
          else
            let w := w.clean accs
            let rec_ := w.s.capRecord
            let ps := accs.flatMap fun a : ThreadAcc => a.pcs
            let va : VA := BitVec.ofNat 72 (w.n128 x.a t0)
            let entry := fun k : Nat => ({ id := w.g.seq + k, sem := .rlx, scope := .dev
                                           parts := (List.range 8).filterMap fun j => (ps[k]?).map fun p =>
                                             { va := va + BitVec.ofNat 72 (128 * k + 16 * j), thr := t0, pa := p.pa + 16 * j, n := 16, leaf := p.leaf
                                               op := .store ((rec_.drop (128 * k + 16 * j)).take 16) } } : SEntry)
            let g := { w.g with seq := w.g.seq + 2, sbuf := w.g.sbuf ++ [entry 0, entry 1] }
            .next (w.finishS i m w.s g w.s.capgen)

end Sys2Proof.Machine
end

