-- ==== Sys2Proof/Machine/Device.lean ====
section
/-!
DEFINITION. Fencing and reset of chiplets, cores and channels (R294, R430 to R433), the health register (R435), power and leave
(R437, R438), bring-up (R439, R455, R456), attestation (R442).
-/

namespace Sys2Proof.Machine

/-- Bits of m leave n. -/
def clearBits (n m : Nat) : Nat := n ^^^ (n &&& m)

/-! ## Lost clusters (R294) -/

/-- The copies of a team's inputs start from the beginning. -/
def State.restartCopies (s : State) (tk : Nat) (k : Kern) : State :=
  match look s.teams tk with
  | none => s
  | some tm =>
    let tm := { tm with inputs := tm.inputs.map fun i => (i.1, none), scratch := [], stamps := [], scrbad := [] }
    let gone := (s.copies.filter fun c => c.2.team == tk).map fun c => c.1
    { s with teams := put s.teams tk tm, copies := s.copies.filter fun c => c.2.team != tk
             rout := s.rout.filter fun r => match r.2.src with
               | .copy c => !gone.contains c
               | _ => true }.addCopies tk tm k

/-- The marks of a node are withdrawn: copies that they started begin again. -/
def State.withdrawMarks (s : State) (gr nd : Nat) : State :=
  match look s.graphs gr with
  | none => s
  | some g =>
    (List.range g.nodes.length).foldl (fun s y =>
      let x := g.node y
      match x.kern with
      | some k =>
        if x.st == .ready && !x.live && x.count != 0 && (g.preds y).contains nd && !x.from_.contains nd then
          (s.teamsOf gr y).foldl (fun s t => s.restartCopies t.1 k) s
        else s
      | none => s) s

/-- A cluster is lost: its teams are gone; its node places it again under its CLID, or fails with CHIPLET, at once when it is not dispatched. -/
def State.loseCluster (s : State) (c : Nat) : State :=
  let ts := s.teams.filter fun t => t.2.cluster == c && t.2.run != .saved
  let s' := ts.foldl (fun s t => ((s.dropFaults t.1).dropPromos t.1).freeTeam t.1) s
  match ts with
  | [] => s
  | (_, tm) :: _ =>
    if !tm.task then s'
    else
      match look s.graphs tm.graph with
      | none => s'
      | some g =>
        if (g.node tm.node).rerun then
          (s'.updGraph tm.graph fun g => g.setNode tm.node fun x =>
            { x with again := x.again.filter (· < tm.clid) ++ tm.clid :: x.again.filter (tm.clid < ·) }).withdrawMarks tm.graph tm.node
        else if (g.node tm.node).live then s'.nodeStatus tm.graph tm.node 0x0201
        else (s'.freeNode tm.graph tm.node (g.node tm.node)).retireNode tm.graph tm.node 0x0201 fun _ => false

/-- The clusters with a team on a lost core. -/
def State.loseTeams (s : State) (p : Nat → Bool) : State :=
  let hit := s.teams.filter fun t => t.2.run != .spilled && t.2.run != .saved && p t.2.core
  (dedup (hit.map fun t => t.2.cluster)).foldl State.loseCluster s

/-! ## Resources that leave every zone (R431, R432) -/

/-- Entries of an open ZSHRINK that are lost leave it (R378). -/
def Zone.dropEnts (z : Zone) (q : Nat → Bool) : Zone :=
  let es := z.shrink.filter fun e => !q e
  if !z.shrink.isEmpty && es.isEmpty then z.shrinkDone 0 else { z with shrink := es }

def freshQuad : Quad := { scrub := 1 }
def freshBank : Bank := { mode := 3, reqmode := 3, scrub := 1 }

/-- Cores are lost with what they hold. -/
def State.loseCores (s : State) (p : Nat → Bool) : State :=
  let s := s.loseTeams p
  let ent := fun e : Nat => (entKind e == 1 && p (entNum e / 4)) || (entKind e == 2 && p (entBank e / 40))
  { s with quads := mapVals s.quads fun k q => if p (k / 4) then freshQuad else q
           banks := mapVals s.banks fun k b => if p (k / 40) then freshBank else b
           l1 := s.l1.filter fun c => !p (c.1 / 2 ^ 49 / 65)
           tlb1 := s.tlb1.filter fun e => !p e.loc
           zones := mapVals s.zones fun _ z => z.dropEnts ent }

/-- Zones with a quadrant or bank on the cores. -/
def State.coreLosers (s : State) (p : Nat → Bool) (z : Nat) : Bool :=
  s.quads.any (fun q => p (q.1 / 4) && q.2.zones.contains z) || s.banks.any fun b => p (b.1 / 40) && b.2.owner == some z

/-- Caches that are lost: their ways leave every zone; homes there enter MTS. -/
def State.loseCaches (s : State) (p : Nat → Bool) : State :=
  let s := (s.homes.filter fun h => p h.2.at_).foldl (fun s h => s.evictHome h.1) s
  { s with zones := mapVals s.zones fun _ z =>
      { z with ways := z.ways.filter (fun w => !p w.1), leaving := z.leaving.filter fun w => !p w.1 } }

def slicesOf (d cache : Nat) : Bool := decide (4 + 64 * d ≤ cache ∧ cache < 4 + 64 * (d + 1))

/-- The key is of a copy in a slice of a district. -/
def inDistrict (d key : Nat) : Bool := decide (sliceLoc d 0 ≤ keyLoc key / 65 ∧ keyLoc key / 65 < sliceLoc d 64)

/-- A copy that a unit of its path cannot serve any more ends with REMOTE (R296, R414, R431). -/
def TCopy.cut (c : TCopy) : TCopy := { c with status := some (c.status.getD 0x0304), serving := false }

/-- A district's chiplet stops: the lines that its slices had not written back are poisoned, those of an object tile with the line that
names them (R232), its trams' copies end (R431, R433). -/
def State.loseDistrict (s : State) (d : Nat) : State :=
  let dirty := s.homes.filter fun h => slicesOf d h.2.at_ && h.2.dirty
  let s := dirty.foldl (fun s h => (s.coLines h.2.zn h.1).foldl (fun s l => s.poisonLine h.2.zn l) s) s
  let s := { s with copies := mapVals s.copies fun _ c => if ((look s.teams c.team).map Team.district) = some d then c.cut else c }
  let s := (s.loseCores fun c => c / 128 == d).loseCaches (slicesOf d)
  { s with zones := mapVals s.zones fun _ z => { z with slices := put z.slices d [], newMaps := del z.newMaps d }
           l2 := s.l2.filter fun c => !inDistrict d c.1
           rcopies := s.rcopies.filter fun c => !inDistrict d c.1
           tlb2 := s.tlb2.filter fun e => e.loc != d
           govs := del s.govs d
           cap := { s.cap with cores := rput 0 s.cap.cores d 0, slices := rput 0 s.cap.slices d 0 } }

/-- Channels are lost or retired: every zone with a window there is hashed anew (R433). -/
def State.loseChans (s : State) (chs : List Nat) (readable : Bool) : State :=
  let hit := (s.zones.filter fun z => z.2.windows.any fun w => chs.contains w.chan).map fun z => z.1
  let mask := (chs.map fun k => 2 ^ k).sum
  let s := { s with cap := { s.cap with chans := clearBits s.cap.chans mask }
                    deadChs := if readable then s.deadChs else dedup (s.deadChs ++ chs) }
  hit.foldl (fun s z => s.rehash z chs) s

def vaultChans (v : Nat) : List Nat := (List.range 96).map fun i => 96 * v + i

def State.loseVault (s : State) (v : Nat) : State :=
  let s := (s.loseCaches fun c => c == v).loseChans (vaultChans v) false
  { s with rcopies := s.rcopies.filter fun c => c.1 / 2 ^ 49 / 65 != 4200 + v }

/-! ## Gates: stations, peers and time (R413, R416, R431) -/

/-- A liveness state of another device is entered, if it is not in it already (R413, R426). -/
def State.setLive (s : State) (dev : Nat) (l : Live) : State :=
  if (s.peerOf dev).live = l then s else { s with peers := put s.peers dev { live := l, since := s.now } }

/-- Stations leave every route mask; a device without a station left is DEAD. -/
def State.loseStations (s : State) (mask : BitVec 32) : State :=
  let cut := s.routes.filter fun r => r.2 != 0 && (r.2 &&& ~~~mask) == 0
  let s := cut.foldl (fun s r => if (s.peerOf r.1).live == .fenced then s else s.setLive r.1 .dead) s
  { s with routes := mapVals s.routes fun _ r => r &&& ~~~mask
           cap := { s.cap with stations := clearBits s.cap.stations mask.toNat } }

/-- The time reference is gone (R416), with the gate that brought it. -/
def State.loseReference (s : State) : State :=
  if s.tstat == .locked then { s with tstat := .holdover, holdoverAt := s.now } else s

def gateMask (g : Nat) : BitVec 32 := if g = 0 then 0x0000FFFF else 0xFFFF0000

def State.loseGate (s : State) (g : Nat) : State :=
  let s := s.loseStations (gateMask g)
  if g = 0 then s.loseReference else s

/-! ## Chiplets (R430, R431) -/

/-- What stops with a chiplet. -/
def State.loseChip (s : State) (c : Nat) : State :=
  if c < 8 then s.loseDistrict c else if c < 12 then s.loseVault (c - 8) else s.loseGate (c - 12)

/-- Zones that lose a resource with a chiplet. -/
def State.chipLosers (s : State) (c : Nat) : List Nat :=
  (s.zones.filter fun z =>
    if c < 8 then s.coreLosers (fun k => k / 128 == c) z.1 || !(rget [] z.2.slices c).isEmpty || z.2.ways.any fun w => slicesOf c w.1
    else if c < 12 then rget 0 z.2.ways (c - 8) != 0 || z.2.windows.any fun w => w.chan / 96 == c - 8
    else false).map fun z => z.1

def State.setChip (s : State) (c : Nat) (st : ChipState) : State := { s with chips := put s.chips c { s.chip c with st := st } }

/-- A chiplet becomes FENCED: FAILS, the capacity record, an entry of kind 4 in the error log (R430, R434, R436). -/
def State.fenceChip (s : State) (c : Nat) : State :=
  let lost := s.chipLosers c
  let s := s.capacityChange (fun s =>
    { (s.setChip c .fenced).loseChip c with
      chips := put s.chips c { st := .fenced, fails := min 65535 ((s.chip c).fails + 1) } }) lost c (some 4) 0xFFFF true
  s.logError 4 (some c) 0xFFFF 0xFFFF 0

/-- Some other gate is ACTIVE. -/
def State.otherGate (s : State) (c : Nat) : Bool := [12, 13].any fun g => g != c && s.chipActive g

/-- REQ = 01 (R430). -/
def State.reqFence (s : State) (from_ : Writer) (c : Nat) : State :=
  if s.writerHyp from_ && decide (c < 14) && s.chipActive c && (c < 12 || s.otherGate c) then s.fenceChip c else s

/-- REQ = 10 (R430). -/
def State.reqOff (s : State) (from_ : Writer) (c : Nat) : State :=
  if s.writerHyp from_ && decide (c < 14) && (s.chip c).st == .fenced then
    s.capacityChange (fun s => s.setChip c .off) [] c none 0xFFFF true
  else s

/-- REQ = 11 (R430). -/
def State.reqReset (s : State) (from_ : Writer) (c : Nat) : State :=
  if s.writerHyp from_ && decide (c < 14) && ((s.chip c).st == .fenced || (s.chip c).st == .off) then
    s.capacityChange (fun s => s.setChip c .resetting) [] c none 0xFFFF false
  else s

def execChipletFence (from_ : Writer) (c : Nat) (s : State) : Out := .next (s.reqFence from_ c)
def execChipletPowerOff (from_ : Writer) (c : Nat) (s : State) : Out := .next (s.reqOff from_ c)
def execChipletReset (from_ : Writer) (c : Nat) (s : State) : Out := .next (s.reqReset from_ c)

/-- CHIPLET_ERROR (R430): the hardware fences a chiplet by itself. -/
def execChipletError (c : Nat) (s : State) : Out := if c < 14 && s.chipActive c then .next (s.fenceChip c) else .next s

/-- What a chiplet brings back: the units that bring-up found live (log entry 24), free and marked SCRUB;
a bank's register is at its reset value (R168). -/
def State.bringBack (s : State) (c : Nat) : State :=
  let was : Capacity := (s.boot.map fun b : Boot => b.cap).getD {}
  if c < 8 then
    let live := (List.range 128).filter fun i => was.coreLive (128 * c + i)
    let cores := live.map fun i => 128 * c + i
    let s := cores.foldl (fun s k =>
      let s := (List.range 4).foldl (fun s j => s.updQuad (4 * k + j) fun _ => freshQuad) s
      (List.range 40).foldl (fun s j => s.updBank (40 * k + j) fun _ => { Bank.atReset (40 * k + j) with scrub := 1 }) s) s
    { s with cap := { s.cap with cores := rput 0 s.cap.cores c (was.coreMask c), slices := rput 0 s.cap.slices c (was.sliceMask c) } }
  else if c < 12 then
    let chs := (vaultChans (c - 8)).filter was.chanLive
    { s with cap := { s.cap with chans := s.cap.chans ||| (chs.map fun k => 2 ^ k).sum }
             deadChs := s.deadChs.filter fun k => !chs.contains k }
  else
    let m := gateMask (c - 12) &&& BitVec.ofNat 32 was.stations
    let table : AList (BitVec 32) := (s.boot.map fun b : Boot => b.routes).getD []
    { s with cap := { s.cap with stations := s.cap.stations ||| m.toNat }
             routes := table.foldl (fun l r => put l r.1 (rget 0 s.routes r.1 ||| (r.2 &&& m))) s.routes }

/-- RESET_DONE (R430). -/
def execResetDone (c : Nat) (pass : Bool) (s : State) : Out :=
  if (s.chip c).st != .resetting || decide (14 ≤ c) then .next s
  else if pass then .next (s.capacityChange (fun s => (s.setChip c .active).bringBack c) [] c none 0xFFFF false)
  else .next (s.fenceChip c)

/-- EXCHANGE_TAKEOVER (R431): the standby Exchange takes over when the active one's gate is not ACTIVE. -/
def execExchangeTakeover (s : State) : Out :=
  if s.chipActive (12 + s.cap.gate) || !s.chipActive (13 - s.cap.gate) then .next s
  else .next (s.capacityChange (fun s => { s with cap := { s.cap with gate := 1 - s.cap.gate } }) [] (12 + s.cap.gate) none 0xFFFF false)

/-- CORE_FENCE (R432). -/
def execCoreFence (core : Nat) (s : State) : Out :=
  if !s.cap.coreLive core || decide (1024 ≤ core) then .next s
  else
    let p := fun c => c == core
    let lost := (s.zones.filter fun z => s.coreLosers p z.1).map fun z => z.1
    let s := s.capacityChange (fun s =>
      let s := s.loseCores p
      { s with cap := { s.cap with cores := rput 0 s.cap.cores (core / 128) (clearBits (s.cap.coreMask (core / 128)) (2 ^ (core % 128))) } })
      lost (core / 128) (some 5) (core % 128) true
    .next (s.logError 5 (some (core / 128)) (core % 128) 0xFFFF 0)

/-- CHANNEL_LOSS (R433): a channel is lost, or retired while its lines can still be read. -/
def execChannelLoss (ch : Nat) (readable : Bool) (s : State) : Out :=
  if !s.cap.chanLive ch || decide (384 ≤ ch) then .next s
  else
    let lost := (s.zones.filter fun z => z.2.windows.any fun w => w.chan == ch).map fun z => z.1
    let s := s.capacityChange (fun s => s.loseChans [ch] readable) lost (8 + ch / 96) (some 6) ch true
    .next (s.logError 6 (some (8 + ch / 96)) ch 0xFFFF 0)

/-! ## Health (R435) -/

def State.healthReg (s : State) : Nat :=
  let h := s.health
  2 ^ 12 * h.ce + (if h.logfull then 8 else 0) + (if h.lost then 4 else 0) + (if h.degraded then 2 else 0) + (if h.replace then 1 else 0)

def State.healthW1c (s : State) (from_ : Writer) (v : W64) : State :=
  if s.writerHyp from_ then { s with health := { s.health with logfull := s.health.logfull && !v.getLsbD 3 } } else s

/-- HEALTH_W1C (R435). -/
def execHealthW1c (from_ : Writer) (v : W64) (s : State) : Out := .next (s.healthW1c from_ v)

/-! ## Leave and power (R269, R437, R438) -/

/-- The unit that asked is still there. -/
def State.asks (s : State) : GovSrc → Bool
  | .op q => match (s.quadOf q).queue with
    | op :: _ => op.asked
    | [] => false
  | .leave g => match look s.groups g with
    | some x => x.leave == some false
    | none => false
  | .tram k => match look s.copies k with
    | some c => c.leave != 0
    | none => false

/-- Leave reaches a quadrant; what its balance cannot hold stays in the pool (R269). -/
def State.grantQuad (s : State) (q n : Nat) : State :=
  let extra := n - (2 ^ 20 - (s.quadOf q).balance)
  (s.updGov (q / 512) fun v => v.giveBack extra).updQuad q fun x => x.grant s.cycle n

/-- Leave reaches who asked for it. An operation that is still short asks again. -/
def State.giveLeave (s : State) (n : Nat) : GovSrc → State
  | .op q => (s.grantQuad q n).updQuad q fun x => { x with queue := match x.queue with
      | op :: l => { op with asked := false } :: l
      | [] => [] }
  | .leave g =>
    match look s.groups g with
    | some x => (s.grantQuad x.quad n).setGroup g { x with leave := some true }
    | none => s
  | .tram k => { s with copies := upd s.copies k fun c => { c with leave := 0 } }

/-- LEAVE_GRANT (R438): the oldest request, whole, when it fits; a request whose unit is gone is dropped. -/
def execLeaveGrant (d : Nat) (s : State) : Out :=
  let v := s.gov d
  match v.queue with
  | [] => .next s
  | (src, n) :: rest =>
    if !s.asks src then .next (s.updGov d fun v => { v with queue := rest })
    else if n ≤ v.pool then .next ((s.updGov d fun v => { v with pool := v.pool - n, queue := rest }).giveLeave n src)
    else .next s

/-- A grant is 20 µs old (log entry 65). -/
def State.leaveOld (s : State) (g : Nat × Nat) : Bool := decide (g.1 + 50000 ≤ s.cycle)

/-- What is not used of a quadrant's grants after 20 µs goes back into the pool (R269). -/
def State.returnLeave (s : State) (q : Nat) : State :=
  let old := s.leaveOld
  let n := (((s.quadOf q).grants.filter old).map (·.2)).sum
  ((s.updGov (q / 512) fun v => v.giveBack n).updQuad q fun x => { x with grants := x.grants.filter fun g => !old g })

/-- LEAVE_RETURN (R269); every cycle performs it for the grants that have become old. -/
def execLeaveReturn (q : Nat) (s : State) : Out := .next (s.returnLeave q)
def State.returnLeaves (s : State) : State :=
  (s.quads.filter fun q => q.2.grants.any s.leaveOld).foldl (fun s q => s.returnLeave q.1) s

/-- GOVERNOR_PERIOD (R438). -/
def execGovernorPeriod (d : Nat) (s : State) : Out :=
  let v := s.gov d
  if s.cycle < v.at_ + 2500 then .next s else .next (s.updGov d fun v => { v with pool := v.rate, at_ := s.cycle })

/-- POWER_SAMPLE (R437, R438): the controller sets every RATE; an overrun is logged, and no RATE then rises. -/
def execPowerSample (overrun : Bool) (rates : List Nat) (s : State) : Out :=
  let s := (List.range 8).foldl (fun s d =>
    s.updGov d fun v =>
      let r := (rates.getD d v.rate) % 2 ^ 21
      { v with rate := if overrun then min r (v.rate - 1) else r }) s
  .next (if overrun then s.logError 8 none 0xFFFF 0xFFFF 0 else s)

/-! ## Bring-up (R439, R440, R455, R456) -/

/-- Zone 64 at bring-up (R455). -/
def bootZone (cap : Capacity) (vaults : List Nat) : Zone :=
  { hbmbase := 0xF800000000, hbmmax := 2 ^ 34, size := 2 ^ 34
    chans := ((List.range 384).filter cap.chanLive).map fun k => (k, 0)
    slices := (List.range 8).foldl (fun l d =>
      match (List.range 64).find? fun n => cap.sliceLive d n with
      | some n => put l d [n]
      | none => l) []
    ways := vaults.foldl (fun l v => put l v 0xF000) []
    allow := 2 ^ 24 - 1, cap := 2 ^ 24 - 1, bal := 2 ^ 24 - 1 }

/-- The header's digest of an image (R440). -/
def SignedImage.digest (x : SignedImage) : List Byte := (x.head.drop 0x18).take 64

/-- An image is accepted (R440); a hypervisor code object must also pass R61, which `State.bootTeam` checks. -/
def SignedImage.accepted (x : SignedImage) (kind minSvn : Nat) : Bool :=
  let f := fieldOf x.head
  x.head.length == 256 && f 0x00 4 == 0x474D4957 && f 0x04 4 == kind && f 0x08 8 == x.payload.length && decide (minSvn ≤ f 0x10 8)
    && (x.head.drop 0xCA).all (fun b => b == 0) && x.digest == shake256 x.payload && x.signed

/-- The images of kinds 1 to 4 are accepted. -/
def Boot.verified (b : Boot) : Bool :=
  (List.range 4).all fun i => (b.images[i]?).any fun x : SignedImage => x.accepted (i + 1) (b.minSvn.getD i 0)

/-- What lies in the hypervisor's HBM as it starts: the payload of its code object, the pod configuration block (R420), and what the
controller places beside them (log entry 25). -/
def Boot.memory (b : Boot) : Memory :=
  let cells := fun at_ (bs : List Byte) => bs.mapIdx fun i x => (at_ + i, x)
  let pod : List Byte := ((b.images[3]?).map fun x : SignedImage => x.head ++ x.payload).getD []
  let code : List Byte := ((b.images[2]?).map fun x : SignedImage => x.payload).getD []
  ((b.image ++ cells b.podAt pod ++ cells b.codeAt code).filter fun c => decide (0xF800000000 ≤ c.1 ∧ c.1 < 0xF800000000 + 2 ^ 34)).foldl
    (fun m c => writeByte m c.1 c.2) []

/-- Live units without those of chiplets that failed their self-test. -/
def Capacity.without (c : Capacity) (failed : List Nat) : Capacity :=
  failed.foldl (fun (c : Capacity) k =>
    if k < 8 then { c with cores := rput 0 c.cores k 0, slices := rput 0 c.slices k 0 }
    else if k < 12 then { c with chans := clearBits c.chans ((vaultChans (k - 8)).map fun i => 2 ^ i).sum }
    else { c with stations := clearBits c.stations (gateMask (k - 12)).toNat }) c

/-- Context 0's team (R456): its groups over the quadrants in turn (log entry 25). -/
def State.bootTeam (s : State) (header : VA) : Option State :=
  match look s.ctxs 0 with
  | none => none
  | some cx =>
    match s.codeCheck cx header 0 with
    | .error _ => none
    | .ok (h, d) =>
      let f := fieldOf d
      let at_ := fun off : Nat => header + BitVec.ofNat 72 off
      if f 0x18 2 ≠ 1 ∨ f 0x1A 2 ≠ 1 ∨ f 0x24 1 ≠ 0 ∨ f 0x25 1 ≠ 0 ∨ f 0x26 1 ≠ 0 ∨ f 0x1C 4 ≠ 0 then none
      else
        match ((List.range 1024).filter s.cap.coreLive).getLast? with
        | none => none
        | some core =>
          let tm : Team :=
            { cluster := s.uid, gpt := f 0x16 2, tpc := 1, codeBase := at_ (fieldOf h 0x20 8), textSize := fieldOf h 0x28 8
              scratchSize := f 0x20 4, codeVa := header, regs := f 0x14 2, entry := f 0 8, live := false }
          let gr : Graph := { ctx := 0, queue := 0, prio := 0, base := 0, nodes := [], done := 0, tag := 0 }
          let tk := s.uid
          (s.placeTeam 64 gr tm core ((List.range tm.gpt).map fun i => i % 4)).map fun s => s.launchTeam tk

/-- COLD_RESET (R439): from the reset state through the seven steps, or to RECOVERY. The host's memory, the device's clock and
what the schedule holds are not the device's reset's. -/
def execColdReset (s : State) : Out :=
  let base : State :=
    { State.reset with sched := s.sched, nfree := s.nfree, hostMem := s.hostMem, now := s.now, cycle := s.cycle, boot := s.boot }
  match s.boot with
  | none => .next { base with phase := .recovery }
  | some b =>
    if !b.passes || (b.failed.contains 12 && b.failed.contains 13) || !b.verified then .next { base with phase := .recovery }
    else
      let cap := { b.cap.without b.failed with gate := if b.gate1 || b.failed.contains 12 then 1 else 0 }
      let degraded := !b.failed.isEmpty || decide (cap.coreCount < 960) || popcount 384 cap.chans != 384 || popcount 32 cap.stations != 32
      let replace := !b.failed.isEmpty || decide (cap.coreCount < 960) || popcount 384 cap.chans != 384
      let core := ((List.range 1024).filter cap.coreLive).getLastD 0
      let s1 : State :=
        { base with
          phase := .running, capgen := 1, cap := cap, devNum := b.device % 1024, groupBridge := b.groupBridge, bridge := b.groupBridge == some (b.device % 1024)
          routes := mapVals b.routes fun _ r => r &&& BitVec.ofNat 32 cap.stations
          peers := (b.routes.map (·.1) ++ [b.device % 1024]).foldl (fun l d => put l d { since := s.now }) []
          chips := b.failed.foldl (fun l c => put l c { st := .fenced, fails := 1 }) []
          health := { degraded := degraded, replace := replace }
          mem := b.memory
          zones := [(64, bootZone cap ((List.range 4).filter fun v => !b.failed.contains (8 + v)))]
          ctxs := [(0, { zone := 64, priv := .hyp, ptroot := b.root })]
          quads := (List.range 4).foldl (fun l j => put l (4 * core + j) { zones := [64] }) []
          banks := (List.range 40).foldl (fun l j => put l (40 * core + j) { Bank.atReset (40 * core + j) with owner := some 64 }) [] }
      let s1 := b.failed.foldl (fun s c => s.logError 4 (some c) 0xFFFF 0xFFFF 0) s1
      match s1.bootTeam b.header with
      | some s2 => .next s2
      | none => .next { base with phase := .recovery }

/-! ## Attestation (R442) -/

/-- The zone digest's bytes. -/
def State.zoneDigest (s : State) (z : Nat) : List Byte :=
  let q := fun sel d => match look s.zones z with
    | some zz => s.zoneQuery z zz sel d
    | none => 2 ^ 64 - 1
  shake256 (([q 0 0, q 1 0] ++ (List.range 8).map (q 2) ++ [3, 4, 5, 7, 8, 9].map fun n => q n 0).flatMap (bytesOf 8))

/-- A list cut or filled with zeros to n bytes. -/
def fitTo (n : Nat) (bs : List Byte) : List Byte := bs.take n ++ List.replicate (n - bs.length) 0

/-- The report (R442). -/
def State.report (s : State) (nonce : List Byte) (zone : Nat) : List Byte :=
  let body := bytesOf 4 0x54415457 ++ bytesOf 2 1 ++ bytesOf 2 s.devNum ++ fitTo 32 nonce ++ bytesOf 8 s.now ++ bytesOf 8 s.capgen
    ++ bytesOf 1 zone ++ bytesOf 1 s.tstat.code ++ bytesOf 6 0 ++ fitTo 192 ((s.boot.map fun b : Boot => (b.images.take 3).flatMap SignedImage.digest).getD [])
    ++ (if zone = 0xFF then bytesOf 64 0 else s.zoneDigest zone) ++ encodingHash
  body ++ bytesOf 114 (Config.signature body).toNat ++ bytesOf 62 0

/-- The controller writes a report at its destination, unless a write there has to wait at its home (R403). -/
def State.attest (s : State) (nonce : List Byte) (zone dest : Nat) : State :=
  let bs := s.report nonce zone
  let lines := (List.range 5).map fun i => dest + min 511 (128 * i)
  let held := fun a => s.lineQueued (lineOf (s.ownPa a)) || s.homeHeld (s.lineZone a) (s.homeOf {} {} a) (lineOf (s.ownPa a))
  if lines.all fun a => regionOf a == .hbm && (s.backer a).isSome && !held a then
    let s := (cutAt 128 (dest % 128) 512).foldl (fun s p => s.homePut 64 (dest + p.2.1) ((bs.drop p.2.1).take p.2.2)) s
    { s with mailbox := { nonce := fitTo 32 nonce, zone := zone, dest := dest, done := true } }
  else s

/-- The controller serves the mailbox (R442). -/
def State.serveMailbox (s : State) : State := if s.mailbox.asked then s.attest s.mailbox.nonce s.mailbox.zone s.mailbox.dest else s

/-- ATTESTATION_REQUEST (R442): from the management port, or from the hypervisor through the mailbox. -/
def execAttestationRequest (from_ : Writer) (nonce : List Byte) (zone : BitVec 8) (dest : Nat) (s : State) : Out :=
  if s.writerHyp from_ || from_ == .controller then .next (s.attest nonce zone.toNat dest) else .next s

end Sys2Proof.Machine
end

