-- ==== Sys2Proof/Machine/Mmio.lean ====
section
/-!
DEFINITION. Reads and writes of the doorbell and device-register ranges (R28, R29, R168, R304, R305, R337, R401, R430, R435, R436,
R438, R442).

The spec gives neither the mailbox's layout (log entry 27) nor the place of the HDM decoders (log entry 109).
-/

namespace Sys2Proof.Machine

/-- Access kinds of a fault record (R187). -/
def Acc.code : Acc → Nat
  | .load => 0
  | .store => 1
  | .fetch => 2
  | .atomic => 3
  | .privLoad => 4
  | .privStore => 5
  | .qslice => 6

/-- The 32 bytes of a fault record (R187). -/
def State.faultBytes (s : State) (tag : Nat) (r : FaultRec) : List Byte :=
  bytesOf 8 r.va.toNat ++ bytesOf 1 (r.va.toNat / 2 ^ 64) ++ bytesOf 1 r.kind ++ bytesOf 1 r.acc.code ++ bytesOf 1 r.level
    ++ bytesOf 2 r.zone ++ bytesOf 2 tag ++ bytesOf 4 r.tmask.toNat
    ++ bytesOf 4 (((look s.teams r.team).map fun t : Team => t.gti).getD 0) ++ bytesOf 1 (((look s.groups r.group).map fun g : Group => g.gidx).getD 0)
    ++ bytesOf 7 0

/-- A bank's control register (R168). -/
def State.bankReg (s : State) (b : Nat) : Nat :=
  let x := s.bank b
  2 ^ 32 * (s.holders b % 256) + 2 ^ 24 * x.stage.toNat + 2 ^ 16 * x.reqmode.toNat + 2 ^ 8 * x.mode.toNat
    + match x.owner with
      | some z => 2 ^ 7 + z
      | none => 0

/-- Whose registers lie at a device-register address: the register's base, how far apart and how many. -/
def regIndex (a base stride n : Nat) : Option (Nat × Nat) :=
  if base ≤ a ∧ a < base + stride * n then some ((a - base) / stride, (a - base) % stride) else none

/-- Registers, by range, with an index and the byte within it. -/
inductive Reg where
  | door (q off : Nat)
  | qdir (q off : Nat)
  | bank (b off : Nat)
  | fault (d tag off : Nat)
  | window (z w off : Nat)
  | chip (c off : Nat)
  | health (off : Nat)
  | log (n off : Nat)
  | gov (d : Nat)
  | mail (off : Nat)
  | hdm (n off : Nat)
  | nothing
  deriving DecidableEq, Repr

/-- The register at an address. Addresses that no rule gives a register have none (log entry 26). -/
def regAt (a : Nat) : Reg :=
  if 0x3F0000000000 ≤ a ∧ a < 0x3F0001000000 then .door ((a - 0x3F0000000000) / 0x10000) (a % 0x10000)
  else
    match regIndex a 0x3F0001100000 16 256, regIndex a 0x3F0001200000 0x200 1024, regIndex a 0x3F0001400000 0x4000 8 with
    | some (q, o), _, _ => .qdir q o
    | _, some (c, o), _ => if o / 8 < 40 then .bank (40 * c + o / 8) (o % 8) else .nothing
    | _, _, some (d, o) => .fault d (o / 32) (o % 32)
    | _, _, _ =>
      match regIndex a 0x3F0001500000 16 (16 * 65), regIndex a 0x3F0001600000 16 14, regIndex a 0x3F0001801000 32 256,
        regIndex a 0x3F0001900000 8 8 with
      | some (i, o), _, _, _ => .window (i / 16) (i % 16) o
      | _, some (c, o), _, _ => .chip c o
      | _, _, some (n, o), _ => .log n o
      | _, _, _, some (d, _) => .gov d
      | _, _, _, _ =>
        if 0x3F0001800000 ≤ a ∧ a < 0x3F0001800010 then .health (a % 16)
        else if 0x3F0001A00000 ≤ a ∧ a < 0x3F0001B00000 then .mail (a - 0x3F0001A00000)
        else
          match regIndex a 0x3F0001C00000 32 16 with
          | some (n, o) => .hdm n o
          | none => .nothing

/-- Key of a word of an export window. -/
def winKey (z w word : Nat) : Nat := 2 * (16 * z + w) + word

/-- The words of the attestation mailbox (R442): NONCE, ZONE, the destination, DONE (DESIGN CHOICE, log 27: the layout). -/
def Mailbox.word (x : Mailbox) (i : Nat) : Nat :=
  if i < 4 then fieldOf (fitTo 32 x.nonce) (8 * i) 8 else if i = 4 then x.zone else if i = 5 then x.dest else if i = 6 ∧ x.done then 1 else 0

/-- A store to a word of the mailbox; that to the destination asks for the report. -/
def Mailbox.store (x : Mailbox) (i v : Nat) : Mailbox :=
  if i < 4 then { x with nonce := setField (fitTo 32 x.nonce) (8 * i) 8 v }
  else if i = 4 then { x with zone := v % 256 }
  else if i = 5 then { x with dest := v, done := false, asked := true }
  else x

/-- The words of an HDM decoder: V and the zone, the host range, its place in HBM (DESIGN CHOICE, log 109). -/
def Hdm.word (x : Hdm) (i : Nat) : Nat := ([(if x.valid then 2 ^ 63 else 0) + x.zone, x.base, x.size, x.target] : List Nat).getD i 0
def Hdm.store (x : Hdm) (i v : Nat) : Hdm :=
  if i = 0 then { x with valid := v.testBit 63, zone := v % 128 }
  else if i = 1 then { x with base := v }
  else if i = 2 then { x with size := v }
  else { x with target := v }

/-- The 64-bit word of a register that holds an address, as a reader finds it. -/
def State.readReg (s : State) (from_ : Writer) (a : Nat) : Nat :=
  let hyp := s.writerHyp from_
  match regAt a with
  | .door q off => if off / 8 = 1 then (s.qd q).lastw.toNat + (if (s.qd q).slot.isSome then 2 ^ 32 else 0) else 0
  | .qdir q off =>
    if hyp || s.writerSup from_ (s.qd q).zone then (if off < 8 then (s.qd q).word0 else (s.qd q).word1) else 0
  | .bank b _ => if hyp || (s.writerZone from_ == (s.bank b).owner && (s.bank b).owner.isSome) then s.bankReg b else 0
  | .fault d tag off =>
    match look s.fbuf (512 * d + tag) with
    | some r => if hyp || s.writerSup from_ r.zone then fieldOf (s.faultBytes tag r) (off / 8 * 8) 8 else 0
    | none => 0
  | .window z w off => if hyp || s.writerSup from_ z then rget 0 s.exportW (winKey z w (off / 8)) else 0
  | .chip c off => if hyp && decide (off < 8) then 2 ^ 16 * (s.chip c).fails + (match (s.chip c).st with
      | .active => 0
      | .fenced => 1
      | .off => 2
      | .resetting => 3) else 0
  | .health off => if hyp then (if off < 8 then s.healthReg else s.health.next) else 0
  | .log n off => if hyp then fieldOf (rget [] s.health.log n) (off / 8 * 8) 8 else 0
  | .gov d => if hyp then 2 ^ 32 * (s.gov d).pool + (s.gov d).rate else 0
  | .mail off => if hyp then s.mailbox.word (off / 8) else 0
  | .hdm n off => if hyp then (rget {} s.hdm n).word (off / 8) else 0
  | .nothing => 0

/-- Bytes of registers from a local address. -/
def State.readRegs (s : State) (from_ : Writer) (a n : Nat) : List Byte :=
  (List.range n).map fun i => BitVec.ofNat 8 (s.readReg from_ (a + i) / 2 ^ (8 * ((a + i) % 8)))

/-- A write of a register's 64-bit word: `v` with the bytes not written as they read, `c` with them 0. -/
def State.writeReg (s : State) (from_ : Writer) (a v c : Nat) : State :=
  match regAt a with
  | .door q off => if off / 8 = 0 then s.kick from_ q (BitVec.ofNat 32 (v % 2 ^ 32)) else s
  | .qdir q off => if off < 8 then s.writeDirectory0 from_ q v else s.directoryW1c from_ q (BitVec.ofNat 64 c)
  | .bank b _ => if s.mayBank from_ b then s.updBank b fun x => x.request (BitVec.ofNat 2 (bitsOf v 16 2)) else s
  | .window z w off =>
    let new := if off < 8 then bitsOf v 62 2 * 2 ^ 62 + bitsOf v 16 30 * 2 ^ 16 else v % 2 ^ 30
    if s.writerHyp from_ then { s with exportW := rput 0 s.exportW (winKey z w (off / 8)) new } else s
  | .chip n off =>
    if 8 ≤ off then s
    else
      match bitsOf c 8 2 with
      | 1 => s.reqFence from_ n
      | 2 => s.reqOff from_ n
      | 3 => s.reqReset from_ n
      | _ => s
  | .health off => if off < 8 then s.healthW1c from_ (BitVec.ofNat 64 c) else s
  | .log n off =>
    if s.writerHyp from_ && off / 8 == 1 then
      { s with health := { s.health with log := upd s.health.log n fun e => setField e 0x0E 2 (v / 2 ^ 48 % 2 ^ 16) } }
    else s
  | .gov d => if from_ = .controller then s.updGov d fun g => { g with rate := v % 2 ^ 21 } else s
  | .mail off => if s.writerHyp from_ then { s with mailbox := s.mailbox.store (off / 8) v } else s
  | .hdm n off => if s.writerHyp from_ then { s with hdm := put s.hdm n ((rget {} s.hdm n).store (off / 8) v) } else s
  | .fault .. | .nothing => s

/-- What a doorbell's kick word keeps for bytes that a write leaves out: the index accepted last (log entry 28). -/
def State.oldReg (s : State) (from_ : Writer) (a : Nat) : Nat :=
  match regAt a with
  | .door q off => if off / 8 = 0 then (s.qd q).lastw.toNat else s.readReg from_ a
  | _ => s.readReg from_ a

/-- A write of bytes to registers, word by word. -/
def State.writeRegs (s : State) (from_ : Writer) (a : Nat) (bytes : List Byte) : State :=
  (cutAt 8 a bytes.length).foldl (fun s p =>
    let bs := (bytes.drop p.2.1).take p.2.2
    let lo := p.1 % 8
    let c := natOfBytes bs * 2 ^ (8 * lo)
    let mask := (2 ^ (8 * p.2.2) - 1) * 2 ^ (8 * lo)
    let old := s.oldReg from_ p.1
    s.writeReg from_ p.1 (clearBits (old % 2 ^ 64) mask + c) c) s

/-- REGISTER_WRITE (R29): a write by an agent that is no group. -/
def execRegisterWrite (from_ : Writer) (pa : Nat) (n : Nat) (v : W64) (s : State) : Out :=
  if isRegLine (lineOf pa) && decide (n ≤ 8) then .next (s.writeRegs from_ pa (bytesOf n v.toNat)) else .next s

end Sys2Proof.Machine
end

