-- ==== Sys2Proof/Machine/MemEvents.lean ====
section
/-!
DEFINITION. What memory accesses do after they issue: grants, fills and renewals of loads (R206, R207), store-buffer entries on
their way to their homes and back (R208, R215), walks and fault records (R184 to R187), windows and epochs of logical time
(R203, R212).
-/

namespace Sys2Proof.Machine

/-! ## Loads (R189, R206, R207, R210) -/

/-- What an event about one line of a load acts on. -/
structure LineCtx where
  u    : Nat
  g    : Group
  tm   : Team
  cn   : Nat
  zn   : Nat
  core : Nat
  r    : LoadRec
  k    : Nat
  q    : LineReq
  deriving DecidableEq, Repr

def LineCtx.home (c : LineCtx) (s : State) : Nat := s.homeOf (s.zoneOf c.zn) c.q.leaf (c.q.line * 128)

/-- A packet of the line was sent before from or to the same tile and has not arrived (R6, R12). `loads` and `stores` say which of the
packets of other accesses take the same way. -/
def State.sentBefore (s : State) (core zn line at_ : Nat) (loads : LineReq → Bool) (stores : FlyLine → Bool) : Bool :=
  s.groups.any fun g => s.coreOf g.2 == some core && s.zoneNum g.2 == zn
    && ((g.2.loads.any fun r => decide (r.at_ < at_) && r.lines.any fun q => q.line == line && q.stat != .done && loads q)
      || g.2.fly.any fun f => f.line == line && decide (f.at_ < at_) && !f.remote && stores f)

/-- The request's place in the order of what its tile has sent to the line: behind the loads, and behind the stores where it goes to
the home itself, uncached or district-local; what comes back from there comes behind their acknowledgements. -/
def LineCtx.behind (c : LineCtx) (s : State) : Bool :=
  s.sentBefore c.core c.zn c.q.line c.r.at_ (fun _ => true) fun _ => c.q.stat == .home || !c.q.leaf.sh

/-- An earlier uncached load of one of the threads is not performed (R29, R180). -/
def LineCtx.afterUncached (c : LineCtx) : Bool :=
  (c.q.leaf.unc || isRegLine c.q.line) && c.g.loads.any fun r =>
    decide (r.id < c.r.id) && r.lines.any fun q => q.stat != .done && (q.leaf.unc || isRegLine q.line)
      && (r.threadsOn q.line &&& c.r.threadsOn c.q.line) != 0

/-- The home lies in ways that are being freed: the access waits (R391). -/
def State.wayBusy (s : State) (zn home line : Nat) : Bool :=
  let at_ := s.stampHome zn home line
  (look (s.zoneOf zn).leaving at_).isSome && match look s.homes (s.coKey zn line) with
    | some h => h.zn == zn && h.at_ == at_
    | none => false

/-- A line of a load of a group. -/
def State.lineCtx? (s : State) (u ld k : Nat) : Option LineCtx :=
  (look s.groups u).bind fun g =>
    match look s.teams g.team, g.loads.find? (fun r => r.id == ld) with
    | some tm, some r =>
      match look s.ctxs tm.ctx, r.lines[k]? with
      | some cx, some q => some { u := u, g := g, tm := tm, cn := tm.ctx, zn := cx.zone, core := tm.core, r := r, k := k, q := q }
      | _, _ => none
    | _, _ => none

/-- It is the line's turn. -/
def LineCtx.turn (c : LineCtx) (s : State) : Bool := !c.behind s && !c.afterUncached && !s.wayBusy c.zn (c.home s) c.q.line

/-- Its channel serves it (R381). -/
def LineCtx.served (c : LineCtx) (s : State) : Bool := s.chanFree (.line c.u c.r.id c.k)

/-- The event happens only while the line is in one of the states it acts on, and in its turn. -/
def lineEvent (u ld k : Nat) (s : State) (on : LineStat → Bool) (f : LineCtx → State) : Out :=
  match s.lineCtx? u ld k with
  | some c => if on c.q.stat && c.turn s then .next (f c) else .next s
  | none => .next s

/-- The line goes on to another state. -/
def LineCtx.to (c : LineCtx) (s : State) (st : LineStat) : State :=
  s.setGroup c.u (c.g.finishLoad { c.r with lines := setAt c.r.lines c.k fun q => { q with stat := st } })

/-- The line's data are there; `ts` is the timestamp the load is bound to. -/
def LineCtx.bind (c : LineCtx) (s : State) (byte : Nat → Byte) (bad : Bool) (ts : Nat) : State :=
  let r := c.r.bind c.k c.q.line byte bad
  let data := c.r.kind.fills
  let s := if bad && data then s.logError 2 (some c.tm.district) 0xFFFF c.zn (paLocal (c.q.line * 128)) else s
  let g := (look s.groups c.u).getD c.g
  s.setGroup c.u ({ g with lmax := if data then max g.lmax ts else g.lmax }.finishLoad r)

/-- The line fails: poison and marks, and a report of a kind (R414, R419, R433). -/
def LineCtx.fail (c : LineCtx) (s : State) (kind dev : Nat) : State :=
  let g := if c.r.kind.reports then { c.g with reports := c.g.reports ++ [⟨kind, dev, c.r.threadsOn c.q.line⟩] } else c.g
  s.setGroup c.u (g.finishLoad (c.r.fail c.k c.q.line))

/-- A request for the line goes to the host (R419). -/
def LineCtx.askHost (c : LineCtx) (s : State) : State :=
  (c.to s .ext).send ⟨.load c.u c.r.id c.k, s.devNum, c.q.line, true, 0, s.now⟩

/-- A request only for a copy in L2 (PREF.l2) is done once it is there. -/
def LineCtx.l2Only (c : LineCtx) : Bool := c.r.kind == .pref && c.r.nl1

/-- The slice of the district, or the home of a district-local page, can give the L1's lease. -/
def LineCtx.leased (c : LineCtx) (s : State) : Bool :=
  (s.leaseSource c.zn (c.core / 128) c.q.leaf (c.home s) c.q.line c.r.p c.q.n).isSome

/-- A grant at the home; its channel has served it. -/
def LineCtx.grant (c : LineCtx) (s : State) : State :=
  (s.leaveChan (.line c.u c.r.id c.k)).grantL2 c.zn (c.core / 128) (c.home s) c.q.line c.r.p c.q.n (s.lineData c.q.line)

/-- GrantL2 at the home, unless the slice has a copy whose lease reaches far enough by now; a copy that the slice cannot keep leaves
the load to be served at the home (R206, R211). -/
def LineCtx.granted (c : LineCtx) (s : State) : State :=
  let s := if c.leased s then s else c.grant s
  c.to s (if c.leased s then .fill else .home)

/-- GRANT_L2 (R206). -/
def execGrantL2 (u ld k : Nat) (s : State) : Out :=
  lineEvent u ld k s (fun st => st == .l2) fun c =>
    if s.lineLost c.zn c.q.leaf c.q.line then c.fail s 6 s.devNum
    else if isHostLine c.q.line then (if s.lineQueued c.q.line then s else c.askHost s)
    else if s.lineQueued c.q.line || !(c.leased s || c.served s) then s
    else c.granted s

/-- A copy that has come to the L1 since the load issued and that it may read (R207). -/
def LineCtx.l1Hit (c : LineCtx) (s : State) : Option Copy :=
  if s.hasL1 c.core c.zn && c.r.kind.fills then
    (s.getL1 c.core c.zn c.q.line).filter fun cp => !cp.xp && decide (c.r.p ≤ cp.rts)
  else none

/-- The L1 takes its lease and the load its data (R206, R207, R210); a load whose copy the L1 cannot keep is served at the home
(R211). -/
def LineCtx.fill (c : LineCtx) (s : State) : State :=
  if c.l2Only then c.to s .done
  else
    match c.l1Hit s with
    | some cp => c.bind s (fun a => LineData.byte cp.data a) cp.bad (max c.r.p cp.wts)
    | none =>
      let here := (s.getL1 c.core c.zn c.q.line).isSome
      match s.grantL1 c.core c.zn c.q.leaf (c.home s) c.q.line c.r.p c.q.n (here || (s.hasL1 c.core c.zn && !c.r.nl1)) c.q.xp with
      | .need => c.to s .l2
      | .unfit => c.to s .home
      | .given s gv => c.bind s (fun a => LineData.byte gv.data a) gv.bad (max c.r.p gv.wts)

/-- Performed at the home without a copy, or at a device register (R29, R180, R205). A request that binds no value changes nothing
there. -/
def LineCtx.atHome (c : LineCtx) (s : State) : State :=
  if !c.r.kind.fills then c.to s .done
  else if isRegLine c.q.line then
    c.bind { s with nfree := s.nfree + 1 } (fun a => (s.readRegs (.ctx c.cn) (paLocal a) 1).headD 0) false 0
  else
    let (s', ts) := s.homeRead c.zn (c.home s) c.q.line c.r.p
    c.bind s' (fun a => LineData.byte (s.lineData c.q.line) a) (s.badLine c.q.line) ts

/-- LINE_FILL (R207). -/
def execLineFill (u ld k : Nat) (s : State) : Out :=
  lineEvent u ld k s (fun st => st == .fill || st == .home) fun c =>
    if s.lineLost c.zn c.q.leaf c.q.line then c.fail s 6 s.devNum
    else if (c.q.stat == .home || !c.q.leaf.sh) && (s.lineQueued c.q.line || !c.served s) then s
    else if c.q.stat == .home then c.atHome s
    else c.fill s

/-- RENEWAL_RETURN (R207): the slice's lease, or a new one from the home; the version found replaces the L1's copy, or renews
it when it is the same. -/
def execRenewalReturn (u ld k : Nat) (s : State) : Out :=
  lineEvent u ld k s (fun st => st == .renew) fun c =>
    if s.lineLost c.zn c.q.leaf c.q.line then c.fail s 6 s.devNum
    else if c.leased s then (if !c.q.leaf.sh && (s.lineQueued c.q.line || !c.served s) then s else c.fill s)
    else if s.lineQueued c.q.line then s
    else if isHostLine c.q.line then c.askHost s
    else if !c.served s then s
    else
      let s := c.grant s
      if c.leased s then c.fill s else c.to s .home

/-! ## Store buffers (R208, R215, R223) -/

/-- A line of an entry has failed (R414, R419, R433). -/
def State.failFly (s : State) (u : Nat) (f : FlyLine) (report : Option (Nat × Nat)) : State :=
  s.updGroup u fun g =>
    { g with
      fly := g.fly.map fun (x : FlyLine) => if x.fid = f.fid then { x with done := some (none, [], none) } else x
      reports := match report with
        | some (kind, dev) => g.reports ++ [⟨kind, dev, maskOf fun t => f.parts.any fun p => p.thr == t⟩]
        | none => g.reports }

/-- An entry as it leaves: one flight for each line. -/
def State.flights (s : State) (g : Group) (e : SEntry) : List FlyLine :=
  let next := g.fly.foldl (fun n f => max n (f.fid + 1)) 0
  (dedup (e.parts.map fun p => lineOf p.pa)).mapIdx fun i l =>
    { fid := next + i, id := e.id, line := l, p := g.pts, parts := e.parts.filter fun p => lineOf p.pa == l
      sem := e.sem, scope := e.scope, remote := s.isRemote l, at_ := s.uid }

/-- The oldest entry may leave: earlier loads are bound, earlier releases have met their waits (R215, R223, R406). -/
def Group.mayLeave (g : Group) (e : SEntry) : Bool :=
  (g.reads.all fun l => e.id ≤ l.id) && g.rels.all fun r => e.id ≤ r.seq || g.releaseMet r

/-- An earlier store of one of the threads to an uncached page of another device is not performed: the next one waits (R180). -/
def State.afterFar (s : State) (g : Group) (e : SEntry) : Bool :=
  e.parts.any fun q => q.leaf.unc && s.isRemote (lineOf q.pa)
    && g.fly.any fun f => f.remote && f.done.isNone && f.parts.any fun p => p.leaf.unc && p.thr == q.thr

/-- Flights to other devices are sent, or fail at once (R399, R413, R414). -/
def State.sendFlights (s : State) (u : Nat) (fs : List FlyLine) : State :=
  fs.foldl (fun s f =>
    if !f.remote then s
    else
      let dev := paDevice (f.line * 128)
      if s.reachable dev then s.send ⟨.store u f.fid, dev, f.line, false, 0, s.now⟩
      else (s.failFly u f (some (4, dev))).logError 3 none dev (s.zoneNum ((look s.groups u).getD {})) 0) s

/-- The entries of the group stay in its buffer: its team is halted, stopped or away (R215, R336, R341), and neither a rollover of its
zone (R212) nor a promotion (R230) drains it. -/
def State.entriesStay (s : State) (g : Group) : Bool :=
  match look s.teams g.team with
  | some tm => ([TeamRun.halted, .stopped, .spilled, .saved].contains tm.run || (tm.run == .stopping && tm.haltRun == .halted))
      && tm.promo == 0 && !s.rollDue (s.zoneNum g)
  | none => true

/-- STORE_BUFFER_LEAVE (R215). -/
def execStoreBufferLeave (u : Nat) (s : State) : Out :=
  match look s.groups u with
  | none => .next s
  | some g =>
    match g.sbuf with
    | [] => .next s
    | e :: rest =>
      if s.entriesStay g || !g.mayLeave e || s.afterFar g e then .next s
      else
        let fs := s.flights g e
        .next ((({ s with uid := s.uid + 1 } : State).setGroup u { g with sbuf := rest, fly := g.fly ++ fs }).sendFlights u fs)

/-- Who writes registers for a group. -/
def State.writerOf (s : State) (g : Group) : Writer := .ctx ((s.ctxOf g).getD 4095)

/-- Flights of one home go in program order; those of one thread to uncached pages too (R180, R215). -/
def State.flightBlocked (s : State) (g : Group) (f : FlyLine) : Bool :=
  g.fly.any fun x => x.done.isNone && !x.remote && decide (x.id < f.id)
    && (s.flyHome g x == s.flyHome g f || x.parts.any fun p => p.leaf.unc && f.parts.any fun q => q.leaf.unc && q.thr == p.thr)

/-- A packet that the group's tile sent to the line before has not arrived (R6, R12), or the home is busy with its ways (R391). -/
def State.flightBehind (s : State) (g : Group) (f : FlyLine) : Bool :=
  (match s.coreOf g with
   | some core => s.sentBefore core (s.zoneNum g) f.line f.at_ (fun q => q.stat == .home || !q.leaf.sh) fun x => x.done.isNone
   | none => false)
    || s.wayBusy (s.zoneNum g) (s.flyHome g f) f.line

/-- It is the flight's turn. -/
def State.flightTurn (s : State) (g : Group) (f : FlyLine) : Bool := !s.flightBlocked g f && !s.flightBehind g f

/-- A request that has reached its channel enters its queue (R381): one whose turn it is. -/
def State.arrive (s : State) (src : ChanSrc) : State :=
  let turn : Bool := match src with
    | .line u id k => match s.lineCtx? u id k with
      | some c => c.turn s
      | none => false
    | .fly u fid => match look s.groups u with
      | some g => (g.fly.find? fun f => f.fid == fid).any fun f => !f.sent && s.flightTurn g f
      | none => false
    | .copy _ | .post .. => false
  if turn then s.enterChan src else s

/-- What waits at the home of a line and came before a place in the order of acceptance (R400, R403). -/
def State.waitsBefore (s : State) (line n : Nat) : Bool :=
  s.held.any (fun h => lineOf h.2.pa == line && decide (h.1 < n))
    || s.groups.any fun g => g.2.fly.any fun f => f.line == line && f.done.isNone && match f.heldAt with
      | some k => decide (k < n)
      | none => false

/-- The parts write every byte of the line. -/
def coversLine (parts : List SPart) : Bool :=
  (List.range 128).all fun i => parts.any fun p => !p.isAtom && decide (p.pa % 128 ≤ i ∧ i < p.pa % 128 + p.n)

/-- A line performed at its home (R208, R216, R243): its timestamp, the old values, the line after it. A line whose data are
uncorrectable gives no old values, and stays so until it is written whole (R189, R433). -/
def State.perform (s : State) (zn home line p : Nat) (parts : List SPart) : State × Nat × List (Nat × Nat) :=
  let (s, ts) := s.homeWrite zn home line p (parts.head?.any fun q : SPart => q.leaf.unc)
  let host := isHostLine line
  let (m, old) := runParts parts (if host then s.hostMem else s.mem)
  let whole := coversLine parts
  let old := if s.badLine line then [] else old
  let s := if host then { s with hostMem := m } else { s with mem := m, badLines := if whole then s.badLines.filter (· != line) else s.badLines }
  (s, ts, old)

/-- A flight is performed; each atomic at a vault costs the zone 4 coins (R310). -/
def State.performFly (s : State) (u zn : Nat) (g : Group) (f : FlyLine) : State :=
  let coins := s.flyCoins g f
  let (s, ts, old) := s.perform zn (s.flyHome g f) f.line f.p f.parts
  let s := if coins = 0 then s else s.charge zn f.line coins
  let s := s.raceStamp zn f.line g.team ts
  s.updGroup u fun g =>
    { g with fly := g.fly.map fun (x : FlyLine) => if x.fid = f.fid then { x with done := some (some ts, old, some (s.lineData f.line)) } else x }

/-- A flight that its home holds, or that has gone on to the host, has a place in the order of acceptance (R403). -/
def State.holdFly (s : State) (u : Nat) (f : FlyLine) : State :=
  if f.heldAt.isSome then s
  else { s with uid := s.uid + 1 }.updGroup u fun g =>
    { g with fly := g.fly.map fun (x : FlyLine) => if x.fid = f.fid then { x with heldAt := some s.uid } else x }

/-- PERFORM_AT_HOME (R208): the flight that has reached its home, held there while leases of other devices have not passed
(R403) or while earlier requests to its line wait. -/
def execPerformAtHome (u k : Nat) (s : State) : Out :=
  match look s.groups u with
  | none => .next s
  | some g =>
    match g.fly.find? fun f => f.fid == k with
    | none => .next s
    | some f =>
      let zn := s.zoneNum g
      if f.remote || f.sent || f.done.isSome || !s.flightTurn g f || !s.chanFree (.fly u k) then .next s
      else if isRegLine f.line then
        let s := f.parts.foldl (fun s p => match p.op with
          | .store bs => s.writeRegs (s.writerOf g) (paLocal p.pa) bs
          | .atom .. => s) s
        .next (s.failFly u f none)
      else if s.homeLost (s.flyHome g f) then .next (s.failFly u f (some (6, s.devNum)))
      else if s.isCode (f.line * 128) then .next (s.failFly u f none)
      else
        let now := f.heldAt.getD s.uid
        let t := s.holdFly u f
        if s.homeHeld zn (s.flyHome g f) f.line || s.waitsBefore f.line now then .next t
        else if isHostLine f.line then
          .next ((t.updGroup u fun g => { g with fly := g.fly.map fun (x : FlyLine) => if x.fid = f.fid then { x with sent := true } else x }).send
            ⟨.store u f.fid, s.devNum, f.line, true, 0, s.now⟩)
        else .next (s.performFly u zn g f)

/-- Old values reach the destination of an atomic; threads of the line without one get poison and a mark. -/
def Pend.take (p : Pend) (f : FlyLine) (old : List (Nat × Nat)) : Pend :=
  let ts := (dedup (f.parts.map fun q => q.thr)).filter fun t => !(old.any fun x => x.1 == t)
  { p with got := p.got ++ old ++ ts.map fun t => (t, poisonWide % 2 ^ p.ty.regw), bad := dedup (p.bad ++ ts) }

/-- The last line of an entry is acknowledged: its destination is written, an acquire takes effect (R222, R243). -/
def Group.entryDone (g : Group) (f : FlyLine) : Group :=
  if (g.fly.any fun x => x.id == f.id) || g.sbuf.any fun e => e.id == f.id then g
  else
    let g := match g.pends.find? fun p => p.id == f.id with
      | some p => g.complete p
      | none => g
    if Sem.isAcq f.sem && f.parts.any SPart.isAtom then g.acquire f.scope 0 else g

/-- An acknowledgement raises the clock of the barriers at which its group has arrived, which wait for it (R155, R227). -/
def State.raiseBars (s : State) (g : Group) (ts : Nat) : State :=
  let up := fun (_ : Nat) (b : Barrier) => if b.arrived.contains g.gidx then { b with clk := max b.clk ts } else b
  s.updTeam g.team fun tm => { tm with bars := mapVals tm.bars up, barcs := mapVals tm.barcs up }

/-- STORE_ACK (R179, R203, R208, R215): acknowledgements of one line reach a core in the order of their requests (R6, R12). -/
def execStoreAck (u k : Nat) (s : State) : Out :=
  match look s.groups u with
  | none => .next s
  | some g =>
    match g.fly.find? fun f => f.fid == k with
    | none => .next s
    | some f =>
      match f.done with
      | none => .next s
      | some (ts, old, data) =>
        let core := (s.coreOf g).getD 0
        if !f.remote && s.sentBefore core (s.zoneNum g) f.line f.at_ (fun _ => false) (fun _ => true) then .next s
        else
        let own := fun i : Nat => f.parts.any fun p => p.pa % 128 ≤ i && i < p.pa % 128 + p.n
        let s := match ts, data with
          | some ts, some d => s.ackL1 core (s.zoneNum g) f.line ts own d
          | _, _ => s
        let s := s.raiseBars g (ts.getD 0)
        let atoms := f.parts.any SPart.isAtom
        let g := { g with fly := g.fly.filter (fun x => x.fid != f.fid), pts := max g.pts (ts.getD 0)
                          pends := if atoms then g.pends.map fun (p : Pend) => if p.id = f.id then p.take f old else p else g.pends }
        .next (s.setGroup u (g.entryDone f))

/-! ## Walks and faults (R184, R186, R187, R337) -/

/-- WALK: the group tries its instruction again, or is parked. A table word is read after the requests that its home has accepted (R400). -/
def execWalk (u : Nat) (s : State) : Out :=
  match look s.groups u with
  | none => .next s
  | some g =>
    match g.wait, look s.teams g.team with
    | .walk pc va acc by_, some tm =>
      match look s.ctxs tm.ctx with
      | none => .next s
      | some cx =>
        if s.walkQueued cx va then .next s else
        let s := s.walkTouch cx va
        match s.walkInstall tm.core tm.ctx cx va acc with
        | .ok s => .next (s.setGroup u { g with wait := .retry pc g.afterWalk })
        | .error (k, lv, size) =>
          let r : FaultRec := { va := va, kind := k, acc := acc, level := lv, zone := cx.zone, tmask := pageMask by_ va size, team := g.team
                                group := u, low := pageLow by_ va size }
          .next { s.setGroup u { g with wait := .parked pc r none } with fwait := s.fwait ++ [FaultSrc.group u] }
    | _, _ => .next s

/-- The group of a waiter. -/
def FaultSrc.gid : FaultSrc → Nat
  | .group u | .stream u _ => u

/-- The record of a waiter without an entry. -/
def Group.waiting (g : Group) : FaultSrc → Option FaultRec
  | .group _ => match g.wait with
    | .parked _ r none => some r
    | _ => none
  | .stream _ qn => match (look g.queues qn).bind (·.stop) with
    | some (.fault r none) => some r
    | _ => none

/-- A waiter gets its entry; a group parked at the entry of a queue whose stream waits has it too (R303). -/
def Group.giveEntry (g : Group) (v : FaultSrc) (tag : Nat) : Group :=
  match g.waiting v with
  | none => g
  | some r =>
    let wait := match g.wait with
      | .parked pc x none => if x = r then .parked pc r (some tag) else g.wait
      | _ => g.wait
    let queues := match v with
      | .stream _ qn => upd g.queues qn fun q => { q with stop := some (.fault r (some tag)) }
      | .group _ => g.queues
    { g with wait := wait, queues := queues }

/-- A waiter without an entry: its record and its district. -/
def State.parkedRec (s : State) (v : FaultSrc) : Option (FaultRec × Nat) :=
  match look s.groups v.gid with
  | none => none
  | some g =>
    match g.waiting v, look s.teams g.team with
    | some r, some tm => some (r, tm.district)
    | _, _ => none

/-- A district's buffer has an entry for the zone (R187). -/
def State.faultRoom (s : State) (d zn : Nat) : Bool :=
  let mine := s.fbuf.filter fun e => e.1 / 512 == d
  decide (mine.length < 512) && decide ((mine.filter fun e => e.2.zone == zn).length < 64)

/-- The longest waiter of a district whose zone may have an entry. -/
def State.faultTurn (s : State) (d : Nat) : Option FaultSrc :=
  s.fwait.find? fun v => match s.parkedRec v with
    | some (x, e) => e == d && s.faultRoom d x.zone
    | none => false

/-- FAULT_RECORD (R187, R303, R337): the group, or a stream of it, that has waited longest in its district and whose zone may have an
entry gets the lowest free one. -/
def execFaultRecord (u : Nat) (s : State) : Out :=
  match (look s.groups u).bind fun g => (look s.teams g.team).map Team.district with
  | none => .next s
  | some d =>
    match s.faultTurn d, (List.range 512).find? fun t => (look s.fbuf (512 * d + t)).isNone with
    | some v, some t =>
      match (if v.gid = u then s.parkedRec v else none) with
      | none => .next s
      | some (r, _) =>
        let s := { s with fbuf := put s.fbuf (512 * d + t) r, fwait := s.fwait.filter (· != v) }
        .next ((s.updGroup u fun g => g.giveEntry v (512 * d + t)).raiseFor u 0x03 (t + 2 ^ 16 * d) 0)
    | _, _ => .next s

/-! ## Windows and epochs (R203, R212) -/

/-- The group's windows that have ended by a scheduled cycle; only the first of them can have seen a load. -/
def Group.closeWindows (g : Group) (now : Nat) : Group :=
  if !g.launched || decide (now < g.winEnd) then g
  else { g with pts := if g.winLoad then g.pts + 1 else g.pts, winEnd := g.winEnd + 1024 * ((now - g.winEnd) / 1024 + 1), winLoad := false }

/-- PTS_WINDOW_TICK (R203); every cycle performs it for the windows that end. -/
def execPtsWindowTick (u : Nat) (s : State) : Out :=
  match look s.groups u with
  | none => .next s
  | some g => .next (s.setGroup u (g.closeWindows (s.schedOf g)))

def State.closeWindows (s : State) : State :=
  if s.groups.any fun g => g.2.launched && decide (g.2.winEnd ≤ s.schedOf g.2) then
    { s with groups := mapVals s.groups fun _ g => g.closeWindows (s.schedOf g) }
  else s

def lowerTs (x : Nat) : Nat := x - 2 ^ 62
def lowerAll (l : AList Nat) : AList Nat := mapVals l fun _ x => lowerTs x

def RaceTile.lower (t : RaceTile) : RaceTile := { t with wts := lowerTs t.wts, rpts := lowerTs t.rpts }

/-- A group's clocks after a rollover. -/
def Group.lower (g : Group) : Group :=
  { g with pts := lowerTs g.pts, lmax := lowerTs g.lmax, ah := lowerTs g.ah
           loads := g.loads.map fun r => { r with p := lowerTs r.p }
           cluOut := g.cluOut.map fun c => { c with pts := lowerTs c.pts }
           queues := mapVals g.queues fun _ q => { q with stream := q.stream.map fun x => { x with pts := lowerTs x.pts } } }

def lowerBar (_ : Nat) (b : Barrier) : Barrier := { b with clk := lowerTs b.clk }

/-- EPOCH_ROLLOVER (R212), once every store of the zone is acknowledged. The stamps of scratchpad lines and FIFO entries, which
carry the same time, are lowered with the rest (log entry 30). -/
def execEpochRollover (z : Nat) (s : State) : Out :=
  let mine := fun g : Group => s.zoneNum g == z
  let inZone := fun t : Team => ((look s.ctxs t.ctx).map fun c : Ctx => c.zone) == some z
  if (look s.zones z).isNone || !s.rollDue z || s.groups.any fun g => mine g.2 && (!g.2.sbuf.isEmpty || !g.2.fly.isEmpty) then .next s
  else
    .next { s with
      groups := mapVals s.groups fun _ g => if mine g then g.lower else g
      teams := mapVals s.teams fun _ t => if inZone t then
          { t with stamps := lowerAll t.stamps, bars := mapVals t.bars lowerBar, barcs := mapVals t.barcs lowerBar, fifos := mapVals t.fifos fun _ es => es.map fun e => { e with stamp := lowerTs e.stamp } }
        else t
      quads := mapVals s.quads fun _ q => { q with queue := q.queue.map fun o =>
        if ((look s.teams o.team).map inZone) == some true then { o with pts := lowerTs o.pts } else o }
      zones := upd s.zones z fun x => { x with zclk := lowerTs x.zclk, lh := lowerAll x.lh, mts := lowerAll x.mts, epoch := (x.epoch + 1) % 2 ^ 32 }
      homes := mapVals s.homes fun _ h => if h.zn = z then { h with wts := lowerTs h.wts, rts := lowerTs h.rts } else h
      l1 := s.l1.filter fun c => c.1 / 2 ^ 49 % 65 != z
      l2 := s.l2.filter fun c => c.1 / 2 ^ 49 % 65 != z
      bases := s.bases.map fun b => if b.1 % 65 = z then (b.1, lowerTs b.2) else b
      objs := mapVals s.objs fun _ o => if o.zone = z then { o with rstat := mapVals o.rstat fun _ t => t.lower } else o }

end Sys2Proof.Machine
end

