-- ==== Sys2Proof/Machine/Fabric.lean ====
section
/-!
DEFINITION. Class 0xB (R421 to R429), requests between devices and to the host (R400 to R405, R413, R414, R418, R419), collectives
(R409 to R412), device time (R416), words that are no instruction (R46, R48).
-/

namespace Sys2Proof.Machine

/-! ## Fences at pod scope (R406, R408) -/

/-- What a pod acquire does to the clocks and to RACQ. -/
def View.podAcquire (w : View) (g : Group) : Group :=
  let p := max (max g.pts g.lmax) (rget 0 (w.s.zoneOf w.cx.zone).lh w.tm.district + 1)
  { g with pts := p, ah := p, racq := w.s.now, facq := if w.s.held.isEmpty then none else some w.s.uid }

def execFfenceRel (x : CtlOnly) (s : State) : Out :=
  issue (.ffenceRel x) s fun w _ =>
    let seq := w.g.seq
    let s := w.s.updTeam w.g.team fun tm => tm.countRelease .dev
    .next (s.issued w.u x.ctl w.halting (w.track (.ffenceRel x) 0 (.release seq) ((w.g.addRelease .dev true).advance w.sel)))

def execFfenceAcq (x : CtlOnly) (s : State) : Out :=
  fenceOp (.ffenceAcq x) s (fun w => w.g.loads.isEmpty) fun w => (w.s, w.podAcquire w.g)

/-- FFENCE.full: a release that the group records as it issues, so that a fence assist can end its waits (R408), and an acquire once
they have ended. -/
def execFfenceFull (x : CtlOnly) (s : State) : Out :=
  issue (.ffenceFull x) s fun w _ =>
    let seq := w.g.begun.getD w.g.seq
    let g := if w.g.begun.isSome then w.g else w.g.addRelease .dev true
    if w.g.releaseMet ⟨seq, .dev, true⟩ then
      .next ((w.s.updTeam w.g.team fun tm => tm.countRelease .dev).issued w.u x.ctl w.halting
        (w.track (.ffenceFull x) 0 .now ((w.podAcquire g).advance w.sel)))
    else .next ({ w with g := { g with begun := some seq } }.hold .kept)

/-! ## Time and peers (R424 to R426) -/

/-- The bound in nanoseconds; with none the field is full (R416, R424). -/
def TimeStat.bound : TimeStat → Nat
  | .locked => 50
  | .holdover => 1000
  | _ => 65535

def execPtprd (x : Ptprd) (s : State) : Out :=
  laneOp (.ptprd x) s false fun w _ _ =>
    .bits (if x.st then w.s.tstat.code + 2 ^ 16 * w.s.tstat.bound else w.s.now % 2 ^ 64)

def execTimens (x : Sd) (s : State) : Out :=
  issue (.timens x) s fun w m => .next (w.finishS (.timens x) m (w.s.noteTime w.tm.ctx) w.g (w.s.guestTime w.cx % 2 ^ 64))

def Live.code : Live → Nat
  | .alive => 1
  | .suspect => 2
  | .dead => 3
  | .fenced => 4

/-- PEERQ's value (R426). -/
def State.peerQuery (s : State) (d : Nat) : Nat :=
  let mask := (rget 0 s.routes d).toNat
  let p := s.peerOf d
  let count := 2 ^ 8 * popcount 32 mask
  let us := 2 ^ 32 * min (2 ^ 32 - 1) ((s.now - p.since) / 1000)
  if d = s.devNum then 1 + 8 + count + us
  else if d ≥ 1024 ∨ mask = 0 then 0
  else p.live.code + count + us

def execPeerq (x : SdA) (s : State) : Out :=
  laneOp (.peerq x) s false fun w m _ => .bits (w.s.peerQuery (w.n32 x.a (lowest m)))

/-! ## RLEASE and FCONTAIN (R427, R428) -/

/-- The duration RLEASE asks for. -/
def leaseNs (n : Nat) : Nat := if n = 0 then 8000 else max 1000 (min n 1000000)

def execRlease (x : Rlease) (s : State) : Out :=
  issue (.rlease x) s fun w m =>
    let i := Instr.rlease x
    w.access i.uses m 1 .load (fun t => w.wideAddr (w.n128 x.a t) (x.off.toInt * 128) 1 false true) fun accs =>
      w.runLease i m .rlease [] (leaseLines accs fun t => leaseNs (w.n32 x.b (if i.uses.uniform then lowest m else t)))

/-- A probe to another device (R413, R428). -/
def State.sendProbe (s : State) (d : Nat) : State :=
  if rget 0 s.routes d = 0 then s else s.send ⟨.probe, d, 0, false, 0, s.now⟩

/-- A device that is FENCED or DEAD answers no more: what its probes bring is discarded (R413). -/
def State.dropProbes (s : State) (d : Nat) : State :=
  { s with rout := s.rout.filter fun r => !(r.2.src == .probe && r.2.dev == d) }

def execFcontainFence (x : SdA) (s : State) : Out :=
  issue (.fcontainFence x) s fun w m =>
    let d := w.n32 x.a (lowest m)
    if d = w.s.devNum ∨ 1024 ≤ d then .next (w.finishS (.fcontainFence x) m w.s w.g 1)
    else .next (w.finishS (.fcontainFence x) m ((w.s.setLive d .fenced).dropProbes d) w.g 0)

/-- FCONTAIN.clear holds its group until the probe is answered or 50 µs have passed. -/
def execFcontainClear (x : SdA) (s : State) : Out :=
  issue (.fcontainClear x) s fun w m =>
    let i := Instr.fcontainClear x
    let d := w.n32 x.a (lowest m)
    let up := (w.s.peerOf d).live == .alive || (w.s.peerOf d).live == .suspect
    if d = w.s.devNum ∨ 1024 ≤ d then .next (w.finishS i m w.s w.g 1)
    else if up then w.statusOr i m w.s (some 0) 0
    else
      match w.g.clearAt with
      | some t => if t + 50000 ≤ w.s.now then w.statusOr i m (w.s.dropProbes d) (some 2) 0 else w.statusOr i m w.s none 0
      | none => w.statusOr i m ((w.s.sendProbe d).updGroup w.u fun g => { g with clearAt := some w.s.now }) none 0

/-! ## Requests that arrive (R400, R401, R403, R418) -/

/-- Some export window holds the whole access, for writing too when it writes. -/
def State.exported (s : State) (a n : Nat) (write : Bool) : Bool :=
  (List.range (16 * 65)).any fun i =>
    let w0 := rget 0 s.exportW (2 * i)
    let base := bitsOf w0 16 30 * 2 ^ 16
    w0.testBit 63 && (!write || w0.testBit 62) && decide (base ≤ a ∧ a + n ≤ base + rget 0 s.exportW (2 * i + 1) * 2 ^ 16)

def opWrites : RemoteOp → Bool
  | .load _ => false
  | _ => true

def State.vaultHome (s : State) (a : Nat) : Nat := s.homeOf (s.zoneOf (s.lineZone a)) {} a

/-- The parts of a write or atomic at the home. -/
def HeldReq.parts (h : HeldReq) : List SPart :=
  match h.op with
  | .load _ => []
  | .store mask bs => (List.range bs.length).filterMap fun i =>
      if mask.getLsbD i then some { thr := 0, pa := h.pa + i, n := 1, leaf := {}, op := .store [bs.getD i 0] } else none
  | .atom ty op b c => [{ thr := 0, pa := h.pa, n := h.n, leaf := {}, op := .atom ty op b.toNat c.toNat }]

/-- What the home sends back. -/
def State.reply (s : State) (dev : Option Nat) (pa n : Nat) (r : RemoteReply) : State := { s with answer := some ⟨dev, pa, n, r⟩ }

/-- Bytes as a response carries them, the first lowest. -/
def dataOf (bs : List Byte) : RemoteReply := .data (BitVec.ofNat 1024 (natOfBytes bs))

/-- An access lies in one line that is backed and whose home works; a write does not reach a frame of code (R185). -/
def State.reqReaches (s : State) (a n : Nat) (write : Bool) : Bool :=
  decide (0 < n ∧ a / 128 = (a + n - 1) / 128)
    && (match regionOf a with
        | .hbm => (s.backer a).isSome
        | .host => s.bridge
        | _ => false)
    && !s.homeLost (s.vaultHome a) && !(write && s.isCode (s.ownPa a))

/-- The home admits a request: an export window holds what another device sends, and the line can be reached (R185, R400, R401). -/
def State.admits (s : State) (h : HeldReq) : Bool :=
  (h.dev.isNone || s.exported (paLocal h.pa) h.n (opWrites h.op)) && s.reqReaches (paLocal h.pa) h.n (opWrites h.op)

/-- A request is performed at its home with p = 0 and answered; a load raises EXPMAX (R400, R403), and data that are uncorrectable go
out as poisoned (R7). What its home does not admit any more is refused (R32, R401). -/
def State.performReq (s : State) (h : HeldReq) : State :=
  let a := paLocal h.pa
  let zn := s.lineZone a
  let home := s.vaultHome a
  let line := lineOf h.pa
  if !s.admits h then s.reply h.dev h.pa h.n .refused
  else
    match h.op with
    | .load exp =>
      let r := s.homeRec zn home line
      let t := s.putHome zn home line { r with expmax := max r.expmax exp }
      if s.badLine line then (t.logError 2 (some (8 + home)) 0xFFFF zn a).reply h.dev h.pa h.n .poisoned
      else t.reply h.dev h.pa h.n (dataOf (s.readLocal a h.n))
    | _ =>
      let (s, _, old) := s.perform zn home line 0 h.parts
      s.reply h.dev h.pa h.n (.ack (old.map fun o => BitVec.ofNat 128 o.2))

/-- A request to a line of the host is out. -/
def State.hostBusy (s : State) (line : Nat) : Bool := s.rout.any fun r => r.2.host && r.2.line == line

/-- A request has to wait at its home, at a place in the order of acceptance; the home passes requests to a line of the host on one
after the other (R419). -/
def State.reqWaits (s : State) (h : HeldReq) (n : Nat) : Bool :=
  s.waitsBefore (lineOf h.pa) n || s.hostBusy (lineOf h.pa)
    || (opWrites h.op && s.homeHeld (s.lineZone (paLocal h.pa)) (s.vaultHome (paLocal h.pa)) (lineOf h.pa))

/-- An accepted request whose turn it is: performed, or sent on to the host whose line it names (R419). -/
def State.serveHeld (s : State) (k : Nat) (h : HeldReq) : State :=
  if !isHostLine (lineOf h.pa) || !s.admits h then { s with held := del s.held k }.performReq h
  else { s with held := put s.held k { h with sent := true } }.send ⟨.held k, s.devNum, lineOf h.pa, true, 0, s.now⟩

/-- Acceptance (R400): served at once, or held. -/
def State.accept (s : State) (h : HeldReq) : State :=
  let t := { s with held := put s.held s.uid h, uid := s.uid + 1 }
  if s.reqWaits h s.uid then t else if isHostLine (lineOf h.pa) then t.serveHeld s.uid h else s.performReq h

/-- The requests that the transaction layer has (R398): 64 or 128 bytes to read or write, 4, 8 or 16 of an atomic. -/
def opFits (op : RemoteOp) (a n : Nat) : Bool :=
  match op with
  | .load _ => n == 64 || n == 128
  | .store _ bs => bs.length == n && (n == 64 || n == 128)
  | .atom ty _ _ _ => n == ty.width / 8 && a % n == 0 && (n == 4 || n == 8 || n == 16)

/-- REMOTE_REQUEST (R400, R401, R413): what is refused changes nothing; a packet that is no such request is none to this device. -/
def execRemoteRequest (dev pa n : Nat) (op : RemoteOp) (s : State) : Out :=
  let a := paLocal pa
  let l := (s.peerOf dev).live
  let h : HeldReq := { dev := some dev, pa := pa, n := n, op := op }
  if paDevice pa != s.devNum || !opFits op a n then .next s
  else if l == .dead || l == .fenced || !s.admits h then .next (s.reply (some dev) pa n .refused)
  else .next (s.accept h)

/-- HELD_WRITE_RELEASE (R403, R404): an accepted request goes on when its turn has come. -/
def execHeldWriteRelease (k : Nat) (s : State) : Out :=
  match look s.held k with
  | none => .next s
  | some h => if h.sent || s.reqWaits h k then .next s else .next (s.serveHeld k h)

/-- Where a host address lies in HBM: by the first HDM decoder whose range holds the access, in its zone's HBM (R418). -/
def State.hdmAddr (s : State) (pa n : Nat) : Option Nat :=
  (s.hdm.find? fun d => d.2.valid && decide (d.2.base ≤ pa ∧ pa + n ≤ d.2.base + d.2.size)).bind fun d =>
    let a := d.2.target + (pa - d.2.base)
    if (look s.zones d.2.zone).any fun z => z.backs a && z.backs (a + n - 1) then some a else none

/-- HOST_REQUEST (R304, R418, R419): doorbells and device registers, which the functions' BARs map, at their local addresses; HBM at the
host addresses that the HDM decoders map. -/
def execHostRequest (from_ : Writer) (pa n : Nat) (op : HostOp) (s : State) : Out :=
  let host := match from_ with
    | .pf0 => true
    | .vf z => decide (z < 64) && (look s.zones z).isSome
    | _ => false
  let a := paLocal pa
  let cxl := fun (o : RemoteOp) => match s.hdmAddr pa n with
    | some a => if s.reqReaches a n (opWrites o) then s.accept { dev := none, pa := s.ownPa a, n := n, op := o } else s
    | none => s
  match op with
  | .read =>
    if !s.bridge || !s.chipActive 12 || !host || n == 0 then .next s
    else
      match regionOf a with
      | .doorbell | .devreg => .next (s.reply none pa n (dataOf (s.readRegs from_ a n)))
      | _ => .next (cxl (.load 0))
  | .write bs =>
    if !s.bridge || !s.chipActive 12 || !host || bs.length != n || n == 0 then .next s
    else
      match regionOf a with
      | .doorbell => .next (s.writeRegs from_ a bs)
      | .devreg => if from_ = .pf0 then .next (s.writeRegs from_ a bs) else .next s
      | _ => .next (cxl (.store (BitVec.allOnes 128) bs))

/-! ## Requests that went out: answers and failures (R402, R413, R414, R419) -/

/-- A load's line has failed. -/
def State.failLoadLine (s : State) (u id k kind dev line : Nat) : State :=
  s.updGroup u fun g =>
    match g.loads.find? fun r => r.id == id with
    | none => g
    | some r =>
      let g := if r.kind.reports then { g with reports := g.reports ++ [⟨kind, dev, r.threadsOn line⟩] } else g
      g.finishLoad (r.fail k line)

/-- The request's failure is reported, and logged unless nothing is reported of it (R427). -/
def State.noted (s : State) (q : Req) : Bool :=
  match q.src with
  | .probe => false
  | .load u id _ =>
    match (look s.groups u).bind fun g => g.loads.find? fun r => r.id == id with
    | some r => r.kind.reports
    | none => false
  | .store u fid =>
    match look s.groups u with
    | some g => g.fly.any fun f => f.fid == fid
    | none => false
  | _ => true

/-- The zone for which a request has gone out; 0xFFFF for none. -/
def State.reqZone (s : State) (q : Req) : Nat :=
  let ofCtx := fun c : Nat => ((look s.ctxs c).map fun cx : Ctx => cx.zone).getD 0xFFFF
  match q.src with
  | .load u _ _ | .store u _ => ((look s.groups u).map s.zoneNum).getD 0xFFFF
  | .copy k => (((look s.copies k).bind fun c => look s.teams c.team).map fun t : Team => ofCtx t.ctx).getD 0xFFFF
  | .coll gr _ => ((look s.graphs gr).map fun g : Graph => ofCtx g.ctx).getD 0xFFFF
  | .held _ | .probe => 0xFFFF

/-- A request fails: kinds for a load, for a store or RED, for an atomic (R414, R419). -/
def State.failReq (s : State) (k : Nat) (q : Req) (kl ks ka : Nat) : State :=
  let s := if s.noted q then s.logError 3 none (if q.host then s.devNum else q.dev) (s.reqZone q) 0 else s
  let s := { s with rout := del s.rout k }
  match q.src with
  | .load u id j => s.failLoadLine u id j kl q.dev q.line
  | .copy c => { s with copies := upd s.copies c TCopy.cut }
  | .probe => s
  | .held n =>
    match look s.held n with
    | some h => { s with held := del s.held n }.reply h.dev h.pa h.n .hostFailed
    | none => s
  | .coll gr nd => s.updGraph gr fun g => g.setNode nd fun x => { x with lost := true }
  | .store u fid =>
    match look s.groups u with
    | none => s
    | some g =>
      match g.fly.find? fun f => f.fid == fid with
      | some f => s.failFly u f (some (if f.parts.any SPart.isAtom && g.pends.any (fun p => p.id == f.id) then ka else ks, q.dev))
      | none => s

/-- A remote line has come back: copies in the slice and the proxy vault where the zone has ways there (R402); none of an uncached
page (R180). -/
def LineCtx.keepRemote (c : LineCtx) (s : State) (q : Req) (line : LineData) : State :=
  let d := c.core / 128
  let copy : RCopy := { data := line, exp := q.exp, ft := q.at_ }
  let keep := fun (s : State) (cache key : Nat) =>
    if s.waysAt c.zn cache = 0 then s
    else
      let s := if (look s.rcopies key).isSome then s else s.roomAt c.zn cache
      { s with rcopies := put s.rcopies key copy }
  if q.exp = 0 || !s.timeGood || c.q.leaf.unc then s
  else keep (keep s (s.sliceHome d c.zn q.line) (s.rDistrict d c.zn q.line)) (swizzle (q.line % 2 ^ 33) % 4) (rVault c.zn q.line)

/-- An earlier load of one of the threads still waits for the line, or where both are uncached for any line: it binds first (R225, R180). -/
def LineCtx.bindsLater (c : LineCtx) : Bool :=
  c.afterUncached || c.g.loads.any fun r => decide (r.id < c.r.id)
    && r.lines.any fun q => q.line == c.q.line && q.stat != .done && (r.threadsOn q.line &&& c.r.threadsOn c.q.line) != 0

/-- A remote line reaches the load that asked for it; none of it is kept when it came poisoned (R7, R189). -/
def State.takeRemote (s : State) (u id k : Nat) (q : Req) (line : Option LineData) : State :=
  match s.lineCtx? u id k, line with
  | some c, some d => c.bind (c.keepRemote s q d) (fun a => LineData.byte d a) false 0
  | some c, none => c.bind s poisonByte true 0
  | none, _ => s

/-- A remote entry's line is acknowledged: old values for its atomic parts in order; no timestamp (R208, R400). The write's place in
the line's race check is the group's clock as the entry left, the only logical time that it has (R233, R234). -/
def State.ackRemote (s : State) (u fid : Nat) (olds : List W128) : State :=
  let s := match (look s.groups u).bind fun g => (g.fly.find? fun f => f.fid == fid).map fun f => (g, f) with
    | some (g, f) => s.raceStamp (s.zoneNum g) f.line g.team f.p
    | none => s
  s.updGroup u fun g =>
    { g with fly := g.fly.map fun (f : FlyLine) =>
        if f.fid = fid then
          { f with accepted := true, done := some (none, ((f.parts.filter SPart.isAtom).map fun p => p.thr).zip (olds.map fun o => o.toNat), none) }
        else f }

/-- REMOTE_RESPONSE (R402, R413, R414). -/
def execRemoteResponse (k : Nat) (r : RemoteReply) (s : State) : Out :=
  match look s.rout k with
  | none => .next s
  | some q =>
    let l := (s.peerOf q.dev).live
    if q.host then .next s
    else if q.src = .probe then .next ({ s with rout := del s.rout k }.setLive q.dev .alive)
    else if l == .dead || l == .fenced then .next s
    else
      let s := if l == .suspect then s.setLive q.dev .alive else s
      let gone := { s with rout := del s.rout k }
      match r, q.src with
      | .refused, _ => .next (s.failReq k q 5 5 5)
      | .hostFailed, _ => .next (s.failReq k q 7 7 7)
      | .data line, .load u id j =>
        .next (if (s.lineCtx? u id j).any LineCtx.bindsLater then s else gone.takeRemote u id j q (some line))
      | .poisoned, .load u id j =>
        .next (if (s.lineCtx? u id j).any LineCtx.bindsLater then s else gone.takeRemote u id j q none)
      | .data line, .copy c => .next { gone with copies := upd gone.copies c fun x => { x with far := put x.far q.line line } }
      | .poisoned, .copy c =>
        .next { gone with copies := upd gone.copies c fun x => { x with far := put x.far q.line 0, farBad := q.line :: x.farBad } }
      | .ack olds, .store u fid => .next (gone.ackRemote u fid olds)
      | .ack _, .coll .. => .next gone
      | _, _ => .next s

/-- REMOTE_FAILURE (R414): requests to a device that has stopped responding, or that no station reaches any more. -/
def execRemoteFailure (k : Nat) (s : State) : Out :=
  match look s.rout k with
  | none => .next s
  | some q =>
    if q.host || q.src == .probe || s.reachable q.dev then .next s else .next (s.failReq k q 1 2 3)

/-- FENCE_ASSIST_ANSWER (R408): every remote entry before the group's latest pod release is accepted. -/
def execFenceAssistAnswer (u : Nat) (s : State) : Out :=
  match look s.groups u with
  | none => .next s
  | some g =>
    let seq := (g.rels.filter fun r => r.pod).foldl (fun n r => max n r.seq) 0
    .next (s.setGroup u { g with fly := g.fly.map fun (f : FlyLine) => if f.remote && decide (f.id < seq) then { f with accepted := true } else f })

/-- SUSPECT (R413): a request has had no response for 100 µs; a probe is sent. -/
def execSuspect (dev : Nat) (s : State) : Out :=
  if (s.peerOf dev).live == .alive && s.rout.any fun r => r.2.dev == dev && !r.2.host && r.2.src != .probe && decide (r.2.at_ + 100000 ≤ s.now) then
    .next ((s.setLive dev .suspect).sendProbe dev)
  else .next s

/-- PROBE_TIMEOUT (R413). -/
def execProbeTimeout (dev : Nat) (s : State) : Out :=
  if (s.peerOf dev).live == .suspect && decide ((s.peerOf dev).since + 50000 ≤ s.now) then .next ((s.setLive dev .dead).dropProbes dev)
  else .next s

/-- LINK_DOWN (R413): every station to the device has lost its link, or the switch reports its port down. -/
def execLinkDown (dev : Nat) (s : State) : Out :=
  if (s.peerOf dev).live == .fenced || dev == s.devNum then .next s else .next ((s.setLive dev .dead).dropProbes dev)

/-- HOST_COMPLETION (R419): the vault orders the access and the host performs it, or fails it. -/
def execHostCompletion (k : Nat) (ok : Bool) (s : State) : Out :=
  match look s.rout k with
  | none => .next s
  | some q =>
    if !q.host then .next s
    else if !ok || !s.bridge || !s.chipActive 12 then .next (s.failReq k q 7 7 7)
    else
      let gone := { s with rout := del s.rout k }
      let data := s.lineData q.line
      match q.src with
      | .held n =>
        match look s.held n with
        | some h => .next ({ gone with held := del s.held n }.performReq h)
        | none => .next gone
      | .load u id j =>
        match s.lineCtx? u id j with
        | none => .next gone
        | some c =>
          let granted := c.grant gone
          let atHome := fun s : State =>
            let (s, ts) := s.homeRead c.zn (c.home s) q.line c.r.p
            c.bind s (fun a => LineData.byte data a) false ts
          .next (if !c.turn s then s
            else if c.q.leaf.unc then atHome gone
            else if c.leased granted then c.to granted .fill
            else atHome granted)
      | .copy c => .next { gone with copies := upd gone.copies c fun x => { x with far := put x.far q.line data } }
      | .probe | .coll .. => .next gone
      | .store u fid =>
        match look s.groups u with
        | none => .next gone
        | some g =>
          match g.fly.find? fun f => f.fid == fid with
          | some f => .next (gone.performFly u (s.zoneNum g) g f)
          | none => .next gone

/-! ## Collectives (R409 to R412) -/

/-- An address of a buffer: the engine works at the line's home, on this device or on one that it reaches (R229, R400, R411). -/
def State.bufAddr (s : State) (cx : Ctx) (va : VA) (acc : Acc) : Except ExFail (Nat × Leaf) :=
  match s.exAddr cx va acc, s.walkVa cx va acc with
  | .error .remote, .ok pa leaf => if paDevice pa ≠ s.devNum ∧ s.reachable (paDevice pa) then .ok (pa, leaf) else .error .remote
  | r, _ => r

/-- A part of a buffer on one line: its address, what its leaf says, where it lies in the buffer, its bytes. -/
structure BufPiece where
  pa   : Nat
  leaf : Leaf
  at_  : Nat
  n    : Nat
  deriving DecidableEq, Repr

/-- The pieces of a buffer, rows in order. -/
def State.bufPieces (s : State) (cx : Ctx) (x : Shape) (acc : Acc) : Except ExFail (List BufPiece) :=
  let rows := (x.rows 0).mapIdx fun i va => (i * x.rowBytes, va)
  (rows.flatMap fun r => (cutAt 128 (r.2.toNat % 128) x.rowBytes).map fun p => (r.2 + BitVec.ofNat 72 p.2.1, r.1 + p.2.1, p.2.2)).foldl
    (fun l p => match l, s.bufAddr cx p.1 acc with
      | .error e, _ => .error e
      | .ok _, .error e => .error e
      | .ok l, .ok (pa, leaf) => .ok (l ++ [⟨pa, leaf, p.2.1, p.2.2⟩])) (.ok [])

/-- The bytes of a send buffer; `far` is the whole buffer as the engine has it, for what lies on other devices. -/
def State.bufRead (s : State) (cx : Ctx) (x : Shape) (far : List Byte) : Option (List Byte) :=
  match s.bufPieces cx x .load with
  | .error _ => none
  | .ok ps =>
    if ps.any fun p => !s.isRemote (lineOf p.pa) && s.badLine (lineOf p.pa) then none
    else some (ps.flatMap fun p => if s.isRemote (lineOf p.pa) then (far.drop p.at_).take p.n else s.readLocal (paLocal p.pa) p.n)

/-- Bytes of a buffer written at this device's homes, with the zone's clock (R229). -/
def State.bufPut (s : State) (zn : Nat) (ps : List BufPiece) (bytes : List Byte) : State :=
  ps.foldl (fun s p => if s.isRemote (lineOf p.pa) then s
    else s.agentWrite zn p.leaf p.pa (s.zoneOf zn).zclk ((bytes.drop p.at_).take p.n)) s

/-- The lines of a buffer that lie on other devices. -/
def State.bufFar (s : State) (ps : List BufPiece) : List Nat := dedup ((ps.map fun p => lineOf p.pa).filter s.isRemote)

/-- No frame of code and no uncorrectable line lies in a receive buffer. -/
def State.bufOpen (s : State) (ps : List BufPiece) : Bool :=
  ps.all fun p => s.isRemote (lineOf p.pa) || (!s.isCode p.pa && !s.badLine (lineOf p.pa))

/-- A buffer waits at its homes: for requests accepted before (R400), and where it is written for leases of other devices (R403). -/
def State.bufHeld (s : State) (cx : Ctx) (x : Shape) (acc : Acc) : Bool :=
  ((x.rows 0).any fun va => s.exWalks cx va x.rowBytes)
    || match s.bufPieces cx x acc with
    | .error _ => false
    | .ok ps => ps.any fun p => !s.isRemote (lineOf p.pa) && (s.lineQueued (lineOf p.pa)
        || (acc == .store && s.homeHeld cx.zone (s.homeOf (s.zoneOf cx.zone) p.leaf p.pa) (lineOf p.pa)))

def Shape.elems (x : Shape) : Nat := x.d0 * x.d1 * x.d2
/-- Elements of packed bytes, and back (R67). -/
def unpackElems (c n : Nat) (bs : List Byte) : List Nat := (List.range n).map (elemAt bs c)
def packElems (c : Nat) (es : List Nat) : List Byte := bytesOf (es.length * c / 8) (es.foldr (fun e a => e % 2 ^ c + 2 ^ c * a) 0)

/-- What member i receives (R410); none when the counts do not suit. -/
def collResult (cop root : Nat) (op : Option RedOp) (ty : Ty) (self e recv : Nat) (ins : List (List Nat)) : Option (List Nat) :=
  let n := ins.length
  let r := e / n
  let at_ := fun j k : Nat => (ins.getD j []).getD k 0
  let red := fun k : Nat => op.bind fun o =>
    if redOk o ty then (((redRun o ty ((List.range n).map fun j => at_ j k)).getLast?).map fun v : Nat × Flags => v.1) else none
  let all := fun l : List (Option Nat) => l.foldr (fun a b => match a, b with
    | some x, some y => some (x :: y)
    | _, _ => none) (some [])
  match cop with
  | 0 => if recv = e then all ((List.range e).map red) else none
  | 1 => if e % n = 0 ∧ recv = r then all ((List.range r).map fun k => red (self * r + k)) else none
  | 2 => if recv = n * e then some (ins.flatMap fun l => l.take e) else none
  | 3 => if recv = e ∧ root < n then some (ins.getD root []) else none
  | 4 => if e % n = 0 ∧ recv = e then some ((List.range n).flatMap fun j => (List.range r).map fun k => at_ j (self * r + k)) else none
  | _ => none

/-- The node has failed: its receive buffer holds unspecified bytes (R412); the members that are lost enter the error log (R414). -/
def State.failColl (s : State) (cx : Ctx) (x : Shape) (gr nd status : Nat) (lost : List Nat := []) : State :=
  let n := x.rowBytes * (x.rows 0).length
  let free := (List.range n).map fun i => Config.freeByte (s.nfree + i)
  let s := lost.foldl (fun s d => s.logError 3 none d cx.zone 0) { s with nfree := s.nfree + n }
  let s := match s.bufPieces cx x .store with
    | .ok ps => if s.bufOpen ps then s.bufPut cx.zone ps free else s
    | .error _ => s
  s.retireNode gr nd status fun _ => false

/-- The zone's clock reaches the collective's writes, so that a successor's launch acquires them (R411). -/
def State.raiseClock (s : State) (zn : Nat) (cx : Ctx) (x : Shape) : State :=
  let lines := match s.bufPieces cx x .load with
    | .ok ps => (ps.map fun p => lineOf p.pa).filter fun l => !s.isRemote l
    | .error _ => []
  let top := (dedup lines).foldl (fun t l => match look s.homes (s.coKey zn l) with
    | some h => max t h.wts
    | none => t) 0
  s.updZone zn fun z => { z with zclk := max z.zclk (max top (z.mts.foldl (fun m h => max m h.2) 0)) }

/-- The node's receive buffer is written and performed: it retires. -/
def State.endColl (s : State) (cx : Ctx) (x : Shape) (gr nd : Nat) : State := (s.raiseClock cx.zone cx x).retireNode gr nd 0 fun _ => true

/-- A result is written at its homes; to those of other devices it is sent, and the node retires when they have performed it. -/
def State.writeColl (s : State) (cx : Ctx) (x : Shape) (gr nd : Nat) (bytes : List Byte) : State :=
  match s.bufPieces cx x .store with
  | .error _ => s.failColl cx x gr nd 0x0205
  | .ok ps =>
    if !s.bufOpen ps then s.failColl cx x gr nd 0x0205
    else
      let far := s.bufFar ps
      let t := far.foldl (fun s l => s.send ⟨.coll gr nd, paDevice (l * 128), l, false, 0, s.now⟩) (s.bufPut cx.zone ps bytes)
      if far.isEmpty then t.endColl cx x gr nd else t.updGraph gr fun g => g.setNode nd fun x => { x with wrote := true }

/-- COLLECTIVE_RETIRE (R410 to R412): `inputs` are the members' send buffers as their engines read them, this device's own taken from
its memory; `status` tells that members' nodes differ. A node whose receive buffer is written ends once its lines on other devices are. -/
def execCollectiveRetire (gr nd : Nat) (status : W16) (inputs : List (List Byte)) (s : State) : Out :=
  match look s.graphs gr with
  | none => .next s
  | some g =>
    let x := g.node nd
    match look s.ctxs g.ctx with
    | none => .next s
    | some cx =>
      match s.collShapes cx g x with
      | none => .next s
      | some (snd_, rcv) =>
        let n := x.fld 0x18 2
        let tableVa := g.addr (x.fld 0x10 8)
        if x.kind != 3 || x.st != .running || s.exQueued cx tableVa (2 * n) || s.bufHeld cx snd_ .load || s.bufHeld cx rcv .store then .next s
        else
          let self := x.fld 0x1A 2
          let table := (s.exRead? cx tableVa (2 * n)).map fun bs => (List.range n).map fun i => fieldOf bs (2 * i) 2
          match table, s.bufRead cx snd_ (inputs.getD self []) with
          | none, _ => .next (s.failColl cx rcv gr nd 0x0206)
          | _, none => .next (s.failColl cx rcv gr nd 0x0205)
          | some ds, some own =>
            let lost := ds.filter fun d => d != s.devNum && ((s.peerOf d).live == .dead || (s.peerOf d).live == .fenced)
            if status = 0x0206 ∨ ds.getD self 1024 ≠ s.devNum ∨ !(ds.Nodup : Bool) then .next (s.failColl cx rcv gr nd 0x0206)
            else if !lost.isEmpty || x.lost then .next (s.failColl cx rcv gr nd 0x0205 lost)
            else if x.wrote then
              .next (if s.rout.any fun r => r.2.src == .coll gr nd then s else s.endColl cx rcv gr nd)
            else if status ≠ 0 ∨ inputs.length ≠ n then .next s
            else
              let e := snd_.elems
              let c := snd_.ty.container
              let ins := (setAt inputs self fun _ => own).map (unpackElems c e)
              let op := RedOp.ofCode (BitVec.ofNat 3 (x.fld 0x1D 1))
              match (if snd_.ty == rcv.ty then collResult (x.fld 0x1C 1) (x.fld 0x1E 2) op snd_.ty self e rcv.elems ins else none) with
              | none => .next (s.failColl cx rcv gr nd 0x0206)
              | some out => .next (s.writeColl cx rcv gr nd (packElems c out))

/-! ## Device time (R404, R416) -/

/-- A correction within the bound; the time never goes back. -/
def State.slew (s : State) (n bound : Nat) : State := if s.now ≤ n ∧ n ≤ s.now + bound then { s with now := n } else s

/-- The time steps, as it may on entering LOCKING (R416); what has been measured from a moment before stays: how long a peer has been in
its state (R426), a request out, HOLDOVER left (R404), an FCONTAIN.clear waiting (R428). -/
def State.stepTime (s : State) (n : Nat) : State :=
  let same := fun t => n - (s.now - t)
  { s with now := n
           leftAt := if s.leftAt = 0 then 0 else max 1 (same s.leftAt)
           groups := mapVals s.groups fun _ g => { g with clearAt := g.clearAt.map same }
           peers := mapVals s.peers fun _ p => { p with since := same p.since }
           rout := mapVals s.rout fun _ q => { q with at_ := same q.at_ } }

/-- HOLDOVER is left (R404). -/
def State.leaveHoldover (s : State) (t : TimeStat) : State := { s with leftAt := max 1 s.now }.setTime t

/-- PTP_MESSAGE (R416): the time steps only as LOCKING is entered; `locked` tells that the discipline has converged. -/
def execPtpMessage (locked : Bool) (now : Nat) (s : State) : Out :=
  if !s.chipActive 12 then .next s
  else
    match s.tstat, locked with
    | .freerun, _ => .next ((s.stepTime now).setTime .locking)
    | .locking, true => .next ((s.slew now 50).setTime .locked)
    | .locking, false => .next (s.slew now 1000)
    | .locked, _ => .next (s.slew now 50)
    | .holdover, true => .next ((s.slew now 1000).leaveHoldover .locked)
    | .holdover, false => .next s

/-- PPS_EDGE (R416): a second boundary corrects the time within its bound. -/
def execPpsEdge (now : Nat) (s : State) : Out :=
  if !s.chipActive 12 || now % 1000000000 != 0 then .next s
  else
    match s.tstat with
    | .locking | .locked => .next (s.slew now 50)
    | _ => .next s

/-- REFERENCE_LOSS (R416). -/
def execReferenceLoss (s : State) : Out :=
  .next (if s.tstat == .locked then { s with holdoverAt := s.now }.setTime .holdover else s)

/-- HOLDOVER_EXPIRY (R402, R404, R416): after 60 s FREERUN; the device then caches no remote line. -/
def execHoldoverExpiry (s : State) : Out :=
  if s.tstat == .holdover && decide (s.holdoverAt + 60000000000 ≤ s.now) then
    .next ({ s with rcopies := [] }.leaveHoldover .freerun)
  else .next s

/-! ## Words that are no instruction (R46, R48) -/

/-- ILLEGAL_WORD: ILLOP on every thread at the word. -/
def execIllegalWord (opc : BitVec 10) (s : State) : Out :=
  match s.view? with
  | none => .fault .noCurrentGroup
  | some w => .next (w.illop opc)

end Sys2Proof.Machine
end

