-- ==== Sys2Proof/Machine/Float.lean ====
section
/-!
DEFINITION. Class 0x1: floating forms (R120 to R127).
-/

namespace Sys2Proof.Machine

/-- What a rounding form takes beside its operands. -/
def View.fenv (w : View) (rm : RM) (sat : Bool) : FEnv := { ftz := w.cx.ftz, rm := rm, sat := sat }

/-- Two operands, one rounding. -/
def fbin (i : Instr) (s : State) (x : FBin) (f : Ty → FEnv → Nat → Nat → Nat × Flags) : Out :=
  laneOp i s false fun w _ t => .float (f x.ty (w.fenv x.rm x.sat) (w.rd x.ty x.a t) (w.rd x.ty x.b t))

/-- Three operands, one rounding. -/
def fter (i : Instr) (s : State) (x : FTer) : Out :=
  laneOp i s false fun w _ t =>
    .float (fmaBits x.ty (w.fenv x.rm x.sat) (w.rd x.ty x.a t) (w.rd x.ty x.b t) (w.rd x.ty x.c t))

/-- Both elements of a packed form (R123). -/
def packedBin (i : Instr) (s : State) (x : FBin) (f : Ty → FEnv → Nat → Nat → Nat × Flags) : Out :=
  laneOp i s false fun w _ t =>
    let a := w.packed x.ty x.a t
    let b := w.packed x.ty x.b t
    let v := w.fenv x.rm x.sat
    packedOut (f x.ty v a.1 b.1) (f x.ty v a.2 b.2)

/-- FMIN to DMAX (R124). -/
def fminmax (i : Instr) (s : State) (x : FMinMax) (big : Bool) : Out :=
  laneOp i s false fun w _ t => .float (minmaxBits x.ty w.cx.ftz x.nanp big (w.rd x.ty x.a t) (w.rd x.ty x.b t))

/-- HMIN2 and HMAX2, element by element (R124). -/
def packedMinmax (i : Instr) (s : State) (x : FMinMax) (big : Bool) : Out :=
  laneOp i s false fun w _ t =>
    let a := w.packed x.ty x.a t
    let b := w.packed x.ty x.b t
    packedOut (minmaxBits x.ty w.cx.ftz x.nanp big a.1 b.1) (minmaxBits x.ty w.cx.ftz x.nanp big a.2 b.2)

/-- FSETP and DSETP (R114, R115, R125). -/
def fsetp (i : Instr) (s : State) (x : Setp) : Out :=
  laneOp i s false fun w _ t =>
    let a := w.rd x.ty x.a t
    let b := w.rd x.ty x.b t
    let c := cmpF x.cmp (decodeF x.ty w.cx.ftz a) (decodeF x.ty w.cx.ftz b)
    { p := x.bop.run c ((w.g.thread t).pred x.pc != x.negc), fl := cmpFlags x.ty x.cmp a b }

def execFadd (x : FBin) (s : State) : Out := fbin (.fadd x) s x addBits
def execFsub (x : FBin) (s : State) : Out := fbin (.fsub x) s x subBits
def execFmul (x : FBin) (s : State) : Out := fbin (.fmul x) s x mulBits
def execFfma (x : FTer) (s : State) : Out := fter (.ffma x) s x
def execFmin (x : FMinMax) (s : State) : Out := fminmax (.fmin x) s x false
def execFmax (x : FMinMax) (s : State) : Out := fminmax (.fmax x) s x true
def execFsetp (x : Setp) (s : State) : Out := fsetp (.fsetp x) s x

/-- FCLASS (R126). -/
def execFclass (x : Un) (s : State) : Out :=
  laneOp (.fclass x) s false fun w _ t => .bits (fclassBits x.ty w.cx.ftz (w.rd x.ty x.a t))

/-- FSCALE (R127). -/
def execFscale (x : FBin) (s : State) : Out :=
  laneOp (.fscale x) s false fun w _ t =>
    .float (fscaleBits x.ty (w.fenv x.rm x.sat) (w.rd x.ty x.a t) (w.int .i32 x.b t))

/-- FRND (R127). -/
def execFrnd (x : Frnd) (s : State) : Out :=
  laneOp (.frnd x) s false fun w _ t => .float (frndBits x.ty w.cx.ftz x.rm x.x (w.rd x.ty x.a t))

def execHadd2 (x : FBin) (s : State) : Out := packedBin (.hadd2 x) s x addBits
def execHmul2 (x : FBin) (s : State) : Out := packedBin (.hmul2 x) s x mulBits

/-- HFMA2 (R123). -/
def execHfma2 (x : FTer) (s : State) : Out :=
  laneOp (.hfma2 x) s false fun w _ t =>
    let a := w.packed x.ty x.a t
    let b := w.packed x.ty x.b t
    let c := w.packed x.ty x.c t
    let v := w.fenv x.rm x.sat
    packedOut (fmaBits x.ty v a.1 b.1 c.1) (fmaBits x.ty v a.2 b.2 c.2)

def execHmin2 (x : FMinMax) (s : State) : Out := packedMinmax (.hmin2 x) s x false
def execHmax2 (x : FMinMax) (s : State) : Out := packedMinmax (.hmax2 x) s x true
def execDadd (x : FBin) (s : State) : Out := fbin (.dadd x) s x addBits
def execDmul (x : FBin) (s : State) : Out := fbin (.dmul x) s x mulBits
def execDfma (x : FTer) (s : State) : Out := fter (.dfma x) s x
def execDsetp (x : Setp) (s : State) : Out := fsetp (.dsetp x) s x
def execDmin (x : FMinMax) (s : State) : Out := fminmax (.dmin x) s x false
def execDmax (x : FMinMax) (s : State) : Out := fminmax (.dmax x) s x true

end Sys2Proof.Machine
end

