-- ==== Sys2Proof/Machine/Integer.lean ====
section
/-!
DEFINITION. Class 0x0: integer, logical, move and address forms (R106 to R119).
-/

namespace Sys2Proof.Machine

/-- Two integer operands reduced or clamped to the type (R108). -/
def intBin (i : Instr) (s : State) (ty : Ty) (sat : Bool) (a b : Src) (f : Int → Int → Int) : Out :=
  laneOp i s ty.sfill fun w _ t => .bits (satWrap ty sat (f (w.int ty a t) (w.int ty b t)))

/-- One integer operand reduced or clamped to the type (R108). -/
def intUn (i : Instr) (s : State) (ty : Ty) (sat : Bool) (a : Src) (f : Int → Int) : Out :=
  laneOp i s ty.sfill fun w _ t => .bits (satWrap ty sat (f (w.int ty a t)))

/-- A logical form on bits (R111). -/
def bitBin (i : Instr) (s : State) (ty : Ty) (a b : Src) (f : Nat → Nat → Nat) : Out :=
  laneOp i s false fun w _ t => .bits (f (w.rd ty a t) (w.rd ty b t) % 2 ^ ty.width)

/-- MOV (R117). -/
def execMov (x : Un) (s : State) : Out := laneOp (.mov x) s false fun w _ t => .bits (w.rd x.ty x.a t)

/-- MOVI (R117): an s destination keeps its own fill. -/
def moviBits (mode : MoviMode) (imm : W32) (old : W64) : W64 :=
  match mode with
  | .zx => imm.setWidth 64
  | .sx => imm.signExtend 64
  | .hi => imm ++ old.extractLsb' 0 32

/-- MOVI.hi writes the quarters 2 and 3 of an s register alone: the errors of the other two stay (R105). -/
def Group.setMovi (g : Group) (mode : MoviMode) (imm : W32) (n : Nat) : Group :=
  let kept := fun k : Mark => !(k.file == .s && k.reg == n && (mode != .hi || 2 ≤ k.half))
  { g.setS n (moviBits mode imm (g.sreg n)) with marks := g.marks.filter kept, soft := g.soft.filter kept }

def execMovi (x : Movi) (s : State) : Out :=
  match x.d with
  | .s n => issue (.movi x) s fun w _ =>
      let g := (w.g.setMovi x.mode x.imm n.toNat).advance w.sel
      .next (w.s.issued w.u x.ctl w.halting (w.track (.movi x) 0 .now g))
  | _ => laneOp (.movi x) s false fun _ _ _ => .bits x.imm.toNat

/-- MOVS (R117): the value of the lowest thread of the execution mask. -/
def execMovs (x : Un) (s : State) : Out := laneOp (.movs x) s false fun w _ t => .bits (w.rd x.ty x.a t)

/-- MOVV (R117): thread k alone, when the execution mask holds it. -/
def execMovv (x : Bin) (s : State) : Out :=
  issue (.movv x) s fun w m =>
    let k := w.n32 x.b (lowest m) % 32
    let only : Mask := if inMask m k then 1#32 <<< k else 0
    let g := results (.movv x) only w.sel false (fun t => .bits (w.rd x.ty x.a t)) w.g
    .next (w.s.issued w.u x.ctl w.halting (w.track (.movv x) 0 .now g))

def execIadd (x : BinS) (s : State) : Out := intBin (.iadd x) s x.ty x.sat x.a x.b fun a b => a + b
def execIsub (x : BinS) (s : State) : Out := intBin (.isub x) s x.ty x.sat x.a x.b fun a b => a - b
def execImul (x : BinS) (s : State) : Out := intBin (.imul x) s x.ty x.sat x.a x.b fun a b => a * b
/-- IMULH (R108): the upper half of the product. -/
def execImulh (x : Bin) (s : State) : Out :=
  intBin (.imulh x) s x.ty false x.a x.b fun a b => Int.fdiv (a * b) (2 ^ x.ty.width)
def execImin (x : Bin) (s : State) : Out := intBin (.imin x) s x.ty false x.a x.b fun a b => min a b
def execImax (x : Bin) (s : State) : Out := intBin (.imax x) s x.ty false x.a x.b fun a b => max a b
def execIabs (x : UnS) (s : State) : Out := intUn (.iabs x) s x.ty x.sat x.a fun a => if a < 0 then -a else a
def execIneg (x : UnS) (s : State) : Out := intUn (.ineg x) s x.ty x.sat x.a fun a => -a

/-- IMAD (R108). -/
def execImad (x : TerS) (s : State) : Out :=
  laneOp (.imad x) s x.ty.sfill fun w _ t =>
    .bits (satWrap x.ty x.sat (w.int x.ty x.a t * w.int x.ty x.b t + w.int x.ty x.c t))

/-- The 64-bit form of a 32-bit integer type. -/
def wide64 (t : Ty) : Ty := if t.signed then .i64 else .n64

/-- IMADW (R108): a 64-bit addend and result. -/
def execImadw (x : TerS) (s : State) : Out :=
  laneOp (.imadw x) s false fun w _ t =>
    .bits (satWrap (wide64 x.ty) x.sat
      (w.int x.ty x.a t * w.int x.ty x.b t + w.int (wide64 x.ty) x.c t))

/-- IADDC (R109): the sum and the carry. -/
def addCarry (w a b k : Nat) : Nat × Bool := ((a + b + k) % 2 ^ w, decide (a + b + k ≥ 2 ^ w))
/-- ISUBB (R109): the difference and the borrow. -/
def subBorrow (w a b k : Nat) : Nat × Bool := ((a + 2 ^ w + 2 ^ w - b - k) % 2 ^ w, decide (a < b + k))

/-- The carry operand: a predicate, or zero (R109). -/
def View.carry (w : View) (c : Src) (t : Nat) : Nat :=
  match c with
  | .p n => if (w.g.thread t).pred n then 1 else 0
  | _ => 0

def execIaddc (x : Carry) (s : State) : Out :=
  laneOp (.iaddc x) s false fun w _ t =>
    let r := addCarry x.ty.width (w.rd x.ty x.a t) (w.rd x.ty x.b t) (w.carry x.ci t)
    { d := r.1, p := r.2 }

def execIsubb (x : Carry) (s : State) : Out :=
  laneOp (.isubb x) s false fun w _ t =>
    let r := subBorrow x.ty.width (w.rd x.ty x.a t) (w.rd x.ty x.b t) (w.carry x.ci t)
    { d := r.1, p := r.2 }

/-- Quotient and remainder of R110. -/
def divRem (ty : Ty) (sat : Bool) (a b : Int) : Int × Int :=
  if b = 0 then (2 ^ ty.width - 1, a)
  else if ty.signed ∧ a = intMin ty ∧ b = -1 then (if sat then intMax ty else intMin ty, 0)
  else (Int.tdiv a b, Int.tmod a b)

def execIdiv (x : BinS) (s : State) : Out :=
  laneOp (.idiv x) s x.ty.sfill fun w _ t =>
    .bits (wrap x.ty.width (divRem x.ty x.sat (w.int x.ty x.a t) (w.int x.ty x.b t)).1)

def execIrem (x : Bin) (s : State) : Out :=
  laneOp (.irem x) s x.ty.sfill fun w _ t =>
    .bits (wrap x.ty.width (divRem x.ty false (w.int x.ty x.a t) (w.int x.ty x.b t)).2)

/-- The complement of the low w bits. -/
def notN (w a : Nat) : Nat := 2 ^ w - 1 - a % 2 ^ w

def execAnd (x : Bin) (s : State) : Out := bitBin (.and x) s x.ty x.a x.b fun a b => a &&& b
def execOr (x : Bin) (s : State) : Out := bitBin (.or x) s x.ty x.a x.b fun a b => a ||| b
def execXor (x : Bin) (s : State) : Out := bitBin (.xor x) s x.ty x.a x.b fun a b => a ^^^ b
def execAndn (x : Bin) (s : State) : Out := bitBin (.andn x) s x.ty x.a x.b fun a b => a &&& notN x.ty.width b
def execNot (x : Un) (s : State) : Out :=
  laneOp (.not x) s false fun w _ t => .bits (notN x.ty.width (w.rd x.ty x.a t))

/-- The shifts of R111 on w bits by n. -/
def shlN (w a n : Nat) : Nat := if n ≥ w then 0 else a * 2 ^ n % 2 ^ w
def shrN (w a n : Nat) : Nat := if n ≥ w then 0 else a / 2 ^ n
def sarN (w a n : Nat) : Nat :=
  let top := a.testBit (w - 1)
  if n ≥ w then (if top then 2 ^ w - 1 else 0)
  else a / 2 ^ n + (if top then 2 ^ w - 2 ^ (w - n) else 0)
def rotN (w a n : Nat) : Nat := let k := n % w; (a * 2 ^ k % 2 ^ w) ||| (a / 2 ^ (w - k))
def fshlN (w a b n : Nat) : Nat := let k := n % w; (a * 2 ^ w + b) * 2 ^ k / 2 ^ w % 2 ^ w

def shiftOp (i : Instr) (s : State) (x : Bin) (f : Nat → Nat → Nat → Nat) : Out :=
  laneOp i s false fun w _ t => .bits (f x.ty.width (w.rd x.ty x.a t) (w.n32 x.b t))

def execShl (x : Bin) (s : State) : Out := shiftOp (.shl x) s x shlN
def execShr (x : Bin) (s : State) : Out := shiftOp (.shr x) s x shrN
def execSar (x : Bin) (s : State) : Out := shiftOp (.sar x) s x sarN
def execRot (x : Bin) (s : State) : Out := shiftOp (.rot x) s x rotN
def execFshl (x : Ter) (s : State) : Out :=
  laneOp (.fshl x) s false fun w _ t =>
    .bits (fshlN x.ty.width (w.rd x.ty x.a t) (w.rd x.ty x.b t) (w.n32 x.c t))

/-- Counts and reversal (R112). -/
def popcN (w a : Nat) : Nat := ((List.range w).filter a.testBit).length
def clzN (w a : Nat) : Nat := if a = 0 then w else w - 1 - Nat.log2 a
def ctzN (w a : Nat) : Nat := ((List.range w).find? a.testBit).getD w
def brevN (w a : Nat) : Nat := (List.range w).foldl (fun r i => if a.testBit i then r + 2 ^ (w - 1 - i) else r) 0

def bitUn (i : Instr) (s : State) (x : Un) (f : Nat → Nat → Nat) : Out :=
  laneOp i s false fun w _ t => .bits (f x.ty.width (w.rd x.ty x.a t))

def execPopc (x : Un) (s : State) : Out := bitUn (.popc x) s x popcN
def execClz (x : Un) (s : State) : Out := bitUn (.clz x) s x clzN
def execCtz (x : Un) (s : State) : Out := bitUn (.ctz x) s x ctzN
def execBrev (x : Un) (s : State) : Out := bitUn (.brev x) s x brevN

/-- BFX (R113): a is extended to 512 bits, the field taken and extended by the type's signedness. -/
def bfxBits (ty : Ty) (a : Int) (ctl : Nat) : Nat :=
  let pos := bitsOf ctl 0 8
  let len := min (bitsOf ctl 8 8) ty.width
  if len = 0 then 0
  else
    let f := (Int.fdiv a (2 ^ pos) % (2 ^ len : Int))
    wrap ty.width (if ty.signed ∧ f ≥ 2 ^ (len - 1) then f - 2 ^ len else f)

def execBfx (x : Bin) (s : State) : Out :=
  laneOp (.bfx x) s x.ty.sfill fun w _ t => .bits (bfxBits x.ty (w.int x.ty x.a t) (w.n32 x.b t))

/-- BFI (R113): len low bits of a go over b from bit pos; bits of a at or above w read as 0, those that fall outside are
dropped. -/
def bfiBits (w a b ctl : Nat) : Nat :=
  let pos := bitsOf ctl 0 8
  let len := bitsOf ctl 8 8
  let hole := (2 ^ len - 1) * 2 ^ pos % 2 ^ w
  (b &&& notN w hole) ||| (a % 2 ^ len * 2 ^ pos % 2 ^ w)

def execBfi (x : Ter) (s : State) : Out :=
  laneOp (.bfi x) s false fun w _ t =>
    .bits (bfiBits x.ty.width (w.rd x.ty x.a t) (w.rd x.ty x.b t) (w.n32 x.c t))

/-- pC of a compare or select, complemented by NEGC (R115, R116). -/
def View.predC (w : View) (pc : BitVec 3) (negc : Bool) (t : Nat) : Bool := (w.g.thread t).pred pc != negc

def execIsetp (x : Setp) (s : State) : Out :=
  laneOp (.isetp x) s false fun w _ t =>
    .pred (x.bop.run (cmpI x.cmp (w.int x.ty x.a t) (w.int x.ty x.b t)) (w.predC x.pc x.negc t))

def execIsel (x : Sel) (s : State) : Out :=
  laneOp (.isel x) s false fun w _ t => .bits (w.rd x.ty (if w.predC x.pc x.negc t then x.a else x.b) t)

/-- LEA (R119). -/
def execLea (x : Lea) (s : State) : Out :=
  laneOp (.lea x) s false fun w _ t =>
    .bits (wrap 64 ((w.n64 x.a t : Int) + w.int x.ty x.b t * 2 ^ x.sh.toNat + w.int .i32 x.c t))

/-- The wide address LEAX forms (R119). -/
def leaxBits (w : View) (x : Leax) (t : Nat) : Nat :=
  match x.mode with
  | .add c sh => wrap 72 ((w.n128 x.a t : Int) % 2 ^ 72 + w.int x.ty x.b t * 2 ^ sh.toNat + w.int .i32 c t)
  | .join => w.n32 x.b t % 2 ^ 8 * 2 ^ 64 + w.n64 x.a t
  | .win => 0xFF * 2 ^ 64 + w.n32 x.b t % 2 ^ 8 * 2 ^ 56 + w.n64 x.a t % 2 ^ 56

def execLeax (x : Leax) (s : State) : Out := laneOp (.leax x) s false fun w _ t => .bits (leaxBits w x t)

end Sys2Proof.Machine
end

