-- ==== Sys2Proof/Machine/Promotion.lean ====
section
/-!
DEFINITION. ACQR: remote-scope promotion (R230), with the image of a spilled victim (R342).
-/

namespace Sys2Proof.Machine

/-- The block of a spilled team is written again as its team now is; entries that have left make it shorter. -/
def State.respill (s : State) (tk : Nat) : State :=
  match look s.teams tk with
  | none => s
  | some tm =>
    match look s.ctxs tm.ctx with
    | none => s
    | some cx =>
      if tm.run == .spilled then (s.exWrite cx (cx.spill + BitVec.ofNat 72 tm.spillAt) (s.teamBlock cx tk tm 0).1).toOption.getD s else s

/-- Steps 4 to 6 for drained victims: each group acts as at a .dev full fence, at a clock no smaller than the thief's. -/
def View.promote (w : View) (vs : AList Team) : State × Group :=
  let p := w.g.pts
  let s := vs.foldl (fun s v =>
    let s := (s.groupsOf v.1).foldl (fun s g => s.updGroup g.1 fun g =>
      let q := max (max g.pts g.lmax) p
      { g.addRelease .dev with pts := q, ah := q }) s
    let s := s.updTeam v.1 fun tm => { tm with relc := (tm.relc + 1) % 2 ^ 32, promo := tm.promo - 1 }
    (if v.2.run == .spilled then s else s.expireCore v.2.core w.cx.zone).respill v.1) w.s
  let top := vs.foldl (fun m v => (s.groupsOf v.1).foldl (fun m g => max m g.2.pts) m) p
  (s, { w.g with pts := top, ah := top })

/-- ACQR (R230): a full fence, then the victims stop, drain and are promoted. The victims' stop is recorded when the fence
is done; the wait is that of R23. -/
def execAcqr (x : SrcF) (s : State) : Out :=
  issue (.acqr x) s fun w m =>
    let ranks := (threadsOf m).map fun t => (t, w.n32 x.a t)
    let bad := maskOf fun t => ranks.any fun r => r.1 == t && decide (w.peers ≤ r.2)
    if bad != 0 then .next (w.trapHere 0x15 bad (w.n32 x.a (lowest bad)))
    else if !w.g.quiet .dev then .next (w.hold .away)
    else
      let vs := w.victims (ranks.map (·.2))
      if w.g.acqr.isEmpty && !vs.isEmpty then
        let s := vs.foldl (fun s v => s.updTeam v.1 fun tm => { tm with promo := tm.promo + 1 }) w.s
        .next ({ w with s := s, g := { w.g with acqr := vs.map fun (v : Nat × Team) => v.1 } }.hold .away)
      else if vs.any fun v => (v.2.away && v.2.run != .spilled) || !w.s.drained v.1 then .next (w.hold .away)
      else
        let g := (w.g.addRelease .dev).acquire .dev 0
        let (s, g) := { w with g := g }.promote vs
        let s := s.updTeam w.g.team fun tm => tm.countRelease .dev
        let g := { g with acqr := [] }
        .next (s.issued w.u x.ctl w.halting (w.track (.acqr x) 0 .now ((releaseS (Instr.acqr x).uses.srcs
          (g.mapThreads fun t th => if inMask m t then releaseV (Instr.acqr x).uses.srcs th else th)).advance w.sel)))

end Sys2Proof.Machine
end

