-- ==== Sys2Proof/Machine/Special.lean ====
section
/-!
DEFINITION. Class 0x2: special functions (R128 to R131), conversions and the random generator (R72 to R74, R81 to R93).
-/

namespace Sys2Proof.Machine

/-! ## Special functions -/

/-- A dyadic magnitude compared with another: m × 2^e ≤ n × 2^f. -/
def leDyadic (m : Nat) (e : Int) (n : Nat) (f : Int) : Bool :=
  let lo := min e f
  m * 2 ^ (e - lo).toNat ≤ n * 2 ^ (f - lo).toNat

/-- Floor(log2) of 1/x, √x and 1/√x for x = m × 2^e > 0. -/
def lgRecip (m : Nat) (e : Int) : Int :=
  let l := (Nat.log2 m : Int) + e
  if m = 2 ^ Nat.log2 m then -l else -l - 1
def lgSqrt (m : Nat) (e : Int) : Int := Int.fdiv ((Nat.log2 m : Int) + e) 2
def lgRsqrt (m : Nat) (e : Int) : Int :=
  let l := (Nat.log2 m : Int) + e
  if m = 2 ^ Nat.log2 m then Int.fdiv (-l) 2 else Int.fdiv (-l - 1) 2

/-- The exponent of ulp(y) for a result whose log is l (R129). -/
def ulpExp (l : Int) : Int := max l (-126) - 23

/-- A non-negative .f32 result as a multiple of 2^-149. -/
def f32Units (b : Nat) : Nat :=
  match decodeF .f32 false (b % 2 ^ 31) with
  | .fin _ m e => m * 2 ^ (e + 149).toNat
  | _ => 0

/-- Whether r lies within one ulp of the exact result (R129), for RCP (0), RSQ (1) and SQRT (2) of m × 2^e; magnitudes. -/
def withinUlp (op : Nat) (m : Nat) (e : Int) (r : Nat) : Bool :=
  let l := if op = 0 then lgRecip m e else if op = 1 then lgRsqrt m e else lgSqrt m e
  let u := 2 ^ (ulpExp l + 149).toNat
  let x := f32Units r
  let hi := x + u
  let lo := x - u
  if op = 0 then leDyadic 1 0 (hi * m) (e - 149) && leDyadic (lo * m) (e - 149) 1 0
  else if op = 1 then leDyadic 1 0 (hi * hi * m) (e - 298) && leDyadic (lo * lo * m) (e - 298) 1 0
  else leDyadic m e (hi * hi) (-298) && leDyadic (lo * lo) (-298) m e

/-- A result inside the bound: the exact one, cut to 80 binary digits with a sticky digit and rounded once. -/
def quotBits (neg : Bool) (num den : Nat) (e : Int) : Nat :=
  let q := num * 2 ^ 80 / den
  (roundF .f32 (.fixed .rne) false false neg (2 * q + (if q * den = num * 2 ^ 80 then 0 else 1)) (e - 81)).1

/-- An integer square root by bisection over k binary digits. -/
def isqrt (x : Nat) : Nat → Nat → Nat
  | 0, r => r
  | k + 1, r => let c := r + 2 ^ k; isqrt x k (if c * c ≤ x then c else r)

def rootBits (m : Nat) (e : Int) : Nat :=
  let sh := 80 + (e % 2).toNat
  let x := m * 2 ^ sh
  let r := isqrt x 64 0
  (roundF .f32 (.fixed .rne) false false false (2 * r + (if r * r = x then 0 else 1)) (Int.fdiv (e - sh) 2 - 1)).1

/-! EX2, LG2, SINPI, COSPI and TANH as numbers scaled by 2^256, good to 2^-200; R129 bounds what the chip may return. -/

def fxOne : Nat := 2 ^ 256
def fxLn2 : Nat := 0xB17217F7D1CF79ABC9E3B39803F2F6AF40F343267298B62D8A0D175B8BAAFA2B
def fxLog2e : Nat := 0x171547652B82FE1777D0FFDA0D23A7D11D6AEF551BAD2B4B1164A2CD9A342648F
def fxPi : Nat := 0x3243F6A8885A308D313198A2E03707344A4093822299F31D0082EFA98EC4E6C89

def fxMul (a b : Nat) : Nat := a * b / fxOne

/-- The terms x^k / k! from term k on. -/
def expSum (x : Nat) : Nat → Nat → Nat → Nat
  | 0, _, _ => 0
  | f + 1, k, t => t + expSum x f (k + 1) (fxMul t x / (k + 1))

/-- The terms of odd powers of y over their exponents. -/
def atanhSum (yy : Nat) : Nat → Nat → Nat → Nat
  | 0, _, _ => 0
  | f + 1, k, t => t / k + atanhSum yy f (k + 2) (fxMul t yy)

/-- The terms of the sine of a number whose square is xx. -/
def sinSum (xx : Nat) : Nat → Nat → Nat → Int
  | 0, _, _ => 0
  | f + 1, k, t => (t : Int) - sinSum xx f (k + 2) (fxMul t xx / ((k + 1) * (k + 2)))

def fxExp2 (a : Int) : Nat :=
  let n := Int.fdiv a fxOne
  let r := expSum (fxMul (a - n * fxOne).toNat fxLn2) 60 0 fxOne
  if 0 ≤ n then r * 2 ^ n.toNat else if n < -999 then 0 else r / 2 ^ (-n).toNat

def fxLog2 (m : Nat) (e : Int) : Int :=
  let k := Nat.log2 m
  let t := m * fxOne / 2 ^ k
  let y := (t - fxOne) * fxOne / (t + fxOne)
  ((k : Int) + e) * fxOne + fxMul (2 * atanhSum (fxMul y y) 90 1 y) fxLog2e

/-- sin(π a) for a ≥ 0. -/
def fxSinPi (a : Nat) : Int :=
  let r := a % (2 * fxOne)
  let q := r % fxOne
  let x := fxMul (min q (fxOne - q)) fxPi
  let v := sinSum (fxMul x x) 45 1 x
  if fxOne ≤ r then -v else v

def fxTanh (a : Nat) : Nat :=
  let t := fxExp2 (2 * fxMul a fxLog2e : Nat)
  (t - fxOne) * fxOne / (t + fxOne)

/-- The exact value of function op at a finite operand. -/
def fxValue (op : Nat) (neg : Bool) (m : Nat) (e : Int) : Int :=
  let a := m * 2 ^ (e + 256).toNat
  let sg := fun v : Int => if neg then -v else v
  match op with
  | 3 => fxExp2 (sg a)
  | 4 => fxLog2 m e
  | 5 => sg (fxSinPi a)
  | 6 => fxSinPi (a + fxOne / 2)
  | _ => sg (fxTanh a)

/-- k ULP of a value (R129). -/
def fxUlps (k : Nat) (y : Int) : Nat := k * 2 ^ (ulpExp ((Nat.log2 y.natAbs : Int) - 256) + 256).toNat

/-- How far the chip's result may lie from the exact value (R129). -/
def fxBound (op : Nat) (neg : Bool) (m : Nat) (e y : Int) : Nat :=
  match op with
  | 3 => if neg && !leDyadic m e 126 0 then 2 ^ 108 else fxUlps 2 y
  | 4 => if leDyadic 1 (-1) m e && leDyadic m e 2 0 then 2 ^ 234 else fxUlps 2 y
  | _ => fxUlps 4 y

/-- The chip's bits where they meet the bound, and else the nearest value. -/
def nearResult (op : Nat) (neg : Bool) (m : Nat) (e : Int) (r : Nat) : Nat :=
  let y := fxValue op neg m e
  let ok := match decodeF .f32 false r with
    | .fin s n f => (let v : Int := n * 2 ^ (f + 256).toNat
                     decide (((if s then -v else v) - y).natAbs ≤ fxBound op neg m e y + 2 ^ 40))
    | _ => false
  if ok then r else (roundF .f32 (.fixed .rne) false false (decide (y < 0)) y.natAbs (-256)).1

/-- A result R130 does not fix. It is the chip's bits where they meet R129, and else the nearest value
(log entry 9). -/
def freeResult (op : Nat) (a : Nat) (neg : Bool) (m : Nat) (e : Int) : Nat :=
  let r := (Config.specialBits op (BitVec.ofNat 32 a)).toNat
  if op = 0 then
    let r := r % 2 ^ 31
    signBit .f32 neg + (if withinUlp 0 m e r && fexp .f32 r != 255 then r else quotBits false 1 m (-e))
  else if op = 1 then
    let r := r % 2 ^ 31
    if withinUlp 1 m e r && fexp .f32 r != 255 then r else
      let root := isqrt (m * 2 ^ (80 + (e % 2).toNat)) 64 0
      quotBits false 1 root (-(Int.fdiv (e - (80 + (e % 2).toNat)) 2))
  else if op = 2 then
    let r := r % 2 ^ 31
    if withinUlp 2 m e r && fexp .f32 r != 255 then r else rootBits m e
  else
    nearResult op neg m e r

/-- The exact result is negative. -/
def exactNeg (op : Nat) (neg : Bool) (m : Nat) (e : Int) : Bool := if op < 3 then neg else decide (fxValue op neg m e < 0)

/-- The exact result lies below 2^-126 in magnitude, which FtzOut tests before any rounding (R70). |tanh x| < |x|, and the next operand
above 2^-126 already gives more than that; RSQ and SQRT never come so low. -/
def exactTiny (op : Nat) (neg : Bool) (m : Nat) (e : Int) : Bool :=
  match op with
  | 0 => !leDyadic m e 1 126
  | 1 => false
  | 2 => false
  | 7 => leDyadic m e 1 (-126)
  | _ => decide ((fxValue op neg m e).natAbs < 2 ^ 130)

/-- The end of an inexact result: FtzOut by the exact result, NX, UF below 2^-126 (R70, R131). -/
def inexactOut (ftz : Bool) (op : Nat) (neg : Bool) (m : Nat) (e : Int) (r : Nat) : Nat × Flags :=
  if ftz && exactTiny op neg m e then (zeroF .f32 (exactNeg op neg m e), flagNX ||| flagUF)
  else (r, if isSubnormalF .f32 r then flagNX ||| flagUF else flagNX)

/-- m × 2^e is a power of two; of four. -/
def isPow2 (m : Nat) : Bool := m == 2 ^ Nat.log2 m
def isPow4 (m : Nat) (e : Int) : Bool := isPow2 m && ((Nat.log2 m : Int) + e) % 2 == 0
/-- Twice the value, when that is an integer. -/
def twice (neg : Bool) (m : Nat) (e : Int) : Option Int :=
  if e ≥ -1 then some (scaledInt neg m e (-1))
  else
    let k := (-1 - e).toNat
    if k > Nat.log2 m then none
    else if m % 2 ^ k = 0 then some (if neg then -((m / 2 ^ k : Nat) : Int) else (m / 2 ^ k : Nat)) else none

def oneF (neg : Bool) : Nat := signBit .f32 neg + 0x3F800000

/-- ±1 by the parity of an integer. -/
def parityOne (n : Int) : Nat := oneF (n % 2 == 1)

/-- An inexact result with its flags. -/
def specFree (op : Nat) (ftz : Bool) (a : Nat) (neg : Bool) (m : Nat) (e : Int) : Nat × Flags :=
  inexactOut ftz op neg m e (freeResult op a neg m e)

/-- Finite, nonzero operands of the special functions (R129, R130, R131). -/
def specFinite (op : Nat) (ftz : Bool) (a : Nat) (neg : Bool) (m : Nat) (e : Int) : Nat × Flags :=
  let l := (Nat.log2 m : Int) + e
  let exact := fun (v : FVal) => roundV .f32 (.fixed .rne) false ftz v
  match op with
  | 0 =>
    if l < -128 || (l == -128 && isPow2 m) then (infF .f32 neg, flagOF ||| flagNX)
    else if isPow2 m && -126 ≤ l && l ≤ 126 then exact (.fin neg 1 (-l))
    else specFree op ftz a neg m e
  | 1 => if neg then (qnanF .f32, flagNV) else if isPow4 m e && -126 ≤ l && l ≤ 126 then exact (.fin false 1 (-(l / 2))) else specFree op ftz a neg m e
  | 2 => if neg then (qnanF .f32, flagNV) else if isPow4 m e && -148 ≤ l && l ≤ 126 then exact (.fin false 1 (l / 2)) else specFree op ftz a neg m e
  | 3 =>
    if !neg && l ≥ 7 then (infF .f32 false, flagOF ||| flagNX)
    else
      match twice neg m e with
      | some n2 => if n2 % 2 = 0 ∧ -298 ≤ n2 then exact (.fin false 1 (n2 / 2)) else specFree op ftz a neg m e
      | none => specFree op ftz a neg m e
  | 4 => if neg then (qnanF .f32, flagNV) else if isPow2 m then exact (ofIntF l) else specFree op ftz a neg m e
  | 5 =>
    match twice neg m e with
    | some n2 => if n2 % 2 = 0 then (zeroF .f32 neg, 0) else (parityOne (Int.fdiv n2 2), 0)
    | none => specFree op ftz a neg m e
  | 6 =>
    match twice neg m e with
    | some n2 => if n2 % 2 = 0 then (parityOne (n2 / 2), 0) else (0, 0)
    | none => specFree op ftz a neg m e
  | _ => if leDyadic 10 0 m e then (oneF neg, 0) else specFree op ftz a neg m e

/-- The special operands of R130. -/
def specBits (op : Nat) (ftz : Bool) (a : Nat) : Nat × Flags :=
  match decodeF .f32 ftz a with
  | .nan => (qnanF .f32, snanFlag .f32 [a])
  | .inf s =>
    match op with
    | 0 => (zeroF .f32 s, 0)
    | 1 => if s then (qnanF .f32, flagNV) else (0, 0)
    | 2 => if s then (qnanF .f32, flagNV) else (infF .f32 false, 0)
    | 3 => if s then (0, 0) else (infF .f32 false, 0)
    | 4 => if s then (qnanF .f32, flagNV) else (infF .f32 false, 0)
    | 5 => (qnanF .f32, flagNV)
    | 6 => (qnanF .f32, flagNV)
    | _ => (oneF s, 0)
  | .fin s m e =>
    if m = 0 then
      match op with
      | 0 => (infF .f32 s, flagDZ)
      | 1 => (infF .f32 s, flagDZ)
      | 2 => (zeroF .f32 s, 0)
      | 3 => (oneF false, 0)
      | 4 => (infF .f32 true, flagDZ)
      | 5 => (zeroF .f32 s, 0)
      | 6 => (oneF false, 0)
      | _ => (zeroF .f32 s, 0)
    else specFinite op ftz a s m e

def specOp (i : Instr) (s : State) (op : Nat) (x : SpecUn) : Out :=
  laneOp i s false fun w _ t => .float (specBits op w.cx.ftz (w.rd .f32 x.a t))

def execRcp (x : SpecUn) (s : State) : Out := specOp (.rcp x) s 0 x
def execRsq (x : SpecUn) (s : State) : Out := specOp (.rsq x) s 1 x
def execSqrt (x : SpecUn) (s : State) : Out := specOp (.sqrt x) s 2 x
def execEx2 (x : SpecUn) (s : State) : Out := specOp (.ex2 x) s 3 x
def execLg2 (x : SpecUn) (s : State) : Out := specOp (.lg2 x) s 4 x
def execSinpi (x : SpecUn) (s : State) : Out := specOp (.sinpi x) s 5 x
def execCospi (x : SpecUn) (s : State) : Out := specOp (.cospi x) s 6 x
def execTanh (x : SpecUn) (s : State) : Out := specOp (.tanh x) s 7 x

/-! ## Conversions -/

/-- A result of fewer than 32 bits as its register holds it: .i8 and .i16 sign-extended, others zero-extended (R67, R83). -/
def narrowInt (ty : Ty) (b : Nat) : Nat := if ty.width < 32 ∧ ty.signed then wrap 32 (intOf ty b) else b

def execCvtff (x : Cvt) (s : State) : Out :=
  laneOp (.cvtff x) s false fun w _ t => .float (cvtFF x.dt x.st w.cx.ftz (.fixed x.rm) x.sat (w.rd x.st x.a t))

def execCvtfi (x : Cvt) (s : State) : Out :=
  laneOp (.cvtfi x) s x.dt.sfill fun w _ t =>
    let r := cvtFI x.dt x.st w.cx.ftz x.rm (w.rd x.st x.a t)
    .float (narrowInt x.dt r.1, r.2)

def execCvtif (x : Cvt) (s : State) : Out :=
  laneOp (.cvtif x) s false fun w _ t => .float (cvtIF x.dt x.st x.rm x.sat (w.rd x.st x.a t))

/-- Cvt of R89. -/
def packElem (x : Packn) (ftz : Bool) (a : Nat) : Nat × Flags :=
  if x.dt.isFloat then cvtFF x.dt .f32 ftz (.fixed x.rm) x.sat a
  else if x.sat then (wrap x.dt.container (clampI (intOf x.st a) (intMin x.dt) (intMax x.dt)), 0)
  else (a % 2 ^ x.dt.container, 0)

/-- PACKN (R89): two containers of a copy of c replaced. -/
def packBits (c p r a b : Nat) : Nat :=
  r % 2 ^ (2 * p * c) + (a % 2 ^ c) * 2 ^ (2 * p * c) + (b % 2 ^ c) * 2 ^ ((2 * p + 1) * c)
    + r / 2 ^ ((2 * p + 2) * c) * 2 ^ ((2 * p + 2) * c)

def execPackn (x : Packn) (s : State) : Out :=
  laneOp (.packn x) s false fun w _ t =>
    let a := packElem x w.cx.ftz (w.rd x.st x.a t)
    let b := packElem x w.cx.ftz (w.rd x.st x.b t)
    { d := packBits x.dt.container x.p.toNat (w.rd .b32 x.c t) a.1 b.1, fl := a.2 ||| b.2 }

/-- UNPACKN (R90). -/
def execUnpackn (x : Unpackn) (s : State) : Out :=
  laneOp (.unpackn x) s x.dt.sfill fun w _ t =>
    let r := match x.a with
      | .imm n => immBits x.st n
      | _ => w.rd .b32 x.a t
    .float (unpackElem x.dt x.st (bitsOf r (x.i.toNat * x.st.container) x.st.container))

/-- SCALEB (R91). -/
def execScaleb (x : Scaleb) (s : State) : Out :=
  laneOp (.scaleb x) s false fun w _ t =>
    .float (scalebBits x.dt (FEnv.mk w.cx.ftz x.rm x.sat) (w.rd x.dt x.a t)
      (bitsOf (w.rd .b32 x.b t) (8 * x.j.toNat) 8))

/-! ## The random generator (R72 to R74) -/

/-- Mix64 (R73). -/
def mix64 (z : W64) : W64 :=
  let z := (z ^^^ (z >>> 30)) * 0xBF58476D1CE4E5B9#64
  let z := (z ^^^ (z >>> 27)) * 0x94D049BB133111EB#64
  z ^^^ (z >>> 31)

/-- GLTID (R132). -/
def View.gltid (w : View) (t : Nat) : W64 :=
  BitVec.ofNat 64 (((w.tm.clid * w.tm.tpc + w.tm.crank) * w.tm.gpt + w.g.gidx) * 32 + t)

/-- RandDraw (R73), the k-th draw from the thread's counter. -/
def View.draw (w : View) (t k : Nat) : Nat :=
  let key := mix64 (w.cx.rseed ^^^ w.gltid t)
  let z := key + ((w.g.thread t).rctr + BitVec.ofNat 64 k) * 0x9E3779B97F4A7C15#64
  ((mix64 z) >>> 32).toNat

/-- RAND (R92). -/
def execRand (x : RandF) (s : State) : Out :=
  laneOp (.rand x) s false fun w _ t =>
    match x.ty with
    | .f32 => { d := (roundF .f32 (.fixed .rne) false false false (w.draw t 0 / 2 ^ 8) (-24)).1, draws := 1 }
    | .b64 => { d := w.draw t 0 + 2 ^ 32 * w.draw t 1, draws := 2 }
    | _ => { d := w.draw t 0, draws := 1 }

/-- CVTSR (R93): the draw is made whether or not the result is exact. -/
def execCvtsr (x : Cvt) (s : State) : Out :=
  laneOp (.cvtsr x) s false fun w _ t =>
    let r := cvtFF x.dt x.st w.cx.ftz (.sr (w.draw t 0)) x.sat (w.rd x.st x.a t)
    { d := r.1, fl := r.2, draws := 1 }

end Sys2Proof.Machine
end

