-- ==== Sys2Proof/Machine/Dispatch.lean ====
section
/-!
DEFINITION. One arm for each row of the opcode table.
-/

namespace Sys2Proof.Machine

def exec (i : Instr) (s : State) : Host.Outcome State Fault Refusal :=
  match i with
  | .mov x => Sys2Proof.Machine.execMov x s
  | .movi x => Sys2Proof.Machine.execMovi x s
  | .movs x => Sys2Proof.Machine.execMovs x s
  | .movv x => Sys2Proof.Machine.execMovv x s
  | .iadd x => Sys2Proof.Machine.execIadd x s
  | .iaddc x => Sys2Proof.Machine.execIaddc x s
  | .isub x => Sys2Proof.Machine.execIsub x s
  | .isubb x => Sys2Proof.Machine.execIsubb x s
  | .imul x => Sys2Proof.Machine.execImul x s
  | .imulh x => Sys2Proof.Machine.execImulh x s
  | .imad x => Sys2Proof.Machine.execImad x s
  | .imadw x => Sys2Proof.Machine.execImadw x s
  | .idiv x => Sys2Proof.Machine.execIdiv x s
  | .irem x => Sys2Proof.Machine.execIrem x s
  | .imin x => Sys2Proof.Machine.execImin x s
  | .imax x => Sys2Proof.Machine.execImax x s
  | .iabs x => Sys2Proof.Machine.execIabs x s
  | .ineg x => Sys2Proof.Machine.execIneg x s
  | .and x => Sys2Proof.Machine.execAnd x s
  | .or x => Sys2Proof.Machine.execOr x s
  | .xor x => Sys2Proof.Machine.execXor x s
  | .andn x => Sys2Proof.Machine.execAndn x s
  | .not x => Sys2Proof.Machine.execNot x s
  | .shl x => Sys2Proof.Machine.execShl x s
  | .shr x => Sys2Proof.Machine.execShr x s
  | .sar x => Sys2Proof.Machine.execSar x s
  | .rot x => Sys2Proof.Machine.execRot x s
  | .fshl x => Sys2Proof.Machine.execFshl x s
  | .popc x => Sys2Proof.Machine.execPopc x s
  | .clz x => Sys2Proof.Machine.execClz x s
  | .ctz x => Sys2Proof.Machine.execCtz x s
  | .brev x => Sys2Proof.Machine.execBrev x s
  | .bfx x => Sys2Proof.Machine.execBfx x s
  | .bfi x => Sys2Proof.Machine.execBfi x s
  | .isetp x => Sys2Proof.Machine.execIsetp x s
  | .isel x => Sys2Proof.Machine.execIsel x s
  | .lea x => Sys2Proof.Machine.execLea x s
  | .leax x => Sys2Proof.Machine.execLeax x s
  | .fadd x => Sys2Proof.Machine.execFadd x s
  | .fsub x => Sys2Proof.Machine.execFsub x s
  | .fmul x => Sys2Proof.Machine.execFmul x s
  | .ffma x => Sys2Proof.Machine.execFfma x s
  | .fmin x => Sys2Proof.Machine.execFmin x s
  | .fmax x => Sys2Proof.Machine.execFmax x s
  | .fsetp x => Sys2Proof.Machine.execFsetp x s
  | .fclass x => Sys2Proof.Machine.execFclass x s
  | .fscale x => Sys2Proof.Machine.execFscale x s
  | .frnd x => Sys2Proof.Machine.execFrnd x s
  | .hadd2 x => Sys2Proof.Machine.execHadd2 x s
  | .hmul2 x => Sys2Proof.Machine.execHmul2 x s
  | .hfma2 x => Sys2Proof.Machine.execHfma2 x s
  | .hmin2 x => Sys2Proof.Machine.execHmin2 x s
  | .hmax2 x => Sys2Proof.Machine.execHmax2 x s
  | .dadd x => Sys2Proof.Machine.execDadd x s
  | .dmul x => Sys2Proof.Machine.execDmul x s
  | .dfma x => Sys2Proof.Machine.execDfma x s
  | .dsetp x => Sys2Proof.Machine.execDsetp x s
  | .dmin x => Sys2Proof.Machine.execDmin x s
  | .dmax x => Sys2Proof.Machine.execDmax x s
  | .rcp x => Sys2Proof.Machine.execRcp x s
  | .rsq x => Sys2Proof.Machine.execRsq x s
  | .sqrt x => Sys2Proof.Machine.execSqrt x s
  | .ex2 x => Sys2Proof.Machine.execEx2 x s
  | .lg2 x => Sys2Proof.Machine.execLg2 x s
  | .sinpi x => Sys2Proof.Machine.execSinpi x s
  | .cospi x => Sys2Proof.Machine.execCospi x s
  | .tanh x => Sys2Proof.Machine.execTanh x s
  | .cvtff x => Sys2Proof.Machine.execCvtff x s
  | .cvtfi x => Sys2Proof.Machine.execCvtfi x s
  | .cvtif x => Sys2Proof.Machine.execCvtif x s
  | .packn x => Sys2Proof.Machine.execPackn x s
  | .unpackn x => Sys2Proof.Machine.execUnpackn x s
  | .scaleb x => Sys2Proof.Machine.execScaleb x s
  | .rand x => Sys2Proof.Machine.execRand x s
  | .cvtsr x => Sys2Proof.Machine.execCvtsr x s
  | .part x => Sys2Proof.Machine.execPart x s
  | .vote x => Sys2Proof.Machine.execVote x s
  | .shfl x => Sys2Proof.Machine.execShfl x s
  | .redux x => Sys2Proof.Machine.execRedux x s
  | .scan x => Sys2Proof.Machine.execScan x s
  | .match_ x => Sys2Proof.Machine.execMatch x s
  | .elect x => Sys2Proof.Machine.execElect x s
  | .bcast x => Sys2Proof.Machine.execBcast x s
  | .bra x => Sys2Proof.Machine.execBra x s
  | .brx x => Sys2Proof.Machine.execBrx x s
  | .call x => Sys2Proof.Machine.execCall x s
  | .callx x => Sys2Proof.Machine.execCallx x s
  | .ret x => Sys2Proof.Machine.execRet x s
  | .land x => Sys2Proof.Machine.execLand x s
  | .exit x => Sys2Proof.Machine.execExit x s
  | .yield x => Sys2Proof.Machine.execYield x s
  | .pause x => Sys2Proof.Machine.execPause x s
  | .sleep x => Sys2Proof.Machine.execSleep x s
  | .nop x => Sys2Proof.Machine.execNop x s
  | .cbarm x => Sys2Proof.Machine.execCbarm x s
  | .cbwait x => Sys2Proof.Machine.execCbwait x s
  | .bar x => Sys2Proof.Machine.execBar x s
  | .barc x => Sys2Proof.Machine.execBarc x s
  | .ld x => Sys2Proof.Machine.execLd x s
  | .st x => Sys2Proof.Machine.execSt x s
  | .lds x => Sys2Proof.Machine.execLds x s
  | .sts x => Sys2Proof.Machine.execSts x s
  | .ldp x => Sys2Proof.Machine.execLdp x s
  | .stp x => Sys2Proof.Machine.execStp x s
  | .ldx x => Sys2Proof.Machine.execLdx x s
  | .stx x => Sys2Proof.Machine.execStx x s
  | .mcst x => Sys2Proof.Machine.execMcst x s
  | .ldc x => Sys2Proof.Machine.execLdc x s
  | .ldun x => Sys2Proof.Machine.execLdun x s
  | .pref x => Sys2Proof.Machine.execPref x s
  | .wbp x => Sys2Proof.Machine.execWbp x s
  | .wbpAll x => Sys2Proof.Machine.execWbpAll x s
  | .qpop x => Sys2Proof.Machine.execQpop x s
  | .qpeek x => Sys2Proof.Machine.execQpeek x s
  | .fpush x => Sys2Proof.Machine.execFpush x s
  | .fpop x => Sys2Proof.Machine.execFpop x s
  | .atom x => Sys2Proof.Machine.execAtom x s
  | .atoms x => Sys2Proof.Machine.execAtoms x s
  | .atomx x => Sys2Proof.Machine.execAtomx x s
  | .red x => Sys2Proof.Machine.execRed x s
  | .fence x => Sys2Proof.Machine.execFence x s
  | .xfence x => Sys2Proof.Machine.execXfence x s
  | .acq x => Sys2Proof.Machine.execAcq x s
  | .rel x => Sys2Proof.Machine.execRel x s
  | .acqr x => Sys2Proof.Machine.execAcqr x s
  | .ptsrd x => Sys2Proof.Machine.execPtsrd x s
  | .lease x => Sys2Proof.Machine.execLease x s
  | .swarm x => Sys2Proof.Machine.execSwarm x s
  | .swwait x => Sys2Proof.Machine.execSwwait x s
  | .swgen x => Sys2Proof.Machine.execSwgen x s
  | .objdecl x => Sys2Proof.Machine.execObjdecl x s
  | .objdrop x => Sys2Proof.Machine.execObjdrop x s
  | .mxop x => Sys2Proof.Machine.execMxop x s
  | .mxzero x => Sys2Proof.Machine.execMxzero x s
  | .mxrd x => Sys2Proof.Machine.execMxrd x s
  | .mxwr x => Sys2Proof.Machine.execMxwr x s
  | .mxst x => Sys2Proof.Machine.execMxst x s
  | .plane x => Sys2Proof.Machine.execPlane x s
  | .unplane x => Sys2Proof.Machine.execUnplane x s
  | .mxperm x => Sys2Proof.Machine.execMxperm x s
  | .mxwait x => Sys2Proof.Machine.execMxwait x s
  | .mxqry x => Sys2Proof.Machine.execMxqry x s
  | .mxepi x => Sys2Proof.Machine.execMxepi x s
  | .leave x => Sys2Proof.Machine.execLeave x s
  | .mxscl x => Sys2Proof.Machine.execMxscl x s
  | .cpstat x => Sys2Proof.Machine.execCpstat x s
  | .outrdy x => Sys2Proof.Machine.execOutrdy x s
  | .tcond x => Sys2Proof.Machine.execTcond x s
  | .tdone x => Sys2Proof.Machine.execTdone x s
  | .tspawn x => Sys2Proof.Machine.execTspawn x s
  | .tqry x => Sys2Proof.Machine.execTqry x s
  | .astart x => Sys2Proof.Machine.execAstart x s
  | .aloop x => Sys2Proof.Machine.execAloop x s
  | .astrm x => Sys2Proof.Machine.execAstrm x s
  | .aend x => Sys2Proof.Machine.execAend x s
  | .trap x => Sys2Proof.Machine.execTrap x s
  | .rett x => Sys2Proof.Machine.execRett x s
  | .srrd x => Sys2Proof.Machine.execSrrd x s
  | .srwr x => Sys2Proof.Machine.execSrwr x s
  | .logrd x => Sys2Proof.Machine.execLogrd x s
  | .haltStop x => Sys2Proof.Machine.execHaltStop x s
  | .haltResume x => Sys2Proof.Machine.execHaltResume x s
  | .haltKill x => Sys2Proof.Machine.execHaltKill x s
  | .sysc x => Sys2Proof.Machine.execSysc x s
  | .evwait x => Sys2Proof.Machine.execEvwait x s
  | .evsigSig x => Sys2Proof.Machine.execEvsigSig x s
  | .evsigAns x => Sys2Proof.Machine.execEvsigAns x s
  | .tlbinvVa x => Sys2Proof.Machine.execTlbinvVa x s
  | .tlbinvCtx x => Sys2Proof.Machine.execTlbinvCtx x s
  | .tlbinvZone x => Sys2Proof.Machine.execTlbinvZone x s
  | .fbresp x => Sys2Proof.Machine.execFbresp x s
  | .ctxsave x => Sys2Proof.Machine.execCtxsave x s
  | .ctxload x => Sys2Proof.Machine.execCtxload x s
  | .ctxq x => Sys2Proof.Machine.execCtxq x s
  | .qmap x => Sys2Proof.Machine.execQmap x s
  | .qunmap x => Sys2Proof.Machine.execQunmap x s
  | .zcreate x => Sys2Proof.Machine.execZcreate x s
  | .zdestroy x => Sys2Proof.Machine.execZdestroy x s
  | .zgrow x => Sys2Proof.Machine.execZgrow x s
  | .zshrink x => Sys2Proof.Machine.execZshrink x s
  | .zslices x => Sys2Proof.Machine.execZslices x s
  | .zwaysL2 x => Sys2Proof.Machine.execZwaysL2 x s
  | .zwaysVault x => Sys2Proof.Machine.execZwaysVault x s
  | .zchan x => Sys2Proof.Machine.execZchan x s
  | .zcoins x => Sys2Proof.Machine.execZcoins x s
  | .zscrub x => Sys2Proof.Machine.execZscrub x s
  | .zcommit x => Sys2Proof.Machine.execZcommit x s
  | .zquery x => Sys2Proof.Machine.execZquery x s
  | .capq x => Sys2Proof.Machine.execCapq x s
  | .ffenceFull x => Sys2Proof.Machine.execFfenceFull x s
  | .ffenceRel x => Sys2Proof.Machine.execFfenceRel x s
  | .ffenceAcq x => Sys2Proof.Machine.execFfenceAcq x s
  | .ptprd x => Sys2Proof.Machine.execPtprd x s
  | .timens x => Sys2Proof.Machine.execTimens x s
  | .peerq x => Sys2Proof.Machine.execPeerq x s
  | .rlease x => Sys2Proof.Machine.execRlease x s
  | .fcontainFence x => Sys2Proof.Machine.execFcontainFence x s
  | .fcontainClear x => Sys2Proof.Machine.execFcontainClear x s
  | .illegalWord x => Sys2Proof.Machine.execIllegalWord x s
  | .haltsib x => Sys2Proof.Machine.execHaltsib x s
  | .arithlog x => Sys2Proof.Machine.execArithlog x s
  | .instructionComplete a b => Sys2Proof.Machine.execInstructionComplete a b s
  | .slotRefill a b => Sys2Proof.Machine.execSlotRefill a b s
  | .holdExpiry a b => Sys2Proof.Machine.execHoldExpiry a b s
  | .sleepExpiry a b => Sys2Proof.Machine.execSleepExpiry a b s
  | .barRelease a b => Sys2Proof.Machine.execBarRelease a b s
  | .barcRelease a b => Sys2Proof.Machine.execBarcRelease a b s
  | .groupRetire x => Sys2Proof.Machine.execGroupRetire x s
  | .ptsWindowTick x => Sys2Proof.Machine.execPtsWindowTick x s
  | .grantL2 a b c => Sys2Proof.Machine.execGrantL2 a b c s
  | .lineFill a b c => Sys2Proof.Machine.execLineFill a b c s
  | .renewalReturn a b c => Sys2Proof.Machine.execRenewalReturn a b c s
  | .epochRollover x => Sys2Proof.Machine.execEpochRollover x s
  | .storeBufferLeave x => Sys2Proof.Machine.execStoreBufferLeave x s
  | .performAtHome a b => Sys2Proof.Machine.execPerformAtHome a b s
  | .storeAck a b => Sys2Proof.Machine.execStoreAck a b s
  | .walk x => Sys2Proof.Machine.execWalk x s
  | .faultRecord x => Sys2Proof.Machine.execFaultRecord x s
  | .bankReqmode a b c => Sys2Proof.Machine.execBankReqmode a b c s
  | .writeback x => Sys2Proof.Machine.execWriteback x s
  | .waitrelease x => Sys2Proof.Machine.execWaitrelease x s
  | .zerofill x => Sys2Proof.Machine.execZerofill x s
  | .peerAccessResume x => Sys2Proof.Machine.execPeerAccessResume x s
  | .mxopAccept x => Sys2Proof.Machine.execMxopAccept x s
  | .matrixOpStart x => Sys2Proof.Machine.execMatrixOpStart x s
  | .matrixOpComplete x => Sys2Proof.Machine.execMatrixOpComplete x s
  | .leaveGrant x => Sys2Proof.Machine.execLeaveGrant x s
  | .leaveReturn x => Sys2Proof.Machine.execLeaveReturn x s
  | .governorPeriod x => Sys2Proof.Machine.execGovernorPeriod x s
  | .powerSample a b => Sys2Proof.Machine.execPowerSample a b s
  | .kick a b c => Sys2Proof.Machine.execKick a b c s
  | .directoryW1c a b c => Sys2Proof.Machine.execDirectoryW1c a b c s
  | .packetFetch x => Sys2Proof.Machine.execPacketFetch x s
  | .nodeReady a b => Sys2Proof.Machine.execNodeReady a b s
  | .clusterPlace a b c => Sys2Proof.Machine.execClusterPlace a b c s
  | .nodeDispatch a b => Sys2Proof.Machine.execNodeDispatch a b s
  | .conditionRead a b => Sys2Proof.Machine.execConditionRead a b s
  | .nodeRetire a b => Sys2Proof.Machine.execNodeRetire a b s
  | .completionRecord x => Sys2Proof.Machine.execCompletionRecord x s
  | .tramLine x => Sys2Proof.Machine.execTramLine x s
  | .copyEnd x => Sys2Proof.Machine.execCopyEnd x s
  | .streamStart a b => Sys2Proof.Machine.execStreamStart a b s
  | .streamRead a b => Sys2Proof.Machine.execStreamRead a b s
  | .coinPeriod => Sys2Proof.Machine.execCoinPeriod s
  | .eventPlace x => Sys2Proof.Machine.execEventPlace x s
  | .evwaitTimeout x => Sys2Proof.Machine.execEvwaitTimeout x s
  | .sliceChange a b => Sys2Proof.Machine.execSliceChange a b s
  | .stopRequest x => Sys2Proof.Machine.execStopRequest x s
  | .teamStopped x => Sys2Proof.Machine.execTeamStopped x s
  | .overrun a b => Sys2Proof.Machine.execOverrun a b s
  | .migration a b c => Sys2Proof.Machine.execMigration a b c s
  | .imageUpdate x => Sys2Proof.Machine.execImageUpdate x s
  | .scrubEnd a b => Sys2Proof.Machine.execScrubEnd a b s
  | .departureEnd x => Sys2Proof.Machine.execDepartureEnd x s
  | .wayFree x => Sys2Proof.Machine.execWayFree x s
  | .sweepEnd a b => Sys2Proof.Machine.execSweepEnd a b s
  | .migrationBatch x => Sys2Proof.Machine.execMigrationBatch x s
  | .zoneCommit x => Sys2Proof.Machine.execZoneCommit x s
  | .remoteRequest a b c d => Sys2Proof.Machine.execRemoteRequest a b c d s
  | .remoteResponse a b => Sys2Proof.Machine.execRemoteResponse a b s
  | .heldWriteRelease x => Sys2Proof.Machine.execHeldWriteRelease x s
  | .fenceAssistAnswer x => Sys2Proof.Machine.execFenceAssistAnswer x s
  | .suspect x => Sys2Proof.Machine.execSuspect x s
  | .probeTimeout x => Sys2Proof.Machine.execProbeTimeout x s
  | .linkDown x => Sys2Proof.Machine.execLinkDown x s
  | .remoteFailure x => Sys2Proof.Machine.execRemoteFailure x s
  | .remote x => Sys2Proof.Machine.execRemote x s
  | .collectiveRetire a b c d => Sys2Proof.Machine.execCollectiveRetire a b c d s
  | .ptpMessage a b => Sys2Proof.Machine.execPtpMessage a b s
  | .ppsEdge x => Sys2Proof.Machine.execPpsEdge x s
  | .holdoverExpiry => Sys2Proof.Machine.execHoldoverExpiry s
  | .referenceLoss => Sys2Proof.Machine.execReferenceLoss s
  | .hostCompletion a b => Sys2Proof.Machine.execHostCompletion a b s
  | .hostRequest a b c d => Sys2Proof.Machine.execHostRequest a b c d s
  | .chipletFence a b => Sys2Proof.Machine.execChipletFence a b s
  | .chipletPowerOff a b => Sys2Proof.Machine.execChipletPowerOff a b s
  | .chipletReset a b => Sys2Proof.Machine.execChipletReset a b s
  | .resetDone a b => Sys2Proof.Machine.execResetDone a b s
  | .chipletError x => Sys2Proof.Machine.execChipletError x s
  | .exchangeTakeover => Sys2Proof.Machine.execExchangeTakeover s
  | .coreFence x => Sys2Proof.Machine.execCoreFence x s
  | .channelLoss a b => Sys2Proof.Machine.execChannelLoss a b s
  | .healthW1c a b => Sys2Proof.Machine.execHealthW1c a b s
  | .coldReset => Sys2Proof.Machine.execColdReset s
  | .attestationRequest a b c d => Sys2Proof.Machine.execAttestationRequest a b c d s
  | .registerWrite a b c d => Sys2Proof.Machine.execRegisterWrite a b c d s
  | .sweepVisit a b c => Sys2Proof.Machine.execSweepVisit a b c s

end Sys2Proof.Machine
end

