-- ==== Sys2Proof/Machine/Schedule.lean ====
section
/-!
DEFINITION. One step of the device: what moves next (log entry 1), the issue stage (R32, R41 to R43, R47, R48, R138 to R141)
and the image of a program for `withFetchWord`.
-/

namespace Sys2Proof.Machine

/-! ## What holds an instruction at issue (R41 to R43, R47) -/

/-- A register as a file and a number. -/
abbrev RegId := MarkFile × Nat

def regRun (f : MarkFile) (base n : Nat) : List RegId := (List.range n).map fun k => (f, base + k)

/-- The registers of a source. -/
def srcRegs (x : SrcUse) : List RegId :=
  match x.src with
  | .v n _ => regRun .v n.toNat ((x.role.width + 31) / 32)
  | .s n _ => regRun .s n.toNat ((x.role.width + 63) / 64)
  | .h n => [(.h, n.toNat)]
  | .p n => [(.p, n.toNat)]
  | _ => []

/-- The registers of a destination of a width. -/
def dstRegs (d : Dst) (w : Nat) : List RegId :=
  match d with
  | .v n nwb => if nwb then [] else regRun .v n.toNat ((w + 31) / 32)
  | .s n => regRun .s n.toNat ((w + 63) / 64)
  | .h n => [(.h, n.toNat)]
  | .p n => [(.p, n.toNat)]
  | _ => []

/-- The registers and predicates that an instruction reads or writes. -/
def usesRegs (u : Uses) : List RegId :=
  (guardUse u.ctl.guard ++ u.srcs).flatMap srcRegs ++ u.pds.map (fun n => (.p, n.toNat))
    ++ (match u.dst with
        | some d => dstRegs d.dst d.role.width
        | none => [])

/-- The latches that an instruction reads. -/
def usesLatches (u : Uses) : List Nat :=
  u.srcs.filterMap fun x =>
    match x.src with
    | .latch n => some n.toNat
    | _ => none

/-- A pending result is what some thread's latch position holds. -/
def Group.latchPends (g : Group) (p : Pend) (n : Nat) : Bool :=
  p.lat.any fun x => x.2 + n == (g.thread x.1).lseq

/-- Pending results that an instruction reads or writes (R41). -/
def Group.holders (g : Group) (u : Uses) : List Pend :=
  let regs := usesRegs u
  let lats := usesLatches u
  g.pends.filter fun p => (dstRegs p.dst p.ty.regw).any regs.contains || lats.any (g.latchPends p)

/-- A status register that waits for its copy is read or written (R41, R296). -/
def Group.spendHolds (g : Group) (u : Uses) : Bool := g.spend.any fun n => (usesRegs u).contains (.s, n)

/-- A load with this number has lines that missed L1 (R23). -/
def Group.missed (g : Group) (id : Nat) : Bool := g.loads.any fun l => l.id == id

/-- The counters named by HNT.WAIT that are not zero. -/
def Group.waitsSb (g : Group) (h : Hint) : List Nat := (List.range 6).filter fun n => h.wait.getLsbD n && rget 0 g.sb n != 0

/-- A member of one of the counters is a load that missed (R43), or an operation that waits behind a head that waits for leave
(R269). -/
def View.sbStalled (w : View) (ns : List Nat) : Bool :=
  w.g.inflight.any fun x =>
    (match x.sb with
     | some n => ns.contains n
     | none => false)
    && match x.when_ with
       | .pend id => w.g.missed id
       | .load id => w.g.missed id
       | .mx q id => (w.s.quadOf q).leaveStall (· == id)
       | _ => false

/-- The hint of any word (R33). -/
def hintOf (x : BitVec 96) : Hint := Hint.dec (x.extractLsb' 0 14)

/-- What a word stands for: an instruction, or ILLOP (R46). -/
def instrOf (x : BitVec 96) : Instr := (decode? x).getD (.illegalWord (opcOf x))

/-- The word raises a decode trap (R46, R47). -/
def View.decodeTraps (w : View) : Instr → Bool
  | .illegalWord _ => true
  | i => !i.uses.legal || !i.uses.regsOk w.g.regs || !w.privOk i.uses.priv

/-- NEVER (R34). -/
def guardNever (gd : Guard) : Bool := gd.pred == 7 && gd.neg

/-- A load, store, atomic or fence of classes 0x5 and 0x6, FFENCE, and the forms of class 0x8 that access memory. -/
def isMemoryForm (i : Instr) : Bool :=
  match i.opc with
  | some o =>
    let c := o.toNat / 64
    c == 5 || c == 6 || [0x200, 0x201, 0x202, 0x203, 0x204, 0x2C0].contains o.toNat
  | none => false

/-- An atomic that is an acquire has not been acknowledged (R222, R243). -/
def Group.acqOut (g : Group) : Bool :=
  g.sbuf.any (fun e => Sem.isAcq e.sem && e.parts.any SPart.isAtom)
    || g.fly.any fun f => Sem.isAcq f.sem && f.parts.any SPart.isAtom

/-- The instruction's first read of a copy's status register is an acquire (R298): it waits for the earlier loads (R222). -/
def View.firstReadWaits (w : View) (i : Instr) : Bool :=
  (w.firstReads i.uses.srcs).g.acqs != w.g.acqs && !w.g.reads.isEmpty

/-- Orders that hold an instruction beside its registers (R222, R230, R406). -/
def View.ordered (w : View) (i : Instr) : Bool :=
  (w.tm.promo == 0 || (match i with
    | .acqr _ => true
    | _ => false))
    && !(isMemoryForm i && (w.g.acqOut || w.facqWaits)) && !w.firstReadWaits i

/-- What the issue stage makes of the chosen PC: an instruction to issue, a stall of R23, a wait, a fetch that needs a walk or
is refused (R32). -/
inductive Plan where
  | run (x : BitVec 96) (i : Instr)
  | stall
  | wait
  | walk (va : VA)
  | prot
  deriving DecidableEq, Repr

/-- The instruction meets a stall of R23 now: a wait on a counter with a load that missed or a leave wait (R43, R269), a register that
such a load or a copy has still to write (R41). -/
def View.stalls (w : View) (h : Hint) (i : Instr) : Bool :=
  w.sbStalled (w.g.waitsSb h)
    || (!w.decodeTraps i && !guardNever i.uses.ctl.guard
      && (w.g.spendHolds i.uses || (w.g.holders i.uses).any fun p => w.g.missed p.id))

def View.plan (w : View) : Plan :=
  match w.fetch w.s.curPc with
  | .miss va => .walk va
  | .prot => .prot
  | .ok x =>
    let h := hintOf x
    let i := instrOf x
    if w.stalls h i then .stall
    else if decide (w.g.lastIssue ≠ 0 ∧ w.s.schedOf w.g + 1 < w.g.lastIssue + h.gap.toNat) then .wait
    else if !(w.g.waitsSb h).isEmpty then .wait
    else if w.decodeTraps i then .run x i
    else if guardNever i.uses.ctl.guard then .run x i
    else if decide (h.setsb.toNat < 6 ∧ 62 < rget 0 w.g.sb h.setsb.toNat) then .wait
    else if !(w.g.holders i.uses).isEmpty then .wait
    else if w.ordered i then .run x i
    else .wait

/-! ## Correctable errors (R102) -/

/-- Before an instruction runs, the correctable errors in the halves that it reads are corrected, written back and counted. An
instruction that takes a trap for its operands reads none. -/
def State.correctReads (s : State) (i : Instr) : State :=
  match s.view? with
  | none => s
  | some w =>
    let q := s.quadOf w.g.quad
    if w.g.soft.isEmpty && q.soft.isEmpty then s
    else
      let m := w.execMask i.uses.ctl.guard
      if w.decodeTraps i || m == 0 || (w.operandError i.uses m).isSome then s
      else
        let found := w.g.soft.filter fun k => (readMarks [k] i.uses m) != []
        let tiles := q.soft.filter fun k => (w.tileReads i m).any fun x => x.2 == k / 2
        let s := (List.range (found.length + tiles.length)).foldl (fun s _ => s.countCorrected) s
        let s := if tiles.isEmpty then s else s.updQuad w.g.quad fun q => { q with soft := q.soft.filter fun k => !tiles.contains k }
        if found.isEmpty then s else s.updGroup w.u fun g => { g with soft := g.soft.filter fun k => !found.contains k }

/-! ## Issue (R138 to R141) -/

/-- The group may issue: it has a slot, a runnable thread, its context has the quadrant, its team runs or has not used its 32
instructions, and no trap of an instruction boundary is due where it stands at one (R80, R336, R340, R415). -/
def State.mayIssue (s : State) (g : Group) : Bool :=
  g.launched && g.slot.isSome && g.hasRun && g.wait.triable && !g.stopped
    && (match look s.teams g.team with
        | some tm => (tm.run == .running || (tm.run == .halted && decide (g.skid < 32)))
        | none => false)
    && s.quadCtx g.quad == s.ctxOf g
    && !(g.wait.boundary && ((g.heldLog.isSome && !g.handler && (g.allDone || g.relog)) || (!g.reports.isEmpty && g.allDone)))
    && !s.rollDue (s.zoneNum g)

/-- The group and the PC chosen. -/
def State.at_ (s : State) (u : Nat) (pc : VA) : State :=
  { s with cur := u, curPc := pc, curMask := 0xFFFFFFFF#32, curBlind := false }

/-- The group, the PC and the threads of an instruction that has issued and still holds the group. -/
def State.atHeld (s : State) (u : Nat) (pc : VA) (m : Mask) : State :=
  { s with cur := u, curPc := pc, curMask := m, curBlind := false }

/-- An issued instruction goes on: it has met what holds an instruction at issue, and its word is fetched again. -/
def State.goOn (s : State) (u : Nat) (pc : VA) (m : Mask) : Out :=
  let s := s.atHeld u pc m
  match s.view? with
  | none => .next s
  | some w =>
    match w.fetch pc with
    | .ok x => exec (instrOf x) (s.correctReads (instrOf x))
    | .miss va => .next (w.awaitWalk va .fetch [(w.sel, va, va)])
    | .prot => .next (w.trapHere 0x11 w.sel w.pc64.toNat)

/-- The instruction at a PC alone. -/
def State.issueAlone (s : State) (u : Nat) (pc : VA) : Out :=
  let s := s.at_ u pc
  match s.view? with
  | none => .next s
  | some w =>
    match w.plan with
    | .run _ i => exec i (s.correctReads i)
    | .wait => .next s
    | .stall => .next (w.hold .operand)
    | .walk va => .next (w.awaitWalk va .fetch [(w.sel, va, va)])
    | .prot => .next (w.trapHere 0x11 w.sel w.pc64.toNat)

/-- The classes whose instructions pair (R50, R139). -/
def pairClass (i : Instr) : Option UnitClass :=
  match i.opc with
  | some o =>
    match unitOf o with
    | .integer => some .integer
    | .float => some .float
    | .special => some .special
    | .memory => some .memory
    | .control => some .control
    | _ => none
  | none => none

def mayPair (i : Instr) : Bool :=
  !i.uses.group && !i.uses.uniform
    && match i.uses.dst with
       | some ⟨.s _, _⟩ => false
       | some ⟨.h _, _⟩ => false
       | _ => true

/-- R139. -/
def pairs (i j : Instr) : Bool := (pairClass i).isSome && pairClass i == pairClass j && mayPair i && mayPair j

/-- The word with its HNT.CEDE bit as given. -/
def withCede (x : BitVec 96) (c : Bool) : Instr :=
  instrOf (if c then x ||| (1#96 <<< 9) else x &&& ~~~(1#96 <<< 9))

/-- An issue took a trap. -/
def trapped (s : State) : Out → Bool
  | .next t => t.trapSeq != s.trapSeq
  | _ => false

def isYield : Instr → Bool
  | .yield _ => true
  | _ => false

/-- One instruction of a pair: its PC, its threads, its word. -/
abbrev Half := VA × Mask × BitVec 96

/-- One instruction of a pair, for its own threads. -/
def State.half (s : State) (u : Nat) (a : Half) (i : Instr) : Out :=
  exec i ((s.atHeld u a.1 a.2.1).correctReads i)

/-- The uncorrectable half that an instruction of a pair reads (R104), with the threads that read it. -/
def State.readsBad (s : State) (u : Nat) (a : Half) : Option Mask :=
  match (s.atHeld u a.1 a.2.1).view? with
  | some w => (w.operandError (instrOf a.2.2).uses (w.execMask (instrOf a.2.2).uses.ctl.guard)).map fun e => e.2.1
  | none => none

/-- Values with an uncorrectable error never enter a latch (R104): what a producer shifts in for those threads is free. -/
def State.freeLatch (s : State) (u : Nat) (bad : Mask) : State :=
  { s with
    nfree := s.nfree + 32
    groups := upd s.groups u fun g => g.mapThreads fun t th =>
      if inMask bad t then { th with b0 := BitVec.ofNat 32 (Config.freeValue (s.nfree + t)).toNat } else th }

/-- The instruction of a pair that completes although it reads an uncorrectable half: it reads the bits that stand there (R104; DESIGN
CHOICE, log 77). -/
def State.blindHalf (s : State) (u : Nat) (a : Half) (bad : Mask) : Out :=
  let i := withCede a.2.2 false
  match exec i ({ s.atHeld u a.1 a.2.1 with curBlind := true }.correctReads i) with
  | .next t => .next (if i.latches then t.freeLatch u bad else t)
  | o => o

/-- What the group waits for after an outcome. -/
def waitAfter (u : Nat) : Out → GWait
  | .next t => ((look t.groups u).map fun g : Group => g.wait).getD .none
  | _ => .none

/-- Both instructions have issued and neither is done: the group waits as the outcome says, and they go on as a pair. -/
def withPair (u : Nat) (a b : Half) : Out → Out
  | .next t => .next { t with groups := upd t.groups u fun g =>
      { g with issuedAs := g.issuedAs.map fun h => { h with pair := some ((a.1, a.2.1), (b.1, b.2.1)) } } }
  | o => o

/-- After the first instruction of a pair the second, for its own threads: CEDE, the OR of the two, acts once, when the second does
(R140). Where the first leaves the second no room at issue, A issues alone. -/
def State.thenHalf (u : Nat) (b : Half) (cede : Bool) (alone : Out) : Out → Out
  | .next t =>
    let o := ({ t with groups := upd t.groups u fun g => { g with pairCede := cede } } : State).half u b (instrOf b.2.2)
    if (waitAfter u o).boundary && waitAfter u o != .none then alone else o
  | o => o

/-- Two instructions one after the other, each for its own threads. -/
def State.both (s : State) (u : Nat) (a b : Half) (cede : Bool) (alone : Out) : Out :=
  State.thenHalf u b cede alone (s.half u a (withCede a.2.2 false))

/-- A pair (R140, R141). Either instruction that cannot issue yet leaves A alone to issue, or to wait. The instruction that traps, that
waits, or that moves its group from its slot comes last; while the other of a trap, or both, must wait, the pair goes on as one. Of
two that trap only the one at the lower PC issues; but when both read an uncorrectable half, the other completes for its own threads
(R104), unless it traps all the same (R141). -/
def State.issuePair (s : State) (u : Nat) (a b : Half) : Out :=
  let i := instrOf a.2.2
  let j := instrOf b.2.2
  let cede := i.uses.ctl.hint.cede || j.uses.ctl.hint.cede
  let ra := s.half u a i
  let rb := s.half u b j
  let wa := waitAfter u ra
  let wb := waitAfter u rb
  if trapped s ra && trapped s rb then
    let (lo, hi, rlo) := if a.1.toNat < b.1.toNat then (a, b, ra) else (b, a, rb)
    match s.readsBad u lo, s.readsBad u hi with
    | some _, some bad =>
      let r := s.blindHalf u hi bad
      if trapped s r then rlo
      else if waitAfter u r != .none then withPair u a b r
      else State.thenHalf u lo cede rlo r
    | _, _ => rlo
  else if (wa.boundary && wa != .none) || (wb.boundary && wb != .none) then ra
  else if wa != .none && wb != .none then withPair u a b (if wa.triable then rb else ra)
  else if trapped s ra && wb != .none then withPair u a b rb
  else if trapped s rb && wa != .none then withPair u a b ra
  else if trapped s ra || wa != .none || (!trapped s rb && wb == .none && isYield i) then s.both u b a cede ra
  else s.both u a b cede ra

/-- A pair whose instructions both join one counter would raise it past 63: the second is held (R43). -/
def Group.sbFull (g : Group) (x y : BitVec 96) : Bool :=
  (hintOf x).setsb == (hintOf y).setsb && decide ((hintOf x).setsb.toNat < 6) && decide (62 ≤ rget 0 g.sb (hintOf x).setsb.toNat)

/-- PC A and PC B (R138, R139, R48). Where both raise a decode trap R48 does not say which of the two issues; the model takes
PC A's (DESIGN CHOICE, log 78). Where R139 allows the pair and B's gap has not passed (R140), R140 does not say whether A waits for it;
the model issues A alone (DESIGN CHOICE, log 104). -/
def State.issueTwo (s : State) (u : Nat) (a b : VA) : Out :=
  match (s.at_ u a).view?, (s.at_ u b).view? with
  | some wa, some wb =>
    match wa.plan, wb.plan with
    | .run x i, .run y j =>
      if wa.decodeTraps i then s.issueAlone u a
      else if wb.decodeTraps j then s.issueAlone u b
      else if pairs i j && !wa.g.sbFull x y then s.issuePair u (a, wa.sel, x) (b, wb.sel, y)
      else s.issueAlone u a
    | _, .run _ j => if wb.decodeTraps j then s.issueAlone u b else s.issueAlone u a
    | _, _ => s.issueAlone u a
  | _, _ => .next s

/-- A halting group has one instruction left of its 32 (R336): it issues no pair. -/
def State.lastSkid (s : State) (g : Group) : Bool :=
  decide (31 ≤ g.skid) && ((look s.teams g.team).map fun t : Team => t.run) == some .halted

/-- The instruction that has issued and holds the group goes on, with the other of its pair when that waits too. -/
def State.issueHeld (s : State) (u : Nat) (g : Group) (pc : VA) : Out :=
  match g.issuedAs with
  | none => s.goOn u pc 0xFFFFFFFF#32
  | some ⟨m, none⟩ => s.goOn u pc m
  | some ⟨_, some (a, b)⟩ =>
    let fetched : VA × Mask → Option Fetch := fun x => (s.atHeld u x.1 x.2).view?.map fun w : View => w.fetch x.1
    match fetched a, fetched b with
    | some (.ok x), some (.ok y) => s.issuePair u (a.1, a.2, x) (b.1, b.2, y)
    | some (.ok _), _ => s.goOn u b.1 b.2
    | _, _ => s.goOn u a.1 a.2

/-- The choice of PC A and PC B (R138), unless an instruction that has issued holds the group's issue. -/
def State.issueGroup (s : State) (u : Nat) : Out :=
  match look s.groups u with
  | none => .next s
  | some g =>
    if !s.mayIssue g then .next s
    else if !g.wait.boundary then
      match g.wait with
      | .retry pc _ => s.issueHeld u g pc
      | _ => .next s
    else
      match g.pcA none with
      | none => .next s
      | some a =>
        match (if s.lastSkid g then none else g.pcA (some a)) with
        | none => s.issueAlone u a
        | some b => s.issueTwo u a b

/-! ## Forward progress (R164) -/

/-- GLTID of a thread (R132). -/
def Team.gltid (tm : Team) (g : Group) (t : Nat) : Nat := ((tm.clid * tm.tpc + tm.crank) * tm.gpt + g.gidx) * 32 + t

/-- The grid of a team. -/
def Team.grid (tm : Team) : Nat × Nat × Nat := (tm.ctx, tm.graph, tm.node)

/-- The runnable threads of a grid, those whose pausing flag is clear if there are any: group, thread and GLTID. The threads of a
halted team execute nothing until it is resumed (R336). -/
def State.gridSet (s : State) (grid : Nat × Nat × Nat) : List (Nat × Nat × Nat) :=
  let all := s.groups.flatMap fun g =>
    match look s.teams g.2.team with
    | some t =>
      if t.grid = grid && t.run != .halted then
        ((List.range g.2.threads.length).filter fun k => (g.2.thread k).running).map fun k => (g.1, k, t.gltid g.2 k)
      else []
    | none => []
  let clear := all.filter fun x => match look s.groups x.1 with
    | some g => !(g.thread x.2.1).pausing
    | none => false
  if clear.isEmpty then all else clear

/-- The thread of the set with the lowest GLTID. -/
def State.foremost (s : State) (grid : Nat × Nat × Nat) : Option (Nat × Nat × Nat) :=
  (s.gridSet grid).foldl (fun b x =>
    match b with
    | none => some x
    | some y => if x.2.2 < y.2.2 then some x else some y) none

/-- A cycle counts for a foremost thread: its context is scheduled, no handler runs in its group, the group is not parked, its team is
not stopped by a step of a transition (R378). No access waits on a line in a move: Move and a migration batch are one event each. -/
def State.progressCounts (s : State) (u : Nat) : Bool :=
  match look s.groups u with
  | none => false
  | some g =>
    !g.handler && (match g.wait with
      | .parked .. => false
      | _ => true)
    && g.gat.isNone && (look s.teams g.team).any fun tm => tm.run == .running

/-- Some cycles have passed: every grid's foremost thread, and how long it has been that. -/
def State.countAhead (s : State) (cycles : Nat) : List ((Nat × Nat × Nat) × Nat × Nat) :=
  (s.teams.map fun t => t.2.grid).eraseDups.filterMap fun grid =>
    (s.foremost grid).map fun (u, _, n) =>
      let old := match s.ahead.find? fun x => x.1 == grid with
        | some x => if x.2.1 = n then x.2.2 else 0
        | none => 0
      (grid, n, if s.progressCounts u then old + cycles else old)

/-- A foremost thread that executes its next instruction when the group issues. -/
def State.aheadRan (s t : State) (u : Nat) (g : Group) (grid : Nat × Nat × Nat) (n : Nat) : Bool :=
  match look s.teams g.team, look t.groups u with
  | some tm, some g' => tm.grid == grid && (List.range g.threads.length).any fun k =>
      tm.gltid g k == n && ((g.thread k).pc == t.curPc || g.thread k != g'.thread k)
  | _, _ => true

/-- The grid whose foremost thread must execute now. The spec's bound is 2^20 cycles; from the half of it on that thread comes before
everything else (DESIGN CHOICE, log 79). -/
def State.overdue (s : State) : Option (Nat × Nat) :=
  (s.ahead.find? fun x => 2 ^ 19 ≤ x.2.2).bind fun x => (s.foremost x.1).map fun y => (y.1, y.2.1)

/-! ## The round of a quadrant (R138, R381) -/

/-- Between two states the group has issued. -/
def didIssue (s t : State) (u : Nat) : Bool :=
  match look s.groups u, look t.groups u with
  | some g, some g' => g.lastIssue != g'.lastIssue
  | some _, none => true
  | none, _ => false

/-- What an issue leaves beside its own effect: a coin of the zone is spent (R310), the quadrant's round goes on from the slot
(R138), and the foremost threads that executed begin to count anew (R164). -/
def State.noteIssue (s t : State) (u : Nat) : State :=
  match look s.groups u with
  | none => t
  | some g =>
    let slot := g.slot.getD 0
    let t := if (s.quadOf g.quad).rr = slot then t else t.updQuad g.quad fun q => { q with rr := slot }
    let t := t.payIssue (s.zoneNum g) 1
    if t.ahead.isEmpty then t
    else { t with ahead := t.ahead.filter fun x => !(s.aheadRan t u g x.1 x.2.1) }

def insertBy {α : Type} (le : α → α → Bool) (x : α) : List α → List α
  | [] => [x]
  | y :: ys => if le x y then x :: y :: ys else y :: insertBy le x ys

/-- A list in an order, equals as they stood. -/
def sortBy {α : Type} (le : α → α → Bool) (xs : List α) : List α := xs.foldr (insertBy le) []

/-- The groups of a quadrant that are in its active set, in the order in which the stage serves them (R138, R381): those that have
waited for more than 16,384 cycles, the oldest first; then by the queue's priority; then in the round from the slot after the one
that issued last. A quadrant issues for one context at a time (R340), so no two zones contend for its slots; the round of R138 stands for
R381's last step (DEDUCED, log 116). -/
def State.issueOrder (s : State) (quad : Nat) (busy : List Nat) : List Nat :=
  let rr := (s.quadOf quad).rr
  let age := fun g : Group => s.schedOf g + 1 - g.lastIssue
  let prio := fun g : Group => ((look s.teams g.team).map fun t : Team => t.prio).getD 0
  let round := fun g : Group => (g.slot.getD 0 + 15 - rr) % 8
  let before := fun a b : Group =>
    if 16384 < age a ∨ 16384 < age b then decide (age b < age a) || (age a == age b && decide (round a ≤ round b))
    else decide (prio b < prio a) || (prio a == prio b && decide (round a ≤ round b))
  let gs := s.groups.filter fun g => g.2.quad == quad && g.2.slot.isSome && !busy.contains g.1
  (sortBy (fun a b => before a.2 b.2) gs).map (·.1)

/-- The stage goes through the groups until one issues (R138). -/
def State.issueFirst (s : State) : List Nat → Out
  | [] => .next s
  | u :: us =>
    match s.issueGroup u with
    | .next t => if didIssue s t u then .next (s.noteIssue t u) else t.issueFirst us
    | o => o

/-- One cycle of a quadrant's issue stage. `busy` names the groups that find no lane or unit, which is timing (R94 to R96). -/
def State.issueQuad (s : State) (quad : Nat) (busy : List Nat) : Out := s.issueFirst (s.issueOrder quad busy)

/-! ## Stalls that end (R142) -/

/-- The stall of a pending group has resolved: the instruction that would issue does not meet it any more, whatever else it waits for;
an issued instruction, tried now, would not wait so. -/
def State.stallOver (s : State) (u : Nat) (g : Group) : Bool :=
  match g.wait with
  | .retry pc .operand =>
    match (s.at_ u pc).view? with
    | some w =>
      match w.plan with
      | .stall => false
      | _ => true
    | none => true
  | .retry pc _ =>
    match s.issueHeld u g pc with
    | .next t => (look t.groups u).all fun g' => !g'.wait.stalled
    | _ => true
  | _ => false

/-- Every pending group whose stall has resolved is ready. -/
def State.wake (s : State) : State :=
  let due := s.groups.filter fun g => g.2.wait.stalled && g.2.slot.isNone && g.2.readyAt.isNone && g.2.hasRun && s.stallOver g.1 g.2
  if due.isEmpty then s
  else { s with groups := mapVals s.groups fun u g => if due.any (·.1 == u) then { g with readyAt := some s.cycle } else g }

/-- A group of the active set whose wait has become a leave wait leaves it (R269). -/
def State.leaveOut (s : State) (u : Nat) : State :=
  match look s.groups u with
  | none => s
  | some g =>
    if !(g.slot.isSome && g.hasRun && g.wait.triable) then s
    else
      let t := if g.wait.boundary then
          (match g.pcA none with
           | some pc =>
             match (s.at_ u pc).view? with
             | some w => if w.plan == .stall then w.hold .operand else s
             | none => s
           | none => s)
        else
          (match g.wait with
           | .retry pc _ =>
             match s.issueHeld u g pc with
             | .next t => if (waitAfter u (.next t)).stalled then t else s
             | _ => s
           | _ => s)
      { t with cur := s.cur, curPc := s.curPc, curMask := s.curMask, curBlind := s.curBlind }

def State.leaveWaits (s : State) : State :=
  ((s.quads.filter fun q => q.2.leaveShort).flatMap fun q => (s.groups.filter fun g => g.2.quad == q.1).map (·.1)).foldl State.leaveOut s

/-! ## The schedule (log entry 1) -/

/-- An error from outside (R102, R103, R189, R254). -/
def State.upset (s : State) : Upset → State
  | .reg u m =>
    match look s.groups u with
    | none => s
    | some g =>
      let core := ((look s.teams g.team).map fun t : Team => t.core).getD 0
      (s.setGroup u { g with marks := (if m.file == .p then ⟨.p, m.thr, 0, 0, false⟩ else { m with mem := false }) :: g.marks }).logError 1 (some (core / 128)) (core % 128) (s.zoneNum g) 0
  | .tile q key =>
    (s.updQuad q fun x => { x with tmarks := put x.tmarks key false }).logError 1 (some (q / 512)) (q / 4 % 128) 0xFFFF 0
  | .line l => { s with badLines := dedup (l :: s.badLines) }
  | .soft u m => s.updGroup u fun g => { g with soft := m :: g.soft }
  | .softTile q key => s.updQuad q fun x => { x with soft := key :: x.soft }
  | .corrected => s.countCorrected

/-- A cache gives up a line (R205, R174): 0 an L1 copy, 1 an L2 copy, 2 a home record, 3 a private line of a group. -/
def State.evict (s : State) (level key : Nat) : State :=
  match level with
  | 0 => { s with l1 := del s.l1 key }
  | 1 => { s with l2 := del s.l2 key }
  | 2 => s.evictHome key
  | _ =>
    match look s.groups (key / 2 ^ 49) with
    | none => s
    | some g =>
      let (t, g') := s.writeBack (s.zoneNum g) g fun l => l == key % 2 ^ 49
      t.setGroup (key / 2 ^ 49) g'

/-- The row is an event: it has no word. -/
def isEvent (i : Instr) : Bool :=
  i.opc.isNone && match i with
    | .illegalWord _ => false
    | _ => true

/-- The effect of a pick. -/
def State.take (s : State) : Pick → Out
  | .event i => if isEvent i then exec i s else .next s
  | .issue quad busy => s.issueQuad quad busy
  | .evict level key => .next (s.evict level key)
  | .hostStore a bs => .next { s with hostMem := writeBytes s.hostMem a bs }
  | .coins z l n => .next (s.charge z l n)
  | .arrive src => .next (s.arrive src)
  | .boot b => .next { s with boot := some b }
  | .upset x => .next (s.upset x)
  | .tick c ns => .next ({ s with cycle := s.cycle + c, now := s.now + ns, ahead := s.countAhead c } : State).closeWindows

/-- Events of a group that its own state calls for. -/
def groupEvents (u : Nat) (g : Group) : List (State → Out) :=
  [execHaltsib u, execArithlog u, execRemote u, execWalk u, execFaultRecord u, execMxopAccept u]
    ++ (List.range (g.inflight.length + 1)).map (fun k => execInstructionComplete u k)
    ++ g.loads.flatMap (fun (l : LoadRec) => (List.range l.lines.length).flatMap fun k =>
        [execGrantL2 u l.id k, execLineFill u l.id k, execRenewalReturn u l.id k])
    ++ [execStoreBufferLeave u]
    ++ g.fly.flatMap (fun (f : FlyLine) => [execPerformAtHome u f.fid, execStoreAck u f.fid])
    ++ (List.range g.threads.length).flatMap (fun t => [execHoldExpiry u t, execSleepExpiry u t])
    ++ g.queues.flatMap (fun q => [execStreamStart u q.1, execStreamRead u q.1])
    ++ [execEvwaitTimeout u, execGroupRetire u]

def teamEvents (k : Nat) (tm : Team) : List (State → Out) :=
  tm.bars.map (fun b => execBarRelease k b.1) ++ tm.barcs.map (fun b => execBarcRelease k b.1)
    ++ [execTeamStopped k, execImageUpdate k, execPeerAccessResume k]

def graphEvents (gr : Nat) (g : Graph) : List (State → Out) :=
  ((List.range g.nodes.length).flatMap fun nd =>
    [execConditionRead gr nd, execNodeReady gr nd, execNodeDispatch gr nd, execNodeRetire gr nd]) ++ [execCompletionRecord gr]

/-- What the device itself may do next, in the order the model's own schedule tries it. -/
def State.candidates (s : State) : List (State → Out) :=
  s.groups.flatMap (fun g => groupEvents g.1 g.2)
    ++ s.teams.flatMap (fun t => teamEvents t.1 t.2)
    ++ s.quads.flatMap (fun q => [execMatrixOpStart q.1, execMatrixOpComplete q.1])
    ++ s.govs.map (fun d => execLeaveGrant d.1)
    ++ s.copies.flatMap (fun c => [execTramLine c.1, execCopyEnd c.1])
    ++ s.slots.map (fun x => execPacketFetch x.1)
    ++ s.graphs.flatMap (fun g => graphEvents g.1 g.2)
    ++ s.held.map (fun h => execHeldWriteRelease h.1)
    ++ s.banks.flatMap (fun b => [execWriteback b.1, execWaitrelease b.1, execZerofill b.1, execScrubEnd true b.1])
    ++ s.quads.map (fun q => execScrubEnd false q.1)
    ++ s.zones.flatMap (fun z => z.2.newMaps.map fun d => execSweepEnd z.1 d.1)
    ++ s.zones.flatMap (fun z => [execDepartureEnd z.1, execWayFree z.1, execMigrationBatch z.1, execZoneCommit z.1])
    ++ ((s.zones.filter fun z => s.rollDue z.1).map fun z => execEpochRollover z.1)
    ++ s.evHeld.map (fun e => execEventPlace e.1)
    ++ (dedup (s.groups.map fun g => g.2.quad)).flatMap fun q => (List.range 8).map fun n => execSlotRefill q n

/-- The event changes the state. -/
def State.after (s : State) (e : State → Out) : Option State :=
  match e s with
  | .next t => if t = s then none else some t
  | _ => none

/-- The quadrants with groups, from the one after that of the group that issued last. -/
def State.turn (s : State) : List Nat :=
  let qs := dedup (s.groups.map fun g => g.2.quad)
  let last := ((look s.groups s.cur).map fun g : Group => g.quad).getD 0
  (qs.filter fun q => decide (last < q)) ++ qs.filter fun q => decide (q ≤ last)

/-- The model's own schedule, when none is given: bring-up first; then what the device does by itself; then the next group that
may issue. -/
def State.idle (s : State) : Out :=
  match s.phase with
  | .cold => execColdReset s
  | .recovery => .next s
  | .running =>
    match s.candidates.findSome? s.after with
    | some t => .next t
    | none =>
      match s.turn.find? fun q => s.groups.any fun g => g.2.quad == q && s.mayIssue g.2 with
      | some q => s.issueQuad q []
      | none => .next s

/-- A ready group of which a thread must execute takes a slot from a group that has not to (DESIGN CHOICE, log 79). -/
def State.giveSlot (s : State) (u : Nat) (g : Group) : Option State :=
  if g.slot.isSome || g.readyAt.isNone || !g.launched || s.quadCtx g.quad != s.ctxOf g then none
  else
    (s.groups.find? fun x => x.1 != u && x.2.quad == g.quad && x.2.slot.isSome).map fun x =>
      (s.updGroup x.1 fun o => o.leaveSlot (some s.cycle)).updGroup u fun g => { g.laneSwitch with slot := x.2.slot, readyAt := none }

/-- The step that R164 forces: what the device does by itself, until the foremost thread's instruction can issue; that one issues
then, at its own PC, from a slot that the group is given if it has none. Nothing is forced while the instruction itself cannot issue:
the other groups go on. -/
def State.force (s : State) (u t : Nat) : Option Out :=
  match s.candidates.findSome? s.after, look s.groups u with
  | some t, _ => some (.next t)
  | none, some g =>
    if s.mayIssue g then
      let o := match g.wait with
        | .retry pc _ => if g.wait.boundary then s.issueAlone u (g.thread t).pc else s.issueHeld u g pc
        | _ => s.issueAlone u (g.thread t).pc
      match o with
      | .next s' => if didIssue s s' u then some (.next (s.noteIssue s' u)) else none
      | o => some o
    else (s.giveSlot u g).map .next
  | none, none => none

/-- What the end of a cycle brings: windows of 1,024 scheduled cycles end (R203), loans are made (R311), and a period of 8 µs, 20,000
cycles, ends (R310). -/
def State.cycleEnd (s : State) : State :=
  let s := s.closeWindows.lendAll.rotate.chargeOverruns.returnLeaves.servePosts.serveMailbox
  if s.period + 20000 ≤ s.cycle then
    match execCoinPeriod s with
    | .next t => t
    | _ => s
  else s

/-- A cycle has passed: the groups whose stall has ended are ready, and the foremost threads have waited a cycle more. -/
def nextCycle : Out → Out
  | .next t => let t := t.leaveWaits.wake; .next ({ t with cycle := t.cycle + 1, ahead := t.countAhead 1 } : State).cycleEnd
  | o => o

/-- One step of the device. -/
def State.advance (s : State) : Out :=
  match s.overdue.bind fun x => s.force x.1 x.2, s.sched with
  | some o, _ => nextCycle o
  | none, p :: rest => nextCycle ({ s with sched := rest }.take p)
  | none, [] => nextCycle s.idle

/-! ## A program in place (log entry 1) -/

/-- Where `withFetchWord` puts its instruction: a page of zone 64's part of HBM. -/
def fetchPa : Nat := 0xF800000000

/-- A group of context 0 whose next instruction is at virtual address 0. -/
def fetchGroup : Group := { team := 0, quad := 0, slot := some 0, regs := 256 }

/-- The state in which a loaded program's next instruction is the given bytes. -/
def State.loadedWith (s : State) (bs : List Byte) : State :=
  let leaf : Leaf := { x := true, rd := true, k := 16 }
  { s with
    phase := .running
    sched := [.issue 0 []]
    groups := put s.groups 0 fetchGroup
    teams := put s.teams 0 { groups := [0], regs := 256, textSize := 12 }
    ctxs := put s.ctxs 0 { priv := .hyp }
    zones := put s.zones 64 { hbmbase := fetchPa, hbmmax := 2 ^ 31, size := 2 ^ 31 }
    quads := upd s.quads 0 fun q => { q with ctx := some 0 }
    tlb1 := { loc := 0, zone := 64, ctx := 0, vpn := 0, ppn := fetchPa / 2 ^ 16, leaf := leaf } :: s.tlb1
    mem := writeBytes s.mem fetchPa bs }

end Sys2Proof.Machine
end

