-- ==== Sys2Proof/Machine/Step.lean ====
section
/-!
DEFINITION. The step of the device, and a state whose next step runs a given instruction.
-/

namespace Sys2Proof.Machine

/-- One step. -/
def step (s : State) : Host.Outcome State Fault Refusal := s.advance

/-- The state in which the next step fetches and runs the instruction of these bits (log entry 1). -/
def State.withFetchWord (s : State) (nbits w : Nat) : State :=
  s.loadedWith (bytesOfWord (BitVec.ofNat 96 (w % 2 ^ nbits)))

end Sys2Proof.Machine
end

