-- ==== Sys2Proof/Safety.lean ====
section
/-!
DEFINITION. The terms the statements use: what a safe run is, when an instruction issues, what an issue leaves of its
group, and how far a change of the state reaches.
-/

namespace Sys2Proof

/-! ## Values of the float formats (R71, R114) -/

/-- The real number that a decoded value is; 0 for what is none. -/
def FVal.num : FVal → ℚ
  | .fin s m e => (if s then -1 else 1) * m * 2 ^ e
  | _ => 0

def FVal.sign : FVal → Bool
  | .nan => false
  | .inf s | .fin s _ _ => s

def FVal.isInf : FVal → Bool
  | .inf _ => true
  | _ => false

/-- One value lies below another on the extended line. -/
def FVal.Lt (a b : FVal) : Prop :=
  if a.isInf then a.sign = true ∧ (b.isInf = true → b.sign = false)
  else if b.isInf then b.sign = false
  else a.num < b.num

/-- Values that are one number; the two zeros are. -/
def FVal.Same (a b : FVal) : Prop := a.isInf = b.isInf ∧ if a.isInf then a.sign = b.sign else a.num = b.num

end Sys2Proof

namespace Sys2Proof.Machine

/-- The step answers a next state: it neither faults nor refuses. -/
def Runs (s : State) : Prop := ∃ t, step s = .next t

/-- A predicate on states that a step never leaves. -/
def Kept (p : State → Prop) : Prop := ∀ s t, p s → step s = .next t → p t

/-- Instruction i issues in state s for view w (the chosen group, team and context, after the first read of a copy's status
register) on execution mask m: the form is legal, its registers are in range, the context has the privilege it needs, some
selected thread's guard holds, and no operand reads an uncorrectable half (R34, R46, R47, R104, R135). -/
abbrev Issues (i : Instr) (s : State) (w : View) (m : Mask) : Prop :=
  s.view?.map (fun v => v.firstReads i.uses.srcs) = some w
    ∧ i.uses.legal = true
    ∧ i.uses.regsOk w.g.regs = true
    ∧ w.privOk i.uses.priv = true
    ∧ w.execMask i.uses.ctl.guard = m
    ∧ m ≠ 0
    ∧ w.operandError i.uses m = none

/-! ## What a lane instruction leaves in its group (R21, R35, R39, R135) -/

/-- Register n lies in the run of k registers from b. -/
def inRun (b k n : Nat) : Bool := decide (b ≤ n ∧ n < b + k)

/-- A v register is a last-use source of the instruction. -/
def lastV (u : Uses) (n : Nat) : Bool :=
  u.srcs.any fun x => match x.src with
    | .v b .last => inRun b.toNat (x.role.width / 32) n
    | _ => false

/-- An s register is a last-use source of the instruction. -/
def lastS (u : Uses) (n : Nat) : Bool :=
  u.srcs.any fun x => match x.src with
    | .s b .last => inRun b.toNat (if x.role.width ≤ 64 then 1 else 2) n
    | _ => false

/-- A v register of a thread after the instruction gave it the bits d: the destination's registers take them in turn, a
last-use source reads as poison, every other register is as it was. -/
def vAfter (u : Uses) (d : Nat) (old : Nat → W32) (n : Nat) : W32 :=
  let kept := if lastV u n then poison32 else old n
  match u.dst with
  | some ⟨.v b false, r⟩ => if inRun b.toNat (r.width / 32) n then BitVec.ofNat 32 (d / 2 ^ (32 * (n - b.toNat))) else kept
  | _ => kept

/-- A predicate of a thread after the instruction gave it p; p7 is never written. -/
def predAfter (u : Uses) (p : Bool) (old : BitVec 3 → Bool) (n : BitVec 3) : Bool :=
  if n ≠ 7 ∧ (n ∈ u.pds ∨ (u.dst.map fun d => d.dst) = some (.p n)) then p else old n

/-- An s register after the instruction, where the group's result is d. -/
def sAfter (u : Uses) (sx : Bool) (d : Nat) (old : Nat → W64) (n : Nat) : W64 :=
  let kept := if lastS u n then poison64 else old n
  match u.dst with
  | some ⟨.s b, r⟩ =>
    if r.width ≤ 64 then (if n = b.toNat then fillS r.width sx d else kept)
    else if n = b.toNat + 1 then BitVec.ofNat 64 (d / 2 ^ 64)
    else if n = b.toNat then BitVec.ofNat 64 d
    else kept
  | _ => kept

/-- An h register after the instruction. -/
def hAfter (u : Uses) (d : Nat) (old : Nat → W64) (n : Nat) : W64 :=
  match u.dst with
  | some ⟨.h b, _⟩ => if n = b.toNat then BitVec.ofNat 64 d else old n
  | _ => old n

/-- A thread without its latches (R44, R45), which every lane switch and producer moves. -/
def Thread.bare (th : Thread) : Thread := { th with b0 := 0, b1 := 0, b2 := 0, b3 := 0, lseq := 0 }

/-- A group without what the issue stage keeps for itself: the slot it holds and since when it is ready, its last issue and its
skid, what it waits for and has read for a form, its place among the forms of a zone, what of it has issued, whether it has trapped
since a halt, its scoreboards, the instructions not complete, the check bits of its registers, its latches. Everything a program can
read back stays. -/
def Group.core (g : Group) : Group :=
  { g with slot := none, readyAt := none, lastIssue := 0, skid := 0, wait := .none, issuedAs := none, pairCede := false
           tripped := false, begun := none, clearAt := none, zform := none, sb := [], inflight := [],
           marks := [], soft := [], relog := false, formRead := none, threads := g.threads.map Thread.bare }

/-- The state t differs from s0 in one group alone, and that group is g up to what the issue stage keeps for itself. -/
def Leaves (s0 : State) (u : Nat) (t : State) (g : Group) : Prop :=
  ∃ g', t = { s0 with groups := put s0.groups u g' } ∧ g'.core = g.core

/-- A group without its registers and threads. -/
def Group.rest (g : Group) : Group := { g with threads := [], s := [], h := [] }.core

/-- The state t is what a lane instruction leaves of the view's state, when thread k of the execution mask m is given `out k`:
only the issuing group is another; its selected threads have moved on by one instruction; the destinations hold what their
threads were given (an s register the lowest thread's, an h register the highest thread's: log entry 8); nothing else of the
group has changed but its last-use sources and what the issue stage keeps for itself. -/
def LaneDone (i : Instr) (w : View) (m : Mask) (sx : Bool) (out : Nat → LaneOut) (t : State) : Prop :=
  ∃ g', t = { w.s with groups := put w.s.groups w.u g' }
    ∧ g'.rest = w.g.rest
    ∧ g'.threads.length = w.g.threads.length
    ∧ (∀ k, k < w.g.threads.length →
        (g'.thread k).pc = (if inMask w.sel k then (w.g.thread k).pc + 12 else (w.g.thread k).pc)
        ∧ (g'.thread k).stat = (w.g.thread k).stat
        ∧ (g'.thread k).pausing = (w.g.thread k).pausing
        ∧ (g'.thread k).rctr = (if inMask m k then (w.g.thread k).rctr + BitVec.ofNat 64 (out k).draws else (w.g.thread k).rctr)
        ∧ (g'.thread k).fpc = (w.g.thread k).fpc ∧ (g'.thread k).fstat = (w.g.thread k).fstat
        ∧ (g'.thread k).fpausing = (w.g.thread k).fpausing ∧ (g'.thread k).fpreds = (w.g.thread k).fpreds
        ∧ (∀ n, (g'.thread k).vreg n =
            if inMask m k then vAfter i.uses (out k).d (w.g.thread k).vreg n else (w.g.thread k).vreg n)
        ∧ (∀ n, (g'.thread k).pred n =
            if inMask m k then predAfter i.uses (out k).p (w.g.thread k).pred n else (w.g.thread k).pred n))
    ∧ (∀ n, g'.sreg n = sAfter i.uses sx (out (lowest m)).d w.g.sreg n)
    ∧ (∀ n, g'.hreg n = hAfter i.uses (out (highest m)).d w.g.hreg n)

/-- The instruction answers a next state, and that state is what a lane instruction leaves when thread k is given `out k`. -/
def Does (i : Instr) (s : State) (w : View) (m : Mask) (sx : Bool) (out : Nat → LaneOut) : Prop :=
  ∃ t, exec i s = .next t ∧ LaneDone i w m sx out t

/-- The instruction answers a next state, and each thread k was given results that meet `p k`. -/
def DoesSome (i : Instr) (s : State) (w : View) (m : Mask) (sx : Bool) (p : Nat → LaneOut → Prop) : Prop :=
  ∃ out, Does i s w m sx out ∧ ∀ k, k < 32 → p k (out k)

/-- The exceptions of the threads that give results stay with the instruction until it completes, as does its counter (R43, R75);
an instruction with neither is complete at once. -/
def Excepts (i : Instr) (w : View) (m : Mask) (out : Nat → LaneOut) (t : State) : Prop :=
  let fl := ((lanes i.uses m).map fun k => (out k).fl).foldl (· ||| ·) 0
  let sb := setsbOf i.uses.ctl
  ∃ g', look t.groups w.u = some g' ∧ g'.inflight = w.g.inflight ++
    if fl = 0 ∧ sb = none then [] else [{ pc := w.pc64, opc := i.opc.getD 0, flags := fl, sb := sb, when_ := .now }]

/-- The instruction completes, each thread k was given results that meet `p k`, and their exceptions are the instruction's. -/
def Rounds (i : Instr) (s : State) (w : View) (m : Mask) (sx : Bool) (p : Nat → LaneOut → Prop) : Prop :=
  ∃ out t, exec i s = .next t ∧ LaneDone i w m sx out t ∧ Excepts i w m out t ∧ ∀ k, k < 32 → p k (out k)

/-! ## Results of the float forms (R69, R71, R114, R122, R124) -/

/-- The bits and exceptions are QNaN and NV. -/
def Invalid (t : Ty) (o : LaneOut) : Prop := o.d = qnanF t ∧ o.fl = flagNV

/-- With a NaN operand the result is QNaN, with NV when an operand signals; else `k` says what it is. -/
def NanFirst (t : Ty) (bs : List Nat) (o : LaneOut) (k : Prop) : Prop :=
  if bs.any (isNaNF t) then o.d = qnanF t ∧ o.fl = if bs.any (isSNaNF t) then flagNV else 0 else k

/-- The exact x, rounded once to the format in a direction; a zero takes the sign z. -/
def RoundBy (t : Ty) (rm : RMode) (sat ftz z : Bool) (x : ℚ) (o : LaneOut) : Prop :=
  if x = 0 then o.d = zeroF t z ∧ o.fl = 0
  else ∃ (n : Nat) (e : Int), (n : ℚ) * 2 ^ e = |x| ∧ (o.d, o.fl) = roundF t rm sat ftz (decide (x < 0)) n e

/-- The same in one of the directions of R68. -/
def RoundOnce (t : Ty) (v : FEnv) (z : Bool) (x : ℚ) (o : LaneOut) : Prop := RoundBy t (.fixed v.rm) v.sat v.ftz z x o

/-- n is the magnitude r of a value of the sign, rounded to an integer in a direction of R68. -/
def IntegerOf (rm : RM) (neg : Bool) (r : ℚ) (n : Nat) : Prop :=
  let up := rm = .ru ∧ neg = false ∨ rm = .rd ∧ neg = true
  |(n : ℚ) - r| < 1 ∧ (up → r ≤ n) ∧ (¬up → rm ≠ .rne → rm ≠ .rna → (n : ℚ) ≤ r)
    ∧ (rm = .rne ∨ rm = .rna → 2 * |(n : ℚ) - r| ≤ 1)
    ∧ (2 * |(n : ℚ) - r| = 1 → (rm = .rne → n % 2 = 0) ∧ (rm = .rna → r < n))

/-- A value of one float format in another (R86, R93). -/
def Converted (dt st : Ty) (rm : RMode) (sat ftz : Bool) (a : Nat) (o : LaneOut) : Prop :=
  let v := decodeF st ftz a
  if isNaNF st a then
    if dt.hasNaN then o.d = qnanF dt ∧ o.fl = if isSNaNF st a then flagNV else 0 else o.d = zeroF dt false ∧ o.fl = flagNV
  else if v.isInf then
    if dt.hasInf then o.d = infF dt v.sign ∧ o.fl = 0
    else o.d = (if sat || !dt.hasNaN then maxF dt v.sign else qnanF dt) ∧ o.fl = flagNV
  else RoundBy dt rm sat ftz v.sign v.num o

/-- The operands at which a special function is exact, and its values there (R130). The functions are numbered as R128 does. -/
def ExactAt (op : Nat) (x y : ℚ) : Prop :=
  ∃ n : Int, match op with
    | 0 => -126 ≤ n ∧ n ≤ 126 ∧ |x| = 2 ^ n ∧ y = 1 / x
    | 1 => -63 ≤ n ∧ n ≤ 63 ∧ x = 4 ^ n ∧ y = 1 / 2 ^ n
    | 2 => -74 ≤ n ∧ n ≤ 63 ∧ x = 4 ^ n ∧ y = 2 ^ n
    | 3 => -149 ≤ n ∧ n ≤ 127 ∧ x = n ∧ y = 2 ^ n
    | 4 => -149 ≤ n ∧ n ≤ 127 ∧ x = 2 ^ n ∧ y = n
    | 5 => (x = n ∧ y = 0) ∨ (x = n + 1 / 2 ∧ y = (-1) ^ n)
    | 6 => (x = n ∧ y = (-1) ^ n) ∨ (x = n + 1 / 2 ∧ y = 0)
    | _ => (10 ≤ x ∧ y = 1) ∨ (x ≤ -10 ∧ y = -1)

/-- A special function of an operand (R128 to R131): the table of R130, its exact results, NX of every other finite one, and FtzOut, by
the result before rounding (R70), where RCP or TANH comes below 2^-126. -/
def SpecialOf (op : Nat) (ftz : Bool) (a : Nat) (o : LaneOut) : Prop :=
  let v := decodeF .f32 ftz a
  let ends : List (Nat × Flags) :=
    if v.isInf && !v.sign then [(0, 0), (0, 0), (0x7F800000, 0), (0x7F800000, 0), (0x7F800000, 0), (0x7FC00000, flagNV), (0x7FC00000, flagNV), (0x3F800000, 0)]
    else if v.isInf then [(0x80000000, 0), (0x7FC00000, flagNV), (0x7FC00000, flagNV), (0, 0), (0x7FC00000, flagNV), (0x7FC00000, flagNV), (0x7FC00000, flagNV), (0xBF800000, 0)]
    else if !v.sign then [(0x7F800000, flagDZ), (0x7F800000, flagDZ), (0, 0), (0x3F800000, 0), (0xFF800000, flagDZ), (0, 0), (0x3F800000, 0), (0, 0)]
    else [(0xFF800000, flagDZ), (0xFF800000, flagDZ), (0x80000000, 0), (0x3F800000, 0), (0xFF800000, flagDZ), (0x80000000, 0), (0x3F800000, 0), (0x80000000, 0)]
  NanFirst .f32 [a] o <|
    if v.isInf = true ∨ v.num = 0 then (o.d, o.fl) = ends.getD op (0, 0)
    else if v.sign = true ∧ (op = 1 ∨ op = 2 ∨ op = 4) then Invalid .f32 o
    else (∀ y, ExactAt op v.num y → RoundOnce .f32 ⟨ftz, .rne, false⟩ (op == 5 && v.sign) y o)
      ∧ (op = 0 → |v.num| ≤ 1 / 2 ^ 128 → o.d = infF .f32 v.sign ∧ o.fl = flagOF ||| flagNX)
      ∧ (op = 3 → 128 ≤ v.num → o.d = infF .f32 false ∧ o.fl = flagOF ||| flagNX)
      ∧ ((¬∃ y, ExactAt op v.num y) → o.fl &&& flagNX ≠ 0)
      ∧ (ftz = true → (op = 0 ∧ 2 ^ 126 < |v.num|) ∨ (op = 7 ∧ |v.num| = 1 / 2 ^ 126) →
          o.d = zeroF .f32 v.sign ∧ o.fl = flagNX ||| flagUF)

/-- The sum of two values that are no NaN (R122). -/
def SumOf (t : Ty) (v : FEnv) (a b : FVal) (o : LaneOut) : Prop :=
  if a.isInf ∧ b.isInf ∧ a.sign ≠ b.sign then Invalid t o
  else if a.isInf then o.d = infF t a.sign ∧ o.fl = 0
  else if b.isInf then o.d = infF t b.sign ∧ o.fl = 0
  else RoundOnce t v (if a.num = 0 ∧ b.num = 0 ∧ a.sign = b.sign then a.sign else v.rm == .rd) (a.num + b.num) o

/-- One factor is zero and the other infinite. -/
def ZeroTimesInf (a b : FVal) : Prop :=
  (a.isInf = true ∧ b.isInf = false ∧ b.num = 0) ∨ (b.isInf = true ∧ a.isInf = false ∧ a.num = 0)

/-- The product of two values that are no NaN (R122). -/
def ProductOf (t : Ty) (v : FEnv) (a b : FVal) (o : LaneOut) : Prop :=
  (ZeroTimesInf a b → Invalid t o)
  ∧ (¬ZeroTimesInf a b →
      if a.isInf || b.isInf then o.d = infF t (a.sign ^^ b.sign) ∧ o.fl = 0
      else RoundOnce t v (a.sign ^^ b.sign) (a.num * b.num) o)

/-- A product, exact, plus a third value, rounded once (R122). -/
def FusedOf (t : Ty) (v : FEnv) (a b c : FVal) (o : LaneOut) : Prop :=
  (ZeroTimesInf a b → Invalid t o)
  ∧ (¬ZeroTimesInf a b → ∀ p : FVal, p.isNaN = false → p.isInf = (a.isInf || b.isInf) → p.sign = (a.sign ^^ b.sign) →
      (p.isInf = false → p.num = a.num * b.num) → SumOf t v p c o)

/-- The smaller or, with `big`, the larger of two values, −0 below +0; of a NaN and a number the number, unless `nanp` (R124). -/
def ChosenOf (t : Ty) (ftz nanp big : Bool) (a b : Nat) (o : LaneOut) : Prop :=
  let x := decodeF t ftz a
  let y := decodeF t ftz b
  let below := fun p q : FVal => p.Lt q ∨ (p.Same q ∧ p.isInf = false ∧ p.num = 0 ∧ p.sign = true ∧ q.sign = false)
  o.fl = (if isSNaNF t a ∨ isSNaNF t b then flagNV else 0)
  ∧ (if isNaNF t a ∧ isNaNF t b then o.d = qnanF t
     else if isNaNF t a then o.d = if nanp then qnanF t else encodeF t y
     else if isNaNF t b then o.d = if nanp then qnanF t else encodeF t x
     else (below x y → o.d = encodeF t (if big then y else x)) ∧ (¬below x y → o.d = encodeF t (if big then x else y)))

/-- A comparison code of R114 holds. -/
def CmpHolds (c : Cmp) (un : Bool) (a b : FVal) : Prop :=
  let lt := un = false ∧ a.Lt b
  let eq := un = false ∧ a.Same b
  let gt := un = false ∧ b.Lt a
  match c with
  | .f => False
  | .lt => lt
  | .eq => eq
  | .le => lt ∨ eq
  | .gt => gt
  | .ne => un = false ∧ ¬eq
  | .ge => gt ∨ eq
  | .num => un = false
  | .nan => un = true
  | .ltu => un = true ∨ lt
  | .equ => un = true ∨ eq
  | .leu => un = true ∨ lt ∨ eq
  | .gtu => un = true ∨ gt
  | .neu => un = true ∨ ¬eq
  | .geu => un = true ∨ gt ∨ eq
  | .t => True

/-- The class of a value, as a bit number of R126. -/
def classOf (t : Ty) (ftz : Bool) (a : Nat) : Nat :=
  let neg := fneg t a
  if isSNaNF t a then 8
  else if isNaNF t a then 9
  else if isInfF t a then (if neg then 0 else 7)
  else if fexp t a = 0 ∧ (ffrac t a = 0 ∨ (ftz && t.ftzable)) then (if neg then 3 else 4)
  else if fexp t a = 0 then (if neg then 2 else 5)
  else if neg then 1 else 6

/-- A result of w bits whose bit i is `b i`. -/
def BitsAre (w : Nat) (b : Nat → Bool) (o : LaneOut) : Prop := o.d < 2 ^ w ∧ ∀ i, i < w → o.d.testBit i = b i

/-- A form that acts once on the state beside its group and answers with d in its destination: what it has made of the view's
state is s1, and to that comes what a lane instruction leaves that gives d to every thread. -/
def Answers (i : Instr) (w : View) (m : Mask) (s1 : State) (d : Nat) (t : State) : Prop :=
  LaneDone i { w with s := s1 } m false (fun _ => .bits d) t

/-! ## Groups and events -/

/-- Group u of the state is g, up to what the issue stage keeps for itself. -/
def GroupIs (t : State) (u : Nat) (g : Group) : Prop := ∃ g', look t.groups u = some g' ∧ g'.core = g.core

/-- The group holds: its instruction has had no effect and will be tried again. -/
def Holds (s : State) (u : Nat) (t : State) (g : Group) : Prop :=
  ∃ g' stall, t = { s with groups := put s.groups u g' } ∧ g'.core = g.core ∧ g'.wait = .retry s.curPc stall

/-- Between s and t the event queues have changed by the raising of one event (R347). -/
def Raised (s t : State) (q : Nat) (e : EvRec) : Prop := t.evq = (s.raise q e).evq ∧ t.evHeld = (s.raise q e).evHeld

/-! ## Traps (R329 to R333, R336) -/

/-- What a trap writes into the trap registers. -/
def Group.trapRegs (g : Group) (code : Nat) (mask : Mask) (epc : W64) (tinfo : Nat) (double : Bool) : Group :=
  { g with cause := BitVec.ofNat 8 code, double := double, tmask := mask, epc := epc, tinfo := BitVec.ofNat 64 tinfo }

/-- The group has entered its handler: every live thread's PC, status, pausing flag and predicates stand in the frame, and the
thread runs at the handler's first instruction; the section size is kept and 32 (R332). -/
def Group.inHandler (g : Group) (pc : VA) : Group :=
  { g.mapThreads (fun _ th =>
      if th.live then
        { th with fpc := th.pc, fstat := th.stat, fpausing := th.pausing, fpreds := th.preds, pc := pc, stat := .run, pausing := false }
      else th) with fpart := g.part, part := 5, handler := true }

/-- The view's group, left as g by its instruction, has taken a trap (R331): with a usable handler and outside of one it has
entered it; else its team is halted, the group stands where it was, and no other group has changed. -/
def TrapTaken (w : View) (g : Group) (code : Nat) (mask : Mask) (epc : W64) (tinfo : Nat) (t : State) : Prop :=
  match w.handlerOffset with
  | some off =>
    if g.handler then Halted g.handler
    else Leaves { w.s with trapSeq := w.s.trapSeq + 1 } w.u t
      ((g.trapRegs code mask epc tinfo false).inHandler (w.tm.codeBase + BitVec.ofNat 72 off))
  | none => Halted g.handler
where
  /-- The team is halted by the trap. -/
  Halted (double : Bool) : Prop :=
    GroupIs t w.u { g.trapRegs code mask epc tinfo double with stopped := true }
      ∧ (∀ k, k ≠ w.u → look t.groups k = look w.s.groups k)
      ∧ look t.teams g.team = (look w.s.teams g.team).map (fun tm : Team => { tm with run := .halted })
      ∧ t.mem = w.s.mem

/-! ## Checks of a memory form (R186) -/

/-- Every thread's address passes its checks and every piece of every access is translated, permitted and in place. -/
def View.accessible (w : View) (u : Uses) (m : Mask) (n : Nat) (acc : Acc) (addr : Nat → AddrOut) : Bool :=
  (lanes u m).all fun t => (addr t).chks.isEmpty && (w.vPieces t n (addr t).tgt).all fun p =>
    match w.lookupVa p.1 (accOf acc (addr t).tgt) with
    | some (pa, leaf) => !w.s.refusedPa leaf pa
    | none => false

/-- The accesses of the threads, translated. -/
def View.accsOf (w : View) (u : Uses) (m : Mask) (n : Nat) (acc : Acc) (addr : Nat → AddrOut) : List ThreadAcc :=
  (lanes u m).map fun t => w.settleTgt
    { thr := t, n := n, tgt := (addr t).tgt
      pcs := (w.vPieces t n (addr t).tgt).filterMap fun p =>
        (w.lookupVa p.1 (accOf acc (addr t).tgt)).map fun r => ⟨t, p.2.1, p.2.2, r.1, r.2, p.1⟩ }

/-- The race check lets the accesses pass and leaves the state s1 (R233, R234). -/
def View.Passes (w : View) (accs : List ThreadAcc) (write : Bool) (s1 : State) : Prop :=
  if w.s.objs.isEmpty then s1 = w.s else w.raceCheck accs write = .ok s1

/-- The L1 copy a load of the group may read (R207): valid, with a lease that reaches the group's clock, of a line that no earlier
load of the group still waits for. -/
def View.l1Hit (w : View) (leaf : Leaf) (line : Nat) : Option Copy :=
  if w.s.isRemote line || isRegLine line || w.s.lineLost w.cx.zone leaf line || leaf.unc || w.g.openLines.contains line
      || !w.s.hasL1 w.tm.core w.cx.zone then none
  else ((w.s.touchBase (l1Loc w.tm.core) w.cx.zone w.g.pts).getL1 w.tm.core w.cx.zone line).filter fun c =>
    !c.xp && decide (w.g.pts ≤ c.rts)

/-- The byte j of a thread's access that needs nothing from outside the core: a byte of the scratchpad, of its private space, of
its own unacknowledged stores, of a copy in L1. -/
def View.byteNow (w : View) (a : ThreadAcc) (j : Nat) : Option Byte :=
  let piece := a.pcs.find? fun p => decide (p.at_ ≤ j) && decide (j < p.at_ + p.n)
  match a.tgt with
  | .scr team off => (look w.s.teams team).map fun tm => readByte tm.scratch (off + j)
  | .priv _ => piece.map fun p => (w.ownNow a.thr (p.pa + (j - p.at_))).getD (w.privByte (p.pa + (j - p.at_)))
  | .glob _ => piece.bind fun p =>
      match w.ownNow a.thr (p.pa + (j - p.at_)) with
      | some b => some b
      | none => ((w.l1Hit p.leaf (lineOf p.pa)).filter fun c => !c.bad).map fun c => LineData.byte c.data (p.pa + (j - p.at_))

/-- Memory, groups, teams and contexts are as they were. -/
def SameMemory (s t : State) : Prop :=
  t.mem = s.mem ∧ t.hostMem = s.hostMem ∧ t.groups = s.groups ∧ t.teams = s.teams ∧ t.ctxs = s.ctxs

end Sys2Proof.Machine
end

