-- ==== Sys2Proof/Certificates/Slice0/Obligations.lean ====
section
/-!
DEFINITION. The statements for the provers.
-/

open Sys2Proof Sys2Proof.Machine

/-! ## Lane instructions: the result of each thread, and everything else of the group as `LaneDone` says -/

/-- R108, R109, R110. Every integer form, whenever it issues, completes with the value the rules give: the exact result
reduced or clamped, sum and carry, difference and borrow, quotient and remainder. -/
def Obligations.IntegerArithmetic : Prop :=
  ∀ (s : State) (w : View) (m : Mask),
    (∀ x, Issues (.iadd x) s w m → Does (.iadd x) s w m x.ty.sfill fun k =>
        .bits (satWrap x.ty x.sat (w.int x.ty x.a k + w.int x.ty x.b k)))
    ∧ (∀ x, Issues (.isub x) s w m → Does (.isub x) s w m x.ty.sfill fun k =>
        .bits (satWrap x.ty x.sat (w.int x.ty x.a k - w.int x.ty x.b k)))
    ∧ (∀ x, Issues (.imul x) s w m → Does (.imul x) s w m x.ty.sfill fun k =>
        .bits (satWrap x.ty x.sat (w.int x.ty x.a k * w.int x.ty x.b k)))
    ∧ (∀ x, Issues (.imad x) s w m → Does (.imad x) s w m x.ty.sfill fun k =>
        .bits (satWrap x.ty x.sat (w.int x.ty x.a k * w.int x.ty x.b k + w.int x.ty x.c k)))
    ∧ (∀ x, Issues (.imulh x) s w m → Does (.imulh x) s w m x.ty.sfill fun k =>
        .bits (wrap x.ty.width (w.int x.ty x.a k * w.int x.ty x.b k / 2 ^ x.ty.width)))
    ∧ (∀ x, Issues (.imadw x) s w m →
        (x.ty = .i32 → Does (.imadw x) s w m false fun k =>
          .bits (satWrap .i64 x.sat (w.int .i32 x.a k * w.int .i32 x.b k + w.int .i64 x.c k)))
        ∧ (x.ty = .n32 → Does (.imadw x) s w m false fun k =>
          .bits (satWrap .n64 x.sat (w.int .n32 x.a k * w.int .n32 x.b k + w.int .n64 x.c k))))
    ∧ (∀ x, Issues (.imin x) s w m → Does (.imin x) s w m x.ty.sfill fun k =>
        .bits (wrap x.ty.width (min (w.int x.ty x.a k) (w.int x.ty x.b k))))
    ∧ (∀ x, Issues (.imax x) s w m → Does (.imax x) s w m x.ty.sfill fun k =>
        .bits (wrap x.ty.width (max (w.int x.ty x.a k) (w.int x.ty x.b k))))
    ∧ (∀ x, Issues (.iabs x) s w m → Does (.iabs x) s w m x.ty.sfill fun k =>
        .bits (satWrap x.ty x.sat |w.int x.ty x.a k|))
    ∧ (∀ x, Issues (.ineg x) s w m → Does (.ineg x) s w m x.ty.sfill fun k =>
        .bits (satWrap x.ty x.sat (-w.int x.ty x.a k)))
    ∧ (∀ x, Issues (.iaddc x) s w m → DoesSome (.iaddc x) s w m false fun k o =>
        let sum := w.rd x.ty x.a k + w.rd x.ty x.b k + w.carry x.ci k
        o.d = sum % 2 ^ x.ty.width ∧ (o.p = true ↔ 2 ^ x.ty.width ≤ sum))
    ∧ (∀ x, Issues (.isubb x) s w m → DoesSome (.isubb x) s w m false fun k o =>
        let diff : Int := (w.rd x.ty x.a k : Int) - w.rd x.ty x.b k - w.carry x.ci k
        (o.d : Int) = diff % 2 ^ x.ty.width ∧ (o.p = true ↔ diff < 0))
    ∧ (∀ x, Issues (.idiv x) s w m → DoesSome (.idiv x) s w m x.ty.sfill fun k o =>
        let a := w.int x.ty x.a k
        let b := w.int x.ty x.b k
        (b = 0 → o.d = 2 ^ x.ty.width - 1)
        ∧ (b = -1 → x.ty.signed = true → a = intMin x.ty → intOf x.ty o.d = if x.sat then intMax x.ty else intMin x.ty)
        ∧ (b ≠ 0 → ¬(x.ty.signed = true ∧ a = intMin x.ty ∧ b = -1) → intOf x.ty o.d = Int.tdiv a b))
    ∧ (∀ x, Issues (.irem x) s w m → DoesSome (.irem x) s w m x.ty.sfill fun k o =>
        let a := w.int x.ty x.a k
        let b := w.int x.ty x.b k
        (b = 0 → intOf x.ty o.d = a) ∧ (b ≠ 0 → intOf x.ty o.d = a - Int.tdiv a b * b))

/-- R111, R112, R113. Every logical, shift, count and field form, bit by bit. -/
def Obligations.BitForms : Prop :=
  ∀ (s : State) (w : View) (m : Mask),
    (∀ x, Issues (.and x) s w m → DoesSome (.and x) s w m false fun k =>
        BitsAre x.ty.width fun i => (w.rd x.ty x.a k).testBit i && (w.rd x.ty x.b k).testBit i)
    ∧ (∀ x, Issues (.or x) s w m → DoesSome (.or x) s w m false fun k =>
        BitsAre x.ty.width fun i => (w.rd x.ty x.a k).testBit i || (w.rd x.ty x.b k).testBit i)
    ∧ (∀ x, Issues (.xor x) s w m → DoesSome (.xor x) s w m false fun k =>
        BitsAre x.ty.width fun i => (w.rd x.ty x.a k).testBit i ^^ (w.rd x.ty x.b k).testBit i)
    ∧ (∀ x, Issues (.andn x) s w m → DoesSome (.andn x) s w m false fun k =>
        BitsAre x.ty.width fun i => (w.rd x.ty x.a k).testBit i && !(w.rd x.ty x.b k).testBit i)
    ∧ (∀ x, Issues (.not x) s w m → DoesSome (.not x) s w m false fun k =>
        BitsAre x.ty.width fun i => !(w.rd x.ty x.a k).testBit i)
    ∧ (∀ x, Issues (.shl x) s w m → DoesSome (.shl x) s w m false fun k =>
        BitsAre x.ty.width fun i => decide (w.n32 x.b k ≤ i) && (w.rd x.ty x.a k).testBit (i - w.n32 x.b k))
    ∧ (∀ x, Issues (.shr x) s w m → DoesSome (.shr x) s w m false fun k =>
        BitsAre x.ty.width fun i => decide (i + w.n32 x.b k < x.ty.width) && (w.rd x.ty x.a k).testBit (i + w.n32 x.b k))
    ∧ (∀ x, Issues (.sar x) s w m → DoesSome (.sar x) s w m false fun k =>
        BitsAre x.ty.width fun i => (w.rd x.ty x.a k).testBit (min (i + w.n32 x.b k) (x.ty.width - 1)))
    ∧ (∀ x, Issues (.rot x) s w m → DoesSome (.rot x) s w m false fun k =>
        BitsAre x.ty.width fun i =>
          (w.rd x.ty x.a k).testBit ((i + (x.ty.width - w.n32 x.b k % x.ty.width)) % x.ty.width))
    ∧ (∀ x, Issues (.fshl x) s w m → DoesSome (.fshl x) s w m false fun k =>
        BitsAre x.ty.width fun i =>
          if i < w.n32 x.c k % x.ty.width then (w.rd x.ty x.b k).testBit (i + x.ty.width - w.n32 x.c k % x.ty.width)
          else (w.rd x.ty x.a k).testBit (i - w.n32 x.c k % x.ty.width))
    ∧ (∀ x, Issues (.brev x) s w m → DoesSome (.brev x) s w m false fun k =>
        BitsAre x.ty.width fun i => (w.rd x.ty x.a k).testBit (x.ty.width - 1 - i))
    ∧ (∀ x, Issues (.popc x) s w m → DoesSome (.popc x) s w m false fun k o =>
        o.d = ((Finset.range x.ty.width).filter fun i => (w.rd x.ty x.a k).testBit i).card)
    ∧ (∀ x, Issues (.clz x) s w m → DoesSome (.clz x) s w m false fun k o =>
        (w.rd x.ty x.a k = 0 → o.d = x.ty.width)
        ∧ (w.rd x.ty x.a k ≠ 0 → o.d < x.ty.width ∧ (w.rd x.ty x.a k).testBit (x.ty.width - 1 - o.d) = true
            ∧ ∀ i, x.ty.width - 1 - o.d < i → (w.rd x.ty x.a k).testBit i = false))
    ∧ (∀ x, Issues (.ctz x) s w m → DoesSome (.ctz x) s w m false fun k o =>
        (w.rd x.ty x.a k = 0 → o.d = x.ty.width)
        ∧ (w.rd x.ty x.a k ≠ 0 → (w.rd x.ty x.a k).testBit o.d = true
            ∧ ∀ i, i < o.d → (w.rd x.ty x.a k).testBit i = false))
    ∧ (∀ x, Issues (.bfx x) s w m → DoesSome (.bfx x) s w m x.ty.sfill fun k =>
        let pos := w.n32 x.b k % 2 ^ 8
        let len := min (w.n32 x.b k / 2 ^ 8 % 2 ^ 8) x.ty.width
        let e := fun j => if j < x.ty.width then (w.rd x.ty x.a k).testBit j
          else x.ty.signed && (w.rd x.ty x.a k).testBit (x.ty.width - 1)
        BitsAre x.ty.width fun i =>
          if i < len then e (pos + i) else decide (0 < len) && x.ty.signed && e (pos + len - 1))
    ∧ (∀ x, Issues (.bfi x) s w m → DoesSome (.bfi x) s w m false fun k =>
        let pos := w.n32 x.c k % 2 ^ 8
        let len := w.n32 x.c k / 2 ^ 8 % 2 ^ 8
        BitsAre x.ty.width fun i =>
          if pos ≤ i ∧ i < pos + len then (w.rd x.ty x.a k).testBit (i - pos) else (w.rd x.ty x.b k).testBit i)

/-- R115, R116, R117, R119. Moves, compares, selects and address forms. That an h register takes the value of the highest
active thread is the model's choice (log 8). -/
def Obligations.MovesAndSelects : Prop :=
  ∀ (s : State) (w : View) (m : Mask),
    (∀ x, Issues (.mov x) s w m → Does (.mov x) s w m false fun k => .bits (w.rd x.ty x.a k))
    ∧ (∀ x n nwb, x.d = .v n nwb → Issues (.movi x) s w m → Does (.movi x) s w m false fun _ => .bits x.imm.toNat)
    ∧ (∀ x n, x.d = .s n → Issues (.movi x) s w m → ∃ t, exec (.movi x) s = .next t
        ∧ Leaves w.s w.u t ((w.g.setS n.toNat (match x.mode with
            | .zx => x.imm.setWidth 64
            | .sx => x.imm.signExtend 64
            | .hi => x.imm ++ (w.g.sreg n.toNat).extractLsb' 0 32)).advance w.sel))
    ∧ (∀ x, Issues (.movs x) s w m → Does (.movs x) s w m false fun k => .bits (w.rd x.ty x.a k))
    ∧ (∀ x, Issues (.movv x) s w m → ∃ t, exec (.movv x) s = .next t
        ∧ LaneDone (.movv x) w (maskOf fun k => inMask m k && k == w.n32 x.b (lowest m) % 32) false
            (fun k => .bits (w.rd x.ty x.a k)) t)
    ∧ (∀ x, Issues (.isetp x) s w m → Does (.isetp x) s w m false fun k =>
        .pred (x.bop.run (cmpI x.cmp (w.int x.ty x.a k) (w.int x.ty x.b k)) ((w.g.thread k).pred x.pc ^^ x.negc)))
    ∧ (∀ x, Issues (.isel x) s w m → Does (.isel x) s w m false fun k =>
        .bits (if (w.g.thread k).pred x.pc ^^ x.negc then w.rd x.ty x.a k else w.rd x.ty x.b k))
    ∧ (∀ x, Issues (.lea x) s w m → DoesSome (.lea x) s w m false fun k o =>
        (o.d : Int) = (w.n64 x.a k + w.int x.ty x.b k * 2 ^ x.sh.toNat + w.int .i32 x.c k) % 2 ^ 64)
    ∧ (∀ x, Issues (.leax x) s w m → DoesSome (.leax x) s w m false fun k o =>
        match x.mode with
        | .add c sh => (o.d : Int) = (w.n128 x.a k + w.int x.ty x.b k * 2 ^ sh.toNat + w.int .i32 c k) % 2 ^ 72
        | .join => o.d = w.n64 x.a k + 2 ^ 64 * (w.n32 x.b k % 2 ^ 8)
        | .win => o.d = w.n64 x.a k % 2 ^ 56 + 2 ^ 56 * (w.n32 x.b k % 2 ^ 8) + 2 ^ 64 * 0xFF)

/-- R114, R115, R121, R122, R124 to R127. The floating forms. A result and its exceptions are those of the exact value, rounded once; a comparison,
a choice and a class are those of the values that the operands' bits are in their format. -/
def Obligations.FloatForms : Prop :=
  ∀ (s : State) (w : View) (m : Mask),
    let env := fun (rm : RM) (sat : Bool) => FEnv.mk w.cx.ftz rm sat
    let val := fun (t : Ty) (b : Nat) => decodeF t w.cx.ftz b
    let sum := fun (t : Ty) (v : FEnv) (a b : Nat) (o : LaneOut) => NanFirst t [a, b] o (SumOf t v (val t a) (val t b) o)
    let diff := fun (t : Ty) (v : FEnv) (a b : Nat) (o : LaneOut) => NanFirst t [a, b] o (SumOf t v (val t a) (val t b).negate o)
    let prod := fun (t : Ty) (v : FEnv) (a b : Nat) (o : LaneOut) => NanFirst t [a, b] o (ProductOf t v (val t a) (val t b) o)
    let fused := fun (t : Ty) (v : FEnv) (a b c : Nat) (o : LaneOut) =>
      NanFirst t [a, b, c] o (FusedOf t v (val t a) (val t b) (val t c) o)
    let two := fun (i : Instr) (x : FBin) (f : Ty → FEnv → Nat → Nat → LaneOut → Prop) => Issues i s w m →
      Rounds i s w m false fun k => f x.ty (env x.rm x.sat) (w.rd x.ty x.a k) (w.rd x.ty x.b k)
    let three := fun (i : Instr) (x : FTer) => Issues i s w m →
      Rounds i s w m false fun k => fused x.ty (env x.rm x.sat) (w.rd x.ty x.a k) (w.rd x.ty x.b k) (w.rd x.ty x.c k)
    let choose := fun (i : Instr) (x : FMinMax) (big : Bool) => Issues i s w m →
      Rounds i s w m false fun k => ChosenOf x.ty w.cx.ftz x.nanp big (w.rd x.ty x.a k) (w.rd x.ty x.b k)
    let compare := fun (i : Instr) (x : Setp) => Issues i s w m → Rounds i s w m false fun k o =>
      let a := w.rd x.ty x.a k
      let b := w.rd x.ty x.b k
      let un := isNaNF x.ty a || isNaNF x.ty b
      (∃ c : Bool, (c = true ↔ CmpHolds x.cmp un (val x.ty a) (val x.ty b)) ∧ o.p = x.bop.run c ((w.g.thread k).pred x.pc ^^ x.negc))
      ∧ o.fl = if (x.cmp ≠ .f ∧ x.cmp ≠ .t ∧ (isSNaNF x.ty a || isSNaNF x.ty b) = true)
          ∨ (x.cmp ∈ [Cmp.lt, .le, .gt, .ge, .ltu, .leu, .gtu, .geu] ∧ un = true) then flagNV else 0
    (∀ x, two (.fadd x) x sum) ∧ (∀ x, two (.fsub x) x diff) ∧ (∀ x, two (.fmul x) x prod)
    ∧ (∀ x, two (.dadd x) x sum) ∧ (∀ x, two (.dmul x) x prod)
    ∧ (∀ x, three (.ffma x) x) ∧ (∀ x, three (.dfma x) x)
    ∧ (∀ x, choose (.fmin x) x false) ∧ (∀ x, choose (.fmax x) x true)
    ∧ (∀ x, choose (.dmin x) x false) ∧ (∀ x, choose (.dmax x) x true)
    ∧ (∀ x, compare (.fsetp x) x) ∧ (∀ x, compare (.dsetp x) x)
    ∧ (∀ x, Issues (.fclass x) s w m → Rounds (.fclass x) s w m false fun k o =>
        o.d = 2 ^ classOf x.ty w.cx.ftz (w.rd x.ty x.a k) ∧ o.fl = 0)
    ∧ (∀ x, Issues (.fscale x) s w m → Rounds (.fscale x) s w m false fun k o =>
        let a := w.rd x.ty x.a k
        NanFirst x.ty [a] o (if (val x.ty a).isInf then o.d = infF x.ty (val x.ty a).sign ∧ o.fl = 0
          else RoundOnce x.ty (env x.rm x.sat) (val x.ty a).sign ((val x.ty a).num * 2 ^ w.int .i32 x.b k) o))
    ∧ (∀ x, Issues (.frnd x) s w m → Rounds (.frnd x) s w m false fun k o =>
        let a := w.rd x.ty x.a k
        let r : ℚ := |(val x.ty a).num|
        NanFirst x.ty [a] o (if (val x.ty a).isInf then o.d = infF x.ty (val x.ty a).sign ∧ o.fl = 0
          else ∃ n : Nat, IntegerOf x.rm (val x.ty a).sign r n ∧ o.d = encodeF x.ty (.fin (val x.ty a).sign n 0)
            ∧ o.fl = if x.x = true ∧ (n : ℚ) ≠ r then flagNX else 0))

/-- R121, R123, R124. The packed forms: their two elements are computed apart, as the scalar forms compute them, and raise the exceptions of
both. -/
def Obligations.PackedForms : Prop :=
  ∀ (s : State) (w : View) (m : Mask),
    let env := fun (rm : RM) (sat : Bool) => FEnv.mk w.cx.ftz rm sat
    let val := fun (t : Ty) (b : Nat) => decodeF t w.cx.ftz b
    let sum := fun (t : Ty) (v : FEnv) (a b : Nat) (o : LaneOut) => NanFirst t [a, b] o (SumOf t v (val t a) (val t b) o)
    let prod := fun (t : Ty) (v : FEnv) (a b : Nat) (o : LaneOut) => NanFirst t [a, b] o (ProductOf t v (val t a) (val t b) o)
    let fused := fun (t : Ty) (v : FEnv) (a b c : Nat) (o : LaneOut) =>
      NanFirst t [a, b, c] o (FusedOf t v (val t a) (val t b) (val t c) o)
    let elem := fun (t : Ty) (x : Src) (k : Nat) (hi : Bool) =>
      match x with
      | .imm n => immBits t n
      | _ => w.rd .b32 x k / 2 ^ (if hi then 16 else 0) % 2 ^ 16
    let both := fun (f : Bool → LaneOut → Prop) (o : LaneOut) =>
      ∃ lo hi, f false lo ∧ f true hi ∧ o.d = lo.d + 2 ^ 16 * hi.d ∧ o.fl = lo.fl ||| hi.fl
    (∀ x, Issues (.hadd2 x) s w m → Rounds (.hadd2 x) s w m false fun k =>
        both fun hi => sum x.ty (env x.rm x.sat) (elem x.ty x.a k hi) (elem x.ty x.b k hi))
    ∧ (∀ x, Issues (.hmul2 x) s w m → Rounds (.hmul2 x) s w m false fun k =>
        both fun hi => prod x.ty (env x.rm x.sat) (elem x.ty x.a k hi) (elem x.ty x.b k hi))
    ∧ (∀ x, Issues (.hfma2 x) s w m → Rounds (.hfma2 x) s w m false fun k =>
        both fun hi => fused x.ty (env x.rm x.sat) (elem x.ty x.a k hi) (elem x.ty x.b k hi) (elem x.ty x.c k hi))
    ∧ (∀ x, Issues (.hmin2 x) s w m → Rounds (.hmin2 x) s w m false fun k =>
        both fun hi => ChosenOf x.ty w.cx.ftz x.nanp false (elem x.ty x.a k hi) (elem x.ty x.b k hi))
    ∧ (∀ x, Issues (.hmax2 x) s w m → Rounds (.hmax2 x) s w m false fun k =>
        both fun hi => ChosenOf x.ty w.cx.ftz x.nanp true (elem x.ty x.a k hi) (elem x.ty x.b k hi))

/-- R72 to R74, R81 to R93, R128, R130, R131. Conversions, special functions and the random generator, with their exceptions. The model's
own choices among them: what R130 leaves to the bounds of R129 is free within them (log 9), PACKN takes a small immediate as its third source (log 73), and a uniform CVTSR
has the value and exceptions of the lowest thread's draw (log 80). -/
def Obligations.ConversionForms : Prop :=
  ∀ (s : State) (w : View) (m : Mask),
    let special := fun (i : Instr) (op : Nat) (x : SpecUn) => Issues i s w m →
      Rounds i s w m false fun k => SpecialOf op w.cx.ftz (w.rd .f32 x.a k)
    let draw := fun (k j : Nat) =>
      ((mix64 (mix64 (w.cx.rseed ^^^ w.gltid k) + ((w.g.thread k).rctr + BitVec.ofNat 64 j) * 0x9E3779B97F4A7C15#64)) >>> 32).toNat
    (∀ x, special (.rcp x) 0 x) ∧ (∀ x, special (.rsq x) 1 x) ∧ (∀ x, special (.sqrt x) 2 x) ∧ (∀ x, special (.ex2 x) 3 x)
    ∧ (∀ x, special (.lg2 x) 4 x) ∧ (∀ x, special (.sinpi x) 5 x) ∧ (∀ x, special (.cospi x) 6 x) ∧ (∀ x, special (.tanh x) 7 x)
    ∧ (∀ x, Issues (.cvtff x) s w m → Rounds (.cvtff x) s w m false fun k =>
        Converted x.dt x.st (.fixed x.rm) x.sat w.cx.ftz (w.rd x.st x.a k))
    ∧ (∀ x, Issues (.cvtfi x) s w m → Rounds (.cvtfi x) s w m x.dt.sfill fun k o =>
        let a := w.rd x.st x.a k
        let v := decodeF x.st w.cx.ftz a
        let bits := fun i : Int => narrowInt x.dt (wrap x.dt.width i)
        if isNaNF x.st a then o.d = 0 ∧ o.fl = flagNV
        else if v.isInf then o.d = bits (if v.sign then intMin x.dt else intMax x.dt) ∧ o.fl = flagNV
        else ∃ n : Nat, IntegerOf x.rm v.sign |v.num| n ∧
          let i : Int := if v.sign then -n else n
          if i < intMin x.dt then o.d = bits (intMin x.dt) ∧ o.fl = flagNV
          else if intMax x.dt < i then o.d = bits (intMax x.dt) ∧ o.fl = flagNV
          else o.d = bits i ∧ o.fl = if (i : ℚ) ≠ v.num then flagNX else 0)
    ∧ (∀ x, Issues (.cvtif x) s w m → Rounds (.cvtif x) s w m false fun k =>
        RoundOnce x.dt ⟨false, x.rm, x.sat⟩ false (w.int x.st x.a k))
    ∧ (∀ x, Issues (.packn x) s w m → Rounds (.packn x) s w m false fun k o =>
        let c := x.dt.container
        let cvt := fun (a : Nat) (p : LaneOut) =>
          if x.dt.isFloat then Converted x.dt .f32 (.fixed x.rm) x.sat w.cx.ftz a p
          else
            let i : Int := if x.sat then clampI (intOf x.st a) (intMin x.dt) (intMax x.dt) else a
            (p.d : Int) = i % 2 ^ c ∧ p.fl = 0
        ∃ p q, cvt (w.rd x.st x.a k) p ∧ cvt (w.rd x.st x.b k) q ∧ o.fl = p.fl ||| q.fl
          ∧ o.d < 2 ^ 32 ∧ ∀ j, j < 32 / c → o.d / 2 ^ (c * j) % 2 ^ c =
            if j = 2 * x.p.toNat then p.d else if j = 2 * x.p.toNat + 1 then q.d else w.rd .b32 x.c k / 2 ^ (c * j) % 2 ^ c)
    ∧ (∀ x, Issues (.unpackn x) s w m → Rounds (.unpackn x) s w m x.dt.sfill fun k o =>
        (o.d, o.fl) = unpackElem x.dt x.st ((match x.a with
          | .imm n => immBits x.st n
          | _ => w.rd .b32 x.a k) / 2 ^ (x.i.toNat * x.st.container) % 2 ^ x.st.container))
    ∧ (∀ x, Issues (.scaleb x) s w m → Rounds (.scaleb x) s w m false fun k o =>
        let a := w.rd x.dt x.a k
        let e : Nat := w.rd .b32 x.b k / 2 ^ (8 * x.j.toNat) % 2 ^ 8
        let v := decodeF x.dt w.cx.ftz a
        NanFirst x.dt [a] o (if e = 255 then o.d = qnanF x.dt ∧ o.fl = 0
          else if v.isInf then o.d = infF x.dt v.sign ∧ o.fl = 0
          else RoundOnce x.dt ⟨w.cx.ftz, x.rm, x.sat⟩ v.sign (v.num * 2 ^ ((e : Int) - 127)) o))
    ∧ (∀ x, Issues (.rand x) s w m →
        (x.ty = .b32 → Does (.rand x) s w m false fun k => ⟨draw k 0, false, 0, 1⟩)
        ∧ (x.ty = .f32 → DoesSome (.rand x) s w m false fun k o => o.draws = 1 ∧ RoundOnce .f32 ⟨false, .rne, false⟩ false
            ((draw k 0 / 2 ^ 8 : Nat) / 2 ^ 24) o)
        ∧ (x.ty = .b64 → Does (.rand x) s w m false fun k => ⟨draw k 0 + 2 ^ 32 * draw k 1, false, 0, 2⟩))
    ∧ (∀ x, Issues (.cvtsr x) s w m → Rounds (.cvtsr x) s w m false fun k o => o.draws = 1
        ∧ Converted x.dt x.st (.sr (draw k 0)) x.sat w.cx.ftz (w.rd x.st x.a k) o)

/-- R156, R158 to R162. Sections and the forms that read across threads. P is the ascending list of a thread's participants:
the threads of the execution mask in its section. REDUX and SCAN go through P in that order: `runs` says that the values x(0), x(1), …
are the partial results that R161 defines, each with its exceptions. -/
def Obligations.CrossThreadForms : Prop :=
  ∀ (s : State) (w : View) (m : Mask),
    let sec := 2 ^ w.g.part.toNat
    let P := fun k => (List.range 32).filter fun j => inMask m j && j / sec == k / sec
    let val := fun b : Nat => decodeF .f32 false b
    let combines := fun (op : RedOp) (ty : Ty) (a b : Nat) (o : LaneOut) =>
      if ty = .f32 then
        match op with
        | .min => ChosenOf .f32 false false false a b o
        | .max => ChosenOf .f32 false false true a b o
        | _ => NanFirst .f32 [a, b] o (SumOf .f32 ⟨false, .rne, false⟩ (val a) (val b) o)
      else o.fl = 0 ∧ match op with
        | .add => o.d = (a + b) % 2 ^ ty.width
        | .min => (o.d = a ∨ o.d = b) ∧ intOf ty o.d = min (intOf ty a) (intOf ty b)
        | .max => (o.d = a ∨ o.d = b) ∧ intOf ty o.d = max (intOf ty a) (intOf ty b)
        | .and => ∀ i, o.d.testBit i = (a.testBit i && b.testBit i)
        | .or => ∀ i, o.d.testBit i = (a.testBit i || b.testBit i)
        | .xor => ∀ i, o.d.testBit i = (a.testBit i ^^ b.testBit i)
    let runs := fun (op : RedOp) (ty : Ty) (a : Src) (k : Nat) (x : Nat → LaneOut) =>
      (x 0).d = w.rd ty a ((P k).getD 0 0) ∧ (x 0).fl = 0
      ∧ ∀ i, i + 1 < (P k).length → combines op ty (x i).d (w.rd ty a ((P k).getD (i + 1) 0)) (x (i + 1))
    let raised := fun (k : Nat) (x : Nat → LaneOut) => (List.range (P k).length).foldl (fun fl i => fl ||| (x i).fl) 0
    (∀ x, Issues (.part x) s w m → ∃ t, exec (.part x) s = .next t
        ∧ Leaves w.s w.u t ({ w.g with part := x.log2s }.advance w.sel))
    ∧ (∀ x, Issues (.vote x) s w m → DoesSome (.vote x) s w m false fun k o =>
        let q := fun j => (w.g.thread j).pred x.pa ^^ x.nega
        match x.mode with
        | .all => (o.p = true ↔ ∀ j ∈ P k, q j = true)
        | .any => (o.p = true ↔ ∃ j ∈ P k, q j = true)
        | .uni => (o.p = true ↔ ∀ i ∈ P k, ∀ j ∈ P k, q i = q j)
        | .ballot => BitsAre 32 (fun j => (P k).contains j && q j) o)
    ∧ (∀ x, Issues (.shfl x) s w m → DoesSome (.shfl x) s w m false fun k o =>
        let n := w.n32 x.b k
        let j : Int := match x.mode with
          | .idx => (k / sec * sec + n % sec : Nat)
          | .up => (k : Int) - n
          | .down => k + n
          | .xor => (k ^^^ (n % sec) : Nat)
        if k / sec * sec ≤ j ∧ j < k / sec * sec + sec ∧ inMask m j.toNat = true then o.d = w.rd x.ty x.a j.toNat ∧ o.p = true
        else o.d = w.rd x.ty x.a k ∧ o.p = false)
    ∧ (∀ x, Issues (.redux x) s w m → Rounds (.redux x) s w m x.ty.sfill fun k o => inMask m k = true →
        ∃ r, runs x.op x.ty x.a k r ∧ o.d = (r ((P k).length - 1)).d ∧ o.fl = raised k r)
    ∧ (∀ x, Issues (.scan x) s w m → Rounds (.scan x) s w m x.ty.sfill fun k o => inMask m k = true →
        ∃ r, runs x.op x.ty x.a k r ∧ o.fl = raised k r
          ∧ (x.excl = false → o.d = (r ((P k).idxOf k)).d)
          ∧ (x.excl = true → (P k).idxOf k ≠ 0 → o.d = (r ((P k).idxOf k - 1)).d)
          ∧ (x.excl = true → (P k).idxOf k = 0 → match x.op with
            | .min => if x.ty = .f32 then o.d = 0x7F800000 else intOf x.ty o.d = intMax x.ty
            | .max => if x.ty = .f32 then o.d = 0xFF800000 else intOf x.ty o.d = intMin x.ty
            | .and => o.d = 2 ^ x.ty.width - 1
            | _ => o.d = 0))
    ∧ (∀ x, Issues (.match_ x) s w m → DoesSome (.match_ x) s w m false fun k =>
        BitsAre 32 fun j => (P k).contains j && (w.rd x.ty x.a j == w.rd x.ty x.a k))
    ∧ (∀ x, Issues (.elect x) s w m → DoesSome (.elect x) s w m false fun k o =>
        o.p = true ↔ k ∈ P k ∧ ∀ j ∈ P k, k ≤ j)
    ∧ (∀ x, Issues (.bcast x) s w m → DoesSome (.bcast x) s w m false fun k o =>
        ∀ j, j ∈ P k → (∀ i ∈ P k, j ≤ i) → o.d = w.rd x.ty x.a j)

/-! ## Control -/

/-- R145, R147. Branches whose active threads all have good targets: each moves there and, for a call, keeps its link; a selected
thread whose guard fails moves on. The check of an indirect target installs the translations that it walks, when no line of the walk has
a held request before it (R400). LAND and NOP only
move on. -/
def Obligations.Branches : Prop :=
  ∀ (s : State) (w : View) (m : Mask),
    let away := fun (T : Nat → Int) (f : Nat → Thread → Thread) => w.g.mapThreads fun k th =>
      if inMask m k then { f k th with pc := w.tm.codeBase + BitVec.ofNat 72 (T k).toNat }
      else if inMask w.sel k then { th with pc := th.pc + 12 } else th
    let inText := fun (T : Int) => 0 ≤ T ∧ T < w.tm.textSize ∧ T % 12 = 0
    let link := fun (n : BitVec 8) (th : Thread) => th.setV n.toNat (BitVec.ofInt 32 (w.pcOffset + 12))
    let looked := fun (T : Nat → Int) => w.installQuiet .fetch (w.targetBytes m T)
    let free := fun (T : Nat → Int) => w.walkBehind .fetch (w.targetBytes m T) = false
    let word := fun (s1 : State) (T : Int) => View.fetchQuiet { w with s := s1 } (w.tm.codeBase + BitVec.ofNat 72 T.toNat)
    (∀ x, Issues (.bra x) s w m → inText (w.pcOffset + 12 * x.imm.toInt) → ∃ t, exec (.bra x) s = .next t
        ∧ Leaves w.s w.u t (away (fun _ => w.pcOffset + 12 * x.imm.toInt) fun _ th => th))
    ∧ (∀ x, Issues (.call x) s w m → inText (w.pcOffset + 12 * x.imm.toInt) → ∃ t, exec (.call x) s = .next t
        ∧ Leaves w.s w.u t (away (fun _ => w.pcOffset + 12 * x.imm.toInt) fun _ => link x.d))
    ∧ (∀ x, Issues (.brx x) s w m → (free fun k => w.n32 x.a k) →
        let s1 := looked fun k => w.n32 x.a k
        (∀ k, inMask m k = true → inText (w.n32 x.a k) ∧ ∃ b, word s1 (w.n32 x.a k) = some b ∧ opcOf b = 0x105) →
        ∃ t, exec (.brx x) s = .next t ∧ Leaves s1 w.u t
          ({ away (fun k => w.n32 x.a k) (fun _ => releaseV (Instr.brx x).uses.srcs) with
               s := (releaseS (Instr.brx x).uses.srcs w.g).s }))
    ∧ (∀ x, Issues (.callx x) s w m → (free fun k => w.n32 x.a k) →
        let s1 := looked fun k => w.n32 x.a k
        (∀ k, inMask m k = true → inText (w.n32 x.a k) ∧ ∃ b, word s1 (w.n32 x.a k) = some b ∧ opcOf b = 0x105) →
        ∃ t, exec (.callx x) s = .next t ∧ Leaves s1 w.u t
          ({ away (fun k => w.n32 x.a k) (fun _ th => link x.d (releaseV (Instr.callx x).uses.srcs th)) with
               s := (releaseS (Instr.callx x).uses.srcs w.g).s }))
    ∧ (∀ x, Issues (.ret x) s w m → (free fun k => w.n32 x.a k) →
        let s1 := looked fun k => w.n32 x.a k
        (∀ k, inMask m k = true → inText (w.n32 x.a k) ∧ ∃ b, word s1 (w.n32 x.a k) = some b) →
        ∃ t, exec (.ret x) s = .next t ∧ Leaves s1 w.u t
          ({ away (fun k => w.n32 x.a k) (fun _ => releaseV (Instr.ret x).uses.srcs) with
               s := (releaseS (Instr.ret x).uses.srcs w.g).s }))
    ∧ (∀ x, Issues (.land x) s w m → ∃ t, exec (.land x) s = .next t ∧ Leaves w.s w.u t (w.g.advance w.sel))
    ∧ (∀ x, Issues (.nop x) s w m → ∃ t, exec (.nop x) s = .next t ∧ Leaves w.s w.u t (w.g.advance w.sel))

/-- R148 to R151. EXIT, YIELD, PAUSE and SLEEP. R150, R151, R334. HOLD_EXPIRY and SLEEP_EXPIRY: a count that has run out makes the
thread run, in handler mode the status of its frame; before that nothing changes. -/
def Obligations.ThreadStatus : Prop :=
  (∀ (s : State) (w : View) (m : Mask),
     let cycles := w.s.schedOf w.g
     (∀ x, Issues (.exit x) s w m → ∃ t, exec (.exit x) s = .next t
         ∧ Leaves w.s w.u t (w.g.mapThreads fun k th =>
             if inMask m k then { th with stat := .exited, pausing := false }
             else if inMask w.sel k then { th with pc := th.pc + 12 } else th).releaseAllCb)
     ∧ (∀ x, Issues (.yield x) s w m → w.g.slot.isSome = true → ∃ t, exec (.yield x) s = .next t
         ∧ Leaves w.s w.u t (w.g.advance w.sel) ∧ ∃ g', look t.groups w.u = some g' ∧ g'.slot = none)
     ∧ (∀ x, Issues (.yield x) s w m → w.g.slot = none → ∃ t, exec (.yield x) s = .next t
         ∧ Leaves w.s w.u t (w.g.advance w.sel))
     ∧ (∀ x, Issues (.pause x) s w m → ∃ t, exec (.pause x) s = .next t
         ∧ Leaves w.s w.u t (({ w.g with pts := max (w.g.pts + 1) (w.lh + 1) }.mapThreads fun k th =>
             if inMask m k then { th with stat := .hold (cycles + 64), pausing := true } else th).advance w.sel))
     ∧ (∀ x, Issues (.sleep x) s w m → ∃ t, exec (.sleep x) s = .next t
         ∧ Leaves w.s w.u t ((releaseS (Instr.sleep x).uses.srcs (w.g.mapThreads fun k th =>
             if inMask m k then
               (if w.n32 x.a k = 0 then releaseV (Instr.sleep x).uses.srcs th
                else { releaseV (Instr.sleep x).uses.srcs th with stat := .sleep (cycles + min (w.n32 x.a k) (2 ^ 20)) })
             else th)).advance w.sel)))
  ∧ (∀ (s : State) (u k : Nat) (g : Group) (tm : Team) (cx : Ctx),
      look s.groups u = some g → look s.teams g.team = some tm → look s.ctxs tm.ctx = some cx → k < g.threads.length →
      let runs := fun t => Leaves s u t (g.mapThreads fun j th => if j = k then { th with stat := .run } else th)
      let frameRuns := fun t => Leaves s u t (g.mapThreads fun j th => if j = k then { th with fstat := .run } else th)
      (∀ due, g.handler = false → (g.thread k).stat = .hold due → due ≤ s.schedOf g →
          ∃ t, exec (.holdExpiry u k) s = .next t ∧ runs t)
      ∧ (∀ due, g.handler = false → (g.thread k).stat = .hold due → s.schedOf g < due →
          ∃ t, exec (.holdExpiry u k) s = .next t ∧ Leaves s u t g)
      ∧ (∀ due, g.handler = false → (g.thread k).stat = .sleep due → due ≤ s.schedOf g →
          ∃ t, exec (.sleepExpiry u k) s = .next t ∧ runs t)
      ∧ (∀ due, g.handler = false → (g.thread k).stat = .sleep due → s.schedOf g < due →
          ∃ t, exec (.sleepExpiry u k) s = .next t ∧ Leaves s u t g)
      ∧ (∀ due, g.handler = true → (g.thread k).stat = .run → (g.thread k).fstat = .sleep due → due ≤ s.schedOf g →
          ∃ t, exec (.sleepExpiry u k) s = .next t ∧ frameRuns t))

/-- R152. The convergence barrier forms, and what Release(N) does outside handler mode: when a thread waits at cbN and every
member waits there or has exited, all that wait go on past their own CBWAIT and the mask empties; else nothing changes. -/
def Obligations.ConvergenceBarriers : Prop :=
  (∀ (s : State) (w : View) (m : Mask),
    (∀ x, Issues (.cbarm x) s w m → ∃ t, exec (.cbarm x) s = .next t
        ∧ Leaves w.s w.u t ((({ w.g with cb := rput 0 w.g.cb x.n.toNat (if x.or then w.g.cbreg x.n.toNat ||| m else m) } : Group).releaseCb
            x.n).advance w.sel))
    ∧ (∀ x, Issues (.cbwait x) s w m → ∃ t, exec (.cbwait x) s = .next t
        ∧ Leaves w.s w.u t ((w.g.mapThreads fun k th =>
            if inMask m k then (if inMask (w.g.cbreg x.n.toNat) k then { th with stat := .cbwait x.n } else { th with pc := th.pc + 12 })
            else if inMask w.sel k then { th with pc := th.pc + 12 } else th).releaseCb x.n)))
  ∧ ∀ (g : Group) (n : BitVec 3), g.handler = false → g.threads.length = 32 →
      let waits := fun k => decide ((g.thread k).stat = .cbwait n)
      let met : Prop := (∃ k, k < 32 ∧ waits k = true)
        ∧ ∀ k, k < 32 → inMask (g.cbreg n.toNat) k = true → waits k = true ∨ (g.thread k).stat = .exited
      (¬met → g.releaseCb n = g)
      ∧ (met → ∀ k, k < 32 → ((g.releaseCb n).thread k
          = if waits k then { g.thread k with stat := .run, pc := (g.thread k).pc + 12 } else g.thread k))
      ∧ (met → ∀ j, (g.releaseCb n).cbreg j = if j = n.toNat then 0 else g.cbreg j)

/-- R153, R154, R155. BAR and BARC: the threads wait, the group arrives once a phase, and what precedes its last BAR of the phase is
released. R153, R154.
BAR_RELEASE and BARC_RELEASE: when every group with a live thread has arrived and met its release waits, the threads that wait
go on past their barrier, the arrived set empties, the phase advances; else nothing changes. -/
def Obligations.Barriers : Prop :=
  (∀ (s : State) (w : View) (m : Mask),
     let first := fun (bars : AList Barrier) (b : Nat) => !(rget {} bars b).arrived.contains w.g.gidx
     let add := fun (bars : AList Barrier) (b : Nat) =>
       put bars b (if first bars b then
           { rget {} bars b with arrived := w.g.gidx :: (rget {} bars b).arrived, clk := max (rget {} bars b).clk w.g.pts }
         else rget {} bars b)
     let waiting := fun (far : Bool) (b : Nat) => w.g.mapThreads fun k th => if inMask m k then { th with stat := .barwait far b } else th
     (∀ x, Issues (.bar x) s w m → ∃ t, exec (.bar x) s = .next t
         ∧ Leaves (w.s.updTeam w.g.team fun tm => { tm with bars := add w.tm.bars x.b.toNat }) w.u t
             ((waiting false x.b.toNat).addRelease .team))
     ∧ (∀ x, Issues (.barc x) s w m → ∃ t, exec (.barc x) s = .next t
         ∧ Leaves (w.s.updTeam w.g.team fun tm =>
               { tm with relc := (if first w.tm.barcs x.b.toNat then (tm.relc + 1) % 2 ^ 32 else tm.relc),
                         barcs := add w.tm.barcs x.b.toNat }) w.u t
             ((waiting true x.b.toNat).addRelease .clu)))
  ∧ (let passes := fun (s t : State) (far : Bool) (b : Nat) (teams : List Nat) =>
      ∀ u g, look s.groups u = some g → g.team ∈ teams → ∃ g', look t.groups u = some g' ∧ ∀ k, k < g.threads.length →
        if (g.thread k).stat = .barwait far b then (g'.thread k).stat = .run ∧ (g'.thread k).pc = (g.thread k).pc + 12
        else (g'.thread k).stat = (g.thread k).stat ∧ (g'.thread k).pc = (g.thread k).pc
    (∀ (s : State) (team b : Nat) (tm : Team), look s.teams team = some tm →
      ((rget {} tm.bars b).arrived ≠ [] → s.teamArrived team tm (rget {} tm.bars b) = true →
        ∃ t, exec (.barRelease team b) s = .next t ∧ passes s t false b [team]
          ∧ look t.teams team = some { tm with bars := put tm.bars b ⟨!(rget {} tm.bars b).phase, [], 0⟩ } ∧ t.mem = s.mem)
      ∧ (s.teamArrived team tm (rget {} tm.bars b) = false → exec (.barRelease team b) s = .next s))
    ∧ (∀ (s : State) (team b : Nat) (tm : Team), look s.teams team = some tm →
      let mates := (s.teams.filter fun x => x.2.cluster == tm.cluster).map (·.1)
      ((rget {} tm.barcs b).arrived ≠ [] →
        (∀ x ∈ s.teams, x.2.cluster = tm.cluster → x.2.run = .retired ∨ s.teamArrived x.1 x.2 (rget {} x.2.barcs b) = true) →
        ∃ t, exec (.barcRelease team b) s = .next t ∧ passes s t true b mates ∧ t.mem = s.mem)
      ∧ (∀ x ∈ s.teams, x.2.cluster = tm.cluster → x.2.run ≠ .retired → s.teamArrived x.1 x.2 (rget {} x.2.barcs b) = false →
        exec (.barcRelease team b) s = .next s)))

/-! ## What ends a wait, and what completes -/

/-- R43, R75, R77 to R79, R142. INSTRUCTION_COMPLETE: an instruction that is done leaves its counter and its exceptions enter
SR.FFLAGS; one that the context logs takes the next slot of the log. SLOT_REFILL: a free slot takes the group that is ready
longest, whose latches read as poison. -/
def Obligations.CompletionAndRefill : Prop :=
  (∀ (s : State) (u k : Nat) (g : Group) (tm : Team) (cx : Ctx) (x : Inflight),
    look s.groups u = some g → look s.teams g.team = some tm → look s.ctxs tm.ctx = some cx →
    g.inflight[k]? = some x → s.doneNow g x.when_ = true →
    (x.logs cx g = false → ∃ t, exec (.instructionComplete u k) s = .next t ∧ Leaves s u t { g with fflags := g.fflags ||| x.flags }
        ∧ ∃ g', look t.groups u = some g' ∧ g'.inflight = g.inflight.take k ++ g.inflight.drop (k + 1)
          ∧ ∀ n, rget 0 g'.sb n = if x.sb = some n then rget 0 g.sb n - 1 else rget 0 g.sb n)
    ∧ (x.logs cx g = true → (g.inflight.take k).any (fun y => y.logs cx g) = false → g.heldLog = none → cx.alogwidx.toNat < cx.alogcap.toNat →
        ∃ t, exec (.instructionComplete u k) s = .next t
          ∧ GroupIs t u { g with fflags := g.fflags ||| x.flags,
                                 logOut := g.logOut ++ [(cx.logVa, LogRec.bytes ⟨x.pc, x.opc, x.flags⟩ g tm)] }
          ∧ look t.ctxs tm.ctx = some { cx with alogwidx := cx.alogwidx + 1 })
    ∧ (x.logs cx g = true → (g.inflight.take k).any (fun y => y.logs cx g) = false → g.heldLog = none → cx.alogcap.toNat ≤ cx.alogwidx.toNat →
        ∃ t, exec (.instructionComplete u k) s = .next t
          ∧ Leaves s u t { g with fflags := g.fflags ||| x.flags, heldLog := some ⟨x.pc, x.opc, x.flags⟩ }))
  ∧ (∀ (s : State) (q slot u : Nat) (g : Group), slot < 8 → (s.groups.all fun x => !(x.2.quad == q && x.2.slot == some slot)) = true →
    s.longestReady q = some u → look s.groups u = some g → g.hasRun = true →
    ∃ t, exec (.slotRefill q slot) s = .next t ∧ Leaves s u t g
      ∧ ∃ g', look t.groups u = some g' ∧ g'.slot = some slot ∧ g'.readyAt = none
        ∧ ∀ k, k < g.threads.length → (g'.thread k).b0 = poison32 ∧ (g'.thread k).b1 = poison32 ∧ (g'.thread k).b2 = poison32
            ∧ (g'.thread k).b3 = poison32)

/-- R203, R212. PTS_WINDOW_TICK: at the end of a window the clock has grown by 1 if the group loaded in it, and the next window to
end is the first that has not. EPOCH_ROLLOVER: with
every store of the zone acknowledged, its timestamps fall by 2^62, its cached copies are gone, its epoch grows by 1. -/
def Obligations.LogicalTimeEvents : Prop :=
  (∀ (s : State) (u : Nat) (g : Group), look s.groups u = some g → g.launched = true →
    (g.winEnd ≤ s.schedOf g → ∃ t, exec (.ptsWindowTick u) s = .next t
        ∧ Leaves s u t { g with
            pts := if g.winLoad then g.pts + 1 else g.pts, winEnd := g.winEnd + 1024 * ((s.schedOf g - g.winEnd) / 1024 + 1)
            winLoad := false })
    ∧ (s.schedOf g < g.winEnd → ∃ t, exec (.ptsWindowTick u) s = .next t ∧ Leaves s u t g))
  ∧ (∀ (s : State) (z : Nat) (zz : Zone), look s.zones z = some zz → s.rollDue z = true →
    ((∀ x ∈ s.groups, s.zoneNum x.2 = z → x.2.sbuf = [] ∧ x.2.fly = []) → ∃ t, exec (.epochRollover z) s = .next t
        ∧ (look t.zones z).map (·.epoch) = some ((zz.epoch + 1) % 2 ^ 32)
        ∧ (look t.zones z).map (·.zclk) = some (zz.zclk - 2 ^ 62)
        ∧ (∀ u g, look s.groups u = some g → ∃ g', look t.groups u = some g'
            ∧ g'.pts = (if s.zoneNum g = z then g.pts - 2 ^ 62 else g.pts)
            ∧ g'.lmax = (if s.zoneNum g = z then g.lmax - 2 ^ 62 else g.lmax)
            ∧ g'.threads = g.threads ∧ g'.s = g.s)
        ∧ (∀ c ∈ t.l1, c.1 / 2 ^ 49 % 65 ≠ z) ∧ (∀ c ∈ t.l2, c.1 / 2 ^ 49 % 65 ≠ z)
        ∧ t.mem = s.mem ∧ t.hostMem = s.hostMem)
    ∧ (∀ x ∈ s.groups, s.zoneNum x.2 = z → x.2.sbuf ≠ [] ∨ x.2.fly ≠ [] → exec (.epochRollover z) s = .next s))

/-- R184, R187, R337. WALK, with no held request before it on a line that it reads (R400): a walk that succeeds installs the leaf and
the instruction is tried again; one that fails parks the group with its record. FAULT_RECORD: the longest parked group whose zone may have an entry of its district's buffer gets the
lowest free one, and PAGEFAULT is raised. -/
def Obligations.WalksAndFaults : Prop :=
  (∀ (s : State) (u : Nat) (g : Group) (tm : Team) (cx : Ctx) (pc va : VA) (acc : Acc) (by_ : List (Mask × VA × VA)),
    look s.groups u = some g → look s.teams g.team = some tm → look s.ctxs tm.ctx = some cx → g.wait = .walk pc va acc by_ →
    s.walkQueued cx va = false →
    (∀ pa leaf, s.walkVa cx va acc = .ok pa leaf → s.markFrames pa leaf ≠ none → ∃ t, exec (.walk u) s = .next t
        ∧ t.tlbLookup tm.core cx.zone tm.ctx va acc cx.priv = some (pa, leaf)
        ∧ (∃ g', look t.groups u = some g' ∧ g'.core = g.core
            ∧ g'.wait = .retry pc (if g.issuedAs = none then .again else .kept)) ∧ t.mem = s.mem)
    ∧ (∀ k lv size, (s.walkVa cx va acc = .fault k lv size
          ∨ ∃ pa leaf, s.walkVa cx va acc = .ok pa leaf ∧ s.markFrames pa leaf = none
              ∧ (k, lv, size) = (permFault, if leaf.k = 30 then 2 else 1, leaf.k)) →
        ∃ t, exec (.walk u) s = .next t ∧ t.fwait = s.fwait ++ [FaultSrc.group u] ∧ t.tlb1 = s.tlb1
        ∧ ∃ g', look t.groups u = some g' ∧ g'.core = g.core
          ∧ g'.wait = .parked pc { va := va, kind := k, acc := acc, level := lv, zone := cx.zone, tmask := pageMask by_ va size
                                   team := g.team, group := u, low := pageLow by_ va size } none))
  ∧ (∀ (s : State) (u : Nat) (g : Group) (tm : Team) (pc : VA) (r : FaultRec) (rest : List FaultSrc) (n : Nat),
    look s.groups u = some g → look s.teams g.team = some tm → g.wait = .parked pc r none → s.fwait = FaultSrc.group u :: rest →
    s.faultRoom tm.district r.zone = true → n < 512 → look s.fbuf (512 * tm.district + n) = none →
    (∀ j, j < n → (look s.fbuf (512 * tm.district + j)).isSome = true) →
    ∃ t, exec (.faultRecord u) s = .next t ∧ look t.fbuf (512 * tm.district + n) = some r
      ∧ (∀ j, j ≠ 512 * tm.district + n → look t.fbuf j = look s.fbuf j)
      ∧ (∀ v ∈ t.fwait, v ≠ FaultSrc.group u)
      ∧ (∃ g', look t.groups u = some g' ∧ g'.core = g.core ∧ g'.wait = .parked pc r (some (512 * tm.district + n)))
      ∧ ∀ cx, look s.ctxs tm.ctx = some cx → Raised s t cx.clerk
          { code := 0x03, ctx := tm.ctx, group := g.gidx, arg := n + 2 ^ 16 * tm.district, data := 0 })

/-! ## Stores and loads on their way -/

/-- R208, R215, R243. STORE_BUFFER_LEAVE: the oldest entry leaves, one flight for each line, and memory is as it was; the entries of
a team that is halted, stopped or away stay, but for a rollover and a promotion, where the model lets them leave (its choice, log 69).
PERFORM_AT_HOME, of a flight whose turn it is: the parts of a flight to HBM act on memory one after another, each store with its bytes and
each atomic with the value of R243, and on nothing else of it, at a timestamp above every lease
of the line and not below the group's clock when the entry left. STORE_ACK, when no older store of the core to that line is on its way
(R6): the flight is gone and the clock has reached it. That a store reaching a CODE frame has no effect is the model's choice (log 29). -/
def Obligations.StoresPerformed : Prop :=
  let bytes := fun p : SPart => match p.op with
    | .store bs => bs.length
    | .atom .. => p.n
  let acts := fun (m : Nat → Byte) (p : SPart) (a : Nat) =>
    if paLocal p.pa ≤ a ∧ a < paLocal p.pa + bytes p then
      match p.op with
      | .store bs => bs.getD (a - paLocal p.pa) 0
      | .atom ty op b c => BitVec.ofNat 8
          (atomicNew op ty (natOfBytes ((List.range p.n).map fun i => m (paLocal p.pa + i))) b c / 2 ^ (8 * (a - paLocal p.pa)))
    else m a
  (∀ (s : State) (u : Nat) (g : Group) (tm : Team) (e : SEntry) (rest : List SEntry),
    look s.groups u = some g → look s.teams g.team = some tm → g.sbuf = e :: rest → g.mayLeave e = true →
    let away := [TeamRun.halted, .stopped, .spilled, .saved].contains tm.run = true ∨ (tm.run = .stopping ∧ tm.haltRun = .halted)
    ((away → tm.promo ≠ 0 ∨ s.rollDue (s.zoneNum g) = true) →
      (∀ p ∈ e.parts, s.isRemote (lineOf p.pa) = false) →
      ∃ t, exec (.storeBufferLeave u) s = .next t
        ∧ Leaves { s with uid := s.uid + 1 } u t { g with sbuf := rest, fly := g.fly ++ s.flights g e })
    ∧ (away → tm.promo = 0 → s.rollDue (s.zoneNum g) = false →
      exec (.storeBufferLeave u) s = .next s))
  ∧ (∀ (s : State) (u k : Nat) (g : Group) (f : FlyLine),
    look s.groups u = some g → g.fly.find? (fun f => f.fid == k) = some f →
    f.remote = false → f.sent = false → f.done = none → s.flightTurn g f = true → s.chanFree (.fly u k) = true →
    isRegLine f.line = false → s.homeLost (s.flyHome g f) = false →
    s.isCode (f.line * 128) = false → isHostLine f.line = false →
    s.homeHeld (s.zoneNum g) (s.flyHome g f) f.line = false → s.waitsBefore f.line (f.heldAt.getD s.uid) = false →
    ∃ t, exec (.performAtHome u k) s = .next t
      ∧ (∀ a, readByte t.mem a = f.parts.foldl acts (readByte s.mem) a)
      ∧ (∀ a, (∀ p ∈ f.parts, a < paLocal p.pa ∨ paLocal p.pa + bytes p ≤ a) → readByte t.mem a = readByte s.mem a)
      ∧ t.hostMem = s.hostMem
      ∧ ∃ g' f' ts old d, look t.groups u = some g' ∧ f' ∈ g'.fly ∧ f'.fid = k ∧ f'.done = some (some ts, old, d)
          ∧ f.p ≤ ts ∧ (s.homeRec (s.zoneNum g) (s.flyHome g f) f.line).rts < ts)
  ∧ (∀ (s : State) (u k : Nat) (g : Group) (f : FlyLine) (ts : Option Nat) (old : List (Nat × Nat)) (d : Option LineData),
    look s.groups u = some g → g.fly.find? (fun f => f.fid == k) = some f → f.done = some (ts, old, d) →
    (f.remote = false →
      s.sentBefore ((s.coreOf g).getD 0) (s.zoneNum g) f.line f.at_ (fun _ => false) (fun _ => true) = false) →
    f.parts.any SPart.isAtom = false → f.sem = .rlx → (∀ p ∈ g.pends, p.id ≠ f.id) →
    ∃ t, exec (.storeAck u k) s = .next t
      ∧ GroupIs t u { g with fly := g.fly.filter (fun x => x.fid != k), pts := max g.pts (ts.getD 0) }
      ∧ (∀ v, v ≠ u → look t.groups v = look s.groups v) ∧ t.mem = s.mem)

/-- R206, R207, R6, R12, R381. GRANT_L2, LINE_FILL and RENEWAL_RETURN for a line of this device's HBM whose turn it is: the home's
lease is grown to cover the reader's clock, the load is given the line's bytes, and its group's LMAX has reached the version read.
A line that an earlier packet of its tile is to reach first stays as it is. That a home holding no copy grants the lease anew is the
model's choice (log 37). -/
def Obligations.LoadEvents : Prop :=
  ∀ (s : State) (u ld k : Nat) (c : LineCtx), s.lineCtx? u ld k = some c → (look s.zones c.zn).isSome = true →
    (c.turn s = false → exec (.grantL2 u ld k) s = .next s ∧ exec (.lineFill u ld k) s = .next s ∧ exec (.renewalReturn u ld k) s = .next s)
    ∧ (c.turn s = true → s.lineLost c.zn c.q.leaf c.q.line = false → isHostLine c.q.line = false → isRegLine c.q.line = false →
      s.lineQueued c.q.line = false → c.q.n ≤ 1024 →
      let goes := fun (t : State) (st : LineStat) => ∃ g' r', look t.groups c.u = some g'
        ∧ g'.loads.find? (fun r => r.id == c.r.id) = some r' ∧ r'.lines[c.k]?.map (·.stat) = some st
      let grows := fun (t : State) => c.r.p + max 64 c.q.n ≤ (t.homeRec c.zn (c.home s) c.q.line).rts ∧ t.mem = s.mem
      let bound := fun (t : State) (byte : Nat → Byte) (bad : Bool) (ts : Nat) =>
        GroupIs t c.u (({ c.g with lmax := max c.g.lmax ts } : Group).finishLoad (c.r.bind c.k c.q.line byte bad)) ∧ t.mem = s.mem
      let held := fun (cp : Copy) => c.q.leaf.sh = true ∧ c.l2Only = false ∧ c.r.kind.fills = true ∧ c.l1Hit s = none
        ∧ s.getL2 (c.core / 128) c.zn c.q.line = some cp ∧ c.r.p ≤ cp.rts ∧ cp.xp = false
        ∧ s.waysAt c.zn (s.sliceHome (c.core / 128) c.zn c.q.line) ≠ 0
        ∧ cp.wts ≤ (s.touchBase (l1Loc c.core) c.zn c.r.p).baseTop (l1Loc c.core) c.zn
        ∧ ((s.getL1 c.core c.zn c.q.line).isSome = true ∨ s.hasL1 c.core c.zn = false ∨ c.r.nl1 = true
          ∨ (s.l1Set c.core c.zn c.q.line).length + (s.privSet c.core c.zn c.q.line).length < s.l1Ways c.core c.zn)
      (c.q.stat = .l2 → c.leased s = true → ∃ t, exec (.grantL2 u ld k) s = .next t ∧ goes t .fill ∧ t.mem = s.mem)
      ∧ (c.q.stat = .l2 → c.leased s = false → c.served s = true → ∃ t, exec (.grantL2 u ld k) s = .next t
          ∧ (goes t .fill ∨ goes t .home) ∧ grows t)
      ∧ (c.q.stat = .home → c.r.kind.fills = true → c.served s = true → ∃ t, exec (.lineFill u ld k) s = .next t
          ∧ c.r.p ≤ (t.homeRec c.zn (c.home s) c.q.line).rts
          ∧ bound t (fun a => LineData.byte (s.lineData c.q.line) a) (s.badLine c.q.line)
              (max c.r.p ((s.touchHome c.zn (c.home s) c.q.line c.r.p).homeRec c.zn (c.home s) c.q.line).wts))
      ∧ (∀ cp, c.q.stat = .fill → held cp → ∃ t, exec (.lineFill u ld k) s = .next t
          ∧ bound t (fun a => LineData.byte cp.data a) cp.bad (max c.r.p cp.wts))
      ∧ (∀ cp, c.q.stat = .renew → held cp → ∃ t, exec (.renewalReturn u ld k) s = .next t
          ∧ bound t (fun a => LineData.byte cp.data a) cp.bad (max c.r.p cp.wts))
      ∧ (c.q.stat = .renew → c.leased s = false → c.served s = true → c.leased (c.grant s) = false →
          ∃ t, exec (.renewalReturn u ld k) s = .next t ∧ goes t .home ∧ grows t))

/-! ## Traps between instructions -/

/-- R80, R336, R415, R46. ILLOP of a word without an instruction; the arithmetic log's trap when the group is quiet; the trap of a
failed access; the stop of a halted team's other groups, of which one that trapped since the halt keeps that trap's record. The model's choices: TMASK of ARITHLOG names the
threads at the PC that issues next (log 76), and HALTSIB leaves TMASK as it was (log 47). -/
def Obligations.TrapsBetweenInstructions : Prop :=
  (∀ (s : State) (w : View) (opc : BitVec 10), s.view? = some w → ∃ t, exec (.illegalWord opc) s = .next t
      ∧ TrapTaken w w.g 0x01 w.sel w.pc64 opc.toNat t)
  ∧ (∀ (s : State) (u : Nat) (g : Group) (w : View), look s.groups u = some g → State.view? { s with cur := u } = some w →
      g.allDone = true → g.wait.boundary = true → g.stopped = false → g.hasLive = true →
      (g.heldLog.isSome = true → g.handler = false → ∃ t t', exec (.arithlog u) s = .next t
          ∧ TrapTaken w g 0x70 g.nextMask (g.nextPc.setWidth 64) 0 t' ∧ t = { t' with cur := s.cur })
      ∧ (∀ r rest, g.reports = r :: rest → ∃ t t', exec (.remote u) s = .next t
          ∧ TrapTaken w { g with reports := rest } 0x42 r.mask (g.nextPc.setWidth 64) (r.kind * 2 ^ 12 + r.dev) t'
          ∧ t = { t' with cur := s.cur }))
  ∧ (∀ (s : State) (u : Nat) (g : Group) (tm : Team), look s.groups u = some g → look s.teams g.team = some tm → tm.run = .halted →
      g.stopped = false → g.hasLive = true →
      (g.tripped = false → ∃ t epc, exec (.haltsib u) s = .next t
        ∧ Leaves s u t { g with stopped := true, cause := 0x60, double := false, tinfo := BitVec.ofNat 64 g.skid, epc := epc })
      ∧ (g.tripped = true → ∃ t, exec (.haltsib u) s = .next t ∧ Leaves s u t { g with stopped := true }))

/-! ## Memory forms -/

/-- R173 to R175, R179, R193, R207. A load whose every byte is at hand (scratchpad, private space, the thread's own stores, a
leased copy in L1) completes with their value, least significant byte first, sign-extended for a signed type; its group has taken
one place in program order and its LMAX has not fallen. -/
def Obligations.LoadsAtOnce : Prop :=
  ∀ (s s1 : State) (w : View) (m : Mask) (x : Ld) (b : Nat → Nat → Byte),
    let n := x.ty.width / 8
    let found := fun (i : Instr) (acc : Acc) (race : Bool) (addr : Nat → AddrOut) =>
      let accs := w.accsOf i.uses m n acc addr
      Issues i s w m → w.accessible i.uses m n acc addr = true → (if race then w.Passes accs false s1 else s1 = w.s) →
      w.away accs = false → w.loadBlocked accs = false → w.badPriv accs = [] → w.privGone accs = [] →
      (∀ a ∈ accs, ∀ j, j < n → w.byteNow a j = some (b a.thr j)) →
      ∃ s2 l t, exec i s = .next t ∧ SameMemory s1 s2 ∧ w.g.lmax ≤ l ∧ w.scrStamp accs ≤ l
        ∧ LaneDone i { w with s := s2, g := { w.g with seq := w.g.seq + 1, lmax := l, winLoad := w.g.winLoad || accs.any isGlob } } m
            x.ty.sfill (fun k => .bits (loadValue x.ty ((List.range n).map (b k)))) t
    found (.ld x) .load true (fun t => w.globalOf x.ad n false true t)
    ∧ found (.ldun x) .load true (fun t => w.globalOf x.ad n false false t)
    ∧ found (.ldx x) .load true (fun t => w.globalOf x.ad n true true t)
    ∧ found (.lds x) .load false (fun t => w.scratchOf x.ad x.var n t)
    ∧ found (.ldp x) .privLoad true (fun t => w.privAddr (w.offsetOf x.ad n t) n)

/-- R41, R179, R196, R207. A global load that lacks a line of this device: its threads move on, its destination is pending, and
the load waits with the group's clock for the lines it needs; nothing is written. -/
def Obligations.LoadsStart : Prop :=
  ∀ (s s1 : State) (w : View) (m : Mask) (x : Ld),
    let n := x.ty.width / 8
    let starts := fun (i : Instr) (addr : Nat → AddrOut) =>
      let accs := w.accsOf i.uses m n .load addr
      let need := neededLines accs (accs.flatMap w.readyBytes)
      Issues i s w m → w.accessible i.uses m n .load addr = true → w.Passes accs false s1 →
      w.away accs = false → w.loadBlocked accs = false → w.badPriv accs = [] → w.privGone accs = [] →
      (∀ q ∈ need, w.s.isRemote q.line = false ∧ w.s.lineLost w.cx.zone q.leaf q.line = false) →
      (∃ q ∈ need, w.l1Hit q.leaf q.line = none) →
      ∃ t l r p, exec i s = .next t ∧ w.g.lmax ≤ l ∧ t.mem = w.s.mem ∧ t.hostMem = w.s.hostMem ∧ t.teams = w.s.teams
        ∧ GroupIs t w.u { w.g.startPend i m w.sel with
            seq := w.g.seq + 1, lmax := l, winLoad := true, pends := w.g.pends ++ [p], loads := w.g.loads ++ [r] }
        ∧ (∀ v, v ≠ w.u → look t.groups v = look w.s.groups v)
        ∧ r.id = w.g.seq ∧ r.p = w.g.pts ∧ r.lines.map (·.line) = need.map (·.line)
        ∧ p.id = w.g.seq ∧ p.dst = x.d ∧ p.ty = x.ty ∧ p.mask = m
    starts (.ld x) (fun t => w.globalOf x.ad n false true t)
    ∧ starts (.ldun x) (fun t => w.globalOf x.ad n false false t)
    ∧ starts (.ldx x) (fun t => w.globalOf x.ad n true true t)

/-- R177, R179, R196. A store to global addresses enters the store buffer with its threads' bytes in thread order, under the next
place in program order; nothing of memory changes. Dirty private bytes of the group on the lines that it stores to, which are older, go to
memory first (R174, R179). -/
def Obligations.GlobalStoresIssue : Prop :=
  ∀ (s s1 : State) (w : View) (m : Mask) (x : St),
    let n := x.ty.width / 8
    let buffered := fun (i : Instr) (addr : Nat → AddrOut) =>
      let accs := w.accsOf i.uses m n .store addr
      Issues i s w m → w.accessible i.uses m n .store addr = true → w.Passes accs true s1 → (∀ a ∈ accs, isGlob a = true) →
      w.g.sbuf.length < 16 →
      let g1 := { (w.g.startPend i m w.sel).unpause m with
        seq := w.g.seq + 1
        sbuf := w.g.sbuf ++ [{ id := w.g.seq, sem := .rlx, scope := .dev
                               parts := globParts accs fun k _ => .store (bytesOf n (w.rd x.ty x.c k)) }] }
      let older := fun b : Nat × Byte => accs.any fun a => a.pcs.any fun p => lineOf p.pa == lineOf b.1
      (w.g.pdirty.any older = false → ∃ t, exec i s = .next t ∧ t.mem = w.s.mem ∧ t.hostMem = w.s.hostMem ∧ Leaves s1 w.u t g1)
      ∧ ∃ t l, exec i s = .next t ∧ t.hostMem = w.s.hostMem
        ∧ GroupIs t w.u { g1 with pdirty := w.g.pdirty.filter (fun b => !older b), pleaf := l }
        ∧ (∀ v, v ≠ w.u → look t.groups v = look w.s.groups v)
        ∧ ∀ a, (∀ b ∈ w.g.pdirty, older b = true → paLocal b.1 ≠ a) → readByte t.mem a = readByte w.s.mem a
    buffered (.st x) (fun t => w.globalOf x.ad n false true t)
    ∧ buffered (.stx x) (fun t => w.globalOf x.ad n true true t)

/-- R173 to R178, R196, R226. A store to scratchpads writes at issue: of the threads that reach a byte the highest one's stays
there; other bytes, every register and memory are as they were. MCST writes the same bytes in the scratchpad of every team whose
rank its mask names. What goes to a team that is away is held at the cluster, with the data and the clock of the issue, which is the
model's choice (log 100). -/
def Obligations.ScratchpadStores : Prop :=
  ∀ (s s1 : State) (w : View) (m : Mask),
    let written := fun (i : Instr) (ty : Ty) (c : Src) (targets : List ThreadAcc) =>
      (∀ a ∈ targets, ∃ k off, a.tgt = .scr k off) → w.g.releasePending = false →
      let late := fun (a : ThreadAcc) => match a.tgt with
        | .scr j _ => w.s.heldFor w.g j
        | _ => false
      ∃ t, exec i s = .next t ∧ t.mem = w.s.mem
        ∧ GroupIs t w.u { (w.g.startPend i m w.sel).unpause m with
            seq := w.g.seq + 1
            cluOut := w.g.cluOut ++ (targets.filter late).filterMap fun a => match a.tgt with
              | .scr j off => some { id := w.g.seq, team := j, off := off, bytes := bytesOf (ty.width / 8) (w.rd ty c a.thr), pts := w.g.pts }
              | _ => none }
        ∧ (∀ v, v ≠ w.u → look t.groups v = look w.s.groups v)
        ∧ ∀ k tm, look w.s.teams k = some tm → ∃ tm', look t.teams k = some tm' ∧ ∀ o,
            let hit := (targets.filter fun a => !late a).reverse.find? fun a => match a.tgt with
              | .scr j off => j == k && off ≤ o && o < off + ty.width / 8
              | _ => false
            readByte tm'.scratch o = match hit with
              | some a => (bytesOf (ty.width / 8) (w.rd ty c a.thr)).getD (o - match a.tgt with
                  | .scr _ off => off
                  | _ => 0) 0
              | none => readByte tm.scratch o
    (∀ x, Issues (.sts x) s w m → w.accessible (Instr.sts x).uses m (x.ty.width / 8) .store (w.scratchOf x.ad x.var (x.ty.width / 8)) = true →
      w.Passes (w.accsOf (Instr.sts x).uses m (x.ty.width / 8) .store (w.scratchOf x.ad x.var (x.ty.width / 8))) true s1 →
      written (.sts x) x.ty x.c (w.accsOf (Instr.sts x).uses m (x.ty.width / 8) .store (w.scratchOf x.ad x.var (x.ty.width / 8))))
    ∧ (∀ x, Issues (.mcst x) s w m → w.accessible (Instr.mcst x).uses m (x.ty.width / 8) .store (w.mcstAddr x (x.ty.width / 8)) = true →
      written (.mcst x) x.ty x.c ((w.accsOf (Instr.mcst x).uses m (x.ty.width / 8) .store (w.mcstAddr x (x.ty.width / 8))).flatMap fun a =>
        ((List.range 128).filter (w.n128 x.m a.thr).testBit).filterMap fun r => (w.peer r).map fun p =>
          { a with tgt := .scr p.1 (match a.tgt with
              | .scr _ off => off
              | _ => 0) }))

/-- R170, R172, R174, R180, R197. STP keeps its bytes dirty in L1: of the threads that reach a byte the highest one's stays, and
memory is as it was while its lines have room there; without an L1, or on an uncached page, the bytes go to memory. It waits for the
group's own stores on their way to those lines (R179). Private pages that lie elsewhere than in the device's HBM are stored to as uncached
global ones (the model's choice, log 105). WBP writes the dirty bytes of the lines its threads name to memory, WBP.all every dirty byte,
and they stay as clean copies; a lost line, and a frame of code, take none (R185, R433). -/
def Obligations.PrivateStores : Prop :=
  ∀ (s s1 : State) (w : View) (m : Mask),
    let n := fun x : St => x.ty.width / 8
    let taken := fun b : Nat × Byte =>
      w.s.homeLost (w.s.homeOf (w.s.zoneOf w.cx.zone) (rget {} w.g.pleaf (lineOf b.1)) (lineOf b.1 * 128)) = false
        ∧ w.s.isCode (lineOf b.1 * 128) = false
    (∀ x : St,
      let addr := fun t => w.privAddr (w.offsetOf x.ad (n x) t) (n x)
      let accs := w.accsOf (Instr.stp x).uses m (n x) .privStore addr
      let ps := accs.flatMap fun a => a.pcs
      let lines := dedup (ps.map fun p => lineOf p.pa)
      let cached := w.s.hasL1 w.tm.core w.cx.zone = true ∧ ∀ p ∈ ps, p.leaf.unc = false
      let quiet := ∀ a ∈ accs, isPriv a = true → ∀ p ∈ a.pcs, w.g.openOn (lineOf p.pa) = false
      let here := (∀ a ∈ accs, isPriv a = true) ∧ w.privGone accs = []
      Issues (.stp x) s w m → w.accessible (Instr.stp x).uses m (n x) .privStore addr = true → w.Passes accs true s1 →
      (quiet → w.g.sbuf.length < 16 → ∃ t d l r e, exec (.stp x) s = .next t
        ∧ GroupIs t w.u { (w.g.startPend (.stp x) m w.sel).unpause m with
            seq := w.g.seq + 1, sbuf := w.g.sbuf ++ e, pdirty := d, pleaf := l, reports := w.g.reports ++ r })
      ∧ ((∀ a ∈ accs, isGlob a = true) → w.g.sbuf.length < 16 →
        (w.g.pdirty.any fun b => ps.any fun p => lineOf p.pa == lineOf b.1) = false →
        ∃ t, exec (.stp x) s = .next t ∧ t.mem = w.s.mem
          ∧ Leaves s1 w.u t { (w.g.startPend (.stp x) m w.sel).unpause m with
              seq := w.g.seq + 1
              sbuf := w.g.sbuf ++ (if ps = [] then [] else
                [{ id := w.g.seq, sem := .rlx, scope := .dev
                   parts := globParts accs fun k p => .store (((bytesOf (n x) (w.rd x.ty x.c k)).drop p.at_).take p.n) }]) })
      ∧ (cached → here → quiet → (∀ l ∈ lines, (w.s.l1Set w.tm.core w.cx.zone l).length + (w.s.privSet w.tm.core w.cx.zone l).length + lines.length
            ≤ w.s.l1Ways w.tm.core w.cx.zone) →
        ∃ t d l, exec (.stp x) s = .next t ∧ t.mem = w.s.mem
          ∧ GroupIs t w.u { (w.g.startPend (.stp x) m w.sel).unpause m with seq := w.g.seq + 1, pdirty := d, pleaf := l }
          ∧ (∀ v, v ≠ w.u → look t.groups v = look w.s.groups v)
          ∧ ∀ pa,
              let hit := ps.reverse.find? fun p => decide (p.pa ≤ pa) && decide (pa < p.pa + p.n)
              look d pa = match hit with
                | some p => some ((bytesOf (n x) (w.rd x.ty x.c p.thr)).getD (p.at_ + (pa - p.pa)) 0)
                | none => look w.g.pdirty pa)
      ∧ ((w.s.hasL1 w.tm.core w.cx.zone = false ∨ ∀ p ∈ ps, p.leaf.unc = true) → here → quiet → (∀ p ∈ ps, regionOf (paLocal p.pa) ≠ .host) →
        ∃ t, exec (.stp x) s = .next t ∧ t.hostMem = w.s.hostMem
          ∧ GroupIs t w.u { (w.g.startPend (.stp x) m w.sel).unpause m with
              seq := w.g.seq + 1, pdirty := w.g.pdirty.filter fun b => !ps.any fun p => decide (p.pa ≤ b.1 ∧ b.1 < p.pa + p.n) }
          ∧ (∀ v, v ≠ w.u → look t.groups v = look w.s.groups v)
          ∧ ∀ a, readByte t.mem a = match ps.reverse.find? fun p => decide (paLocal p.pa ≤ a) && decide (a < paLocal p.pa + p.n) with
              | some p => (bytesOf (n x) (w.rd x.ty x.c p.thr)).getD (p.at_ + (a - paLocal p.pa)) 0
              | none => readByte w.s.mem a))
    ∧ (∀ x : Wbp,
      let addr := fun t => w.privAddr (w.offsetOf x.ad 4 t) 4
      let lines := (w.accsOf (Instr.wbp x).uses m 4 .privStore addr).flatMap fun a => a.pcs.map fun p => lineOf p.pa
      Issues (.wbp x) s w m → w.accessible (Instr.wbp x).uses m 4 .privStore addr = true →
      ∃ t l r, exec (.wbp x) s = .next t ∧ t.hostMem = w.s.hostMem
        ∧ GroupIs t w.u { w.g.startPend (.wbp x) m w.sel with
            pdirty := w.g.pdirty.filter (fun b => !lines.contains (lineOf b.1)), pleaf := l, reports := w.g.reports ++ r }
        ∧ ((∀ l ∈ lines, w.dirtyGone l = false) → r = [])
        ∧ (∀ v, v ≠ w.u → look t.groups v = look w.s.groups v)
        ∧ ((w.g.pdirty.map fun b => paLocal b.1).Nodup → ∀ b ∈ w.g.pdirty, lines.contains (lineOf b.1) = true → taken b →
            readByte t.mem (paLocal b.1) = b.2)
        ∧ ∀ a, (∀ b ∈ w.g.pdirty, lines.contains (lineOf b.1) = true → paLocal b.1 ≠ a) → readByte t.mem a = readByte w.s.mem a)
    ∧ (∀ x : CtlOnly, Issues (.wbpAll x) s w m → (w.g.pdirty.map fun b => paLocal b.1).Nodup →
      ∃ t l r, exec (.wbpAll x) s = .next t ∧ t.hostMem = w.s.hostMem
        ∧ GroupIs t w.u { w.g.advance w.sel with pdirty := [], pleaf := l, reports := w.g.reports ++ r }
        ∧ ((∀ b ∈ w.g.pdirty, w.dirtyGone (lineOf b.1) = false) → r = [])
        ∧ (∀ v, v ≠ w.u → look t.groups v = look w.s.groups v)
        ∧ (∀ b ∈ w.g.pdirty, taken b → readByte t.mem (paLocal b.1) = b.2)
        ∧ ∀ a, (∀ b ∈ w.g.pdirty, paLocal b.1 ≠ a) → readByte t.mem a = readByte w.s.mem a)

/-- R190, R191, R198, R303. QPOP takes the oldest element of its queue, QPEEK reads it; a queue that is empty and ended gives the
poison value and a false predicate; one that is empty and not ended holds the group; a stream stopped by a trap takes it when its
element is reached, one stopped by a fault parks the group. -/
def Obligations.OperandQueues : Prop :=
  ∀ (s : State) (w : View) (m : Mask) (x : Qpop),
    let q := rget {} w.g.queues x.n.toNat
    let element := fun (e : List Nat × Mask) (k : Nat) => ({ d := e.1.getD k 0 % 2 ^ x.ty.width, p := true } : LaneOut)
    let empty := fun (_ : Nat) => ({ d := if x.ty.width = 64 then poison64.toNat else poison32.toNat, p := false } : LaneOut)
    (∀ e rest, Issues (.qpop x) s w m → q.entries = e :: rest →
      let q' := { q with entries := rest, chan := if rest.isEmpty && q.ended then none else q.chan
                         waits := q.waits && !(rest.isEmpty && q.ended) }
      ∃ t, exec (.qpop x) s = .next t
        ∧ LaneDone (.qpop x) { w with g := { w.g with queues := put w.g.queues x.n.toNat q' } } m false (element e) t)
    ∧ (∀ e rest, Issues (.qpeek x) s w m → q.entries = e :: rest → Does (.qpeek x) s w m false (element e))
    ∧ (Issues (.qpop x) s w m → q.entries = [] → q.stop = none → q.ended = true → Does (.qpop x) s w m false empty)
    ∧ (Issues (.qpeek x) s w m → q.entries = [] → q.stop = none → q.ended = true → Does (.qpeek x) s w m false empty)
    ∧ (Issues (.qpop x) s w m → q.entries = [] → q.stop = none → q.ended = false →
        ∃ t, exec (.qpop x) s = .next t ∧ Holds w.s w.u t w.g)
    ∧ (∀ r entry, Issues (.qpop x) s w m → q.entries = [] → q.stop = some (.fault r entry) → ∃ t g', exec (.qpop x) s = .next t
        ∧ Leaves w.s w.u t w.g ∧ look t.groups w.u = some g' ∧ g'.wait = .parked w.s.curPc r entry)
    ∧ (∀ code mask info, Issues (.qpop x) s w m → q.entries = [] → q.stop = some (.trap code mask info) →
        let g := { w.g with queues := put w.g.queues x.n.toNat { q with stop := none, poison := q.poison ||| mask } }
        ∃ t, exec (.qpop x) s = .next t ∧ TrapTaken { w with g := g } g code mask w.pc64 info t)

/-- R198, R222, R223, R226. FPUSH adds an entry with the elements of its threads and the group's clock, as a release at team scope;
FPOP takes the oldest one, gives each thread its element or poison, and acquires through its clock; a push waits while there is no room or a release of its group is pending. A FIFO the team does not have
is SPWIN. The model's choices: TINFO holds the FIFO's number (log 11), a pop of 32 bits takes the low half of a wide element (log 90), and a
raw payload has the layout of log 19. -/
def Obligations.TeamFifos : Prop :=
  ∀ (s : State) (w : View) (m : Mask),
    (∀ x : Fpush,
      let es := rget [] w.tm.fifos x.n.toNat
      let wide := x.ty.width == 64
      (Issues (.fpush x) s w m → x.n.toNat < w.tm.fifoN → fifoUsed es + (if wide then 2 else 1) ≤ 128 → w.g.quiet .team = true →
        w.g.releasePending = false →
        ∃ t, exec (.fpush x) s = .next t ∧ Leaves (w.s.updTeam w.g.team fun tm =>
            { tm with fifos := put tm.fifos x.n.toNat (es ++ [{ valid := m, wide := wide, stamp := w.g.pts, elems := (List.range 32).map fun k => if inMask m k then w.rd x.ty x.c k else 0 }]) })
          w.u t ((w.g.startPend (.fpush x) m w.sel).addRelease .team))
      ∧ (Issues (.fpush x) s w m → x.n.toNat < w.tm.fifoN →
          128 < fifoUsed es + (if wide then 2 else 1) ∨ w.g.quiet .team = false ∨ w.g.releasePending = true →
          ∃ t, exec (.fpush x) s = .next t ∧ Holds w.s w.u t w.g)
      ∧ (Issues (.fpush x) s w m → w.tm.fifoN ≤ x.n.toNat → ∃ t, exec (.fpush x) s = .next t
          ∧ TrapTaken w w.g 0x14 m w.pc64 x.n.toNat t))
    ∧ (∀ x : Fpop,
      (∀ e rest, Issues (.fpop x) s w m → x.n.toNat < w.tm.fifoN → rget [] w.tm.fifos x.n.toNat = e :: rest →
        e.raw = false ∨ x.ty.width = 32 → w.g.reads = [] →
        let l := max w.g.lmax e.stamp
        ∃ t, exec (.fpop x) s = .next t ∧ LaneDone (.fpop x)
          { w with s := w.s.updTeam w.g.team (fun tm => { tm with fifos := put tm.fifos x.n.toNat rest }),
                   g := { w.g with lmax := l, pts := max w.g.pts l } } m false
          (fun k => if inMask e.valid k then { d := e.elems.getD k 0 % 2 ^ x.ty.width, p := true }
            else { d := if x.ty.width = 64 then poison64.toNat else poison32.toNat, p := false }) t)
      ∧ (Issues (.fpop x) s w m → x.n.toNat < w.tm.fifoN → rget [] w.tm.fifos x.n.toNat = [] →
          ∃ t, exec (.fpop x) s = .next t ∧ Holds w.s w.u t w.g)
      ∧ (Issues (.fpop x) s w m → w.tm.fifoN ≤ x.n.toNat → ∃ t, exec (.fpop x) s = .next t
          ∧ TrapTaken w w.g 0x14 m w.pc64 x.n.toNat t))

/-- R167, R193. LDC gives each thread the bytes at its offset in a constant bank, least significant first; bytes from the bank's
size on read as zero. R197. A prefetch asks for the lines of the threads whose addresses pass every check, each once, and for no other;
one that names no such line moves its threads on and does nothing. It writes no register and no memory, and nothing waits for it. A line
of the group's L1 that is there needs no asking, unless the prefetch is to the L2. Held requests on the lines of its walks come first (R400). -/
def Obligations.ConstantLoadsAndPrefetches : Prop :=
  (∀ (s : State) (w : View) (m : Mask) (x : Ldc),
     let n := x.ty.width / 8
     let off := fun k => (w.n32 x.a k : Int) + (if x.ixu then (w.n32 x.b k : Int) else w.int .i32 x.b k) * 2 ^ x.scale.toNat + x.off.toInt * n
     Issues (.ldc x) s w m → (∀ k ∈ lanes (Instr.ldc x).uses m, 0 ≤ off k ∧ off k % n = 0) →
     Does (.ldc x) s w m x.ty.sfill fun k => .bits (natOfBytes ((List.range n).map fun j =>
       match look w.tm.banks x.bank.toNat with
       | some b => if (off k).toNat + j < b.size then readByte b.bytes ((off k).toNat + j) else 0
       | none => 0)))
  ∧ (∀ (s : State) (w : View) (m : Mask) (x : Pref),
      let vas := (threadsOf m).filterMap fun k => match w.globalOf x.ad 1 false true k with
        | ⟨[], .glob va⟩ => some va
        | _ => none
      let w1 := { w with s := w.installQuiet .load vas }
      let asked := vas.filterMap fun va => match w1.translateQuiet va .load with
        | some (pa, leaf) =>
          if w1.s.refusedPa leaf pa || leaf.unc || (!w1.s.isRemote (lineOf pa) && isRegLine (lineOf pa)) then none else some (lineOf pa, leaf)
        | none => none
      Issues (.pref x) s w m → w.walkBehind .load vas = false →
      ∃ t l, exec (.pref x) s = .next t ∧ t.mem = w.s.mem ∧ t.hostMem = w.s.hostMem ∧ t.teams = w.s.teams
        ∧ GroupIs t w.u { w.g.startPend (.pref x) m w.sel with seq := w.g.seq + 1, loads := w.g.loads ++ l }
        ∧ (∀ r ∈ l, r.kind = .pref ∧ r.id = w.g.seq ∧ r.p = w.g.pts ∧ r.nl1 = x.l2
            ∧ (r.lines.map (·.line)).Nodup ∧ ∀ n, n ∈ r.lines.map (·.line) ↔ n ∈ asked.map (·.1))
        ∧ l.length ≤ 1 ∧ (asked = [] → l = [])
        ∧ ((∃ q ∈ asked, w.s.isRemote q.1 = false ∧ w.s.lineLost w.cx.zone q.2 q.1 = false
            ∧ (x.l2 = true ∨ w.s.hasL1 w.tm.core w.cx.zone = false ∨ w1.s.getL1 w.tm.core w.cx.zone q.1 = none)) → l ≠ [])
        ∧ (∀ v, v ≠ w.u → look t.groups v = look w.s.groups v))

/-! ## Class 0x6 -/

/-- R179, R242, R243, R217. An atomic whose locations are global enters the store buffer as an entry of its own and its destination
waits for the answer; with release semantics it is a release of its group first. Dirty private bytes of the group on its lines go to memory before it (R174, R179). One on a doorbell
or a device register is PROT. -/
def Obligations.GlobalAtomicsIssue : Prop :=
  ∀ (s : State) (w : View) (m : Mask),
    let n := fun ty : Ty => ty.width / 8
    let older := fun (accs : List ThreadAcc) (b : Nat × Byte) => accs.any fun a => a.pcs.any fun p => lineOf p.pa == lineOf b.1
    let opened := fun (sem : Sem) (scope : Scope) => if Sem.isRel sem then w.g.addRelease scope else w.g
    let after := fun (sem : Sem) (scope : Scope) => if Sem.isRel sem then w.s.updTeam w.g.team (fun tm => tm.countRelease scope) else w.s
    let entry := fun (i : Instr) (ty : Ty) (op : Aop) (sem : Sem) (scope : Scope) (b c : Nat → Nat) (accs : List ThreadAcc) =>
      ({ ((opened sem scope).startPend i m w.sel).unpause m with
          seq := (opened sem scope).seq + 1
          sbuf := w.g.sbuf ++ [{ id := (opened sem scope).seq, parts := globParts accs fun k _ => .atom ty op (b k) (c k), sem := sem,
                                 scope := scope }] } : Group)
    let waits := fun (i : Instr) (x : Atom) (win : Bool) =>
      let addr := fun k => w.wideAddr (w.n128 x.a k) (x.off.toInt * n x.ty) (n x.ty) win true
      let accs := w.accsOf i.uses m (n x.ty) .atomic addr
      Issues i s w m → w.accessible i.uses m (n x.ty) .atomic addr = true → (∀ a ∈ accs, isGlob a = true) →
      accs.filter isFar = [] →
      (w.atomRegs accs = 0 → w.g.sbuf.length < 16 → w.g.pdirty.any (older accs) = true →
        ∃ t p l, exec i s = .next t
          ∧ GroupIs t w.u { entry i x.ty x.aop x.sem x.scope (w.rd x.ty x.b) (optSrc w x.ty x.c) accs with
              pdirty := w.g.pdirty.filter (fun b => !older accs b), pleaf := l, pends := w.g.pends ++ [p] }
          ∧ p.id = (opened x.sem x.scope).seq ∧ p.dst = x.d ∧ p.ty = x.ty ∧ p.mask = m)
      ∧ (w.atomRegs accs = 0 → w.g.sbuf.length < 16 → w.g.pdirty.any (older accs) = false →
        ∃ t p, exec i s = .next t
          ∧ Leaves (after x.sem x.scope) w.u t { entry i x.ty x.aop x.sem x.scope (w.rd x.ty x.b) (optSrc w x.ty x.c) accs with
              pends := w.g.pends ++ [p] }
          ∧ p.id = (opened x.sem x.scope).seq ∧ p.dst = x.d ∧ p.ty = x.ty ∧ p.mask = m)
      ∧ (w.atomRegs accs ≠ 0 → ∃ t mask info, exec i s = .next t ∧ TrapTaken w w.g 0x11 mask w.pc64 info t)
      ∧ (w.atomRegs accs = 0 → 16 ≤ w.g.sbuf.length → ∃ t, exec i s = .next t ∧ Holds w.s w.u t w.g)
    (∀ x, waits (.atom x) x false) ∧ (∀ x, waits (.atomx x) x true)
    ∧ (∀ x : Red,
      let sem : Sem := if x.rel then .rel else .rlx
      let addr := fun k => w.wideAddr (w.n128 x.a k) (x.off.toInt * n x.ty) (n x.ty) false true
      let accs := w.accsOf (Instr.red x).uses m (n x.ty) .atomic addr
      Issues (.red x) s w m → w.accessible (Instr.red x).uses m (n x.ty) .atomic addr = true → (∀ a ∈ accs, isGlob a = true) →
      accs.filter isFar = [] → w.atomRegs accs = 0 → w.g.sbuf.length < 16 →
        (w.g.pdirty.any (older accs) = true → ∃ t l, exec (.red x) s = .next t
          ∧ GroupIs t w.u { entry (.red x) x.ty x.aop sem x.scope (w.rd x.ty x.b) (fun _ => 0) accs with
              pdirty := w.g.pdirty.filter (fun b => !older accs b), pleaf := l })
        ∧ (w.g.pdirty.any (older accs) = false → ∃ t, exec (.red x) s = .next t
          ∧ Leaves (after sem x.scope) w.u t (entry (.red x) x.ty x.aop sem x.scope (w.rd x.ty x.b) (fun _ => 0) accs)))

/-- R177, R222, R242, R243. An atomic on a scratchpad is done at issue, its threads in ascending order: each gives back what it
found and leaves the operation's value; acquire semantics move the group's clock, release semantics come first. -/
def Obligations.ScratchpadAtomics : Prop :=
  ∀ (s : State) (w : View) (m : Mask) (k : Nat) (tm : Team), look w.s.teams k = some tm →
    let done := fun (i : Instr) (ty : Ty) (op : Aop) (sem : Sem) (scope : Scope) (b c : Nat → Nat) (addr : Nat → AddrOut) =>
      let n := ty.width / 8
      let accs := w.accsOf i.uses m n .atomic addr
      let run := accs.foldl (fun (r : Memory × List (Nat × Nat)) a => match a.tgt with
        | .scr _ off => (writeNat r.1 off n (atomicNew op ty (readNat r.1 off n) (b a.thr) (c a.thr)), r.2 ++ [(a.thr, readNat r.1 off n)])
        | _ => r) (tm.scratch, [])
      let g1 := (if Sem.isRel sem then w.g.addRelease scope else w.g).unpause m
      Issues i s w m → w.accessible i.uses m n .atomic addr = true → (∀ a ∈ accs, ∃ off, a.tgt = .scr k off) →
      w.away accs = false → w.badPriv accs = [] → w.g.releasePending = false → (Sem.isRel sem = true → w.g.quiet scope = true) →
      (Sem.isAcq sem = true → w.g.reads = []) →
      ∃ t l s1 stamps bad past, exec i s = .next t ∧ w.g.lmax ≤ l
        ∧ s1 = (if Sem.isRel sem then fun s : State => s.updTeam w.g.team (fun tm => tm.countRelease scope) else id)
            (w.s.updTeam k fun tm => { tm with scratch := run.1, stamps := stamps, scrbad := bad, past := past })
        ∧ LaneDone i { w with s := s1, g := { g1 with
            seq := g1.seq + 1, lmax := l
            pts := if Sem.isAcq sem ∧ scope ≠ Scope.grp then max w.g.pts l else w.g.pts
            ah := if Sem.isAcq sem ∧ scope ≠ Scope.grp ∧ Scope.wide scope then max w.g.pts l else w.g.ah } } m ty.sfill
            (fun j => .bits (((run.2.find? fun x => x.1 == j).map (·.2)).getD 0)) t
    (∀ x : Atoms, done (.atoms x) x.ty x.aop x.sem x.scope (w.rd x.ty x.b) (optSrc w x.ty x.c) fun j =>
        if x.pe then w.peAddr ((w.n64 x.a j : Int) + x.off.toInt * (x.ty.width / 8 : Nat)) (x.ty.width / 8)
        else scratchAddr w.g.team w.tm (w.offAddr x.a x.off.toInt (x.ty.width / 8) j) (x.ty.width / 8) true)
    ∧ (∀ x : Atom, done (.atomx x) x.ty x.aop x.sem x.scope (w.rd x.ty x.b) (optSrc w x.ty x.c) fun j =>
        w.wideAddr (w.n128 x.a j) (x.off.toInt * (x.ty.width / 8 : Nat)) (x.ty.width / 8) true true)

/-- R217, R222, R223, R229, R245, R246. Fences, acquires, releases and clock reads. -/
def Obligations.FencesAndClocks : Prop :=
  ∀ (s : State) (w : View) (m : Mask),
    let counted := fun (scope : Scope) => w.s.updTeam w.g.team fun tm =>
      { tm with relc := if Scope.wide scope then (tm.relc + 1) % 2 ^ 32 else tm.relc }
    let acq := fun (scope : Scope) (g : Group) => if scope = .grp then g else
      { g with pts := max g.pts g.lmax, ah := if Scope.wide scope then max g.pts g.lmax else g.ah }
    (∀ x, Issues (.fence x) s w m → w.g.quiet x.scope = true → ∃ t, exec (.fence x) s = .next t
        ∧ Leaves (counted x.scope) w.u t ((acq x.scope (w.g.addRelease x.scope)).advance w.sel))
    ∧ (∀ x, Issues (.fence x) s w m → w.g.quiet x.scope = false → ∃ t, exec (.fence x) s = .next t ∧ Holds w.s w.u t w.g)
    ∧ (∀ x, Issues (.acq x) s w m → w.g.reads = [] → ∃ t, exec (.acq x) s = .next t
        ∧ Leaves w.s w.u t ((acq x.scope w.g).advance w.sel))
    ∧ (∀ x, Issues (.acq x) s w m → w.g.reads ≠ [] → ∃ t, exec (.acq x) s = .next t ∧ Holds w.s w.u t w.g)
    ∧ (∀ x, Issues (.rel x) s w m → ∃ t, exec (.rel x) s = .next t
        ∧ Leaves (counted x.scope) w.u t ((w.g.addRelease x.scope).advance w.sel))
    ∧ (∀ x, Issues (.xfence x) s w m → ∃ t, exec (.xfence x) s = .next t
        ∧ Leaves (counted .dev) w.u t ({ w.g.addRelease .dev with signalAt := some w.g.seq }.advance w.sel))
    ∧ (∀ x, Issues (.ptsrd x) s w m → Does (.ptsrd x) s w m false fun _ => .bits w.g.pts)

/-- R230. ACQR: a rank outside the cluster is PEERWIN; with its own fence met and every victim drained, each of the victims'
groups acts as at a full fence of the device at a clock no smaller than the thief's, and the thief's clock and horizon reach every victim's.
A spilled victim's image is written again. R206, R247. LEASE asks for each line its threads name, with the largest count asked for on it
(the model's choice, log 120); it writes no register and no memory. -/
def Obligations.PromotionAndLeases : Prop :=
  (∀ (s : State) (w : View) (m : Mask) (x : SrcF),
     let ranks := (threadsOf m).map (w.n32 x.a)
     let p := max w.g.pts w.g.lmax
     Issues (.acqr x) s w m →
     ((∃ r ∈ ranks, w.tm.tpc ≤ r) → ∃ t mask info, exec (.acqr x) s = .next t ∧ TrapTaken w w.g 0x15 mask w.pc64 info t)
     ∧ ((∀ r ∈ ranks, r < w.tm.tpc) → w.g.quiet .dev = false → ∃ t, exec (.acqr x) s = .next t ∧ Holds w.s w.u t w.g)
     ∧ ((∀ r ∈ ranks, r < w.tm.tpc) → w.g.quiet .dev = true → (w.g.acqr ≠ [] ∨ w.victims ranks = []) →
       (∀ v ∈ w.victims ranks, (v.2.away = false ∨ v.2.run = .spilled) ∧ w.s.drained v.1 = true) →
       ∃ t g', exec (.acqr x) s = .next t ∧ look t.groups w.u = some g' ∧ g'.acqr = [] ∧ p ≤ g'.pts ∧ g'.ah = g'.pts
         ∧ ((∀ v ∈ w.victims ranks, v.2.run ≠ .spilled) → t.mem = w.s.mem)
         ∧ (∀ v ∈ w.victims ranks, ∀ k h, look w.s.groups k = some h → h.team = v.1 → k ≠ w.u →
             ∃ h', look t.groups k = some h' ∧ h'.pts = max (max h.pts h.lmax) p ∧ h'.ah = h'.pts ∧ h'.pts ≤ g'.pts)
         ∧ (∀ k, k < w.g.threads.length → (g'.thread k).pc = (w.g.thread k).pc + if inMask w.sel k then 12 else 0)))
  ∧ (∀ (s : State) (w : View) (m : Mask) (x : Off2),
      let addr := fun k => w.wideAddr (w.n128 x.a k) (x.off.toInt * 128) 1 false true
      let ps := (w.accsOf (Instr.lease x).uses m 1 .load addr).flatMap fun a => a.pcs
      let count := fun k => if w.n32 x.b k = 0 then 16 else min (w.n32 x.b k) 1024
      Issues (.lease x) s w m → w.accessible (Instr.lease x).uses m 1 .load addr = true →
      ∃ t l f, exec (.lease x) s = .next t ∧ t.mem = w.s.mem ∧ t.hostMem = w.s.hostMem ∧ t.teams = w.s.teams
        ∧ GroupIs t w.u { w.g.startPend (.lease x) m w.sel with
            seq := w.g.seq + 1, loads := w.g.loads ++ l, winLoad := true, reports := w.g.reports ++ f }
        ∧ (∀ r ∈ f, r.kind = 4 ∨ r.kind = 6)
        ∧ (∀ v, v ≠ w.u → look t.groups v = look w.s.groups v)
        ∧ ∀ r ∈ l, r.kind = .lease ∧ r.p = w.g.pts ∧ ∀ q ∈ r.lines, (∃ p ∈ ps, lineOf p.pa = q.line)
            ∧ ((Instr.lease x).uses.uniform = false → ∀ p ∈ ps, lineOf p.pa = q.line → count p.thr ≤ q.n))

/-- R235, R236, R248. SWARM, SWGEN and SWWAIT. A word is TARGET, COUNT, GENERATION, ARMED, OVERFLOW; arming a word whose count has
reached the target starts its next generation. That the offset of SWWAIT and SWGEN is signed is the model's choice (log 118). -/
def Obligations.SynchronisationWords : Prop :=
  ∀ (s : State) (w : View) (m : Mask),
    let at_ := fun (a : Src) (off : BitVec 6) k => ((w.n32 a k : Int) + off.toInt * 16).toNat
    let addr := fun (a : Src) (off : BitVec 6) k => scratchAddr w.g.team w.tm ((w.n32 a k : Int) + off.toInt * 16) 16 true
    let hi := fun (a : Src) (off : BitVec 6) k => readNat w.tm.scratch (at_ a off k + 8) 8
    (∀ x, Issues (.swarm x) s w m → w.accessible (Instr.swarm x).uses m 16 .store (addr x.a x.off) = true → w.g.releasePending = false →
      let arm := fun (r : Memory) k =>
        let a := at_ x.a x.off k
        let count := readNat r (a + 4) 4
        let gen := readNat r (a + 8) 4
        let b := w.n32 x.b k
        writeNat r a 16 (if count = b then b + 2 ^ 64 * ((gen + 1) % 2 ^ 32)
          else if b < count then b + 2 ^ 32 * count + 2 ^ 64 * gen + 2 ^ 97
          else b + 2 ^ 32 * count + 2 ^ 64 * gen + 2 ^ 96)
      ∃ t stamps bad past, exec (.swarm x) s = .next t
        ∧ Leaves (w.s.updTeam w.g.team fun tm =>
            { tm with scratch := (lanes (Instr.swarm x).uses m).foldl arm w.tm.scratch, stamps := stamps, scrbad := bad, past := past })
          w.u t (w.g.startPend (.swarm x) m w.sel))
    ∧ (∀ x, Issues (.swgen x) s w m → w.accessible (Instr.swgen x).uses m 16 .load (addr x.a x.off) = true →
      ∃ t l, exec (.swgen x) s = .next t ∧ w.g.lmax ≤ l
        ∧ LaneDone (.swgen x) { w with g := { w.g with lmax := l } } m false (fun k => .bits (hi x.a x.off k)) t)
    ∧ (∀ x, Issues (.swwait x) s w m → w.accessible (Instr.swwait x).uses m 16 .load (addr x.a x.off) = true →
      let met := ∀ k ∈ lanes (Instr.swwait x).uses m, hi x.a x.off k % 2 ^ 32 ≠ w.n32 x.b k ∨ (hi x.a x.off k).testBit 33 = true
      (met → w.g.reads = [] → ∃ t l, exec (.swwait x) s = .next t ∧ w.g.lmax ≤ l
        ∧ LaneDone (.swwait x) { w with g := { w.g with lmax := l, pts := max w.g.pts l } } m false (fun k => .bits (hi x.a x.off k)) t)
      ∧ (¬met → ∃ t, exec (.swwait x) s = .next t ∧ Holds w.s w.u t w.g))

/-- R189, R231, R232, R249. OBJDECL and OBJDROP. OBJDECL first loads its record, whole, as a load of its group, and waits for it;
with the record it answers the status of each case, and a record with an uncorrectable error is MEMUE (the model's reading, log 92).
The order of its failures is the model's choice (log 91), as are the handle (log 119), the lines that a tile owns (log 12) and the wait
for the load before the act (log 33); the race check of its read comes after every other check (R234, R244). Declaring and dropping expire the copies of
the object's lines, and no timestamp that a line's home has given falls. -/
def Obligations.CoherenceObjects : Prop :=
  ∀ (s : State) (w : View) (m : Mask),
    (∀ x : Objdecl,
      let addr := fun _ => w.wideAddr (w.n128 x.a (lowest m)) 0 64 false true
      let accs := w.accsOf (Instr.objdecl x).uses m 64 .load addr
      Issues (.objdecl x) s w m → w.accessible (Instr.objdecl x).uses m 64 .load addr = true →
      let need := neededLines accs (accs.flatMap w.readyBytes)
      (w.g.formRead = none → (∀ r ∈ w.g.loads, r.kind ≠ .form) → w.loadBlocked accs = false →
        (∀ q ∈ need, w.s.isRemote q.line = false ∧ w.s.lineLost w.cx.zone q.leaf q.line = false) →
        (∃ q ∈ need, w.l1Hit q.leaf q.line = none) → ∃ t l r, exec (.objdecl x) s = .next t ∧ t.mem = w.s.mem ∧ w.g.lmax ≤ l
          ∧ GroupIs t w.u { w.g with seq := w.g.seq + 1, lmax := l, winLoad := true, loads := w.g.loads ++ [r] }
          ∧ r.kind = .form ∧ r.id = w.g.seq ∧ r.p = w.g.pts ∧ r.lines.map (·.line) = need.map (·.line))
      ∧ (∀ bs, w.g.formRead = some (bs, true) → ∃ t, exec (.objdecl x) s = .next t
          ∧ TrapTaken w w.g 0x41 m w.pc64 0 t)
      ∧ (∀ bs sh, w.g.formRead = some (bs, false) → Shape.read bs false = some sh → sh.lineRows = false → ∃ t, exec (.objdecl x) s = .next t
          ∧ TrapTaken w w.g 0x31 m w.pc64 (w.n128 x.a (lowest m) % 2 ^ 64) t)
      ∧ ∀ bs s1, w.g.formRead = some (bs, false) → w.Passes accs false s1 →
        let answers := fun (s2 : State) (d : Nat) => ∃ t, exec (.objdecl x) s = .next t ∧ Answers (.objdecl x) w m s2 d t
        (Shape.read bs false = none → answers s1 (2 ^ 63 + 4))
        ∧ ∀ sh, Shape.read bs false = some sh →
          (sh.lineRows = true → 512 < sh.tileLines → answers s1 (2 ^ 63 + 4))
          ∧ (sh.lineRows = true → sh.tileLines ≤ 512 →
            View.walkBehind { w with s := s1 } .load ((List.range sh.ntile).flatMap sh.lineVas) = false →
            let s2 := View.installQuiet { w with s := s1 } .load ((List.range sh.ntile).flatMap sh.lineVas)
            let tiles := View.objTiles { w with s := s2 } sh
            let zn := w.cx.zone
            let mine := s2.objs.filter fun o => o.2.zone == zn
            let lines := tiles.flatten.map (·.1)
            (s2.freeHandle = none → answers s2 (2 ^ 63 + 1))
            ∧ ∀ h, s2.freeHandle = some h →
              ((s2.zoneOf zn).oquotaNow ≤ mine.length → answers s2 (2 ^ 63 + 2))
              ∧ (mine.length < (s2.zoneOf zn).oquotaNow →
                ((∃ o ∈ mine, ∃ ls ∈ o.2.tiles, ∃ l ∈ ls, l ∈ lines) → answers s2 (2 ^ 63 + 3))
                ∧ ((∀ o ∈ mine, ∀ ls ∈ o.2.tiles, ∀ l ∈ ls, l ∉ lines) →
                  let own := ownTiles tiles
                  ∃ t, exec (.objdecl x) s = .next t ∧ Answers (.objdecl x) w m (s2.placeObj zn h x.race tiles) h t
                    ∧ look t.objs h = some { zone := zn, race := x.race, tiles := own.map fun l => l.map (·.1)
                                             leafs := own.map fun l => l.map (·.2), rstat := [] }
                    ∧ t.l1 = (s2.expireLines zn lines).l1 ∧ t.mem = s2.mem
                    ∧ ((look s2.zones zn).isSome = true → ∀ l ∈ own, ∀ y ∈ l,
                        (s2.homeRec zn (s2.lineHome zn y) y.1).rts ≤ (t.homeRec zn (s2.lineHome zn y) y.1).rts)))))
    ∧ (∀ x : SdA, Issues (.objdrop x) s w m →
      let h := w.n64 x.a (lowest m)
      (∀ o, look w.s.objs h = some o → o.zone = w.cx.zone → ∃ t, exec (.objdrop x) s = .next t
          ∧ Answers (.objdrop x) w m (w.s.dropObj h) 0 t ∧ t.objs = del w.s.objs h
          ∧ t.l1 = (w.s.expireLines o.zone o.tiles.flatten).l1 ∧ t.mem = w.s.mem)
      ∧ ((∀ o, look w.s.objs h = some o → o.zone ≠ w.cx.zone) → ∃ t, exec (.objdrop x) s = .next t ∧ Answers (.objdrop x) w m w.s 1 t))

/-! ## Class 0x7 -/

/-- R253, R254, R274, R275, R278. The forms on accumulator tiles that no operation owns: the word each names, in the tile store of
the group's quadrant; every other word stays. -/
def Obligations.TileForms : Prop :=
  ∀ (s : State) (w : View) (m : Mask) (q : Quad), w.store? = some q → q.tmarks = [] →
    let moved := fun (i : Instr) => (releaseS i.uses.srcs (w.g.mapThreads fun k th =>
      if inMask m k then releaseV i.uses.srcs th else th)).advance w.sel
    let leaves := fun (i : Instr) (word : Nat → Nat → Nat → W32) => ∃ t q', exec i s = .next t
      ∧ Leaves { w.s with quads := put w.s.quads w.g.quad q' } w.u t (moved i)
      ∧ q'.queue = q.queue ∧ q'.holder = q.holder ∧ q'.grants = q.grants ∧ q'.last = q.last ∧ q'.done = q.done
      ∧ ∀ n r c, n < 16 → r < 32 → c < 32 → q'.word n r c = word n r c
    (∀ x, Issues (.mxzero x) s w m → (∀ n, n < 16 → x.mask.getLsbD n = true → q.ownerOf n = none) →
      leaves (.mxzero x) fun n r c => if x.mask.getLsbD n then 0 else q.word n r c)
    ∧ (∀ x, Issues (.mxrd x) s w m → q.ownerOf x.n.toNat = none → (∀ k, inMask m k = true → w.n32 x.a k < 32) →
      Does (.mxrd x) s w m false fun k => .bits (q.word x.n.toNat k (w.n32 x.a k)).toNat)
    ∧ (∀ x, Issues (.mxwr x) s w m → q.ownerOf x.n.toNat = none → (∀ k, inMask m k = true → w.n32 x.a k < 32) →
      leaves (.mxwr x) fun n r c =>
        if n = x.n.toNat ∧ inMask m r = true ∧ c = w.n32 x.a r then BitVec.ofNat 32 (w.n32 x.b r) else q.word n r c)
    ∧ (∀ x, Issues (.mxscl x) s w m → q.ownerOf x.n.toNat = none →
      leaves (.mxscl x) fun n r c =>
        let k := if x.col then c else r
        if n = x.n.toNat ∧ inMask m k = true then
          BitVec.ofNat 32 (mulBits .f32 ⟨false, .rne, false⟩ (q.word n r c).toNat (w.rd .f32 x.a k)).1
        else q.word n r c)
    ∧ (∀ (x : Mxperm) (pick : Nat → Option Nat), Issues (.mxperm x) s w m →
      q.ownerOf x.ts.toNat = none → q.ownerOf x.td.toNat = none →
      w.n32 x.a (lowest m) % 128 = 0 → w.n32 x.a (lowest m) + 128 ≤ w.tm.scratchSize →
      (∀ i, i < 32 → ∀ j, j < 32 →
        ((readNat w.tm.scratch (w.n32 x.a (lowest m) + 4 * i) 4).testBit j = true ↔ pick i = some j)) →
      (∀ i j, i < 32 → pick i = some j → j < 32) →
      leaves (.mxperm x) fun n r c =>
        if n = x.td.toNat then
          match pick (if x.col then c else r) with
          | none => 0
          | some j => if x.col then q.word x.ts.toNat r j else q.word x.ts.toNat j c
        else q.word n r c)

/-- R256 to R258, R266, R275 to R277. The forms between tiles, operand planes and the scratchpad: which bytes are written, of the
threads that reach a byte the highest one's, and what UNPLANE gives each thread. -/
def Obligations.TileRowsAndPlanes : Prop :=
  ∀ (s : State) (w : View) (m : Mask),
    let moved := fun (i : Instr) => (releaseS i.uses.srcs (w.g.mapThreads fun k th =>
      if inMask m k then releaseV i.uses.srcs th else th)).advance w.sel
    let fits := fun (off : Int) (align n : Nat) => off % align = 0 ∧ 0 ≤ off ∧ off + n ≤ w.tm.scratchSize
    let writes := fun (i : Instr) (p : Nat → Byte → Prop) => ∃ t tm', exec i s = .next t ∧ GroupIs t w.u (moved i)
      ∧ (∀ v, v ≠ w.u → look t.groups v = look w.s.groups v) ∧ t.mem = w.s.mem ∧ t.quads = w.s.quads
      ∧ look t.teams w.g.team = some tm' ∧ ∀ o, p o (readByte tm'.scratch o)
    let rows := fun (off : Nat → Int) (n : Nat) (byte : Nat → Nat → Byte) (o : Nat) (b : Byte) =>
      b = match (threadsOf m).reverse.find? fun k => decide ((off k).toNat ≤ o ∧ o < (off k).toNat + n) with
        | some k => byte k (o - (off k).toNat)
        | none => readByte w.tm.scratch o
    (∀ (x : Mxst) (q : Quad),
      let off := fun k => (w.n32 x.a k : Int) + x.off.toInt * 128
      Issues (.mxst x) s w m → w.store? = some q → q.tmarks = [] → q.ownerOf x.n.toNat = none →
      (∀ k, inMask m k = true → fits (off k) 128 128) → w.g.releasePending = false →
      writes (.mxst x) (rows off 128 fun k j => (bytesOf 4 (q.word x.n.toNat k (j / 4)).toNat).getD (j % 4) 0))
    ∧ (∀ (x : Mxepi) (q : Quad),
      let sz := x.dt.width / 8
      let off := fun k => (w.n32 x.a k : Int) + x.off.toInt * 128
      Issues (.mxepi x) s w m → w.store? = some q → q.tmarks = [] → q.ownerOf x.n.toNat = none →
      (∀ k, inMask m k = true → fits (off k) (32 * sz) (32 * sz)) → w.g.releasePending = false →
      writes (.mxepi x) (rows off (32 * sz) fun k j => (bytesOf sz (epiConvert x.dt x.sat (epiValue
        (epiRead x.st (q.word x.n.toNat k (j / sz))) (decodeF .f32 false (w.rd .f32 x.b k)) x.relu))).getD (j % sz) 0))
    ∧ (∀ (x : PlaneF) (r j : Nat),
      let p := x.p1.toNat + 1
      let base := (w.n32 x.a (lowest m) : Int) + x.off.toInt * 128
      let block := planeBlock x.fmt p ((List.range 32).map fun k =>
        if inMask m k then decodeF x.fmt false (w.planeElem x.fmt x.b k % 2 ^ x.fmt.width) else .fin false 0 0)
      let bits := fun k => if x.fmt.isMatrixFloat then wrap p (block.1.getD k 0) else if inMask m k then elemPlanes x.fmt (w.n32 x.b k) else 0
      Issues (.plane x) s w m → fits base 128 (512 * p + if x.fmt.isMatrixFloat then 128 else 0) →
      w.n32 x.c (lowest m) = r + 32 * j → r < 32 → j < 4 → w.g.releasePending = false →
      writes (.plane x) fun o b =>
        let o' := o - base.toNat
        if base.toNat ≤ o ∧ o' < 512 * p ∧ o' % 512 / 4 = 4 * r + j then
          ∀ i, i < 8 → b.getLsbD i = (bits (8 * (o' % 4) + i)).testBit (o' / 512)
        else if x.fmt.isMatrixFloat = true ∧ o = base.toNat + 512 * p + 4 * r + j then b = BitVec.ofNat 8 block.2
        else b = readByte w.tm.scratch o)
    ∧ (∀ (x : Unplane) (r j : Nat),
      let p := x.p1.toNat + 1
      let base := (w.n32 x.a (lowest m) : Int) + x.off.toInt * 128
      let q := fun k => planeInt x.fmt p (w.tm.planeBits base.toNat p r (32 * j + k))
      let e := (readByte w.tm.scratch (base.toNat + 512 * p + 4 * r + j)).toNat
      Issues (.unplane x) s w m → fits base 128 (512 * p + if x.fmt.isMatrixFloat then 128 else 0) →
      w.n32 x.c (lowest m) = r + 32 * j → r < 32 → j < 4 →
      ∃ t l, exec (.unplane x) s = .next t ∧ w.g.lmax ≤ l
        ∧ LaneDone (.unplane x) { w with g := { w.g with lmax := l } } m false (fun k => .bits (
            if x.fmt.isMatrixFloat then
              if e = 255 then qnanF .f32
              else (roundF .f32 (.fixed .rne) false false (decide (q k < 0)) (q k).natAbs ((e : Int) - 127 - ((p : Int) - 2))).1
            else wrap 32 (q k))) t)

/-- R262, R263, R269, R272, R279 to R281. MXOP, MXWAIT, MXQRY and LEAVE of a team that holds its quadrant's tile store, and of
one that does not. MXOP waits while the queue is full; else it waits for the acceptance of its block, which MXOP_ACCEPT reads. -/
def Obligations.MatrixForms : Prop :=
  ∀ (s : State) (w : View) (m : Mask),
    let moved := fun (i : Instr) => (releaseS i.uses.srcs (w.g.mapThreads fun k th =>
      if inMask m k then releaseV i.uses.srcs th else th)).advance w.sel
    (∀ x : Mxop,
      let off := (w.n32 x.a (lowest m) : Int) + x.off.toInt * 64
      let fits := off % 64 = 0 ∧ 0 ≤ off ∧ off + 64 ≤ w.tm.scratchSize
      Issues (.mxop x) s w m →
      (w.store? = none → fits → ∃ t, exec (.mxop x) s = .next t
        ∧ TrapTaken w { w.g with mxinfo := 0x10010 } 0x21 m w.pc64 0 t)
      ∧ (∀ q, w.store? = some q → 8 ≤ q.queue.length → ∃ t, exec (.mxop x) s = .next t ∧ Holds w.s w.u t w.g)
      ∧ (∀ q, w.store? = some q → q.queue.length < 8 → off % 64 ≠ 0 → ∃ t, exec (.mxop x) s = .next t
        ∧ TrapTaken w w.g 0x12 m w.pc64 (off % 2 ^ 64).toNat t)
      ∧ (∀ q, w.store? = some q → q.queue.length < 8 → off % 64 = 0 → ¬fits → ∃ t, exec (.mxop x) s = .next t
        ∧ TrapTaken w w.g 0x14 m w.pc64 (off % 2 ^ 64).toNat t)
      ∧ (∀ q, w.store? = some q → q.queue.length < 8 → fits → ∃ t, exec (.mxop x) s = .next t
        ∧ Leaves w.s w.u t { w.g with mxpend := some ⟨x, w.s.curPc, m, w.sel, off.toNat⟩ }
        ∧ ∃ g', look t.groups w.u = some g' ∧ g'.wait = .accept))
    ∧ (∀ x, Issues (.mxwait x) s w m →
      (w.store? = none → ∃ t, exec (.mxwait x) s = .next t ∧ Leaves w.s w.u t (moved (.mxwait x)))
      ∧ (∀ q, w.store? = some q → mxWaitMet q (w.n32 x.a (lowest m)) = true →
        ∃ t, exec (.mxwait x) s = .next t ∧ Leaves w.s w.u t (moved (.mxwait x)))
      ∧ (∀ q, w.store? = some q → mxWaitMet q (w.n32 x.a (lowest m)) = false →
        ∃ t, exec (.mxwait x) s = .next t ∧ Holds w.s w.u t w.g))
    ∧ (∀ x, Issues (.mxqry x) s w m → DoesSome (.mxqry x) s w m false fun _ o =>
      (w.store? = none → o.d = 0)
      ∧ ∀ q, w.store? = some q → (x.sel.toNat = 0 → o.d = q.last) ∧ (x.sel.toNat = 1 → o.d = q.done)
        ∧ (x.sel.toNat = 2 → o.d = q.queue.length + (if q.leaveShort then 2 ^ 8 else 0) + q.balance * 2 ^ 32)
        ∧ (x.sel.toNat = 3 → BitsAre 32 (fun n => decide (n < 16) && (q.ownerOf n).isSome) o))
    ∧ (∀ x : SrcF, Issues (.leave x) s w m →
      (w.store? = none → ∃ t, exec (.leave x) s = .next t ∧ Leaves w.s w.u t (moved (.leave x)))
      ∧ ∀ q, w.store? = some q →
        let n := min (w.n32 x.a (lowest m)) (2 ^ 20 - q.balance)
        let v := rget {} w.s.govs w.tm.district
        (w.g.leave = some true → ∃ t, exec (.leave x) s = .next t ∧ Leaves w.s w.u t { moved (.leave x) with leave := none })
        ∧ (w.g.leave = some false → ∃ t, exec (.leave x) s = .next t ∧ Holds w.s w.u t w.g)
        ∧ (w.g.leave = none → n = 0 → ∃ t, exec (.leave x) s = .next t ∧ Leaves w.s w.u t (moved (.leave x)))
        ∧ (w.g.leave = none → n ≠ 0 → ∃ t, exec (.leave x) s = .next t
          ∧ Holds { w.s with govs := put w.s.govs w.tm.district { v with queue := v.queue ++ [(.leave w.u, n)] } } w.u t
              { w.g with leave := some false }))

/-! ## Class 0x9 -/

/-- R329 to R335, R350. TRAP enters the handler with the cause of its form: TRAPI saves the next instruction, BREAK itself. RETT
outside a handler does nothing; in it each live thread takes back its PC, status, pausing flag and predicates, the threads of
SR.TMASK the PC of SR.EPC; a bad SR.EPC is BTGT. -/
def Obligations.TrapsAndReturns : Prop :=
  ∀ (s : State) (w : View) (m : Mask),
    (∀ x, Issues (.trap x) s w m →
      (x.brk = false → ∃ t, exec (.trap x) s = .next t ∧ TrapTaken w (w.g.advance w.sel) 0x50 m (w.pc64 + 12) x.n.toNat t)
      ∧ (x.brk = true → ∃ t, exec (.trap x) s = .next t ∧ TrapTaken w w.g 0x51 m w.pc64 x.n.toNat t))
    ∧ (∀ x, Issues (.rett x) s w m →
      let off := (w.g.epc - w.tm.codeBase.setWidth 64).toNat
      let good := off % 12 = 0 ∧ off < w.tm.textSize
      let back : Group := { w.g.mapThreads (fun k th =>
          if th.live then
            { th with pc := if inMask w.g.tmask k ∧ good then w.tm.codeBase + BitVec.ofNat 72 off else th.fpc
                      stat := th.fstat, pausing := th.fpausing, preds := th.fpreds }
          else th) with handler := false, part := w.g.fpart }
      (w.g.handler = false → ∃ t, exec (.rett x) s = .next t ∧ Leaves w.s w.u t (w.g.advance w.sel))
      ∧ (w.g.handler = true → w.g.tmask ≠ 0 → ¬good → ∃ t, exec (.rett x) s = .next t ∧ TrapTaken w w.g 0x17 m w.pc64 off t)
      ∧ (w.g.handler = true → w.g.tmask = 0 ∨ good → w.g.heldLog = none ∨ w.cx.alogcap.toNat ≤ w.cx.alogwidx.toNat →
          ∃ t, exec (.rett x) s = .next t ∧ Leaves w.s w.u t back)
      ∧ (∀ r, w.g.handler = true → w.g.tmask = 0 ∨ good → w.g.heldLog = some r → w.cx.alogwidx.toNat < w.cx.alogcap.toNat →
          ∃ t, exec (.rett x) s = .next t
            ∧ GroupIs t w.u { back with heldLog := none, logOut := w.g.logOut ++ [(w.cx.logVa, r.bytes w.g w.tm)] }
            ∧ look t.ctxs w.tm.ctx = some { w.cx with alogwidx := w.cx.alogwidx + 1 } ∧ t.mem = w.s.mem))

/-- R75 to R77, R326 to R329, R354, R361, R417. SRRD gives each thread the register's bits; SRWR changes the register and nothing
else, read-only registers not at all; LOGRD reads the record that waits. That a write of SR.FFLAGS waits as a read does is the
model's choice (log 97). -/
def Obligations.SpecialRegisters : Prop :=
  ∀ (s : State) (w : View) (m : Mask),
    let value := fun (num k : Nat) => match num with
      | 0x00 => ((w.tm.clid * w.tm.tpc + w.tm.crank) * w.tm.gpt + w.g.gidx) * 32 + k
      | 0x01 => (w.tm.gpt - 1) * 2 ^ 8 + w.g.gidx
      | 0x02 => w.tm.graph * 2 ^ 32 + w.tm.gti
      | 0x03 => (w.tm.tpc - 1) * 2 ^ 16 + w.tm.crank
      | 0x04 => w.tm.ctx * 2 ^ 32 + w.cx.priv.code * 2 ^ 16 + w.cx.zone
      | 0x05 => w.g.quad % 4 * 2 ^ 16 + w.tm.core
      | 0x08 => w.g.pts
      | 0x09 => (w.s.zoneOf w.cx.zone).epoch
      | 0x0A => max w.cx.tlast (w.cx.baseval + w.s.now - w.cx.baseptp)
      | 0x0B => w.g.part.toNat
      | 0x0C => w.s.capgen
      | 0x10 => w.g.cause.toNat + (if w.g.handler then 2 ^ 15 else 0) + if w.g.double then 2 ^ 16 else 0
      | 0x11 => w.g.epc.toNat
      | 0x12 => w.g.tmask.toNat
      | 0x13 => w.g.tinfo.toNat
      | 0x14 => w.g.tvec.toNat
      | 0x18 => w.g.fflags.toNat
      | 0x19 => w.cx.logen.toNat + if w.cx.ftz then 2 ^ 8 else 0
      | 0x1A => w.cx.rseed.toNat
      | 0x1B => w.cx.alogbase.toNat
      | 0x1C => w.cx.alogcap.toNat + w.cx.alogwidx.toNat * 2 ^ 32 + if w.cx.alogerr then 2 ^ 48 else 0
      | 0x1D => w.g.mxinfo.toNat
      | 0x20 => w.cx.ptroot.toNat
      | _ => 0
    let idle := w.g.inflight = [] ∧ w.g.pends = []
    (∀ x, Issues (.srrd x) s w m →
      let num := x.num.toNat
      let bits := fun k => LaneOut.bits (value num k % 2 ^ x.ty.width)
      (num = 0x05 ∨ num = 0x20 → w.cx.priv = .user → ∃ t, exec (.srrd x) s = .next t ∧ TrapTaken w w.g 0x02 m w.pc64 0x242 t)
      ∧ (num = 0x18 → ¬idle → ∃ t, exec (.srrd x) s = .next t ∧ Holds w.s w.u t w.g)
      ∧ ((num = 0x05 ∨ num = 0x20 → w.cx.priv ≠ .user) → (num = 0x18 → idle) → num ≠ 0x0A → Does (.srrd x) s w m false bits)
      ∧ (num = 0x0A → ∃ t, exec (.srrd x) s = .next t
          ∧ Answers (.srrd x) w m (w.s.updCtx w.tm.ctx fun c => { c with tlast := value 0x0A 0 }) (value 0x0A 0 % 2 ^ x.ty.width) t))
    ∧ (∀ x, Issues (.srwr x) s w m →
      let num := x.num.toNat
      let v := BitVec.ofNat 64 (w.rd (if x.ty.width = 64 then .b64 else .b32) x.a (lowest m))
      let moved := fun g : Group => ((releaseS (Instr.srwr x).uses.srcs g).mapThreads fun k th =>
        if inMask m k then releaseV (Instr.srwr x).uses.srcs th else th).advance w.sel
      let group := fun g : Group => ∃ t, exec (.srwr x) s = .next t ∧ Leaves w.s w.u t (moved g)
      let ctx := fun f : Ctx → Ctx => ∃ t, exec (.srwr x) s = .next t ∧ Leaves (w.s.updCtx w.tm.ctx f) w.u t (moved w.g)
      (num = 0x20 → w.cx.priv = .user → ∃ t, exec (.srwr x) s = .next t ∧ TrapTaken w w.g 0x02 m w.pc64 0x243 t)
      ∧ (num = 0x20 → w.cx.priv ≠ .user → w.g.quiet .dev = true → ∃ t, exec (.srwr x) s = .next t
          ∧ GroupIs t w.u (moved (w.g.addRelease .dev)) ∧ t.mem = w.s.mem
          ∧ look t.ctxs w.tm.ctx = some { w.cx with ptroot := v &&& 0x00FFFFFFFFFFFF80#64 }
          ∧ look t.teams w.g.team = (look w.s.teams w.g.team).map (fun tm => { tm with relc := (tm.relc + 1) % 2 ^ 32 })
          ∧ (∀ e, e ∈ t.tlb1 ↔ e ∈ w.s.tlb1 ∧ e.ctx ≠ w.tm.ctx) ∧ (∀ e, e ∈ t.tlb2 ↔ e ∈ w.s.tlb2 ∧ e.ctx ≠ w.tm.ctx))
      ∧ (num = 0x11 → group (if w.g.handler then { w.g with epc := v } else w.g))
      ∧ (num = 0x12 → group (if w.g.handler then { w.g with tmask := v.setWidth 32 } else w.g))
      ∧ (num = 0x14 → group { w.g with tvec := v.setWidth 32 })
      ∧ (num = 0x18 → idle → group { w.g with fflags := v.setWidth 5 })
      ∧ (num = 0x18 → ¬idle → ∃ t, exec (.srwr x) s = .next t ∧ Holds w.s w.u t w.g)
      ∧ (num = 0x19 → ctx fun c => { c with ftz := v.getLsbD 8, logen := v.setWidth 5 })
      ∧ (num = 0x1A → ctx fun c => { c with rseed := v })
      ∧ (num = 0x1B → ctx fun c => { c with alogbase := v &&& 0x0FFFFFFFFFFFFFFF#64 })
      ∧ (num = 0x1C → ctx fun c => { c with alogerr := v.getLsbD 48, alogwidx := v.extractLsb' 32 16, alogcap := v.setWidth 16 })
      ∧ (num = 0x0A → w.cx.priv = .user ∨ v.toNat < value 0x0A 0 → group w.g)
      ∧ (num = 0x0A → w.cx.priv ≠ .user → value 0x0A 0 ≤ v.toNat → ctx fun c => { c with baseval := v.toNat, baseptp := w.s.now })
      ∧ (num ∉ [0x0A, 0x11, 0x12, 0x14, 0x18, 0x19, 0x1A, 0x1B, 0x1C, 0x20] → group w.g))
    ∧ (∀ x, Issues (.logrd x) s w m → ∃ t, exec (.logrd x) s = .next t ∧ Leaves w.s w.u t
        (((w.g.setS x.d.toNat (BitVec.ofNat 64 (natOfBytes (((w.g.heldLog.map fun r => r.bytes w.g w.tm).getD (bytesOf 16 0)).take 8)))).setS
          (x.d.toNat + 1) (BitVec.ofNat 64 (natOfBytes ((((w.g.heldLog.map fun r => r.bytes w.g w.tm).getD (bytesOf 16 0)).drop 8).take 8)))).advance
          w.sel))

/-- R323, R336, R347, R351 to R353. HALT, SYSC, EVWAIT and EVSIG: the status each case answers with, what it does to the team or the
event queue it names, and when it waits. HALT.resume resumes a team that has halted also where it has been stopped or spilled since. -/
def Obligations.TeamsAndEvents : Prop :=
  ∀ (s : State) (w : View) (m : Mask),
    let answers := fun (i : Instr) (s1 : State) (d : Nat) => ∃ t, exec i s = .next t ∧ Answers i w m s1 d t
    let waits := fun (i : Instr) (s1 : State) (mark : Nat) => ∃ t g', exec i s = .next t ∧ t.teams = s1.teams ∧ t.mem = s1.mem
      ∧ look t.groups w.u = some g' ∧ g'.begun = some mark ∧ g'.wait = .retry w.s.curPc .away
      ∧ ∀ k, (g'.thread k).pc = (w.g.thread k).pc
    (∀ x, Issues (.haltStop x) s w m →
      (w.teamNamed (w.n64 x.a (lowest m)) = none → answers (.haltStop x) w.s 1)
      ∧ ∀ tk tm, w.teamNamed (w.n64 x.a (lowest m)) = some (tk, tm) →
        let s1 := if tm.run = .running then w.s.updTeam tk fun tm => { tm with run := .halted } else w.s
        ((∀ v g, (v, g) ∈ w.s.groups → g.team = tk → g.stopped = true ∨ g.hasLive = false) → answers (.haltStop x) s1 0)
        ∧ (∀ v g, (v, g) ∈ w.s.groups → g.team = tk → g.stopped = false → g.hasLive = true → waits (.haltStop x) s1 tk))
    ∧ (∀ x, Issues (.haltResume x) s w m →
      (w.teamNamed (w.n64 x.a (lowest m)) = none → answers (.haltResume x) w.s 1)
      ∧ ∀ tk tm, w.teamNamed (w.n64 x.a (lowest m)) = some (tk, tm) →
        let halted := tm.run = .halted ∨ (tm.run ∈ [TeamRun.stopping, .stopped, .spilled] ∧ tm.haltRun = .halted)
        (¬halted → answers (.haltResume x) w.s 2)
        ∧ (halted → ∃ t g', exec (.haltResume x) s = .next t ∧ look t.groups w.u = some g' ∧ g'.sreg x.d.toNat = 0
          ∧ (∀ r, look w.s.teams tk = some r → look t.teams tk = some (if r.run = .halted then { r with run := .running } else { r with haltRun := .running }))
          ∧ (∀ v g, v ≠ w.u → look w.s.groups v = some g → g.team = tk → GroupIs t v { g with stopped := false, skid := 0 })
          ∧ t.mem = w.s.mem))
    ∧ (∀ x, Issues (.haltKill x) s w m →
      (w.g.begun = none → w.teamNamed (w.n64 x.a (lowest m)) = none → answers (.haltKill x) w.s 1)
      ∧ (∀ tk tm, w.g.begun = none → w.teamNamed (w.n64 x.a (lowest m)) = some (tk, tm) →
        waits (.haltKill x) (w.s.killTeam tk tm) tk
        ∧ ∀ t, exec (.haltKill x) s = .next t → ∀ v g, look w.s.groups v = some g → g.team = tk →
            ∃ g', look t.groups v = some g' ∧ ∀ k, k < g.threads.length → (g'.thread k).stat = .exited)
      ∧ (∀ tk, w.g.begun = some tk → (∀ tm, look w.s.teams tk = some tm → tm.run = .retired) → answers (.haltKill x) w.s 0)
      ∧ (∀ tk tm, w.g.begun = some tk → look w.s.teams tk = some tm → tm.run ≠ .retired → waits (.haltKill x) w.s tk))
    ∧ (∀ x, Issues (.sysc x) s w m →
      (w.cx.priv = .hyp → answers (.sysc x) w.s (2 ^ 64 - 1))
      ∧ (w.cx.priv ≠ .hyp → ∃ t g' old, exec (.sysc x) s = .next t
        ∧ Raised w.s t (if w.cx.priv = .user then w.cx.zone else 64)
            { code := 0x05, ctx := w.tm.ctx, group := w.g.gidx, arg := w.n32 x.a (lowest m), data := w.tm.graph * 2 ^ 32 + w.tm.gti }
        ∧ GroupIs t w.u { (releaseS (Instr.sysc x).uses.srcs w.g).advance w.sel with sysc := some ⟨x.d, w.sel, old⟩ }
        ∧ (∀ r ∈ old, r.2 = w.g.sreg r.1)
        ∧ look t.groups w.u = some g' ∧ g'.wait = .accept ∧ t.mem = w.s.mem))
    ∧ (∀ x, Issues (.evwait x) s w m →
      let q := if w.cx.priv = .hyp then 64 else w.cx.zone
      let given := fun (s1 : State) (lo hi : W64) => ∃ t, exec (.evwait x) s = .next t ∧ Leaves s1 w.u t
        (({ ((releaseS (Instr.evwait x).uses.srcs w.g).setS x.d.toNat lo).setS (x.d.toNat + 1) hi with evUntil := none } : Group).advance w.sel)
      (∀ e rest, rget [] w.s.evq q = e :: rest → given { w.s with evq := put w.s.evq q rest }
          (BitVec.ofNat 64 (e.code + 2 ^ 8 * e.ctx + 2 ^ 20 * e.group + 2 ^ 32 * (e.arg % 2 ^ 32))) (BitVec.ofNat 64 e.data))
      ∧ (rget [] w.s.evq q = [] → w.n32 x.a (lowest m) = 0 ∨ w.g.evUntil = some 0 → given w.s 0 0)
      ∧ (rget [] w.s.evq q = [] → w.n32 x.a (lowest m) ≠ 0 → w.g.evUntil = none → ∃ t, exec (.evwait x) s = .next t
          ∧ Holds w.s w.u t { w.g with evUntil := some (w.s.cycle + w.n32 x.a (lowest m)) }))
    ∧ (∀ x, Issues (.evsigSig x) s w m → w.g.signalsClear = true →
      let a := w.n32 x.a (lowest m)
      let q := if a.testBit 6 then 64 else a % 64
      let allowed := q = 64 ∨ (w.cx.priv = .hyp ∨ w.cx.zone = q) ∧ (look w.s.zones q).isSome = true
      let room := (rget [] w.s.evq q).length < 1024 ∧ ∀ h ∈ w.s.evHeld, h.1 ≠ q
      (¬allowed → answers (.evsigSig x) w.s 1)
      ∧ (allowed → ¬room → answers (.evsigSig x) w.s 2)
      ∧ (allowed → room → answers (.evsigSig x) { w.s with evq := put w.s.evq q (rget [] w.s.evq q ++
          [{ code := 0x06, ctx := w.tm.ctx, group := w.g.gidx, data := w.n64 x.b (lowest m) }]) } 0))
    ∧ (∀ x, Issues (.evsigAns x) s w m → w.g.signalsClear = true →
      let b := w.n64 x.b (lowest m)
      let hit := fun g : Group => g.sysc.isSome = true ∧ g.gidx = b / 2 ^ 59 ∧ ∃ tm cx, look w.s.teams g.team = some tm
        ∧ tm.graph * 2 ^ 32 + tm.gti = w.n64 x.a (lowest m) ∧ look w.s.ctxs tm.ctx = some cx ∧ (w.cx.priv = .hyp ∨ w.cx.zone = cx.zone)
      ((∀ v g, (v, g) ∈ w.s.groups → ¬hit g) → answers (.evsigAns x) w.s 1)
      ∧ (∀ v g d, (v, g) ∈ w.s.groups → hit g → (∀ k h, (k, h) ∈ w.s.groups → hit h → k = v ∧ h = g) → v ≠ w.u → g.sysc = some d →
        ∃ s1, answers (.evsigAns x) s1 0 ∧ SameMemory { w.s with groups := s1.groups } s1
          ∧ GroupIs s1 v { g.setS d.d.toNat (BitVec.ofNat 64 (b % 2 ^ 59)) with sysc := none }))

/-- R187, R306, R338, R354, R355, R360. TLBINV, FBRESP, QMAP and QUNMAP. -/
def Obligations.TlbsFaultsAndQueues : Prop :=
  ∀ (s : State) (w : View) (m : Mask),
    let answers := fun (i : Instr) (s1 : State) (d : Nat) => ∃ t, exec i s = .next t ∧ Answers i w m s1 d t
    let acts := fun (zone : Nat) => w.cx.priv = .hyp ∨ w.cx.zone = zone
    let drops := fun (i : Instr) (good : Prop) (p : TlbE → Prop) =>
      let w' := { w with g := w.g.addRelease .dev }
      (w.g.quiet .dev = false → ∃ t, exec i s = .next t ∧ Holds w.s w.u t w.g)
      ∧ (w.g.quiet .dev = true → good → ∃ t s1, exec i s = .next t ∧ Answers i w' m s1 0 t ∧ s1.mem = w.s.mem ∧ s1.groups = w.s.groups
          ∧ (∀ e, e ∈ s1.tlb1 ↔ e ∈ w.s.tlb1 ∧ ¬p e) ∧ (∀ e, e ∈ s1.tlb2 ↔ e ∈ w.s.tlb2 ∧ ¬p e))
      ∧ (w.g.quiet .dev = true → ¬good → ∃ t s1, exec i s = .next t ∧ Answers i w' m s1 1 t ∧ s1.mem = w.s.mem ∧ s1.groups = w.s.groups
          ∧ s1.tlb1 = w.s.tlb1 ∧ s1.tlb2 = w.s.tlb2)
    let live := fun (n : Nat) => n < 4096 ∧ ∃ cx, look w.s.ctxs n = some cx ∧ acts cx.zone
    (∀ x, Issues (.tlbinvVa x) s w m → drops (.tlbinvVa x) (live (w.n32 x.b (lowest m))) fun e =>
        e.ctx = w.n32 x.b (lowest m) ∧ e.vpn = w.n128 x.a (lowest m) % 2 ^ 72 / 2 ^ e.leaf.k)
    ∧ (∀ x, Issues (.tlbinvCtx x) s w m → drops (.tlbinvCtx x) (live (w.n32 x.b (lowest m))) fun e => e.ctx = w.n32 x.b (lowest m))
    ∧ (∀ x, Issues (.tlbinvZone x) s w m → drops (.tlbinvZone x) (w.n32 x.b (lowest m) ≤ 64) fun e => e.zone = w.n32 x.b (lowest m))
    ∧ (∀ x, Issues (.fbresp x) s w m →
      let a := w.n32 x.a (lowest m)
      let tag := a / 2 ^ 16 % 8 * 512 + a % 512
      (look w.s.fbuf tag = none → answers (.fbresp x) w.s 1)
      ∧ ∀ r, look w.s.fbuf tag = some r →
        (2 ≤ a / 2 ^ 24 % 4 ∨ ¬acts r.zone → answers (.fbresp x) w.s 1)
        ∧ (r.group = w.u → a / 2 ^ 24 % 4 < 2 → acts r.zone → ∃ t, exec (.fbresp x) s = .next t
          ∧ Answers (.fbresp x) { w with g := { w.g with
              queues := mapVals w.g.queues fun _ q => q.answer tag (decide (a / 2 ^ 24 % 4 = 1)) } } m
              { w.s with fbuf := del w.s.fbuf tag } 0 t)
        ∧ ∀ g pc, r.group ≠ w.u → acts r.zone → r.acc ≠ .qslice → r.log = false → look w.s.groups r.group = some g →
          g.wait = .parked pc r (some tag) →
          (a / 2 ^ 24 % 4 = 0 → ∃ s1 g', answers (.fbresp x) s1 0 ∧ s1.mem = w.s.mem
            ∧ (∀ j, look s1.fbuf j = if j = tag then none else look w.s.fbuf j)
            ∧ look s1.groups r.group = some g'
            ∧ g'.core = ({ g with queues := mapVals g.queues fun _ q => q.answer tag false } : Group).core
            ∧ g'.wait = .retry pc (if g.issuedAs = none then .again else .kept))
          ∧ (a / 2 ^ 24 % 4 = 1 → (State.view? { w.s with cur := r.group, curPc := pc }).isSome = true → ∃ s1 g', answers (.fbresp x) s1 0
            ∧ (∀ j, look s1.fbuf j = if j = tag then none else look w.s.fbuf j)
            ∧ look s1.groups r.group = some g' ∧ g'.cause = 0x11 ∧ g'.tmask = r.tmask
            ∧ g'.tinfo = BitVec.ofNat 64 (if r.acc = .fetch then pc.toNat else r.low.toNat)))
    ∧ (∀ x, Issues (.qmap x) s w m →
      let q := w.n32 x.a (lowest m) % 256
      let k := w.n32 x.a (lowest m) / 2 ^ 8 % 2 ^ 6
      let n := w.n32 x.b (lowest m)
      let e := w.s.qd q
      let good := e.valid = true ∧ acts e.zone ∧ k ∈ (w.s.zoneOf e.zone).slots ∧ live n ∧ (look w.s.ctxs n).map (·.zone) = some e.zone
      let qcb := readBytes w.s.mem (paLocal (e.qcbpa * 64)) 64
      let x1 : Slot := { queue := q, ctx := n, qcb := qcb.take 0x10 ++ bytesOf 4 e.lastw.toNat ++ qcb.drop 0x14 }
      (¬good → answers (.qmap x) w.s 1)
      ∧ (good → e.slot ≠ none ∨ look w.s.slots k ≠ none → answers (.qmap x) w.s 2)
      ∧ (good → e.slot = none → look w.s.slots k = none → w.s.lineQueued (lineOf (w.s.ownPa (e.qcbpa * 64))) = true →
        ∃ t, exec (.qmap x) s = .next t ∧ Holds w.s w.u t w.g)
      ∧ (good → e.slot = none → look w.s.slots k = none → (w.s.zoneOf e.zone).shrink = [] →
        w.s.lineQueued (lineOf (w.s.ownPa (e.qcbpa * 64))) = false →
        let bad := w.s.badLine (lineOf (w.s.ownPa (e.qcbpa * 64)))
        (bad = true ∨ w.s.backer (e.qcbpa * 64) = none → answers (.qmap x) w.s 7)
        ∧ (bad = false → (w.s.backer (e.qcbpa * 64)).isSome = true → x1.overfull = false → x1.invalid = false →
          answers (.qmap x) { w.s with slots := put w.s.slots k x1, qdir := put w.s.qdir q { e with slot := some k, pending := false } } 0)))
    ∧ (∀ x, Issues (.qunmap x) s w m →
      let q := w.n32 x.a (lowest m)
      let e := w.s.qd q
      (256 ≤ q ∨ e.valid = false ∨ ¬acts e.zone ∨ e.slot = none → answers (.qunmap x) w.s 1)
      ∧ ∀ k sl, q < 256 → e.valid = true → acts e.zone → e.slot = some k → look w.s.slots k = some sl → sl.qcb.length = 64 →
        regionOf (paLocal (e.qcbpa * 64)) ≠ .host → w.s.isCode (w.s.ownPa (e.qcbpa * 64)) = false → ∃ s1, answers (.qunmap x) s1 0
          ∧ readBytes s1.mem (paLocal (e.qcbpa * 64)) 64 = sl.qcb
          ∧ (∀ a, a < paLocal (e.qcbpa * 64) ∨ paLocal (e.qcbpa * 64) + 64 ≤ a → readByte s1.mem a = readByte w.s.mem a)
          ∧ look s1.slots k = none ∧ (s1.qd q).slot = none ∧ s1.groups = w.s.groups)

/-- R344, R356 to R359. CTXSAVE, CTXLOAD and CTXQ: alignment, the statuses, a save's wait for its teams, what a query reads.
CTXLOAD, once no accepted request waits before its reads (R400), restores what its record holds: the header's fields as the context's, each
graph block as a graph under the next identifier, each team and group block as a team and a group with their registers (`contextIs`,
`graphsAre`, `teamsAre`). The order of the record's parts and of CTXLOAD's checks is the model's choice (log 35, 36), and so is what a
restored group's entries and counters wait for (log 107), of which nothing is said here. -/
def Obligations.ContextForms : Prop :=
  let contextIs := fun (h : List Byte) (s1 : State) (now : Nat) =>
    let f := fieldOf h
    ∃ c, look s1.ctxs (f 0x20 2) = some c ∧ c.zone = f 0x22 1 ∧ c.priv = (if f 0x23 1 = 1 then .sup else .user) ∧ c.cls = f 0x24 1
      ∧ c.drain = f 0x26 2 ∧ c.slice = f 0x28 2 ∧ c.ptroot = BitVec.ofNat 64 (f 0x40 8) &&& 0x00FFFFFFFFFFFF80#64
      ∧ c.ftz = (f 0x48 8).testBit 8 ∧ c.logen = BitVec.ofNat 5 (f 0x48 8) ∧ c.rseed = BitVec.ofNat 64 (f 0x50 8)
      ∧ c.alogbase = BitVec.ofNat 64 (f 0x58 8) &&& 0x0FFFFFFFFFFFFFFF#64 ∧ c.alogcap = BitVec.ofNat 16 (f 0x60 2)
      ∧ c.alogwidx = BitVec.ofNat 16 (f 0x62 4 / 2 ^ 16) ∧ c.alogerr = (f 0x60 8).testBit 48
      ∧ c.trun = (f 0x68 8).testBit 63 ∧ c.baseptp = now
      ∧ c.baseval = f 0x68 8 % 2 ^ 63 + (if (f 0x68 8).testBit 63 then now - f 0x70 8 else 0)
      ∧ c.spill = BitVec.ofNat 72 (f 0x78 8 + 2 ^ 64 * f 0x80 1) ∧ c.spillsz = f 0x88 8
  let graphsAre := fun (bs : List Byte) (n next : Nat) (s1 : State) => ∀ go : Nat → Nat,
    go 0 = fieldOf bs 0x98 8 → (∀ i, go (i + 1) = go i + 64 + 16 * fieldOf bs (go i + 6) 2) →
    ∀ i, i < fieldOf bs 0x2A 2 →
      let f := fieldOf (bs.drop (go i))
      let failed := (f 5 1).testBit 0
      ∃ g, look s1.graphs ((next + 1 + i) % 2 ^ 32) = some g ∧ g.ctx = n ∧ g.queue = f 4 1 ∧ g.prio = f 0x11 1
        ∧ g.base = BitVec.ofNat 72 (f 8 8 + 2 ^ 64 * f 0x10 1) ∧ g.done = BitVec.ofNat 72 (f 0x18 8 + 2 ^ 64 * f 0x10 1)
        ∧ g.tag = f 0x20 8 ∧ g.nrun = f 0x16 2 ∧ g.fail = (if failed then some (f 0x12 2, f 0x14 2) else none)
        ∧ (failed = false → g.nodes.length = f 6 2)
        ∧ ∀ k x, g.nodes[k]? = some x →
            let n := fun o => f (0x40 + 16 * k + o)
            x.count = n 0 2 ∧ x.gotRun = (n 3 1 != 0) ∧ x.iter = n 4 4 ∧ x.nextClu = n 8 4
            ∧ (n 2 1 = 2 → x.st = .running) ∧ (n 2 1 = 3 → x.st = .retired) ∧ (n 2 1 = 4 → x.st = .skipped)
            ∧ (n 2 1 < 2 → x.st = .waiting ∨ x.st = .chosen)
  let groupIs := fun (same : Prop) (b : List Byte) (base : VA) (g : Group) =>
    let f := fieldOf b
    let regs := f 0x0C 2
    g.regs = regs ∧ (same → f 0x10 8 ≤ g.pts) ∧ g.tvec = BitVec.ofNat 32 (f 0x30 8) ∧ g.cause = BitVec.ofNat 8 (f 0x38 1)
      ∧ g.double = (f 0x38 8).testBit 16 ∧ g.epc = BitVec.ofNat 64 (f 0x40 8) ∧ g.tmask = BitVec.ofNat 32 (f 0x48 8)
      ∧ g.tinfo = BitVec.ofNat 64 (f 0x50 8) ∧ g.mxinfo = BitVec.ofNat 64 (f 0x58 8) ∧ g.fflags = BitVec.ofNat 5 (f 0x28 8)
      ∧ g.handler = (f 9 1).testBit 0 ∧ g.sysc.isSome = (f 9 1).testBit 1 ∧ g.stopped = (f 9 1).testBit 2 ∧ g.skid = f 0x64 4
      ∧ g.heldLog.isSome = (f 9 1).testBit 3
      ∧ g.part = BitVec.ofNat 3 (f 0x0F 1) ∧ g.fpart = BitVec.ofNat 3 (f 0x0F 1 / 16) ∧ g.sbuf.length = f 0x0E 1
      ∧ (∀ n, n < 64 → g.sreg n = BitVec.ofNat 64 (f (0x140 + 8 * n) 8)) ∧ (∀ n, n < 16 → g.hreg n = BitVec.ofNat 64 (f (0xC0 + 8 * n) 8))
      ∧ ∀ k, k < 32 →
          let th := g.thread k
          th.preds = BitVec.ofNat 7 (f (0x4C0 + k) 1) ∧ th.fpreds = BitVec.ofNat 7 (f (0x760 + k) 1)
          ∧ th.rctr = BitVec.ofNat 64 (f (0x4E0 + 8 * k) 8)
          ∧ (f (0x440 + 4 * k) 4 % 8 ≠ 1 → th.pc = base + BitVec.ofNat 72 (f (0x340 + 8 * k) 8))
          ∧ (f (0x440 + 4 * k) 4 % 8 = 0 → th.stat = .run) ∧ (f (0x440 + 4 * k) 4 % 8 = 6 → th.stat = .exited)
          ∧ (f (0x6E0 + 4 * k) 4 % 8 ≠ 1 → th.fpc = base + BitVec.ofNat 72 (f (0x5E0 + 8 * k) 8))
          ∧ ∀ n, n < regs → th.vreg n = BitVec.ofNat 32 (f (2048 + 1600 * f 0x0E 1 + 128 * n + 4 * k) 4)
  let teamsAre := fun (bs : List Byte) (n : Nat) (same : Prop) (s1 : State) => ∀ i, i < fieldOf bs 0x2C 4 →
    let b := bs.drop (fieldOf bs (fieldOf bs 0x90 8 + 8 * i) 8)
    let f := fieldOf b
    ∃ tk tm, look s1.teams tk = some tm ∧ tm.ctx = n ∧ tm.node = f 0x2C 2 ∧ tm.clid = f 0x28 4 ∧ tm.crank = f 0x2E 1
      ∧ tm.outmask = f 0x1B 1 ∧ tm.relc = f 0x24 4 ∧ tm.scratchSize = f 0x20 4 ∧ tm.gpt = f 0x1E 2
      ∧ (∀ j, j < f 0x20 4 → readByte tm.scratch j = b.getD (f 0x30 8 + j) 0)
      ∧ (∀ n, n < 16 → (rget {} tm.bars n).phase = (f (0x50 + 8 * n) 8).testBit 32
          ∧ ∀ u, u ∈ (rget {} tm.bars n).arrived ↔ u < 32 ∧ (f (0x50 + 8 * n) 8).testBit u = true)
      ∧ ∀ go : Nat → Nat, go 0 = f 0x48 8 → (∀ j, go (j + 1) = go j + f (go j) 8) → ∀ j, j < f 0x1E 2 →
          ∃ u g, look s1.groups u = some g ∧ g.team = tk ∧ g.gidx = j ∧ groupIs same (b.drop (go j)) tm.codeBase g
  ∀ (s : State) (w : View) (m : Mask),
    let answers := fun (i : Instr) (s1 : State) (d : Nat) => ∃ t, exec i s = .next t ∧ Answers i w m s1 d t
    let acts := fun (zone : Nat) => w.cx.priv = .hyp ∨ w.cx.zone = zone
    (∀ x, Issues (.ctxsave x) s w m →
      let a := w.n128 x.a (lowest m)
      let n := w.n32 x.b (lowest m)
      (a % 4096 ≠ 0 → ∃ t, exec (.ctxsave x) s = .next t ∧ TrapTaken w w.g 0x12 m w.pc64 (a % 2 ^ 64) t)
      ∧ (a % 4096 = 0 → look w.s.ctxs n = none → answers (.ctxsave x) w.s 1)
      ∧ ∀ c, a % 4096 = 0 → look w.s.ctxs n = some c →
        (w.g.begun = none → ¬acts c.zone ∨ 4096 ≤ n ∨ n = 0 → answers (.ctxsave x) w.s 1)
        ∧ (w.g.begun = none → acts c.zone → n < 4096 → n ≠ 0 → n = w.tm.ctx ∨ w.s.ctxStopping n c = true ∨ (∃ k ∈ w.s.slots, k.2.ctx = n) →
            answers (.ctxsave x) w.s 2)
        ∧ (w.g.begun = none → acts c.zone → n < 4096 → n ≠ 0 → n ≠ w.tm.ctx → w.s.ctxStopping n c = false → (∀ k ∈ w.s.slots, k.2.ctx ≠ n) →
            (∀ g ∈ w.s.graphs, g.2.ctx = n → ∀ y ∈ g.2.nodes, y.again = []) →
            ∃ t g', exec (.ctxsave x) s = .next t ∧ look t.groups w.u = some g' ∧ g'.begun = some n ∧ t.mem = w.s.mem
              ∧ look t.ctxs n = some { c with saver := some w.u }
              ∧ ∀ tk tm, look w.s.teams tk = some tm → tm.ctx = n → tm.live = true → tm.run = .running →
                  (look t.teams tk).map (·.run) = some .stopping)
        ∧ (∀ k, w.g.begun = some k → w.s.ctxStopped n = true → ∀ s1 st, w.saveNow n c x.n.toNat (BitVec.ofNat 72 a) (w.n64 x.c (lowest m)) =
            some (s1, st) → look s1.groups w.u = look w.s.groups w.u → answers (.ctxsave x) s1 st))
    ∧ (∀ x, Issues (.ctxload x) s w m →
      let a := w.n128 x.a (lowest m)
      (a % 4096 ≠ 0 → ∃ t, exec (.ctxload x) s = .next t ∧ TrapTaken w w.g 0x12 m w.pc64 (a % 2 ^ 64) t)
      ∧ (a % 4096 = 0 → w.s.held ≠ [] → ∃ t, exec (.ctxload x) s = .next t ∧ Holds w.s w.u t w.g)
      ∧ (∀ st, a % 4096 = 0 → w.s.held = [] → w.loadCtx (BitVec.ofNat 72 a) = .error st → w.loadWaits (BitVec.ofNat 72 a) st = false →
          answers (.ctxload x) w.s st)
      ∧ (∀ st, a % 4096 = 0 → w.s.held = [] → w.loadCtx (BitVec.ofNat 72 a) = .error st → w.loadWaits (BitVec.ofNat 72 a) st = true →
          ∃ t, exec (.ctxload x) s = .next t ∧ Holds w.s w.u t w.g)
      ∧ (∀ s1, a % 4096 = 0 → w.s.held = [] → w.loadCtx (BitVec.ofNat 72 a) = .ok s1 → look s1.groups w.u = look w.s.groups w.u →
          answers (.ctxload x) s1 0)
      ∧ ∀ s1 h bs, w.loadCtx (BitVec.ofNat 72 a) = .ok s1 → w.s.exRead w.cx (BitVec.ofNat 72 a) 512 = .ok h →
          w.s.exRead w.cx (BitVec.ofNat 72 a) (fieldOf h 0x18 8) = .ok bs →
          contextIs h s1 w.s.now ∧ graphsAre bs (fieldOf h 0x20 2) w.s.nextGraph s1
          ∧ ((∀ y ∈ w.s.teams, y.1 < w.s.uid) → (∀ y ∈ w.s.groups, y.1 < w.s.uid ∧ y.2.team < w.s.uid) →
              teamsAre bs (fieldOf h 0x20 2) ((look w.s.zones (fieldOf h 0x22 1)).map (·.epoch) = some (fieldOf h 0x34 4)) s1))
    ∧ (∀ x, Issues (.ctxq x) s w m →
      let n := w.n32 x.a (lowest m)
      (4096 ≤ n ∨ look w.s.ctxs n = none → answers (.ctxq x) w.s (2 ^ 64 - 1))
      ∧ ∀ c, look w.s.ctxs n = some c → n < 4096 →
        (¬acts c.zone → answers (.ctxq x) w.s (2 ^ 64 - 1))
        ∧ (acts c.zone →
          (x.sel.toNat = 0 → answers (.ctxq x) w.s ((if w.s.ctxStopping n c then 2 else if w.s.ctxGated n then 1 else 0)
            + 2 ^ 16 * ((w.s.teams.filter fun t => t.2.ctx == n && t.2.run != .retired && t.2.run != .spilled).length % 2 ^ 32)))
          ∧ (x.sel.toNat = 1 → answers (.ctxq x) w.s (w.s.ctxRecord n c).1.length)
          ∧ (x.sel.toNat = 2 → answers (.ctxq x) w.s (w.s.privNeed n))
          ∧ (x.sel.toNat = 3 → answers (.ctxq x) w.s (c.drain + 2 ^ 16 * c.slice))
          ∧ (x.sel.toNat = 4 → answers (.ctxq x) w.s (c.zone + 2 ^ 8 * c.priv.code + 2 ^ 16 * c.cls))))

/-! ## Class 0x8, graphs and streams -/

/-- R229, R296, R315 to R320. CPSTAT, OUTRDY, TCOND, TDONE, TSPAWN and TQRY. A TSPAWN waits while what the Exchange writes for its packet has to wait
at its home (R400, R403). The identifier that a NOP TSPAWN answers with is a free value (log 15), that the form acts when its packet's
load has ended the model's choice (log 33), and an uncorrectable packet is MEMUE as the model reads it (log 92). -/
def Obligations.TaskForms : Prop :=
  ∀ (s : State) (w : View) (m : Mask),
    let answers := fun (i : Instr) (s1 : State) (d : Nat) => ∃ t, exec i s = .next t ∧ Answers i w m s1 d t
    (∀ x, Issues (.cpstat x) s w m → DoesSome (.cpstat x) s w m false fun _ o =>
      let i := x.i.toNat
      (w.tm.task = false → o.d = 0)
      ∧ (w.tm.task = true →
        (w.tm.inputs[i]? = none → o.d = 2 ^ 63 + 0x0305 * 2 ^ 32)
        ∧ (∀ n v, w.tm.inputs[i]? = some (n, some v) → o.d = v.toNat)
        ∧ (∀ n c, w.tm.inputs[i]? = some (n, none) → (w.s.copies.find? fun c => c.2.team == w.g.team && c.2.input == i) = some c →
            o.d = c.2.bytes % 2 ^ 64)))
    ∧ (∀ x, Issues (.outrdy x) s w m →
      (w.g.signalsClear = false → ∃ t, exec (.outrdy x) s = .next t ∧ Holds w.s w.u t w.g)
      ∧ (w.g.signalsClear = true → w.tm.task = true → x.i.toNat < w.tm.nout → ∃ t, exec (.outrdy x) s = .next t
        ∧ Leaves (w.s.updTeam w.g.team fun tm => { tm with outmask := tm.outmask ||| 2 ^ x.i.toNat }) w.u t (w.g.advance w.sel))
      ∧ (w.g.signalsClear = true → w.tm.task = false ∨ w.tm.nout ≤ x.i.toNat → ∃ t, exec (.outrdy x) s = .next t
        ∧ Leaves w.s w.u t (w.g.advance w.sel)))
    ∧ (∀ x, Issues (.tcond x) s w m →
      (w.graph? = none → answers (.tcond x) w.s 0)
      ∧ ∀ g, w.graph? = some g →
        let n := x.n.toNat
        let addr := fun (_ : Nat) => w.wideAddr (g.addr ((g.node n).fld 0x20 8)).toNat 0 8 false true
        let accs := w.accsOf (Instr.tcond x).uses m 8 .store addr
        (g.nodes.length ≤ n → answers (.tcond x) w.s 1)
        ∧ (n < g.nodes.length → (g.node n).kind ≠ 1 → (g.node n).kind ≠ 2 → answers (.tcond x) w.s 2)
        ∧ ∀ s1, n < g.nodes.length → (g.node n).kind = 1 ∨ (g.node n).kind = 2 → w.accessible (Instr.tcond x).uses m 8 .store addr = true →
          (∀ a ∈ accs, ∀ p ∈ a.pcs, w.s.isRemote (lineOf p.pa) = true ∨ isRegLine (lineOf p.pa) = false) → w.Passes accs true s1 →
          w.g.sbuf.length < 16 →
          let older := fun b : Nat × Byte => accs.any fun a => a.pcs.any fun p => lineOf p.pa == lineOf b.1
          (w.g.pdirty.any older = true → ∃ t g', exec (.tcond x) s = .next t ∧ look t.groups w.u = some g'
            ∧ g'.sbuf.length = w.g.sbuf.length + 1 ∧ g'.pdirty = w.g.pdirty.filter fun b => !older b)
          ∧ (w.g.pdirty.any older = false → ∃ t, exec (.tcond x) s = .next t
            ∧ Answers (.tcond x) { w with g := { w.g with
                seq := w.g.seq + 1
                sbuf := w.g.sbuf ++ [{ id := w.g.seq, sem := .rlx, scope := .dev, tcond := true
                                       parts := globParts accs fun _ _ => .store (bytesOf 8 (w.n64 x.a (lowest m))) }] } } m s1 0 t))
    ∧ (∀ x, Issues (.tdone x) s w m →
      let a := w.n32 x.a (lowest m) % 2 ^ 15
      (w.g.signalsClear = false → ∃ t, exec (.tdone x) s = .next t ∧ Holds w.s w.u t w.g)
      ∧ (w.g.signalsClear = true → ∃ t, exec (.tdone x) s = .next t ∧ Leaves (if w.tm.task = true ∧ a ≠ 0 then w.s.nodeStatus w.tm.graph w.tm.node (0x8000 + a) else w.s)
        w.u t ((releaseS (Instr.tdone x).uses.srcs w.g).advance w.sel)))
    ∧ (∀ x, Issues (.tspawn x) s w m →
      let ready := w.g.signalsClear = true ∧ w.s.zoneQueued w.cx.zone = false
      (¬ready → ∃ t, exec (.tspawn x) s = .next t ∧ Holds w.s w.u t w.g)
      ∧ (ready → w.tm.task = false → answers (.tspawn x) w.s (2 ^ 63 + 3))
      ∧ (ready → w.tm.task = true →
        let addr := fun (_ : Nat) => w.wideAddr (w.n128 x.a (lowest m)) 0 64 false true
        let accs := w.accsOf (Instr.tspawn x).uses m 64 .load addr
        let need := neededLines accs (accs.flatMap w.readyBytes)
        ∀ s1, w.accessible (Instr.tspawn x).uses m 64 .load addr = true → w.Passes accs false s1 →
        (w.g.formRead = none → (∀ r ∈ w.g.loads, r.kind ≠ .form) → w.loadBlocked accs = false →
          (∀ q ∈ need, w.s.isRemote q.line = false ∧ w.s.lineLost w.cx.zone q.leaf q.line = false) →
          (∃ q ∈ need, w.l1Hit q.leaf q.line = none) → ∃ t l r, exec (.tspawn x) s = .next t ∧ t.mem = w.s.mem ∧ w.g.lmax ≤ l
            ∧ GroupIs t w.u { w.g with seq := w.g.seq + 1, lmax := l, winLoad := true, loads := w.g.loads ++ [r] }
            ∧ r.kind = .form ∧ r.id = w.g.seq ∧ r.p = w.g.pts ∧ r.lines.map (·.line) = need.map (·.line))
        ∧ (∀ bs, w.g.formRead = some (bs, true) → ∃ t, exec (.tspawn x) s = .next t
            ∧ TrapTaken { w with s := s1 } w.g 0x41 m w.pc64 0 t)
        ∧ ∀ bs gr, w.g.formRead = some (bs, false) → look s1.graphs w.tm.graph = some gr →
          let done := fun (s2 : State) (d : Nat) => ∃ t, exec (.tspawn x) s = .next t ∧ Answers (.tspawn x) w m s2 d t
          let e := s1.qd gr.queue
          let stopped := match e.slot.bind fun k => look s1.slots k with
            | some sl => sl.error
            | none => e.error
          let valid := packetOk bs = true ∧ packetFence bs = false
          (View.spawnHeld { w with s := s1 } bs = true → ∃ t, exec (.tspawn x) s = .next t ∧ Holds s1 w.u t w.g)
          ∧ (View.spawnHeld { w with s := s1 } bs = false →
          (¬valid → done s1 (2 ^ 63 + 1))
          ∧ (valid → stopped = true ∨ 256 ≤ s1.infl gr.queue → done s1 (2 ^ 63 + 2))
          ∧ (valid → stopped = false → s1.infl gr.queue < 256 → fieldOf bs 0 1 = 1 → ∃ s2 g',
            done s2 ((s1.nextGraph + 1) % 2 ^ 32) ∧ s2.nextGraph = (s1.nextGraph + 1) % 2 ^ 32
              ∧ look s2.graphs ((s1.nextGraph + 1) % 2 ^ 32) = some g' ∧ g'.ctx = w.tm.ctx ∧ g'.queue = gr.queue ∧ g'.tag = fieldOf bs 0x20 8)
          ∧ (valid → stopped = false → s1.infl gr.queue < 256 → fieldOf bs 0 1 ≠ 1 → ∃ s2 id, done s2 id ∧ s2.graphs = s1.graphs))))
    ∧ (∀ x, Issues (.tqry x) s w m → Does (.tqry x) s w m false fun _ => .bits (match w.graph? with
      | none => 0
      | some g => match x.sel.toNat with
        | 0 => w.tm.node + w.tm.graph * 2 ^ 16
        | 1 => w.tm.clid
        | 2 => (g.node w.tm.node).nclu
        | 3 => w.tm.gti
        | 4 => g.queue + w.tm.prio * 2 ^ 8
        | 5 => g.front + (g.node w.tm.node).stage * 2 ^ 8
        | 6 => ((g.innermost w.tm.node).map fun n => (g.node n).iter).getD 0
        | _ => wrap 64 (w.s.zoneOf w.cx.zone).bal))

/-- R300 to R303, R321. ASTART empties and ends every queue and opens a slice; ALOOP and ASTRM fill it; AEND starts its streams, or
takes the trap of a stream that is misaligned or out of range; a read from global memory waits as a load does (R400, R406). STREAM_START and STREAM_READ: a channel; one element for each
thread at the queue's end, from the scratchpad at once, from global memory by a load with the clock of the AEND. -/
def Obligations.AccessSlices : Prop :=
  (∀ (s : State) (w : View) (m : Mask),
    let leaves := fun (i : Instr) (g : Group) => ∃ t, exec i s = .next t ∧ Leaves w.s w.u t ((releaseS i.uses.srcs g).advance w.sel)
    (∀ x, Issues (.astart x) s w m → ∃ t, exec (.astart x) s = .next t
      ∧ Leaves (w.s.dropWaits [(w.u, w.g)] false) w.u t (({ w.g with
          slice := some {}
          loads := w.g.loads.filter fun r => !r.kind.streams
          queues := mapVals w.g.queues fun _ q => { q with
            ended := true, entries := [], stream := none, stop := none, poison := 0, waits := false, chan := none } } : Group).advance w.sel))
    ∧ (∀ x, Issues (.aloop x) s w m → leaves (.aloop x) { w.g with
        slice := w.g.slice.map fun d => { d with trips := setAt d.trips x.lvl.toNat fun _ => w.n32 x.a (lowest m) } })
    ∧ (∀ x, Issues (.astrm x) s w m → leaves (.astrm x) { w.g with slice := w.g.slice.map fun d => { d with
        streams := put d.streams x.q.toNat
          { sp := x.sp, w64 := x.ty.width == 64, base := if x.sp then w.n32 x.a (lowest m) else w.n128 x.a (lowest m)
            strides := (List.range 4).map fun j => (BitVec.ofNat 32 (w.tm.constNat 0 (4 * (x.m.toNat + j)) 4)).toInt
            ts := (BitVec.ofNat 32 (w.tm.constNat 0 (4 * (x.m.toNat + 4)) 4)).toInt } } })
    ∧ (∀ x, Issues (.aend x) s w m →
      let d := w.g.slice.getD {}
      let wrong := fun p : Nat × Stream =>
        let n : Int := if p.2.w64 then 8 else 4
        ¬((p.2.base : Int) % n = 0 ∧ (∀ k ∈ p.2.strides, k % n = 0) ∧ p.2.ts % n = 0)
      let far := fun p : Nat × Stream => p.2.sp = false ∧ 2 ^ 72 ≤ p.2.base
      let traps := fun (p : Nat × Stream) (code : Nat) => ∃ t, exec (.aend x) s = .next t
        ∧ TrapTaken w w.g code m w.pc64 (low64 (p.2.addr (lowest m))) t
      ((∃ p ∈ d.streams, wrong p) → ∃ p ∈ d.streams, wrong p ∧ traps p 0x12)
      ∧ ((∀ p ∈ d.streams, ¬wrong p) → (∃ p ∈ d.streams, far p) → ∃ p ∈ d.streams, far p ∧ traps p 0x11)
      ∧ ((∀ p ∈ d.streams, ¬wrong p ∧ ¬far p) → ∃ t qs, exec (.aend x) s = .next t
        ∧ Leaves w.s w.u t (({ w.g with slice := none, queues := qs, seq := w.g.seq + 1
                                        winLoad := w.g.winLoad || d.streams.any fun p => !p.2.sp } : Group).advance w.sel)
        ∧ (∀ k, (∀ p ∈ d.streams, p.1 ≠ k) → look qs k = look w.g.queues k)
        ∧ ∀ pre n st post, d.streams = pre ++ (n, st) :: post → (∀ p ∈ post, p.1 ≠ n) → ∃ q, look qs n = some q ∧ q.bound = true
            ∧ q.width = (if st.w64 then 64 else 32) ∧ q.entries = []
            ∧ (0 ∈ d.trips → q.ended = true ∧ q.stream = none)
            ∧ (0 ∉ d.trips → q.ended = false ∧ q.waits = true ∧ q.stream = some { st with trips := d.trips, pts := w.g.pts, seq := w.g.seq }))))
  ∧ (∀ (s : State) (u n : Nat) (g : Group) (tm : Team) (q : OpQueue), look s.groups u = some g → look g.queues n = some q →
      look s.teams g.team = some tm →
      (∀ c, q.waits = true → s.streamChannel g tm (s.zoneNum g) = some c → ∃ t, exec (.streamStart u n) s = .next t
        ∧ Leaves s u t { g with queues := put g.queues n { q with waits := false, chan := some c } })
      ∧ (q.waits = false ∨ s.streamChannel g tm (s.zoneNum g) = none → exec (.streamStart u n) s = .next s)
      ∧ ∀ st cx, q.stream = some st → look s.ctxs tm.ctx = some cx → q.waits = false → q.stop = none → q.poison = 0 → st.sp = true →
          q.entries.length < (if st.w64 then 64 else 128) → (∀ l ∈ g.loads, st.seq ≤ l.id ∧ l.kind ≠ .stream n) → g.hasLive = true →
          tm.run = .running ∨ tm.run = .halted → tm.scrbad = [] →
          let bytes : Nat := if st.w64 then 8 else 4
          let at_ := fun k : Nat => (st.base : Int) + ((List.range 4).map fun d => ((st.next.getD d 0 : Nat) : Int) * st.strides.getD d 0).sum
            + (k : Int) * st.ts
          ((∀ k, k < 32 → 0 ≤ at_ k ∧ at_ k + bytes ≤ tm.scratchSize) → ∃ t g' q', exec (.streamRead u n) s = .next t
            ∧ look t.groups u = some g' ∧ look g'.queues n = some q'
            ∧ q'.entries = q.entries ++ [((List.range 32).map fun k => readNat tm.scratch (at_ k).toNat bytes, 0)]
            ∧ g'.threads.map Thread.bare = g.threads.map Thread.bare ∧ g.lmax ≤ g'.lmax ∧ t.mem = s.mem)
          ∧ ((∃ k, k < 32 ∧ ¬(0 ≤ at_ k ∧ at_ k + bytes ≤ tm.scratchSize)) → ∃ t g' q' mask info, exec (.streamRead u n) s = .next t
            ∧ look t.groups u = some g' ∧ look g'.queues n = some q' ∧ q'.entries = q.entries ∧ q'.stop = some (.trap 0x14 mask info)))
  ∧ (∀ (s : State) (u n : Nat) (w : View) (q : OpQueue) (st : Stream), State.view? { s with cur := u } = some w →
      look w.g.queues n = some q → q.stream = some st → q.waits = false → q.stop = none → q.poison = 0 → st.sp = false →
      q.entries.length < (if st.w64 then 64 else 128) → (∀ l ∈ w.g.loads, st.seq ≤ l.id ∧ l.kind ≠ .stream n) → w.g.hasLive = true →
      w.tm.run = .running ∨ w.tm.run = .halted →
      let va := fun k : Nat => BitVec.ofInt 72 (st.addr k)
      ((∃ k, k < 32 ∧ isWindow (va k) = true) → ∃ t g' q' mask info, exec (.streamRead u n) s = .next t
        ∧ look t.groups u = some g' ∧ look g'.queues n = some q' ∧ q'.entries = q.entries ∧ q'.stop = some (.trap 0x11 mask info))
      ∧ ((∀ k, k < 32 → isWindow (va k) = false ∧ ∃ pa leaf, w.translateQuiet (va k) .qslice = some (pa, leaf)
            ∧ w.s.refusedPa leaf pa = false ∧ isRegLine (lineOf pa) = false ∧ leaf.unc = false) → w.g.sbuf = [] → w.g.fly = [] →
          w.facqWaits = false → w.s.objs = [] → w.walkBehind .qslice ((List.range 32).map va) = false →
          ∃ t g', exec (.streamRead u n) s = .next t ∧ t.mem = s.mem ∧ look t.groups u = some g' ∧ g'.seq = w.g.seq + 1
            ∧ ((∃ r ∈ g'.loads, r.kind = .stream n ∧ r.id = w.g.seq ∧ r.p = st.pts)
              ∨ ∃ q', look g'.queues n = some q' ∧ q'.entries.length = q.entries.length + 1)))

/-- R285 to R291, R304 to R309, R148, R202. The task engine's own steps: a condition is read, a packet fetched, a node made ready,
its clusters placed, its groups launched and retired, its record written; kicks and directory writes. What a read brings from HBM is
charged to the zone (R310). -/
def Obligations.TaskEngine : Prop :=
  (∀ (s : State) (gr nd : Nat) (g : Graph) (cx : Ctx), look s.graphs gr = some g → look s.ctxs g.ctx = some cx → g.fail = none →
    let x := g.node nd
    let waiting := (s.teamsOf gr nd).filter fun t => !t.2.live
    let word := g.addr (x.fld 0x20 8)
    let fresh := s.exQueued cx word 8 = false
    let s0 := s.exTouch cx word 8
    (x.kind = 1 ∨ x.kind = 2 → x.st = .chosen → ¬fresh → exec (.conditionRead gr nd) s = .next s)
    ∧ (∀ bs, fresh → x.kind = 1 → x.st = .chosen → s0.exRead? cx word 8 = some bs →
      exec (.conditionRead gr nd) s = .next (s0.retireNode gr nd 0 fun i => i == natOfBytes bs))
    ∧ (fresh → x.kind = 1 ∨ x.kind = 2 → x.st = .chosen → s0.exRead? cx word 8 = none →
      exec (.conditionRead gr nd) s = .next (s0.retireNode gr nd 0x0207 fun _ => false))
    ∧ (∀ bs, fresh → x.kind = 2 → x.st = .chosen → s0.exRead? cx word 8 = some bs →
      (natOfBytes bs = 0 → exec (.conditionRead gr nd) s = .next (s0.retireNode gr nd 0 fun _ => true))
      ∧ (natOfBytes bs ≠ 0 → x.fld 0x1C 4 ≠ 0 → x.fld 0x1C 4 ≤ x.iter →
        exec (.conditionRead gr nd) s = .next (s0.retireNode gr nd 0x0203 fun _ => false))
      ∧ (natOfBytes bs ≠ 0 → x.fld 0x1C 4 = 0 ∨ x.iter < x.fld 0x1C 4 → exec (.conditionRead gr nd) s = .next
        (s0.updGraph gr fun g => (g.setNode nd fun x => { x with st := .running, iter := x.iter + 1 }).arm nd)))
    ∧ (∀ s1 k, s.zoneQueued cx.zone = false → nd < g.nodes.length → x.kind = 0 → x.armed = true → x.st = .chosen → s.readyKernel cx g x = .ok (s1, k) →
      exec (.nodeReady gr nd) s = .next (s1.updGraph gr fun g => g.setNode nd fun x => { x with st := .ready, kern := some k }))
    ∧ (∀ st, s.zoneQueued cx.zone = false → nd < g.nodes.length → x.kind = 0 → x.armed = true → x.st = .chosen →
        s.readyKernel cx g x = .error st →
      (s.waitsFor cx g x st = false → exec (.nodeReady gr nd) s = .next (s.retireNode gr nd st fun _ => false))
      ∧ (s.waitsFor cx g x st = true → exec (.nodeReady gr nd) s = .next s))
    ∧ (∀ (pl : Placement) k s1, x.kern = some k → x.st = .ready → x.again = [] → x.nextClu < x.nclu → cx.stopping = false →
      s.placeTurn gr nd x cx = true →
      pl.cores.length = k.clw * k.clh → pl.quads.length = k.clw * k.clh → (x.matrix = true → pl.quads.all roundRobin = true) →
      ((List.range (k.clw * k.clh)).map fun r => rectCore (pl.cores.headD 0) k.clw r) = pl.cores.map some →
      s.tramLoad (pl.cores.headD 0 / 128) + k.inputs.length * (k.clw * k.clh) ≤ 256 →
      s.placeTeams cx.zone g k ((List.range (k.clw * k.clh)).map fun r =>
        (teamOf gr nd s.uid x.nextClu r g x k, pl.cores.getD r 0, pl.quads.getD r [])) = some s1 →
      exec (.clusterPlace gr nd pl) s = .next (s1.updGraph gr fun g => g.setNode nd fun x => { x with nextClu := x.nextClu + 1 }))
    ∧ (x.kind = 0 → x.st = .ready → x.count = 0 → waiting ≠ [] → risingKeys s.groups = true → ∃ t, exec (.nodeDispatch gr nd) s = .next t ∧ t.mem = s.mem
        ∧ ∀ v h tm c, look s.groups v = some h → look s.teams h.team = some tm → tm.task = true → tm.graph = gr → tm.node = nd →
            tm.live = false → look s.ctxs tm.ctx = some c → ∃ h', look t.groups v = some h' ∧ h'.launched = true
              ∧ h'.pts = (s.zoneOf c.zone).zclk ∧ h'.lmax = (s.zoneOf c.zone).zclk ∧ h'.ah = (s.zoneOf c.zone).zclk
              ∧ h'.threads.length = 32
              ∧ ∀ k, k < 32 → (h'.thread k).stat = .run ∧ (h'.thread k).pc = tm.codeBase + BitVec.ofNat 72 tm.entry)
    ∧ (x.kind = 0 → x.live = true → x.again = [] → x.nextClu = x.nclu → (∀ c ∈ s.copies, c.2.status ≠ none) →
        (∀ tm ∈ s.teams, tm.2.task = true → tm.2.graph = gr → tm.2.node = nd → tm.2.run = .retired) →
        ∃ t, exec (.nodeRetire gr nd) s = .next t ∧ ∀ tm ∈ t.teams, ¬(tm.2.task = true ∧ tm.2.graph = gr ∧ tm.2.node = nd)))
  ∧ (∀ (s : State) (u : Nat) (g : Group) (tm : Team) (z : Zone), look s.groups u = some g → look s.teams g.team = some tm →
      look s.zones (s.zoneNum g) = some z → s.groupDone u g = true → tm.run ≠ .halted → tm.run ≠ .saved →
      ∃ t, exec (.groupRetire u) s = .next t ∧ look t.groups u = none
        ∧ (look t.zones (s.zoneNum g)).map (·.zclk) = some (max z.zclk g.pts))
  ∧ (∀ (s : State) (gr k : Nat) (g : Graph) (cx : Ctx) (x : Slot), look s.graphs gr = some g → look s.ctxs g.ctx = some cx →
      g.complete = true → (∀ tm ∈ s.teams, ¬(tm.2.task = true ∧ tm.2.graph = gr)) → (doneGiven g.done = true → s.exHeld cx g.done 16 = false) →
      (s.qd g.queue).slot = some k → look s.slots k = some x → x.qcb.length = 64 →
      ∃ t, exec (.completionRecord gr) s = .next t ∧ look t.graphs gr = none
        ∧ (look t.slots k).map Slot.infl = some (x.infl - 1))
  ∧ (∀ (s : State) (k : Nat) (x : Slot) (cx : Ctx), look s.slots k = some x → look s.ctxs x.ctx = some cx → x.qcb.length = 64 →
      x.enabled = true → x.error = false → x.rdidx ≠ x.wridx → x.infl < 256 →
      let at_ := BitVec.ofNat 72 (x.get 0 8 + 2 ^ 64 * x.get 8 1) + BitVec.ofNat 72 (64 * (x.rdidx % 2 ^ x.log2n))
      let s0 := s.exTouch cx at_ 64
      s.exQueued cx at_ 64 = false →
      (∀ bs, s0.exRead? cx at_ 64 = some bs → packetOk bs = true → (packetFence bs = true → x.infl = 0) → fieldOf bs 0 1 ≠ 1 →
        (doneGiven (packetDone bs) = true → s0.exHeld cx (packetDone bs) 16 = false) → ∃ t, exec (.packetFetch k) s = .next t
          ∧ (look t.slots k).map Slot.rdidx = some ((x.rdidx + 1) % 2 ^ 32) ∧ t.graphs = s.graphs)
      ∧ (∀ bs, s0.exRead? cx at_ 64 = some bs → packetOk bs = true → (packetFence bs = true → x.infl = 0) → fieldOf bs 0 1 = 1 →
        s0.zoneQueued cx.zone = false → ∃ t g, exec (.packetFetch k) s = .next t ∧ (look t.slots k).map Slot.rdidx = some ((x.rdidx + 1) % 2 ^ 32)
          ∧ t.nextGraph = (s.nextGraph + 1) % 2 ^ 32 ∧ look t.graphs t.nextGraph = some g ∧ g.ctx = x.ctx ∧ g.queue = x.queue
          ∧ g.tag = fieldOf bs 0x20 8)
      ∧ (s0.exRead? cx at_ 64 = none ∨ (∃ bs, s0.exRead? cx at_ 64 = some bs ∧ packetOk bs = false) →
        ∃ t, exec (.packetFetch k) s = .next t ∧ (t.qd x.queue).error = true ∧ t.graphs = s.graphs
          ∧ Raised s t (s.qd x.queue).zone { code := 0x02, arg := x.queue })
      ∧ (∀ bs, s0.exRead? cx at_ 64 = some bs → packetOk bs = true → packetFence bs = true → x.infl ≠ 0 → exec (.packetFetch k) s = .next s0))
  ∧ (∀ (s : State) (from_ : Writer) (q : Nat) (v : W32),
      let e := s.qd q
      let d := (v - e.lastw).toNat
      (e.valid = false ∨ s.writerZone from_ ≠ some e.zone ∨ d = 0 ∨ 2 ^ 31 ≤ d → exec (.kick from_ q v) s = .next s)
      ∧ (e.valid = true → s.writerZone from_ = some e.zone → d ≠ 0 → d < 2 ^ 31 → ∃ t, exec (.kick from_ q v) s = .next t
        ∧ (t.qd q).lastw = v ∧ (∀ j, j ≠ q → t.qd j = s.qd j) ∧ t.mem = s.mem
        ∧ (e.slot = none → e.pending = false → (t.qd q).pending = true ∧ Raised s t e.zone { code := 0x01, arg := q })
        ∧ (∀ k x, e.slot = some k → look s.slots k = some x → x.qcb.length = 64 → (look t.slots k).map Slot.wridx = some v.toNat)))
  ∧ (∀ (s : State) (from_ : Writer) (q : Nat) (v : W64),
      let may := s.writerHyp from_ = true ∨ s.writerSup from_ (s.qd q).zone = true
      (¬may → exec (.directoryW1c from_ q v) s = .next s)
      ∧ (may → exec (.directoryW1c from_ q v) s = .next { s with qdir := put s.qdir q { s.qd q with
          pending := (s.qd q).pending && !v.getLsbD 30, error := (s.qd q).error && !v.getLsbD 29 } }))

/-! ## Class 0xA, banks and transitions -/

/-- R367 to R376, R384 to R396. The zone forms: misaligned records, the group's own stores, the requests that wait
at the zone's homes (R400) and the forms on the zone that have issued before (R370) first, the status of the first check that
fails, 0 with the form's effect; ZSHRINK, ZWAYS and ZCOMMIT wait for what they started; ZQUERY's value by selector. -/
def Obligations.ZoneForms : Prop :=
  ∀ (s : State) (w : View) (m : Mask),
    let answers := fun (i : Instr) (s1 : State) (d : Nat) => ∃ t, exec i s = .next t ∧ Answers i w m s1 d t
    let waits := fun (i : Instr) (s1 : State) (mark : Nat) => ∃ t g', exec i s = .next t ∧ t.teams = s1.teams ∧ t.zones = s1.zones
      ∧ t.mem = s1.mem ∧ look t.groups w.u = some g' ∧ g'.begun = some mark ∧ g'.wait = .retry w.s.curPc .away
      ∧ ∀ k, (g'.thread k).pc = (w.g.thread k).pc
    let queues := fun (i : Instr) (zn : Option Nat) => ∃ t, exec i s = .next t ∧ match zn with
      | some n => Holds (w.zqueue n).s w.u t w.g
      | none => Holds w.s w.u t w.g
    let behind := fun (zn : Option Nat) => zn.any w.zbehind = true
    let turn := fun (i : Instr) (n : Nat) (k : Prop) => Issues i s w m →
      (w.zbehind n = true → queues i (some n)) ∧ (w.zbehind n = false → k)
    let quiet := w.g.sbuf = [] ∧ w.g.fly = [] ∧ w.s.zoneQueued w.cx.zone = false
    let starts := fun (i : Instr) (zn : Option Nat) (a : Src) (align : Nat) (r : Nat → ZRes) (k : ZRes → Prop) =>
      let x := w.n128 a (lowest m)
      Issues i s w m →
      (x % align ≠ 0 → ∃ t, exec i s = .next t ∧ TrapTaken w w.g 0x12 m w.pc64 (x % 2 ^ 64) t)
      ∧ (x % align = 0 → ¬quiet ∨ behind zn → queues i zn)
      ∧ (x % align = 0 → quiet → ¬behind zn → (∀ e, r x = .error e → answers i w.s e) ∧ k (r x))
    let done := fun (i : Instr) (r : ZRes) => ∀ s1, r = .ok s1 → answers i s1 0
    let z := fun b : Src => w.n32 b (lowest m)
    (∀ x, starts (.zcreate x) (some (z x.b)) x.a 128 (w.zcreate (z x.b)) (done (.zcreate x)))
    ∧ (∀ x, starts (.zgrow x) (some (z x.b)) x.a 64 (w.zgrow (z x.b)) (done (.zgrow x)))
    ∧ (∀ x, starts (.zslices x) (some (z x.z)) x.a 64 (w.zslices (z x.z) x.dist.toNat) (done (.zslices x)))
    ∧ (∀ x, starts (.zchan x) (some (z x.b)) x.a 64 (w.zchan (z x.b)) (done (.zchan x)))
    ∧ (∀ x, starts (.zscrub x) none x.a 64 w.zscrub (done (.zscrub x)))
    ∧ (∀ x, (w.g.begun = none → starts (.zshrink x) (some (z x.b)) x.a 64 (w.zshrink (z x.b)) fun r => ∀ s1, r = .ok s1 → waits (.zshrink x) s1 (z x.b))
      ∧ (∀ k, Issues (.zshrink x) s w m → w.g.begun = some k →
          let s1 := w.s.updZone (z x.b) fun q => { q with shrunk := del q.shrunk w.u }
          (∀ st, look (w.s.zoneOf (z x.b)).shrunk w.u = some st → answers (.zshrink x) s1 st)
          ∧ (look (w.s.zoneOf (z x.b)).shrunk w.u = none → waits (.zshrink x) s1 (z x.b))))
    ∧ (∀ x, turn (.zdestroy x) (z x.z) <|
      let free := (∀ c ∈ w.s.ctxs, c.1 < 4096 → c.2.zone ≠ z x.z) ∧ (∀ k ∈ (w.s.zoneOf (z x.z)).slots, look w.s.slots k = none) ∧ w.s.graphs = []
      (64 ≤ z x.z ∨ look w.s.zones (z x.z) = none → answers (.zdestroy x) w.s 1)
      ∧ ∀ zz, z x.z < 64 → look w.s.zones (z x.z) = some zz →
        (zz.state ≠ .ready → answers (.zdestroy x) w.s 6)
        ∧ (zz.state = .ready → (∃ c ∈ w.s.ctxs, c.1 < 4096 ∧ c.2.zone = z x.z) → answers (.zdestroy x) w.s 8)
        ∧ (zz.state = .ready → free → ∃ s1, answers (.zdestroy x) s1 0 ∧ look s1.zones (z x.z) = none ∧ s1.mem = w.s.mem
            ∧ s1.groups = w.s.groups ∧ (∀ k, z x.z ∉ (s1.quadOf k).zones) ∧ (∀ b, (s1.bank b).owner ≠ some (z x.z))
            ∧ ∀ e ∈ s1.tlb1, e.zone ≠ z x.z))
    ∧ (let ways := fun (i : Instr) (zn mask cache : Nat) (live : Bool) => Issues i s w m →
        (w.g.begun = none → w.zbehind zn = true → queues i (some zn))
        ∧ (w.g.begun = none → w.zbehind zn = false →
          (∀ e, w.zways zn cache mask live = .error e → answers i w.s e)
          ∧ (∀ s1, w.zways zn cache mask live = .ok s1 → rget 0 (s1.zoneOf zn).ways cache = mask % 2 ^ 16
              ∧ (rget 0 (s1.zoneOf zn).leaving cache = 0 → answers i s1 0) ∧ (rget 0 (s1.zoneOf zn).leaving cache ≠ 0 → waits i s1 zn)))
        ∧ (∀ k, w.g.begun = some k → (rget 0 (w.s.zoneOf zn).leaving cache = 0 → answers i w.s 0)
            ∧ (rget 0 (w.s.zoneOf zn).leaving cache ≠ 0 → waits i w.s zn))
      (∀ x, ways (.zwaysL2 x) (z x.z) (w.n64 x.m (lowest m)) (4 + 64 * x.dist.toNat + x.slice.toNat)
          (w.s.cap.sliceLive x.dist.toNat x.slice.toNat))
      ∧ (∀ x, ways (.zwaysVault x) (z x.z) (w.n64 x.m (lowest m)) x.v.toNat (w.s.chipActive (8 + x.v.toNat))))
    ∧ (∀ x, turn (.zcoins x) (z x.b) <|
      let c := w.n64 x.a (lowest m)
      let allow := c % 2 ^ 24
      let cap := c / 2 ^ 24 % 2 ^ 24
      let zz := w.s.zoneOf (z x.b)
      (64 ≤ z x.b ∨ look w.s.zones (z x.b) = none → answers (.zcoins x) w.s 1)
      ∧ (z x.b < 64 → (look w.s.zones (z x.b)).isSome = true → cap < allow ∨ 7200 < c / 2 ^ 48 → answers (.zcoins x) w.s 3)
      ∧ (z x.b < 64 → (look w.s.zones (z x.b)).isSome = true → allow ≤ cap → c / 2 ^ 48 ≤ 7200 →
          (w.s.floorsFit (z x.b) (c / 2 ^ 48) (dedup (zz.windows.map fun q => q.chan)) = false → answers (.zcoins x) w.s 9)
          ∧ (w.s.floorsFit (z x.b) (c / 2 ^ 48) (dedup (zz.windows.map fun q => q.chan)) = true →
            answers (.zcoins x) (w.s.updZone (z x.b) fun q =>
              { q with allow := allow, cap := cap, floor := c / 2 ^ 48, oldCoin := some (q.oldCoin.getD (q.allow, q.cap, q.floor)) }) 0)))
    ∧ (∀ x, Issues (.zcommit x) s w m →
      let zz := w.s.zoneOf (z x.z)
      (w.g.begun = none → w.zbehind (z x.z) = true → queues (.zcommit x) (some (z x.z)))
      ∧ (w.g.begun = none → w.zbehind (z x.z) = false → w.s.zoneNamed (z x.z) true = false → answers (.zcommit x) w.s 1)
      ∧ (w.g.begun = none → w.zbehind (z x.z) = false → w.s.zoneNamed (z x.z) true = true → zz.state = .ready → ∃ s1, answers (.zcommit x) s1 0
          ∧ s1.capgen = w.s.capgen + 1 ∧ Raised w.s s1 (z x.z) { code := 0x07, data := w.s.capgen + 1 } ∧ s1.zones = w.s.zones)
      ∧ (w.g.begun = none → w.zbehind (z x.z) = false → w.s.zoneNamed (z x.z) true = true → zz.state ≠ .ready →
          waits (.zcommit x) (w.s.updZone (z x.z) fun q => { q with commits := q.commits ++ [w.u] }) (z x.z))
      ∧ (∀ k, w.g.begun = some k → zz.commits.contains w.u = true → waits (.zcommit x) w.s (z x.z))
      ∧ (∀ k, w.g.begun = some k → zz.commits.contains w.u = false → answers (.zcommit x) w.s 0))
    ∧ (let ready := fun (i : Instr) (zn : Option Nat) (a : Src) (align : Nat) =>
        Issues i s w m ∧ w.n128 a (lowest m) % align = 0 ∧ quiet ∧ ¬behind zn
      let record := fun (a : Src) (n : Nat) (bs : List Byte) =>
        w.n128 a (lowest m) < 2 ^ 72 ∧ w.s.exRead w.cx (BitVec.ofNat 72 (w.n128 a (lowest m))) n = .ok bs
      let entries := fun (a : Src) (es : List Nat) => ∃ h bs n, record a 16 h ∧ fieldOf h 0 4 = n ∧ 1 ≤ n ∧ n ≤ 8192
        ∧ record a (16 + 8 * n) bs ∧ fieldOf h 4 12 = 0 ∧ es = (List.range n).map fun i => fieldOf bs (16 + 8 * i) 8
      let named := fun b : Src => w.s.zoneNamed (z b) true = true ∧ (w.s.zoneOf (z b)).shrink = []
      let kinds := fun b : Src => if z b = 64 then [1, 2] else [1, 2, 3, 4, 5]
      (∀ x b, ready (.zcreate x) (some (z x.b)) x.a 128 → record x.a 128 b → z x.b < 64 → zoneDescOk w.s b = true →
        (∀ d, d < 8 → w.s.cap.sliceLive d (fieldOf b (0x38 + d) 1) = true) → look w.s.zones (z x.b) = none →
        (∀ o ∈ w.s.zones, rangesApart (zoneFrom b).hbmbase (zoneFrom b).hbmmax o.2.hbmbase o.2.hbmmax = true
          ∧ rangesApart (zoneFrom b).hostbase (zoneFrom b).hostsize o.2.hostbase o.2.hostsize = true) →
        (w.s.zones.map fun o => o.2.oquota).sum + (zoneFrom b).oquota ≤ 16384 →
        (w.s.zones.map fun o => o.2.pquota).sum + (zoneFrom b).pquota ≤ w.s.privTotal →
        answers (.zcreate x) { w.s with zones := put w.s.zones (z x.b) (zoneFrom b) } 0)
      ∧ (∀ x es, ready (.zgrow x) (some (z x.b)) x.a 64 → entries x.a es → named x.b → listOk es (kinds x.b) true = true →
        (∀ e ∈ es, (w.s.zoneOf (z x.b)).raises true e = true ∧ w.s.entLive e = true ∧ w.s.entBusy (z x.b) e = false
          ∧ w.s.entDirty e = false ∧ w.s.entNoRoom (z x.b) e = false) →
        answers (.zgrow x) (es.foldl (fun s e => s.grantEnt (z x.b) e) (w.s.openZone (z x.b))) 0)
      ∧ (∀ x es, ready (.zscrub x) none x.a 64 → entries x.a es → listOk es [1, 2] false = true →
        (∀ e ∈ es, w.s.entLive e = true ∧ (if entKind e = 1 then w.s.freeQuad (entNum e) else w.s.freeBank (entBank e)) = true) →
        answers (.zscrub x)
          (es.foldl (fun s e => if entKind e = 1 then s.startScrub false (entNum e) else s.startScrub true (entBank e)) w.s) 0)
      ∧ (∀ x b, ready (.zslices x) (some (z x.z)) x.a 64 → record x.a 128 b → named x.z →
        let n := fieldOf b 0 1
        let map := (List.range n).map fun i => fieldOf b (64 + i) 1
        1 ≤ n → n ≤ 64 → fieldOf b 1 63 = 0 → fieldOf b (64 + n) (64 - n) = 0 → map.Nodup →
        (∀ k ∈ map, k < 64 ∧ w.s.cap.sliceLive x.dist.toNat k = true) → look (w.s.zoneOf (z x.z)).newMaps x.dist.toNat = none →
        ∃ s1, answers (.zslices x) s1 0 ∧ s1.mem = w.s.mem ∧ s1.groups = w.s.groups
          ∧ (rget [] (w.s.zoneOf (z x.z)).slices x.dist.toNat = map → s1 = w.s)
          ∧ (rget [] (w.s.zoneOf (z x.z)).slices x.dist.toNat ≠ map →
            (s1.zoneOf (z x.z)).state = .transit ∧ look (s1.zoneOf (z x.z)).newMaps x.dist.toNat = some map))
      ∧ (∀ x h bs, ready (.zchan x) (some (z x.b)) x.a 64 → record x.a 64 h → named x.b →
        let size := fieldOf h 0 8
        let n := fieldOf h 8 2
        let es := (List.range n).map fun i => fieldOf bs (64 + 4 * i) 4
        let map := es.map fun e => (e % 2 ^ 9, e / 2 ^ 18 % 2 ^ 14)
        let excl := (fieldOf h 0x0A 1).testBit 0
        1 ≤ n → n ≤ 384 → record x.a (64 + 4 * n) bs → size % 2 ^ 21 = 0 → size ≤ (w.s.zoneOf (z x.b)).hbmmax →
        fieldOf h 0x0A 1 < 2 → fieldOf h 0x0B 53 = 0 → (map.map fun e => e.1).Nodup →
        (∀ e ∈ es, e / 2 ^ 9 % 2 ^ 9 = 0 ∧ e % 2 ^ 9 < 384 ∧ w.s.cap.chanLive (e % 2 ^ 9) = true) → (w.s.zoneOf (z x.b)).mig = none →
        (∀ v ∈ winsOf map size excl, v.first + v.len ≤ 2 ^ 24
          ∧ ∀ o ∈ w.s.zones, ∀ u ∈ o.2.windows, winsMeet v u = false ∧ (o.1 ≠ z x.b → u.chan = v.chan → excl = false ∧ u.excl = false)) →
        w.s.floorsFit (z x.b) (w.s.zoneOf (z x.b)).floor (map.map fun e => e.1) = true →
        answers (.zchan x) (w.s.startMigration (z x.b) map size excl false) 0)
      ∧ (∀ x es, ready (.zshrink x) (some (z x.b)) x.a 64 → w.g.begun = none → entries x.a es → named x.b → listOk es (kinds x.b) false = true →
        (∀ e ∈ es, (w.s.zoneOf (z x.b)).raises false e = true ∧ w.s.entLive e = true ∧ w.s.entHeld (z x.b) e = true
          ∧ w.s.entInUse (z x.b) e = false) →
        ∃ s1, waits (.zshrink x) s1 (z x.b) ∧ (s1.zoneOf (z x.b)).shrink = es ∧ (s1.zoneOf (z x.b)).state = .transit)
      ∧ (let now := fun (i : Instr) (zn mask cache : Nat) => Issues i s w m → w.g.begun = none → w.zbehind zn = false → w.s.zoneNamed zn true = true →
          (w.s.zoneOf zn).shrink = [] → mask < 2 ^ 16 →
          (∀ o ∈ w.s.zones, o.1 ≠ zn → (rget 0 o.2.ways cache ||| rget 0 o.2.leaving cache) &&& mask = 0) →
          (rget 0 (w.s.zoneOf zn).ways cache ||| rget 0 (w.s.zoneOf zn).leaving cache) &&& (2 ^ 16 - 1 - mask) = 0 →
          ∃ s1, answers i s1 0 ∧ rget 0 (s1.zoneOf zn).ways cache = mask ∧ s1.mem = w.s.mem ∧ s1.groups = w.s.groups
        (∀ x, w.s.cap.sliceLive x.dist.toNat x.slice.toNat = true →
          now (.zwaysL2 x) (z x.z) (w.n64 x.m (lowest m)) (4 + 64 * x.dist.toNat + x.slice.toNat))
        ∧ (∀ x, w.s.chipActive (8 + x.v.toNat) = true → now (.zwaysVault x) (z x.z) (w.n64 x.m (lowest m)) x.v.toNat)))
    ∧ (∀ x, turn (.zquery x) (z x.z) <|
      (look w.s.zones (z x.z) = none ∨ ¬(w.cx.priv = .hyp ∨ w.cx.zone = z x.z) → answers (.zquery x) w.s (2 ^ 64 - 1))
      ∧ ∀ zz, look w.s.zones (z x.z) = some zz → w.cx.priv = .hyp ∨ w.cx.zone = z x.z →
        let held := w.s.quads.filter fun q => q.2.zones.contains (z x.z)
        let banks := w.s.banks.filter fun b => b.2.owner == some (z x.z)
        let objs := w.s.objs.filter fun o => o.2.zone == z x.z
        let d := x.dist.toNat
        let gives := fun (sel v : Nat) => x.sel.toNat = sel → answers (.zquery x) w.s v
        (zz.state = .ready → gives 0 (1 + 2 ^ 32 * w.s.capgen)) ∧ (zz.state = .transit → gives 0 (2 + 2 ^ 32 * w.s.capgen))
        ∧ gives 1 (held.length + 2 ^ 16 * (held.filter fun q => q.2.shared).length + 2 ^ 32 * banks.length)
        ∧ (look zz.newMaps d = none → gives 2 (rget [] zz.slices d).length)
        ∧ (∀ map, look zz.newMaps d = some map → gives 2 ((rget [] zz.slices d).length + 2 ^ 8 * map.length + 2 ^ 16))
        ∧ (zz.mig = none → gives 3 zz.chans.length)
        ∧ (∀ g, zz.mig = some g → gives 3 (zz.chans.length + 2 ^ 9 * g.chans.length + 2 ^ 24 * g.wm))
        ∧ gives 4 zz.size ∧ gives 5 (zz.allow + 2 ^ 24 * zz.cap + 2 ^ 48 * zz.floor)
        ∧ (∀ v : Nat, v < 2 ^ 64 → (v : Int) % 2 ^ 64 = zz.bal % 2 ^ 64 → gives 6 v)
        ∧ gives 7 (zz.oquota + 2 ^ 16 * objs.length) ∧ gives 8 zz.pquota ∧ gives 9 (zz.slots.map fun k => 2 ^ k).sum)
    ∧ (∀ x s1,
      let addr := fun (_ : Nat) => w.wideAddr (w.n128 x.a (lowest m)) 0 256 false true
      let accs := w.accsOf (Instr.capq x).uses m 256 .store addr
      Issues (.capq x) s w m → w.accessible (Instr.capq x).uses m 256 .store addr = true →
      (∀ a ∈ accs, ∀ p ∈ a.pcs, w.s.isRemote (lineOf p.pa) = true ∨ isRegLine (lineOf p.pa) = false) → w.Passes accs true s1 →
      w.g.sbuf.length < 15 → (w.g.pdirty.any fun b => accs.any fun a => a.pcs.any fun p => lineOf p.pa == lineOf b.1) = false → ∃ t e f, exec (.capq x) s = .next t
        ∧ Answers (.capq x) { w with g := { w.g with seq := w.g.seq + 2, sbuf := w.g.sbuf ++ [e, f] } } m s1 w.s.capgen t
        ∧ e.id = w.g.seq ∧ f.id = w.g.seq + 1 ∧ (∀ p ∈ e.parts ++ f.parts, p.thr = lowest m)
        ∧ ((e.parts ++ f.parts).flatMap fun p => match p.op with
            | .store bs => bs
            | .atom .. => []) = w.s.capRecord)

/-- R370 to R376, R391, R434. The events of a zone's transition: departures, freed ways, slice sweeps, migration batches, the
commit; a rollover that is due pauses them. R168, R169, R174, R176, R373. A bank's mode register and the steps of a change of
mode, where a bank that leaves L1 leaves no set fuller than the ways that remain; the end of a scrub; accesses and stores that
waited for a team to be back. The sweep's and the migration's renaming of a home's record, in a place of its new home, is log entry
40, the freeing of ways by whole caches log entry 41: the model's. -/
def Obligations.ZoneTransitionsAndBanks : Prop :=
  (∀ (s : State) (z : Nat) (zz : Zone), look s.zones z = some zz →
     (zz.shrink ≠ [] → s.teams.any (s.teamAffected z zz.shrink) = false →
       (∀ e ∈ zz.shrink, entKind e = 2 → (s.bank (entBank e)).mode = 3 ∧ (s.bank (entBank e)).stage = 0) →
       ∃ t, exec (.departureEnd z) s = .next t ∧ (t.zoneOf z).shrink = [] ∧ look (t.zoneOf z).shrunk zz.shrinkBy = some 0
         ∧ ∀ e ∈ zz.shrink, (entKind e = 1 → z ∉ (t.quadOf (entNum e)).zones) ∧ (entKind e = 2 → (t.bank (entBank e)).owner = none)
             ∧ (entKind e = 3 → e % 64 ∉ (t.zoneOf z).slots))
     ∧ (zz.shrink ≠ [] → s.teams.any (s.teamAffected z zz.shrink) = true → zz.shrinkAt + zz.shrinkMax + 125000 < s.cycle →
       ∃ t, exec (.departureEnd z) s = .next t ∧ (t.zoneOf z).shrink = [] ∧ look (t.zoneOf z).shrunk zz.shrinkBy = some 9
         ∧ t.quads = s.quads ∧ t.banks = s.banks ∧ t.mem = s.mem)
     ∧ (zz.shrink = [] → exec (.departureEnd z) s = .next s)
     ∧ (∃ t, exec (.wayFree z) s = .next t ∧ (t.zoneOf z).leaving = [] ∧ (t.zoneOf z).ways = zz.ways ∧ t.mem = s.mem
         ∧ ∀ c ∈ zz.leaving, ∀ h ∈ t.homes, ¬(h.2.zn = z ∧ h.2.at_ = c.1))
     ∧ (s.rollDue z = true → (∀ d line, exec (.sweepVisit z d line) s = .next s) ∧ (∀ d, exec (.sweepEnd z d) s = .next s)
         ∧ exec (.migrationBatch z) s = .next s)
     ∧ (∀ d line h, s.rollDue z = false → (look zz.newMaps d).isSome = true → look s.homes line = some h → h.zn = z → 4 + 64 * d ≤ h.at_ → h.at_ < 4 + 64 * (d + 1) →
         s.coKey z line = line →
         let new := s.stampHome z (4 + 64 * d + zz.slice d (paLocal (line * 128))) line
         let base := s.baseOf (homeLoc new) z
         ∃ t, exec (.sweepVisit z d line) s = .next t ∧ t.mem = s.mem
           ∧ (h.at_ = new → look t.homes line = some h)
           ∧ (h.at_ ≠ new → s.waysAt z new ≠ 0 → h.rts ≤ s.baseTop (homeLoc new) z → h.wts ≤ s.baseTop (homeLoc new) z →
               look t.homes line = some { h with wts := max h.wts base, rts := max h.rts base, xp := h.xp || decide (h.rts < base), at_ := new })
           ∧ (h.at_ ≠ new → s.baseTop (homeLoc new) z < h.rts → look t.homes line = none
               ∧ h.rts ≤ rget 0 (t.zoneOf z).mts new ∧ h.expmax ≤ rget 0 (t.zoneOf z).expfloor new))
     ∧ (∀ d map, s.rollDue z = false → look zz.newMaps d = some map → ∃ t, exec (.sweepEnd z d) s = .next t ∧ t.mem = s.mem
         ∧ rget [] (t.zoneOf z).slices d = map ∧ look (t.zoneOf z).newMaps d = none)
     ∧ (∀ m, s.rollDue z = false → zz.mig = some m → s.batchWrites zz m = false → m.wm < max m.oldSize m.newSize / 128 → ∃ t, exec (.migrationBatch z) s = .next t
         ∧ (t.zoneOf z).mig = some { m with wm := m.wm + 32 }
         ∧ (m.oldSize ≤ m.wm * 128 → ∀ i, i < 128 * min 32 (max m.oldSize m.newSize / 128 - m.wm) →
             readByte t.mem (zz.hbmbase + m.wm * 128 + i) = 0)
         ∧ (max m.oldSize m.newSize ≤ m.oldSize → s.badLines = [] → s.deadChs = [] → zz.chans = [] ∨ (∀ v, v < 4 → s.chipActive (8 + v) = true) →
             (∀ e ∈ zz.chans, e.1 < 384) → (∀ e ∈ m.chans, e.1 < 384) → t.mem = s.mem))
     ∧ (∀ m, zz.mig = some m → s.batchWrites zz m = true → exec (.migrationBatch z) s = .next s)
     ∧ (∀ m, s.rollDue z = false → zz.mig = some m → s.batchWrites zz m = false → max m.oldSize m.newSize / 128 ≤ m.wm → zz.lostChs = [] → ∃ t, exec (.migrationBatch z) s = .next t
         ∧ (t.zoneOf z).mig = none ∧ (t.zoneOf z).chans = m.chans ∧ t.mem = s.mem)
     ∧ (zz.commit = true ∨ zz.commits ≠ [] → zz.settled = true → ∃ t, exec (.zoneCommit z) s = .next t ∧ (t.zoneOf z).state = .ready
         ∧ (t.zoneOf z).size = zz.newSize.getD zz.size ∧ (t.zoneOf z).commit = false ∧ (t.zoneOf z).commits = [] ∧ (t.zoneOf z).oldWins = []
         ∧ t.capgen = s.capgen + zz.commits.length + (if zz.commit then 1 else 0)
         ∧ (zz.commits.length + (if zz.commit then 1 else 0) = 1 → Raised s t z { code := 0x07, data := s.capgen + 1 }))
     ∧ (zz.commit = false ∧ zz.commits = [] ∨ zz.settled = false → exec (.zoneCommit z) s = .next s))
  ∧ ((∀ (s : State) (from_ : Writer) (bank : Nat) (mode : BitVec 2),
      let b := s.bank bank
      let becomes := fun (c : Bank) => ∃ t, exec (.bankReqmode from_ bank mode) s = .next t ∧ t.bank bank = c
        ∧ (∀ j, j ≠ bank → t.bank j = s.bank j) ∧ t.mem = s.mem
      (40960 ≤ bank ∨ s.mayBank from_ bank = false → exec (.bankReqmode from_ bank mode) s = .next s)
      ∧ (bank < 40960 → s.mayBank from_ bank = true →
        (b.stage ≠ 0 ∨ mode = b.mode → becomes { b with reqmode := mode })
        ∧ (b.stage = 0 → b.mode = 0 → mode ≠ 0 → becomes { b with reqmode := mode, stage := 1 })
        ∧ (b.stage = 0 → b.mode = 1 ∨ b.mode = 2 → mode ≠ b.mode → becomes { b with reqmode := mode, stage := 2 })
        ∧ (b.stage = 0 → b.mode = 3 → mode = 1 ∨ mode = 2 → becomes { b with reqmode := mode, stage := 3 })
        ∧ (b.stage = 0 → b.mode = 3 → mode = 0 → becomes { b with reqmode := 0, mode := 0 })))
    ∧ (∀ (s : State) (bank : Nat),
      let b := s.bank bank
      let entered := if b.reqmode = 1 ∨ b.reqmode = 2 then { b with stage := 3 } else { b with mode := b.reqmode, stage := 0 }
      (b.stage = 1 → ∃ t, exec (.writeback bank) s = .next t ∧ t.bank bank = entered
          ∧ ∀ z, b.owner = some z → (∀ v g, (v, g) ∈ s.groups → g.pleaf = []) → t.mem = s.mem ∧ (∀ c ∈ t.l1, c ∈ s.l1)
            ∧ (risingKeys s.l1 = true → ∀ line, (t.l1Set (bank / 40) z line).length ≤ s.l1Ways (bank / 40) z))
      ∧ (b.stage = 2 → s.holders bank = 0 → ∃ t, exec (.waitrelease bank) s = .next t ∧ t.bank bank = entered ∧ t.mem = s.mem)
      ∧ (b.stage = 2 → s.holders bank ≠ 0 → exec (.waitrelease bank) s = .next s)
      ∧ (b.stage = 3 → ∃ t, exec (.zerofill bank) s = .next t ∧ t.bank bank = { b with mode := b.reqmode, stage := 0 } ∧ t.mem = s.mem)
      ∧ (b.scrub = 2 → ∃ t, exec (.scrubEnd true bank) s = .next t ∧ t.bank bank = { b with scrub := 0 } ∧ t.mem = s.mem)
      ∧ (b.scrub ≠ 2 → exec (.scrubEnd true bank) s = .next s)
      ∧ ((s.quadOf bank).scrub = 2 → ∃ t, exec (.scrubEnd false bank) s = .next t ∧ t.quadOf bank = { s.quadOf bank with scrub := 0 }))
    ∧ (∀ (s : State) (k : Nat) (tm : Team), look s.teams k = some tm →
      (tm.away = true → exec (.peerAccessResume k) s = .next s)
      ∧ (tm.away = false → ∃ t, exec (.peerAccessResume k) s = .next t ∧ t.mem = s.mem ∧ (∀ j, j ≠ k → look t.teams j = look s.teams j)
          ∧ ((∀ v g, (v, g) ∈ s.groups → ∀ c ∈ g.cluOut, c.team ≠ k) → t.teams = s.teams)
          ∧ ∀ u g, look s.groups u = some g →
          ∃ g', look t.groups u = some g' ∧ g'.core = ({ g with cluOut := g.cluOut.filter fun c => c.team != k } : Group).core
            ∧ (∀ v mate pc, (v, mate) ∈ s.teams → mate.cluster = tm.cluster → g.team = v → g.wait = .retry pc .away →
                g'.wait = .retry pc .kept)
            ∧ ((∀ pc, g.wait ≠ .retry pc .away) → g'.wait = g.wait))))

/-! ## Events of the matrix unit, of copies, of time and of moving teams -/

/-- R259, R263 to R266, R269, R437, R438. MXOP_ACCEPT, MATRIX_OP_START, MATRIX_OP_COMPLETE; LEAVE_GRANT, LEAVE_RETURN,
GOVERNOR_PERIOD, POWER_SAMPLE. That an operation's operands are read at its completion is the model's choice (log 13), as are R269's
20 µs as 50,000 cycles (log 65) and a POOL that keeps 21 bits of what returns (log 110). -/
def Obligations.MatrixEvents : Prop :=
  (∀ (s : State) (u : Nat) (g : Group), look s.groups u = some g →
    (g.mxpend = none → exec (.mxopAccept u) s = .next s)
    ∧ ∀ p w, g.mxpend = some p →
      State.view? { s with cur := u, curPc := p.pc, curMask := 0xFFFFFFFF#32, curBlind := false } = some w →
      let q := s.quadOf w.g.quad
      let bs := w.tm.scrBytes p.off 64
      (8 ≤ q.queue.length → exec (.mxopAccept u) s = .next s)
      ∧ (∀ reason field, q.queue.length < 8 → mxCheck bs w.tm.scratchSize = some (reason, field) →
        let h := { w.g with mxpend := none, mxinfo := BitVec.ofNat 64 (reason * 2 ^ 16 + field * 2 ^ 8 + 16) }
        ∃ t, TrapTaken { w with g := h } h 0x21 p.m w.pc64 0 t ∧ exec (.mxopAccept u) s = .next { t with
          cur := s.cur, curPc := s.curPc, curMask := s.curMask, curBlind := s.curBlind })
      ∧ (q.queue.length < 8 → mxCheck bs w.tm.scratchSize = none →
        let id := if (q.last + 1) % 2 ^ 32 = 0 then 1 else q.last + 1
        let need := fieldOf bs 4 1 * fieldOf bs 5 1 * fieldOf bs 6 2 * fieldOf bs 2 1 * fieldOf bs 3 1
        ∃ t op, exec (.mxopAccept u) s = .next t ∧ t.mem = s.mem
          ∧ GroupIs t u (Group.setS ((releaseS (Instr.mxop p.x).uses.srcs { w.g with mxpend := none }).advance p.sel) p.x.d.toNat (BitVec.ofNat 64 id))
          ∧ t.quadOf w.g.quad = { q with last := id, queue := q.queue ++ [op] } ∧ op.id = id ∧ op.blk = bs ∧ op.left = need
          ∧ op.pts = w.g.pts ∧ op.group = u ∧ op.team = w.g.team ∧ op.started = false ∧ op.since = w.tm.past.length))
  ∧ (∀ (s : State) (k : Nat) (op : MxOp) (rest : List MxOp), (s.quadOf k).queue = op :: rest →
    let q := s.quadOf k
    let want := min op.left (2 ^ 20)
    let gov := rget {} s.govs (k / 512)
    (op.left ≠ 0 → want ≤ q.balance → ∃ t gs, exec (.matrixOpStart k) s = .next t ∧ t.govs = s.govs
        ∧ t.quadOf k = { q with grants := gs, queue := { op with left := op.left - want, started := true, asked := false } :: rest }
        ∧ (gs.map fun g => g.2).sum = q.balance - want)
    ∧ (op.left ≠ 0 → q.balance < want → op.asked = false → ∃ t, exec (.matrixOpStart k) s = .next t
        ∧ t.quadOf k = { q with queue := { op with asked := true } :: rest }
        ∧ rget {} t.govs (k / 512) = { gov with queue := gov.queue ++ [(.op k, want - q.balance)] })
    ∧ (op.left ≠ 0 → q.balance < want → op.asked = true → exec (.matrixOpStart k) s = .next s)
    ∧ (∀ tm, look s.teams op.team = some tm → op.started = true → op.left = 0 → op.tb + op.mt * op.nt ≤ 16 →
      let blk := op.blk
      let epi := fieldOf blk 10 1
      let seen := op.seen s.nfree tm
      let elem := fun n r c => mxElement seen blk ((n - op.tb) / op.nt) ((n - op.tb) % op.nt) r c
        (if (fieldOf blk 9 1).testBit 1 then 0 else q.word n r c)
      ∃ t tm', exec (.matrixOpComplete k) s = .next t ∧ t.mem = s.mem ∧ t.groups = s.groups ∧ look t.teams op.team = some tm'
        ∧ (t.quadOf k).queue = rest ∧ (t.quadOf k).done = op.id ∧ (t.quadOf k).last = q.last
        ∧ (∀ n r c, n < 16 → r < 32 → c < 32 → (t.quadOf k).word n r c =
            if op.tb ≤ n ∧ n < op.tb + op.mt * op.nt then (if epi.testBit 0 && epi.testBit 3 then 0 else elem n r c) else q.word n r c)
        ∧ (∀ a, readByte seen.scratch a = readByte tm.scratch a ∨ ∃ bad, (a, readByte seen.scratch a, bad) ∈ tm.past.drop op.since)
        ∧ (epi.testBit 0 = false → tm'.scratch = tm.scratch)
        ∧ ∀ ty, epi.testBit 0 = true → Ty.ofCode (BitVec.ofNat 5 (fieldOf blk 11 1)) = some ty → 32 * op.nt * (ty.width / 8) ≤ fieldOf blk 0x2C 4 →
            ∀ r c, r < 32 * op.mt → c < 32 * op.nt →
              readNat tm'.scratch (fieldOf blk 0x28 4 + r * fieldOf blk 0x2C 4 + c * (ty.width / 8)) (ty.width / 8)
                = epiConvert ty (epi.testBit 2) (epiValue (epiRead (if (fieldOf blk 9 1).testBit 0 then .i32 else .f32)
                    (elem (op.tb + r / 32 * op.nt + c / 32) (r % 32) (c % 32))) (decodeF .f32 false (fieldOf blk 0x14 4)) (epi.testBit 1))
                  % 2 ^ (8 * (ty.width / 8))))
  ∧ (∀ (s : State) (d : Nat) (src : GovSrc) (n : Nat) (rest : List (GovSrc × Nat)), (s.gov d).queue = (src, n) :: rest →
    let v := s.gov d
    (s.asks src = false → exec (.leaveGrant d) s = .next { s with govs := put s.govs d { v with queue := rest } })
    ∧ (s.asks src = true → v.pool < n → exec (.leaveGrant d) s = .next s)
    ∧ (s.asks src = true → n ≤ v.pool → ∃ t, exec (.leaveGrant d) s = .next t
        ∧ (t.gov d).queue = rest ∧ (t.gov d).rate = v.rate ∧ t.mem = s.mem
        ∧ (∀ q op l, src = .op q → (s.quadOf q).queue = op :: l →
            let room := 2 ^ 20 - (s.quadOf q).balance
            t.quadOf q = { s.quadOf q with
                grants := (s.quadOf q).grants ++ [(s.cycle, min n room)], queue := { op with asked := false } :: l }
            ∧ (q / 512 = d → (t.gov d).pool = min (2 ^ 21 - 1) (v.pool - n + (n - room))))
        ∧ (∀ u g, src = .leave u → look s.groups u = some g → GroupIs t u { g with leave := some true }
            ∧ (t.quadOf g.quad).balance = (s.quadOf g.quad).balance + min n (2 ^ 20 - (s.quadOf g.quad).balance))
        ∧ (∀ j c, src = .tram j → look s.copies j = some c → look t.copies j = some { c with leave := 0 } ∧ (t.gov d).pool = v.pool - n)))
  ∧ (∀ (s : State) (q : Nat), let x := s.quadOf q
    let old := x.grants.filter fun g => decide (g.1 + 50000 ≤ s.cycle)
    ∃ t, exec (.leaveReturn q) s = .next t ∧ t.mem = s.mem ∧ t.groups = s.groups
      ∧ t.quadOf q = { x with grants := x.grants.filter fun g => decide (s.cycle < g.1 + 50000) }
      ∧ t.gov (q / 512) = { s.gov (q / 512) with pool := min (2 ^ 21 - 1) ((s.gov (q / 512)).pool + (old.map fun g => g.2).sum) })
  ∧ (∀ (s : State) (d : Nat),
    ((s.gov d).at_ + 2500 ≤ s.cycle → exec (.governorPeriod d) s =
        .next { s with govs := put s.govs d { s.gov d with pool := (s.gov d).rate, at_ := s.cycle } })
    ∧ (s.cycle < (s.gov d).at_ + 2500 → exec (.governorPeriod d) s = .next s))
  ∧ (∀ (s : State) (excess : Bool) (rates : List Nat), ∃ t, exec (.powerSample excess rates) s = .next t ∧ t.mem = s.mem ∧ ∀ d, d < 8 →
    (t.gov d).pool = (s.gov d).pool ∧ (t.gov d).queue = (s.gov d).queue
    ∧ (excess = false → (t.gov d).rate = rates.getD d (s.gov d).rate % 2 ^ 21) ∧ (excess = true → (t.gov d).rate ≤ (s.gov d).rate))

/-- R236, R295 to R298. TRAM_LINE: the next piece of a copy reaches the team's scratchpad when the channels have served its lines
(R310, R381) and those from far have come, or the copy ends with the status of the failed access, with an entry of kind 3 for a
device that cannot be reached (R414). COPY_END: the status word reaches the status register of every group of the team. That a piece
of a tile is written in one step is the model's choice (log 44). -/
def Obligations.CopyEvents : Prop :=
  ∀ (s : State) (k : Nat) (c : TCopy) (tm : Team) (cx : Ctx) (x : Shape), look s.copies k = some c → look s.teams c.team = some tm →
    look s.ctxs tm.ctx = some cx → c.rec? = some x →
    (∀ e, c.status = none → c.leave = 0 → c.pos < x.copySize → s.mayServe k c tm.district = true →
      s.tramPieces cx (c.spans x tm.gti).1 = .error e → let far := if e = .remote then s.deadDev cx (c.spans x tm.gti).1 else none
      exec (.tramLine k) s = .next { (match far with
        | some d => s.logError 3 none d cx.zone 0
        | none => s) with copies := put s.copies k { c with
        serving := false
        status := some (match e with
          | .notValid => 0x0301
          | .prot => 0x0302
          | .bad => 0x0303
          | .remote => 0x0304) } })
    ∧ (∀ ps, c.status = none → c.leave = 0 → c.pos < x.copySize → s.mayServe k c tm.district = true →
      s.tramPieces cx (c.spans x tm.gti).1 = .ok ps → (∀ p ∈ ps, s.lineQueued (lineOf p.1) = false) →
      (∀ v ∈ (c.spans x tm.gti).1, s.exWalks cx v.1 v.2 = false) →
      (∀ p ∈ ps, s.farLine (lineOf p.1) = true → (look c.far (lineOf p.1)).isSome = true) →
      (∀ p ∈ ps, s.farLine (lineOf p.1) = false → s.needsChan cx.zone (lineOf p.1) = none ∨ lineOf p.1 ∈ c.fetched) →
      let raw := ps.flatMap fun p => match look c.far (lineOf p.1) with
        | some d => (List.range p.2).map fun i => LineData.byte d (p.1 + i)
        | none => s.readLocal (paLocal p.1) p.2
      let bad := ps.flatMap fun p => List.replicate p.2 (if s.farLine (lineOf p.1) then c.farBad.contains (lineOf p.1) else s.badLine (lineOf p.1))
      let bs := (c.spans x tm.gti).2.1 raw
      ∃ t c', exec (.tramLine k) s = .next t ∧ look t.copies k = some c' ∧ c'.pos = c.pos + bs.length ∧ c'.bytes = c.pos + bs.length
        ∧ c'.bad = (c.bad || bad.any id) ∧ c'.far = [] ∧ c'.farBad = [] ∧ c'.fetched = [] ∧ t.mem = s.mem ∧ t.groups = s.groups
        ∧ look t.teams c.team = some (tm.landCopy x c.pos bs ((c.spans x tm.gti).2.2 bad) (s.zoneOf cx.zone).zclk)
        ∧ (x.swoff = 0xFFFFFFFF → ∃ tm', look t.teams c.team = some tm' ∧ ∀ o, readByte tm'.scratch o =
            if x.spoff + c.pos ≤ o ∧ o < x.spoff + c.pos + bs.length then bs.getD (o - (x.spoff + c.pos)) 0 else readByte tm.scratch o))
    ∧ (c.status ≠ none ∨ x.copySize ≤ c.pos → tm.run ≠ .retired → tm.live = true → risingKeys s.teams = true →
      let st := c.status.getD (if c.bad then 0x0303 else 0)
      let word := BitVec.ofNat 64 (2 ^ 63 + st * 2 ^ 32 + c.bytes)
      let n := ((tm.inputs[c.input]?).map fun i => i.1).getD 0
      ∃ t, exec (.copyEnd k) s = .next t ∧ look t.copies k = none ∧ t.mem = s.mem
        ∧ look t.teams c.team = some { tm with inputs := setAt tm.inputs c.input fun i => (i.1, some word) }
        ∧ ∀ u g, look s.groups u = some g → g.team = c.team → GroupIs t u { g.setS n word with
            spend := g.spend.filter (· != n), acqs := n :: g.acqs.filter (· != n) })
    ∧ (c.status = none → c.pos < x.copySize → exec (.copyEnd k) s = .next s)

/-- R310, R311, R340 to R342, R345, R347, R353. Coin periods, held events, time slices, stops, overruns and moves of teams. The
model's choices: a slice's microseconds in cycles (log 65) and the cycle it counts from (log 101), a spilled team that returns with the
state that the model kept (log 94). -/
def Obligations.PeriodsAndMoves : Prop :=
  (∀ (s : State), ∃ t, exec .coinPeriod s = .next t ∧ t.mem = s.mem ∧ t.period = s.cycle ∧ ∀ k z, look s.zones k = some z →
    let due := (z.loans.map fun l => l.2.headD 0).sum + z.charge
    let back := (s.zones.map fun b => ((b.2.loans.filter fun l => l.1 == k).map fun l => l.2.headD 0).sum).sum
    look t.zones k = some { z with oldCoin := none, used := [], lent := 0, charge := 0, bal := (z.allow : Int) - due + back
                                   loans := (z.loans.map fun l => (l.1, l.2.drop 1)).filter fun l => !l.2.isEmpty })
  ∧ (∀ (s : State) (q : Nat),
    (∀ pre e post, s.evHeld = pre ++ (q, e) :: post → (∀ h ∈ pre, h.1 ≠ q) → (rget [] s.evq q).length < 1024 →
      exec (.eventPlace q) s = .next { s with evq := put s.evq q (rget [] s.evq q ++ [e]), evHeld := pre ++ post })
    ∧ ((∀ h ∈ s.evHeld, h.1 ≠ q) ∨ 1024 ≤ (rget [] s.evq q).length → exec (.eventPlace q) s = .next s))
  ∧ (∀ (s : State) (u n : Nat) (g : Group), look s.groups u = some g → g.evUntil = some n →
    (n ≤ s.cycle → ∃ t, exec (.evwaitTimeout u) s = .next t ∧ Leaves s u t { g with evUntil := some 0 })
    ∧ (s.cycle < n → exec (.evwaitTimeout u) s = .next s))
  ∧ (∀ (s : State) (q n : Nat),
    (s.sliceOver q = true → s.nextCtx q = some n → ∃ t, exec (.sliceChange q n) s = .next t ∧ t.mem = s.mem
        ∧ (t.quadOf q).ctx = some n ∧ (t.quadOf q).since = s.cycle ∧ ∀ u g, look s.groups u = some g → ∃ g', look t.groups u = some g'
            ∧ g'.core = ({ g with gat := g'.gat, gacc := g'.gacc } : Group).core
            ∧ (g.quad = q → s.ctxOf g ≠ some n → g'.slot = none)
            ∧ (g.quad ≠ q ∨ s.ctxOf g = some n → g' = { g with gat := g'.gat, gacc := g'.gacc }))
    ∧ (s.sliceOver q = false ∨ s.nextCtx q ≠ some n → exec (.sliceChange q n) s = .next s))
  ∧ (∀ (s : State) (k : Nat) (tm : Team), look s.teams k = some tm →
    (tm.run = .running ∨ tm.run = .halted → exec (.stopRequest k) s = .next (s.updTeam k fun tm =>
        { tm with haltRun := tm.run, run := .stopping, deadline := s.cycle + s.drainCycles tm }))
    ∧ (tm.run ≠ .running → tm.run ≠ .halted → ∃ t, exec (.stopRequest k) s = .next t ∧ look t.teams k = some tm ∧ t.groups = s.groups)
    ∧ (tm.run = .stopping → s.teamQuiet k = true → risingKeys s.groups = true → ∃ t, exec (.teamStopped k) s = .next t
        ∧ look t.teams k = some { tm with run := .stopped, away := true, stoppedAt := s.cycle }
        ∧ ∀ u g, look s.groups u = some g → g.team = k → g.sysc = none →
            ∃ g', look t.groups u = some g' ∧ g'.slot = none ∧ g'.begun = none ∧ g'.evUntil = none
            ∧ g'.pdirty = [] ∧ ∀ j, (g'.thread j).pc = (g.thread j).pc ∧ (g'.thread j).stat = (g.thread j).stat)
    ∧ (tm.run ≠ .stopping ∨ s.teamQuiet k = false → exec (.teamStopped k) s = .next s)
    ∧ (∀ cx n z, tm.run = .stopped ∨ tm.run = .spilled → tm.deadline + n = tm.stoppedAt → n ≠ 0 → look s.ctxs tm.ctx = some cx →
        look s.zones cx.zone = some z → ∃ t, exec (.overrun k n) s = .next t
        ∧ (look t.teams k).map (·.deadline) = some tm.stoppedAt
        ∧ look t.zones cx.zone = some { z with charge := z.charge + n * (dedup ((s.groupsOf k).map fun g => g.2.quad)).length }
        ∧ Raised s t (if cx.priv == .user then cx.zone else 64) { code := 0x08, ctx := tm.ctx, arg := min n (2 ^ 32 - 1) })
    ∧ (∀ cx core qs s1, tm.run = .stopped → look s.ctxs tm.ctx = some cx → cx.stopping = false → qs ≠ [] → core ≠ tm.core →
        core / 128 = tm.district → (s.liftTeam k).1.landTeam cx.zone k tm core qs (s.liftTeam k).2 = some s1 →
        exec (.migration k core qs) s = .next s1)
    ∧ (∀ cx a s1, tm.run = .stopped → look s.ctxs tm.ctx = some cx → cx.stopping = false →
        (s.liftTeam k).1.otherRoom cx.zone k tm (s.liftTeam k).2 = false →
        let block := (s.teamBlock cx k tm 0).1
        s.spillPlace tm.ctx cx block.length = some a → (s.liftTeam k).1.exWrite cx (cx.spill + BitVec.ofNat 72 a) block = .ok s1 →
        ∃ t, exec (.migration k 0 []) s = .next t
        ∧ (look t.teams k).map (fun x => (x.run, x.spillAt, x.spillLen)) = some (.spilled, a, block.length) ∧ t.mem = s1.mem
        ∧ ∀ u g, look s.groups u = some g → g.team = k → ∃ g', look t.groups u = some g' ∧ g'.slot = none ∧ 4096 ≤ g'.quad
            ∧ g'.pts = g.pts ∧ g'.s = g.s)
    ∧ (∀ cx core qs s1, tm.run = .spilled → look s.ctxs tm.ctx = some cx → cx.stopping = false →
        core / 128 = tm.district →
        (s.updTeam k fun x => { x with stores := [], spillAt := 0, spillLen := 0 }).landTeam cx.zone k tm core qs tm.stores = some s1 →
        exec (.migration k core qs) s = .next s1)
    ∧ (∀ cx x, tm.img = [x] → s.imgReady x = true → look s.ctxs tm.ctx = some cx → ∃ t, exec (.imageUpdate k) s = .next t
        ∧ look t.teams k = none ∧ t.mem = ((s.imgApply cx.zone tm x).imgSub cx.zone tm.imgMap 0x30 4).mem)
    ∧ ((∀ x ∈ tm.img, s.imgReady x = false) → exec (.imageUpdate k) s = .next s))

/-! ## Class 0xB and the fabric -/

/-- R406, R408, R416, R423 to R428. Fences at pod scope, device time and the guest's time, the state of a peer, remote copies asked
for ahead, containment. With no bound on its time a device reports a full bound field (log entry 31). FCONTAIN.clear of a device that
is ALIVE or SUSPECT is log entry 50, the microseconds in a state as device time log entry 103: the model's. -/
def Obligations.FabricForms : Prop :=
  ∀ (s : State) (w : View) (m : Mask),
    let acq := fun g : Group =>
      let p := max (max g.pts g.lmax) (rget 0 (w.s.zoneOf w.cx.zone).lh w.tm.district + 1)
      { g with pts := p, ah := p, racq := w.s.now, facq := if w.s.held.isEmpty then none else some w.s.uid }
    let counted := w.s.updTeam w.g.team fun tm => { tm with relc := (tm.relc + 1) % 2 ^ 32 }
    let answers := fun (i : Instr) (s1 : State) (d : Nat) => ∃ t, exec i s = .next t ∧ Answers i w m s1 d t
    let waits := fun (i : Instr) (at_ : Nat) (t : State) => exec i s = .next t ∧ t.mem = w.s.mem ∧ t.peers = w.s.peers
      ∧ ∃ g', look t.groups w.u = some g' ∧ g'.clearAt = some at_ ∧ g'.wait = .retry w.s.curPc .away
          ∧ ∀ k, (g'.thread k).pc = (w.g.thread k).pc
    let held := fun (i : Instr) (g : Group) (b : Option Nat) => ∃ t, exec i s = .next t ∧ Holds w.s w.u t g
      ∧ ∃ g', look t.groups w.u = some g' ∧ g'.begun = b ∧ g'.wait = .retry w.s.curPc .kept
    let full := fun (r : Nat) (g : Group) (x : CtlOnly) =>
      (w.g.releaseMet ⟨r, .dev, true⟩ = true → ∃ t, exec (.ffenceFull x) s = .next t ∧ Leaves counted w.u t ((acq g).advance w.sel))
      ∧ (w.g.releaseMet ⟨r, .dev, true⟩ = false → held (.ffenceFull x) g (some r))
    (∀ x, Issues (.ffenceRel x) s w m → ∃ t, exec (.ffenceRel x) s = .next t
        ∧ Leaves counted w.u t ((w.g.addRelease .dev true).advance w.sel))
    ∧ (∀ x, Issues (.ffenceAcq x) s w m → w.g.loads = [] → ∃ t, exec (.ffenceAcq x) s = .next t ∧ Leaves w.s w.u t ((acq w.g).advance w.sel))
    ∧ (∀ x, Issues (.ffenceAcq x) s w m → w.g.loads ≠ [] → held (.ffenceAcq x) w.g w.g.begun)
    ∧ (∀ x, Issues (.ffenceFull x) s w m →
        (w.g.begun = none → full w.g.seq (w.g.addRelease .dev true) x) ∧ ∀ r, w.g.begun = some r → full r w.g x)
    ∧ (∀ x, Issues (.ptprd x) s w m → Does (.ptprd x) s w m false fun _ => .bits (
        if x.st then (match w.s.tstat with
          | .freerun => 0 + 2 ^ 16 * 65535
          | .locking => 1 + 2 ^ 16 * 65535
          | .locked => 2 + 2 ^ 16 * 50
          | .holdover => 3 + 2 ^ 16 * 1000)
        else w.s.now % 2 ^ 64))
    ∧ (∀ x, Issues (.timens x) s w m →
        answers (.timens x) (w.s.updCtx w.tm.ctx fun c => { c with tlast := max c.tlast (c.baseval + w.s.now - c.baseptp) })
          (max w.cx.tlast (w.cx.baseval + w.s.now - w.cx.baseptp) % 2 ^ 64))
    ∧ (∀ x, Issues (.peerq x) s w m →
        let d := w.n32 x.a (lowest m)
        let mask := (rget 0 w.s.routes d).toNat
        let p : Peer := rget {} w.s.peers d
        let rest := 2 ^ 8 * popcount 32 mask + 2 ^ 32 * min (2 ^ 32 - 1) ((w.s.now - p.since) / 1000)
        Does (.peerq x) s w m false fun _ => .bits (
          if d = w.s.devNum then 1 + 8 + rest
          else if 1024 ≤ d ∨ mask = 0 then 0
          else (match p.live with
            | .alive => 1
            | .suspect => 2
            | .dead => 3
            | .fenced => 4) + rest))
    ∧ (∀ x : Rlease,
        let addr := fun k => w.wideAddr (w.n128 x.a k) (x.off.toInt * 128) 1 false true
        let ps := (w.accsOf (Instr.rlease x).uses m 1 .load addr).flatMap fun a => a.pcs
        let ns := fun k => if w.n32 x.b k = 0 then 8000 else max 1000 (min (w.n32 x.b k) 1000000)
        Issues (.rlease x) s w m → w.accessible (Instr.rlease x).uses m 1 .load addr = true →
        (∀ r ∈ w.g.loads, r.id ≠ w.g.seq) → ∃ t l, exec (.rlease x) s = .next t ∧ t.mem = w.s.mem ∧ t.hostMem = w.s.hostMem ∧ t.teams = w.s.teams
          ∧ GroupIs t w.u { w.g.startPend (.rlease x) m w.sel with seq := w.g.seq + 1, loads := w.g.loads ++ l }
          ∧ (∀ v, v ≠ w.u → look t.groups v = look w.s.groups v)
          ∧ (∀ r ∈ l, r.kind = .rlease ∧ r.id = w.g.seq)
          ∧ ∀ p ∈ ps, w.s.isRemote (lineOf p.pa) = true → (∀ q ∈ ps, lineOf q.pa = lineOf p.pa → q.leaf.unc = false) → w.s.reachable (paDevice (lineOf p.pa * 128)) = true →
              ∃ k q n, look t.rout k = some q ∧ q.line = lineOf p.pa ∧ q.dev = paDevice (lineOf p.pa * 128) ∧ q.host = false
                ∧ q.exp = (if w.s.timeGood then w.s.now + n else 0) ∧ q.at_ = w.s.now
                ∧ ((Instr.rlease x).uses.uniform = false → ns p.thr ≤ n))
    ∧ (∀ x, Issues (.fcontainFence x) s w m →
        let d := w.n32 x.a (lowest m)
        (d = w.s.devNum ∨ 1024 ≤ d → answers (.fcontainFence x) w.s 1)
        ∧ (d ≠ w.s.devNum → d < 1024 →
            answers (.fcontainFence x) { w.s with
              peers := if (w.s.peerOf d).live = .fenced then w.s.peers else put w.s.peers d { live := .fenced, since := w.s.now }
              rout := w.s.rout.filter fun r => !(r.2.src == .probe && r.2.dev == d) } 0))
    ∧ (∀ x, Issues (.fcontainClear x) s w m →
        let d := w.n32 x.a (lowest m)
        let live := (w.s.peerOf d).live
        (d = w.s.devNum ∨ 1024 ≤ d → answers (.fcontainClear x) w.s 1)
        ∧ (d ≠ w.s.devNum → d < 1024 → live = .alive ∨ live = .suspect → answers (.fcontainClear x) w.s 0)
        ∧ (d ≠ w.s.devNum → d < 1024 → live = .dead ∨ live = .fenced →
            (w.g.clearAt = none → ∃ t, waits (.fcontainClear x) w.s.now t ∧ (rget 0 w.s.routes d ≠ 0 → ∃ k q, look t.rout k = some q
                ∧ q.src = .probe ∧ q.dev = d ∧ q.at_ = w.s.now))
            ∧ (∀ b, w.g.clearAt = some b → w.s.now < b + 50000 → ∃ t, waits (.fcontainClear x) b t)
            ∧ (∀ b, w.g.clearAt = some b → b + 50000 ≤ w.s.now →
                answers (.fcontainClear x) { w.s with rout := w.s.rout.filter fun r => !(r.2.src == .probe && r.2.dev == d) } 2)))

/-- R400 to R405, R413, R414, R418, R419. A request of another device or of the bridge's host is refused without a trace, is
performed at the line's home at its acceptance, or is held there and performed later, when it is admitted still; one of a line of the
host window goes to the bridge first, and is answered as failed when the host does not serve it. The bridge's host reaches HBM through
the HDM decoders. An answer ends the request it answers; a request to a device that does not answer fails. A device that has been
silent for 100 µs is SUSPECT, one whose probe has had no answer for 50 µs more is DEAD. The model's choices: the mask of the bytes
that a store writes (log 95), EXP recorded and writes held whatever the home's time status (logs 52 and 102), PF0 as the hypervisor
(log 45). -/
def Obligations.FabricRequests : Prop :=
  (∀ (s : State) (dev pa n : Nat) (op : RemoteOp),
    let a := paLocal pa
    let h : HeldReq := { dev := some dev, pa := pa, n := n, op := op }
    let live := (s.peerOf dev).live
    let ours := paDevice pa = s.devNum ∧ opFits op a n = true
    let good := ours ∧ s.exported a n (opWrites op) = true ∧ s.reqReaches a n (opWrites op) = true
    let sends := fun (t : State) (r : RemoteReply) => t.answer = some ⟨some dev, pa, n, r⟩
    let accepted := live ≠ .dead ∧ live ≠ .fenced ∧ good ∧ s.reqWaits h s.uid = false
    (¬ours → exec (.remoteRequest dev pa n op) s = .next s)
    ∧ (ours → live = .dead ∨ live = .fenced ∨ ¬good →
        exec (.remoteRequest dev pa n op) s = .next { s with answer := some ⟨some dev, pa, n, .refused⟩ })
    ∧ (live ≠ .dead → live ≠ .fenced → good → s.reqWaits h s.uid = true →
        exec (.remoteRequest dev pa n op) s = .next { s with held := put s.held s.uid h, uid := s.uid + 1 })
    ∧ (accepted → isHostLine (lineOf pa) = true → ∃ t k q, exec (.remoteRequest dev pa n op) s = .next t ∧ t.mem = s.mem
        ∧ t.hostMem = s.hostMem ∧ look t.held s.uid = some { h with sent := true }
        ∧ look t.rout k = some q ∧ q.src = .held s.uid ∧ q.host = true ∧ q.line = lineOf pa ∧ q.at_ = s.now)
    ∧ (∀ e, op = .load e → accepted → isHostLine (lineOf pa) = false →
        (look s.zones (s.lineZone a)).isSome = true → ∃ t, exec (.remoteRequest dev pa n op) s = .next t ∧ t.mem = s.mem
          ∧ sends t (if s.badLine (lineOf pa) then .poisoned else .data (BitVec.ofNat 1024 (natOfBytes (s.readLocal a n))))
          ∧ e ≤ (t.homeRec (s.lineZone a) (s.vaultHome a) (lineOf pa)).expmax)
    ∧ (∀ mask bs, op = .store mask bs → accepted → isHostLine (lineOf pa) = false →
        ∃ t, exec (.remoteRequest dev pa n op) s = .next t ∧ sends t (.ack [])
          ∧ ∀ b, readByte t.mem b = if a ≤ b ∧ b < a + n ∧ mask.getLsbD (b - a) = true then bs.getD (b - a) 0 else readByte s.mem b)
    ∧ (∀ ty aop b c, op = .atom ty aop b c → accepted → isHostLine (lineOf pa) = false →
        s.badLine (lineOf pa) = false → ∃ t, exec (.remoteRequest dev pa n op) s = .next t
          ∧ sends t (.ack [BitVec.ofNat 128 (readNat s.mem a n)])))
  ∧ (∀ (s : State) (k : Nat) (h : HeldReq), look s.held k = some h →
    let a := paLocal h.pa
    let admitted := (h.dev = none ∨ s.exported a h.n (opWrites h.op) = true) ∧ s.reqReaches a h.n (opWrites h.op) = true
    (h.sent = true ∨ s.reqWaits h k = true → exec (.heldWriteRelease k) s = .next s)
    ∧ (h.sent = false → s.reqWaits h k = false →
        (¬admitted → exec (.heldWriteRelease k) s = .next { s with held := del s.held k, answer := some ⟨h.dev, h.pa, h.n, .refused⟩ })
        ∧ (admitted → isHostLine (lineOf h.pa) = true → exec (.heldWriteRelease k) s = .next { s with
            held := put s.held k { h with sent := true }
            rout := put s.rout s.reqSeq ⟨.held k, s.devNum, lineOf h.pa, true, 0, s.now⟩, reqSeq := s.reqSeq + 1 })
        ∧ (admitted → isHostLine (lineOf h.pa) = false → ∃ t, exec (.heldWriteRelease k) s = .next t ∧ look t.held k = none
          ∧ ∀ mask bs, h.op = .store mask bs → h.pa % 128 + bs.length ≤ 128 → ∀ b, readByte t.mem b =
            if a ≤ b ∧ b < a + bs.length ∧ mask.getLsbD (b - a) = true then bs.getD (b - a) 0 else readByte s.mem b)))
  ∧ (∀ (s : State) (k : Nat) (q : Req), look s.rout k = some q → q.host = false →
    let live := (s.peerOf q.dev).live
    (∀ r, q.src = .probe → exec (.remoteResponse k r) s = .next
        { s with rout := del s.rout k
                 peers := if live = .alive then s.peers else put s.peers q.dev { live := .alive, since := s.now } })
    ∧ (∀ r, q.src ≠ .probe → live = .dead ∨ live = .fenced → exec (.remoteResponse k r) s = .next s)
    ∧ (∀ line u id j c, q.src = .load u id j → live = .alive ∨ live = .suspect → s.lineCtx? u id j = some c →
        (c.bindsLater = false → ∃ t, exec (.remoteResponse k (.data line)) s = .next t ∧ look t.rout k = none ∧ t.mem = s.mem
          ∧ (t.peerOf q.dev).live = .alive ∧ GroupIs t u (c.g.finishLoad (c.r.bind c.k c.q.line (fun a => LineData.byte line a) false)))
        ∧ (c.bindsLater = false → ∃ t, exec (.remoteResponse k .poisoned) s = .next t ∧ look t.rout k = none ∧ t.mem = s.mem
          ∧ (t.peerOf q.dev).live = .alive ∧ GroupIs t u (c.g.finishLoad (c.r.bind c.k c.q.line poisonByte true)))
        ∧ (c.bindsLater = true → ∃ t, exec (.remoteResponse k (.data line)) s = .next t ∧ t.rout = s.rout ∧ t.mem = s.mem
          ∧ t.groups = s.groups))
    ∧ (∀ olds u fid g, q.src = .store u fid → live = .alive ∨ live = .suspect → look s.groups u = some g →
        ∃ t, exec (.remoteResponse k (.ack olds)) s = .next t ∧ look t.rout k = none ∧ t.mem = s.mem ∧ (t.peerOf q.dev).live = .alive
          ∧ GroupIs t u { g with fly := g.fly.map fun (f : FlyLine) => if f.fid = fid then { f with
              accepted := true
              done := some (none, ((f.parts.filter SPart.isAtom).map fun p => p.thr).zip (olds.map fun o => o.toNat), none) } else f })
    ∧ (∀ u id j g rec, q.src = .load u id j → s.reachable q.dev = false → look s.groups u = some g →
        g.loads.find? (fun r => r.id == id) = some rec → rec.kind = .data →
        ∃ t, exec (.remoteFailure k) s = .next t ∧ look t.rout k = none ∧ t.mem = s.mem
          ∧ GroupIs t u (({ g with reports := g.reports ++ [⟨1, q.dev, rec.threadsOn q.line⟩] } : Group).finishLoad (rec.fail j q.line)))
    ∧ (s.reachable q.dev = true → exec (.remoteFailure k) s = .next s))
  ∧ (∀ (s : State) (u : Nat) (g : Group), look s.groups u = some g → ∃ t, exec (.fenceAssistAnswer u) s = .next t
    ∧ GroupIs t u { g with fly := g.fly.map fun (f : FlyLine) =>
        if f.remote && decide (∃ r ∈ g.rels, r.pod = true ∧ f.id < r.seq) then { f with accepted := true } else f })
  ∧ (∀ (s : State) (d : Nat),
    let p := s.peerOf d
    (p.live = .alive → (∃ r ∈ s.rout, r.2.dev = d ∧ r.2.host = false ∧ r.2.src ≠ .probe ∧ r.2.at_ + 100000 ≤ s.now) →
        ∃ t, exec (.suspect d) s = .next t ∧ t.peerOf d = { live := .suspect, since := s.now }
          ∧ (rget 0 s.routes d ≠ 0 → ∃ k q, look t.rout k = some q ∧ q.src = .probe ∧ q.dev = d))
    ∧ (p.live ≠ .alive → exec (.suspect d) s = .next s)
    ∧ (p.live = .suspect → p.since + 50000 ≤ s.now → ∃ t, exec (.probeTimeout d) s = .next t
        ∧ t.peerOf d = { live := .dead, since := s.now } ∧ ∀ r ∈ t.rout, ¬(r.2.src = .probe ∧ r.2.dev = d))
    ∧ (p.live ≠ .suspect ∨ s.now < p.since + 50000 → exec (.probeTimeout d) s = .next s)
    ∧ (p.live ≠ .fenced → d ≠ s.devNum →
        exec (.linkDown d) s = .next { s with
          peers := if p.live = .dead then s.peers else put s.peers d { live := .dead, since := s.now }
          rout := s.rout.filter fun r => !(r.2.src == .probe && r.2.dev == d) })
    ∧ (p.live = .fenced ∨ d = s.devNum → exec (.linkDown d) s = .next s))
  ∧ (∀ (s : State) (from_ : Writer) (pa n : Nat) (op : HostOp),
    let a := paLocal pa
    let guest := fun z => z < 64 ∧ (look s.zones z).isSome = true
    let host := from_ = .pf0 ∨ ∃ z, from_ = .vf z ∧ guest z
    let data := fun bs : List Byte => RemoteReply.data (BitVec.ofNat 1024 (natOfBytes bs))
    let cxl := regionOf a ≠ .doorbell ∧ regionOf a ≠ .devreg
    (s.bridge = false ∨ s.chipActive 12 = false ∨ ¬host → exec (.hostRequest from_ pa n op) s = .next s)
    ∧ (s.bridge = true → s.chipActive 12 = true → host → n ≠ 0 →
        (regionOf a = .doorbell ∨ regionOf a = .devreg →
          exec (.hostRequest from_ pa n .read) s = .next { s with answer := some ⟨none, pa, n, data (s.readRegs from_ a n)⟩ })
        ∧ (cxl → s.hdmAddr pa n = none → ∀ o, exec (.hostRequest from_ pa n o) s = .next s)
        ∧ (∀ b, cxl → s.hdmAddr pa n = some b → s.reqReaches b n false = true → regionOf b = .hbm →
            s.reqWaits { dev := none, pa := s.ownPa b, n := n, op := .load 0 } s.uid = false →
            ∃ t, exec (.hostRequest from_ pa n .read) s = .next t ∧ t.mem = s.mem ∧ t.answer = some ⟨none, s.ownPa b, n,
              if s.badLine (lineOf (s.ownPa b)) then .poisoned else data (s.readLocal b n)⟩))
    ∧ (∀ bs, s.bridge = true → s.chipActive 12 = true → bs.length = n → n ≠ 0 →
        (from_ = .pf0 → regionOf a = .devreg → exec (.hostRequest from_ pa n (.write bs)) s = .next (s.writeRegs from_ a bs))
        ∧ ((from_ = .pf0 ∨ ∃ z, from_ = .vf z ∧ z < 64 ∧ (look s.zones z).isSome = true) → regionOf a = .doorbell →
            exec (.hostRequest from_ pa n (.write bs)) s = .next (s.writeRegs from_ a bs))
        ∧ (∀ z, from_ = .vf z → regionOf a = .devreg → exec (.hostRequest from_ pa n (.write bs)) s = .next s)
        ∧ (∀ c, host → cxl → s.hdmAddr pa n = some c → regionOf c = .hbm →
            s.reqReaches c n true = true → s.reqWaits { dev := none, pa := s.ownPa c, n := n, op := .store (BitVec.allOnes 128) bs } s.uid = false →
            ∃ t, exec (.hostRequest from_ pa n (.write bs)) s = .next t
              ∧ ∀ b, readByte t.mem b = if c ≤ b ∧ b < c + n then bs.getD (b - c) 0 else readByte s.mem b)))
  ∧ (∀ (s : State) (k : Nat) (q : Req) (ok : Bool), look s.rout k = some q → q.host = true →
    let served := ok = true ∧ s.bridge = true ∧ s.chipActive 12 = true
    (∀ u id j c, q.src = .load u id j → served → s.lineCtx? u id j = some c →
        (c.turn s = false → exec (.hostCompletion k ok) s = .next s)
        ∧ (c.turn s = true → ∃ t, exec (.hostCompletion k ok) s = .next t ∧ look t.rout k = none ∧ t.mem = s.mem ∧ t.hostMem = s.hostMem
          ∧ (c.q.leaf.unc = true → c.r.kind.fills = true → ∃ ts, c.r.p ≤ ts ∧ GroupIs t u (({ c.g with lmax := max c.g.lmax ts } : Group).finishLoad
              (c.r.bind c.k c.q.line (fun a => LineData.byte (s.lineData q.line) a) false)))))
    ∧ (∀ u id j g rec, q.src = .load u id j → ¬served → look s.groups u = some g → g.loads.find? (fun r => r.id == id) = some rec →
        rec.kind = .data → ∃ t, exec (.hostCompletion k ok) s = .next t ∧ look t.rout k = none ∧ t.mem = s.mem
          ∧ GroupIs t u (({ g with reports := g.reports ++ [⟨7, q.dev, rec.threadsOn q.line⟩] } : Group).finishLoad (rec.fail j q.line)))
    ∧ (∀ u fid g f, q.src = .store u fid → served → look s.groups u = some g → g.fly.find? (fun x => x.fid == fid) = some f →
        ∃ t g', exec (.hostCompletion k ok) s = .next t ∧ look t.rout k = none ∧ look t.groups u = some g'
          ∧ ∀ x ∈ g'.fly, x.fid = fid → x.done ≠ none)
    ∧ (∀ n h, q.src = .held n → look s.held n = some h →
        (¬served → ∃ t, exec (.hostCompletion k ok) s = .next t ∧ look t.rout k = none ∧ look t.held n = none ∧ t.mem = s.mem
          ∧ t.hostMem = s.hostMem ∧ t.answer = some ⟨h.dev, h.pa, h.n, .hostFailed⟩)
        ∧ (served → isHostLine (lineOf h.pa) = true → let a := paLocal h.pa
          (h.dev = none ∨ s.exported a h.n (opWrites h.op) = true) → s.reqReaches a h.n (opWrites h.op) = true →
          ∃ t, exec (.hostCompletion k ok) s = .next t ∧ look t.rout k = none ∧ look t.held n = none ∧ t.mem = s.mem
          ∧ (∀ e, h.op = .load e → t.hostMem = s.hostMem ∧ (s.badLine (lineOf h.pa) = false →
              t.answer = some ⟨h.dev, h.pa, h.n, .data (BitVec.ofNat 1024 (natOfBytes (s.readLocal a h.n)))⟩))
          ∧ ∀ mask bs, h.op = .store mask bs → h.pa % 128 + bs.length ≤ 128 → ∀ b, readByte t.hostMem b =
            if a ≤ b ∧ b < a + bs.length ∧ mask.getLsbD (b - a) = true then bs.getD (b - a) 0 else readByte s.hostMem b))
    ∧ (∀ c x, q.src = .copy c → ok = true → s.bridge = true → s.chipActive 12 = true → look s.copies c = some x →
        exec (.hostCompletion k ok) s = .next { s with rout := del s.rout k, copies := put s.copies c { x with far := put x.far q.line (s.lineData q.line) } })
    ∧ (∀ c x, q.src = .copy c → (ok = false ∨ s.bridge = false ∨ s.chipActive 12 = false) → look s.copies c = some x → ∃ t,
        exec (.hostCompletion k ok) s = .next t ∧ look t.rout k = none
          ∧ look t.copies c = some { x with status := some (x.status.getD 0x0304), serving := false }))

/-- R404, R409 to R412, R416. The device's time: its status changes as R416's table says and outside of LOCKING's entry the time
moves forward only, by no more than the bound in force; a step keeps how long peers and requests have waited (the amount of one correction is the model's choice: log entry 32). A
status that changes is a capacity change, since LINKS holds it (R434; log entry 72: the model's reading). A
collective waits for its own buffers and its table to be free at their homes; its receive buffer is given what R410 says, lines on
other devices by stores whose acknowledgements it waits for, or the node fails with MEMBERLOST or BADCOLL. Which status a buffer gives
that cannot be read or written, and the raising of the zone's clock, are the model's choices (log 51). -/
def Obligations.TimeAndCollectives : Prop :=
  let enters := fun (o : Host.Outcome State Fault Refusal) (s : State) (st : TimeStat) => ∃ e : EvRec,
    e.code = 0x09 ∧ e.arg / 2 ^ 16 = 0xFFFF ∧ e.data = s.capgen + 1
      ∧ o = .next ({ s with tstat := st, capgen := s.capgen + 1, nfree := s.nfree + 2 }.raise 64 e)
  (∀ (s : State) (n : Nat),
    let moved := fun b => if s.now ≤ n ∧ n ≤ s.now + b then n else s.now
    (∀ l, s.chipActive 12 = false → exec (.ptpMessage l n) s = .next s)
    ∧ (s.chipActive 12 = true →
      (∀ l, s.tstat = .freerun → enters (exec (.ptpMessage l n) s)
          { s with
            now := n
            leftAt := if s.leftAt = 0 then 0 else max 1 (n - (s.now - s.leftAt))
            groups := mapVals s.groups fun _ g => { g with clearAt := g.clearAt.map fun c => n - (s.now - c) }
            peers := mapVals s.peers fun _ p => { p with since := n - (s.now - p.since) }
            rout := mapVals s.rout fun _ q => { q with at_ := n - (s.now - q.at_) } } .locking)
      ∧ (s.tstat = .locking → enters (exec (.ptpMessage true n) s) { s with now := moved 50 } .locked)
      ∧ (s.tstat = .locking → exec (.ptpMessage false n) s = .next { s with now := moved 1000 })
      ∧ (∀ l, s.tstat = .locked → exec (.ptpMessage l n) s = .next { s with now := moved 50 })
      ∧ (s.tstat = .holdover → enters (exec (.ptpMessage true n) s) { s with now := moved 1000, leftAt := max 1 (moved 1000) } .locked)
      ∧ (s.tstat = .holdover → exec (.ptpMessage false n) s = .next s)
      ∧ (n % 1000000000 = 0 → s.tstat = .locking ∨ s.tstat = .locked → exec (.ppsEdge n) s = .next { s with now := moved 50 })
      ∧ (n % 1000000000 ≠ 0 ∨ s.tstat = .freerun ∨ s.tstat = .holdover → exec (.ppsEdge n) s = .next s)))
  ∧ (∀ (s : State),
    (s.tstat = .locked → enters (exec .referenceLoss s) { s with holdoverAt := s.now } .holdover)
    ∧ (s.tstat ≠ .locked → exec .referenceLoss s = .next s)
    ∧ (s.tstat = .holdover → s.holdoverAt + 60000000000 ≤ s.now →
        enters (exec .holdoverExpiry s) { s with leftAt := max 1 s.now, rcopies := [] } .freerun)
    ∧ (s.tstat ≠ .holdover ∨ s.now < s.holdoverAt + 60000000000 → exec .holdoverExpiry s = .next s))
  ∧ (∀ (s : State) (gr nd : Nat) (status : W16) (inputs : List (List Byte)) (g : Graph) (cx : Ctx) (snd_ rcv : Shape),
    look s.graphs gr = some g → look s.ctxs g.ctx = some cx →
    let x := g.node nd
    let n := x.fld 0x18 2
    let run := exec (.collectiveRetire gr nd status inputs) s
    s.collShapes cx g x = some (snd_, rcv) →
    let held := s.exQueued cx (g.addr (x.fld 0x10 8)) (2 * n) || s.bufHeld cx snd_ .load || s.bufHeld cx rcv .store
    (x.kind ≠ 3 ∨ x.st ≠ .running ∨ held = true → run = .next s)
    ∧ (∀ table, x.kind = 3 → x.st = .running → held = false → s.exRead? cx (g.addr (x.fld 0x10 8)) (2 * n) = some table →
      s.bufRead cx snd_ (inputs.getD (x.fld 0x1A 2) []) = none → run = .next (s.failColl cx rcv gr nd 0x0205))
    ∧ (∀ table own, x.kind = 3 → x.st = .running → held = false →
      s.exRead? cx (g.addr (x.fld 0x10 8)) (2 * n) = some table → s.bufRead cx snd_ (inputs.getD (x.fld 0x1A 2) []) = some own →
      let ds := (List.range n).map fun i => fieldOf table (2 * i) 2
      let lost := ds.filter fun d => d != s.devNum && ((s.peerOf d).live == .dead || (s.peerOf d).live == .fenced)
      let runs := lost = [] ∧ x.lost = false
      (status = 0x0206 ∨ ds.getD (x.fld 0x1A 2) 1024 ≠ s.devNum ∨ ¬ds.Nodup → run = .next (s.failColl cx rcv gr nd 0x0206))
      ∧ (status ≠ 0x0206 → ds.getD (x.fld 0x1A 2) 1024 = s.devNum → ds.Nodup →
        (¬runs → run = .next (s.failColl cx rcv gr nd 0x0205 lost))
        ∧ (runs → x.wrote = true → (∃ r ∈ s.rout, r.2.src = .coll gr nd) → run = .next s)
        ∧ (runs → x.wrote = true → (∀ r ∈ s.rout, r.2.src ≠ .coll gr nd) →
            run = .next ((s.raiseClock cx.zone cx rcv).retireNode gr nd 0 fun _ => true))
        ∧ (runs → x.wrote = false → status ≠ 0 ∨ inputs.length ≠ n → run = .next s)
        ∧ (runs → x.wrote = false → status = 0 → inputs.length = n →
          let ins := (setAt inputs (x.fld 0x1A 2) fun _ => own).map (unpackElems snd_.ty.container snd_.elems)
          ∀ out ps, snd_.ty = rcv.ty →
            collResult (x.fld 0x1C 1) (x.fld 0x1E 2) (RedOp.ofCode (BitVec.ofNat 3 (x.fld 0x1D 1))) snd_.ty (x.fld 0x1A 2) snd_.elems rcv.elems ins
              = some out →
            s.bufPieces cx rcv .store = .ok ps → let s1 := s.bufPut cx.zone ps (packElems snd_.ty.container out)
            (s.bufOpen ps = false → run = .next (s.failColl cx rcv gr nd 0x0205))
            ∧ (s.bufOpen ps = true → s.bufFar ps = [] →
              run = .next ((s1.raiseClock cx.zone cx rcv).retireNode gr nd 0 fun _ => true))
            ∧ (s.bufOpen ps = true → s.bufFar ps ≠ [] → ∃ t, run = .next t ∧ t.mem = s1.mem
              ∧ (∃ g', look t.graphs gr = some g' ∧ (nd < g.nodes.length → (g'.node nd).wrote = true))
              ∧ ∀ l ∈ s.bufFar ps, ∃ k q, look t.rout k = some q ∧ q.src = .coll gr nd ∧ q.line = l ∧ q.host = false)))))

/-! ## The device -/

/-- R430 to R433. A chiplet that is fenced, by the hypervisor or by an error of its own, is FENCED with one failure more, its units
leave the capacity record, whose generation rises by one, DEGRADED is set, the error log has an entry of kind 4 and the hypervisor
a HEALTH event. OFF and reset follow R430; a core's or a channel's loss likewise leaves the record. -/
def Obligations.ChipletsCoresChannels : Prop :=
  ∀ (s : State),
    let told := fun (t : State) (chip kind unit : Nat) =>
      let e : EvRec := { code := 0x09, arg := chip + 2 ^ 8 * kind + 2 ^ 16 * unit, data := s.capgen + 1 }
      t.capgen = s.capgen + 1 ∧ (e ∈ rget [] t.evq 64 ∨ (64, e) ∈ t.evHeld)
    let fenced := fun (c : Nat) (t : State) =>
      t.chip c = { st := .fenced, fails := min 65535 ((s.chip c).fails + 1) } ∧ told t c 4 0xFFFF ∧ t.health.degraded = true
      ∧ (∃ n, fieldOf (rget [] t.health.log n) 8 1 = 4 ∧ fieldOf (rget [] t.health.log n) 9 1 = c ∧ t.health.next = (n + 1) % 256)
      ∧ (c < 8 → t.cap.coreMask c = 0 ∧ t.cap.sliceMask c = 0)
      ∧ (∀ k, 8 ≤ c → c < 12 → k < 96 → t.cap.chanLive (96 * (c - 8) + k) = false)
    (∀ f c,
      (s.writerHyp f = true → c < 14 → s.chipActive c = true → c < 12 ∨ s.chipActive (25 - c) = true →
        ∃ t, exec (.chipletFence f c) s = .next t ∧ fenced c t)
      ∧ (s.writerHyp f = false ∨ 14 ≤ c ∨ s.chipActive c = false ∨ (12 ≤ c ∧ s.chipActive (25 - c) = false) →
        exec (.chipletFence f c) s = .next s)
      ∧ (s.writerHyp f = true → c < 14 → (s.chip c).st = .fenced → ∃ t kind, exec (.chipletPowerOff f c) s = .next t
          ∧ t.chip c = { s.chip c with st := .off } ∧ told t c kind 0xFFFF)
      ∧ (s.writerHyp f = false ∨ 14 ≤ c ∨ (s.chip c).st ≠ .fenced → exec (.chipletPowerOff f c) s = .next s)
      ∧ (s.writerHyp f = true → c < 14 → (s.chip c).st = .fenced ∨ (s.chip c).st = .off → ∃ t kind, exec (.chipletReset f c) s = .next t
          ∧ t.chip c = { s.chip c with st := .resetting } ∧ told t c kind 0xFFFF)
      ∧ (s.writerHyp f = false ∨ 14 ≤ c ∨ (s.chip c).st = .active ∨ (s.chip c).st = .resetting → exec (.chipletReset f c) s = .next s))
    ∧ (∀ c, c < 14 → (s.chipActive c = true → ∃ t, exec (.chipletError c) s = .next t ∧ fenced c t)
      ∧ (s.chipActive c = false → exec (.chipletError c) s = .next s)
      ∧ ((s.chip c).st = .resetting →
          (∃ t, exec (.resetDone c false) s = .next t ∧ fenced c t)
          ∧ ∃ t kind, exec (.resetDone c true) s = .next t ∧ t.chip c = { s.chip c with st := .active } ∧ told t c kind 0xFFFF)
      ∧ ((s.chip c).st ≠ .resetting → ∀ p, exec (.resetDone c p) s = .next s))
    ∧ (s.cap.gate < 2 →
      (s.chipActive (12 + s.cap.gate) = false → s.chipActive (13 - s.cap.gate) = true → ∃ t kind, exec .exchangeTakeover s = .next t
          ∧ t.cap = { s.cap with gate := 1 - s.cap.gate } ∧ told t (12 + s.cap.gate) kind 0xFFFF)
      ∧ (s.chipActive (12 + s.cap.gate) = true ∨ s.chipActive (13 - s.cap.gate) = false → exec .exchangeTakeover s = .next s))
    ∧ (∀ core, core < 1024 →
      (s.cap.coreLive core = true → ∃ t, exec (.coreFence core) s = .next t ∧ t.cap.coreLive core = false
          ∧ (∀ k, k ≠ core → t.cap.coreLive k = s.cap.coreLive k) ∧ told t (core / 128) 5 (core % 128)
          ∧ (∀ k tm, look s.teams k = some tm → tm.core = core → tm.run ≠ .spilled → tm.run ≠ .saved → look t.teams k = none)
          ∧ ∃ n, fieldOf (rget [] t.health.log n) 8 1 = 5)
      ∧ (s.cap.coreLive core = false → exec (.coreFence core) s = .next s))
    ∧ (∀ ch r, ch < 384 →
      (s.cap.chanLive ch = true → ∃ t, exec (.channelLoss ch r) s = .next t ∧ t.cap.chanLive ch = false
          ∧ (∀ k, k ≠ ch → t.cap.chanLive k = s.cap.chanLive k) ∧ told t (8 + ch / 96) 6 ch
          ∧ (r = false → ch ∈ t.deadChs) ∧ ∃ n, fieldOf (rget [] t.health.log n) 8 1 = 6)
      ∧ (s.cap.chanLive ch = false → exec (.channelLoss ch r) s = .next s))

/-- R29, R435, R438 to R440, R442, R455. Cold reset, which needs every image accepted, writes of device registers, HEALTH's W1C bit,
and the attestation report, which the controller writes unless its destination is held at its home. The model's choices: what a cold
reset keeps (log 57), a machine without inputs of bring-up in RECOVERY (log 1), the registers that R439 does not name (log 6), the
places of the device registers (log 27). -/
def Obligations.BringUpAndRegisters : Prop :=
  (∀ (s : State), (s.boot = none → ∃ t, exec .coldReset s = .next t ∧ t.phase = .recovery ∧ t.groups = [] ∧ t.ctxs = [])
    ∧ ∀ b, s.boot = some b →
      (b.passes = false ∨ b.verified = false ∨ (12 ∈ b.failed ∧ 13 ∈ b.failed) → ∃ t, exec .coldReset s = .next t ∧ t.phase = .recovery ∧ t.groups = [])
      ∧ ∃ t, exec .coldReset s = .next t ∧ t.now = s.now ∧ t.hostMem = s.hostMem
        ∧ ((t.phase = .recovery ∧ t.groups = [])
          ∨ (t.phase = .running ∧ t.capgen = 1 ∧ t.devNum = b.device % 1024 ∧ t.groupBridge = b.groupBridge
            ∧ (t.bridge = true ↔ b.groupBridge = some t.devNum) ∧ (∀ z, z ≠ 64 → look t.zones z = none)
            ∧ (∀ n, n ≠ 0 → look t.ctxs n = none) ∧ (∃ cx, look t.ctxs 0 = some cx ∧ cx.priv = .hyp ∧ cx.zone = 64 ∧ cx.ptroot = b.root)
            ∧ t.mem = b.memory
            ∧ ∀ a, readByte t.mem a ≠ readByte [] a → 0xF800000000 ≤ a ∧ a < 0xF800000000 + 2 ^ 34)))
  ∧ (∀ (s : State) (f : Writer) (pa n : Nat) (v : W64),
    (isRegLine (lineOf pa) = false ∨ 8 < n → exec (.registerWrite f pa n v) s = .next s)
    ∧ (∀ d, d < 8 → pa = 0x3F0001900000 + 8 * d →
        (f = .controller → exec (.registerWrite f pa 8 v) s = .next { s with govs := put s.govs d { s.gov d with rate := v.toNat % 2 ^ 21 } })
        ∧ (f ≠ .controller → exec (.registerWrite f pa 8 v) s = .next s)))
  ∧ (∀ (s : State) (f : Writer) (v : W64), exec (.healthW1c f v) s = .next (if s.writerHyp f ∧ v.getLsbD 3 = true then
      { s with health := { s.health with logfull := false } } else s))
  ∧ (∀ (s : State) (f : Writer) (nonce : List Byte) (zone : BitVec 8) (dest : Nat),
    (s.writerHyp f = false → f ≠ .controller → exec (.attestationRequest f nonce zone dest) s = .next s)
    ∧ (s.writerHyp f = true ∨ f = .controller → (∃ j, (j = 511 ∨ j % 128 = 0 ∧ j < 512) ∧ s.homeHeld (s.lineZone (dest + j))
        (s.homeOf {} {} (dest + j)) (lineOf (s.ownPa (dest + j))) = true) → exec (.attestationRequest f nonce zone dest) s = .next s)
    ∧ (s.writerHyp f = true ∨ f = .controller → (∀ j, j < 512 → regionOf (dest + j) = .hbm ∧ (s.backer (dest + j)).isSome = true
        ∧ s.lineQueued (lineOf (s.ownPa (dest + j))) = false
        ∧ s.homeHeld (s.lineZone (dest + j)) (s.homeOf {} {} (dest + j)) (lineOf (s.ownPa (dest + j))) = false) →
      ∃ t, exec (.attestationRequest f nonce zone dest) s = .next t
        ∧ t.mailbox = { nonce := nonce.take 32 ++ List.replicate (32 - nonce.length) 0, zone := zone.toNat, dest := dest, done := true }
        ∧ (∀ j, j < 512 → readByte t.mem (dest + j) = (s.report nonce zone.toNat).getD j 0)
        ∧ ∀ a, a < dest ∨ dest + 512 ≤ a → readByte t.mem a = readByte s.mem a))

/-! ## Issue, traps of issue, branches and accesses -/

/-- R34, R46, R47, R75, R104, R135, R137, R333. What an instruction does before its own effect: ILLOP of a form or a register it may
not have, PRIV, the skip of an empty execution mask, and the trap of an operand that cannot be read. Past these checks a form of the
floating, conversion, special and cross-thread rows completes: it answers a next state in which its selected threads have moved past
it, its destinations hold results, the rest of its group is as it was, and its exceptions wait for its completion. An event has no
word and no such check: it answers a next state in every state, for all its operands. -/
def Obligations.IssueChecks : Prop :=
  (∀ (i : Instr) (o : BitVec 10) (s : State) (w : View), i.opc = some o → s.view? = some w →
    let m := w.execMask i.uses.ctl.guard
    (i.uses.legal = false ∨ i.uses.regsOk w.g.regs = false → ∃ t, exec i s = .next t ∧ TrapTaken w w.g 0x01 w.sel w.pc64 o.toNat t)
    ∧ (i.uses.legal = true → i.uses.regsOk w.g.regs = true →
      (w.privOk i.uses.priv = false → ∃ t, exec i s = .next t ∧ TrapTaken w w.g 0x02 w.sel w.pc64 o.toNat t)
      ∧ (w.privOk i.uses.priv = true →
        (m = 0 → ∃ t, exec i s = .next t ∧ Leaves w.s w.u t (w.g.advance w.sel))
        ∧ (m ≠ 0 → ∀ code bad info, w.operandError i.uses m = some (code, bad, info) →
            ∃ t, exec i s = .next t ∧ TrapTaken w w.g code bad w.pc64 info t))))
  ∧ (∀ (s : State) (w : View) (m : Mask),
    let completes := fun i : Instr => Issues i s w m → ∃ sx out t, exec i s = .next t ∧ LaneDone i w m sx out t ∧ Excepts i w m out t
    (∀ x, completes (.fadd x)) ∧ (∀ x, completes (.fsub x)) ∧ (∀ x, completes (.fmul x)) ∧ (∀ x, completes (.ffma x))
    ∧ (∀ x, completes (.fmin x)) ∧ (∀ x, completes (.fmax x)) ∧ (∀ x, completes (.fsetp x)) ∧ (∀ x, completes (.fclass x))
    ∧ (∀ x, completes (.fscale x)) ∧ (∀ x, completes (.frnd x)) ∧ (∀ x, completes (.hadd2 x)) ∧ (∀ x, completes (.hmul2 x))
    ∧ (∀ x, completes (.hfma2 x)) ∧ (∀ x, completes (.hmin2 x)) ∧ (∀ x, completes (.hmax2 x)) ∧ (∀ x, completes (.dadd x))
    ∧ (∀ x, completes (.dmul x)) ∧ (∀ x, completes (.dfma x)) ∧ (∀ x, completes (.dsetp x)) ∧ (∀ x, completes (.dmin x))
    ∧ (∀ x, completes (.dmax x)) ∧ (∀ x, completes (.rcp x)) ∧ (∀ x, completes (.rsq x)) ∧ (∀ x, completes (.sqrt x))
    ∧ (∀ x, completes (.ex2 x)) ∧ (∀ x, completes (.lg2 x)) ∧ (∀ x, completes (.sinpi x)) ∧ (∀ x, completes (.cospi x))
    ∧ (∀ x, completes (.tanh x)) ∧ (∀ x, completes (.cvtff x)) ∧ (∀ x, completes (.cvtfi x)) ∧ (∀ x, completes (.cvtif x))
    ∧ (∀ x, completes (.packn x)) ∧ (∀ x, completes (.unpackn x)) ∧ (∀ x, completes (.scaleb x)) ∧ (∀ x, completes (.rand x))
    ∧ (∀ x, completes (.cvtsr x)) ∧ (∀ x, completes (.vote x)) ∧ (∀ x, completes (.shfl x)) ∧ (∀ x, completes (.redux x))
    ∧ (∀ x, completes (.scan x)) ∧ (∀ x, completes (.match_ x)) ∧ (∀ x, completes (.elect x)) ∧ (∀ x, completes (.bcast x)))
  ∧ ∀ s : State,
    let runs := fun i : Instr => ∃ t, exec i s = .next t
    (∀ g, runs (.haltsib g)) ∧ (∀ g, runs (.arithlog g)) ∧ (∀ g k, runs (.instructionComplete g k))
    ∧ (∀ q slot, runs (.slotRefill q slot)) ∧ (∀ g t, runs (.holdExpiry g t)) ∧ (∀ g t, runs (.sleepExpiry g t))
    ∧ (∀ tm b, runs (.barRelease tm b)) ∧ (∀ tm b, runs (.barcRelease tm b)) ∧ (∀ g, runs (.groupRetire g))
    ∧ (∀ g, runs (.ptsWindowTick g)) ∧ (∀ g ld k, runs (.grantL2 g ld k)) ∧ (∀ g ld k, runs (.lineFill g ld k))
    ∧ (∀ g ld k, runs (.renewalReturn g ld k)) ∧ (∀ z, runs (.epochRollover z)) ∧ (∀ g, runs (.storeBufferLeave g))
    ∧ (∀ g k, runs (.performAtHome g k)) ∧ (∀ g k, runs (.storeAck g k)) ∧ (∀ g, runs (.walk g)) ∧ (∀ g, runs (.faultRecord g))
    ∧ (∀ from_ bank mode, runs (.bankReqmode from_ bank mode)) ∧ (∀ bank, runs (.writeback bank))
    ∧ (∀ bank, runs (.waitrelease bank)) ∧ (∀ bank, runs (.zerofill bank)) ∧ (∀ tm, runs (.peerAccessResume tm))
    ∧ (∀ g, runs (.mxopAccept g)) ∧ (∀ q, runs (.matrixOpStart q)) ∧ (∀ q, runs (.matrixOpComplete q))
    ∧ (∀ d, runs (.leaveGrant d)) ∧ (∀ q, runs (.leaveReturn q)) ∧ (∀ d, runs (.governorPeriod d))
    ∧ (∀ overrun rates, runs (.powerSample overrun rates)) ∧ (∀ from_ q w, runs (.kick from_ q w))
    ∧ (∀ from_ q v, runs (.directoryW1c from_ q v)) ∧ (∀ slot, runs (.packetFetch slot)) ∧ (∀ gr nd, runs (.nodeReady gr nd))
    ∧ (∀ gr nd pl, runs (.clusterPlace gr nd pl)) ∧ (∀ gr nd, runs (.nodeDispatch gr nd))
    ∧ (∀ gr nd, runs (.conditionRead gr nd)) ∧ (∀ gr nd, runs (.nodeRetire gr nd)) ∧ (∀ gr, runs (.completionRecord gr))
    ∧ (∀ k, runs (.tramLine k)) ∧ (∀ k, runs (.copyEnd k)) ∧ (∀ g qn, runs (.streamStart g qn))
    ∧ (∀ g qn, runs (.streamRead g qn)) ∧ runs .coinPeriod ∧ (∀ target, runs (.eventPlace target))
    ∧ (∀ g, runs (.evwaitTimeout g)) ∧ (∀ q ctx, runs (.sliceChange q ctx)) ∧ (∀ tm, runs (.stopRequest tm))
    ∧ (∀ tm, runs (.teamStopped tm)) ∧ (∀ tm cycles, runs (.overrun tm cycles))
    ∧ (∀ tm core quads, runs (.migration tm core quads)) ∧ (∀ k, runs (.imageUpdate k)) ∧ (∀ bank n, runs (.scrubEnd bank n))
    ∧ (∀ z, runs (.departureEnd z)) ∧ (∀ z, runs (.wayFree z)) ∧ (∀ z d, runs (.sweepEnd z d))
    ∧ (∀ z, runs (.migrationBatch z)) ∧ (∀ z, runs (.zoneCommit z)) ∧ (∀ dev pa n op, runs (.remoteRequest dev pa n op))
    ∧ (∀ k r, runs (.remoteResponse k r)) ∧ (∀ k, runs (.heldWriteRelease k)) ∧ (∀ g, runs (.fenceAssistAnswer g))
    ∧ (∀ dev, runs (.suspect dev)) ∧ (∀ dev, runs (.probeTimeout dev)) ∧ (∀ dev, runs (.linkDown dev))
    ∧ (∀ k, runs (.remoteFailure k)) ∧ (∀ g, runs (.remote g))
    ∧ (∀ gr nd status inputs, runs (.collectiveRetire gr nd status inputs)) ∧ (∀ locked now, runs (.ptpMessage locked now))
    ∧ (∀ now, runs (.ppsEdge now)) ∧ runs .holdoverExpiry ∧ runs .referenceLoss ∧ (∀ k ok, runs (.hostCompletion k ok))
    ∧ (∀ from_ pa n op, runs (.hostRequest from_ pa n op)) ∧ (∀ from_ c, runs (.chipletFence from_ c))
    ∧ (∀ from_ c, runs (.chipletPowerOff from_ c)) ∧ (∀ from_ c, runs (.chipletReset from_ c))
    ∧ (∀ c pass, runs (.resetDone c pass)) ∧ (∀ c, runs (.chipletError c)) ∧ runs .exchangeTakeover
    ∧ (∀ core, runs (.coreFence core)) ∧ (∀ ch readable, runs (.channelLoss ch readable))
    ∧ (∀ from_ v, runs (.healthW1c from_ v)) ∧ runs .coldReset
    ∧ (∀ from_ nonce zone dest, runs (.attestationRequest from_ nonce zone dest))
    ∧ (∀ from_ pa n v, runs (.registerWrite from_ pa n v)) ∧ (∀ z d line, runs (.sweepVisit z d line))

/-- R145, R146, R186. A branch some of whose threads have no good target: the others move, the failing ones stay, and the trap at
the branch names them, BTGT if any target is bad and else LANDING. An access: the first failed check is its trap, before any
effect; with every check passed and a translation missing the group waits for the walk as it was; a refused address is PROT. -/
def Obligations.BranchAndAccessTraps : Prop :=
  ∀ (s : State) (w : View) (m : Mask),
    let fails := fun (i : Instr) (link : Option (BitVec 8)) (T : Nat → Int) (indirect land : Bool) => ∀ bad : Mask,
      Issues i s w m → bad ≠ 0 → (∀ k, inMask bad k = true ↔ inMask m k = true ∧ w.branchCheck indirect land (T k) ≠ .go) →
      let code := if ∃ k ∈ threadsOf bad, w.branchCheck indirect land (T k) = .bad then 0x17 else 0x16
      ∃ t, exec i s = .next t ∧ TrapTaken w (w.g.mapThreads fun k th =>
          if inMask m k && !inMask bad k then
            let th := releaseV i.uses.srcs th
            { (match link with
              | some n => th.setV n.toNat (BitVec.ofInt 32 (w.pcOffset + 12))
              | none => th) with pc := w.tm.codeBase + BitVec.ofNat 72 (T k).toNat }
          else if inMask w.sel k && !inMask m k then { th with pc := th.pc + 12 } else th)
        code bad w.pc64 (BitVec.ofInt 64 (T (lowest bad))).toNat t
    let access := fun (i : Instr) (n : Nat) (acc : Acc) (addr : Nat → AddrOut) => Issues i s w m →
      let whole := fun bad : Mask => if i.uses.uniform then m else bad
      let vps := (lanes i.uses m).flatMap fun k => (w.vPieces k n (addr k).tgt).map fun p => (k, p.1, accOf acc (addr k).tgt)
      (∀ code bad info, firstChk ((lanes i.uses m).flatMap fun k => (addr k).chks.map fun c => (k, c)) = some (code, bad, info) →
        ∃ t, exec i s = .next t ∧ TrapTaken w w.g code (whole bad) w.pc64 info t)
      ∧ ((∀ k ∈ lanes i.uses m, (addr k).chks = []) →
        ((∃ v ∈ vps, w.lookupVa v.2.1 v.2.2 = none) → ∃ t va a by_, exec i s = .next t ∧ Leaves w.s w.u t w.g
            ∧ (look t.groups w.u).map (·.wait) = some (.walk w.s.curPc va a by_) ∧ ∃ v ∈ vps, v.2.1 = va ∧ v.2.2 = a ∧ w.lookupVa va a = none)
        ∧ ((∀ v ∈ vps, (w.lookupVa v.2.1 v.2.2).isSome = true) →
          (∃ v ∈ vps, ∃ r, w.lookupVa v.2.1 v.2.2 = some r ∧ w.s.refusedPa r.2 r.1 = true) →
          ∃ t mask info, exec i s = .next t ∧ TrapTaken w w.g 0x11 mask w.pc64 info t))
    (∀ x, fails (.bra x) none (fun _ => w.pcOffset + 12 * x.imm.toInt) false false)
    ∧ (∀ x, fails (.call x) (some x.d) (fun _ => w.pcOffset + 12 * x.imm.toInt) false false)
    ∧ (∀ x, fails (.brx x) none (fun k => w.n32 x.a k) true true)
    ∧ (∀ x, fails (.callx x) (some x.d) (fun k => w.n32 x.a k) true true)
    ∧ (∀ x, fails (.ret x) none (fun k => w.n32 x.a k) true false)
    ∧ (∀ x : Ld, access (.ld x) (x.ty.width / 8) .load (fun t => w.globalOf x.ad (x.ty.width / 8) false true t)
      ∧ access (.ldun x) (x.ty.width / 8) .load (fun t => w.globalOf x.ad (x.ty.width / 8) false false t)
      ∧ access (.ldx x) (x.ty.width / 8) .load (fun t => w.globalOf x.ad (x.ty.width / 8) true true t)
      ∧ access (.lds x) (x.ty.width / 8) .load (fun t => w.scratchOf x.ad x.var (x.ty.width / 8) t)
      ∧ access (.ldp x) (x.ty.width / 8) .privLoad (fun t => w.privAddr (w.offsetOf x.ad (x.ty.width / 8) t) (x.ty.width / 8)))
    ∧ (∀ x : St, access (.st x) (x.ty.width / 8) .store (fun t => w.globalOf x.ad (x.ty.width / 8) false true t)
      ∧ access (.stx x) (x.ty.width / 8) .store (fun t => w.globalOf x.ad (x.ty.width / 8) true true t)
      ∧ access (.sts x) (x.ty.width / 8) .store (fun t => w.scratchOf x.ad x.var (x.ty.width / 8) t)
      ∧ access (.stp x) (x.ty.width / 8) .privStore (fun t => w.privAddr (w.offsetOf x.ad (x.ty.width / 8) t) (x.ty.width / 8)))
    ∧ (∀ x : Atom, access (.atom x) (x.ty.width / 8) .atomic
        (fun k => w.wideAddr (w.n128 x.a k) (x.off.toInt * (x.ty.width / 8 : Nat)) (x.ty.width / 8) false true)
      ∧ access (.atomx x) (x.ty.width / 8) .atomic
        (fun k => w.wideAddr (w.n128 x.a k) (x.off.toInt * (x.ty.width / 8 : Nat)) (x.ty.width / 8) true true))

/-! ## Decoding and the step -/

/-- R31, R33 to R50. Decoding the word of a well-formed instruction gives the instruction back, with every operand, type and mode
at every value its encoding admits. -/
def Obligations.EncodedWordsDecode : Prop :=
  ∀ i : Instr, i.wellFormed = true → decodeWord (encode i) = .ok i

/-- R46. A word that decodes is the encoding of what it decodes to, so that no two words stand for one instruction; a word of a
reserved class, with an unassigned OP or with the reserved bit set is rejected by that name. -/
def Obligations.DecodedWordsEncode : Prop :=
  ∀ x : BitVec 96,
    (∀ i, decodeWord x = .ok i → encode i = x ∧ i.wellFormed = true)
    ∧ (0xC ≤ (x.extractLsb' 92 4).toNat → decodeWord x = .error .reservedClass)
    ∧ ((x.extractLsb' 92 4).toNat < 0xC → opAssigned (x.extractLsb' 92 4).toNat (x.extractLsb' 86 6).toNat = false →
        decodeWord x = .error .unassignedOp)
    ∧ ((x.extractLsb' 92 4).toNat < 0xC → opAssigned (x.extractLsb' 92 4).toNat (x.extractLsb' 86 6).toNat = true → x.getLsbD 70 = true →
        decodeWord x = .error .reservedBit)

/-- R32, R42, R46, R138. A step whose pick is a cycle of a quadrant's issue stage, when the first group of its order may issue, stands
at one PC (or holds an instruction that has issued alone, which goes on for the threads it was issued for) and nothing holds the word
there, runs the instruction that the word decodes to, at that PC; the issue is noted (the round of the quadrant, a coin of the zone) and ends the cycle, and where the instruction did not issue
the stage goes on to its next group. -/
def Obligations.StepRunsDecoded : Prop :=
  ∀ (s : State) (quad : Nat) (busy : List Nat) (rest : List Pick) (u : Nat) (us : List Nat) (g : Group) (a : VA) (w : View) (x : BitVec 96) (i : Instr),
    s.sched = .issue quad busy :: rest → s.overdue = none →
    let s0 : State := { s with sched := rest }
    s0.issueOrder quad busy = u :: us → look s0.groups u = some g → s0.mayIssue g = true →
    ((g.wait.boundary = true ∧ g.pcA none = some a ∧ (s0.lastSkid g = true ∨ g.pcA (some a) = none))
      ∨ (g.wait.boundary = false ∧ (∃ how, g.wait = .retry a how) ∧ ∀ h, g.issuedAs = some h → h.pair = none)) →
    let s1 : State := { s0 with cur := u, curPc := a, curBlind := false, curMask :=
      if g.wait.boundary then BitVec.allOnes 32 else (g.issuedAs.map fun h => h.mask).getD (BitVec.allOnes 32) }
    s1.view? = some w → w.fetch a = .ok x → decode? x = some i →
    (w.g.lastIssue = 0 ∨ w.g.lastIssue + (hintOf x).gap.toNat ≤ w.s.schedOf w.g + 1) → w.g.waitsSb (hintOf x) = [] →
    (w.decodeTraps i = true ∨ guardNever i.uses.ctl.guard = true
      ∨ (((hintOf x).setsb.toNat < 6 → rget 0 w.g.sb (hintOf x).setsb.toNat ≤ 62) ∧ w.g.spendHolds i.uses = false
        ∧ w.g.holders i.uses = [] ∧ w.ordered i = true)) →
    let o := exec i (s1.correctReads i)
    (∀ t, o = .next t → step s = nextCycle (if didIssue s0 t u then .next (s0.noteIssue t u) else t.issueFirst us))
    ∧ ((∀ t, o ≠ .next t) → step s = o)

/-- R29, R31, R185. Memory keeps its canonical form, the device's and the host's, and no two groups or teams have one number:
every step keeps it. -/
def Obligations.StepKeepsForm : Prop :=
  Kept fun s => s.mem.wf = true ∧ s.hostMem.wf = true ∧ risingKeys s.groups = true ∧ risingKeys s.teams = true

/-- R18, R416, R430, R435, R439, R455. The state after reset: memory lists nothing, no zone, context, team or event is there, every
chiplet is ACTIVE without a failure, the time is FREERUN, no bank or quadrant has an owner or is marked SCRUB; it meets the form
that every step keeps. With no image to start, the device stops in RECOVERY. The model's choices: FREERUN at reset, which R416 does not
give (log 5), RECOVERY without inputs of bring-up (log 1), empty memories (log 62). -/
def Obligations.ResetState : Prop :=
  State.reset.phase = .cold ∧ State.reset.mem = [] ∧ State.reset.zones = [] ∧ State.reset.ctxs = [] ∧ State.reset.groups = []
  ∧ State.reset.teams = [] ∧ State.reset.evq = [] ∧ State.reset.tstat = .freerun
  ∧ (∀ c, State.reset.chip c = { st := .active, fails := 0 })
  ∧ (∀ b, (State.reset.bank b).owner = none ∧ (State.reset.bank b).scrub = 0)
  ∧ (∀ q, (State.reset.quadOf q).zones = [] ∧ (State.reset.quadOf q).scrub = 0)
  ∧ (State.reset.mem.wf = true ∧ State.reset.hostMem.wf = true ∧ risingKeys State.reset.groups = true ∧ risingKeys State.reset.teams = true)
  ∧ ∃ t, step State.reset = .next t ∧ t.phase = .recovery ∧ t.groups = []

/-- The worked encodings of R33's section and of the chapters on numbers, scalar forms, control, memory, ordering, the matrix
engine, tasks and the fabric: each word, as the spec gives it, decodes to the instruction it stands for. -/
def Obligations.WorkedEncodings : Prop :=
  let always : Guard := ⟨false, 7⟩
  let none_ : Hint := ⟨0, false, 7, 0⟩
  let plain : Ctl := ⟨always, none_⟩
  decodeTableWord 96 0x010802A00440C000E0000849 = some (.iadd
      { ctl := ⟨⟨false, 2⟩, ⟨2, false, 1, 0b001001⟩⟩, ty := .i32, sat := false, d := .v 5 false, a := .v 1 .last, b := .s 3 .plain })
  ∧ decodeTableWord 96 0x005C04800115848C001E01C0 = some (.movi { ctl := plain, mode := .zx, d := .v 9 false, imm := 0x12345678 })
  ∧ decodeTableWord 96 0x02A40A0008414E2500100080 = some (.imad
      { ctl := ⟨⟨true, 1⟩, ⟨0, false, 2, 0⟩⟩, ty := .n32, sat := true, d := .v 20 false, a := .v 2 .plain, b := .s 5 .plain, c := .imm 9 })
  ∧ decodeTableWord 96 0x221C05000C0000020D1001C0 = some (.cvtff
      { ctl := plain, dt := .e4m3, st := .f32, rm := .rne, sat := true, d := .v 10 false, a := .v 3 .plain })
  ∧ decodeTableWord 96 0x400C000003FFFFFC003EC1C0 = some (.bra { ctl := ⟨⟨false, 3⟩, none_⟩, imm := 0xFFFFFFFB })
  ∧ decodeTableWord 96 0x501C04040801C00348040000 = some (.ld
      { ctl := ⟨always, ⟨0, false, 0, 0⟩⟩, ty := .b32, var := false, d := .v 8 false, ad := ⟨.s 2 .plain, .v 7 .plain, 2, false, 16⟩ })
  ∧ decodeTableWord 96 0x601C03841084000F4E4001C0 = some (.atom
      { ctl := plain, ty := .b32, aop := .cas, sem := .rlx, scope := .dev, off := 0, d := .v 7 false, a := .s 4 .plain, b := .zero,
        c := some (.v 3 .plain) })
  ∧ decodeTableWord 96 0x701C848408000000000040C0 = some (.mxop
      { ctl := ⟨always, ⟨0, false, 3, 0⟩⟩, off := 1, d := 9, a := .s 2 .plain })
  ∧ decodeTableWord 96 0x821C000418C20003404001C0 = some (.astrm { ctl := plain, ty := .b32, sp := false, q := 2, a := .s 6 .plain, m := 8 })
  ∧ decodeTableWord 96 0xB11C000418424000000081C0 = some (.rlease { ctl := plain, off := 2, a := .s 6 .plain, b := .s 9 .plain })
end

