-- ==== Sys2Proof/Laws/Exec.lean ====
section
/-!
SUPPORT. The meaning of each constructor, by name.
-/

namespace Sys2Proof.Machine

theorem exec_mov (x) (s : State) : exec (.mov x) s = Sys2Proof.Machine.execMov x s := rfl
theorem exec_movi (x) (s : State) : exec (.movi x) s = Sys2Proof.Machine.execMovi x s := rfl
theorem exec_movs (x) (s : State) : exec (.movs x) s = Sys2Proof.Machine.execMovs x s := rfl
theorem exec_movv (x) (s : State) : exec (.movv x) s = Sys2Proof.Machine.execMovv x s := rfl
theorem exec_iadd (x) (s : State) : exec (.iadd x) s = Sys2Proof.Machine.execIadd x s := rfl
theorem exec_iaddc (x) (s : State) : exec (.iaddc x) s = Sys2Proof.Machine.execIaddc x s := rfl
theorem exec_isub (x) (s : State) : exec (.isub x) s = Sys2Proof.Machine.execIsub x s := rfl
theorem exec_isubb (x) (s : State) : exec (.isubb x) s = Sys2Proof.Machine.execIsubb x s := rfl
theorem exec_imul (x) (s : State) : exec (.imul x) s = Sys2Proof.Machine.execImul x s := rfl
theorem exec_imulh (x) (s : State) : exec (.imulh x) s = Sys2Proof.Machine.execImulh x s := rfl
theorem exec_imad (x) (s : State) : exec (.imad x) s = Sys2Proof.Machine.execImad x s := rfl
theorem exec_imadw (x) (s : State) : exec (.imadw x) s = Sys2Proof.Machine.execImadw x s := rfl
theorem exec_idiv (x) (s : State) : exec (.idiv x) s = Sys2Proof.Machine.execIdiv x s := rfl
theorem exec_irem (x) (s : State) : exec (.irem x) s = Sys2Proof.Machine.execIrem x s := rfl
theorem exec_imin (x) (s : State) : exec (.imin x) s = Sys2Proof.Machine.execImin x s := rfl
theorem exec_imax (x) (s : State) : exec (.imax x) s = Sys2Proof.Machine.execImax x s := rfl
theorem exec_iabs (x) (s : State) : exec (.iabs x) s = Sys2Proof.Machine.execIabs x s := rfl
theorem exec_ineg (x) (s : State) : exec (.ineg x) s = Sys2Proof.Machine.execIneg x s := rfl
theorem exec_and (x) (s : State) : exec (.and x) s = Sys2Proof.Machine.execAnd x s := rfl
theorem exec_or (x) (s : State) : exec (.or x) s = Sys2Proof.Machine.execOr x s := rfl
theorem exec_xor (x) (s : State) : exec (.xor x) s = Sys2Proof.Machine.execXor x s := rfl
theorem exec_andn (x) (s : State) : exec (.andn x) s = Sys2Proof.Machine.execAndn x s := rfl
theorem exec_not (x) (s : State) : exec (.not x) s = Sys2Proof.Machine.execNot x s := rfl
theorem exec_shl (x) (s : State) : exec (.shl x) s = Sys2Proof.Machine.execShl x s := rfl
theorem exec_shr (x) (s : State) : exec (.shr x) s = Sys2Proof.Machine.execShr x s := rfl
theorem exec_sar (x) (s : State) : exec (.sar x) s = Sys2Proof.Machine.execSar x s := rfl
theorem exec_rot (x) (s : State) : exec (.rot x) s = Sys2Proof.Machine.execRot x s := rfl
theorem exec_fshl (x) (s : State) : exec (.fshl x) s = Sys2Proof.Machine.execFshl x s := rfl
theorem exec_popc (x) (s : State) : exec (.popc x) s = Sys2Proof.Machine.execPopc x s := rfl
theorem exec_clz (x) (s : State) : exec (.clz x) s = Sys2Proof.Machine.execClz x s := rfl
theorem exec_ctz (x) (s : State) : exec (.ctz x) s = Sys2Proof.Machine.execCtz x s := rfl
theorem exec_brev (x) (s : State) : exec (.brev x) s = Sys2Proof.Machine.execBrev x s := rfl
theorem exec_bfx (x) (s : State) : exec (.bfx x) s = Sys2Proof.Machine.execBfx x s := rfl
theorem exec_bfi (x) (s : State) : exec (.bfi x) s = Sys2Proof.Machine.execBfi x s := rfl
theorem exec_isetp (x) (s : State) : exec (.isetp x) s = Sys2Proof.Machine.execIsetp x s := rfl
theorem exec_isel (x) (s : State) : exec (.isel x) s = Sys2Proof.Machine.execIsel x s := rfl
theorem exec_lea (x) (s : State) : exec (.lea x) s = Sys2Proof.Machine.execLea x s := rfl
theorem exec_leax (x) (s : State) : exec (.leax x) s = Sys2Proof.Machine.execLeax x s := rfl
theorem exec_fadd (x) (s : State) : exec (.fadd x) s = Sys2Proof.Machine.execFadd x s := rfl
theorem exec_fsub (x) (s : State) : exec (.fsub x) s = Sys2Proof.Machine.execFsub x s := rfl
theorem exec_fmul (x) (s : State) : exec (.fmul x) s = Sys2Proof.Machine.execFmul x s := rfl
theorem exec_ffma (x) (s : State) : exec (.ffma x) s = Sys2Proof.Machine.execFfma x s := rfl
theorem exec_fmin (x) (s : State) : exec (.fmin x) s = Sys2Proof.Machine.execFmin x s := rfl
theorem exec_fmax (x) (s : State) : exec (.fmax x) s = Sys2Proof.Machine.execFmax x s := rfl
theorem exec_fsetp (x) (s : State) : exec (.fsetp x) s = Sys2Proof.Machine.execFsetp x s := rfl
theorem exec_fclass (x) (s : State) : exec (.fclass x) s = Sys2Proof.Machine.execFclass x s := rfl
theorem exec_fscale (x) (s : State) : exec (.fscale x) s = Sys2Proof.Machine.execFscale x s := rfl
theorem exec_frnd (x) (s : State) : exec (.frnd x) s = Sys2Proof.Machine.execFrnd x s := rfl
theorem exec_hadd2 (x) (s : State) : exec (.hadd2 x) s = Sys2Proof.Machine.execHadd2 x s := rfl
theorem exec_hmul2 (x) (s : State) : exec (.hmul2 x) s = Sys2Proof.Machine.execHmul2 x s := rfl
theorem exec_hfma2 (x) (s : State) : exec (.hfma2 x) s = Sys2Proof.Machine.execHfma2 x s := rfl
theorem exec_hmin2 (x) (s : State) : exec (.hmin2 x) s = Sys2Proof.Machine.execHmin2 x s := rfl
theorem exec_hmax2 (x) (s : State) : exec (.hmax2 x) s = Sys2Proof.Machine.execHmax2 x s := rfl
theorem exec_dadd (x) (s : State) : exec (.dadd x) s = Sys2Proof.Machine.execDadd x s := rfl
theorem exec_dmul (x) (s : State) : exec (.dmul x) s = Sys2Proof.Machine.execDmul x s := rfl
theorem exec_dfma (x) (s : State) : exec (.dfma x) s = Sys2Proof.Machine.execDfma x s := rfl
theorem exec_dsetp (x) (s : State) : exec (.dsetp x) s = Sys2Proof.Machine.execDsetp x s := rfl
theorem exec_dmin (x) (s : State) : exec (.dmin x) s = Sys2Proof.Machine.execDmin x s := rfl
theorem exec_dmax (x) (s : State) : exec (.dmax x) s = Sys2Proof.Machine.execDmax x s := rfl
theorem exec_rcp (x) (s : State) : exec (.rcp x) s = Sys2Proof.Machine.execRcp x s := rfl
theorem exec_rsq (x) (s : State) : exec (.rsq x) s = Sys2Proof.Machine.execRsq x s := rfl
theorem exec_sqrt (x) (s : State) : exec (.sqrt x) s = Sys2Proof.Machine.execSqrt x s := rfl
theorem exec_ex2 (x) (s : State) : exec (.ex2 x) s = Sys2Proof.Machine.execEx2 x s := rfl
theorem exec_lg2 (x) (s : State) : exec (.lg2 x) s = Sys2Proof.Machine.execLg2 x s := rfl
theorem exec_sinpi (x) (s : State) : exec (.sinpi x) s = Sys2Proof.Machine.execSinpi x s := rfl
theorem exec_cospi (x) (s : State) : exec (.cospi x) s = Sys2Proof.Machine.execCospi x s := rfl
theorem exec_tanh (x) (s : State) : exec (.tanh x) s = Sys2Proof.Machine.execTanh x s := rfl
theorem exec_cvtff (x) (s : State) : exec (.cvtff x) s = Sys2Proof.Machine.execCvtff x s := rfl
theorem exec_cvtfi (x) (s : State) : exec (.cvtfi x) s = Sys2Proof.Machine.execCvtfi x s := rfl
theorem exec_cvtif (x) (s : State) : exec (.cvtif x) s = Sys2Proof.Machine.execCvtif x s := rfl
theorem exec_packn (x) (s : State) : exec (.packn x) s = Sys2Proof.Machine.execPackn x s := rfl
theorem exec_unpackn (x) (s : State) : exec (.unpackn x) s = Sys2Proof.Machine.execUnpackn x s := rfl
theorem exec_scaleb (x) (s : State) : exec (.scaleb x) s = Sys2Proof.Machine.execScaleb x s := rfl
theorem exec_rand (x) (s : State) : exec (.rand x) s = Sys2Proof.Machine.execRand x s := rfl
theorem exec_cvtsr (x) (s : State) : exec (.cvtsr x) s = Sys2Proof.Machine.execCvtsr x s := rfl
theorem exec_part (x) (s : State) : exec (.part x) s = Sys2Proof.Machine.execPart x s := rfl
theorem exec_vote (x) (s : State) : exec (.vote x) s = Sys2Proof.Machine.execVote x s := rfl
theorem exec_shfl (x) (s : State) : exec (.shfl x) s = Sys2Proof.Machine.execShfl x s := rfl
theorem exec_redux (x) (s : State) : exec (.redux x) s = Sys2Proof.Machine.execRedux x s := rfl
theorem exec_scan (x) (s : State) : exec (.scan x) s = Sys2Proof.Machine.execScan x s := rfl
theorem exec_match (x) (s : State) : exec (.match_ x) s = Sys2Proof.Machine.execMatch x s := rfl
theorem exec_elect (x) (s : State) : exec (.elect x) s = Sys2Proof.Machine.execElect x s := rfl
theorem exec_bcast (x) (s : State) : exec (.bcast x) s = Sys2Proof.Machine.execBcast x s := rfl
theorem exec_bra (x) (s : State) : exec (.bra x) s = Sys2Proof.Machine.execBra x s := rfl
theorem exec_brx (x) (s : State) : exec (.brx x) s = Sys2Proof.Machine.execBrx x s := rfl
theorem exec_call (x) (s : State) : exec (.call x) s = Sys2Proof.Machine.execCall x s := rfl
theorem exec_callx (x) (s : State) : exec (.callx x) s = Sys2Proof.Machine.execCallx x s := rfl
theorem exec_ret (x) (s : State) : exec (.ret x) s = Sys2Proof.Machine.execRet x s := rfl
theorem exec_land (x) (s : State) : exec (.land x) s = Sys2Proof.Machine.execLand x s := rfl
theorem exec_exit (x) (s : State) : exec (.exit x) s = Sys2Proof.Machine.execExit x s := rfl
theorem exec_yield (x) (s : State) : exec (.yield x) s = Sys2Proof.Machine.execYield x s := rfl
theorem exec_pause (x) (s : State) : exec (.pause x) s = Sys2Proof.Machine.execPause x s := rfl
theorem exec_sleep (x) (s : State) : exec (.sleep x) s = Sys2Proof.Machine.execSleep x s := rfl
theorem exec_nop (x) (s : State) : exec (.nop x) s = Sys2Proof.Machine.execNop x s := rfl
theorem exec_cbarm (x) (s : State) : exec (.cbarm x) s = Sys2Proof.Machine.execCbarm x s := rfl
theorem exec_cbwait (x) (s : State) : exec (.cbwait x) s = Sys2Proof.Machine.execCbwait x s := rfl
theorem exec_bar (x) (s : State) : exec (.bar x) s = Sys2Proof.Machine.execBar x s := rfl
theorem exec_barc (x) (s : State) : exec (.barc x) s = Sys2Proof.Machine.execBarc x s := rfl
theorem exec_ld (x) (s : State) : exec (.ld x) s = Sys2Proof.Machine.execLd x s := rfl
theorem exec_st (x) (s : State) : exec (.st x) s = Sys2Proof.Machine.execSt x s := rfl
theorem exec_lds (x) (s : State) : exec (.lds x) s = Sys2Proof.Machine.execLds x s := rfl
theorem exec_sts (x) (s : State) : exec (.sts x) s = Sys2Proof.Machine.execSts x s := rfl
theorem exec_ldp (x) (s : State) : exec (.ldp x) s = Sys2Proof.Machine.execLdp x s := rfl
theorem exec_stp (x) (s : State) : exec (.stp x) s = Sys2Proof.Machine.execStp x s := rfl
theorem exec_ldx (x) (s : State) : exec (.ldx x) s = Sys2Proof.Machine.execLdx x s := rfl
theorem exec_stx (x) (s : State) : exec (.stx x) s = Sys2Proof.Machine.execStx x s := rfl
theorem exec_mcst (x) (s : State) : exec (.mcst x) s = Sys2Proof.Machine.execMcst x s := rfl
theorem exec_ldc (x) (s : State) : exec (.ldc x) s = Sys2Proof.Machine.execLdc x s := rfl
theorem exec_ldun (x) (s : State) : exec (.ldun x) s = Sys2Proof.Machine.execLdun x s := rfl
theorem exec_pref (x) (s : State) : exec (.pref x) s = Sys2Proof.Machine.execPref x s := rfl
theorem exec_wbp (x) (s : State) : exec (.wbp x) s = Sys2Proof.Machine.execWbp x s := rfl
theorem exec_wbpAll (x) (s : State) : exec (.wbpAll x) s = Sys2Proof.Machine.execWbpAll x s := rfl
theorem exec_qpop (x) (s : State) : exec (.qpop x) s = Sys2Proof.Machine.execQpop x s := rfl
theorem exec_qpeek (x) (s : State) : exec (.qpeek x) s = Sys2Proof.Machine.execQpeek x s := rfl
theorem exec_fpush (x) (s : State) : exec (.fpush x) s = Sys2Proof.Machine.execFpush x s := rfl
theorem exec_fpop (x) (s : State) : exec (.fpop x) s = Sys2Proof.Machine.execFpop x s := rfl
theorem exec_atom (x) (s : State) : exec (.atom x) s = Sys2Proof.Machine.execAtom x s := rfl
theorem exec_atoms (x) (s : State) : exec (.atoms x) s = Sys2Proof.Machine.execAtoms x s := rfl
theorem exec_atomx (x) (s : State) : exec (.atomx x) s = Sys2Proof.Machine.execAtomx x s := rfl
theorem exec_red (x) (s : State) : exec (.red x) s = Sys2Proof.Machine.execRed x s := rfl
theorem exec_fence (x) (s : State) : exec (.fence x) s = Sys2Proof.Machine.execFence x s := rfl
theorem exec_xfence (x) (s : State) : exec (.xfence x) s = Sys2Proof.Machine.execXfence x s := rfl
theorem exec_acq (x) (s : State) : exec (.acq x) s = Sys2Proof.Machine.execAcq x s := rfl
theorem exec_rel (x) (s : State) : exec (.rel x) s = Sys2Proof.Machine.execRel x s := rfl
theorem exec_acqr (x) (s : State) : exec (.acqr x) s = Sys2Proof.Machine.execAcqr x s := rfl
theorem exec_ptsrd (x) (s : State) : exec (.ptsrd x) s = Sys2Proof.Machine.execPtsrd x s := rfl
theorem exec_lease (x) (s : State) : exec (.lease x) s = Sys2Proof.Machine.execLease x s := rfl
theorem exec_swarm (x) (s : State) : exec (.swarm x) s = Sys2Proof.Machine.execSwarm x s := rfl
theorem exec_swwait (x) (s : State) : exec (.swwait x) s = Sys2Proof.Machine.execSwwait x s := rfl
theorem exec_swgen (x) (s : State) : exec (.swgen x) s = Sys2Proof.Machine.execSwgen x s := rfl
theorem exec_objdecl (x) (s : State) : exec (.objdecl x) s = Sys2Proof.Machine.execObjdecl x s := rfl
theorem exec_objdrop (x) (s : State) : exec (.objdrop x) s = Sys2Proof.Machine.execObjdrop x s := rfl
theorem exec_mxop (x) (s : State) : exec (.mxop x) s = Sys2Proof.Machine.execMxop x s := rfl
theorem exec_mxzero (x) (s : State) : exec (.mxzero x) s = Sys2Proof.Machine.execMxzero x s := rfl
theorem exec_mxrd (x) (s : State) : exec (.mxrd x) s = Sys2Proof.Machine.execMxrd x s := rfl
theorem exec_mxwr (x) (s : State) : exec (.mxwr x) s = Sys2Proof.Machine.execMxwr x s := rfl
theorem exec_mxst (x) (s : State) : exec (.mxst x) s = Sys2Proof.Machine.execMxst x s := rfl
theorem exec_plane (x) (s : State) : exec (.plane x) s = Sys2Proof.Machine.execPlane x s := rfl
theorem exec_unplane (x) (s : State) : exec (.unplane x) s = Sys2Proof.Machine.execUnplane x s := rfl
theorem exec_mxperm (x) (s : State) : exec (.mxperm x) s = Sys2Proof.Machine.execMxperm x s := rfl
theorem exec_mxwait (x) (s : State) : exec (.mxwait x) s = Sys2Proof.Machine.execMxwait x s := rfl
theorem exec_mxqry (x) (s : State) : exec (.mxqry x) s = Sys2Proof.Machine.execMxqry x s := rfl
theorem exec_mxepi (x) (s : State) : exec (.mxepi x) s = Sys2Proof.Machine.execMxepi x s := rfl
theorem exec_leave (x) (s : State) : exec (.leave x) s = Sys2Proof.Machine.execLeave x s := rfl
theorem exec_mxscl (x) (s : State) : exec (.mxscl x) s = Sys2Proof.Machine.execMxscl x s := rfl
theorem exec_cpstat (x) (s : State) : exec (.cpstat x) s = Sys2Proof.Machine.execCpstat x s := rfl
theorem exec_outrdy (x) (s : State) : exec (.outrdy x) s = Sys2Proof.Machine.execOutrdy x s := rfl
theorem exec_tcond (x) (s : State) : exec (.tcond x) s = Sys2Proof.Machine.execTcond x s := rfl
theorem exec_tdone (x) (s : State) : exec (.tdone x) s = Sys2Proof.Machine.execTdone x s := rfl
theorem exec_tspawn (x) (s : State) : exec (.tspawn x) s = Sys2Proof.Machine.execTspawn x s := rfl
theorem exec_tqry (x) (s : State) : exec (.tqry x) s = Sys2Proof.Machine.execTqry x s := rfl
theorem exec_astart (x) (s : State) : exec (.astart x) s = Sys2Proof.Machine.execAstart x s := rfl
theorem exec_aloop (x) (s : State) : exec (.aloop x) s = Sys2Proof.Machine.execAloop x s := rfl
theorem exec_astrm (x) (s : State) : exec (.astrm x) s = Sys2Proof.Machine.execAstrm x s := rfl
theorem exec_aend (x) (s : State) : exec (.aend x) s = Sys2Proof.Machine.execAend x s := rfl
theorem exec_trap (x) (s : State) : exec (.trap x) s = Sys2Proof.Machine.execTrap x s := rfl
theorem exec_rett (x) (s : State) : exec (.rett x) s = Sys2Proof.Machine.execRett x s := rfl
theorem exec_srrd (x) (s : State) : exec (.srrd x) s = Sys2Proof.Machine.execSrrd x s := rfl
theorem exec_srwr (x) (s : State) : exec (.srwr x) s = Sys2Proof.Machine.execSrwr x s := rfl
theorem exec_logrd (x) (s : State) : exec (.logrd x) s = Sys2Proof.Machine.execLogrd x s := rfl
theorem exec_haltStop (x) (s : State) : exec (.haltStop x) s = Sys2Proof.Machine.execHaltStop x s := rfl
theorem exec_haltResume (x) (s : State) : exec (.haltResume x) s = Sys2Proof.Machine.execHaltResume x s := rfl
theorem exec_haltKill (x) (s : State) : exec (.haltKill x) s = Sys2Proof.Machine.execHaltKill x s := rfl
theorem exec_sysc (x) (s : State) : exec (.sysc x) s = Sys2Proof.Machine.execSysc x s := rfl
theorem exec_evwait (x) (s : State) : exec (.evwait x) s = Sys2Proof.Machine.execEvwait x s := rfl
theorem exec_evsigSig (x) (s : State) : exec (.evsigSig x) s = Sys2Proof.Machine.execEvsigSig x s := rfl
theorem exec_evsigAns (x) (s : State) : exec (.evsigAns x) s = Sys2Proof.Machine.execEvsigAns x s := rfl
theorem exec_tlbinvVa (x) (s : State) : exec (.tlbinvVa x) s = Sys2Proof.Machine.execTlbinvVa x s := rfl
theorem exec_tlbinvCtx (x) (s : State) : exec (.tlbinvCtx x) s = Sys2Proof.Machine.execTlbinvCtx x s := rfl
theorem exec_tlbinvZone (x) (s : State) : exec (.tlbinvZone x) s = Sys2Proof.Machine.execTlbinvZone x s := rfl
theorem exec_fbresp (x) (s : State) : exec (.fbresp x) s = Sys2Proof.Machine.execFbresp x s := rfl
theorem exec_ctxsave (x) (s : State) : exec (.ctxsave x) s = Sys2Proof.Machine.execCtxsave x s := rfl
theorem exec_ctxload (x) (s : State) : exec (.ctxload x) s = Sys2Proof.Machine.execCtxload x s := rfl
theorem exec_ctxq (x) (s : State) : exec (.ctxq x) s = Sys2Proof.Machine.execCtxq x s := rfl
theorem exec_qmap (x) (s : State) : exec (.qmap x) s = Sys2Proof.Machine.execQmap x s := rfl
theorem exec_qunmap (x) (s : State) : exec (.qunmap x) s = Sys2Proof.Machine.execQunmap x s := rfl
theorem exec_zcreate (x) (s : State) : exec (.zcreate x) s = Sys2Proof.Machine.execZcreate x s := rfl
theorem exec_zdestroy (x) (s : State) : exec (.zdestroy x) s = Sys2Proof.Machine.execZdestroy x s := rfl
theorem exec_zgrow (x) (s : State) : exec (.zgrow x) s = Sys2Proof.Machine.execZgrow x s := rfl
theorem exec_zshrink (x) (s : State) : exec (.zshrink x) s = Sys2Proof.Machine.execZshrink x s := rfl
theorem exec_zslices (x) (s : State) : exec (.zslices x) s = Sys2Proof.Machine.execZslices x s := rfl
theorem exec_zwaysL2 (x) (s : State) : exec (.zwaysL2 x) s = Sys2Proof.Machine.execZwaysL2 x s := rfl
theorem exec_zwaysVault (x) (s : State) : exec (.zwaysVault x) s = Sys2Proof.Machine.execZwaysVault x s := rfl
theorem exec_zchan (x) (s : State) : exec (.zchan x) s = Sys2Proof.Machine.execZchan x s := rfl
theorem exec_zcoins (x) (s : State) : exec (.zcoins x) s = Sys2Proof.Machine.execZcoins x s := rfl
theorem exec_zscrub (x) (s : State) : exec (.zscrub x) s = Sys2Proof.Machine.execZscrub x s := rfl
theorem exec_zcommit (x) (s : State) : exec (.zcommit x) s = Sys2Proof.Machine.execZcommit x s := rfl
theorem exec_zquery (x) (s : State) : exec (.zquery x) s = Sys2Proof.Machine.execZquery x s := rfl
theorem exec_capq (x) (s : State) : exec (.capq x) s = Sys2Proof.Machine.execCapq x s := rfl
theorem exec_ffenceFull (x) (s : State) : exec (.ffenceFull x) s = Sys2Proof.Machine.execFfenceFull x s := rfl
theorem exec_ffenceRel (x) (s : State) : exec (.ffenceRel x) s = Sys2Proof.Machine.execFfenceRel x s := rfl
theorem exec_ffenceAcq (x) (s : State) : exec (.ffenceAcq x) s = Sys2Proof.Machine.execFfenceAcq x s := rfl
theorem exec_ptprd (x) (s : State) : exec (.ptprd x) s = Sys2Proof.Machine.execPtprd x s := rfl
theorem exec_timens (x) (s : State) : exec (.timens x) s = Sys2Proof.Machine.execTimens x s := rfl
theorem exec_peerq (x) (s : State) : exec (.peerq x) s = Sys2Proof.Machine.execPeerq x s := rfl
theorem exec_rlease (x) (s : State) : exec (.rlease x) s = Sys2Proof.Machine.execRlease x s := rfl
theorem exec_fcontainFence (x) (s : State) : exec (.fcontainFence x) s = Sys2Proof.Machine.execFcontainFence x s := rfl
theorem exec_fcontainClear (x) (s : State) : exec (.fcontainClear x) s = Sys2Proof.Machine.execFcontainClear x s := rfl
theorem exec_illegalWord (x) (s : State) : exec (.illegalWord x) s = Sys2Proof.Machine.execIllegalWord x s := rfl
theorem exec_haltsib (x) (s : State) : exec (.haltsib x) s = Sys2Proof.Machine.execHaltsib x s := rfl
theorem exec_arithlog (x) (s : State) : exec (.arithlog x) s = Sys2Proof.Machine.execArithlog x s := rfl
theorem exec_instructionComplete (a) (b) (s : State) : exec (.instructionComplete a b) s = Sys2Proof.Machine.execInstructionComplete a b s := rfl
theorem exec_slotRefill (a) (b) (s : State) : exec (.slotRefill a b) s = Sys2Proof.Machine.execSlotRefill a b s := rfl
theorem exec_holdExpiry (a) (b) (s : State) : exec (.holdExpiry a b) s = Sys2Proof.Machine.execHoldExpiry a b s := rfl
theorem exec_sleepExpiry (a) (b) (s : State) : exec (.sleepExpiry a b) s = Sys2Proof.Machine.execSleepExpiry a b s := rfl
theorem exec_barRelease (a) (b) (s : State) : exec (.barRelease a b) s = Sys2Proof.Machine.execBarRelease a b s := rfl
theorem exec_barcRelease (a) (b) (s : State) : exec (.barcRelease a b) s = Sys2Proof.Machine.execBarcRelease a b s := rfl
theorem exec_groupRetire (x) (s : State) : exec (.groupRetire x) s = Sys2Proof.Machine.execGroupRetire x s := rfl
theorem exec_ptsWindowTick (x) (s : State) : exec (.ptsWindowTick x) s = Sys2Proof.Machine.execPtsWindowTick x s := rfl
theorem exec_grantL2 (a) (b) (c) (s : State) : exec (.grantL2 a b c) s = Sys2Proof.Machine.execGrantL2 a b c s := rfl
theorem exec_lineFill (a) (b) (c) (s : State) : exec (.lineFill a b c) s = Sys2Proof.Machine.execLineFill a b c s := rfl
theorem exec_renewalReturn (a) (b) (c) (s : State) : exec (.renewalReturn a b c) s = Sys2Proof.Machine.execRenewalReturn a b c s := rfl
theorem exec_epochRollover (x) (s : State) : exec (.epochRollover x) s = Sys2Proof.Machine.execEpochRollover x s := rfl
theorem exec_storeBufferLeave (x) (s : State) : exec (.storeBufferLeave x) s = Sys2Proof.Machine.execStoreBufferLeave x s := rfl
theorem exec_performAtHome (a) (b) (s : State) : exec (.performAtHome a b) s = Sys2Proof.Machine.execPerformAtHome a b s := rfl
theorem exec_storeAck (a) (b) (s : State) : exec (.storeAck a b) s = Sys2Proof.Machine.execStoreAck a b s := rfl
theorem exec_walk (x) (s : State) : exec (.walk x) s = Sys2Proof.Machine.execWalk x s := rfl
theorem exec_faultRecord (x) (s : State) : exec (.faultRecord x) s = Sys2Proof.Machine.execFaultRecord x s := rfl
theorem exec_bankReqmode (a) (b) (c) (s : State) : exec (.bankReqmode a b c) s = Sys2Proof.Machine.execBankReqmode a b c s := rfl
theorem exec_writeback (x) (s : State) : exec (.writeback x) s = Sys2Proof.Machine.execWriteback x s := rfl
theorem exec_waitrelease (x) (s : State) : exec (.waitrelease x) s = Sys2Proof.Machine.execWaitrelease x s := rfl
theorem exec_zerofill (x) (s : State) : exec (.zerofill x) s = Sys2Proof.Machine.execZerofill x s := rfl
theorem exec_peerAccessResume (x) (s : State) : exec (.peerAccessResume x) s = Sys2Proof.Machine.execPeerAccessResume x s := rfl
theorem exec_mxopAccept (x) (s : State) : exec (.mxopAccept x) s = Sys2Proof.Machine.execMxopAccept x s := rfl
theorem exec_matrixOpStart (x) (s : State) : exec (.matrixOpStart x) s = Sys2Proof.Machine.execMatrixOpStart x s := rfl
theorem exec_matrixOpComplete (x) (s : State) : exec (.matrixOpComplete x) s = Sys2Proof.Machine.execMatrixOpComplete x s := rfl
theorem exec_leaveGrant (x) (s : State) : exec (.leaveGrant x) s = Sys2Proof.Machine.execLeaveGrant x s := rfl
theorem exec_leaveReturn (x) (s : State) : exec (.leaveReturn x) s = Sys2Proof.Machine.execLeaveReturn x s := rfl
theorem exec_governorPeriod (x) (s : State) : exec (.governorPeriod x) s = Sys2Proof.Machine.execGovernorPeriod x s := rfl
theorem exec_powerSample (a) (b) (s : State) : exec (.powerSample a b) s = Sys2Proof.Machine.execPowerSample a b s := rfl
theorem exec_kick (a) (b) (c) (s : State) : exec (.kick a b c) s = Sys2Proof.Machine.execKick a b c s := rfl
theorem exec_directoryW1c (a) (b) (c) (s : State) : exec (.directoryW1c a b c) s = Sys2Proof.Machine.execDirectoryW1c a b c s := rfl
theorem exec_packetFetch (x) (s : State) : exec (.packetFetch x) s = Sys2Proof.Machine.execPacketFetch x s := rfl
theorem exec_nodeReady (a) (b) (s : State) : exec (.nodeReady a b) s = Sys2Proof.Machine.execNodeReady a b s := rfl
theorem exec_clusterPlace (a) (b) (c) (s : State) : exec (.clusterPlace a b c) s = Sys2Proof.Machine.execClusterPlace a b c s := rfl
theorem exec_nodeDispatch (a) (b) (s : State) : exec (.nodeDispatch a b) s = Sys2Proof.Machine.execNodeDispatch a b s := rfl
theorem exec_conditionRead (a) (b) (s : State) : exec (.conditionRead a b) s = Sys2Proof.Machine.execConditionRead a b s := rfl
theorem exec_nodeRetire (a) (b) (s : State) : exec (.nodeRetire a b) s = Sys2Proof.Machine.execNodeRetire a b s := rfl
theorem exec_completionRecord (x) (s : State) : exec (.completionRecord x) s = Sys2Proof.Machine.execCompletionRecord x s := rfl
theorem exec_tramLine (x) (s : State) : exec (.tramLine x) s = Sys2Proof.Machine.execTramLine x s := rfl
theorem exec_copyEnd (x) (s : State) : exec (.copyEnd x) s = Sys2Proof.Machine.execCopyEnd x s := rfl
theorem exec_streamStart (a) (b) (s : State) : exec (.streamStart a b) s = Sys2Proof.Machine.execStreamStart a b s := rfl
theorem exec_streamRead (a) (b) (s : State) : exec (.streamRead a b) s = Sys2Proof.Machine.execStreamRead a b s := rfl
theorem exec_coinPeriod (s : State) : exec (.coinPeriod) s = Sys2Proof.Machine.execCoinPeriod s := rfl
theorem exec_eventPlace (x) (s : State) : exec (.eventPlace x) s = Sys2Proof.Machine.execEventPlace x s := rfl
theorem exec_evwaitTimeout (x) (s : State) : exec (.evwaitTimeout x) s = Sys2Proof.Machine.execEvwaitTimeout x s := rfl
theorem exec_sliceChange (a) (b) (s : State) : exec (.sliceChange a b) s = Sys2Proof.Machine.execSliceChange a b s := rfl
theorem exec_stopRequest (x) (s : State) : exec (.stopRequest x) s = Sys2Proof.Machine.execStopRequest x s := rfl
theorem exec_teamStopped (x) (s : State) : exec (.teamStopped x) s = Sys2Proof.Machine.execTeamStopped x s := rfl
theorem exec_overrun (a) (b) (s : State) : exec (.overrun a b) s = Sys2Proof.Machine.execOverrun a b s := rfl
theorem exec_migration (a) (b) (c) (s : State) : exec (.migration a b c) s = Sys2Proof.Machine.execMigration a b c s := rfl
theorem exec_imageUpdate (x) (s : State) : exec (.imageUpdate x) s = Sys2Proof.Machine.execImageUpdate x s := rfl
theorem exec_scrubEnd (a) (b) (s : State) : exec (.scrubEnd a b) s = Sys2Proof.Machine.execScrubEnd a b s := rfl
theorem exec_departureEnd (x) (s : State) : exec (.departureEnd x) s = Sys2Proof.Machine.execDepartureEnd x s := rfl
theorem exec_wayFree (x) (s : State) : exec (.wayFree x) s = Sys2Proof.Machine.execWayFree x s := rfl
theorem exec_sweepEnd (a) (b) (s : State) : exec (.sweepEnd a b) s = Sys2Proof.Machine.execSweepEnd a b s := rfl
theorem exec_migrationBatch (x) (s : State) : exec (.migrationBatch x) s = Sys2Proof.Machine.execMigrationBatch x s := rfl
theorem exec_zoneCommit (x) (s : State) : exec (.zoneCommit x) s = Sys2Proof.Machine.execZoneCommit x s := rfl
theorem exec_remoteRequest (a) (b) (c) (d) (s : State) : exec (.remoteRequest a b c d) s = Sys2Proof.Machine.execRemoteRequest a b c d s := rfl
theorem exec_remoteResponse (a) (b) (s : State) : exec (.remoteResponse a b) s = Sys2Proof.Machine.execRemoteResponse a b s := rfl
theorem exec_heldWriteRelease (x) (s : State) : exec (.heldWriteRelease x) s = Sys2Proof.Machine.execHeldWriteRelease x s := rfl
theorem exec_fenceAssistAnswer (x) (s : State) : exec (.fenceAssistAnswer x) s = Sys2Proof.Machine.execFenceAssistAnswer x s := rfl
theorem exec_suspect (x) (s : State) : exec (.suspect x) s = Sys2Proof.Machine.execSuspect x s := rfl
theorem exec_probeTimeout (x) (s : State) : exec (.probeTimeout x) s = Sys2Proof.Machine.execProbeTimeout x s := rfl
theorem exec_linkDown (x) (s : State) : exec (.linkDown x) s = Sys2Proof.Machine.execLinkDown x s := rfl
theorem exec_remoteFailure (x) (s : State) : exec (.remoteFailure x) s = Sys2Proof.Machine.execRemoteFailure x s := rfl
theorem exec_remote (x) (s : State) : exec (.remote x) s = Sys2Proof.Machine.execRemote x s := rfl
theorem exec_collectiveRetire (a) (b) (c) (d) (s : State) : exec (.collectiveRetire a b c d) s = Sys2Proof.Machine.execCollectiveRetire a b c d s := rfl
theorem exec_ptpMessage (a) (b) (s : State) : exec (.ptpMessage a b) s = Sys2Proof.Machine.execPtpMessage a b s := rfl
theorem exec_ppsEdge (x) (s : State) : exec (.ppsEdge x) s = Sys2Proof.Machine.execPpsEdge x s := rfl
theorem exec_holdoverExpiry (s : State) : exec (.holdoverExpiry) s = Sys2Proof.Machine.execHoldoverExpiry s := rfl
theorem exec_referenceLoss (s : State) : exec (.referenceLoss) s = Sys2Proof.Machine.execReferenceLoss s := rfl
theorem exec_hostCompletion (a) (b) (s : State) : exec (.hostCompletion a b) s = Sys2Proof.Machine.execHostCompletion a b s := rfl
theorem exec_hostRequest (a) (b) (c) (d) (s : State) : exec (.hostRequest a b c d) s = Sys2Proof.Machine.execHostRequest a b c d s := rfl
theorem exec_chipletFence (a) (b) (s : State) : exec (.chipletFence a b) s = Sys2Proof.Machine.execChipletFence a b s := rfl
theorem exec_chipletPowerOff (a) (b) (s : State) : exec (.chipletPowerOff a b) s = Sys2Proof.Machine.execChipletPowerOff a b s := rfl
theorem exec_chipletReset (a) (b) (s : State) : exec (.chipletReset a b) s = Sys2Proof.Machine.execChipletReset a b s := rfl
theorem exec_resetDone (a) (b) (s : State) : exec (.resetDone a b) s = Sys2Proof.Machine.execResetDone a b s := rfl
theorem exec_chipletError (x) (s : State) : exec (.chipletError x) s = Sys2Proof.Machine.execChipletError x s := rfl
theorem exec_exchangeTakeover (s : State) : exec (.exchangeTakeover) s = Sys2Proof.Machine.execExchangeTakeover s := rfl
theorem exec_coreFence (x) (s : State) : exec (.coreFence x) s = Sys2Proof.Machine.execCoreFence x s := rfl
theorem exec_channelLoss (a) (b) (s : State) : exec (.channelLoss a b) s = Sys2Proof.Machine.execChannelLoss a b s := rfl
theorem exec_healthW1c (a) (b) (s : State) : exec (.healthW1c a b) s = Sys2Proof.Machine.execHealthW1c a b s := rfl
theorem exec_coldReset (s : State) : exec (.coldReset) s = Sys2Proof.Machine.execColdReset s := rfl
theorem exec_attestationRequest (a) (b) (c) (d) (s : State) : exec (.attestationRequest a b c d) s = Sys2Proof.Machine.execAttestationRequest a b c d s := rfl
theorem exec_registerWrite (a) (b) (c) (d) (s : State) : exec (.registerWrite a b c d) s = Sys2Proof.Machine.execRegisterWrite a b c d s := rfl
theorem exec_sweepVisit (a) (b) (c) (s : State) : exec (.sweepVisit a b c) s = Sys2Proof.Machine.execSweepVisit a b c s := rfl

end Sys2Proof.Machine
end

