-- ==== Sys2Proof/Laws/State.lean ====
section
/-!
SUPPORT. What each named update of the state and of a group leaves in every field: one lemma a field, so that no proof unfolds a
record update.
-/

namespace Sys2Proof.Machine


/-! ## `State.setGroup` -/

@[simp] theorem State.setGroup_sched (s : State) (u : Nat) (g : Group) : (s.setGroup u g).sched = s.sched := rfl
@[simp] theorem State.setGroup_cur (s : State) (u : Nat) (g : Group) : (s.setGroup u g).cur = s.cur := rfl
@[simp] theorem State.setGroup_curPc (s : State) (u : Nat) (g : Group) : (s.setGroup u g).curPc = s.curPc := rfl
@[simp] theorem State.setGroup_curMask (s : State) (u : Nat) (g : Group) : (s.setGroup u g).curMask = s.curMask := rfl
@[simp] theorem State.setGroup_curBlind (s : State) (u : Nat) (g : Group) : (s.setGroup u g).curBlind = s.curBlind := rfl
@[simp] theorem State.setGroup_ahead (s : State) (u : Nat) (g : Group) : (s.setGroup u g).ahead = s.ahead := rfl
@[simp] theorem State.setGroup_nfree (s : State) (u : Nat) (g : Group) : (s.setGroup u g).nfree = s.nfree := rfl
@[simp] theorem State.setGroup_trapSeq (s : State) (u : Nat) (g : Group) : (s.setGroup u g).trapSeq = s.trapSeq := rfl
@[simp] theorem State.setGroup_cycle (s : State) (u : Nat) (g : Group) : (s.setGroup u g).cycle = s.cycle := rfl
@[simp] theorem State.setGroup_period (s : State) (u : Nat) (g : Group) : (s.setGroup u g).period = s.period := rfl
@[simp] theorem State.setGroup_chanq (s : State) (u : Nat) (g : Group) : (s.setGroup u g).chanq = s.chanq := rfl
@[simp] theorem State.setGroup_groups (s : State) (u : Nat) (g : Group) : (s.setGroup u g).groups = put s.groups u (g.settle s.cycle) := rfl
@[simp] theorem State.setGroup_teams (s : State) (u : Nat) (g : Group) : (s.setGroup u g).teams = s.teams := rfl
@[simp] theorem State.setGroup_ctxs (s : State) (u : Nat) (g : Group) : (s.setGroup u g).ctxs = s.ctxs := rfl
@[simp] theorem State.setGroup_zones (s : State) (u : Nat) (g : Group) : (s.setGroup u g).zones = s.zones := rfl
@[simp] theorem State.setGroup_mem (s : State) (u : Nat) (g : Group) : (s.setGroup u g).mem = s.mem := rfl
@[simp] theorem State.setGroup_homes (s : State) (u : Nat) (g : Group) : (s.setGroup u g).homes = s.homes := rfl
@[simp] theorem State.setGroup_l1 (s : State) (u : Nat) (g : Group) : (s.setGroup u g).l1 = s.l1 := rfl
@[simp] theorem State.setGroup_l2 (s : State) (u : Nat) (g : Group) : (s.setGroup u g).l2 = s.l2 := rfl
@[simp] theorem State.setGroup_bases (s : State) (u : Nat) (g : Group) : (s.setGroup u g).bases = s.bases := rfl
@[simp] theorem State.setGroup_tlb1 (s : State) (u : Nat) (g : Group) : (s.setGroup u g).tlb1 = s.tlb1 := rfl
@[simp] theorem State.setGroup_tlb2 (s : State) (u : Nat) (g : Group) : (s.setGroup u g).tlb2 = s.tlb2 := rfl
@[simp] theorem State.setGroup_code (s : State) (u : Nat) (g : Group) : (s.setGroup u g).code = s.code := rfl
@[simp] theorem State.setGroup_writable (s : State) (u : Nat) (g : Group) : (s.setGroup u g).writable = s.writable := rfl
@[simp] theorem State.setGroup_fbuf (s : State) (u : Nat) (g : Group) : (s.setGroup u g).fbuf = s.fbuf := rfl
@[simp] theorem State.setGroup_fwait (s : State) (u : Nat) (g : Group) : (s.setGroup u g).fwait = s.fwait := rfl
@[simp] theorem State.setGroup_objs (s : State) (u : Nat) (g : Group) : (s.setGroup u g).objs = s.objs := rfl
@[simp] theorem State.setGroup_qdir (s : State) (u : Nat) (g : Group) : (s.setGroup u g).qdir = s.qdir := rfl
@[simp] theorem State.setGroup_banks (s : State) (u : Nat) (g : Group) : (s.setGroup u g).banks = s.banks := rfl
@[simp] theorem State.setGroup_badLines (s : State) (u : Nat) (g : Group) : (s.setGroup u g).badLines = s.badLines := rfl
@[simp] theorem State.setGroup_deadChs (s : State) (u : Nat) (g : Group) : (s.setGroup u g).deadChs = s.deadChs := rfl
@[simp] theorem State.setGroup_rcopies (s : State) (u : Nat) (g : Group) : (s.setGroup u g).rcopies = s.rcopies := rfl
@[simp] theorem State.setGroup_rout (s : State) (u : Nat) (g : Group) : (s.setGroup u g).rout = s.rout := rfl
@[simp] theorem State.setGroup_reqSeq (s : State) (u : Nat) (g : Group) : (s.setGroup u g).reqSeq = s.reqSeq := rfl
@[simp] theorem State.setGroup_now (s : State) (u : Nat) (g : Group) : (s.setGroup u g).now = s.now := rfl
@[simp] theorem State.setGroup_tstat (s : State) (u : Nat) (g : Group) : (s.setGroup u g).tstat = s.tstat := rfl
@[simp] theorem State.setGroup_holdoverAt (s : State) (u : Nat) (g : Group) : (s.setGroup u g).holdoverAt = s.holdoverAt := rfl
@[simp] theorem State.setGroup_leftAt (s : State) (u : Nat) (g : Group) : (s.setGroup u g).leftAt = s.leftAt := rfl
@[simp] theorem State.setGroup_routes (s : State) (u : Nat) (g : Group) : (s.setGroup u g).routes = s.routes := rfl
@[simp] theorem State.setGroup_peers (s : State) (u : Nat) (g : Group) : (s.setGroup u g).peers = s.peers := rfl
@[simp] theorem State.setGroup_quads (s : State) (u : Nat) (g : Group) : (s.setGroup u g).quads = s.quads := rfl
@[simp] theorem State.setGroup_govs (s : State) (u : Nat) (g : Group) : (s.setGroup u g).govs = s.govs := rfl
@[simp] theorem State.setGroup_devNum (s : State) (u : Nat) (g : Group) : (s.setGroup u g).devNum = s.devNum := rfl
@[simp] theorem State.setGroup_bridge (s : State) (u : Nat) (g : Group) : (s.setGroup u g).bridge = s.bridge := rfl
@[simp] theorem State.setGroup_groupBridge (s : State) (u : Nat) (g : Group) : (s.setGroup u g).groupBridge = s.groupBridge := rfl
@[simp] theorem State.setGroup_hostMem (s : State) (u : Nat) (g : Group) : (s.setGroup u g).hostMem = s.hostMem := rfl
@[simp] theorem State.setGroup_phase (s : State) (u : Nat) (g : Group) : (s.setGroup u g).phase = s.phase := rfl
@[simp] theorem State.setGroup_boot (s : State) (u : Nat) (g : Group) : (s.setGroup u g).boot = s.boot := rfl
@[simp] theorem State.setGroup_capgen (s : State) (u : Nat) (g : Group) : (s.setGroup u g).capgen = s.capgen := rfl
@[simp] theorem State.setGroup_cap (s : State) (u : Nat) (g : Group) : (s.setGroup u g).cap = s.cap := rfl
@[simp] theorem State.setGroup_chips (s : State) (u : Nat) (g : Group) : (s.setGroup u g).chips = s.chips := rfl
@[simp] theorem State.setGroup_health (s : State) (u : Nat) (g : Group) : (s.setGroup u g).health = s.health := rfl
@[simp] theorem State.setGroup_slots (s : State) (u : Nat) (g : Group) : (s.setGroup u g).slots = s.slots := rfl
@[simp] theorem State.setGroup_graphs (s : State) (u : Nat) (g : Group) : (s.setGroup u g).graphs = s.graphs := rfl
@[simp] theorem State.setGroup_nextGraph (s : State) (u : Nat) (g : Group) : (s.setGroup u g).nextGraph = s.nextGraph := rfl
@[simp] theorem State.setGroup_copies (s : State) (u : Nat) (g : Group) : (s.setGroup u g).copies = s.copies := rfl
@[simp] theorem State.setGroup_uid (s : State) (u : Nat) (g : Group) : (s.setGroup u g).uid = s.uid := rfl
@[simp] theorem State.setGroup_evq (s : State) (u : Nat) (g : Group) : (s.setGroup u g).evq = s.evq := rfl
@[simp] theorem State.setGroup_evHeld (s : State) (u : Nat) (g : Group) : (s.setGroup u g).evHeld = s.evHeld := rfl
@[simp] theorem State.setGroup_exportW (s : State) (u : Nat) (g : Group) : (s.setGroup u g).exportW = s.exportW := rfl
@[simp] theorem State.setGroup_held (s : State) (u : Nat) (g : Group) : (s.setGroup u g).held = s.held := rfl
@[simp] theorem State.setGroup_answer (s : State) (u : Nat) (g : Group) : (s.setGroup u g).answer = s.answer := rfl
@[simp] theorem State.setGroup_mailbox (s : State) (u : Nat) (g : Group) : (s.setGroup u g).mailbox = s.mailbox := rfl
@[simp] theorem State.setGroup_hdm (s : State) (u : Nat) (g : Group) : (s.setGroup u g).hdm = s.hdm := rfl

/-! ## `State.updTeam` -/

@[simp] theorem State.updTeam_sched (s : State) (u : Nat) (f : Team → Team) : (s.updTeam u f).sched = s.sched := rfl
@[simp] theorem State.updTeam_cur (s : State) (u : Nat) (f : Team → Team) : (s.updTeam u f).cur = s.cur := rfl
@[simp] theorem State.updTeam_curPc (s : State) (u : Nat) (f : Team → Team) : (s.updTeam u f).curPc = s.curPc := rfl
@[simp] theorem State.updTeam_curMask (s : State) (u : Nat) (f : Team → Team) : (s.updTeam u f).curMask = s.curMask := rfl
@[simp] theorem State.updTeam_curBlind (s : State) (u : Nat) (f : Team → Team) : (s.updTeam u f).curBlind = s.curBlind := rfl
@[simp] theorem State.updTeam_ahead (s : State) (u : Nat) (f : Team → Team) : (s.updTeam u f).ahead = s.ahead := rfl
@[simp] theorem State.updTeam_nfree (s : State) (u : Nat) (f : Team → Team) : (s.updTeam u f).nfree = s.nfree := rfl
@[simp] theorem State.updTeam_trapSeq (s : State) (u : Nat) (f : Team → Team) : (s.updTeam u f).trapSeq = s.trapSeq := rfl
@[simp] theorem State.updTeam_cycle (s : State) (u : Nat) (f : Team → Team) : (s.updTeam u f).cycle = s.cycle := rfl
@[simp] theorem State.updTeam_period (s : State) (u : Nat) (f : Team → Team) : (s.updTeam u f).period = s.period := rfl
@[simp] theorem State.updTeam_chanq (s : State) (u : Nat) (f : Team → Team) : (s.updTeam u f).chanq = s.chanq := rfl
@[simp] theorem State.updTeam_groups (s : State) (u : Nat) (f : Team → Team) : (s.updTeam u f).groups = s.groups := rfl
@[simp] theorem State.updTeam_teams (s : State) (u : Nat) (f : Team → Team) : (s.updTeam u f).teams = upd s.teams u f := rfl
@[simp] theorem State.updTeam_ctxs (s : State) (u : Nat) (f : Team → Team) : (s.updTeam u f).ctxs = s.ctxs := rfl
@[simp] theorem State.updTeam_zones (s : State) (u : Nat) (f : Team → Team) : (s.updTeam u f).zones = s.zones := rfl
@[simp] theorem State.updTeam_mem (s : State) (u : Nat) (f : Team → Team) : (s.updTeam u f).mem = s.mem := rfl
@[simp] theorem State.updTeam_homes (s : State) (u : Nat) (f : Team → Team) : (s.updTeam u f).homes = s.homes := rfl
@[simp] theorem State.updTeam_l1 (s : State) (u : Nat) (f : Team → Team) : (s.updTeam u f).l1 = s.l1 := rfl
@[simp] theorem State.updTeam_l2 (s : State) (u : Nat) (f : Team → Team) : (s.updTeam u f).l2 = s.l2 := rfl
@[simp] theorem State.updTeam_bases (s : State) (u : Nat) (f : Team → Team) : (s.updTeam u f).bases = s.bases := rfl
@[simp] theorem State.updTeam_tlb1 (s : State) (u : Nat) (f : Team → Team) : (s.updTeam u f).tlb1 = s.tlb1 := rfl
@[simp] theorem State.updTeam_tlb2 (s : State) (u : Nat) (f : Team → Team) : (s.updTeam u f).tlb2 = s.tlb2 := rfl
@[simp] theorem State.updTeam_code (s : State) (u : Nat) (f : Team → Team) : (s.updTeam u f).code = s.code := rfl
@[simp] theorem State.updTeam_writable (s : State) (u : Nat) (f : Team → Team) : (s.updTeam u f).writable = s.writable := rfl
@[simp] theorem State.updTeam_fbuf (s : State) (u : Nat) (f : Team → Team) : (s.updTeam u f).fbuf = s.fbuf := rfl
@[simp] theorem State.updTeam_fwait (s : State) (u : Nat) (f : Team → Team) : (s.updTeam u f).fwait = s.fwait := rfl
@[simp] theorem State.updTeam_objs (s : State) (u : Nat) (f : Team → Team) : (s.updTeam u f).objs = s.objs := rfl
@[simp] theorem State.updTeam_qdir (s : State) (u : Nat) (f : Team → Team) : (s.updTeam u f).qdir = s.qdir := rfl
@[simp] theorem State.updTeam_banks (s : State) (u : Nat) (f : Team → Team) : (s.updTeam u f).banks = s.banks := rfl
@[simp] theorem State.updTeam_badLines (s : State) (u : Nat) (f : Team → Team) : (s.updTeam u f).badLines = s.badLines := rfl
@[simp] theorem State.updTeam_deadChs (s : State) (u : Nat) (f : Team → Team) : (s.updTeam u f).deadChs = s.deadChs := rfl
@[simp] theorem State.updTeam_rcopies (s : State) (u : Nat) (f : Team → Team) : (s.updTeam u f).rcopies = s.rcopies := rfl
@[simp] theorem State.updTeam_rout (s : State) (u : Nat) (f : Team → Team) : (s.updTeam u f).rout = s.rout := rfl
@[simp] theorem State.updTeam_reqSeq (s : State) (u : Nat) (f : Team → Team) : (s.updTeam u f).reqSeq = s.reqSeq := rfl
@[simp] theorem State.updTeam_now (s : State) (u : Nat) (f : Team → Team) : (s.updTeam u f).now = s.now := rfl
@[simp] theorem State.updTeam_tstat (s : State) (u : Nat) (f : Team → Team) : (s.updTeam u f).tstat = s.tstat := rfl
@[simp] theorem State.updTeam_holdoverAt (s : State) (u : Nat) (f : Team → Team) : (s.updTeam u f).holdoverAt = s.holdoverAt := rfl
@[simp] theorem State.updTeam_leftAt (s : State) (u : Nat) (f : Team → Team) : (s.updTeam u f).leftAt = s.leftAt := rfl
@[simp] theorem State.updTeam_routes (s : State) (u : Nat) (f : Team → Team) : (s.updTeam u f).routes = s.routes := rfl
@[simp] theorem State.updTeam_peers (s : State) (u : Nat) (f : Team → Team) : (s.updTeam u f).peers = s.peers := rfl
@[simp] theorem State.updTeam_quads (s : State) (u : Nat) (f : Team → Team) : (s.updTeam u f).quads = s.quads := rfl
@[simp] theorem State.updTeam_govs (s : State) (u : Nat) (f : Team → Team) : (s.updTeam u f).govs = s.govs := rfl
@[simp] theorem State.updTeam_devNum (s : State) (u : Nat) (f : Team → Team) : (s.updTeam u f).devNum = s.devNum := rfl
@[simp] theorem State.updTeam_bridge (s : State) (u : Nat) (f : Team → Team) : (s.updTeam u f).bridge = s.bridge := rfl
@[simp] theorem State.updTeam_groupBridge (s : State) (u : Nat) (f : Team → Team) : (s.updTeam u f).groupBridge = s.groupBridge := rfl
@[simp] theorem State.updTeam_hostMem (s : State) (u : Nat) (f : Team → Team) : (s.updTeam u f).hostMem = s.hostMem := rfl
@[simp] theorem State.updTeam_phase (s : State) (u : Nat) (f : Team → Team) : (s.updTeam u f).phase = s.phase := rfl
@[simp] theorem State.updTeam_boot (s : State) (u : Nat) (f : Team → Team) : (s.updTeam u f).boot = s.boot := rfl
@[simp] theorem State.updTeam_capgen (s : State) (u : Nat) (f : Team → Team) : (s.updTeam u f).capgen = s.capgen := rfl
@[simp] theorem State.updTeam_cap (s : State) (u : Nat) (f : Team → Team) : (s.updTeam u f).cap = s.cap := rfl
@[simp] theorem State.updTeam_chips (s : State) (u : Nat) (f : Team → Team) : (s.updTeam u f).chips = s.chips := rfl
@[simp] theorem State.updTeam_health (s : State) (u : Nat) (f : Team → Team) : (s.updTeam u f).health = s.health := rfl
@[simp] theorem State.updTeam_slots (s : State) (u : Nat) (f : Team → Team) : (s.updTeam u f).slots = s.slots := rfl
@[simp] theorem State.updTeam_graphs (s : State) (u : Nat) (f : Team → Team) : (s.updTeam u f).graphs = s.graphs := rfl
@[simp] theorem State.updTeam_nextGraph (s : State) (u : Nat) (f : Team → Team) : (s.updTeam u f).nextGraph = s.nextGraph := rfl
@[simp] theorem State.updTeam_copies (s : State) (u : Nat) (f : Team → Team) : (s.updTeam u f).copies = s.copies := rfl
@[simp] theorem State.updTeam_uid (s : State) (u : Nat) (f : Team → Team) : (s.updTeam u f).uid = s.uid := rfl
@[simp] theorem State.updTeam_evq (s : State) (u : Nat) (f : Team → Team) : (s.updTeam u f).evq = s.evq := rfl
@[simp] theorem State.updTeam_evHeld (s : State) (u : Nat) (f : Team → Team) : (s.updTeam u f).evHeld = s.evHeld := rfl
@[simp] theorem State.updTeam_exportW (s : State) (u : Nat) (f : Team → Team) : (s.updTeam u f).exportW = s.exportW := rfl
@[simp] theorem State.updTeam_held (s : State) (u : Nat) (f : Team → Team) : (s.updTeam u f).held = s.held := rfl
@[simp] theorem State.updTeam_answer (s : State) (u : Nat) (f : Team → Team) : (s.updTeam u f).answer = s.answer := rfl
@[simp] theorem State.updTeam_mailbox (s : State) (u : Nat) (f : Team → Team) : (s.updTeam u f).mailbox = s.mailbox := rfl
@[simp] theorem State.updTeam_hdm (s : State) (u : Nat) (f : Team → Team) : (s.updTeam u f).hdm = s.hdm := rfl

/-! ## `State.updCtx` -/

@[simp] theorem State.updCtx_sched (s : State) (n : Nat) (f : Ctx → Ctx) : (s.updCtx n f).sched = s.sched := rfl
@[simp] theorem State.updCtx_cur (s : State) (n : Nat) (f : Ctx → Ctx) : (s.updCtx n f).cur = s.cur := rfl
@[simp] theorem State.updCtx_curPc (s : State) (n : Nat) (f : Ctx → Ctx) : (s.updCtx n f).curPc = s.curPc := rfl
@[simp] theorem State.updCtx_curMask (s : State) (n : Nat) (f : Ctx → Ctx) : (s.updCtx n f).curMask = s.curMask := rfl
@[simp] theorem State.updCtx_curBlind (s : State) (n : Nat) (f : Ctx → Ctx) : (s.updCtx n f).curBlind = s.curBlind := rfl
@[simp] theorem State.updCtx_ahead (s : State) (n : Nat) (f : Ctx → Ctx) : (s.updCtx n f).ahead = s.ahead := rfl
@[simp] theorem State.updCtx_nfree (s : State) (n : Nat) (f : Ctx → Ctx) : (s.updCtx n f).nfree = s.nfree := rfl
@[simp] theorem State.updCtx_trapSeq (s : State) (n : Nat) (f : Ctx → Ctx) : (s.updCtx n f).trapSeq = s.trapSeq := rfl
@[simp] theorem State.updCtx_cycle (s : State) (n : Nat) (f : Ctx → Ctx) : (s.updCtx n f).cycle = s.cycle := rfl
@[simp] theorem State.updCtx_period (s : State) (n : Nat) (f : Ctx → Ctx) : (s.updCtx n f).period = s.period := rfl
@[simp] theorem State.updCtx_chanq (s : State) (n : Nat) (f : Ctx → Ctx) : (s.updCtx n f).chanq = s.chanq := rfl
@[simp] theorem State.updCtx_groups (s : State) (n : Nat) (f : Ctx → Ctx) : (s.updCtx n f).groups = s.groups := rfl
@[simp] theorem State.updCtx_teams (s : State) (n : Nat) (f : Ctx → Ctx) : (s.updCtx n f).teams = s.teams := rfl
@[simp] theorem State.updCtx_ctxs (s : State) (n : Nat) (f : Ctx → Ctx) : (s.updCtx n f).ctxs = upd s.ctxs n f := rfl
@[simp] theorem State.updCtx_zones (s : State) (n : Nat) (f : Ctx → Ctx) : (s.updCtx n f).zones = s.zones := rfl
@[simp] theorem State.updCtx_mem (s : State) (n : Nat) (f : Ctx → Ctx) : (s.updCtx n f).mem = s.mem := rfl
@[simp] theorem State.updCtx_homes (s : State) (n : Nat) (f : Ctx → Ctx) : (s.updCtx n f).homes = s.homes := rfl
@[simp] theorem State.updCtx_l1 (s : State) (n : Nat) (f : Ctx → Ctx) : (s.updCtx n f).l1 = s.l1 := rfl
@[simp] theorem State.updCtx_l2 (s : State) (n : Nat) (f : Ctx → Ctx) : (s.updCtx n f).l2 = s.l2 := rfl
@[simp] theorem State.updCtx_bases (s : State) (n : Nat) (f : Ctx → Ctx) : (s.updCtx n f).bases = s.bases := rfl
@[simp] theorem State.updCtx_tlb1 (s : State) (n : Nat) (f : Ctx → Ctx) : (s.updCtx n f).tlb1 = s.tlb1 := rfl
@[simp] theorem State.updCtx_tlb2 (s : State) (n : Nat) (f : Ctx → Ctx) : (s.updCtx n f).tlb2 = s.tlb2 := rfl
@[simp] theorem State.updCtx_code (s : State) (n : Nat) (f : Ctx → Ctx) : (s.updCtx n f).code = s.code := rfl
@[simp] theorem State.updCtx_writable (s : State) (n : Nat) (f : Ctx → Ctx) : (s.updCtx n f).writable = s.writable := rfl
@[simp] theorem State.updCtx_fbuf (s : State) (n : Nat) (f : Ctx → Ctx) : (s.updCtx n f).fbuf = s.fbuf := rfl
@[simp] theorem State.updCtx_fwait (s : State) (n : Nat) (f : Ctx → Ctx) : (s.updCtx n f).fwait = s.fwait := rfl
@[simp] theorem State.updCtx_objs (s : State) (n : Nat) (f : Ctx → Ctx) : (s.updCtx n f).objs = s.objs := rfl
@[simp] theorem State.updCtx_qdir (s : State) (n : Nat) (f : Ctx → Ctx) : (s.updCtx n f).qdir = s.qdir := rfl
@[simp] theorem State.updCtx_banks (s : State) (n : Nat) (f : Ctx → Ctx) : (s.updCtx n f).banks = s.banks := rfl
@[simp] theorem State.updCtx_badLines (s : State) (n : Nat) (f : Ctx → Ctx) : (s.updCtx n f).badLines = s.badLines := rfl
@[simp] theorem State.updCtx_deadChs (s : State) (n : Nat) (f : Ctx → Ctx) : (s.updCtx n f).deadChs = s.deadChs := rfl
@[simp] theorem State.updCtx_rcopies (s : State) (n : Nat) (f : Ctx → Ctx) : (s.updCtx n f).rcopies = s.rcopies := rfl
@[simp] theorem State.updCtx_rout (s : State) (n : Nat) (f : Ctx → Ctx) : (s.updCtx n f).rout = s.rout := rfl
@[simp] theorem State.updCtx_reqSeq (s : State) (n : Nat) (f : Ctx → Ctx) : (s.updCtx n f).reqSeq = s.reqSeq := rfl
@[simp] theorem State.updCtx_now (s : State) (n : Nat) (f : Ctx → Ctx) : (s.updCtx n f).now = s.now := rfl
@[simp] theorem State.updCtx_tstat (s : State) (n : Nat) (f : Ctx → Ctx) : (s.updCtx n f).tstat = s.tstat := rfl
@[simp] theorem State.updCtx_holdoverAt (s : State) (n : Nat) (f : Ctx → Ctx) : (s.updCtx n f).holdoverAt = s.holdoverAt := rfl
@[simp] theorem State.updCtx_leftAt (s : State) (n : Nat) (f : Ctx → Ctx) : (s.updCtx n f).leftAt = s.leftAt := rfl
@[simp] theorem State.updCtx_routes (s : State) (n : Nat) (f : Ctx → Ctx) : (s.updCtx n f).routes = s.routes := rfl
@[simp] theorem State.updCtx_peers (s : State) (n : Nat) (f : Ctx → Ctx) : (s.updCtx n f).peers = s.peers := rfl
@[simp] theorem State.updCtx_quads (s : State) (n : Nat) (f : Ctx → Ctx) : (s.updCtx n f).quads = s.quads := rfl
@[simp] theorem State.updCtx_govs (s : State) (n : Nat) (f : Ctx → Ctx) : (s.updCtx n f).govs = s.govs := rfl
@[simp] theorem State.updCtx_devNum (s : State) (n : Nat) (f : Ctx → Ctx) : (s.updCtx n f).devNum = s.devNum := rfl
@[simp] theorem State.updCtx_bridge (s : State) (n : Nat) (f : Ctx → Ctx) : (s.updCtx n f).bridge = s.bridge := rfl
@[simp] theorem State.updCtx_groupBridge (s : State) (n : Nat) (f : Ctx → Ctx) : (s.updCtx n f).groupBridge = s.groupBridge := rfl
@[simp] theorem State.updCtx_hostMem (s : State) (n : Nat) (f : Ctx → Ctx) : (s.updCtx n f).hostMem = s.hostMem := rfl
@[simp] theorem State.updCtx_phase (s : State) (n : Nat) (f : Ctx → Ctx) : (s.updCtx n f).phase = s.phase := rfl
@[simp] theorem State.updCtx_boot (s : State) (n : Nat) (f : Ctx → Ctx) : (s.updCtx n f).boot = s.boot := rfl
@[simp] theorem State.updCtx_capgen (s : State) (n : Nat) (f : Ctx → Ctx) : (s.updCtx n f).capgen = s.capgen := rfl
@[simp] theorem State.updCtx_cap (s : State) (n : Nat) (f : Ctx → Ctx) : (s.updCtx n f).cap = s.cap := rfl
@[simp] theorem State.updCtx_chips (s : State) (n : Nat) (f : Ctx → Ctx) : (s.updCtx n f).chips = s.chips := rfl
@[simp] theorem State.updCtx_health (s : State) (n : Nat) (f : Ctx → Ctx) : (s.updCtx n f).health = s.health := rfl
@[simp] theorem State.updCtx_slots (s : State) (n : Nat) (f : Ctx → Ctx) : (s.updCtx n f).slots = s.slots := rfl
@[simp] theorem State.updCtx_graphs (s : State) (n : Nat) (f : Ctx → Ctx) : (s.updCtx n f).graphs = s.graphs := rfl
@[simp] theorem State.updCtx_nextGraph (s : State) (n : Nat) (f : Ctx → Ctx) : (s.updCtx n f).nextGraph = s.nextGraph := rfl
@[simp] theorem State.updCtx_copies (s : State) (n : Nat) (f : Ctx → Ctx) : (s.updCtx n f).copies = s.copies := rfl
@[simp] theorem State.updCtx_uid (s : State) (n : Nat) (f : Ctx → Ctx) : (s.updCtx n f).uid = s.uid := rfl
@[simp] theorem State.updCtx_evq (s : State) (n : Nat) (f : Ctx → Ctx) : (s.updCtx n f).evq = s.evq := rfl
@[simp] theorem State.updCtx_evHeld (s : State) (n : Nat) (f : Ctx → Ctx) : (s.updCtx n f).evHeld = s.evHeld := rfl
@[simp] theorem State.updCtx_exportW (s : State) (n : Nat) (f : Ctx → Ctx) : (s.updCtx n f).exportW = s.exportW := rfl
@[simp] theorem State.updCtx_held (s : State) (n : Nat) (f : Ctx → Ctx) : (s.updCtx n f).held = s.held := rfl
@[simp] theorem State.updCtx_answer (s : State) (n : Nat) (f : Ctx → Ctx) : (s.updCtx n f).answer = s.answer := rfl
@[simp] theorem State.updCtx_mailbox (s : State) (n : Nat) (f : Ctx → Ctx) : (s.updCtx n f).mailbox = s.mailbox := rfl
@[simp] theorem State.updCtx_hdm (s : State) (n : Nat) (f : Ctx → Ctx) : (s.updCtx n f).hdm = s.hdm := rfl

/-! ## `Group.mapThreads` -/

@[simp] theorem Group.mapThreads_team (g : Group) (f : Nat → Thread → Thread) : (g.mapThreads f).team = g.team := rfl
@[simp] theorem Group.mapThreads_gidx (g : Group) (f : Nat → Thread → Thread) : (g.mapThreads f).gidx = g.gidx := rfl
@[simp] theorem Group.mapThreads_quad (g : Group) (f : Nat → Thread → Thread) : (g.mapThreads f).quad = g.quad := rfl
@[simp] theorem Group.mapThreads_slot (g : Group) (f : Nat → Thread → Thread) : (g.mapThreads f).slot = g.slot := rfl
@[simp] theorem Group.mapThreads_readyAt (g : Group) (f : Nat → Thread → Thread) : (g.mapThreads f).readyAt = g.readyAt := rfl
@[simp] theorem Group.mapThreads_regs (g : Group) (f : Nat → Thread → Thread) : (g.mapThreads f).regs = g.regs := rfl
@[simp] theorem Group.mapThreads_threads (g : Group) (f : Nat → Thread → Thread) : (g.mapThreads f).threads = g.threads.mapIdx f := rfl
@[simp] theorem Group.mapThreads_s (g : Group) (f : Nat → Thread → Thread) : (g.mapThreads f).s = g.s := rfl
@[simp] theorem Group.mapThreads_h (g : Group) (f : Nat → Thread → Thread) : (g.mapThreads f).h = g.h := rfl
@[simp] theorem Group.mapThreads_cb (g : Group) (f : Nat → Thread → Thread) : (g.mapThreads f).cb = g.cb := rfl
@[simp] theorem Group.mapThreads_sb (g : Group) (f : Nat → Thread → Thread) : (g.mapThreads f).sb = g.sb := rfl
@[simp] theorem Group.mapThreads_part (g : Group) (f : Nat → Thread → Thread) : (g.mapThreads f).part = g.part := rfl
@[simp] theorem Group.mapThreads_fpart (g : Group) (f : Nat → Thread → Thread) : (g.mapThreads f).fpart = g.fpart := rfl
@[simp] theorem Group.mapThreads_cause (g : Group) (f : Nat → Thread → Thread) : (g.mapThreads f).cause = g.cause := rfl
@[simp] theorem Group.mapThreads_handler (g : Group) (f : Nat → Thread → Thread) : (g.mapThreads f).handler = g.handler := rfl
@[simp] theorem Group.mapThreads_double (g : Group) (f : Nat → Thread → Thread) : (g.mapThreads f).double = g.double := rfl
@[simp] theorem Group.mapThreads_epc (g : Group) (f : Nat → Thread → Thread) : (g.mapThreads f).epc = g.epc := rfl
@[simp] theorem Group.mapThreads_tmask (g : Group) (f : Nat → Thread → Thread) : (g.mapThreads f).tmask = g.tmask := rfl
@[simp] theorem Group.mapThreads_tinfo (g : Group) (f : Nat → Thread → Thread) : (g.mapThreads f).tinfo = g.tinfo := rfl
@[simp] theorem Group.mapThreads_tvec (g : Group) (f : Nat → Thread → Thread) : (g.mapThreads f).tvec = g.tvec := rfl
@[simp] theorem Group.mapThreads_mxinfo (g : Group) (f : Nat → Thread → Thread) : (g.mapThreads f).mxinfo = g.mxinfo := rfl
@[simp] theorem Group.mapThreads_fflags (g : Group) (f : Nat → Thread → Thread) : (g.mapThreads f).fflags = g.fflags := rfl
@[simp] theorem Group.mapThreads_heldLog (g : Group) (f : Nat → Thread → Thread) : (g.mapThreads f).heldLog = g.heldLog := rfl
@[simp] theorem Group.mapThreads_relog (g : Group) (f : Nat → Thread → Thread) : (g.mapThreads f).relog = g.relog := rfl
@[simp] theorem Group.mapThreads_logOut (g : Group) (f : Nat → Thread → Thread) : (g.mapThreads f).logOut = g.logOut := rfl
@[simp] theorem Group.mapThreads_marks (g : Group) (f : Nat → Thread → Thread) : (g.mapThreads f).marks = g.marks := rfl
@[simp] theorem Group.mapThreads_soft (g : Group) (f : Nat → Thread → Thread) : (g.mapThreads f).soft = g.soft := rfl
@[simp] theorem Group.mapThreads_inflight (g : Group) (f : Nat → Thread → Thread) : (g.mapThreads f).inflight = g.inflight := rfl
@[simp] theorem Group.mapThreads_lastIssue (g : Group) (f : Nat → Thread → Thread) : (g.mapThreads f).lastIssue = g.lastIssue := rfl
@[simp] theorem Group.mapThreads_gacc (g : Group) (f : Nat → Thread → Thread) : (g.mapThreads f).gacc = g.gacc := rfl
@[simp] theorem Group.mapThreads_gat (g : Group) (f : Nat → Thread → Thread) : (g.mapThreads f).gat = g.gat := rfl
@[simp] theorem Group.mapThreads_stopped (g : Group) (f : Nat → Thread → Thread) : (g.mapThreads f).stopped = g.stopped := rfl
@[simp] theorem Group.mapThreads_skid (g : Group) (f : Nat → Thread → Thread) : (g.mapThreads f).skid = g.skid := rfl
@[simp] theorem Group.mapThreads_tripped (g : Group) (f : Nat → Thread → Thread) : (g.mapThreads f).tripped = g.tripped := rfl
@[simp] theorem Group.mapThreads_wait (g : Group) (f : Nat → Thread → Thread) : (g.mapThreads f).wait = g.wait := rfl
@[simp] theorem Group.mapThreads_issuedAs (g : Group) (f : Nat → Thread → Thread) : (g.mapThreads f).issuedAs = g.issuedAs := rfl
@[simp] theorem Group.mapThreads_pairCede (g : Group) (f : Nat → Thread → Thread) : (g.mapThreads f).pairCede = g.pairCede := rfl
@[simp] theorem Group.mapThreads_pts (g : Group) (f : Nat → Thread → Thread) : (g.mapThreads f).pts = g.pts := rfl
@[simp] theorem Group.mapThreads_lmax (g : Group) (f : Nat → Thread → Thread) : (g.mapThreads f).lmax = g.lmax := rfl
@[simp] theorem Group.mapThreads_ah (g : Group) (f : Nat → Thread → Thread) : (g.mapThreads f).ah = g.ah := rfl
@[simp] theorem Group.mapThreads_racq (g : Group) (f : Nat → Thread → Thread) : (g.mapThreads f).racq = g.racq := rfl
@[simp] theorem Group.mapThreads_winEnd (g : Group) (f : Nat → Thread → Thread) : (g.mapThreads f).winEnd = g.winEnd := rfl
@[simp] theorem Group.mapThreads_winLoad (g : Group) (f : Nat → Thread → Thread) : (g.mapThreads f).winLoad = g.winLoad := rfl
@[simp] theorem Group.mapThreads_seq (g : Group) (f : Nat → Thread → Thread) : (g.mapThreads f).seq = g.seq := rfl
@[simp] theorem Group.mapThreads_pends (g : Group) (f : Nat → Thread → Thread) : (g.mapThreads f).pends = g.pends := rfl
@[simp] theorem Group.mapThreads_loads (g : Group) (f : Nat → Thread → Thread) : (g.mapThreads f).loads = g.loads := rfl
@[simp] theorem Group.mapThreads_reports (g : Group) (f : Nat → Thread → Thread) : (g.mapThreads f).reports = g.reports := rfl
@[simp] theorem Group.mapThreads_sbuf (g : Group) (f : Nat → Thread → Thread) : (g.mapThreads f).sbuf = g.sbuf := rfl
@[simp] theorem Group.mapThreads_fly (g : Group) (f : Nat → Thread → Thread) : (g.mapThreads f).fly = g.fly := rfl
@[simp] theorem Group.mapThreads_cluOut (g : Group) (f : Nat → Thread → Thread) : (g.mapThreads f).cluOut = g.cluOut := rfl
@[simp] theorem Group.mapThreads_rels (g : Group) (f : Nat → Thread → Thread) : (g.mapThreads f).rels = g.rels := rfl
@[simp] theorem Group.mapThreads_pdirty (g : Group) (f : Nat → Thread → Thread) : (g.mapThreads f).pdirty = g.pdirty := rfl
@[simp] theorem Group.mapThreads_pleaf (g : Group) (f : Nat → Thread → Thread) : (g.mapThreads f).pleaf = g.pleaf := rfl
@[simp] theorem Group.mapThreads_signalAt (g : Group) (f : Nat → Thread → Thread) : (g.mapThreads f).signalAt = g.signalAt := rfl
@[simp] theorem Group.mapThreads_acqr (g : Group) (f : Nat → Thread → Thread) : (g.mapThreads f).acqr = g.acqr := rfl
@[simp] theorem Group.mapThreads_mxpend (g : Group) (f : Nat → Thread → Thread) : (g.mapThreads f).mxpend = g.mxpend := rfl
@[simp] theorem Group.mapThreads_leave (g : Group) (f : Nat → Thread → Thread) : (g.mapThreads f).leave = g.leave := rfl
@[simp] theorem Group.mapThreads_ps (g : Group) (f : Nat → Thread → Thread) : (g.mapThreads f).ps = g.ps := rfl
@[simp] theorem Group.mapThreads_queues (g : Group) (f : Nat → Thread → Thread) : (g.mapThreads f).queues = g.queues := rfl
@[simp] theorem Group.mapThreads_slice (g : Group) (f : Nat → Thread → Thread) : (g.mapThreads f).slice = g.slice := rfl
@[simp] theorem Group.mapThreads_spend (g : Group) (f : Nat → Thread → Thread) : (g.mapThreads f).spend = g.spend := rfl
@[simp] theorem Group.mapThreads_acqs (g : Group) (f : Nat → Thread → Thread) : (g.mapThreads f).acqs = g.acqs := rfl
@[simp] theorem Group.mapThreads_begun (g : Group) (f : Nat → Thread → Thread) : (g.mapThreads f).begun = g.begun := rfl
@[simp] theorem Group.mapThreads_clearAt (g : Group) (f : Nat → Thread → Thread) : (g.mapThreads f).clearAt = g.clearAt := rfl
@[simp] theorem Group.mapThreads_zform (g : Group) (f : Nat → Thread → Thread) : (g.mapThreads f).zform = g.zform := rfl
@[simp] theorem Group.mapThreads_formRead (g : Group) (f : Nat → Thread → Thread) : (g.mapThreads f).formRead = g.formRead := rfl
@[simp] theorem Group.mapThreads_sysc (g : Group) (f : Nat → Thread → Thread) : (g.mapThreads f).sysc = g.sysc := rfl
@[simp] theorem Group.mapThreads_evUntil (g : Group) (f : Nat → Thread → Thread) : (g.mapThreads f).evUntil = g.evUntil := rfl
@[simp] theorem Group.mapThreads_facq (g : Group) (f : Nat → Thread → Thread) : (g.mapThreads f).facq = g.facq := rfl
@[simp] theorem Group.mapThreads_launched (g : Group) (f : Nat → Thread → Thread) : (g.mapThreads f).launched = g.launched := rfl

/-! ## `Group.setS` -/

@[simp] theorem Group.setS_team (g : Group) (n : Nat) (x : W64) : (g.setS n x).team = g.team := rfl
@[simp] theorem Group.setS_gidx (g : Group) (n : Nat) (x : W64) : (g.setS n x).gidx = g.gidx := rfl
@[simp] theorem Group.setS_quad (g : Group) (n : Nat) (x : W64) : (g.setS n x).quad = g.quad := rfl
@[simp] theorem Group.setS_slot (g : Group) (n : Nat) (x : W64) : (g.setS n x).slot = g.slot := rfl
@[simp] theorem Group.setS_readyAt (g : Group) (n : Nat) (x : W64) : (g.setS n x).readyAt = g.readyAt := rfl
@[simp] theorem Group.setS_regs (g : Group) (n : Nat) (x : W64) : (g.setS n x).regs = g.regs := rfl
@[simp] theorem Group.setS_threads (g : Group) (n : Nat) (x : W64) : (g.setS n x).threads = g.threads := rfl
@[simp] theorem Group.setS_s (g : Group) (n : Nat) (x : W64) : (g.setS n x).s = rput 0 g.s n x := rfl
@[simp] theorem Group.setS_h (g : Group) (n : Nat) (x : W64) : (g.setS n x).h = g.h := rfl
@[simp] theorem Group.setS_cb (g : Group) (n : Nat) (x : W64) : (g.setS n x).cb = g.cb := rfl
@[simp] theorem Group.setS_sb (g : Group) (n : Nat) (x : W64) : (g.setS n x).sb = g.sb := rfl
@[simp] theorem Group.setS_part (g : Group) (n : Nat) (x : W64) : (g.setS n x).part = g.part := rfl
@[simp] theorem Group.setS_fpart (g : Group) (n : Nat) (x : W64) : (g.setS n x).fpart = g.fpart := rfl
@[simp] theorem Group.setS_cause (g : Group) (n : Nat) (x : W64) : (g.setS n x).cause = g.cause := rfl
@[simp] theorem Group.setS_handler (g : Group) (n : Nat) (x : W64) : (g.setS n x).handler = g.handler := rfl
@[simp] theorem Group.setS_double (g : Group) (n : Nat) (x : W64) : (g.setS n x).double = g.double := rfl
@[simp] theorem Group.setS_epc (g : Group) (n : Nat) (x : W64) : (g.setS n x).epc = g.epc := rfl
@[simp] theorem Group.setS_tmask (g : Group) (n : Nat) (x : W64) : (g.setS n x).tmask = g.tmask := rfl
@[simp] theorem Group.setS_tinfo (g : Group) (n : Nat) (x : W64) : (g.setS n x).tinfo = g.tinfo := rfl
@[simp] theorem Group.setS_tvec (g : Group) (n : Nat) (x : W64) : (g.setS n x).tvec = g.tvec := rfl
@[simp] theorem Group.setS_mxinfo (g : Group) (n : Nat) (x : W64) : (g.setS n x).mxinfo = g.mxinfo := rfl
@[simp] theorem Group.setS_fflags (g : Group) (n : Nat) (x : W64) : (g.setS n x).fflags = g.fflags := rfl
@[simp] theorem Group.setS_heldLog (g : Group) (n : Nat) (x : W64) : (g.setS n x).heldLog = g.heldLog := rfl
@[simp] theorem Group.setS_relog (g : Group) (n : Nat) (x : W64) : (g.setS n x).relog = g.relog := rfl
@[simp] theorem Group.setS_logOut (g : Group) (n : Nat) (x : W64) : (g.setS n x).logOut = g.logOut := rfl
@[simp] theorem Group.setS_marks (g : Group) (n : Nat) (x : W64) : (g.setS n x).marks = g.marks := rfl
@[simp] theorem Group.setS_soft (g : Group) (n : Nat) (x : W64) : (g.setS n x).soft = g.soft := rfl
@[simp] theorem Group.setS_inflight (g : Group) (n : Nat) (x : W64) : (g.setS n x).inflight = g.inflight := rfl
@[simp] theorem Group.setS_lastIssue (g : Group) (n : Nat) (x : W64) : (g.setS n x).lastIssue = g.lastIssue := rfl
@[simp] theorem Group.setS_gacc (g : Group) (n : Nat) (x : W64) : (g.setS n x).gacc = g.gacc := rfl
@[simp] theorem Group.setS_gat (g : Group) (n : Nat) (x : W64) : (g.setS n x).gat = g.gat := rfl
@[simp] theorem Group.setS_stopped (g : Group) (n : Nat) (x : W64) : (g.setS n x).stopped = g.stopped := rfl
@[simp] theorem Group.setS_skid (g : Group) (n : Nat) (x : W64) : (g.setS n x).skid = g.skid := rfl
@[simp] theorem Group.setS_tripped (g : Group) (n : Nat) (x : W64) : (g.setS n x).tripped = g.tripped := rfl
@[simp] theorem Group.setS_wait (g : Group) (n : Nat) (x : W64) : (g.setS n x).wait = g.wait := rfl
@[simp] theorem Group.setS_issuedAs (g : Group) (n : Nat) (x : W64) : (g.setS n x).issuedAs = g.issuedAs := rfl
@[simp] theorem Group.setS_pairCede (g : Group) (n : Nat) (x : W64) : (g.setS n x).pairCede = g.pairCede := rfl
@[simp] theorem Group.setS_pts (g : Group) (n : Nat) (x : W64) : (g.setS n x).pts = g.pts := rfl
@[simp] theorem Group.setS_lmax (g : Group) (n : Nat) (x : W64) : (g.setS n x).lmax = g.lmax := rfl
@[simp] theorem Group.setS_ah (g : Group) (n : Nat) (x : W64) : (g.setS n x).ah = g.ah := rfl
@[simp] theorem Group.setS_racq (g : Group) (n : Nat) (x : W64) : (g.setS n x).racq = g.racq := rfl
@[simp] theorem Group.setS_winEnd (g : Group) (n : Nat) (x : W64) : (g.setS n x).winEnd = g.winEnd := rfl
@[simp] theorem Group.setS_winLoad (g : Group) (n : Nat) (x : W64) : (g.setS n x).winLoad = g.winLoad := rfl
@[simp] theorem Group.setS_seq (g : Group) (n : Nat) (x : W64) : (g.setS n x).seq = g.seq := rfl
@[simp] theorem Group.setS_pends (g : Group) (n : Nat) (x : W64) : (g.setS n x).pends = g.pends := rfl
@[simp] theorem Group.setS_loads (g : Group) (n : Nat) (x : W64) : (g.setS n x).loads = g.loads := rfl
@[simp] theorem Group.setS_reports (g : Group) (n : Nat) (x : W64) : (g.setS n x).reports = g.reports := rfl
@[simp] theorem Group.setS_sbuf (g : Group) (n : Nat) (x : W64) : (g.setS n x).sbuf = g.sbuf := rfl
@[simp] theorem Group.setS_fly (g : Group) (n : Nat) (x : W64) : (g.setS n x).fly = g.fly := rfl
@[simp] theorem Group.setS_cluOut (g : Group) (n : Nat) (x : W64) : (g.setS n x).cluOut = g.cluOut := rfl
@[simp] theorem Group.setS_rels (g : Group) (n : Nat) (x : W64) : (g.setS n x).rels = g.rels := rfl
@[simp] theorem Group.setS_pdirty (g : Group) (n : Nat) (x : W64) : (g.setS n x).pdirty = g.pdirty := rfl
@[simp] theorem Group.setS_pleaf (g : Group) (n : Nat) (x : W64) : (g.setS n x).pleaf = g.pleaf := rfl
@[simp] theorem Group.setS_signalAt (g : Group) (n : Nat) (x : W64) : (g.setS n x).signalAt = g.signalAt := rfl
@[simp] theorem Group.setS_acqr (g : Group) (n : Nat) (x : W64) : (g.setS n x).acqr = g.acqr := rfl
@[simp] theorem Group.setS_mxpend (g : Group) (n : Nat) (x : W64) : (g.setS n x).mxpend = g.mxpend := rfl
@[simp] theorem Group.setS_leave (g : Group) (n : Nat) (x : W64) : (g.setS n x).leave = g.leave := rfl
@[simp] theorem Group.setS_ps (g : Group) (n : Nat) (x : W64) : (g.setS n x).ps = g.ps := rfl
@[simp] theorem Group.setS_queues (g : Group) (n : Nat) (x : W64) : (g.setS n x).queues = g.queues := rfl
@[simp] theorem Group.setS_slice (g : Group) (n : Nat) (x : W64) : (g.setS n x).slice = g.slice := rfl
@[simp] theorem Group.setS_spend (g : Group) (n : Nat) (x : W64) : (g.setS n x).spend = g.spend := rfl
@[simp] theorem Group.setS_acqs (g : Group) (n : Nat) (x : W64) : (g.setS n x).acqs = g.acqs := rfl
@[simp] theorem Group.setS_begun (g : Group) (n : Nat) (x : W64) : (g.setS n x).begun = g.begun := rfl
@[simp] theorem Group.setS_clearAt (g : Group) (n : Nat) (x : W64) : (g.setS n x).clearAt = g.clearAt := rfl
@[simp] theorem Group.setS_zform (g : Group) (n : Nat) (x : W64) : (g.setS n x).zform = g.zform := rfl
@[simp] theorem Group.setS_formRead (g : Group) (n : Nat) (x : W64) : (g.setS n x).formRead = g.formRead := rfl
@[simp] theorem Group.setS_sysc (g : Group) (n : Nat) (x : W64) : (g.setS n x).sysc = g.sysc := rfl
@[simp] theorem Group.setS_evUntil (g : Group) (n : Nat) (x : W64) : (g.setS n x).evUntil = g.evUntil := rfl
@[simp] theorem Group.setS_facq (g : Group) (n : Nat) (x : W64) : (g.setS n x).facq = g.facq := rfl
@[simp] theorem Group.setS_launched (g : Group) (n : Nat) (x : W64) : (g.setS n x).launched = g.launched := rfl

/-! ## `Group.setH` -/

@[simp] theorem Group.setH_team (g : Group) (n : Nat) (x : W64) : (g.setH n x).team = g.team := rfl
@[simp] theorem Group.setH_gidx (g : Group) (n : Nat) (x : W64) : (g.setH n x).gidx = g.gidx := rfl
@[simp] theorem Group.setH_quad (g : Group) (n : Nat) (x : W64) : (g.setH n x).quad = g.quad := rfl
@[simp] theorem Group.setH_slot (g : Group) (n : Nat) (x : W64) : (g.setH n x).slot = g.slot := rfl
@[simp] theorem Group.setH_readyAt (g : Group) (n : Nat) (x : W64) : (g.setH n x).readyAt = g.readyAt := rfl
@[simp] theorem Group.setH_regs (g : Group) (n : Nat) (x : W64) : (g.setH n x).regs = g.regs := rfl
@[simp] theorem Group.setH_threads (g : Group) (n : Nat) (x : W64) : (g.setH n x).threads = g.threads := rfl
@[simp] theorem Group.setH_s (g : Group) (n : Nat) (x : W64) : (g.setH n x).s = g.s := rfl
@[simp] theorem Group.setH_h (g : Group) (n : Nat) (x : W64) : (g.setH n x).h = rput 0 g.h n x := rfl
@[simp] theorem Group.setH_cb (g : Group) (n : Nat) (x : W64) : (g.setH n x).cb = g.cb := rfl
@[simp] theorem Group.setH_sb (g : Group) (n : Nat) (x : W64) : (g.setH n x).sb = g.sb := rfl
@[simp] theorem Group.setH_part (g : Group) (n : Nat) (x : W64) : (g.setH n x).part = g.part := rfl
@[simp] theorem Group.setH_fpart (g : Group) (n : Nat) (x : W64) : (g.setH n x).fpart = g.fpart := rfl
@[simp] theorem Group.setH_cause (g : Group) (n : Nat) (x : W64) : (g.setH n x).cause = g.cause := rfl
@[simp] theorem Group.setH_handler (g : Group) (n : Nat) (x : W64) : (g.setH n x).handler = g.handler := rfl
@[simp] theorem Group.setH_double (g : Group) (n : Nat) (x : W64) : (g.setH n x).double = g.double := rfl
@[simp] theorem Group.setH_epc (g : Group) (n : Nat) (x : W64) : (g.setH n x).epc = g.epc := rfl
@[simp] theorem Group.setH_tmask (g : Group) (n : Nat) (x : W64) : (g.setH n x).tmask = g.tmask := rfl
@[simp] theorem Group.setH_tinfo (g : Group) (n : Nat) (x : W64) : (g.setH n x).tinfo = g.tinfo := rfl
@[simp] theorem Group.setH_tvec (g : Group) (n : Nat) (x : W64) : (g.setH n x).tvec = g.tvec := rfl
@[simp] theorem Group.setH_mxinfo (g : Group) (n : Nat) (x : W64) : (g.setH n x).mxinfo = g.mxinfo := rfl
@[simp] theorem Group.setH_fflags (g : Group) (n : Nat) (x : W64) : (g.setH n x).fflags = g.fflags := rfl
@[simp] theorem Group.setH_heldLog (g : Group) (n : Nat) (x : W64) : (g.setH n x).heldLog = g.heldLog := rfl
@[simp] theorem Group.setH_relog (g : Group) (n : Nat) (x : W64) : (g.setH n x).relog = g.relog := rfl
@[simp] theorem Group.setH_logOut (g : Group) (n : Nat) (x : W64) : (g.setH n x).logOut = g.logOut := rfl
@[simp] theorem Group.setH_marks (g : Group) (n : Nat) (x : W64) : (g.setH n x).marks = g.marks := rfl
@[simp] theorem Group.setH_soft (g : Group) (n : Nat) (x : W64) : (g.setH n x).soft = g.soft := rfl
@[simp] theorem Group.setH_inflight (g : Group) (n : Nat) (x : W64) : (g.setH n x).inflight = g.inflight := rfl
@[simp] theorem Group.setH_lastIssue (g : Group) (n : Nat) (x : W64) : (g.setH n x).lastIssue = g.lastIssue := rfl
@[simp] theorem Group.setH_gacc (g : Group) (n : Nat) (x : W64) : (g.setH n x).gacc = g.gacc := rfl
@[simp] theorem Group.setH_gat (g : Group) (n : Nat) (x : W64) : (g.setH n x).gat = g.gat := rfl
@[simp] theorem Group.setH_stopped (g : Group) (n : Nat) (x : W64) : (g.setH n x).stopped = g.stopped := rfl
@[simp] theorem Group.setH_skid (g : Group) (n : Nat) (x : W64) : (g.setH n x).skid = g.skid := rfl
@[simp] theorem Group.setH_tripped (g : Group) (n : Nat) (x : W64) : (g.setH n x).tripped = g.tripped := rfl
@[simp] theorem Group.setH_wait (g : Group) (n : Nat) (x : W64) : (g.setH n x).wait = g.wait := rfl
@[simp] theorem Group.setH_issuedAs (g : Group) (n : Nat) (x : W64) : (g.setH n x).issuedAs = g.issuedAs := rfl
@[simp] theorem Group.setH_pairCede (g : Group) (n : Nat) (x : W64) : (g.setH n x).pairCede = g.pairCede := rfl
@[simp] theorem Group.setH_pts (g : Group) (n : Nat) (x : W64) : (g.setH n x).pts = g.pts := rfl
@[simp] theorem Group.setH_lmax (g : Group) (n : Nat) (x : W64) : (g.setH n x).lmax = g.lmax := rfl
@[simp] theorem Group.setH_ah (g : Group) (n : Nat) (x : W64) : (g.setH n x).ah = g.ah := rfl
@[simp] theorem Group.setH_racq (g : Group) (n : Nat) (x : W64) : (g.setH n x).racq = g.racq := rfl
@[simp] theorem Group.setH_winEnd (g : Group) (n : Nat) (x : W64) : (g.setH n x).winEnd = g.winEnd := rfl
@[simp] theorem Group.setH_winLoad (g : Group) (n : Nat) (x : W64) : (g.setH n x).winLoad = g.winLoad := rfl
@[simp] theorem Group.setH_seq (g : Group) (n : Nat) (x : W64) : (g.setH n x).seq = g.seq := rfl
@[simp] theorem Group.setH_pends (g : Group) (n : Nat) (x : W64) : (g.setH n x).pends = g.pends := rfl
@[simp] theorem Group.setH_loads (g : Group) (n : Nat) (x : W64) : (g.setH n x).loads = g.loads := rfl
@[simp] theorem Group.setH_reports (g : Group) (n : Nat) (x : W64) : (g.setH n x).reports = g.reports := rfl
@[simp] theorem Group.setH_sbuf (g : Group) (n : Nat) (x : W64) : (g.setH n x).sbuf = g.sbuf := rfl
@[simp] theorem Group.setH_fly (g : Group) (n : Nat) (x : W64) : (g.setH n x).fly = g.fly := rfl
@[simp] theorem Group.setH_cluOut (g : Group) (n : Nat) (x : W64) : (g.setH n x).cluOut = g.cluOut := rfl
@[simp] theorem Group.setH_rels (g : Group) (n : Nat) (x : W64) : (g.setH n x).rels = g.rels := rfl
@[simp] theorem Group.setH_pdirty (g : Group) (n : Nat) (x : W64) : (g.setH n x).pdirty = g.pdirty := rfl
@[simp] theorem Group.setH_pleaf (g : Group) (n : Nat) (x : W64) : (g.setH n x).pleaf = g.pleaf := rfl
@[simp] theorem Group.setH_signalAt (g : Group) (n : Nat) (x : W64) : (g.setH n x).signalAt = g.signalAt := rfl
@[simp] theorem Group.setH_acqr (g : Group) (n : Nat) (x : W64) : (g.setH n x).acqr = g.acqr := rfl
@[simp] theorem Group.setH_mxpend (g : Group) (n : Nat) (x : W64) : (g.setH n x).mxpend = g.mxpend := rfl
@[simp] theorem Group.setH_leave (g : Group) (n : Nat) (x : W64) : (g.setH n x).leave = g.leave := rfl
@[simp] theorem Group.setH_ps (g : Group) (n : Nat) (x : W64) : (g.setH n x).ps = g.ps := rfl
@[simp] theorem Group.setH_queues (g : Group) (n : Nat) (x : W64) : (g.setH n x).queues = g.queues := rfl
@[simp] theorem Group.setH_slice (g : Group) (n : Nat) (x : W64) : (g.setH n x).slice = g.slice := rfl
@[simp] theorem Group.setH_spend (g : Group) (n : Nat) (x : W64) : (g.setH n x).spend = g.spend := rfl
@[simp] theorem Group.setH_acqs (g : Group) (n : Nat) (x : W64) : (g.setH n x).acqs = g.acqs := rfl
@[simp] theorem Group.setH_begun (g : Group) (n : Nat) (x : W64) : (g.setH n x).begun = g.begun := rfl
@[simp] theorem Group.setH_clearAt (g : Group) (n : Nat) (x : W64) : (g.setH n x).clearAt = g.clearAt := rfl
@[simp] theorem Group.setH_zform (g : Group) (n : Nat) (x : W64) : (g.setH n x).zform = g.zform := rfl
@[simp] theorem Group.setH_formRead (g : Group) (n : Nat) (x : W64) : (g.setH n x).formRead = g.formRead := rfl
@[simp] theorem Group.setH_sysc (g : Group) (n : Nat) (x : W64) : (g.setH n x).sysc = g.sysc := rfl
@[simp] theorem Group.setH_evUntil (g : Group) (n : Nat) (x : W64) : (g.setH n x).evUntil = g.evUntil := rfl
@[simp] theorem Group.setH_facq (g : Group) (n : Nat) (x : W64) : (g.setH n x).facq = g.facq := rfl
@[simp] theorem Group.setH_launched (g : Group) (n : Nat) (x : W64) : (g.setH n x).launched = g.launched := rfl

/-! ## `Group.setCb` -/

@[simp] theorem Group.setCb_team (g : Group) (n : Nat) (x : W32) : (g.setCb n x).team = g.team := rfl
@[simp] theorem Group.setCb_gidx (g : Group) (n : Nat) (x : W32) : (g.setCb n x).gidx = g.gidx := rfl
@[simp] theorem Group.setCb_quad (g : Group) (n : Nat) (x : W32) : (g.setCb n x).quad = g.quad := rfl
@[simp] theorem Group.setCb_slot (g : Group) (n : Nat) (x : W32) : (g.setCb n x).slot = g.slot := rfl
@[simp] theorem Group.setCb_readyAt (g : Group) (n : Nat) (x : W32) : (g.setCb n x).readyAt = g.readyAt := rfl
@[simp] theorem Group.setCb_regs (g : Group) (n : Nat) (x : W32) : (g.setCb n x).regs = g.regs := rfl
@[simp] theorem Group.setCb_threads (g : Group) (n : Nat) (x : W32) : (g.setCb n x).threads = g.threads := rfl
@[simp] theorem Group.setCb_s (g : Group) (n : Nat) (x : W32) : (g.setCb n x).s = g.s := rfl
@[simp] theorem Group.setCb_h (g : Group) (n : Nat) (x : W32) : (g.setCb n x).h = g.h := rfl
@[simp] theorem Group.setCb_cb (g : Group) (n : Nat) (x : W32) : (g.setCb n x).cb = rput 0 g.cb n x := rfl
@[simp] theorem Group.setCb_sb (g : Group) (n : Nat) (x : W32) : (g.setCb n x).sb = g.sb := rfl
@[simp] theorem Group.setCb_part (g : Group) (n : Nat) (x : W32) : (g.setCb n x).part = g.part := rfl
@[simp] theorem Group.setCb_fpart (g : Group) (n : Nat) (x : W32) : (g.setCb n x).fpart = g.fpart := rfl
@[simp] theorem Group.setCb_cause (g : Group) (n : Nat) (x : W32) : (g.setCb n x).cause = g.cause := rfl
@[simp] theorem Group.setCb_handler (g : Group) (n : Nat) (x : W32) : (g.setCb n x).handler = g.handler := rfl
@[simp] theorem Group.setCb_double (g : Group) (n : Nat) (x : W32) : (g.setCb n x).double = g.double := rfl
@[simp] theorem Group.setCb_epc (g : Group) (n : Nat) (x : W32) : (g.setCb n x).epc = g.epc := rfl
@[simp] theorem Group.setCb_tmask (g : Group) (n : Nat) (x : W32) : (g.setCb n x).tmask = g.tmask := rfl
@[simp] theorem Group.setCb_tinfo (g : Group) (n : Nat) (x : W32) : (g.setCb n x).tinfo = g.tinfo := rfl
@[simp] theorem Group.setCb_tvec (g : Group) (n : Nat) (x : W32) : (g.setCb n x).tvec = g.tvec := rfl
@[simp] theorem Group.setCb_mxinfo (g : Group) (n : Nat) (x : W32) : (g.setCb n x).mxinfo = g.mxinfo := rfl
@[simp] theorem Group.setCb_fflags (g : Group) (n : Nat) (x : W32) : (g.setCb n x).fflags = g.fflags := rfl
@[simp] theorem Group.setCb_heldLog (g : Group) (n : Nat) (x : W32) : (g.setCb n x).heldLog = g.heldLog := rfl
@[simp] theorem Group.setCb_relog (g : Group) (n : Nat) (x : W32) : (g.setCb n x).relog = g.relog := rfl
@[simp] theorem Group.setCb_logOut (g : Group) (n : Nat) (x : W32) : (g.setCb n x).logOut = g.logOut := rfl
@[simp] theorem Group.setCb_marks (g : Group) (n : Nat) (x : W32) : (g.setCb n x).marks = g.marks := rfl
@[simp] theorem Group.setCb_soft (g : Group) (n : Nat) (x : W32) : (g.setCb n x).soft = g.soft := rfl
@[simp] theorem Group.setCb_inflight (g : Group) (n : Nat) (x : W32) : (g.setCb n x).inflight = g.inflight := rfl
@[simp] theorem Group.setCb_lastIssue (g : Group) (n : Nat) (x : W32) : (g.setCb n x).lastIssue = g.lastIssue := rfl
@[simp] theorem Group.setCb_gacc (g : Group) (n : Nat) (x : W32) : (g.setCb n x).gacc = g.gacc := rfl
@[simp] theorem Group.setCb_gat (g : Group) (n : Nat) (x : W32) : (g.setCb n x).gat = g.gat := rfl
@[simp] theorem Group.setCb_stopped (g : Group) (n : Nat) (x : W32) : (g.setCb n x).stopped = g.stopped := rfl
@[simp] theorem Group.setCb_skid (g : Group) (n : Nat) (x : W32) : (g.setCb n x).skid = g.skid := rfl
@[simp] theorem Group.setCb_tripped (g : Group) (n : Nat) (x : W32) : (g.setCb n x).tripped = g.tripped := rfl
@[simp] theorem Group.setCb_wait (g : Group) (n : Nat) (x : W32) : (g.setCb n x).wait = g.wait := rfl
@[simp] theorem Group.setCb_issuedAs (g : Group) (n : Nat) (x : W32) : (g.setCb n x).issuedAs = g.issuedAs := rfl
@[simp] theorem Group.setCb_pairCede (g : Group) (n : Nat) (x : W32) : (g.setCb n x).pairCede = g.pairCede := rfl
@[simp] theorem Group.setCb_pts (g : Group) (n : Nat) (x : W32) : (g.setCb n x).pts = g.pts := rfl
@[simp] theorem Group.setCb_lmax (g : Group) (n : Nat) (x : W32) : (g.setCb n x).lmax = g.lmax := rfl
@[simp] theorem Group.setCb_ah (g : Group) (n : Nat) (x : W32) : (g.setCb n x).ah = g.ah := rfl
@[simp] theorem Group.setCb_racq (g : Group) (n : Nat) (x : W32) : (g.setCb n x).racq = g.racq := rfl
@[simp] theorem Group.setCb_winEnd (g : Group) (n : Nat) (x : W32) : (g.setCb n x).winEnd = g.winEnd := rfl
@[simp] theorem Group.setCb_winLoad (g : Group) (n : Nat) (x : W32) : (g.setCb n x).winLoad = g.winLoad := rfl
@[simp] theorem Group.setCb_seq (g : Group) (n : Nat) (x : W32) : (g.setCb n x).seq = g.seq := rfl
@[simp] theorem Group.setCb_pends (g : Group) (n : Nat) (x : W32) : (g.setCb n x).pends = g.pends := rfl
@[simp] theorem Group.setCb_loads (g : Group) (n : Nat) (x : W32) : (g.setCb n x).loads = g.loads := rfl
@[simp] theorem Group.setCb_reports (g : Group) (n : Nat) (x : W32) : (g.setCb n x).reports = g.reports := rfl
@[simp] theorem Group.setCb_sbuf (g : Group) (n : Nat) (x : W32) : (g.setCb n x).sbuf = g.sbuf := rfl
@[simp] theorem Group.setCb_fly (g : Group) (n : Nat) (x : W32) : (g.setCb n x).fly = g.fly := rfl
@[simp] theorem Group.setCb_cluOut (g : Group) (n : Nat) (x : W32) : (g.setCb n x).cluOut = g.cluOut := rfl
@[simp] theorem Group.setCb_rels (g : Group) (n : Nat) (x : W32) : (g.setCb n x).rels = g.rels := rfl
@[simp] theorem Group.setCb_pdirty (g : Group) (n : Nat) (x : W32) : (g.setCb n x).pdirty = g.pdirty := rfl
@[simp] theorem Group.setCb_pleaf (g : Group) (n : Nat) (x : W32) : (g.setCb n x).pleaf = g.pleaf := rfl
@[simp] theorem Group.setCb_signalAt (g : Group) (n : Nat) (x : W32) : (g.setCb n x).signalAt = g.signalAt := rfl
@[simp] theorem Group.setCb_acqr (g : Group) (n : Nat) (x : W32) : (g.setCb n x).acqr = g.acqr := rfl
@[simp] theorem Group.setCb_mxpend (g : Group) (n : Nat) (x : W32) : (g.setCb n x).mxpend = g.mxpend := rfl
@[simp] theorem Group.setCb_leave (g : Group) (n : Nat) (x : W32) : (g.setCb n x).leave = g.leave := rfl
@[simp] theorem Group.setCb_ps (g : Group) (n : Nat) (x : W32) : (g.setCb n x).ps = g.ps := rfl
@[simp] theorem Group.setCb_queues (g : Group) (n : Nat) (x : W32) : (g.setCb n x).queues = g.queues := rfl
@[simp] theorem Group.setCb_slice (g : Group) (n : Nat) (x : W32) : (g.setCb n x).slice = g.slice := rfl
@[simp] theorem Group.setCb_spend (g : Group) (n : Nat) (x : W32) : (g.setCb n x).spend = g.spend := rfl
@[simp] theorem Group.setCb_acqs (g : Group) (n : Nat) (x : W32) : (g.setCb n x).acqs = g.acqs := rfl
@[simp] theorem Group.setCb_begun (g : Group) (n : Nat) (x : W32) : (g.setCb n x).begun = g.begun := rfl
@[simp] theorem Group.setCb_clearAt (g : Group) (n : Nat) (x : W32) : (g.setCb n x).clearAt = g.clearAt := rfl
@[simp] theorem Group.setCb_zform (g : Group) (n : Nat) (x : W32) : (g.setCb n x).zform = g.zform := rfl
@[simp] theorem Group.setCb_formRead (g : Group) (n : Nat) (x : W32) : (g.setCb n x).formRead = g.formRead := rfl
@[simp] theorem Group.setCb_sysc (g : Group) (n : Nat) (x : W32) : (g.setCb n x).sysc = g.sysc := rfl
@[simp] theorem Group.setCb_evUntil (g : Group) (n : Nat) (x : W32) : (g.setCb n x).evUntil = g.evUntil := rfl
@[simp] theorem Group.setCb_facq (g : Group) (n : Nat) (x : W32) : (g.setCb n x).facq = g.facq := rfl
@[simp] theorem Group.setCb_launched (g : Group) (n : Nat) (x : W32) : (g.setCb n x).launched = g.launched := rfl

end Sys2Proof.Machine
end

