-- ==== Sys2Proof/Laws/Store.lean ====
section
/-!
SUPPORT. Laws of the keyed stores and of byte memory: reading after writing, and that every operation keeps the canonical form.
-/

namespace Sys2Proof

variable {α : Type}

@[simp] theorem look_nil (k : Nat) : look ([] : AList α) k = none := rfl

theorem look_put (l : AList α) (k n : Nat) (a : α) : look (put l k a) n = if n = k then some a else look l n := by
  induction l with
  | nil => simp only [put, look]; split <;> simp_all [eq_comm]
  | cons x l ih =>
    obtain ⟨j, b⟩ := x
    simp only [put]
    split
    · simp only [look]; split <;> simp_all [eq_comm]
    · split
      · simp only [look]; split <;> simp_all [eq_comm]
      · simp only [look, ih]; split
        · subst_vars; split <;> simp_all
        · rfl

@[simp] theorem look_put_same (l : AList α) (k : Nat) (a : α) : look (put l k a) k = some a := by simp [look_put]

theorem look_put_ne (l : AList α) {k n : Nat} (a : α) (h : n ≠ k) : look (put l k a) n = look l n := by simp [look_put, h]

theorem look_del (l : AList α) (k n : Nat) : look (del l k) n = if n = k then none else look l n := by
  induction l with
  | nil => simp [del]
  | cons x l ih =>
    obtain ⟨j, b⟩ := x
    simp only [del, List.filter_cons] at ih ⊢
    by_cases hj : j = k
    · subst hj; simp only [bne_self_eq_false]
      rw [if_neg (by simp), ih]; simp only [look]; split <;> simp_all [eq_comm]
    · have : (j != k) = true := by simp [hj]
      simp only [this, if_true, look, ih]
      split
      · subst_vars; simp [hj]
      · rfl

theorem look_upd (l : AList α) (k n : Nat) (f : α → α) :
    look (upd l k f) n = if n = k then (look l k).map f else look l n := by
  unfold upd
  cases h : look l k with
  | none => by_cases hn : n = k <;> simp_all
  | some a => simp [look_put]

theorem look_mapVals (l : AList α) (f : Nat → α → α) (n : Nat) : look (mapVals l f) n = (look l n).map (f n) := by
  induction l with
  | nil => rfl
  | cons x l ih =>
    obtain ⟨j, b⟩ := x
    simp only [mapVals, List.map_cons, look] at ih ⊢
    split
    · subst_vars; rfl
    · exact ih

theorem rget_rput [DecidableEq α] (d : α) (l : AList α) (k n : Nat) (a : α) : rget d (rput d l k a) n = if n = k then a else rget d l n := by
  unfold rget rput
  split
  · subst_vars; rw [look_del]; split <;> simp
  · rw [look_put]; split <;> simp

@[simp] theorem rget_rput_same [DecidableEq α] (d : α) (l : AList α) (k : Nat) (a : α) : rget d (rput d l k a) k = a := by simp [rget_rput]

theorem rget_rput_ne [DecidableEq α] (d : α) (l : AList α) {k n : Nat} (a : α) (h : n ≠ k) : rget d (rput d l k a) n = rget d l n := by
  simp [rget_rput, h]

/-! ## The canonical form -/

theorem risingKeys_cons (x : Nat × α) (l : AList α) :
    risingKeys (x :: l) = true ↔ (∀ y ∈ l, x.1 < y.1) ∧ risingKeys l = true := by
  induction l generalizing x with
  | nil => simp [risingKeys]
  | cons y l ih =>
    obtain ⟨j, a⟩ := x
    obtain ⟨k, b⟩ := y
    simp only [risingKeys, Bool.and_eq_true, decide_eq_true_eq, List.mem_cons, forall_eq_or_imp]
    constructor
    · rintro ⟨h, r⟩
      exact ⟨⟨h, fun z hz => Nat.lt_trans h (((ih (k, b)).1 r).1 z hz)⟩, r⟩
    · rintro ⟨⟨h, _⟩, r⟩
      exact ⟨h, r⟩

theorem mem_put {l : AList α} {k : Nat} {a : α} {y : Nat × α} (h : y ∈ put l k a) : y = (k, a) ∨ y ∈ l := by
  induction l with
  | nil => simp_all [put]
  | cons x l ih =>
    obtain ⟨j, b⟩ := x
    simp only [put] at h
    split at h
    · simpa using h
    · split at h
      · simp only [List.mem_cons] at h ⊢; tauto
      · simp only [List.mem_cons] at h ⊢
        rcases h with h | h
        · tauto
        · have := ih h; tauto

theorem risingKeys_put (l : AList α) (k : Nat) (a : α) (h : risingKeys l = true) : risingKeys (put l k a) = true := by
  induction l with
  | nil => rfl
  | cons x l ih =>
    obtain ⟨j, b⟩ := x
    rw [risingKeys_cons] at h
    simp only [put]
    split
    · rw [risingKeys_cons, risingKeys_cons]
      refine ⟨?_, h⟩
      intro y hy
      simp only [List.mem_cons] at hy
      rcases hy with rfl | hy
      · assumption
      · exact Nat.lt_trans ‹_› (h.1 y hy)
    · split
      · subst_vars; rw [risingKeys_cons]; exact h
      · rw [risingKeys_cons]
        refine ⟨?_, ih h.2⟩
        intro y hy
        rcases mem_put hy with rfl | hy
        · show j < k; omega
        · exact h.1 y hy

theorem risingKeys_filter (l : AList α) (p : Nat × α → Bool) (h : risingKeys l = true) :
    risingKeys (l.filter p) = true := by
  induction l with
  | nil => rfl
  | cons x l ih =>
    rw [risingKeys_cons] at h
    simp only [List.filter_cons]
    split
    · rw [risingKeys_cons]
      exact ⟨fun y hy => h.1 y (List.mem_of_mem_filter hy), ih h.2⟩
    · exact ih h.2

theorem canonical_rput [DecidableEq α] (d : α) (l : AList α) (k : Nat) (a : α) (h : canonical d l = true) : canonical d (rput d l k a) = true := by
  simp only [canonical, Bool.and_eq_true, List.all_eq_true, decide_eq_true_eq] at h ⊢
  unfold rput
  split
  · exact ⟨risingKeys_filter _ _ h.1, fun x hx => h.2 x (List.mem_of_mem_filter hx)⟩
  · refine ⟨risingKeys_put _ _ _ h.1, fun x hx => ?_⟩
    rcases mem_put hx with rfl | hx
    · assumption
    · exact h.2 x hx

/-- Two canonical arrays that read alike are equal. -/
theorem canonical_ext [DecidableEq α] (d : α) {l r : AList α} (hl : canonical d l = true) (hr : canonical d r = true)
    (h : ∀ k, rget d l k = rget d r k) : l = r := by
  have key : ∀ {l : AList α} {x : Nat × α}, risingKeys (x :: l) = true → ∀ k, k ≤ x.1 → k ≠ x.1 → rget d (x :: l) k = d := by
    intro l x hx k hk hne
    have hx := (risingKeys_cons x l).1 hx
    have : look (x :: l) k = none := by
      obtain ⟨j, b⟩ := x
      simp only [look]
      rw [if_neg (by simpa using Ne.symm hne)]
      have : ∀ (m : AList α), (∀ y ∈ m, k < y.1) → look m k = none := by
        intro m
        induction m with
        | nil => intro _; rfl
        | cons y m ih =>
          intro hm
          obtain ⟨i, c⟩ := y
          simp only [look]
          have := hm (i, c) (by simp)
          rw [if_neg (by simp only at this; omega)]
          exact ih fun z hz => hm z (by simp [hz])
      exact this l fun y hy => Nat.lt_of_le_of_lt hk (hx.1 y hy)
    simp [rget, this]
  induction l generalizing r with
  | nil =>
    cases r with
    | nil => rfl
    | cons y r =>
      exfalso
      simp only [canonical, Bool.and_eq_true, List.all_eq_true, decide_eq_true_eq] at hr
      have := h y.1
      obtain ⟨j, b⟩ := y
      simp only [rget, look, if_true, Option.getD_some, Option.getD_none] at this
      exact hr.2 (j, b) (by simp) this.symm
  | cons x l ih =>
    cases r with
    | nil =>
      exfalso
      simp only [canonical, Bool.and_eq_true, List.all_eq_true, decide_eq_true_eq] at hl
      have := h x.1
      obtain ⟨j, b⟩ := x
      simp only [rget, look, if_true, Option.getD_some, Option.getD_none] at this
      exact hl.2 (j, b) (by simp) this
    | cons y r =>
      have hl' := hl
      have hr' := hr
      simp only [canonical, Bool.and_eq_true, List.all_eq_true, decide_eq_true_eq] at hl hr
      obtain ⟨j, a⟩ := x
      obtain ⟨k, b⟩ := y
      have hjk : j = k := by
        by_contra hne
        rcases Nat.lt_or_gt_of_ne hne with hlt | hlt
        · have h1 := h j
          rw [key hr.1 j (Nat.le_of_lt hlt) (Nat.ne_of_lt hlt)] at h1
          simp only [rget, look, if_true, Option.getD_some] at h1
          exact hl.2 (j, a) (by simp) h1
        · have h1 := h k
          rw [key hl.1 k (Nat.le_of_lt hlt) (Nat.ne_of_lt hlt)] at h1
          simp only [rget, look, if_true, Option.getD_some] at h1
          exact hr.2 (k, b) (by simp) h1.symm
      subst hjk
      have hab : a = b := by have := h j; simpa [rget, look] using this
      subst hab
      congr 1
      have hrl := (risingKeys_cons _ _).1 hl.1
      have hrr := (risingKeys_cons _ _).1 hr.1
      have below : ∀ (m : AList α), (∀ y ∈ m, j < y.1) → ∀ k, k ≤ j → look m k = none := by
        intro m
        induction m with
        | nil => intro _ _ _; rfl
        | cons y m ihm =>
          intro hm k hk
          obtain ⟨i, c⟩ := y
          have := hm (i, c) (by simp)
          simp only [look]
          rw [if_neg (by simp only at this; omega)]
          exact ihm (fun z hz => hm z (by simp [hz])) k hk
      apply ih
      · simp only [canonical, Bool.and_eq_true, List.all_eq_true, decide_eq_true_eq]
        exact ⟨hrl.2, fun z hz => hl.2 z (by simp [hz])⟩
      · simp only [canonical, Bool.and_eq_true, List.all_eq_true, decide_eq_true_eq]
        exact ⟨hrr.2, fun z hz => hr.2 z (by simp [hz])⟩
      · intro k
        by_cases hk : k ≤ j
        · simp [rget, below l hrl.1 k hk, below r hrr.1 k hk]
        · have := h k
          simp only [rget, look] at this
          rw [if_neg (by omega), if_neg (by omega)] at this
          exact this

/-! ## Byte memory -/

theorem Memory.wf_nil : Memory.wf [] = true := rfl

theorem wf_writeByte (m : Memory) (a : Nat) (b : Byte) (h : m.wf = true) : (writeByte m a b).wf = true := canonical_rput 0 m a b h

theorem wf_writeBytes (m : Memory) (a : Nat) (bs : List Byte) (h : m.wf = true) : (writeBytes m a bs).wf = true := by
  induction bs generalizing m a with
  | nil => exact h
  | cons b bs ih => exact ih _ _ (wf_writeByte m a b h)

theorem wf_writeNat (m : Memory) (a n w : Nat) (h : m.wf = true) : (writeNat m a n w).wf = true := wf_writeBytes m a _ h

theorem readByte_writeByte (m : Memory) (a c : Nat) (b : Byte) : readByte (writeByte m a b) c = if c = a then b else readByte m c :=
  rget_rput 0 m a c b

/-- A byte outside the stored run reads as before. -/
theorem readByte_writeBytes_of_out (m : Memory) (a c : Nat) (bs : List Byte) (h : c < a ∨ a + bs.length ≤ c) :
    readByte (writeBytes m a bs) c = readByte m c := by
  induction bs generalizing m a with
  | nil => rfl
  | cons b bs ih =>
    simp only [List.length_cons] at h
    rw [writeBytes, ih _ _ (by omega), readByte_writeByte, if_neg (by omega)]

/-- A byte of the stored run reads as stored. -/
theorem readByte_writeBytes_in (m : Memory) (a : Nat) (bs : List Byte) (k : Nat) (h : k < bs.length) :
    readByte (writeBytes m a bs) (a + k) = bs.getD k 0 := by
  induction bs generalizing m a k with
  | nil => simp at h
  | cons b bs ih =>
    rw [writeBytes]
    cases k with
    | zero => rw [readByte_writeBytes_of_out _ _ _ _ (by omega)]; simp [readByte_writeByte]
    | succ k =>
      have := ih (writeByte m a b) (a + 1) k (by simpa using h)
      rw [show a + (k + 1) = a + 1 + k by omega, this]; simp

theorem readBytes_length (m : Memory) (a n : Nat) : (readBytes m a n).length = n := by
  induction n generalizing a with
  | zero => rfl
  | succ n ih => simp [readBytes, ih]

theorem readBytes_congr {m r : Memory} (n : Nat) : ∀ a, (∀ k, k < n → readByte m (a + k) = readByte r (a + k)) →
    readBytes m a n = readBytes r a n := by
  induction n with
  | zero => intro a _; rfl
  | succ n ih =>
    intro a h
    rw [readBytes, readBytes, show readByte m a = readByte r a from h 0 (by omega), ih (a + 1) fun k hk => ?_]
    have := h (k + 1) (by omega)
    rwa [show a + (k + 1) = a + 1 + k by omega] at this

/-- Reading what was stored. -/
theorem readBytes_writeBytes (m : Memory) (a : Nat) (bs : List Byte) : readBytes (writeBytes m a bs) a bs.length = bs := by
  induction bs generalizing m a with
  | nil => rfl
  | cons b bs ih =>
    rw [List.length_cons, readBytes, writeBytes, readByte_writeBytes_of_out _ _ _ _ (by omega), ih]
    simp [readByte_writeByte]

/-- Reading elsewhere. -/
theorem readBytes_writeBytes_of_out (m : Memory) (a c n : Nat) (bs : List Byte) (h : c + n ≤ a ∨ a + bs.length ≤ c) :
    readBytes (writeBytes m a bs) c n = readBytes m c n :=
  readBytes_congr n c fun k hk => readByte_writeBytes_of_out m a (c + k) bs (by omega)

theorem bytesOf_length (n w : Nat) : (bytesOf n w).length = n := by
  induction n generalizing w with
  | zero => rfl
  | succ n ih => simp [bytesOf, ih]

theorem natOfBytes_bytesOf (n w : Nat) : natOfBytes (bytesOf n w) = w % 2 ^ (8 * n) := by
  induction n generalizing w with
  | zero => simp [bytesOf, natOfBytes, Nat.mod_one]
  | succ n ih =>
    rw [bytesOf, natOfBytes, ih, BitVec.toNat_ofNat, show 8 * (n + 1) = 8 + 8 * n by omega, Nat.pow_add,
      Nat.mod_mul]

/-- A number read back after it is stored. -/
theorem readNat_writeNat (m : Memory) (a n w : Nat) : readNat (writeNat m a n w) a n = w % 2 ^ (8 * n) := by
  have := readBytes_writeBytes m a (bytesOf n w)
  rw [bytesOf_length] at this
  rw [readNat, writeNat, this, natOfBytes_bytesOf]

/-! ## Masks -/

theorem inMask_maskUpTo (p : Nat → Bool) (n t : Nat) (h : n ≤ 32) : inMask (maskUpTo p n) t = (decide (t < n) && p t) := by
  induction n with
  | zero => simp [maskUpTo, inMask]
  | succ n ih =>
    have ih := ih (by omega)
    simp only [inMask] at ih ⊢
    rw [maskUpTo, BitVec.getLsbD_or, ih]
    by_cases ht : t = n
    · subst ht
      by_cases hp : p t <;> simp [hp, BitVec.getLsbD_shiftLeft]; omega
    · have e : (if p n then (1#32 <<< n) else 0).getLsbD t = false := by
        split
        · rw [BitVec.getLsbD_shiftLeft]
          simp only [BitVec.getLsbD_one]
          simp only [Bool.and_eq_false_iff, Bool.not_eq_false', decide_eq_false_iff_not, decide_eq_true_eq]
          omega
        · simp
      rw [e, Bool.false_or]
      congr 1
      simp only [decide_eq_decide]; omega

/-- The mask of a condition holds exactly the threads that meet it. -/
theorem inMask_maskOf (p : Nat → Bool) (t : Nat) : inMask (maskOf p) t = (decide (t < 32) && p t) :=
  inMask_maskUpTo p 32 t (by omega)

theorem mem_threadsOf (m : Mask) (t : Nat) : t ∈ threadsOf m ↔ t < 32 ∧ inMask m t = true := by
  simp [threadsOf]

theorem inMask_lt {m : Mask} {t : Nat} (h : inMask m t = true) : t < 32 := BitVec.lt_of_getLsbD h

end Sys2Proof
end

