-- ==== Sys2Proof/Laws/Issue.lean ====
section
/-!
SUPPORT. What the shared issue operations do, said once: reading the view, releasing sources, settling a group, and the state a
lane instruction leaves.
-/

namespace Sys2Proof.Machine

/-! ## The view -/

theorem view?_eq {s : State} {v : View} (h : s.view? = some v) :
    v.s = s ∧ v.u = s.cur ∧ look s.groups s.cur = some v.g ∧ look s.teams v.g.team = some v.tm
      ∧ look s.ctxs v.tm.ctx = some v.cx := by
  unfold State.view? at h
  split at h
  · cases h
  · split at h
    · cases h
    · split at h
      · cases h
      · cases h; exact ⟨rfl, rfl, ‹_›, ‹_›, ‹_›⟩

/-- The first read of a copy's status register changes only what is waited for and the clock. -/
theorem firstReads_eq (v : View) (xs : List SrcUse) :
    ∃ a p, v.firstReads xs = { v with g := { v.g with acqs := a, pts := p } } := by
  unfold View.firstReads
  split
  · exact ⟨v.g.acqs, v.g.pts, rfl⟩
  · dsimp only
    split
    · exact ⟨v.g.acqs, v.g.pts, rfl⟩
    · exact ⟨_, _, rfl⟩

theorem Issues.view {i : Instr} {s : State} {w : View} {m : Mask} (h : Issues i s w m) :
    ∃ v, s.view? = some v ∧ v.firstReads i.uses.srcs = w := Option.map_eq_some_iff.1 h.1

/-- The view's parts. -/
theorem Issues.parts {i : Instr} {s : State} {w : View} {m : Mask} (h : Issues i s w m) :
    w.s = s ∧ w.u = s.cur ∧ ∃ g, look s.groups s.cur = some g ∧ ∃ a p, w.g = { g with acqs := a, pts := p } := by
  obtain ⟨v, hv, rfl⟩ := h.view
  obtain ⟨a, p, e⟩ := firstReads_eq v i.uses.srcs
  obtain ⟨h1, h2, h3, -, -⟩ := view?_eq hv
  rw [e]
  exact ⟨h1, h2, v.g, h3, a, p, rfl⟩

/-- An instruction that issues runs its own effect. -/
theorem issue_runs {i : Instr} {s : State} {w : View} {m : Mask} (h : Issues i s w m) (body : View → Mask → Out) :
    issue i s body = body w m := by
  obtain ⟨v, hv, rfl⟩ := h.view
  obtain ⟨-, h1, h2, h3, h4, h5, h6⟩ := h
  obtain ⟨a, p, e⟩ := firstReads_eq v i.uses.srcs
  have r1 : (v.firstReads i.uses.srcs).g.regs = v.g.regs := by rw [e]
  have r2 : (v.firstReads i.uses.srcs).privOk i.uses.priv = v.privOk i.uses.priv := by rw [e]; rfl
  have r3 : (v.firstReads i.uses.srcs).execMask i.uses.ctl.guard = v.execMask i.uses.ctl.guard := by rw [e]; rfl
  have r4 : (v.firstReads i.uses.srcs).operandError i.uses m
      = v.operandError i.uses m := by rw [e]; rfl
  rw [r1] at h2; rw [r2] at h3; rw [r3] at h4; rw [r4] at h6
  unfold issue
  rw [hv]
  simp only [h1, h2, h3, h4, h5, h6, Bool.not_true, Bool.or_self, if_false, Bool.false_eq_true]

/-! ## A group that leaves its slot -/

theorem laneSwitch_thread (g : Group) (k : Nat) (h : k < g.threads.length) :
    g.laneSwitch.thread k =
      { g.thread k with b0 := poison32, b1 := poison32, b2 := poison32, b3 := poison32, lseq := (g.thread k).lseq + 4 } := by
  simp [Group.laneSwitch, Group.thread, Group.mapThreads, List.getD, h]

theorem mapThreads_thread (g : Group) (f : Nat → Thread → Thread) (k : Nat) (h : k < g.threads.length) :
    (g.mapThreads f).thread k = f k (g.thread k) := by
  simp [Group.thread, Group.mapThreads, List.getD, h]

@[simp] theorem mapThreads_length (g : Group) (f : Nat → Thread → Thread) : (g.mapThreads f).threads.length = g.threads.length := by
  simp [Group.mapThreads]

/-- What a group keeps when it settles or leaves its slot: everything but slot, readiness and latches. -/
structure Settled (g g' : Group) : Prop where
  same : ∃ sl rd ths, g' = { g with slot := sl, readyAt := rd, threads := ths } ∧ ths.map Thread.bare = g.threads.map Thread.bare

theorem Settled.refl (g : Group) : Settled g g := ⟨⟨g.slot, g.readyAt, g.threads, rfl, rfl⟩⟩

theorem Settled.trans {a b c : Group} (h : Settled a b) (h' : Settled b c) : Settled a c := by
  obtain ⟨sl, rd, th, rfl, l1⟩ := h
  obtain ⟨sl', rd', th', rfl, l2⟩ := h'
  exact ⟨⟨sl', rd', th', rfl, l2.trans l1⟩⟩

theorem bare_eq_of_settled {g g' : Group} (h : Settled g g') (k : Nat) : (g'.thread k).bare = (g.thread k).bare := by
  obtain ⟨sl, rd, th, rfl, e⟩ := h
  have := congrArg (fun l : List Thread => l.getD k (Thread.bare {})) e
  simp only [List.getD_map] at this
  exact this

theorem Settled.len {g g' : Group} (h : Settled g g') : g'.threads.length = g.threads.length := by
  obtain ⟨sl, rd, th, rfl, e⟩ := h
  simpa using congrArg List.length e

theorem Settled.core {g g' : Group} (h : Settled g g') : g'.core = g.core := by
  obtain ⟨sl, rd, th, rfl, e⟩ := h
  simp only [Group.core, e]

theorem laneSwitch_bare (g : Group) : g.laneSwitch.threads.map Thread.bare = g.threads.map Thread.bare := by
  unfold Group.laneSwitch Group.mapThreads
  apply List.ext_getElem?
  intro k
  simp only [List.getElem?_map, List.getElem?_mapIdx, Option.map_map]
  rfl

theorem leaveSlot_settled (g : Group) (r : Option Nat) : Settled g (g.leaveSlot r) :=
  ⟨⟨none, r, g.laneSwitch.threads, rfl, laneSwitch_bare g⟩⟩

theorem settle_settled (now : Nat) (g : Group) : Settled g (g.settle now) := by
  unfold Group.settle
  split
  · exact leaveSlot_settled g none
  · split
    · exact ⟨⟨g.slot, _, g.threads, rfl, rfl⟩⟩
    · split
      · exact ⟨⟨g.slot, _, g.threads, rfl, rfl⟩⟩
      · exact Settled.refl g

@[simp] theorem settle_core (now : Nat) (g : Group) : (g.settle now).core = g.core := (settle_settled now g).core
@[simp] theorem leaveSlot_core (r : Option Nat) (g : Group) : (g.leaveSlot r).core = g.core := (leaveSlot_settled g r).core
@[simp] theorem laneSwitch_core (g : Group) : g.laneSwitch.core = g.core := by
  have : g.laneSwitch = { g with threads := g.laneSwitch.threads } := rfl
  rw [this]; simp only [Group.core, laneSwitch_bare]

/-- A group set in a state leaves that group, up to what the issue stage keeps for itself. -/
theorem setGroup_leaves (s : State) (u : Nat) (g : Group) : Leaves s u (s.setGroup u g) g :=
  ⟨g.settle s.cycle, rfl, settle_core _ _⟩

theorem Leaves.of_core {s0 t : State} {u : Nat} {g g' : Group} (h : Leaves s0 u t g) (e : g.core = g'.core) : Leaves s0 u t g' := by
  obtain ⟨x, h1, h2⟩ := h; exact ⟨x, h1, h2.trans e⟩

/-- The group that a state left by an instruction holds. -/
theorem Leaves.look {s0 t : State} {u : Nat} {g : Group} (h : Leaves s0 u t g) :
    ∃ g', look t.groups u = some g' ∧ g'.core = g.core := by
  obtain ⟨x, rfl, h2⟩ := h
  exact ⟨x, by simp, h2⟩

/-- Every other group is as it was. -/
theorem Leaves.other {s0 t : State} {u k : Nat} {g : Group} (h : Leaves s0 u t g) (hk : k ≠ u) :
    Sys2Proof.look t.groups k = Sys2Proof.look s0.groups k := by
  obtain ⟨x, rfl, -⟩ := h
  exact look_put_ne _ _ hk

/-! ## The end of an issue -/

/-- What `issued` does: only the group's entry changes; it is the given group with its issue recorded, settled. -/
theorem issued_spec (s : State) (u : Nat) (ctl : Ctl) (halted : Bool) (g : Group) :
    ∃ g', s.issued u ctl halted g = { s with groups := put s.groups u g' }
      ∧ Settled (g.wasIssued (s.schedOf g) halted) g' := by
  unfold State.issued State.setGroup
  dsimp only
  refine ⟨_, rfl, ?_⟩
  by_cases c : ((ctl.hint.cede || g.pairCede) && (g.wasIssued (s.schedOf g) halted).slot.isSome
      && s.readyInQuad (g.wasIssued (s.schedOf g) halted).quad u) = true
  · rw [if_pos c]; exact (leaveSlot_settled _ _).trans (settle_settled _ _)
  · rw [if_neg c]; exact settle_settled _ _

/-- `track` adds at most an entry of the instructions not complete and its counter. -/
theorem track_spec (w : View) (i : Instr) (fl : Flags) (d : DoneWhen) (g : Group) :
    ∃ sb fly, w.track i fl d g = { g with sb := sb, inflight := fly } := by
  unfold View.track
  dsimp only
  split
  · exact ⟨g.sb, g.inflight, rfl⟩
  · unfold Group.joinSb
    split
    · exact ⟨_, _, rfl⟩
    · exact ⟨g.sb, _, rfl⟩

@[simp] theorem track_core (w : View) (i : Instr) (fl : Flags) (d : DoneWhen) (g : Group) : (w.track i fl d g).core = g.core := by
  obtain ⟨sb, fly, e⟩ := track_spec w i fl d g
  rw [e]; rfl

/-- The end of an issue leaves the given group. -/
theorem issued_leaves (s : State) (u : Nat) (ctl : Ctl) (halted : Bool) (g : Group) : Leaves s u (s.issued u ctl halted g) g := by
  obtain ⟨g', e, h⟩ := issued_spec s u ctl halted g
  exact ⟨g', e, h.core⟩

theorem tracked_leaves (w : View) (i : Instr) (fl : Flags) (d : DoneWhen) (ctl : Ctl) (g : Group) :
    Leaves w.s w.u (w.s.issued w.u ctl w.halting (w.track i fl d g)) g := (issued_leaves _ _ _ _ _).of_core (track_core _ _ _ _ _)

/-- A group form that issues completes, and leaves the group it forms with its selected threads moved on. -/
theorem groupOp_leaves {i : Instr} {s : State} {w : View} {m : Mask} (h : Issues i s w m) (f : View → Mask → Group → Group) :
    ∃ t, groupOp i s f = .next t ∧ Leaves w.s w.u t ((releaseS i.uses.srcs (f w m w.g)).advance w.sel) :=
  ⟨_, issue_runs h _, tracked_leaves w i 0 .now i.uses.ctl _⟩

theorem clearMarks_spec (g : Group) (f : MarkFile) (m : Mask) (b r : Nat) :
    ∃ ms so, g.clearMarks f m b r = { g with marks := ms, soft := so } := by
  unfold Group.clearMarks
  split
  · exact ⟨g.marks, g.soft, rfl⟩
  · exact ⟨_, _, rfl⟩

theorem clearPred_spec (g : Group) (m : Mask) (n : BitVec 3) : ∃ ms so, g.clearPred m n = { g with marks := ms, soft := so } := by
  unfold Group.clearPred
  split
  · exact ⟨g.marks, g.soft, rfl⟩
  · exact clearMarks_spec g .p m n.toNat 1

/-! ## Sources and destinations -/

/-- Register n is one that a source list uses for the last time. -/
def lastVIn (srcs : List SrcUse) (n : Nat) : Bool :=
  srcs.any fun x => match x.src with
    | .v b .last => inRun b.toNat (x.role.width / 32) n
    | _ => false

def lastSIn (srcs : List SrcUse) (n : Nat) : Bool :=
  srcs.any fun x => match x.src with
    | .s b .last => inRun b.toNat (if x.role.width ≤ 64 then 1 else 2) n
    | _ => false

theorem setV_vreg (th : Thread) (n k : Nat) (x : W32) : (th.setV n x).vreg k = if k = n then x else th.vreg k := rget_rput 0 th.v n k x

/-- Everything of a thread but its v registers. -/
structure SameButV (a b : Thread) : Prop where
  eq : ∃ v, b = { a with v := v }

theorem SameButV.refl (a : Thread) : SameButV a a := ⟨a.v, rfl⟩
theorem SameButV.trans {a b c : Thread} (h : SameButV a b) (h' : SameButV b c) : SameButV a c := by
  obtain ⟨v, rfl⟩ := h; obtain ⟨v', rfl⟩ := h'; exact ⟨v', rfl⟩

theorem poisonRun_spec (b k : Nat) (th : Thread) :
    SameButV th ((List.range k).foldl (fun (th : Thread) j => th.setV (b + j) poison32) th)
      ∧ ∀ n, ((List.range k).foldl (fun (th : Thread) j => th.setV (b + j) poison32) th).vreg n = if inRun b k n then poison32 else th.vreg n := by
  induction k with
  | zero => exact ⟨SameButV.refl _, fun n => by simp [inRun]⟩
  | succ k ih =>
    rw [List.range_succ, List.foldl_append]
    obtain ⟨h1, h2⟩ := ih
    refine ⟨h1.trans ⟨_, rfl⟩, fun n => ?_⟩
    simp only [List.foldl_cons, List.foldl_nil, setV_vreg, h2]
    by_cases hn : n = b + k
    · subst hn; simp [inRun]
    · simp only [hn, if_false, inRun]
      congr 1
      simp only [decide_eq_true_eq, eq_iff_iff]; omega

/-- One source of `releaseV`. -/
def relV1 (x : SrcUse) (th : Thread) : Thread :=
  match x.src with
  | .v n .last => (List.range (x.role.width / 32)).foldl (fun (th : Thread) k => th.setV (n.toNat + k) poison32) th
  | _ => th

theorem releaseV_cons (x : SrcUse) (xs : List SrcUse) (th : Thread) : releaseV (x :: xs) th = releaseV xs (relV1 x th) := rfl

theorem relV1_spec (x : SrcUse) (th : Thread) :
    SameButV th (relV1 x th) ∧ ∀ n, (relV1 x th).vreg n = if lastVIn [x] n then poison32 else th.vreg n := by
  unfold relV1 lastVIn
  simp only [List.any_cons, List.any_nil, Bool.or_false]
  split
  · exact poisonRun_spec _ _ _
  · exact ⟨SameButV.refl _, fun n => by simp⟩

theorem lastVIn_cons (x : SrcUse) (xs : List SrcUse) (n : Nat) : lastVIn (x :: xs) n = (lastVIn [x] n || lastVIn xs n) := by
  simp [lastVIn]

theorem releaseV_spec (srcs : List SrcUse) (th : Thread) :
    SameButV th (releaseV srcs th) ∧ ∀ n, (releaseV srcs th).vreg n = if lastVIn srcs n then poison32 else th.vreg n := by
  induction srcs generalizing th with
  | nil => exact ⟨SameButV.refl _, fun n => by simp [releaseV, lastVIn]⟩
  | cons x xs ih =>
    rw [releaseV_cons]
    obtain ⟨h1, h2⟩ := ih (relV1 x th)
    obtain ⟨h3, h4⟩ := relV1_spec x th
    refine ⟨h3.trans h1, fun n => ?_⟩
    rw [h2, h4, lastVIn_cons x xs]
    cases lastVIn xs n <;> cases lastVIn [x] n <;> rfl

/-- Everything of a group but its s registers. -/
structure SameButS (a b : Group) : Prop where
  eq : ∃ s, b = { a with s := s }

theorem SameButS.refl (a : Group) : SameButS a a := ⟨a.s, rfl⟩
theorem SameButS.trans {a b c : Group} (h : SameButS a b) (h' : SameButS b c) : SameButS a c := by
  obtain ⟨v, rfl⟩ := h; obtain ⟨v', rfl⟩ := h'; exact ⟨v', rfl⟩

theorem setS_sreg (g : Group) (n k : Nat) (x : W64) : (g.setS n x).sreg k = if k = n then x else g.sreg k := rget_rput 0 g.s n k x
theorem setH_hreg (g : Group) (n k : Nat) (x : W64) : (g.setH n x).hreg k = if k = n then x else g.hreg k := rget_rput 0 g.h n k x

/-- One source of `releaseS`. -/
def relS1 (x : SrcUse) (g : Group) : Group :=
  match x.src with
  | .s n .last =>
    if x.role.width ≤ 64 then g.setS n.toNat poison64 else (g.setS n.toNat poison64).setS (n.toNat + 1) poison64
  | _ => g

theorem releaseS_cons (x : SrcUse) (xs : List SrcUse) (g : Group) : releaseS (x :: xs) g = releaseS xs (relS1 x g) := rfl

theorem relS1_spec (x : SrcUse) (g : Group) :
    SameButS g (relS1 x g) ∧ ∀ n, (relS1 x g).sreg n = if lastSIn [x] n then poison64 else g.sreg n := by
  unfold relS1 lastSIn
  simp only [List.any_cons, List.any_nil, Bool.or_false]
  split
  · split
    · refine ⟨⟨_, rfl⟩, fun n => ?_⟩
      rw [setS_sreg]
      simp only [inRun, decide_eq_true_eq]
      congr 1
      simp only [eq_iff_iff]; omega
    · refine ⟨⟨_, rfl⟩, fun n => ?_⟩
      rw [setS_sreg, setS_sreg]
      simp only [inRun, decide_eq_true_eq]
      split
      · rw [if_pos (by omega)]
      · split
        · rw [if_pos (by omega)]
        · rw [if_neg (by omega)]
  · exact ⟨SameButS.refl _, fun n => by simp⟩

theorem lastSIn_cons (x : SrcUse) (xs : List SrcUse) (n : Nat) : lastSIn (x :: xs) n = (lastSIn [x] n || lastSIn xs n) := by
  simp [lastSIn]

theorem releaseS_spec (srcs : List SrcUse) (g : Group) :
    SameButS g (releaseS srcs g) ∧ ∀ n, (releaseS srcs g).sreg n = if lastSIn srcs n then poison64 else g.sreg n := by
  induction srcs generalizing g with
  | nil => exact ⟨SameButS.refl _, fun n => by simp [releaseS, lastSIn]⟩
  | cons x xs ih =>
    rw [releaseS_cons]
    obtain ⟨h1, h2⟩ := ih (relS1 x g)
    obtain ⟨h3, h4⟩ := relS1_spec x g
    refine ⟨h3.trans h1, fun n => ?_⟩
    rw [h2, h4, lastSIn_cons x xs]
    cases lastSIn xs n <;> cases lastSIn [x] n <;> rfl

theorem setVwide_spec (k : Nat) : ∀ (th : Thread) (b d : Nat), SameButV th (th.setVwide b d k)
    ∧ ∀ n, (th.setVwide b d k).vreg n = if inRun b k n then BitVec.ofNat 32 (d / 2 ^ (32 * (n - b))) else th.vreg n := by
  induction k with
  | zero => exact fun th b d => ⟨SameButV.refl _, fun n => by simp [inRun, Thread.setVwide]⟩
  | succ k ih =>
    intro th b d
    obtain ⟨h1, h2⟩ := ih (th.setV b (BitVec.ofNat 32 d)) (b + 1) (d / 2 ^ 32)
    refine ⟨SameButV.trans ⟨_, rfl⟩ h1, fun n => ?_⟩
    rw [Thread.setVwide, h2, setV_vreg]
    by_cases hn : n = b
    · subst hn; simp [inRun]
    · by_cases hr : inRun (b + 1) k n = true
      · have hr' : inRun b (k + 1) n = true := by simp only [inRun, decide_eq_true_eq] at hr ⊢; omega
        rw [if_pos hr, if_pos hr', Nat.div_div_eq_div_mul, ← Nat.pow_add]
        have : 32 + 32 * (n - (b + 1)) = 32 * (n - b) := by simp only [inRun, decide_eq_true_eq] at hr; omega
        rw [this]
      · have hr' : ¬ inRun b (k + 1) n = true := by simp only [inRun, decide_eq_true_eq] at hr ⊢; omega
        rw [if_neg hr, if_neg hr', if_neg hn]

/-- Everything of a thread but its v registers and predicates. -/
structure SameButVP (a b : Thread) : Prop where
  eq : ∃ v p, b = { a with v := v, preds := p }

theorem SameButV.vp {a b : Thread} (h : SameButV a b) : SameButVP a b := by
  obtain ⟨v, rfl⟩ := h; exact ⟨v, a.preds, rfl⟩
theorem SameButVP.trans {a b c : Thread} (h : SameButVP a b) (h' : SameButVP b c) : SameButVP a c := by
  obtain ⟨v, p, rfl⟩ := h; obtain ⟨v', p', rfl⟩ := h'; exact ⟨v', p', rfl⟩

theorem setPred_spec (th : Thread) (n : BitVec 3) (b : Bool) :
    (∃ p, th.setPred n b = { th with preds := p })
      ∧ ∀ k, (th.setPred n b).pred k = if k ≠ 7 ∧ k = n then b else th.pred k := by
  constructor
  · unfold Thread.setPred
    split
    · exact ⟨th.preds, rfl⟩
    · exact ⟨_, rfl⟩
  · intro k
    unfold Thread.setPred Thread.pred
    by_cases hn : n = 7
    · subst hn
      by_cases hk : k = 7 <;> simp [hk]
    · by_cases hk : k = 7
      · simp [hk]
      · simp only [hn, hk, if_false, ne_eq, not_false_eq_true, true_and]
        have hkn : k.toNat < 7 := by
          have := k.isLt; have : k.toNat ≠ 7 := fun h => hk (BitVec.eq_of_toNat_eq h); omega
        have hnn : n.toNat < 7 := by
          have := n.isLt; have : n.toNat ≠ 7 := fun h => hn (BitVec.eq_of_toNat_eq h); omega
        by_cases he : k = n
        · subst he
          cases b <;> simp [hkn]
        · have hne : k.toNat ≠ n.toNat := fun h => he (BitVec.eq_of_toNat_eq h)
          cases b <;> simp [he, hkn] <;> omega

theorem setPreds_spec (ns : List (BitVec 3)) (b : Bool) (th : Thread) :
    (∃ p, ns.foldl (fun (th : Thread) n => th.setPred n b) th = { th with preds := p })
      ∧ ∀ k, (ns.foldl (fun (th : Thread) n => th.setPred n b) th).pred k = if k ≠ 7 ∧ k ∈ ns then b else th.pred k := by
  induction ns generalizing th with
  | nil => exact ⟨⟨th.preds, rfl⟩, fun k => by simp⟩
  | cons n ns ih =>
    simp only [List.foldl_cons]
    obtain ⟨⟨p, e⟩, h2⟩ := ih (th.setPred n b)
    obtain ⟨⟨q, e'⟩, h3⟩ := setPred_spec th n b
    refine ⟨⟨p, by rw [e, e']⟩, fun k => ?_⟩
    rw [h2, h3]
    simp only [List.mem_cons]
    by_cases h7 : k = 7
    · simp [h7]
    · by_cases hn : k = n
      · rw [if_pos (⟨h7, hn⟩ : k ≠ 7 ∧ k = n), if_pos (⟨h7, Or.inl hn⟩ : k ≠ 7 ∧ (k = n ∨ k ∈ ns)), ite_self]
      · simp [hn]

/-- A thread's write to its destination alone. -/
def write1 (d : Option DstUse) (o : LaneOut) (th : Thread) : Thread :=
  match d with
  | some ⟨.v n nwb, r⟩ => if nwb then th else th.setVwide n.toNat o.d (r.width / 32)
  | some ⟨.p n, _⟩ => th.setPred n o.p
  | _ => th

theorem write_eq (d : Option DstUse) (pds : List (BitVec 3)) (o : LaneOut) (th : Thread) :
    th.write d pds o = pds.foldl (fun (th : Thread) n => th.setPred n o.p) (write1 d o th) := rfl

theorem write1_spec (d : Option DstUse) (o : LaneOut) (th : Thread) :
    SameButVP th (write1 d o th)
      ∧ (∀ n, (write1 d o th).vreg n = match d with
          | some ⟨.v b false, r⟩ => if inRun b.toNat (r.width / 32) n then BitVec.ofNat 32 (o.d / 2 ^ (32 * (n - b.toNat))) else th.vreg n
          | _ => th.vreg n)
      ∧ ∀ n, (write1 d o th).pred n = if n ≠ 7 ∧ (d.map fun d => d.dst) = some (.p n) then o.p else th.pred n := by
  have same : SameButVP th th ∧ (∀ n, th.vreg n = th.vreg n) := ⟨(SameButV.refl th).vp, fun _ => rfl⟩
  cases d with
  | none => exact ⟨same.1, same.2, fun n => by simp [write1]⟩
  | some d =>
    obtain ⟨d, r⟩ := d
    cases d with
    | v b nwb =>
      cases nwb with
      | false =>
        obtain ⟨⟨v, e⟩, h2⟩ := setVwide_spec (r.width / 32) th b.toNat o.d
        refine ⟨⟨v, th.preds, e⟩, h2, fun n => ?_⟩
        have : (write1 (some ⟨.v b false, r⟩) o th).pred n = th.pred n := by
          show (th.setVwide b.toNat o.d (r.width / 32)).pred n = _
          rw [e]; rfl
        rw [this, if_neg (by simp)]
      | true => exact ⟨same.1, same.2, fun n => by simp [write1]⟩
    | p b =>
      obtain ⟨⟨q, e⟩, h2⟩ := setPred_spec th b o.p
      refine ⟨⟨th.v, q, e⟩, fun n => ?_, fun n => ?_⟩
      · show (th.setPred b o.p).vreg n = _
        rw [e]; rfl
      · show (th.setPred b o.p).pred n = _
        rw [h2]
        simp only [Option.map_some, Option.some.injEq, Dst.p.injEq, eq_comm]
    | s _ => exact ⟨same.1, same.2, fun n => by simp [write1]⟩
    | h _ => exact ⟨same.1, same.2, fun n => by simp [write1]⟩
    | tile _ => exact ⟨same.1, same.2, fun n => by simp [write1]⟩
    | cb _ => exact ⟨same.1, same.2, fun n => by simp [write1]⟩

/-- A thread's part of a result (R35, R39). -/
theorem write_spec (u : Uses) (o : LaneOut) (th : Thread) :
    SameButVP th ((releaseV u.srcs th).write u.dst u.pds o)
      ∧ (∀ n, ((releaseV u.srcs th).write u.dst u.pds o).vreg n = vAfter u o.d th.vreg n)
      ∧ ∀ n, ((releaseV u.srcs th).write u.dst u.pds o).pred n = predAfter u o.p th.pred n := by
  obtain ⟨hb, hv⟩ := releaseV_spec u.srcs th
  have hp : ∀ n, (releaseV u.srcs th).pred n = th.pred n := by obtain ⟨v, e⟩ := hb; rw [e]; intro n; rfl
  have hl : ∀ n, lastVIn u.srcs n = lastV u n := fun _ => rfl
  rw [write_eq]
  generalize releaseV u.srcs th = th' at *
  obtain ⟨⟨p, e2⟩, hp2⟩ := setPreds_spec u.pds o.p (write1 u.dst o th')
  obtain ⟨h1, h2, h3⟩ := write1_spec u.dst o th'
  refine ⟨?_, fun n => ?_, fun n => ?_⟩
  · rw [e2]; exact (hb.vp.trans h1).trans ⟨_, p, rfl⟩
  · rw [e2]
    show (write1 u.dst o th').vreg n = _
    rw [h2, hv, hl]
    rfl
  · rw [hp2, h3, hp]
    unfold predAfter
    by_cases a : n ≠ 7 ∧ n ∈ u.pds
    · rw [if_pos a, if_pos ⟨a.1, Or.inl a.2⟩]
    · rw [if_neg a]
      by_cases c : n ≠ 7 ∧ (u.dst.map fun d => d.dst) = some (.p n)
      · rw [if_pos c, if_pos ⟨c.1, Or.inr c.2⟩]
      · rw [if_neg c, if_neg]
        rintro ⟨h7, h | h⟩
        · exact a ⟨h7, h⟩
        · exact c ⟨h7, h⟩

/-! ## Results of a lane instruction -/

/-- The group's part of a result, with check bits replaced. -/
theorem gwrite_spec (u : Uses) (m : Mask) (sx : Bool) (o : LaneOut) (g : Group) :
    (∃ s h ms so, g.write m u.dst sx o = { g with s := s, h := h, marks := ms, soft := so })
      ∧ (∀ n, (g.write m u.dst sx o).sreg n = match u.dst with
          | some ⟨.s b, r⟩ =>
            if r.width ≤ 64 then (if n = b.toNat then fillS r.width sx o.d else g.sreg n)
            else if n = b.toNat + 1 then BitVec.ofNat 64 (o.d / 2 ^ 64)
            else if n = b.toNat then BitVec.ofNat 64 o.d
            else g.sreg n
          | _ => g.sreg n)
      ∧ ∀ n, (g.write m u.dst sx o).hreg n = hAfter u o.d g.hreg n := by
  unfold Group.write hAfter
  cases u.dst with
  | none => exact ⟨⟨_, _, _, _, rfl⟩, fun _ => rfl, fun _ => rfl⟩
  | some d =>
    obtain ⟨d, r⟩ := d
    cases d with
    | s b =>
      dsimp only
      split
      · obtain ⟨ms, so, e⟩ := clearMarks_spec (g.setS b.toNat (fillS r.width sx o.d)) .s m b.toNat 1
        rw [e]
        refine ⟨⟨_, _, _, _, rfl⟩, fun n => ?_, fun n => rfl⟩
        show (g.setS _ _).sreg n = _
        rw [setS_sreg]
      · obtain ⟨ms, so, e⟩ := clearMarks_spec ((g.setS b.toNat (BitVec.ofNat 64 o.d)).setS (b.toNat + 1) (BitVec.ofNat 64 (o.d / 2 ^ 64)))
          .s m b.toNat 2
        rw [e]
        refine ⟨⟨_, _, _, _, rfl⟩, fun n => ?_, fun n => rfl⟩
        show ((g.setS _ _).setS _ _).sreg n = _
        rw [setS_sreg, setS_sreg]
    | h b =>
      dsimp only
      obtain ⟨ms, so, e⟩ := clearMarks_spec (g.setH b.toNat (BitVec.ofNat 64 o.d)) .h m b.toNat 1
      rw [e]
      refine ⟨⟨_, _, _, _, rfl⟩, fun n => rfl, fun n => ?_⟩
      show (g.setH _ _).hreg n = _
      rw [setH_hreg]
    | v b nwb =>
      dsimp only
      split
      · exact ⟨⟨_, _, _, _, rfl⟩, fun _ => rfl, fun _ => rfl⟩
      · obtain ⟨ms, so, e⟩ := clearMarks_spec g .v m b.toNat (r.width / 32)
        rw [e]; exact ⟨⟨_, _, _, _, rfl⟩, fun _ => rfl, fun _ => rfl⟩
    | p b =>
      dsimp only
      obtain ⟨ms, so, e⟩ := clearPred_spec g m b
      rw [e]; exact ⟨⟨_, _, _, _, rfl⟩, fun _ => rfl, fun _ => rfl⟩
    | tile b => exact ⟨⟨_, _, _, _, rfl⟩, fun _ => rfl, fun _ => rfl⟩
    | cb b => exact ⟨⟨_, _, _, _, rfl⟩, fun _ => rfl, fun _ => rfl⟩

theorem foldClear_spec (ns : List (BitVec 3)) (m : Mask) (g : Group) :
    ∃ ms so, ns.foldl (Group.clearPred m) g = { g with marks := ms, soft := so } := by
  induction ns generalizing g with
  | nil => exact ⟨g.marks, g.soft, rfl⟩
  | cons n ns ih =>
    obtain ⟨a, so, e⟩ := clearPred_spec g m n
    obtain ⟨b, so', e'⟩ := ih (g.clearPred m n)
    exact ⟨b, so', by rw [List.foldl_cons, e', e]⟩

/-- One thread of `results`. -/
def resultThread (i : Instr) (m moved : Mask) (out : Nat → LaneOut) (t : Nat) (th : Thread) : Thread :=
  let th := if inMask m t then
      let th := (releaseV i.uses.srcs th).write i.uses.dst i.uses.pds (out t)
      let th := { th with rctr := th.rctr + BitVec.ofNat 64 (out t).draws }
      if i.latches then th.shiftLatch (BitVec.ofNat 32 (out t).d) else th
    else th
  if inMask moved t then th.step12 else th

theorem resultThread_spec (i : Instr) (m moved : Mask) (out : Nat → LaneOut) (t : Nat) (th : Thread) :
    (resultThread i m moved out t th).pc = (if inMask moved t then th.pc + 12 else th.pc)
      ∧ (resultThread i m moved out t th).stat = th.stat
      ∧ (resultThread i m moved out t th).pausing = th.pausing
      ∧ (resultThread i m moved out t th).rctr = (if inMask m t then th.rctr + BitVec.ofNat 64 (out t).draws else th.rctr)
      ∧ (resultThread i m moved out t th).fpc = th.fpc ∧ (resultThread i m moved out t th).fstat = th.fstat
      ∧ (resultThread i m moved out t th).fpausing = th.fpausing ∧ (resultThread i m moved out t th).fpreds = th.fpreds
      ∧ (∀ n, (resultThread i m moved out t th).vreg n = if inMask m t then vAfter i.uses (out t).d th.vreg n else th.vreg n)
      ∧ ∀ n, (resultThread i m moved out t th).pred n = if inMask m t then predAfter i.uses (out t).p th.pred n else th.pred n := by
  obtain ⟨⟨v, p, e⟩, hv, hp⟩ := write_spec i.uses (out t) th
  unfold resultThread
  generalize (releaseV i.uses.srcs th).write i.uses.dst i.uses.pds (out t) = th' at *
  by_cases h1 : inMask m t = true <;> by_cases h2 : inMask moved t = true <;> by_cases h3 : i.latches = true <;>
    simp only [h1, h2, h3, if_true, if_false, Bool.false_eq_true] <;>
    refine ⟨?_, ?_, ?_, ?_, ?_, ?_, ?_, ?_, fun n => ?_, fun n => ?_⟩ <;>
    first
      | trivial
      | exact hv _
      | exact hp _
      | (rw [e]; done)
      | (rw [e]; rfl)

/-- `results` in one place. -/
theorem results_spec (i : Instr) (m moved : Mask) (sx : Bool) (out : Nat → LaneOut) (g : Group) :
    (∃ ths s h ms so, results i m moved sx out g = { g with threads := ths, s := s, h := h, marks := ms, soft := so } ∧ ths.length = g.threads.length)
      ∧ (∀ k, k < g.threads.length → (results i m moved sx out g).thread k = resultThread i m moved out k (g.thread k))
      ∧ (∀ n, (results i m moved sx out g).sreg n =
          sAfter i.uses sx (out (match i.uses.dst with
            | some ⟨.h _, _⟩ => highest m
            | _ => lowest m)).d g.sreg n)
      ∧ ∀ n, (results i m moved sx out g).hreg n =
          hAfter i.uses (out (match i.uses.dst with
            | some ⟨.h _, _⟩ => highest m
            | _ => lowest m)).d g.hreg n := by
  obtain ⟨⟨s1, e1⟩, hs1⟩ := releaseS_spec i.uses.srcs g
  have hl : ∀ n, lastSIn i.uses.srcs n = lastS i.uses n := fun _ => rfl
  generalize hg1 : releaseS i.uses.srcs g = g1 at *
  have hg2 : results i m moved sx out g =
      i.uses.pds.foldl (Group.clearPred m)
        ((g1.mapThreads (resultThread i m moved out)).write m i.uses.dst sx (out (match i.uses.dst with
            | some ⟨.h _, _⟩ => highest m
            | _ => lowest m))) := by
    rw [← hg1]; rfl
  generalize (out (match i.uses.dst with
            | some ⟨.h _, _⟩ => highest m
            | _ => lowest m)) = o at *
  obtain ⟨ms2, so2, e2⟩ := foldClear_spec i.uses.pds m ((g1.mapThreads (resultThread i m moved out)).write m i.uses.dst sx o)
  obtain ⟨⟨s3, h3, ms3, so3, e3⟩, hs3, hh3⟩ := gwrite_spec i.uses m sx o (g1.mapThreads (resultThread i m moved out))
  have e : results i m moved sx out g =
      { (g1.mapThreads (resultThread i m moved out)).write m i.uses.dst sx o with marks := ms2, soft := so2 } := by rw [hg2, e2]
  refine ⟨⟨(g1.mapThreads (resultThread i m moved out)).threads, s3, h3, ms2, so2, ?_, ?_⟩, ?_, ?_, ?_⟩
  · rw [e, e3, e1]; rfl
  · rw [mapThreads_length, e1]
  · intro k hk
    rw [e, e3]
    show (g1.mapThreads (resultThread i m moved out)).thread k = _
    rw [mapThreads_thread _ _ _ (by rw [e1]; exact hk), e1]; rfl
  · intro n
    rw [e]
    show ((g1.mapThreads (resultThread i m moved out)).write m i.uses.dst sx o).sreg n = _
    rw [hs3]
    have : (g1.mapThreads (resultThread i m moved out)).sreg n = g1.sreg n := rfl
    unfold sAfter
    rw [this, hs1, hl] <;> rfl
  · intro n
    rw [e]
    show ((g1.mapThreads (resultThread i m moved out)).write m i.uses.dst sx o).hreg n = _
    rw [hh3]
    have : (g1.mapThreads (resultThread i m moved out)).hreg = g.hreg := by rw [e1]; rfl
    rw [this]

/-- The state a lane instruction leaves, for any mask of threads that take results. -/
theorem results_done (i : Instr) (v w : View) (hsel : w.sel = v.sel) (m : Mask) (sx : Bool) (out : Nat → LaneOut) (fl : Flags)
    (d : DoneWhen) (ctl : Ctl) (halted : Bool) :
    LaneDone i w m sx out (w.s.issued w.u ctl halted (v.track i fl d (results i m v.sel sx out w.g))) := by
  rw [← hsel]
  obtain ⟨⟨ths, sr, hr, ms, so, e, hlen⟩, ht, hs, hh⟩ := results_spec i m w.sel sx out w.g
  generalize results i m w.sel sx out w.g = g1 at *
  obtain ⟨g', e3, hset⟩ := issued_spec w.s w.u ctl halted (v.track i fl d g1)
  obtain ⟨sb, fly, e2⟩ := track_spec v i fl d g1
  have hcore := hset.core
  have hbare := bare_eq_of_settled hset
  have hl := hset.len
  obtain ⟨sl, rd, th3, e4, -⟩ := hset
  rw [e3]
  refine ⟨g', rfl, ?_, ?_, ?_, ?_, ?_⟩
  · rw [e4, e2, e]; rfl
  · rw [hl, e2, e]; exact hlen
  · intro k hk
    have b : Group.thread ((v.track i fl d g1).wasIssued (w.s.schedOf (v.track i fl d g1)) halted) k
        = resultThread i m w.sel out k (w.g.thread k) := by rw [← ht k hk, e2]; rfl
    have hb := hbare k
    rw [b] at hb
    obtain ⟨c1, c2, c3, c4, c5, c6, c7, c8, c9, c10⟩ := resultThread_spec i m w.sel out k (w.g.thread k)
    have f := fun {α : Type} (p : Thread → α) (hp : ∀ t : Thread, p t.bare = p t) => (hp _).symm.trans ((congrArg p hb).trans (hp _))
    refine ⟨(f Thread.pc fun _ => rfl).trans c1, (f Thread.stat fun _ => rfl).trans c2, (f Thread.pausing fun _ => rfl).trans c3,
      (f Thread.rctr fun _ => rfl).trans c4, (f Thread.fpc fun _ => rfl).trans c5, (f Thread.fstat fun _ => rfl).trans c6,
      (f Thread.fpausing fun _ => rfl).trans c7, (f Thread.fpreds fun _ => rfl).trans c8,
      fun n => (f (fun t => t.vreg n) fun _ => rfl).trans (c9 n), fun n => (f (fun t => t.pred n) fun _ => rfl).trans (c10 n)⟩
  · intro n
    have : g'.sreg n = g1.sreg n := by rw [e4, e2]; rfl
    rw [this, hs]
    unfold sAfter
    rcases i.uses.dst with _ | ⟨_ | _ | _ | _ | _ | _, r⟩ <;> rfl
  · intro n
    have : g'.hreg n = g1.hreg n := by rw [e4, e2]; rfl
    rw [this, hh]
    unfold hAfter
    rcases i.uses.dst with _ | ⟨_ | _ | _ | _ | _ | _, r⟩ <;> rfl

theorem finish_done (i : Instr) (w : View) (m : Mask) (sx : Bool) (out : Nat → LaneOut) :
    LaneDone i w m sx out (w.finish i m sx out) := results_done i w w rfl m sx out _ _ _ _

/-- A form that acts once and answers. -/
theorem finishS_done (i : Instr) (w : View) (m : Mask) (s1 : State) (g1 : Group) (d : Nat)
    (hsel : View.sel { w with s := s1, g := g1 } = w.sel) :
    LaneDone i { w with s := s1, g := g1 } m false (fun _ => .bits d) (w.finishS i m s1 g1 d) :=
  results_done i w { w with s := s1, g := g1 } hsel m false _ _ _ _ _

theorem finishS_answers (i : Instr) (w : View) (m : Mask) (s1 : State) (d : Nat) (h : s1.curPc = w.s.curPc ∧ s1.curMask = w.s.curMask) :
    Answers i w m s1 d (w.finishS i m s1 w.g d) :=
  finishS_done i w m s1 w.g d (by unfold View.sel; rw [h.1, h.2])

/-- A lane instruction that issues does its work. -/
theorem laneOp_done {i : Instr} {s : State} {w : View} {m : Mask} (h : Issues i s w m) (sx : Bool)
    (out : View → Mask → Nat → LaneOut) : ∃ t, laneOp i s sx out = .next t ∧ LaneDone i w m sx (out w m) t :=
  ⟨_, issue_runs h _, finish_done i w m sx (out w m)⟩

theorem foldl_or_map {α : Type} (f : α → Flags) (l : List α) (x : Flags) :
    (l.map f).foldl (· ||| ·) x = l.foldl (fun a k => a ||| f k) x := by
  induction l generalizing x with
  | nil => rfl
  | cons a l ih => exact ih _

theorem leaveSlot_inflight (g : Group) (r : Option Nat) : (g.leaveSlot r).inflight = g.inflight := rfl

theorem settle_inflight (now : Nat) (g : Group) : (g.settle now).inflight = g.inflight := by
  obtain ⟨a, b, c, e, -⟩ := settle_settled now g
  rw [e]

theorem issued_inflight (s : State) (u : Nat) (ctl : Ctl) (halted : Bool) (g : Group) :
    ∃ g', look (s.issued u ctl halted g).groups u = some g' ∧ g'.inflight = g.inflight := by
  obtain ⟨g', e, sl, rd, th, h, -⟩ := issued_spec s u ctl halted g
  refine ⟨g', ?_, ?_⟩
  · rw [e]; exact look_put_same s.groups u g'
  · rw [h]; rfl

/-- The exceptions of a lane instruction are its own until it completes. -/
theorem finish_excepts (i : Instr) (w : View) (m : Mask) (sx : Bool) (out : Nat → LaneOut) :
    Excepts i w m out (w.finish i m sx out) := by
  obtain ⟨g', h, e⟩ := issued_inflight w.s w.u i.uses.ctl w.halting
    (w.track i (flagsOf i.uses m out) .now (results i m w.sel sx out w.g))
  refine ⟨g', h, e.trans ?_⟩
  have hr : (results i m w.sel sx out w.g).inflight = w.g.inflight := by
    obtain ⟨⟨ths, sr, hr, ms, so, e, -⟩, -⟩ := results_spec i m w.sel sx out w.g
    rw [e]
  unfold View.track
  rw [foldl_or_map]
  dsimp only
  unfold flagsOf
  split <;> rename_i c
  · have : ((lanes i.uses m).foldl (fun f t => f ||| (out t).fl) 0) = 0 ∧ setsbOf i.uses.ctl = none := by simp_all
    rw [if_pos this, hr, List.append_nil]
  · have : ¬(((lanes i.uses m).foldl (fun f t => f ||| (out t).fl) 0) = 0 ∧ setsbOf i.uses.ctl = none) := by
      rintro ⟨a, b⟩; simp [b] at c; exact c a
    rw [if_neg this]
    unfold Group.joinSb
    split <;> simp [hr]

/-- A lane form whose results meet p completes with them and their exceptions. -/
theorem laneOp_rounds {i : Instr} {s : State} {w : View} {m : Mask} (h : Issues i s w m) (sx : Bool)
    (out : View → Mask → Nat → LaneOut) (he : exec i s = laneOp i s sx out) {p : Nat → LaneOut → Prop}
    (hp : ∀ k, k < 32 → p k (out w m k)) : Rounds i s w m sx p :=
  ⟨out w m, _, he.trans (issue_runs h _), finish_done i w m sx _, finish_excepts i w m sx _, hp⟩

/-! ## Traps -/

theorem updGroup_groups (s : State) (u : Nat) (f : Group → Group) :
    s.updGroup u f = { s with groups := (match look s.groups u with
      | some g => put s.groups u ((f g).settle s.cycle)
      | none => s.groups) } := by
  unfold State.updGroup State.setGroup
  cases h : look s.groups u <;> rfl

theorem raise_eq (s : State) (q : Nat) (e : EvRec) : ∃ a b, s.raise q e = { s with evq := a, evHeld := b } := by
  unfold State.raise
  dsimp only
  split
  · exact ⟨_, s.evHeld, rfl⟩
  · exact ⟨s.evq, _, rfl⟩

theorem raiseFor_eq (s : State) (u code arg data : Nat) : ∃ a b, s.raiseFor u code arg data = { s with evq := a, evHeld := b } := by
  unfold State.raiseFor
  split
  · exact ⟨s.evq, s.evHeld, rfl⟩
  · split
    · exact ⟨s.evq, s.evHeld, rfl⟩
    · exact raise_eq _ _ _

theorem look_upd_self {α : Type} (l : AList α) (k : Nat) (f : α → α) : look (upd l k f) k = (look l k).map f := by
  rw [look_upd, if_pos rfl]

/-- What halting a team does. -/
theorem haltTeam_spec (s : State) (team u code : Nat) (g : Group) (hg : look s.groups u = some g) (ht : (look s.teams team).isSome) :
    GroupIs (s.haltTeam team u code) u { g with stopped := true }
      ∧ (∀ k, k ≠ u → look (s.haltTeam team u code).groups k = look s.groups k)
      ∧ look (s.haltTeam team u code).teams team = (look s.teams team).map (fun tm : Team => { tm with run := .halted })
      ∧ (s.haltTeam team u code).mem = s.mem := by
  unfold State.haltTeam
  obtain ⟨tm, htm⟩ := Option.isSome_iff_exists.1 ht
  rw [htm]
  dsimp only
  obtain ⟨a, b, e⟩ : ∃ a b, (if (tm.run == .halted) = true then s else s.raiseFor u 0x04 code tm.sr) = { s with evq := a, evHeld := b } := by
    split
    · exact ⟨s.evq, s.evHeld, rfl⟩
    · exact raiseFor_eq _ _ _ _ _
  rw [e, updGroup_groups]
  have hg' : look (State.updTeam { s with evq := a, evHeld := b } team fun tm => { tm with run := .halted }).groups u = some g := hg
  rw [hg']
  refine ⟨⟨_, by rw [look_put, if_pos rfl], settle_core _ _⟩, fun k hk => look_put_ne _ _ hk, ?_, rfl⟩
  show look (upd s.teams team _) team = _
  rw [look_upd_self, htm]

theorem setTrap_core (g : Group) (code : Nat) (mask : Mask) (epc : W64) (tinfo : Nat) (b d : Bool) :
    ({ g.setTrap code mask epc tinfo b with double := d } : Group).core = (g.trapRegs code mask epc tinfo d).core := rfl

theorem enterHandler_core (g : Group) (pc : VA) : (g.enterHandler pc).core = (g.inHandler pc).core := by
  unfold Group.enterHandler
  exact laneSwitch_core _

/-- Taking a trap, in one place (R331 to R333, R336). -/
theorem takeTrap_taken (w : View) (g : Group) (code : Nat) (mask : Mask) (epc : W64) (tinfo : Nat)
    (ht : (look w.s.teams g.team).isSome) : TrapTaken w g code mask epc tinfo (w.takeTrap g code mask epc tinfo) := by
  have halted : ∀ b d, TrapTaken.Halted w g code mask epc tinfo
      ((State.setGroup { w.s with trapSeq := w.s.trapSeq + 1 } w.u
        { g.setTrap code mask epc tinfo b with double := d }).haltTeam g.team w.u code) d := by
    intro b d
    have hl : look (State.setGroup { w.s with trapSeq := w.s.trapSeq + 1 } w.u { g.setTrap code mask epc tinfo b with double := d }).groups w.u
        = some (Group.settle w.s.cycle { g.setTrap code mask epc tinfo b with double := d }) := by
      show look (put _ _ _) _ = _
      rw [look_put, if_pos rfl]
    obtain ⟨⟨g', h1, h1'⟩, h2, h3, h4⟩ := haltTeam_spec _ g.team w.u code _ hl ht
    refine ⟨⟨g', h1, h1'.trans ?_⟩, fun k hk => (h2 k hk).trans (look_put_ne _ _ hk), h3, h4⟩
    have := settle_core w.s.cycle { g.setTrap code mask epc tinfo b with double := d }
    exact congrArg (fun x : Group => ({ x with stopped := true } : Group)) this
  unfold TrapTaken View.takeTrap
  cases ho : w.handlerOffset with
  | some off =>
    dsimp only
    by_cases hh : g.handler = true
    · have hh' : (g.setTrap code mask epc tinfo (w.tm.run == .halted)).handler = true := hh
      rw [if_pos hh', if_pos hh, hh]
      exact halted _ true
    · have hh' : ¬ (g.setTrap code mask epc tinfo (w.tm.run == .halted)).handler = true := hh
      rw [if_neg hh', if_neg hh]
      exact (setGroup_leaves _ _ _).of_core (enterHandler_core _ _)
  | none => exact halted _ g.handler

end Sys2Proof.Machine
end

