-- ==== Sys2Proof/Laws/Integer.lean ====
section
/-!
SUPPORT. Operands stay inside their width, and what the integer helpers give bit by bit.
-/

namespace Sys2Proof

/-! ## Types -/

theorem isB3264_cases {t : Ty} (h : t.isB3264 = true) : t = .b32 ∨ t = .b64 := by cases t <;> simp_all [Ty.isB3264]
theorem isInt4_cases {t : Ty} (h : t.isInt4 = true) : t = .i32 ∨ t = .n32 ∨ t = .i64 ∨ t = .n64 := by
  cases t <;> simp_all [Ty.isInt4]
theorem isNat2_cases {t : Ty} (h : t.isNat2 = true) : t = .n32 ∨ t = .n64 := by cases t <;> simp_all [Ty.isNat2]
theorem isSInt2_cases {t : Ty} (h : t.isSInt2 = true) : t = .i32 ∨ t = .i64 := by cases t <;> simp_all [Ty.isSInt2]

theorem Uses.legal_ok {u : Uses} (h : u.legal = true) : u.ok = true := by
  simp only [Uses.legal, Bool.and_eq_true] at h; exact h.1.1.1.1.1

theorem wrap_lt (w : Nat) (x : Int) : wrap w x < 2 ^ w := by
  unfold wrap
  have h1 := Int.emod_nonneg x (b := 2 ^ w) (by positivity)
  have h2 := Int.emod_lt_of_pos x (b := 2 ^ w) (by positivity)
  have : ((x % 2 ^ w).toNat : Int) < 2 ^ w := by rw [Int.toNat_of_nonneg h1]; exact h2
  exact_mod_cast this

theorem natOfBytes_lt (bs : List Byte) : natOfBytes bs < 2 ^ (8 * bs.length) := by
  induction bs with
  | nil => simp [natOfBytes]
  | cons b bs ih =>
    have hb := b.isLt
    have : natOfBytes (b :: bs) = b.toNat + 2 ^ 8 * natOfBytes bs := by simp [natOfBytes]
    rw [this, List.length_cons, Nat.mul_add, Nat.pow_add, Nat.mul_one]
    generalize 2 ^ (8 * bs.length) = p at *
    omega

/-- An integer of a type is what its bits denote. -/
theorem intOf_wrap (t : Ty) (x : Int) (hw : 0 < t.width) (h1 : intMin t ≤ x) (h2 : x ≤ intMax t) : intOf t (wrap t.width x) = x := by
  have hl := wrap_lt t.width x
  have hp : (2 : Int) ^ t.width = 2 ^ (t.width - 1) * 2 := by rw [← Int.pow_succ]; congr 1; omega
  have hq : (0 : Int) < 2 ^ (t.width - 1) := by positivity
  have hc : ((2 ^ (t.width - 1) : Nat) : Int) = 2 ^ (t.width - 1) := by push_cast; rfl
  have hv : ((wrap t.width x : Nat) : Int) = x % 2 ^ t.width := by
    unfold wrap; rw [Int.toNat_of_nonneg (Int.emod_nonneg _ (by positivity))]
  unfold intOf intMin intMax at *
  rw [Nat.mod_eq_of_lt hl]
  cases hs : t.signed
  · simp only [hs, Bool.false_eq_true, if_false, Bool.false_and] at *
    rw [hv, Int.emod_eq_of_lt h1 (by omega)]
  · simp only [hs, if_true, Bool.true_and, decide_eq_true_eq] at *
    by_cases hx : 0 ≤ x
    · have e : x % 2 ^ t.width = x := Int.emod_eq_of_lt hx (by omega)
      rw [if_neg (by omega), hv, e]
    · have e : x % 2 ^ t.width = x + 2 ^ t.width := by
        rw [← Int.add_emod_right, Int.emod_eq_of_lt (by omega) (by omega)]
      rw [if_pos (by omega), hv, e]; omega

theorem intOf_bounds (t : Ty) (b : Nat) (hw : 0 < t.width) : intMin t ≤ intOf t b ∧ intOf t b ≤ intMax t := by
  have hp : (2 : Int) ^ t.width = 2 ^ (t.width - 1) * 2 := by rw [← Int.pow_succ]; congr 1; omega
  have hc : ((2 ^ (t.width - 1) : Nat) : Int) = 2 ^ (t.width - 1) := by push_cast; rfl
  have hd : ((2 ^ t.width : Nat) : Int) = 2 ^ t.width := by push_cast; rfl
  have hl : b % 2 ^ t.width < 2 ^ t.width := Nat.mod_lt _ (by positivity)
  unfold intOf intMin intMax
  cases hs : t.signed
  · simp only [Bool.false_eq_true, if_false, Bool.false_and]; omega
  · simp only [if_true, Bool.true_and, decide_eq_true_eq]
    split <;> omega

namespace Machine

/-! ## Lane instructions -/

theorem does_of {i : Instr} {s : State} {w : View} {m : Mask} (h : Issues i s w m) {sx : Bool} {out : View → Mask → Nat → LaneOut}
    (he : exec i s = laneOp i s sx out) : Does i s w m sx (out w m) := by
  obtain ⟨t, h1, h2⟩ := laneOp_done h sx out
  exact ⟨t, he.trans h1, h2⟩

theorem doesSome_of {i : Instr} {s : State} {w : View} {m : Mask} (h : Issues i s w m) {sx : Bool}
    {out : View → Mask → Nat → LaneOut} {p : Nat → LaneOut → Prop} (he : exec i s = laneOp i s sx out)
    (hp : ∀ k, k < 32 → p k (out w m k)) : DoesSome i s w m sx p := ⟨out w m, does_of h he, hp⟩

theorem Issues.ok {i : Instr} {s : State} {w : View} {m : Mask} (h : Issues i s w m) : i.uses.ok = true := Uses.legal_ok h.2.1

/-! ## Operands -/

theorem vwide_lt (th : Thread) (k : Nat) : ∀ n, th.vwide n k < 2 ^ (32 * k) := by
  induction k with
  | zero => intro n; simp [Thread.vwide]
  | succ k ih =>
    intro n
    have h := ih (n + 1)
    have hv := (th.vreg n).isLt
    rw [Thread.vwide, Nat.mul_succ, Nat.pow_add]
    generalize 2 ^ (32 * k) = p at *
    nlinarith

theorem constNat_lt (tm : Team) (b o n : Nat) : tm.constNat b o n < 2 ^ (8 * n) := by
  unfold Team.constNat
  split
  · positivity
  · refine lt_of_lt_of_eq (natOfBytes_lt _) ?_
    simp

/-- An operand of a type that is no float lies below two to its register width. -/
theorem rd_lt (w : View) (ty : Ty) (x : Src) (k : Nat) (hk : k < 32) (hf : ty.isFloat = false) : w.rd ty x k < 2 ^ ty.regw := by
  have hr : ty.regw = 32 ∨ ty.regw = 64 ∨ ty.regw = 128 := by cases ty <;> decide
  have h32 : (2 : Nat) ^ 32 ≤ 2 ^ ty.regw := Nat.pow_le_pow_right (by decide) (by omega)
  have h64 : ty.regw ≠ 32 → (2 : Nat) ^ 64 ≤ 2 ^ ty.regw := fun h => Nat.pow_le_pow_right (by decide) (by omega)
  unfold View.rd
  cases x with
  | v n l =>
    refine lt_of_lt_of_eq (vwide_lt _ _ _) ?_
    rcases hr with h | h | h <;> simp [h]
  | s n l =>
    unfold Group.swide
    dsimp only
    split
    · rename_i h; rw [h]; exact Nat.mod_lt _ (by decide)
    · split
      · rename_i h; rw [h]; exact BitVec.isLt _
      · have h : ty.regw = 128 := by omega
        rw [h]
        have h1 := (w.g.sreg n.toNat).isLt
        have h2 := (w.g.sreg (n.toNat + 1)).isLt
        omega
  | latch n => exact lt_of_lt_of_le (BitVec.isLt _) h32
  | zero => dsimp only; positivity
  | tid => dsimp only; omega
  | p n => dsimp only; split <;> omega
  | h n =>
    dsimp only
    split
    · rename_i h; rw [h]; exact Nat.mod_lt _ (by decide)
    · rename_i h; exact lt_of_lt_of_le (BitVec.isLt _) (h64 h)
  | cb n => exact lt_of_lt_of_le (BitVec.isLt _) h32
  | k n =>
    refine lt_of_lt_of_eq (constNat_lt _ _ _ _) ?_
    rcases hr with h | h | h <;> simp [h]
  | imm n =>
    dsimp only
    unfold immBits
    rw [hf]
    exact wrap_lt _ _

theorem rd_b_lt {w : View} {ty : Ty} {x : Src} {k : Nat} (hk : k < 32) (h : ty.isB3264 = true) : w.rd ty x k < 2 ^ ty.width := by
  have := rd_lt w ty x k hk (by rcases isB3264_cases h with rfl | rfl <;> rfl)
  rcases isB3264_cases h with rfl | rfl <;> exact this

theorem rd_i_lt {w : View} {ty : Ty} {x : Src} {k : Nat} (hk : k < 32) (h : ty.isInt4 = true) : w.rd ty x k < 2 ^ ty.width := by
  have := rd_lt w ty x k hk (by rcases isInt4_cases h with rfl | rfl | rfl | rfl <;> rfl)
  rcases isInt4_cases h with rfl | rfl | rfl | rfl <;> exact this

theorem rd_n_lt {w : View} {ty : Ty} {x : Src} {k : Nat} (hk : k < 32) (h : ty.isNat2 = true) : w.rd ty x k < 2 ^ ty.width :=
  rd_i_lt hk (by rcases isNat2_cases h with rfl | rfl <;> rfl)

theorem n32_lt {w : View} {x : Src} {k : Nat} (hk : k < 32) : w.n32 x k < 2 ^ 32 := rd_lt w .n32 x k hk rfl

/-! ## Shifts, counts and fields bit by bit -/

theorem testBit_notN (w a i : Nat) (h : i < w) : (notN w a).testBit i = !a.testBit i := by
  unfold notN
  rw [Nat.sub_sub, Nat.add_comm, Nat.testBit_two_pow_sub_succ (Nat.mod_lt _ (by positivity)), Nat.testBit_mod_two_pow]
  simp [h]

theorem notN_lt (w a : Nat) : notN w a < 2 ^ w := by
  unfold notN
  have : 0 < 2 ^ w := by positivity
  omega

theorem testBit_high {a w i : Nat} (h : a < 2 ^ w) (hi : w ≤ i) : a.testBit i = false :=
  Nat.testBit_lt_two_pow (lt_of_lt_of_le h (Nat.pow_le_pow_right (by decide) hi))

theorem testBit_shlN (w a n i : Nat) (h : i < w) : (shlN w a n).testBit i = (decide (n ≤ i) && a.testBit (i - n)) := by
  unfold shlN
  split
  · have : ¬ n ≤ i := by omega
    simp [this]
  · rw [Nat.testBit_mod_two_pow, Nat.mul_comm, Nat.testBit_two_pow_mul]; simp [h]

theorem shlN_lt (w a n : Nat) : shlN w a n < 2 ^ w := by
  unfold shlN
  split
  · positivity
  · exact Nat.mod_lt _ (by positivity)

theorem testBit_shrN (w a n i : Nat) (ha : a < 2 ^ w) : (shrN w a n).testBit i = (decide (i + n < w) && a.testBit (i + n)) := by
  unfold shrN
  split
  · have : ¬ i + n < w := by omega
    simp [this]
  · rw [Nat.testBit_div_two_pow]
    by_cases h : i + n < w
    · simp [h]
    · simp [h, testBit_high ha (by omega : w ≤ i + n)]

theorem shrN_lt (w a n : Nat) (ha : a < 2 ^ w) : shrN w a n < 2 ^ w := by
  unfold shrN
  split
  · positivity
  · exact lt_of_le_of_lt (Nat.div_le_self _ _) ha

/-- The run of ones from bit k up to bit w. -/
theorem testBit_ones (w k i : Nat) (hk : k ≤ w) : (2 ^ w - 2 ^ k).testBit i = (decide (k ≤ i) && decide (i < w)) := by
  have e : 2 ^ w - 2 ^ k = 2 ^ k * (2 ^ (w - k) - 1) := by
    rw [Nat.mul_sub, ← Nat.pow_add, Nat.mul_one]; congr 2; omega
  rw [e, Nat.testBit_two_pow_mul, Nat.testBit_two_pow_sub_one]
  by_cases h : k ≤ i
  · simp only [h, decide_true, Bool.true_and, decide_eq_decide]; omega
  · simp [h]

/-- Adding numbers without a common bit. -/
theorem testBit_add_disjoint (a b k i : Nat) (ha : a < 2 ^ k) : (a + 2 ^ k * b).testBit i = if i < k then a.testBit i else b.testBit (i - k) := by
  rw [Nat.add_comm, Nat.testBit_two_pow_mul_add _ ha]

theorem testBit_sarN (w a n i : Nat) (h : i < w) (ha : a < 2 ^ w) :
    (sarN w a n).testBit i = a.testBit (min (i + n) (w - 1)) := by
  unfold sarN
  dsimp only
  by_cases hn : w ≤ n
  · rw [if_pos hn, show min (i + n) (w - 1) = w - 1 by omega]
    split
    · rename_i ht; rw [ht, Nat.testBit_two_pow_sub_one]; simp [h]
    · rename_i ht; simp only [Bool.not_eq_true] at ht; rw [ht]; simp
  · rw [if_neg (by omega)]
    have e : a / 2 ^ n < 2 ^ (w - n) := by
      rw [Nat.div_lt_iff_lt_mul (by positivity), ← Nat.pow_add]; exact lt_of_lt_of_eq ha (by congr 1; omega)
    by_cases ht : a.testBit (w - 1) = true
    · rw [if_pos ht]
      have e2 : 2 ^ w - 2 ^ (w - n) = 2 ^ (w - n) * (2 ^ n - 1) := by
        rw [Nat.mul_sub, ← Nat.pow_add, Nat.mul_one]; congr 2; omega
      rw [e2, testBit_add_disjoint _ _ _ _ e]
      split
      · rw [Nat.testBit_div_two_pow]; congr 1; omega
      · rw [Nat.testBit_two_pow_sub_one, show min (i + n) (w - 1) = w - 1 by omega, ht]; simp; omega
    · rw [if_neg ht]
      simp only [Bool.not_eq_true] at ht
      rw [Nat.add_zero, Nat.testBit_div_two_pow]
      by_cases hi : i + n < w
      · congr 1; omega
      · rw [show min (i + n) (w - 1) = w - 1 by omega, ht]; exact testBit_high ha (by omega)

theorem sarN_lt (w a n : Nat) (ha : a < 2 ^ w) : sarN w a n < 2 ^ w := by
  unfold sarN
  dsimp only
  have hp : 0 < 2 ^ w := by positivity
  split
  · split <;> omega
  · rename_i hn
    have e : a / 2 ^ n < 2 ^ (w - n) := by
      rw [Nat.div_lt_iff_lt_mul (by positivity), ← Nat.pow_add]; exact lt_of_lt_of_eq ha (by congr 1; omega)
    have : 2 ^ (w - n) ≤ 2 ^ w := Nat.pow_le_pow_right (by decide) (by omega)
    split <;> omega

theorem testBit_rotN (w a n i : Nat) (h : i < w) (ha : a < 2 ^ w) :
    (rotN w a n).testBit i = a.testBit ((i + (w - n % w)) % w) := by
  have hk := Nat.mod_lt n (by omega : w > 0)
  unfold rotN
  dsimp only
  generalize n % w = k at *
  rw [Nat.testBit_or, Nat.testBit_mod_two_pow, Nat.mul_comm, Nat.testBit_two_pow_mul, Nat.testBit_div_two_pow]
  by_cases hi : k ≤ i
  · have e : (i + (w - k)) % w = i - k := by
      rw [show i + (w - k) = (i - k) + w by omega, Nat.add_mod_right, Nat.mod_eq_of_lt (by omega)]
    rw [e, testBit_high ha (by omega : w ≤ i + (w - k))]; simp [h, hi]
  · have e : (i + (w - k)) % w = i + (w - k) := Nat.mod_eq_of_lt (by omega)
    rw [e]; simp [hi]

theorem rotN_lt (w a n : Nat) (ha : a < 2 ^ w) : rotN w a n < 2 ^ w := by
  unfold rotN
  dsimp only
  exact Nat.or_lt_two_pow (Nat.mod_lt _ (by positivity)) (lt_of_le_of_lt (Nat.div_le_self _ _) ha)

theorem testBit_fshlN (w a b n i : Nat) (h : i < w) (hb : b < 2 ^ w) :
    (fshlN w a b n).testBit i = if i < n % w then b.testBit (i + w - n % w) else a.testBit (i - n % w) := by
  have hk := Nat.mod_lt n (by omega : w > 0)
  unfold fshlN
  dsimp only
  generalize n % w = k at *
  rw [Nat.testBit_mod_two_pow, Nat.testBit_div_two_pow, Nat.mul_comm _ (2 ^ k), Nat.testBit_two_pow_mul,
    Nat.mul_comm a, Nat.testBit_two_pow_mul_add _ hb]
  rw [decide_eq_true h, decide_eq_true (by omega : i + w ≥ k), Bool.true_and, Bool.true_and]
  by_cases hi : i < k
  · rw [if_pos hi, if_pos (by omega)]
  · rw [if_neg hi, if_neg (by omega)]; congr 1; omega

theorem fshlN_lt (w a b n : Nat) : fshlN w a b n < 2 ^ w := Nat.mod_lt _ (by positivity)

theorem brevN_aux (w a k : Nat) (hk : k ≤ w) :
    ((List.range k).foldl (fun r i => if a.testBit i then r + 2 ^ (w - 1 - i) else r) 0) % 2 ^ (w - k) = 0
      ∧ ((List.range k).foldl (fun r i => if a.testBit i then r + 2 ^ (w - 1 - i) else r) 0) < 2 ^ w
      ∧ ∀ i, ((List.range k).foldl (fun r i => if a.testBit i then r + 2 ^ (w - 1 - i) else r) 0).testBit i
          = (decide (w - k ≤ i) && decide (i < w) && a.testBit (w - 1 - i)) := by
  induction k with
  | zero => refine ⟨by simp, by simp, fun i => ?_⟩; simp
  | succ k ih =>
    obtain ⟨h1, h2, h3⟩ := ih (by omega)
    rw [List.range_succ, List.foldl_append, List.foldl_cons, List.foldl_nil]
    generalize (List.range k).foldl (fun r i => if a.testBit i then r + 2 ^ (w - 1 - i) else r) 0 = r at *
    have hp : 2 ^ (w - k) = 2 * 2 ^ (w - (k + 1)) := by rw [← Nat.pow_succ']; congr 1; omega
    obtain ⟨q, rfl⟩ : ∃ q, r = 2 ^ (w - k) * q := ⟨r / 2 ^ (w - k), by rw [Nat.mul_div_cancel' (Nat.dvd_of_mod_eq_zero h1)]⟩
    have e : w - 1 - k = w - (k + 1) := by omega
    have bit : ∀ c, c < 2 → ∀ i, (c * 2 ^ (w - (k + 1)) + 2 ^ (w - k) * q).testBit i
        = if i = w - (k + 1) then decide (c = 1) else (2 ^ (w - k) * q).testBit i := by
      intro c hc i
      have hlt : c * 2 ^ (w - (k + 1)) < 2 ^ (w - k) := by
        rw [hp]; exact Nat.mul_lt_mul_of_pos_right hc (by positivity)
      rw [testBit_add_disjoint _ _ _ _ hlt, Nat.testBit_two_pow_mul]
      have hc' : c = 0 ∨ c = 1 := by omega
      rcases hc' with rfl | rfl
      · simp only [Nat.zero_mul, Nat.zero_testBit]
        split
        · rename_i h; have : ¬ w - k ≤ i := by omega
          simp [this]
        · rename_i h
          rw [if_neg (by omega)]; simp; intro; omega
      · simp only [Nat.one_mul, Nat.testBit_two_pow]
        split
        · rename_i h
          have : ¬ w - k ≤ i := by omega
          by_cases hi : i = w - (k + 1)
          · simp [hi]
          · simp [hi, this]; omega
        · rename_i h
          rw [if_neg (by omega)]; simp; intro; omega
    have pos : 0 < 2 ^ (w - (k + 1)) := by positivity
    cases ht : a.testBit k
    · simp only [Bool.false_eq_true, if_false]
      refine ⟨?_, h2, fun i => ?_⟩
      · rw [hp, Nat.mul_comm 2, Nat.mul_assoc]; exact Nat.mul_mod_right _ _
      · rw [h3]
        by_cases hi : i = w - (k + 1)
        · subst hi
          have : w - 1 - (w - (k + 1)) = k := by omega
          simp [this, ht]
        · congr 2
          simp only [decide_eq_decide]; omega
    · simp only [if_true]
      rw [e, Nat.add_comm]
      refine ⟨?_, ?_, fun i => ?_⟩
      · have : 2 ^ (w - (k + 1)) + 2 ^ (w - k) * q = 2 ^ (w - (k + 1)) * (1 + 2 * q) := by rw [hp]; ring
        rw [this]; exact Nat.mul_mod_right _ _
      · have hw : 2 ^ w = 2 ^ (w - k) * 2 ^ k := by rw [← Nat.pow_add]; congr 1; omega
        have hq : q < 2 ^ k := by rw [hw] at h2; exact Nat.lt_of_mul_lt_mul_left h2
        have h4 : 2 ^ (w - (k + 1)) < 2 ^ (w - k) := by rw [hp]; omega
        have h5 : 2 ^ (w - k) * (q + 1) ≤ 2 ^ w := by rw [hw]; exact Nat.mul_le_mul_left _ hq
        rw [Nat.mul_add, Nat.mul_one] at h5
        omega
      · have := bit 1 (by decide) i
        rw [Nat.one_mul] at this
        rw [this, h3]
        by_cases hi : i = w - (k + 1)
        · subst hi
          have : w - 1 - (w - (k + 1)) = k := by omega
          simp [this, ht]; omega
        · simp only [hi, if_false]
          congr 2
          simp only [decide_eq_decide]; omega

theorem testBit_brevN (w a i : Nat) (h : i < w) : (brevN w a).testBit i = a.testBit (w - 1 - i) := by
  have := (brevN_aux w a w le_rfl).2.2 i
  unfold brevN; rw [this]; simp [h]

theorem brevN_lt (w a : Nat) : brevN w a < 2 ^ w := (brevN_aux w a w le_rfl).2.1

theorem popcN_card (w a : Nat) : popcN w a = ((Finset.range w).filter fun i => a.testBit i).card := by
  unfold popcN
  rw [Finset.card_def, Finset.filter_val, Finset.range_val, Multiset.range, Multiset.filter_coe, Multiset.coe_card]
  simp

theorem clzN_spec (w a : Nat) (ha : a < 2 ^ w) (h0 : a ≠ 0) :
    clzN w a < w ∧ a.testBit (w - 1 - clzN w a) = true ∧ ∀ i, w - 1 - clzN w a < i → a.testBit i = false := by
  have hl : Nat.log2 a < w := (Nat.log2_lt h0).2 ha
  unfold clzN
  rw [if_neg h0]
  have e : w - 1 - (w - 1 - Nat.log2 a) = Nat.log2 a := by omega
  refine ⟨by omega, ?_, fun i hi => ?_⟩
  · rw [e]; exact Nat.testBit_log2 h0
  · rw [e] at hi
    exact testBit_high (Nat.lt_log2_self) (by omega)

theorem ctzN_spec (w a : Nat) (ha : a < 2 ^ w) (h0 : a ≠ 0) :
    a.testBit (ctzN w a) = true ∧ ∀ i, i < ctzN w a → a.testBit i = false := by
  unfold ctzN
  obtain ⟨j, hj⟩ := Nat.exists_testBit_of_ne_zero h0
  have hjw : j < w := by
    by_contra h
    rw [testBit_high ha (by omega)] at hj; exact absurd hj (by decide)
  cases hf : (List.range w).find? a.testBit with
  | none =>
    rw [List.find?_eq_none] at hf
    exact absurd hj (hf j (List.mem_range.2 hjw))
  | some d =>
    rw [Option.getD_some]
    refine ⟨List.find?_some hf, fun i hi => ?_⟩
    rw [List.find?_range_eq_some] at hf
    simpa using hf.2.2 i hi

theorem bfiBits_lt (w a b c : Nat) (hb : b < 2 ^ w) : bfiBits w a b c < 2 ^ w := by
  unfold bfiBits
  dsimp only
  exact Nat.or_lt_two_pow (lt_of_le_of_lt Nat.and_le_left hb) (Nat.mod_lt _ (by positivity))

theorem testBit_bfiBits (w a b c i : Nat) (h : i < w) :
    (bfiBits w a b c).testBit i =
      if c % 2 ^ 8 ≤ i ∧ i < c % 2 ^ 8 + c / 2 ^ 8 % 2 ^ 8 then a.testBit (i - c % 2 ^ 8) else b.testBit i := by
  have e1 : bitsOf c 0 8 = c % 2 ^ 8 := by simp [bitsOf]
  have e2 : bitsOf c 8 8 = c / 2 ^ 8 % 2 ^ 8 := by simp [bitsOf, Nat.shiftRight_eq_div_pow]
  unfold bfiBits
  rw [e1, e2]
  generalize c % 2 ^ 8 = pos
  generalize c / 2 ^ 8 % 2 ^ 8 = len
  dsimp only
  rw [Nat.testBit_or, Nat.testBit_and, testBit_notN _ _ _ h, Nat.testBit_mod_two_pow, Nat.testBit_mod_two_pow,
    Nat.mul_comm _ (2 ^ pos), Nat.testBit_two_pow_mul, Nat.testBit_two_pow_sub_one, Nat.mul_comm _ (2 ^ pos),
    Nat.testBit_two_pow_mul, Nat.testBit_mod_two_pow]
  by_cases h1 : pos ≤ i <;> by_cases h2 : i < pos + len
  · have : i - pos < len := by omega
    simp [h, h1, h2, this]
  · have : ¬ i - pos < len := by omega
    simp [h, h1, h2, this]
  · simp [h1]
  · simp [h1]

theorem ctzN_zero (w : Nat) : ctzN w 0 = w := by
  unfold ctzN
  rw [List.find?_eq_none.2 (by simp)]; rfl

/-- Bit j of an operand extended without end by its type's signedness. -/
def extBit (ty : Ty) (r j : Nat) : Bool := if j < ty.width then r.testBit j else ty.signed && r.testBit (ty.width - 1)

theorem emod_two_shift (r j : Nat) : (r.testBit j = true) ↔ (r / 2 ^ j) % 2 = 1 := by
  rw [Nat.testBit_eq_decide_div_mod_eq]; simp

theorem intOf_bit (ty : Ty) (r j : Nat) (hw : 0 < ty.width) (hr : r < 2 ^ ty.width) :
    (intOf ty r / 2 ^ j % 2 = 1) ↔ extBit ty r j = true := by
  have hN : ∀ a : Nat, ((a : Int) / 2 ^ j % 2 = 1) ↔ (a / 2 ^ j) % 2 = 1 := by
    intro a
    have : (a : Int) / 2 ^ j % 2 = ((a / 2 ^ j % 2 : Nat) : Int) := by push_cast; rfl
    rw [this]; omega
  have htop : (ty.signed && decide (r ≥ 2 ^ (ty.width - 1))) = (ty.signed && r.testBit (ty.width - 1)) := by
    cases ty.signed
    · rfl
    · simp only [Bool.true_and]
      have h2 : 2 ^ ty.width = 2 ^ (ty.width - 1) * 2 := by rw [← Nat.pow_succ]; congr 1; omega
      have hd : r / 2 ^ (ty.width - 1) < 2 := by rw [Nat.div_lt_iff_lt_mul (by positivity)]; omega
      rw [Bool.eq_iff_iff, emod_two_shift, Nat.mod_eq_of_lt hd, decide_eq_true_eq]
      constructor
      · intro h; have := (Nat.le_div_iff_mul_le (by positivity : 0 < 2 ^ (ty.width - 1))).2 (by simpa using h : 1 * _ ≤ r); omega
      · intro h; have := (Nat.le_div_iff_mul_le (by positivity : 0 < 2 ^ (ty.width - 1))).1 (le_of_eq h.symm); omega
  unfold intOf extBit
  rw [Nat.mod_eq_of_lt hr]
  dsimp only
  rw [htop]
  by_cases hs : (ty.signed && r.testBit (ty.width - 1)) = true
  · rw [if_pos hs]
    by_cases hj : j < ty.width
    · rw [if_pos hj]
      have e : (2 : Int) ^ ty.width = 2 ^ j * (2 * 2 ^ (ty.width - j - 1)) := by rw [← pow_succ', ← pow_add]; congr 1; omega
      have : ((r : Int) - 2 ^ ty.width) / 2 ^ j % 2 = (r : Int) / 2 ^ j % 2 := by
        rw [e, Int.sub_mul_ediv_left _ _ (by positivity)]; omega
      rw [this, hN, emod_two_shift]
    · rw [if_neg hj, hs]
      have hlt : (2 : Int) ^ ty.width ≤ 2 ^ j := by exact_mod_cast Nat.pow_le_pow_right (by decide) (by omega)
      have hr' : (r : Int) < 2 ^ ty.width := by exact_mod_cast hr
      have : ((r : Int) - 2 ^ ty.width) / 2 ^ j = -1 := by
        rw [Int.ediv_eq_iff_of_pos (by positivity)]; constructor <;> omega
      rw [this]; simp
  · rw [if_neg hs, hN]
    by_cases hj : j < ty.width
    · rw [if_pos hj, emod_two_shift]
    · rw [if_neg hj]
      have : r / 2 ^ j = 0 := Nat.div_eq_of_lt (lt_of_lt_of_le hr (Nat.pow_le_pow_right (by decide) (by omega)))
      rw [this]; simp [hs]

theorem bfxBits_lt (ty : Ty) (a : Int) (c : Nat) : bfxBits ty a c < 2 ^ ty.width := by
  unfold bfxBits
  dsimp only
  split
  · positivity
  · exact wrap_lt _ _

theorem testBit_bfxBits (ty : Ty) (r c i : Nat) (h : i < ty.width) (hr : r < 2 ^ ty.width) :
    let pos := c % 2 ^ 8
    let len := min (c / 2 ^ 8 % 2 ^ 8) ty.width
    (bfxBits ty (intOf ty r) c).testBit i =
      if i < len then extBit ty r (pos + i) else decide (0 < len) && ty.signed && extBit ty r (pos + len - 1) := by
  have e1 : bitsOf c 0 8 = c % 2 ^ 8 := by simp [bitsOf]
  have e2 : bitsOf c 8 8 = c / 2 ^ 8 % 2 ^ 8 := by simp [bitsOf, Nat.shiftRight_eq_div_pow]
  unfold bfxBits
  rw [e1, e2]
  generalize c % 2 ^ 8 = pos
  have hlen : min (c / 2 ^ 8 % 2 ^ 8) ty.width ≤ ty.width := min_le_right _ _
  generalize min (c / 2 ^ 8 % 2 ^ 8) ty.width = len at *
  dsimp only
  by_cases h0 : len = 0
  · simp [h0]
  · rw [if_neg h0, Int.fdiv_eq_ediv_of_nonneg _ (by positivity)]
    obtain ⟨f, hf⟩ : ∃ f : Nat, intOf ty r / 2 ^ pos % 2 ^ len = (f : Int) :=
      ⟨(intOf ty r / 2 ^ pos % 2 ^ len).toNat, (Int.toNat_of_nonneg (Int.emod_nonneg _ (by positivity))).symm⟩
    have hfl : f < 2 ^ len := by
      have := Int.emod_lt_of_pos (intOf ty r / 2 ^ pos) (b := 2 ^ len) (by positivity)
      rw [hf] at this; exact_mod_cast this
    have hbit : ∀ j, j < len → f.testBit j = extBit ty r (pos + j) := by
      intro j hj
      rw [Bool.eq_iff_iff, ← intOf_bit ty r (pos + j) (by omega) hr, emod_two_shift]
      have e : (2 : Int) ^ len = 2 ^ j * (2 * 2 ^ (len - j - 1)) := by rw [← pow_succ', ← pow_add]; congr 1; omega
      have : ((f / 2 ^ j % 2 : Nat) : Int) = intOf ty r / 2 ^ (pos + j) % 2 := by
        push_cast
        rw [← hf, pow_add, ← Int.ediv_ediv_of_nonneg (by positivity), e]
        generalize intOf ty r / 2 ^ pos = q
        have hq := Int.emod_add_mul_ediv q (2 ^ j * (2 * 2 ^ (len - j - 1)))
        generalize hz : q / (2 ^ j * (2 * 2 ^ (len - j - 1))) = z at *
        have e9 : 2 ^ j * (2 * 2 ^ (len - j - 1)) * z = 2 ^ j * (2 * (2 ^ (len - j - 1) * z)) := by ring
        rw [e9] at hq
        have : q % (2 ^ j * (2 * 2 ^ (len - j - 1))) = q - 2 ^ j * (2 * (2 ^ (len - j - 1) * z)) := by linarith
        rw [this, Int.sub_mul_ediv_left _ _ (by positivity)]; omega
      omega
    rw [hf]
    have htop : (ty.signed = true ∧ (f : Int) ≥ 2 ^ (len - 1)) ↔ (ty.signed && extBit ty r (pos + len - 1)) = true := by
      rw [Bool.and_eq_true, show pos + len - 1 = pos + (len - 1) by omega, ← hbit (len - 1) (by omega), emod_two_shift]
      have h2 : 2 ^ len = 2 ^ (len - 1) * 2 := by rw [← Nat.pow_succ]; congr 1; omega
      have hd : f / 2 ^ (len - 1) < 2 := by rw [Nat.div_lt_iff_lt_mul (by positivity)]; omega
      rw [Nat.mod_eq_of_lt hd]
      refine and_congr_right fun _ => ?_
      have hc : ((2 ^ (len - 1) : Nat) : Int) = 2 ^ (len - 1) := by push_cast; rfl
      rw [← hc]
      constructor
      · intro h
        have := (Nat.le_div_iff_mul_le (by positivity : 0 < 2 ^ (len - 1))).2 (by omega : 1 * 2 ^ (len - 1) ≤ f); omega
      · intro h; have := (Nat.le_div_iff_mul_le (by positivity : 0 < 2 ^ (len - 1))).1 (le_of_eq h.symm); omega
    have hw : 2 ^ len ≤ 2 ^ ty.width := Nat.pow_le_pow_right (by decide) hlen
    have hcl : ((2 ^ len : Nat) : Int) = 2 ^ len := by push_cast; rfl
    have hcw : ((2 ^ ty.width : Nat) : Int) = 2 ^ ty.width := by push_cast; rfl
    by_cases hs : (ty.signed && extBit ty r (pos + len - 1)) = true
    · rw [if_pos (htop.2 hs)]
      have : wrap ty.width ((f : Int) - 2 ^ len) = f + 2 ^ len * (2 ^ (ty.width - len) - 1) := by
        have e3 : 2 ^ len * (2 ^ (ty.width - len) - 1) = 2 ^ ty.width - 2 ^ len := by
          rw [Nat.mul_sub, ← Nat.pow_add, Nat.mul_one]; congr 2; omega
        rw [e3]; unfold wrap
        rw [← Int.add_emod_right, Int.emod_eq_of_lt (by omega) (by omega)]; omega
      rw [this, testBit_add_disjoint _ _ _ _ hfl]
      split
      · exact hbit i ‹_›
      · rw [Nat.testBit_two_pow_sub_one, Bool.and_assoc, hs]; simp; omega
    · rw [if_neg (fun c => hs (htop.1 c))]
      have : wrap ty.width (f : Int) = f := by
        unfold wrap; rw [Int.emod_eq_of_lt (by omega) (by omega)]; omega
      rw [this]
      split
      · exact hbit i ‹_›
      · rw [Bool.and_assoc]
        simp only [Bool.not_eq_true] at hs
        rw [hs, Bool.and_false]; exact testBit_high hfl (by omega)

end Machine

end Sys2Proof
end

