-- ==== Sys2Proof/Tests/Slice0.lean ====
section
/-!
SUPPORT. Tests: an ill-formed term for each check of well-formedness, a word for every form as the spec's encoding tables give it,
and for every statement a state and operands that meet its hypotheses.
-/

open Sys2Proof Sys2Proof.Machine

namespace Sys2Proof.Tests

/-! ## States to try things on -/

/-- Guard true, no hints. -/
def ctl : Ctl := ⟨⟨false, 7⟩, ⟨0, false, 7, 0⟩⟩
/-- A loaded program whose next word is the given one, its group and PC chosen. -/
def placed (w : Nat) : State := (State.reset.withFetchWord 96 w).at_ 0 0
/-- The same with an instruction's word. -/
def with_ (i : Instr) : State := placed (encode i).toNat
/-- The group changed. -/
def grp (s : State) (f : Group → Group) : State := { s with groups := upd s.groups 0 f }
/-- The team changed. -/
def team (s : State) (f : Team → Team) : State := { s with teams := upd s.teams 0 f }
/-- The instruction issues in the state, and its view and execution mask meet a condition. -/
def meets (i : Instr) (s : State) (p : View → Mask → Bool) : Bool :=
  match s.view? with
  | none => false
  | some v =>
    let w := v.firstReads i.uses.srcs
    let m := w.execMask i.uses.ctl.guard
    i.uses.legal && i.uses.regsOk w.g.regs && w.privOk i.uses.priv && m != 0
      && (w.operandError i.uses m).isNone && p w m

/-- What `meets` finds is a witness of the hypotheses of a statement about the instruction. -/
theorem issues_of_meets (i : Instr) (s : State) (p : View → Mask → Bool) (h : meets i s p = true) :
    ∃ w m, Issues i s w m ∧ p w m = true := by
  unfold meets at h
  cases hv : s.view? with
  | none => simp [hv] at h
  | some v =>
    simp only [hv, Bool.and_eq_true, bne_iff_ne, ne_eq, Option.isNone_iff_eq_none] at h
    exact ⟨_, _, ⟨by simp [hv], h.1.1.1.1.1, h.1.1.1.1.2, h.1.1.1.2, rfl, h.1.1.2, h.1.2⟩, h.2⟩

/-! ## Words of every form, field by field from the encoding tables (R33 to R50 and the tables of the classes) -/

/-- Class 0x0, scalar integer (R107). -/
def words0 : List (Nat × Instr) := [
  (0x001C020408000003800001C0, .mov { ctl := ctl, ty := .b128, d := .v 4 false, a := .s 2 .plain }),
  (0x005C848002F3626800BBC1C0, .movi { ctl := ctl, mode := .hi, d := .s 9, imm := 0x89ABCDEF }),
  (0x009C81801C000003400001C0, .movs { ctl := ctl, ty := .b32, d := .s 3, a := .v 7 .plain }),
  (0x00DC028408E0C003400001C0, .movv { ctl := ctl, ty := .b32, d := .v 5 false, a := .s 2 .plain, b := .imm 3 }),
  (0x011C028018FEC000E01001C0, .iadd { ctl := ctl, ty := .i32, sat := true, d := .v 5 false, a := .v 6 .plain, b := .imm 123 }),
  (0x015C030020028885400081C0, .iaddc { ctl := ctl, ty := .n64, d := .v 6 false, co := 2, a := .v 8 .plain, b := .v 10 .plain, ci := .p 1 }),
  (0x019C030020028001400001C0, .isub { ctl := ctl, ty := .n64, sat := false, d := .v 6 false, a := .v 8 .plain, b := .v 10 .plain }),
  (0x01DC02801801C8410000C1C0, .isubb { ctl := ctl, ty := .n32, d := .v 5 false, co := 3, a := .v 6 .plain, b := .v 7 .plain, ci := .zero }),
  (0x021C02801801C001000001C0, .imul { ctl := ctl, ty := .n32, sat := false, d := .v 5 false, a := .v 6 .plain, b := .v 7 .plain }),
  (0x025C030020028001200001C0, .imulh { ctl := ctl, ty := .i64, d := .v 6 false, a := .v 8 .plain, b := .v 10 .plain }),
  (0x029C02801801C020E00001C0, .imad { ctl := ctl, ty := .i32, sat := false, d := .v 5 false, a := .v 6 .plain, b := .v 7 .plain, c := .v 8 .plain }),
  (0x02DC030020024029001001C0, .imadw { ctl := ctl, ty := .n32, sat := true, d := .v 6 false, a := .v 8 .plain, b := .v 9 .plain, c := .v 10 .plain }),
  (0x031C02801801C000E01001C0, .idiv { ctl := ctl, ty := .i32, sat := true, d := .v 5 false, a := .v 6 .plain, b := .v 7 .plain }),
  (0x035C030020028001400001C0, .irem { ctl := ctl, ty := .n64, d := .v 6 false, a := .v 8 .plain, b := .v 10 .plain }),
  (0x039C02801801C000E00001C0, .imin { ctl := ctl, ty := .i32, d := .v 5 false, a := .v 6 .plain, b := .v 7 .plain }),
  (0x03DC02801801C001000001C0, .imax { ctl := ctl, ty := .n32, d := .v 5 false, a := .v 6 .plain, b := .v 7 .plain }),
  (0x041C028018000000E01001C0, .iabs { ctl := ctl, ty := .i32, sat := true, d := .v 5 false, a := .v 6 .plain }),
  (0x045C030020000001200001C0, .ineg { ctl := ctl, ty := .i64, sat := false, d := .v 6 false, a := .v 8 .plain }),
  (0x049C02801841C003400001C0, .and { ctl := ctl, ty := .b32, d := .v 5 false, a := .v 6 .plain, b := .s 7 .plain }),
  (0x04DC030020028003600001C0, .or { ctl := ctl, ty := .b64, d := .v 6 false, a := .v 8 .plain, b := .v 10 .plain }),
  (0x051C028018C24003400001C0, .xor { ctl := ctl, ty := .b32, d := .v 5 false, a := .v 6 .plain, b := .k 9 }),
  (0x055C828418E1C003400001C0, .andn { ctl := ctl, ty := .b32, d := .s 5, a := .s 6 .plain, b := .imm 7 }),
  (0x059C028018000003400001C0, .not { ctl := ctl, ty := .b32, d := .v 5 false, a := .v 6 .plain }),
  (0x05DC03002000C003600001C0, .shl { ctl := ctl, ty := .b64, d := .v 6 false, a := .v 8 .plain, b := .v 3 .plain }),
  (0x061C028018E7C003400001C0, .shr { ctl := ctl, ty := .b32, d := .v 5 false, a := .v 6 .plain, b := .imm 31 }),
  (0x065C02801801C003400001C0, .sar { ctl := ctl, ty := .b32, d := .v 5 false, a := .v 6 .plain, b := .v 7 .plain }),
  (0x069C02801801C003400001C0, .rot { ctl := ctl, ty := .b32, d := .v 5 false, a := .v 6 .plain, b := .v 7 .plain }),
  (0x06DC02801801C023400001C0, .fshl { ctl := ctl, ty := .b32, d := .v 5 false, a := .v 6 .plain, b := .v 7 .plain, c := .v 8 .plain }),
  (0x071C028018000003600001C0, .popc { ctl := ctl, ty := .b64, d := .v 5 false, a := .v 6 .plain }),
  (0x075C028018000003400001C0, .clz { ctl := ctl, ty := .b32, d := .v 5 false, a := .v 6 .plain }),
  (0x079C028018000003400001C0, .ctz { ctl := ctl, ty := .b32, d := .v 5 false, a := .v 6 .plain }),
  (0x07DC028018000003400001C0, .brev { ctl := ctl, ty := .b32, d := .v 5 false, a := .v 6 .plain }),
  (0x081C02801801C000E00001C0, .bfx { ctl := ctl, ty := .i32, d := .v 5 false, a := .v 6 .plain, b := .v 7 .plain }),
  (0x085C02801801C023400001C0, .bfi { ctl := ctl, ty := .b32, d := .v 5 false, a := .v 6 .plain, b := .v 7 .plain, c := .v 8 .plain }),
  (0x089D01001801C885006A01C0, .isetp { ctl := ctl, ty := .n32, cmp := .ge, bop := .xor, negc := true, pd := 2, a := .v 6 .plain, b := .v 7 .plain, pc := 1 }),
  (0x08DC02801801C88F400201C0, .isel { ctl := ctl, ty := .b32, negc := true, d := .v 5 false, a := .v 6 .plain, b := .v 7 .plain, pc := 3 }),
  (0x091C030020028E24E00141C0, .lea { ctl := ctl, ty := .i32, sh := 5, d := .v 6 false, a := .v 8 .plain, b := .v 10 .plain, c := .imm 9 }),
  (0x095C020020028001004001C0, .leax { ctl := ctl, ty := .n32, mode := .join, d := .v 4 false, a := .v 8 .plain, b := .v 10 .plain })]

/-- Class 0x1, scalar floating (R121). -/
def words1 : List (Nat × Instr) := [
  (0x101C02801801C001A03001C0, .fadd { ctl := ctl, ty := .f32, rm := .rz, sat := true, d := .v 5 false, a := .v 6 .plain, b := .v 7 .plain }),
  (0x105C02801801C001A04001C0, .fsub { ctl := ctl, ty := .f32, rm := .ru, sat := false, d := .v 5 false, a := .v 6 .plain, b := .v 7 .plain }),
  (0x109C028018E08001A06001C0, .fmul { ctl := ctl, ty := .f32, rm := .rd, sat := false, d := .v 5 false, a := .v 6 .plain, b := .imm 2 }),
  (0x10DC02801801C021A08001C0, .ffma { ctl := ctl, ty := .f32, rm := .rna, sat := false, d := .v 5 false, a := .v 6 .plain, b := .v 7 .plain, c := .v 8 .plain }),
  (0x111C02801801C001A00801C0, .fmin { ctl := ctl, ty := .f32, nanp := true, d := .v 5 false, a := .v 6 .plain, b := .v 7 .plain }),
  (0x115C02801801C001A00001C0, .fmax { ctl := ctl, ty := .f32, nanp := false, d := .v 5 false, a := .v 6 .plain, b := .v 7 .plain }),
  (0x119D01001801C885A0E401C0, .fsetp { ctl := ctl, ty := .f32, cmp := .geu, bop := .or, negc := false, pd := 2, a := .v 6 .plain, b := .v 7 .plain, pc := 1 }),
  (0x11DC028018000001C00001C0, .fclass { ctl := ctl, ty := .f64, d := .v 5 false, a := .v 6 .plain }),
  (0x121C02801801C001601001C0, .fscale { ctl := ctl, ty := .f16, rm := .rne, sat := true, d := .v 5 false, a := .v 6 .plain, b := .v 7 .plain }),
  (0x125C028018000001A02801C0, .frnd { ctl := ctl, ty := .f32, rm := .rz, x := true, d := .v 5 false, a := .v 6 .plain }),
  (0x129C02801801C001600001C0, .hadd2 { ctl := ctl, ty := .f16, rm := .rne, sat := false, d := .v 5 false, a := .v 6 .plain, b := .v 7 .plain }),
  (0x12DC02801801C001803001C0, .hmul2 { ctl := ctl, ty := .bf16, rm := .rz, sat := true, d := .v 5 false, a := .v 6 .plain, b := .v 7 .plain }),
  (0x131C02801801C021604001C0, .hfma2 { ctl := ctl, ty := .f16, rm := .ru, sat := false, d := .v 5 false, a := .v 6 .plain, b := .v 7 .plain, c := .v 8 .plain }),
  (0x135C02801801C001600001C0, .hmin2 { ctl := ctl, ty := .f16, nanp := false, d := .v 5 false, a := .v 6 .plain, b := .v 7 .plain }),
  (0x139C02801801C001800801C0, .hmax2 { ctl := ctl, ty := .bf16, nanp := true, d := .v 5 false, a := .v 6 .plain, b := .v 7 .plain }),
  (0x13DC030020028001C00001C0, .dadd { ctl := ctl, ty := .f64, rm := .rne, sat := false, d := .v 6 false, a := .v 8 .plain, b := .v 10 .plain }),
  (0x141C030020028001C07001C0, .dmul { ctl := ctl, ty := .f64, rm := .rd, sat := true, d := .v 6 false, a := .v 8 .plain, b := .v 10 .plain }),
  (0x145C030020028031C00001C0, .dfma { ctl := ctl, ty := .f64, rm := .rne, sat := false, d := .v 6 false, a := .v 8 .plain, b := .v 10 .plain, c := .v 12 .plain }),
  (0x149D010018020885C08001C0, .dsetp { ctl := ctl, ty := .f64, cmp := .nan, bop := .and, negc := false, pd := 2, a := .v 6 .plain, b := .v 8 .plain, pc := 1 }),
  (0x14DC030020028001C00801C0, .dmin { ctl := ctl, ty := .f64, nanp := true, d := .v 6 false, a := .v 8 .plain, b := .v 10 .plain }),
  (0x151C030020028001C00001C0, .dmax { ctl := ctl, ty := .f64, nanp := false, d := .v 6 false, a := .v 8 .plain, b := .v 10 .plain })]

/-- Class 0x2, conversions and special functions (R82, R128). -/
def words2 : List (Nat × Instr) := [
  (0x201C028018000001A00001C0, .rcp { ctl := ctl, d := .v 5 false, a := .v 6 .plain }),
  (0x205C02801C000001A00001C0, .rsq { ctl := ctl, d := .v 5 false, a := .v 7 .plain }),
  (0x209C028020000001A00001C0, .sqrt { ctl := ctl, d := .v 5 false, a := .v 8 .plain }),
  (0x20DC028024000001A00001C0, .ex2 { ctl := ctl, d := .v 5 false, a := .v 9 .plain }),
  (0x211C028028000001A00001C0, .lg2 { ctl := ctl, d := .v 5 false, a := .v 10 .plain }),
  (0x215C02802C000001A00001C0, .sinpi { ctl := ctl, d := .v 5 false, a := .v 11 .plain }),
  (0x219C028030000001A00001C0, .cospi { ctl := ctl, d := .v 5 false, a := .v 12 .plain }),
  (0x21DC028034000001A00001C0, .tanh { ctl := ctl, d := .v 5 false, a := .v 13 .plain }),
  (0x221C0280180000016D9001C0, .cvtff { ctl := ctl, dt := .f16, st := .f32, rm := .rna, sat := true, d := .v 5 false, a := .v 6 .plain }),
  (0x225C028018000000ED2001C0, .cvtfi { ctl := ctl, dt := .i32, st := .f32, rm := .rz, sat := false, d := .v 5 false, a := .v 6 .plain }),
  (0x229C028018000001A84001C0, .cvtif { ctl := ctl, dt := .f32, st := .n32, rm := .ru, sat := false, d := .v 5 false, a := .v 6 .plain }),
  (0x22DC02801801C0220D1041C0, .packn { ctl := ctl, dt := .e4m3, st := .f32, rm := .rne, sat := true, p := 1, d := .v 5 false, a := .v 6 .plain, b := .v 7 .plain, c := .v 8 .plain }),
  (0x231C028018000001AF00C1C0, .unpackn { ctl := ctl, dt := .f32, st := .e5m2, i := 3, d := .v 5 false, a := .v 6 .plain }),
  (0x235C02801801C001B40081C0, .scaleb { ctl := ctl, dt := .f32, rm := .rne, sat := false, j := 2, d := .v 5 false, a := .v 6 .plain, b := .v 7 .plain }),
  (0x239C028000000003400001C0, .rand { ctl := ctl, ty := .b32, d := .v 5 false }),
  (0x23DC0280180000026D0001C0, .cvtsr { ctl := ctl, dt := .e2m1, st := .f32, rm := .rne, sat := false, d := .v 5 false, a := .v 6 .plain })]

/-- Class 0x3, cross-thread (R157). -/
def words3 : List (Nat × Instr) := [
  (0x301C000000000000000101C0, .part { ctl := ctl, log2s := 4 }),
  (0x305C02888800000000C201C0, .vote { ctl := ctl, mode := .ballot, nega := true, d := .v 5 false, pa := 2 }),
  (0x309C028018E04003408101C0, .shfl { ctl := ctl, ty := .b32, mode := .down, pv := 4, d := .v 5 false, a := .v 6 .plain, b := .imm 1 }),
  (0x30DC028018000000E04001C0, .redux { ctl := ctl, ty := .i32, op := .max, d := .v 5 false, a := .v 6 .plain }),
  (0x311C02801800000340B001C0, .scan { ctl := ctl, ty := .b32, op := .xor, excl := true, d := .v 5 false, a := .v 6 .plain }),
  (0x315C028018000003600001C0, .match_ { ctl := ctl, ty := .b64, d := .v 5 false, a := .v 6 .plain }),
  (0x319D018000000000000001C0, .elect { ctl := ctl, pd := 3 }),
  (0x31DC028018000003400001C0, .bcast { ctl := ctl, ty := .b32, d := .v 5 false, a := .v 6 .plain })]

/-- Class 0x4, control (R143). -/
def words4 : List (Nat × Instr) := [
  (0x401C00000115848C001E01C0, .bra { ctl := ctl, imm := 0x12345678 }),
  (0x405C000018000000000001C0, .brx { ctl := ctl, a := .v 6 .plain }),
  (0x409C028000004000000081C0, .call { ctl := ctl, d := 5, imm := 0x00000102 }),
  (0x40DC028018000000000001C0, .callx { ctl := ctl, d := 5, a := .v 6 .plain }),
  (0x411C000018000000000001C0, .ret { ctl := ctl, a := .v 6 .plain }),
  (0x415C000000000000000001C0, .land { ctl := ctl }),
  (0x419C000000000000000001C0, .exit { ctl := ctl }),
  (0x41DC000000000000000001C0, .yield { ctl := ctl }),
  (0x421C000000000000000001C0, .pause { ctl := ctl }),
  (0x429C000000000000000001C0, .nop { ctl := ctl }),
  (0x425C000EF0000000000001C0, .sleep { ctl := ctl, a := .imm 60 }),
  (0x42DDB28000000000000041C0, .cbarm { ctl := ctl, or := true, n := 5 }),
  (0x431C000994000000000001C0, .cbwait { ctl := ctl, n := 5 }),
  (0x435C000000000000000241C0, .bar { ctl := ctl, b := 9 }),
  (0x439C000000000000000081C0, .barc { ctl := ctl, b := 2 })]

/-- Class 0x5, memory (R193). -/
def words5 : List (Nat × Instr) := [
  (0x501C02840801C00067FFC1C0, .ld { ctl := ctl, ty := .i8, var := true, d := .v 5 false, ad := ⟨.s 2 .plain, .v 7 .plain, 1, true, 1023⟩ }),
  (0x505C00002001C01B308001C0, .st { ctl := ctl, ty := .b16, var := false, ad := ⟨.v 8 .plain, .v 7 .plain, 4, false, 512⟩, c := .v 6 .plain }),
  (0x509C030020840003617FC1C0, .lds { ctl := ctl, ty := .b64, var := true, d := .v 6 false, ad := ⟨.v 8 .plain, .zero, 0, false, 511⟩ }),
  (0x50DC00002084001B400041C0, .sts { ctl := ctl, ty := .b32, var := false, ad := ⟨.v 8 .plain, .zero, 0, false, 1⟩, c := .v 6 .plain }),
  (0x511C028840840003400081C0, .ldp { ctl := ctl, ty := .b32, var := false, d := .v 5 false, ad := ⟨.zero, .zero, 0, false, 2⟩ }),
  (0x515C00084084001B600041C0, .stp { ctl := ctl, ty := .b64, var := false, ad := ⟨.zero, .zero, 0, false, 1⟩, c := .v 6 .plain }),
  (0x519C020020840003800001C0, .ldx { ctl := ctl, ty := .b128, var := false, d := .v 4 false, ad := ⟨.v 8 .plain, .zero, 0, false, 0⟩ }),
  (0x51DC00002084001B0000C1C0, .stx { ctl := ctl, ty := .b8, var := false, ad := ⟨.v 8 .plain, .zero, 0, false, 3⟩, c := .v 6 .plain }),
  (0x521C00000C02001B60FFC1C0, .mcst { ctl := ctl, ty := .b64, a := .v 3 .plain, m := .v 8 .plain, c := .v 6 .plain, off := 1023 }),
  (0x525C028018840003407FC1C0, .ldc { ctl := ctl, ty := .b32, d := .v 5 false, a := .v 6 .plain, b := .zero, scale := 0, ixu := false, bank := 3, off := 127 }),
  (0x529C028020840000C00001C0, .ldun { ctl := ctl, ty := .n16, var := false, d := .v 5 false, ad := ⟨.v 8 .plain, .zero, 0, false, 0⟩ }),
  (0x52DC000020840000010141C0, .pref { ctl := ctl, l2 := true, ad := ⟨.v 8 .plain, .zero, 0, false, 5⟩ }),
  (0x531C000018840000000001C0, .wbp { ctl := ctl, ad := ⟨.v 6 .plain, .zero, 0, false, 0⟩ }),
  (0x531C000000000000010001C0, .wbpAll { ctl := ctl }),
  (0x535C018000000003404101C0, .qpop { ctl := ctl, ty := .b32, n := 2, pv := 4, d := .v 3 false }),
  (0x539C03000000000360E1C1C0, .qpeek { ctl := ctl, ty := .b64, n := 7, pv := 7, d := .v 6 false }),
  (0x53DC00000000001B406001C0, .fpush { ctl := ctl, ty := .b32, n := 3, c := .v 6 .plain }),
  (0x541C028000000003402081C0, .fpop { ctl := ctl, ty := .b32, n := 1, pv := 2, d := .v 5 false })]

/-- Class 0x6, atomics and ordering (R240). -/
def words6 : List (Nat × Instr) := [
  (0x601C03002003000125AFC1C0, .atom { ctl := ctl, ty := .i64, aop := .max, sem := .ar, scope := .clu, off := 63, d := .v 6 false, a := .v 8 .plain, b := .v 12 .plain, c := none }),
  (0x605C02801801C0234E97C1C0, .atoms { ctl := ctl, ty := .b32, aop := .cas, sem := .acq, scope := .team, pe := false, off := 31, d := .v 5 false, a := .v 6 .plain, b := .v 7 .plain, c := some (.v 8 .plain) }),
  (0x609C02802001C0034C5041C0, .atomx { ctl := ctl, ty := .b32, aop := .exch, sem := .rlx, scope := .pod, off := 1, d := .v 5 false, a := .v 8 .plain, b := .v 7 .plain, c := none }),
  (0x60DC00002001C001114081C0, .red { ctl := ctl, ty := .n32, aop := .inc, rel := true, scope := .dev, off := 2, a := .v 8 .plain, b := .v 7 .plain }),
  (0x611C000000000000003001C0, .fence { ctl := ctl, scope := .dist }),
  (0x615C000000000000000001C0, .xfence { ctl := ctl }),
  (0x619C000000000000001001C0, .acq { ctl := ctl, scope := .team }),
  (0x61DC000000000000004001C0, .rel { ctl := ctl, scope := .dev }),
  (0x621C000018000000000001C0, .acqr { ctl := ctl, a := .v 6 .plain }),
  (0x625C820000000000000001C0, .ptsrd { ctl := ctl, d := .s 4 }),
  (0x629C000020E20000000FC1C0, .lease { ctl := ctl, off := 63, a := .v 8 .plain, b := .imm 8 }),
  (0x62DC000E00018000000041C0, .swarm { ctl := ctl, off := 1, a := .imm 0, b := .v 6 .plain }),
  (0x631C030020024000000081C0, .swwait { ctl := ctl, off := 2, d := .v 6 false, a := .v 8 .plain, b := .v 9 .plain }),
  (0x635C828418000000000041C0, .swgen { ctl := ctl, off := 1, d := .s 5, a := .s 6 .plain }),
  (0x639C828418000000000041C0, .objdecl { ctl := ctl, race := true, d := 5, a := .s 6 .plain }),
  (0x63DC82841C000000000001C0, .objdrop { ctl := ctl, d := 5, a := .s 7 .plain })]

/-- Class 0x7, matrix (R270). -/
def words7 : List (Nat × Instr) := [
  (0x701C84840800000000FFC1C0, .mxop { ctl := ctl, off := 1023, d := 9, a := .s 2 .plain }),
  (0x705C000000000000200041C0, .mxzero { ctl := ctl, mask := 0x8001 }),
  (0x709C028E100000034000C1C0, .mxrd { ctl := ctl, n := 3, d := .v 5 false, a := .imm 4 }),
  (0x70DD818E10018003400001C0, .mxwr { ctl := ctl, n := 3, a := .imm 4, b := .v 6 .plain }),
  (0x711C0000180000034004C1C0, .mxst { ctl := ctl, n := 3, off := 1, a := .v 6 .plain }),
  (0x715C00040801840E050081C0, .plane { ctl := ctl, fmt := .e4m3, p1 := 5, off := 2, a := .s 2 .plain, b := .v 6 .plain, c := .s 3 .plain }),
  (0x719C028408000E00670081C0, .unplane { ctl := ctl, fmt := .i8, p1 := 7, off := 2, d := .v 5 false, a := .s 2 .plain, c := .imm 0 }),
  (0x71DD8204080000000004C1C0, .mxperm { ctl := ctl, col := true, td := 4, ts := 3, a := .s 2 .plain }),
  (0x721C000E00000000000001C0, .mxwait { ctl := ctl, a := .imm 0 }),
  (0x725C828000000000000081C0, .mxqry { ctl := ctl, d := 5, sel := 2 }),
  (0x729C00001801C0018D84C1C0, .mxepi { ctl := ctl, dt := .bf16, st := .f32, relu := true, sat := false, off := 1, n := 3, a := .v 6 .plain, b := .v 7 .plain }),
  (0x72DC000408000000000001C0, .leave { ctl := ctl, a := .s 2 .plain }),
  (0x731C000018000001A004C1C0, .mxscl { ctl := ctl, col := true, n := 3, a := .v 6 .plain })]

/-- Class 0x8, tasks and slices (R313). -/
def words8 : List (Nat × Instr) := [
  (0x801C8280000000000000C1C0, .cpstat { ctl := ctl, d := 5, i := 3 }),
  (0x805C0000000000000001C1C0, .outrdy { ctl := ctl, i := 7 }),
  (0x809C828418000000020041C0, .tcond { ctl := ctl, d := 5, n := 0x801, a := .s 6 .plain }),
  (0x80DC000E04000000000001C0, .tdone { ctl := ctl, a := .imm 1 }),
  (0x811C828418000000000001C0, .tspawn { ctl := ctl, d := 5, a := .s 6 .plain }),
  (0x815C828000000000000101C0, .tqry { ctl := ctl, d := 5, sel := 4 }),
  (0x819C000000000000000001C0, .astart { ctl := ctl }),
  (0x81DC000E10000000000041C0, .aloop { ctl := ctl, lvl := 1, a := .imm 4 }),
  (0x821C000418DEC00360F001C0, .astrm { ctl := ctl, ty := .b64, sp := true, q := 7, a := .s 6 .plain, m := 123 }),
  (0x825C000000000000000001C0, .aend { ctl := ctl })]

/-- Class 0x9, system (R348). -/
def words9 : List (Nat × Instr) := [
  (0x901C0000000000000448C1C0, .trap { ctl := ctl, brk := true, n := 0x123 }),
  (0x905C000000000000000001C0, .rett { ctl := ctl }),
  (0x909C828000000003600401C0, .srrd { ctl := ctl, ty := .b64, num := 0x10, d := .s 5 }),
  (0x90DC000418000003400801C0, .srwr { ctl := ctl, ty := .b32, num := 0x20, a := .s 6 .plain }),
  (0x911C830000000000000001C0, .logrd { ctl := ctl, d := 6 }),
  (0x915C828418000000000001C0, .haltStop { ctl := ctl, d := 5, a := .s 6 .plain }),
  (0x915C828418000000000041C0, .haltResume { ctl := ctl, d := 5, a := .s 6 .plain }),
  (0x915C828418000000000081C0, .haltKill { ctl := ctl, d := 5, a := .s 6 .plain }),
  (0x919C828418000000000001C0, .sysc { ctl := ctl, d := 5, a := .s 6 .plain }),
  (0x91DC830E00000000000001C0, .evwait { ctl := ctl, d := 6, a := .imm 0 }),
  (0x921C82841841C000000001C0, .evsigSig { ctl := ctl, d := 5, a := .s 6 .plain, b := .s 7 .plain }),
  (0x921C82841841C000000041C0, .evsigAns { ctl := ctl, d := 5, a := .s 6 .plain, b := .s 7 .plain }),
  (0x925C828418420000000001C0, .tlbinvVa { ctl := ctl, d := 5, a := .s 6 .plain, b := .s 8 .plain }),
  (0x925C828418420000000041C0, .tlbinvCtx { ctl := ctl, d := 5, a := .s 6 .plain, b := .s 8 .plain }),
  (0x925C828418420000000081C0, .tlbinvZone { ctl := ctl, d := 5, a := .s 6 .plain, b := .s 8 .plain }),
  (0x929C828418000000000001C0, .fbresp { ctl := ctl, d := 5, a := .s 6 .plain }),
  (0x92DC828418420424000081C0, .ctxsave { ctl := ctl, n := 2, d := 5, a := .s 6 .plain, b := .s 8 .plain, c := .s 9 .plain }),
  (0x931C828418000000000001C0, .ctxload { ctl := ctl, d := 5, a := .s 6 .plain }),
  (0x935C828418000000000101C0, .ctxq { ctl := ctl, d := 5, sel := 4, a := .s 6 .plain }),
  (0x939C82841841C000000001C0, .qmap { ctl := ctl, d := 5, a := .s 6 .plain, b := .s 7 .plain }),
  (0x93DC828418000000000001C0, .qunmap { ctl := ctl, d := 5, a := .s 6 .plain })]

/-- Class 0xA, zones (R384). -/
def wordsA : List (Nat × Instr) := [
  (0xA01C828418420000000001C0, .zcreate { ctl := ctl, d := 5, a := .s 6 .plain, b := .s 8 .plain }),
  (0xA05C828000E0C000000001C0, .zdestroy { ctl := ctl, d := 5, z := .imm 3 }),
  (0xA09C828418420000000001C0, .zgrow { ctl := ctl, d := 5, a := .s 6 .plain, b := .s 8 .plain }),
  (0xA0DC828418420000000001C0, .zshrink { ctl := ctl, d := 5, a := .s 6 .plain, b := .s 8 .plain }),
  (0xA11C828418420000000181C0, .zslices { ctl := ctl, d := 5, dist := 6, a := .s 6 .plain, z := .s 8 .plain }),
  (0xA15C828000420424006841C0, .zwaysL2 { ctl := ctl, d := 5, dist := 6, slice := 33, z := .s 8 .plain, m := .s 9 .plain }),
  (0xA15C8280004204240080C1C0, .zwaysVault { ctl := ctl, d := 5, v := 3, z := .s 8 .plain, m := .s 9 .plain }),
  (0xA19C828418420000000001C0, .zchan { ctl := ctl, d := 5, a := .s 6 .plain, b := .s 8 .plain }),
  (0xA1DC828418420000000001C0, .zcoins { ctl := ctl, d := 5, a := .s 6 .plain, b := .s 8 .plain }),
  (0xA21C828418000000000001C0, .zscrub { ctl := ctl, d := 5, a := .s 6 .plain }),
  (0xA25C828000420000000001C0, .zcommit { ctl := ctl, d := 5, z := .s 8 .plain }),
  (0xA29C828000420000001A41C0, .zquery { ctl := ctl, d := 5, sel := 9, dist := 6, z := .s 8 .plain }),
  (0xA2DC828418000000000001C0, .capq { ctl := ctl, d := 5, a := .s 6 .plain })]

/-- Class 0xB, fabric (R421). -/
def wordsB : List (Nat × Instr) := [
  (0xB01C000000000000000001C0, .ffenceFull { ctl := ctl }),
  (0xB01C000000000000000041C0, .ffenceRel { ctl := ctl }),
  (0xB01C000000000000000081C0, .ffenceAcq { ctl := ctl }),
  (0xB05C828000000000000041C0, .ptprd { ctl := ctl, st := true, d := 5 }),
  (0xB09C828000000000000001C0, .timens { ctl := ctl, d := 5 }),
  (0xB0DC828E1C000000000001C0, .peerq { ctl := ctl, d := 5, a := .imm 7 }),
  (0xB11C00002001800000FFC1C0, .rlease { ctl := ctl, off := 1023, a := .v 8 .plain, b := .v 6 .plain }),
  (0xB15C828418000000000001C0, .fcontainFence { ctl := ctl, d := 5, a := .s 6 .plain }),
  (0xB15C828418000000000041C0, .fcontainClear { ctl := ctl, d := 5, a := .s 6 .plain })]

theorem test_decode_class0 : (words0.all fun p => decodeTableWord 96 p.1 == some p.2) = true := by decide
theorem test_decode_class1 : (words1.all fun p => decodeTableWord 96 p.1 == some p.2) = true := by decide
theorem test_decode_class2 : (words2.all fun p => decodeTableWord 96 p.1 == some p.2) = true := by decide
theorem test_decode_class3 : (words3.all fun p => decodeTableWord 96 p.1 == some p.2) = true := by decide
theorem test_decode_class4 : (words4.all fun p => decodeTableWord 96 p.1 == some p.2) = true := by decide
theorem test_decode_class5 : (words5.all fun p => decodeTableWord 96 p.1 == some p.2) = true := by decide
theorem test_decode_class6 : (words6.all fun p => decodeTableWord 96 p.1 == some p.2) = true := by decide
theorem test_decode_class7 : (words7.all fun p => decodeTableWord 96 p.1 == some p.2) = true := by decide
theorem test_decode_class8 : (words8.all fun p => decodeTableWord 96 p.1 == some p.2) = true := by decide
theorem test_decode_class9 : (words9.all fun p => decodeTableWord 96 p.1 == some p.2) = true := by decide
theorem test_decode_classA : (wordsA.all fun p => decodeTableWord 96 p.1 == some p.2) = true := by decide
theorem test_decode_classB : (wordsB.all fun p => decodeTableWord 96 p.1 == some p.2) = true := by decide

/-! Every form issues on such a state: the hypothesis `Issues` of the statements about it. -/

theorem witness_issues_class0 : (words0.all fun p => meets p.2 (placed p.1) fun _ _ => true) = true := by decide
theorem witness_issues_class1 : (words1.all fun p => meets p.2 (placed p.1) fun _ _ => true) = true := by decide
theorem witness_issues_class2 : (words2.all fun p => meets p.2 (placed p.1) fun _ _ => true) = true := by decide
theorem witness_issues_class3 : (words3.all fun p => meets p.2 (placed p.1) fun _ _ => true) = true := by decide
theorem witness_issues_class4 : (words4.all fun p => meets p.2 (placed p.1) fun _ _ => true) = true := by decide
theorem witness_issues_class5 : (words5.all fun p => meets p.2 (placed p.1) fun _ _ => true) = true := by decide
theorem witness_issues_class6 : (words6.all fun p => meets p.2 (placed p.1) fun _ _ => true) = true := by decide
theorem witness_issues_class7 : (words7.all fun p => meets p.2 (placed p.1) fun _ _ => true) = true := by decide
theorem witness_issues_class8 : (words8.all fun p => meets p.2 (placed p.1) fun _ _ => true) = true := by decide
theorem witness_issues_class9 : (words9.all fun p => meets p.2 (placed p.1) fun _ _ => true) = true := by decide
theorem witness_issues_classA : (wordsA.all fun p => meets p.2 (placed p.1) fun _ _ => true) = true := by decide
theorem witness_issues_classB : (wordsB.all fun p => meets p.2 (placed p.1) fun _ _ => true) = true := by decide

/-! ## Well-formedness: an ill-formed term for each check -/

def v (n : BitVec 8) : Src := .v n .plain
def r (n : BitVec 6) : Src := .s n .plain
/-- An addition, to be spoilt. -/
def good : Instr := .iadd { ctl := ctl, ty := .i32, sat := false, d := .v 5 false, a := v 6, b := v 7 }

theorem test_wf_good : good.wellFormed = true := by decide
/-- A count of leading zeros takes no signed type (R106). -/
theorem test_wf_form : (Instr.clz { ctl := ctl, ty := .i32, d := .v 5 false, a := v 6 }).wellFormed = false := by decide
/-- SETSB 6 is reserved (R41). -/
theorem test_wf_setsb : (Instr.nop { ctl := ⟨⟨false, 7⟩, ⟨0, false, 6, 0⟩⟩ }).wellFormed = false := by decide
/-- A form that acts once for its group takes no thread's predicate as its guard (R34). -/
theorem test_wf_groupGuard : (Instr.astart { ctl := ⟨⟨false, 1⟩, ⟨0, false, 7, 0⟩⟩ }).wellFormed = false := by decide
/-- A predicate is no destination of an addition (R37). -/
theorem test_wf_dst : (Instr.iadd { ctl := ctl, ty := .i32, sat := false, d := .p 1, a := v 6, b := v 7 }).wellFormed = false := by decide
/-- A predicate is no source of an addition (R36). -/
theorem test_wf_src : (Instr.iadd { ctl := ctl, ty := .i32, sat := false, d := .v 5 false, a := .p 1, b := v 7 }).wellFormed = false := by decide
/-- An s register takes no sum of v registers (R99). -/
theorem test_wf_scalar : (Instr.iadd { ctl := ctl, ty := .i32, sat := false, d := .s 5, a := v 6, b := r 7 }).wellFormed = false := by decide
/-- An event stands for no word. -/
theorem test_wf_event : Instr.coinPeriod.wellFormed = false := by decide

theorem test_reject_class : decodeWord 0xC01C000000000000000001C0#96 = .error .reservedClass := by decide
theorem test_reject_op : decodeWord 0xBFDC000000000000000001C0#96 = .error .unassignedOp := by decide
theorem test_reject_bit : decodeWord (encode good ||| (1 <<< 70)) = .error .reservedBit := by decide
/-- Type code 31 is not assigned (R40). -/
theorem test_reject_operand : decodeWord (encode good ||| (0x1F <<< 29)) = .error .badOperand := by decide
/-- A third source in a form of two (R46). -/
theorem test_reject_unused : decodeWord (encode good ||| (1 <<< 34)) = .error .unusedField := by decide
/-- SETSB 6 in a word (R41, R46). -/
theorem test_reject_form : decodeWord (encode good ^^^ (1 <<< 6)) = .error .formRejects := by decide

/-! ## Witnesses: states and operands that meet the hypotheses of the statements' clauses -/

/-- The given value in a v register of every thread. -/
def vset (s : State) (n x : Nat) : State := grp s fun g => g.mapThreads fun _ th => th.setV n (BitVec.ofNat 32 x)
/-- The given value in an s register. -/
def sset (s : State) (n x : Nat) : State := grp s fun g => g.setS n (BitVec.ofNat 64 x)
/-- An instruction's bytes at an offset of the text, which reaches to 48. -/
def also (s : State) (off : Nat) (i : Instr) : State :=
  team { s with mem := writeBytes s.mem (fetchPa + off) (bytesOfWord (encode i)) } fun t => { t with textSize := 48 }

/-- A later state. -/
def after (s : State) (cycles : Nat) : State := { s with cycle := s.cycle + cycles }

/-! IntegerArithmetic, BitForms, MovesAndSelects, ConversionForms, CrossThreadForms -/

def divBy (b : Src) : Instr := .idiv { ctl := ctl, ty := .i32, sat := true, d := .v 5 false, a := v 6, b := b }
theorem witness_idiv : (
    meets (divBy .zero) (with_ (divBy .zero)) (fun w _ => w.int .i32 .zero 0 == 0)
    && meets (divBy (v 7)) (vset (vset (with_ (divBy (v 7))) 6 0x80000000) 7 0xFFFFFFFF)
        (fun w _ => w.int .i32 (v 7) 0 == -1 && w.int .i32 (v 6) 0 == intMin .i32)
    && meets (divBy (v 7)) (vset (vset (with_ (divBy (v 7))) 6 0x80000000) 7 1) (fun w _ => w.int .i32 (v 7) 0 == 1)) = true := by decide
theorem witness_imadw : (([.i32, .n32] : List Ty).all fun ty =>
    let x : Instr := .imadw { ctl := ctl, ty := ty, sat := true, d := .v 6 false, a := v 8, b := v 9, c := v 10 }
    meets x (with_ x) fun _ _ => true) = true := by decide
theorem witness_clz_ctz : (([.clz { ctl := ctl, ty := .b32, d := .v 5 false, a := v 6 }, .ctz { ctl := ctl, ty := .b32, d := .v 5 false, a := v 6 }] :
    List Instr).all fun x => meets x (with_ x) (fun w _ => w.rd .b32 (v 6) 0 == 0)
      && meets x (vset (with_ x) 6 0x80000000) (fun w _ => w.rd .b32 (v 6) 0 != 0)) = true := by decide
theorem witness_movi : (
    meets (.movi { ctl := ctl, mode := .hi, d := .v 5 false, imm := 9 }) (with_ (.movi { ctl := ctl, mode := .hi, d := .v 5 false, imm := 9 }))
      (fun _ _ => true)) = false
    ∧ (let x : Instr := .movi { ctl := ctl, mode := .zx, d := .v 5 false, imm := 9 }; meets x (with_ x) fun _ _ => true) = true
    ∧ (let x : Instr := .movi { ctl := ctl, mode := .hi, d := .s 9, imm := 9 }; meets x (with_ x) fun _ _ => true) = true := by decide
theorem witness_rand : (([(.b32, 6), (.f32, 6), (.b64, 6)] : List (Ty × BitVec 8)).all fun p =>
    let x : Instr := .rand { ctl := ctl, ty := p.1, d := .v p.2 false }
    meets x (with_ x) fun _ _ => true) = true := by decide
theorem witness_scan : ([false, true].all fun e =>
    let x : Instr := .scan { ctl := ctl, ty := .i32, op := .add, excl := e, d := .v 5 false, a := v 6 }
    meets x (with_ x) fun _ _ => true) = true := by decide

/-! Branches, BranchAndAccessTraps -/

def jump (n : BitVec 32) : Instr := .bra { ctl := ctl, imm := n }
def landing : Instr := .land { ctl := ctl }
def brx : Instr := .brx { ctl := ctl, a := v 6 }
def callx : Instr := .callx { ctl := ctl, d := 4, a := v 6 }
def ret : Instr := .ret { ctl := ctl, a := v 6 }
def inText (w : View) (T : Int) : Bool := decide (0 ≤ T ∧ T < w.tm.textSize ∧ T % 12 = 0)

/-- The first and the last instruction of the text are targets; the one behind it is not. -/
theorem witness_bra : (
    meets (jump 0) (with_ (jump 0)) (fun w _ => inText w w.pcOffset)
    && meets (jump 3) (also (with_ (jump 3)) 36 landing) (fun w _ => inText w (w.pcOffset + 36))
    && meets (jump 4) (also (with_ (jump 4)) 36 landing) (fun w m => !inText w (w.pcOffset + 48) && w.branchCheck false false 48 == .bad && m != 0)
    && (let x : Instr := .call { ctl := ctl, d := 4, imm := 0 }
        meets x (with_ x) fun w _ => inText w w.pcOffset)) = true := by decide
theorem witness_indirect : (([brx, callx] : List Instr).all fun x =>
    meets x (vset (also (with_ x) 12 landing) 6 12) (fun w _ => inText w (w.n32 (v 6) 0)
      && (w.fetchQuiet (w.tm.codeBase + 12)).map opcOf == some 0x105 && !w.walkBehind .fetch (w.targetBytes 0xFFFFFFFF fun k => w.n32 (v 6) k))
    && meets x (vset (also (with_ x) 12 x) 6 12) (fun w _ => w.branchCheck true true 12 == .noLand)
    && meets x (vset (with_ x) 6 5) (fun w _ => w.branchCheck true true 5 == .bad)) = true := by decide
theorem witness_ret : meets ret (vset (with_ ret) 6 0) (fun w _ => inText w (w.n32 (v 6) 0)
    && (w.fetchQuiet w.tm.codeBase).isSome && !w.walkBehind .fetch (w.targetBytes 0xFFFFFFFF fun k => w.n32 (v 6) k)) = true := by decide

/-! ThreadStatus, ConvergenceBarriers, Barriers -/

def base : State := with_ landing
def g0 : Group := (look base.groups 0).getD {}
def tm0 : Team := (look base.teams 0).getD {}
def cx0 : Ctx := (look base.ctxs 0).getD {}
/-- Thread 0 changed. -/
def thr (s : State) (f : Thread → Thread) : State := grp s fun g => g.mapThreads fun k th => if k = 0 then f th else th
def atGroup (s : State) (p : Group → Bool) : Bool := ((look s.groups 0).map p).getD false
def due (s : State) : Nat := s.schedOf g0

theorem witness_yield : (let x : Instr := .yield { ctl := ctl }
    meets x (with_ x) (fun w _ => w.g.slot.isSome)
    && meets x (grp (with_ x) fun g => { g with slot := none }) (fun w _ => w.g.slot == none)) = true := by decide
/-- A count that has just run out, and one with a cycle to go, of HOLD, of SLEEP and of SLEEP in a handler's frame. -/
theorem witness_expiry : ([0, 1].all fun d =>
    atGroup (thr base fun th => { th with stat := .hold (due base + d) }) (fun g => !g.handler && (g.thread 0).stat == .hold (due base + d))
    && atGroup (thr base fun th => { th with stat := .sleep (due base + d) }) (fun g => !g.handler && (g.thread 0).stat == .sleep (due base + d)))
    = true ∧ atGroup (grp (thr base fun th => { th with fstat := .sleep (due base) }) fun g => { g with handler := true })
      (fun g => g.handler && (g.thread 0).stat == .run && (g.thread 0).fstat == .sleep (due base)) = true := by decide
/-- Every member of cb1 waits or has exited; one member still runs. -/
theorem witness_cbwait :
    (let g : Group := { g0 with cb := [(1, 3)] }
     let all := g.mapThreads fun k th => if k = 0 then { th with stat := .cbwait 1 } else if k = 1 then { th with stat := .exited } else th
     let some_ := g.mapThreads fun k th => if k = 0 then { th with stat := .cbwait 1 } else th
     [all, some_].map fun g => !g.handler && g.threads.length == 32 && (g.thread 0).stat == .cbwait 1
       && (List.range 32).all fun k => !inMask (g.cbreg 1) k || (g.thread k).stat == .cbwait 1 || (g.thread k).stat == .exited)
    = [true, false] := by decide
def barWait (far : Bool) : State := grp base fun g => g.mapThreads fun _ th => { th with stat := .barwait far 0 }
theorem witness_barrier :
    (let t1 : Team := { tm0 with bars := [(0, ⟨false, [0], 0⟩)] }
     (barWait false).teamArrived 0 t1 (rget {} t1.bars 0) = true ∧ (rget {} t1.bars 0).arrived ≠ []
       ∧ (barWait false).teamArrived 0 tm0 (rget {} tm0.bars 0) = false)
    ∧ (let t1 : Team := { tm0 with barcs := [(0, ⟨false, [0], 0⟩)] }
       let s : State := { barWait true with teams := [(0, t1), (1, { t1 with cluster := 1 }), (2, { t1 with run := .retired })] }
       look s.teams 0 = some t1 ∧ (∀ x ∈ s.teams, x.2.cluster = t1.cluster → x.2.run = .retired ∨ s.teamArrived x.1 x.2 (rget {} x.2.barcs 0) = true))
    ∧ (barWait true).teamArrived 0 tm0 (rget {} tm0.barcs 0) = false := by decide

/-! CompletionAndRefill, LogicalTimeEvents -/

def flown (fl : BitVec 5) : Inflight := { pc := 0, opc := 0, flags := fl, sb := some 2, when_ := .now }
def logging (cap : W16) : Ctx := { cx0 with logen := 0x1F, alogcap := cap }
theorem witness_complete :
    (let g : Group := { g0 with inflight := [flown 0] }
     g.inflight[0]? = some (flown 0) ∧ base.doneNow g .now = true ∧ (flown 0).logs cx0 g = false)
    ∧ (flown 1).logs (logging 1) g0 = true ∧ (g0.inflight.take 0).any (fun y => y.logs cx0 g0) = false ∧ g0.heldLog = none
    ∧ (logging 1).alogwidx.toNat < (logging 1).alogcap.toNat ∧ (flown 1).logs (logging 0) g0 = true ∧ (logging 0).alogcap.toNat ≤ (logging 0).alogwidx.toNat := by decide
theorem witness_refill :
    (let s := grp base fun g => { g with slot := none, readyAt := some 0 }
     s.groups.all (fun x => !(x.2.quad == 0 && x.2.slot == some 7)) = true ∧ s.longestReady 0 = some 0 ∧ atGroup s (·.hasRun) = true) := by decide
theorem witness_window : g0.launched = true ∧ base.schedOf g0 < g0.winEnd
    ∧ ({ g0 with winEnd := 0 } : Group).winEnd ≤ base.schedOf g0 := by decide
def old (g : Group) : State := { base with zones := [(64, { base.zoneOf 64 with zclk := 2 ^ 63 - 2 ^ 20 })], groups := [(0, { g with pts := 2 ^ 63 - 2 ^ 20 })] }
def entry0 : SEntry := { id := 0, parts := [], sem := .rlx, scope := .dev }
theorem witness_rollover : (old g0).rollDue 64 = true ∧ (∀ x ∈ (old g0).groups, (old g0).zoneNum x.2 = 64 → x.2.sbuf = [] ∧ x.2.fly = [])
    ∧ (old { g0 with sbuf := [entry0] }).rollDue 64 = true
    ∧ (∀ x ∈ (old { g0 with sbuf := [entry0] }).groups, (old g0).zoneNum x.2 = 64 → x.2.sbuf ≠ [] ∨ x.2.fly ≠ []) := by decide

/-! WalksAndFaults, StoresPerformed, LoadEvents -/

def dataPa : Nat := fetchPa + 65536
def dleaf : Leaf := { rd := true, w := true, k := 16 }
def line0 : Nat := lineOf dataPa
/-- A page of data at the virtual address 0x10000. -/
def page (s : State) : State :=
  { s with tlb1 := { loc := 0, zone := 64, ctx := 0, vpn := 1, ppn := dataPa / 2 ^ 16, leaf := dleaf } :: s.tlb1 }
/-- Page tables from a root at `fetchPa + 0x20000` that map the first GiB to itself, writable, at level 2. -/
def tables (s : State) : State :=
  let t := fetchPa + 0x20000
  let m := writeNat s.mem t 8 ((t + 0x10000) / 2 ^ 16 * 2 ^ 16 + 1)
  let m := writeNat m (t + 0x10000) 8 ((t + 0x20000) / 2 ^ 16 * 2 ^ 16 + 1)
  let m := writeNat m (t + 0x20000) 8 ((t + 0x30000) / 2 ^ 16 * 2 ^ 16 + 1)
  let m := writeNat m (t + 0x30000) 8 (fetchPa / 2 ^ 30 * 2 ^ 30 + 0x1BB)
  { s with mem := m, ctxs := [(0, { cx0 with ptroot := BitVec.ofNat 64 t })] }
def walking : State := grp (tables base) fun g => { g with wait := .walk 0 0x10000 .load [(1, 0x10000, 0x10000)] }
theorem witness_walk : walking.walkQueued cx0 0x10000 = false ∧ g0.issuedAs = none
    ∧ ({ g0 with issuedAs := some { mask := 1 } } : Group).issuedAs ≠ none
    ∧ (match walking.walkVa (walking.ctxs.headD (0, cx0)).2 0x10000 .load with
      | .ok pa leaf => pa == dataPa && (walking.markFrames pa leaf).isSome
      | .fault .. => false) = true
    ∧ (match base.walkVa cx0 0x10000 .load with
      | .ok .. => false
      | .fault .. => true) = true := by decide
def rec0 : FaultRec := { va := 0x10000, zone := 64 }
def parked : State := { grp base fun g => { g with wait := .parked 0 rec0 none } with fwait := [FaultSrc.group 0] }
theorem witness_faultRecord : atGroup parked (fun g => g.wait == .parked 0 rec0 none) = true ∧ parked.faultRoom tm0.district rec0.zone = true
    ∧ look parked.fbuf (512 * tm0.district + 0) = none := by decide

def part (op : SOp) : SPart := { thr := 0, pa := dataPa, n := 4, leaf := dleaf, op := op }
def stored (op : SOp) : SEntry := { id := 0, parts := [part op], sem := .rlx, scope := .dev }
theorem witness_leaveBuffer : g0.mayLeave (stored (.store [1, 2, 3, 4])) = true ∧ [TeamRun.halted, .stopped, .spilled, .saved].contains tm0.run = false
    ∧ ([TeamRun.halted, .stopped, .spilled, .saved].contains ({ tm0 with run := .halted } : Team).run = true ∧ tm0.promo = 0
      ∧ ({ tm0 with run := .stopping, haltRun := .halted } : Team).haltRun = .halted ∧ base.rollDue (base.zoneNum g0) = false)
    ∧ ∀ p ∈ (stored (.store [1, 2, 3, 4])).parts, base.isRemote (lineOf p.pa) = false := by decide
def flight (op : SOp) (done : Option (Option Nat × List (Nat × Nat) × Option LineData)) : FlyLine :=
  { fid := 0, id := 0, line := line0, p := 0, parts := [part op], sem := .rlx, scope := .dev, remote := false, done := done }
theorem witness_perform : ∀ op ∈ [SOp.store [1, 2, 3, 4], .atom .n32 .add 1 0],
    let f := { flight op none with parts := [part op, { part (.store [5, 6]) with pa := dataPa + 2, thr := 1, n := 2 }] }
    let g : Group := { g0 with fly := [f] }
    let base : State := { base with groups := [(0, g)] }
    base.flightTurn g f = true ∧ base.chanFree (.fly 0 0) = true ∧ f.remote = false ∧ f.sent = false ∧ isRegLine f.line = false
      ∧ base.homeLost (base.flyHome g f) = false ∧ base.isCode (f.line * 128) = false
      ∧ isHostLine f.line = false ∧ base.homeHeld (base.zoneNum g) (base.flyHome g f) f.line = false
      ∧ base.waitsBefore f.line (f.heldAt.getD base.uid) = false := by decide
theorem witness_ack : let f := flight (.store []) (some (some 5, [], none))
    let s : State := { base with groups := [(0, { g0 with fly := [f] })] }
    s.sentBefore ((s.coreOf g0).getD 0) (s.zoneNum g0) f.line f.at_ (fun _ => false) (fun _ => true) = false
    ∧ f.done = some (some 5, [], none) ∧ f.sem = .rlx ∧ f.parts.any SPart.isAtom = false ∧ ∀ p ∈ g0.pends, p.id ≠ f.id := by decide

def lreq (st : LineStat) : LineReq := { line := line0, leaf := dleaf, stat := st }
def lrec (st : LineStat) : LoadRec :=
  { id := 0, kind := .data, ty := .b32, nl1 := false, p := 0, pieces := [⟨0, 0, dataPa, 4⟩], got := [], bad := [], lines := [lreq st] }
def loading (st : LineStat) : Group := { g0 with loads := [lrec st], pends := [{ id := 0, dst := .v 5 false, ty := .b32, unif := false, mask := 1, lat := [] }] }
def lctx (st : LineStat) : LineCtx :=
  { u := 0, g := loading st, tm := tm0, cn := 0, zn := 64, core := 0, r := lrec st, k := 0, q := lreq st }
def ways (s : State) : State := { s with zones := upd s.zones 64 fun z => { z with ways := [(4, 0xFFFF)], slices := [(0, [0])] } }
def loadState (s : State) (st : LineStat) : State := { s with groups := [(0, loading st)] }
def copied (s : State) : State := (ways s).putL2 0 64 line0 { data := 0, wts := 0, rts := 64, xp := false, bad := false }
theorem witness_loadEvents : ∀ st ∈ [LineStat.l2, .home, .fill, .renew],
    let s := loadState (copied base) st
    let c := lctx st
    s.lineCtx? 0 0 0 = some c ∧ c.turn s = true ∧ c.served s = true ∧ c.q.n ≤ 1024 ∧ c.leased s = true ∧ c.l1Hit s = none
      ∧ (look s.zones c.zn).isSome = true ∧ s.lineLost c.zn c.q.leaf c.q.line = false ∧ isHostLine c.q.line = false ∧ isRegLine c.q.line = false
      ∧ s.lineQueued c.q.line = false
      ∧ c.q.leaf.sh = true ∧ c.l2Only = false ∧ c.r.kind.fills = true
      ∧ (s.getL2 0 64 line0).map (fun cp => decide (c.r.p ≤ cp.rts ∧ cp.wts ≤ (s.touchBase (l1Loc c.core) c.zn c.r.p).baseTop (l1Loc c.core) c.zn)
        && !cp.xp) = some true
      ∧ s.waysAt c.zn (s.sliceHome (c.core / 128) c.zn c.q.line) ≠ 0 ∧ s.hasL1 c.core c.zn = false := by decide
/-- A load whose line an older load of the core has asked for first, and one without a copy in its district. -/
theorem witness_loadTurn :
    (let g : Group := { loading .l2 with loads := [lrec .l2, { lrec .l2 with id := 1, at_ := 1 }] }
     let s : State := { ways base with groups := [(0, g)] }
     (s.lineCtx? 0 1 0).map (fun c => c.turn s) = some false)
    ∧ (let s := loadState (ways base) .l2
       (s.lineCtx? 0 0 0).map (fun c => (c.turn s, c.leased s, c.served s)) = some (true, false, true)) := by decide
/-- A renewal whose version is too new for the copies of its district (R211). -/
def newer : State := let s := ways base; { s with zones := upd s.zones 64 fun z => { z with mts := [(0, 2 ^ 21)] } }
theorem witness_renewAtHome : (lctx .renew).leased (loadState newer .renew) = false
    ∧ (lctx .renew).leased ((lctx .renew).grant (loadState newer .renew)) = false := by decide

/-! TrapsBetweenInstructions -/

def wordless : State := placed 0xC01C000000000000000001C0
theorem witness_illegal : wordless.view?.isSome = true := by decide
theorem witness_groupTraps : (({ base with cur := 0 } : State).view?).isSome = true ∧ g0.allDone = true ∧ g0.wait.boundary = true
    ∧ g0.stopped = false ∧ g0.hasRun = true ∧ g0.hasLive = true
    ∧ (let g : Group := { g0 with heldLog := some ⟨0, 0, 1⟩, reports := [⟨1, 3, 1⟩] }
       g.allDone = true ∧ g.heldLog.isSome = true ∧ g.handler = false ∧ g.reports = [⟨1, 3, 1⟩])
    ∧ ({ tm0 with run := .halted } : Team).run = .halted ∧ g0.tripped = false ∧ ({ g0 with tripped := true } : Group).tripped = true := by decide

/-! LoadsAtOnce, LoadsStart, GlobalStoresIssue, ScratchpadStores, PrivateStores -/

/-- An address in s2 and s3 alone, and one in v6. -/
def adS : Addr := ⟨r 2, .zero, 0, false, 0⟩
def adV : Addr := ⟨v 6, .zero, 0, false, 0⟩
def load (a : Addr) (d : Dst) : Ld := { ctl := ctl, ty := .b32, var := false, d := d, ad := a }
def store (a : Addr) (c : Src) : St := { ctl := ctl, ty := .b32, var := false, ad := a, c := c }
/-- A scratchpad of 4 KiB, a private space in the page of data, the page's address in s2. -/
def mem (s : State) : State :=
  team (sset (page s) 2 0x10000) fun t => { t with scratchSize := 4096, privBase := 0x10000, privL := 16, fifoN := 1 }
/-- A byte of the group's private pages, in the page of data, is dirty. -/
def dirtyByte (s : State) : State := grp s fun g => { g with pdirty := [(dataPa, 7)], pleaf := [(line0, dleaf)] }
/-- The page of data lies on device 3. -/
def onFar (s : State) : State := { s with tlb1 := s.tlb1.map fun e => if e.vpn = 1 then { e with ppn := (2 ^ 46 * 3 + dataPa) / 2 ^ 16 } else e }
/-- Thread 0 has a store of its own to the page's first bytes on its way. -/
def ownStore (s : State) : State := grp s fun g => { g with sbuf := [stored (.store [1, 2, 3, 4])] }

def atOnce (i : Instr) (n : Nat) (acc : Acc) (addr : View → Nat → AddrOut) (s : State) : Bool :=
  meets i s fun w m =>
    let accs := w.accsOf i.uses m n acc (addr w)
    w.s.objs.isEmpty && w.accessible i.uses m n acc (addr w) && !w.away accs && !w.loadBlocked accs && w.badPriv accs == [] && w.privGone accs == []
      && accs != [] && accs.all fun a => (List.range n).all fun j => (w.byteNow a j).isSome
/-- A load of the threads whose p0 is set. -/
def first : Ld := { load adS (.v 8 false) with ctl := ⟨⟨false, 0⟩, ⟨0, false, 7, 0⟩⟩ }
theorem witness_loadsAtOnce :
    (atOnce (.ld (load adS (.s 8))) 4 .load (fun w t => w.globalOf adS 4 false true t) (ownStore (mem (with_ (.ld (load adS (.s 8))))))
    && atOnce (.ldun first) 4 .load (fun w t => w.globalOf adS 4 false false t)
        (thr (ownStore (mem (with_ (.ldun first)))) fun th => { th with preds := 1 })
    && atOnce (.ldx (load adS (.s 8))) 4 .load (fun w t => w.globalOf adS 4 true true t) (ownStore (mem (with_ (.ldx (load adS (.s 8))))))
    && atOnce (.lds (load adV (.v 8 false))) 4 .load (fun w t => w.scratchOf adV false 4 t)
        (vset (mem (with_ (.lds (load adV (.v 8 false))))) 6 4092)
    && atOnce (.ldp (load adV (.v 8 false))) 4 .privLoad (fun w t => w.privAddr (w.offsetOf adV 4 t) 4)
        (vset (mem (with_ (.ldp (load adV (.v 8 false))))) 6 60)) = true := by decide

def starts (i : Instr) (n : Nat) (addr : View → Nat → AddrOut) (f : State → State) : Bool :=
  meets i (f (mem (with_ i))) fun w m =>
    let accs := w.accsOf i.uses m n .load (addr w)
    let need := neededLines accs (accs.flatMap w.readyBytes)
    w.s.objs.isEmpty && w.g.formRead == none && w.g.loads == [] && w.accessible i.uses m n .load (addr w) && !w.away accs && !w.loadBlocked accs && w.badPriv accs == [] && w.privGone accs == []
      && need.all (fun q => !w.s.isRemote q.line && !w.s.lineLost w.cx.zone q.leaf q.line) && need.any fun q => w.l1Hit q.leaf q.line == none
theorem witness_loadsStart :
    (starts (.ld (load adS (.v 8 false))) 4 (fun w t => w.globalOf adS 4 false true t) id
    && starts (.ldun (load adS (.v 8 false))) 4 (fun w t => w.globalOf adS 4 false false t) id
    && starts (.ldx (load adS (.v 8 false))) 4 (fun w t => w.globalOf adS 4 true true t) id) = true := by decide

def stores (i : Instr) (s : State) (n : Nat) (acc : Acc) (addr : View → Nat → AddrOut) (p : View → List ThreadAcc → Bool) : Bool :=
  meets i s fun w m => w.s.objs.isEmpty && w.accessible i.uses m n acc (addr w) && p w (w.accsOf i.uses m n acc (addr w))
theorem witness_globalStores :
    (stores (.st (store adS (v 7))) (mem (with_ (.st (store adS (v 7))))) 4 .store (fun w t => w.globalOf adS 4 false true t)
      (fun w accs => accs.all isGlob && decide (w.g.sbuf.length < 16))
    && stores (.stx (store adS (v 7))) (mem (with_ (.stx (store adS (v 7))))) 4 .store (fun w t => w.globalOf adS 4 true true t)
      (fun w accs => accs.all isGlob && decide (w.g.sbuf.length < 16))
    && stores (.st (store adS (v 7))) (dirtyByte (mem (with_ (.st (store adS (v 7)))))) 4 .store (fun w t => w.globalOf adS 4 false true t)
      (fun w accs => accs.all isGlob && w.g.pdirty.any fun b => accs.any fun a => a.pcs.any fun p => lineOf p.pa == lineOf b.1)) = true := by decide
def isScr (a : ThreadAcc) : Bool := match a.tgt with
  | .scr .. => true
  | _ => false
def mcst : Mcst := { ctl := ctl, ty := .b32, a := v 6, m := r 4, c := v 7, off := 0 }
theorem witness_scratchStores :
    (stores (.sts (store adV (v 7))) (vset (mem (with_ (.sts (store adV (v 7))))) 6 4092) 4 .store (fun w t => w.scratchOf adV false 4 t)
      (fun w accs => accs.all isScr && !w.away accs && !w.g.releasePending)
    && stores (.mcst mcst) (sset (mem (with_ (.mcst mcst))) 4 1) 4 .store (fun w t => w.mcstAddr mcst 4 t)
      (fun w accs => accs.all isScr && !w.away accs && !w.g.releasePending && w.n128 mcst.m 0 == 1)) = true := by decide
/-- A bank of the core serves as cache. -/
def cached (s : State) : State := { s with banks := [(0, { owner := some 64 })] }
def wbp : Wbp := { ctl := ctl, ad := adV }
/-- The pieces lie in private pages of the device's HBM, nothing of the group is on its way to their lines, and their home is there. -/
def privHere (w : View) (accs : List ThreadAcc) : Bool :=
  (accs.all fun a => isPriv a && a.pcs.all fun p => !w.g.openOn (lineOf p.pa)) && w.privGone accs == [] && decide (w.g.sbuf.length < 16)
def privTaken (w : View) (b : Nat × Byte) : Bool :=
  !w.s.homeLost (w.s.homeOf (w.s.zoneOf w.cx.zone) (rget {} w.g.pleaf (lineOf b.1)) (lineOf b.1 * 128)) && !w.s.isCode (lineOf b.1 * 128)
theorem witness_privateStores :
    (stores (.stp (store adV (v 7))) (cached (vset (mem (with_ (.stp (store adV (v 7))))) 6 60)) 4 .privStore
      (fun w t => w.privAddr (w.offsetOf adV 4 t) 4) (fun w accs => privHere w accs && w.s.hasL1 w.tm.core w.cx.zone && accs.all fun a => a.pcs.all fun p =>
        !p.leaf.unc && decide ((w.s.l1Set w.tm.core w.cx.zone (lineOf p.pa)).length + (w.s.privSet w.tm.core w.cx.zone (lineOf p.pa)).length
          + (dedup (accs.flatMap fun a => a.pcs.map fun p => lineOf p.pa)).length ≤ w.s.l1Ways w.tm.core w.cx.zone))
    && stores (.stp (store adV (v 7))) (vset (mem (with_ (.stp (store adV (v 7))))) 6 60) 4 .privStore
      (fun w t => w.privAddr (w.offsetOf adV 4 t) 4) (fun w accs => privHere w accs && !w.s.hasL1 w.tm.core w.cx.zone && accs.all fun a => a.pcs.all fun p =>
        regionOf (paLocal p.pa) != .host)
    && stores (.stp (store adV (v 7))) (onFar (vset (mem (with_ (.stp (store adV (v 7))))) 6 60)) 4 .privStore
      (fun w t => w.privAddr (w.offsetOf adV 4 t) 4) (fun w accs => accs != [] && accs.all isGlob && decide (w.g.sbuf.length < 16) && w.g.pdirty == [])
    && stores (.wbp wbp) (dirtyByte (mem (with_ (.wbp wbp)))) 4 .privStore (fun w t => w.privAddr (w.offsetOf adV 4 t) 4) (fun w accs =>
      let lines := accs.flatMap fun a => a.pcs.map fun p => lineOf p.pa
      decide (w.g.pdirty.map fun b => paLocal b.1).Nodup && w.g.pdirty.any (fun b => lines.contains (lineOf b.1) && privTaken w b)
        && lines.all fun l => !w.dirtyGone l)
    && (let x : Instr := .wbpAll ⟨ctl⟩
        meets x (grp (mem (with_ x)) fun g => { g with pdirty := [(dataPa, 1), (dataPa + 1, 2)] })
          fun w _ => decide (w.g.pdirty.map fun b => paLocal b.1).Nodup && w.g.pdirty.all fun b => privTaken w b && !w.dirtyGone (lineOf b.1))) = true := by decide

/-! OperandQueues, TeamFifos, ConstantLoadsAndPrefetches -/

def qpop (s : State) (q : OpQueue) : State := grp s fun g => { g with queues := [(2, q)] }
def qp : Qpop := { ctl := ctl, ty := .b32, n := 2, pv := 1, d := .v 5 false }
def elem0 : List Nat × Mask := (List.replicate 32 7, 0)
theorem witness_queues : ∀ i ∈ [Instr.qpop qp, .qpeek qp],
    ([{ entries := [elem0] }, { ended := true }, { ended := false }, { ended := false, stop := some (.trap 0x14 1 5) },
        { stop := some (.fault { va := 0x10000, zone := 64 } none) }] : List OpQueue).map
      (fun q => meets i (qpop (with_ i) q) fun w _ => rget {} w.g.queues 2 == q) = [true, true, true, true, true] := by decide
def fpush : Fpush := { ctl := ctl, ty := .b32, n := 0, c := v 6 }
def fpop : Fpop := { ctl := ctl, ty := .b32, n := 0, pv := 1, d := .v 5 false }
def fifoE : FifoE := { valid := 1, elems := List.replicate 32 7, wide := false, stamp := 3 }
set_option maxRecDepth 2000 in
theorem witness_fifoRoom : (meets (.fpush fpush) (team (mem (with_ (.fpush fpush))) fun t => { t with fifos := [(0, List.replicate 127 fifoE)] })
    fun w _ => decide (0 < w.tm.fifoN) && fifoUsed (rget [] w.tm.fifos 0) + 1 == 128 && w.g.quiet .team && !w.g.releasePending) = true
    ∧ (meets (.fpush fpush) (grp (mem (with_ (.fpush fpush))) fun g => { g with rels := [⟨1, .clu, false⟩], cluOut := [{ id := 0, team := 1, off := 0, bytes := [], pts := 0 }], seq := 2 })
    fun w _ => decide (0 < w.tm.fifoN) && w.g.releasePending) = true := by decide
theorem witness_fifos :
    ( meets (.fpush fpush) (with_ (.fpush fpush)) (fun w _ => w.tm.fifoN == 0)
    && meets (.fpop fpop) (team (mem (with_ (.fpop fpop))) fun t => { t with fifos := [(0, [fifoE])] })
        (fun w _ => decide (0 < w.tm.fifoN) && rget [] w.tm.fifos 0 == [fifoE] && !fifoE.raw && w.g.loads == [])
    && meets (.fpop fpop) (mem (with_ (.fpop fpop))) (fun w _ => decide (0 < w.tm.fifoN) && rget [] w.tm.fifos 0 == [])
    && meets (.fpop fpop) (with_ (.fpop fpop)) (fun w _ => w.tm.fifoN == 0)) = true := by decide
def ldc : Ldc := { ctl := ctl, ty := .b32, d := .v 5 false, a := v 6, b := v 7, scale := 0, ixu := false, bank := 0, off := 0 }
theorem witness_ldc : (meets (.ldc ldc) (vset (with_ (.ldc ldc)) 6 8) fun w m =>
    (lanes (Instr.ldc ldc).uses m).all fun k => w.n32 ldc.a k == 8 && w.int .i32 ldc.b k == 0) = true := by decide
def pref : Pref := { ctl := ctl, l2 := true, ad := adS }
theorem witness_pref : meets (.pref pref) (mem (with_ (.pref pref))) (fun w m =>
    let vas := (threadsOf m).filterMap fun k => match w.globalOf adS 1 false true k with
      | ⟨[], .glob va⟩ => some va
      | _ => none
    vas.length == 32 && !w.walkBehind .load vas && (View.translateQuiet { w with s := w.installQuiet .load vas } 0x10000 .load).any fun x =>
      lineOf x.1 == line0 && !x.2.unc && !w.s.isRemote line0 && !w.s.lineLost w.cx.zone x.2 line0) = true := by decide

/-! GlobalAtomicsIssue, ScratchpadAtomics, FencesAndClocks, PromotionAndLeases -/

def atom (sem : Sem) (b : Src) : Atom :=
  { ctl := ctl, ty := .n32, aop := .add, sem := sem, scope := .dev, off := 0, d := .v 5 false, a := b, b := v 7, c := none }
def atomAddr (w : View) (win : Bool) (k : Nat) : AddrOut := w.wideAddr (w.n128 (r 2) k) 0 4 win true
/-- A page of doorbells at the virtual address 0x10000. -/
def doorbells (s : State) : State :=
  { s with tlb1 := { loc := 0, zone := 64, ctx := 0, vpn := 1, ppn := 0x3F0000000000 / 2 ^ 16, leaf := dleaf } :: s.tlb1 }
def full (s : State) : State := grp s fun g => { g with sbuf := List.replicate 16 entry0 }
theorem witness_globalAtomics : ∀ p ∈ [(Instr.atom (atom .ar (r 2)), false), (.atomx (atom .ar (r 2)), true),
      (.red { ctl := ctl, ty := .n32, aop := .add, rel := true, scope := .dev, off := 0, a := r 2, b := v 7 }, false)],
    (stores p.1 (mem (with_ p.1)) 4 .atomic (fun w => atomAddr w p.2) fun w accs =>
      accs.all isGlob && accs.filter isFar == [] && w.atomRegs accs == 0 && decide (w.g.sbuf.length < 16) && w.g.pdirty == [])
    && (stores p.1 (dirtyByte (mem (with_ p.1))) 4 .atomic (fun w => atomAddr w p.2) fun w accs =>
      w.g.pdirty.any fun b => accs.any fun a => a.pcs.any fun q => lineOf q.pa == lineOf b.1)
    && (stores p.1 (doorbells (mem (with_ p.1))) 4 .atomic (fun w => atomAddr w p.2) fun w accs => accs.all isGlob && w.atomRegs accs != 0)
    && (stores p.1 (full (mem (with_ p.1))) 4 .atomic (fun w => atomAddr w p.2) fun w accs =>
      accs.all isGlob && w.atomRegs accs == 0 && decide (16 ≤ w.g.sbuf.length)) = true := by decide
def atoms (pe : Bool) : Atoms :=
  { ctl := ctl, ty := .n32, aop := .add, sem := .ar, scope := .team, pe := pe, off := 0, d := .v 5 false, a := if pe then v 8 else v 6,
    b := v 7, c := none }
def inScratch (w : View) (accs : List ThreadAcc) : Bool :=
  accs.all isScr && !w.away accs && w.badPriv accs == [] && !w.g.releasePending && w.g.quiet .team && w.g.loads == []
theorem witness_scratchAtomics :
    ((stores (.atoms (atoms false)) (vset (mem (with_ (.atoms (atoms false)))) 6 4092) 4 .atomic
        (fun w j => scratchAddr w.g.team w.tm (w.offAddr (v 6) 0 4 j) 4 true) inScratch)
    && (stores (.atoms (atoms true)) (mem (with_ (.atoms (atoms true)))) 4 .atomic (fun w j => w.peAddr (w.n64 (v 8) j) 4) inScratch)
    && (stores (.atomx (atom .ar (r 2))) (sset (sset (mem (with_ (.atomx (atom .ar (r 2))))) 2 0) 3 0xFF) 4 .atomic
        (fun w k => atomAddr w true k) inScratch)) = true := by decide
def busy (s : State) : State := grp s fun g => { g with sbuf := [stored (.store [1, 2, 3, 4])], loads := [lrec .l2], seq := 1 }
def fence : Instr := .fence { ctl := ctl, scope := .dev }
def acq : Instr := .acq { ctl := ctl, scope := .dev }
theorem witness_fences : (meets fence (with_ fence) (fun w _ => w.g.quiet .dev) && meets fence (busy (with_ fence)) (fun w _ => !w.g.quiet .dev)
    && meets acq (with_ acq) (fun w _ => w.g.reads == []) && meets acq (busy (with_ acq)) (fun w _ => w.g.reads != [])) = true := by decide
def acqr (a : Src) : Instr := .acqr { ctl := ctl, a := a }
/-- Two teams in a cluster; the promotion of team 1 has begun. -/
def pair (s : State) : State :=
  let t := (look s.teams 0).getD {}
  { grp s fun g => { g with acqr := [1] } with teams := [(0, { t with tpc := 2 }), (1, { t with tpc := 2, crank := 1, groups := [] })] }
theorem witness_acqr : (meets (acqr (.imm 1)) (with_ (acqr (.imm 1))) (fun w m => (threadsOf m).any fun k => decide (w.tm.tpc ≤ w.n32 (.imm 1) k))
    && meets (acqr (.imm 1)) (pair (with_ (acqr (.imm 1)))) (fun w m => (threadsOf m).all (fun k => decide (w.n32 (.imm 1) k < w.tm.tpc))
        && w.g.quiet .dev && w.g.acqr != [] && w.victims [1] != [] && (w.victims [1]).all fun v => !v.2.away && w.s.drained v.1)
    && meets (acqr (.imm 1)) (let s := pair (with_ (acqr (.imm 1))); { s with teams := upd s.teams 1 fun t => { t with run := .spilled, away := true } })
        (fun w _ => w.victims [1] != [] && (w.victims [1]).all fun v => v.2.run == .spilled && w.s.drained v.1)
    && meets (acqr (.imm 1)) (busy (pair (with_ (acqr (.imm 1))))) (fun w _ => !w.g.quiet .dev)) = true := by decide
def lease : Off2 := { ctl := ctl, off := 0, a := v 8, b := v 7 }
theorem witness_lease : stores (.lease lease) (vset (mem (with_ (.lease lease))) 8 0x10000) 1 .load
    (fun w k => w.wideAddr (w.n128 (v 8) k) 0 1 false true) (fun _ accs => accs.any fun a => a.pcs != []) = true := by decide

/-! SynchronisationWords, CoherenceObjects -/

def word (w : View) (k : Nat) : AddrOut := scratchAddr w.g.team w.tm (w.n32 (v 6) k) 16 true
def swarm : Instr := .swarm { ctl := ctl, off := 0, a := v 6, b := v 7 }
def swgen : Instr := .swgen { ctl := ctl, off := 0, d := .v 8 false, a := v 6 }
def swwait (b : Src) : Instr := .swwait { ctl := ctl, off := 0, d := .v 8 false, a := v 6, b := b }
def met (w : View) (m : Mask) (b : Src) : Bool :=
  (lanes (swwait b).uses m).all fun k => readNat w.tm.scratch 8 8 % 2 ^ 32 != w.n32 b k || (readNat w.tm.scratch 8 8).testBit 33
theorem witness_syncWords : (stores swarm (mem (with_ swarm)) 16 .store word (fun w _ => !w.g.releasePending)
    && stores swgen (mem (with_ swgen)) 16 .load word (fun _ _ => true)
    && stores (swwait (.imm 1)) (mem (with_ (swwait (.imm 1)))) 16 .load word (fun w _ => met w 0xFFFFFFFF (.imm 1) && w.g.loads == [])
    && stores (swwait .zero) (mem (with_ (swwait .zero))) 16 .load word (fun w _ => !met w 0xFFFFFFFF .zero)) = true := by decide
/-- A shape record of one tile of the given element code and row length: at 0x10000, rows of 128 bytes apart. -/
def shapeAt (code d0 t1 : Nat) : List Byte :=
  bytesOf 8 0x10000 ++ bytesOf 4 (2 ^ 8 * code) ++ bytesOf 4 d0 ++ bytesOf 4 t1 ++ bytesOf 4 1 ++ bytesOf 8 128 ++ bytesOf 8 (128 * t1)
    ++ bytesOf 4 d0 ++ bytesOf 4 t1 ++ bytesOf 4 1 ++ bytesOf 12 0
def objdecl : Instr := .objdecl { ctl := ctl, race := false, d := 8, a := r 2 }
/-- The record has been read: the form acts on it. -/
def readIn (bs : List Byte) (bad : Bool) (s : State) : State := grp s fun g => { g with formRead := some (bs, bad) }
def declared (x : List Byte) (f : State → State) (p : View → List Byte → Bool) : Bool :=
  stores objdecl (readIn x false (f (mem (with_ objdecl)))) 64 .load (fun w _ => w.wideAddr (w.n128 (r 2) 0) 0 64 false true) fun w _ => p w x
def zoneQuota (n : Nat) (s : State) : State := { s with zones := upd s.zones 64 fun z => { z with oquota := n } }
def objAt (s : State) : State := { s with objs := [(0, { zone := 64, race := false, tiles := [[line0]], rstat := [] })] }
set_option maxRecDepth 4000 in
theorem witness_objdecl :
    (declared [] id (fun _ bs => (Shape.read bs false).isNone)
    && declared (shapeAt 0x1A 16 1) id (fun _ bs => (Shape.read bs false).any fun x => !x.lineRows)
    && declared (shapeAt 0x1A 32 513) id (fun _ bs => (Shape.read bs false).any fun x => x.lineRows && decide (512 < x.tileLines))
    && declared (shapeAt 0x1A 32 1) id (fun w bs => (Shape.read bs false).any fun x => x.lineRows && decide (x.tileLines ≤ 512)
        && (w.s.freeHandle).isSome && !w.walkBehind .load ((List.range x.ntile).flatMap x.lineVas)
        && (w.installQuiet .load ((List.range x.ntile).flatMap x.lineVas)).objs.length == 0 && (w.s.zoneOf w.cx.zone).oquotaNow == 0)
    && declared (shapeAt 0x1A 32 1) (zoneQuota 1) (fun w bs => (Shape.read bs false).any fun x => x.lineRows
        && (w.s.freeHandle).isSome && w.s.objs == [] && (w.s.zoneOf w.cx.zone).oquotaNow == 1
        && (View.objTiles { w with s := w.installQuiet .load ((List.range x.ntile).flatMap x.lineVas) } x).map (fun t => t.map (·.1)) == [[line0]])) = true := by decide
def objdrop : Instr := .objdrop { ctl := ctl, d := 8, a := r 9 }
theorem witness_objdrop : (meets objdrop (objAt (with_ objdrop)) (fun w _ => (look w.s.objs 0).any fun o => o.zone == w.cx.zone)
    && meets objdrop (with_ objdrop) (fun w _ => look w.s.objs 0 == none)) = true := by decide


set_option maxRecDepth 4000 in
theorem witness_objdeclTaken : meets objdecl (readIn (shapeAt 0x1A 32 1) false (objAt (zoneQuota 9 (mem (with_ objdecl))))) (fun w m =>
    let addr := fun _ => w.wideAddr (w.n128 (r 2) 0) 0 64 false true
    w.accessible objdecl.uses m 64 .load addr && match w.raceCheck (w.accsOf objdecl.uses m 64 .load addr) false with
      | .ok s1 => (Shape.read (shapeAt 0x1A 32 1) false).any fun x =>
          let s2 := View.installQuiet { w with s := s1 } .load ((List.range x.ntile).flatMap x.lineVas)
          s2.freeHandle == some 1 && s2.objs.any fun o => o.2.tiles.any fun ls => ls.any fun l =>
            ((View.objTiles { w with s := s2 } x).flatten.map (·.1)).contains l
      | .error _ => false) = true := by decide
theorem look_numbered {α : Type} (a : α) (l : List Nat) (k : Nat) (h : k ∈ l) : look (l.map fun j => (j, a)) k = some a := by
  induction l with
  | nil => simp at h
  | cons j l ih =>
    by_cases e : j = k
    · simp [look, e]
    · simp only [List.map_cons, look, e, if_false]
      exact ih (by simpa [Ne.symm e] using h)
theorem witness_noHandle (o : Obj) : ({ base with objs := (List.range 16384).map fun j => (j, o) } : State).freeHandle = none := by
  unfold State.freeHandle
  rw [List.find?_eq_none]
  intro h _
  by_cases e : h < 16384
  · rw [look_numbered o _ h (List.mem_range.2 e)]
    simp
  · simp [e]

/-! TileForms, TileRowsAndPlanes, MatrixForms -/

/-- The team holds the quadrant's tile store. -/
def tiled (s : State) (f : Quad → Quad) : State := { mem s with quads := [(0, f { ctx := some 0, holder := some 0, zones := [64] })] }
def free (w : View) (n : Nat) : Bool := match w.store? with
  | some q => q.tmarks == [] && q.ownerOf n == none
  | none => false
def mxzero : Instr := .mxzero { ctl := ctl, mask := 0x8001 }
def mxrd : Instr := .mxrd { ctl := ctl, n := 15, d := .v 5 false, a := v 6 }
def mxwr : Instr := .mxwr { ctl := ctl, n := 15, a := v 6, b := v 7 }
def mxscl : Instr := .mxscl { ctl := ctl, col := true, n := 0, a := v 6 }
def mxperm : Instr := .mxperm { ctl := ctl, col := false, td := 1, ts := 0, a := r 4 }
theorem witness_tiles : (meets mxzero (tiled (with_ mxzero) id) (fun w _ => free w 0 && free w 15)
    && meets mxrd (vset (tiled (with_ mxrd) id) 6 31) (fun w m => free w 15 && (threadsOf m).all fun k => decide (w.n32 (v 6) k < 32))
    && meets mxwr (vset (tiled (with_ mxwr) id) 6 31) (fun w m => free w 15 && (threadsOf m).all fun k => decide (w.n32 (v 6) k < 32))
    && meets mxscl (tiled (with_ mxscl) id) (fun w _ => free w 0)
    && meets mxperm (sset (team (tiled (with_ mxperm) id) fun t => { t with scratch := writeNat [] 3968 4 1 }) 4 3968) (fun w m => free w 0 && free w 1
        && w.n32 (r 4) (lowest m) % 128 == 0 && decide (w.n32 (r 4) (lowest m) + 128 ≤ w.tm.scratchSize)
        && readNat w.tm.scratch 3968 4 == 1 && (List.range 31).all fun k => readNat w.tm.scratch (3972 + 4 * k) 4 == 0)) = true := by decide
def mxst : Instr := .mxst { ctl := ctl, n := 0, off := 31, a := .zero }
def mxepi : Instr := .mxepi { ctl := ctl, dt := .f16, st := .f32, relu := true, sat := false, off := 0, n := 0, a := .zero, b := v 7 }
def plane : Instr := .plane { ctl := ctl, fmt := .e4m3, p1 := 6, off := 0, a := .zero, b := v 7, c := r 8 }
def unplane : Instr := .unplane { ctl := ctl, fmt := .i4, p1 := 3, off := 16, d := .v 5 false, a := .zero, c := .imm 0 }
theorem witness_tileRows : (meets mxst (tiled (with_ mxst) id) (fun w _ => free w 0 && w.tm.scratchSize == 31 * 128 + 128 && !w.g.releasePending)
    && meets mxepi (tiled (with_ mxepi) id) (fun w _ => free w 0 && decide (64 ≤ w.tm.scratchSize) && !w.g.releasePending)
    && meets plane (sset (mem (with_ plane)) 8 127) (fun w m => decide (512 * 7 + 128 ≤ w.tm.scratchSize) && w.n32 (r 8) (lowest m) == 31 + 32 * 3
        && !w.g.releasePending)
    && meets unplane (mem (with_ unplane)) (fun w m => w.tm.scratchSize == 16 * 128 + 512 * 4 && w.n32 (.imm 0) (lowest m) == 0)) = true := by decide

/-- A parameter block: .i8 by .i8, one tile, integer accumulation, operands at 0 and at 4096. -/
def block : List Byte :=
  [3, 3, 8, 8, 1, 1, 1, 0, 0, 1] ++ List.replicate 14 0 ++ bytesOf 4 0 ++ bytesOf 4 0x1000 ++ List.replicate 32 0
def mxop : Instr := .mxop { ctl := ctl, off := 1, d := 9, a := .zero }
def op0 : MxOp := { id := 1, group := 0, team := 0, blk := block, pts := 0, left := 64 }
def withBlock (b : List Byte) (s : State) : State := team s fun t => { t with scratchSize := 8192, scratch := writeBytes [] 64 b }
def blockOf (w : View) : List Byte := readBytes w.tm.scratch 64 64
set_option maxRecDepth 2000 in
theorem witness_mxop : (meets mxop (withBlock block (mem (with_ mxop))) (fun w _ => w.store?.isNone && decide (128 ≤ w.tm.scratchSize))
    && (let y : Instr := .mxop { ctl := ctl, off := 1, d := 9, a := .imm 1 }
        meets y (withBlock block (tiled (with_ y) id)) (fun w _ => w.store?.isSome && w.n32 (.imm 1) 0 == 1))
    && meets mxop (tiled (with_ mxop) id) (fun w _ => w.store?.isSome && decide (w.tm.scratchSize ≤ 8192))
    && ([7, 8].all fun n => meets mxop (withBlock block (tiled (with_ mxop) fun q => { q with queue := List.replicate n op0 })) (fun w _ =>
        decide (128 ≤ w.tm.scratchSize) && w.store?.any fun q => q.queue.length == n))) = true := by decide
def mxwait (n : BitVec 7) : Instr := .mxwait { ctl := ctl, a := .imm n }
def mxqry (n : BitVec 2) : Instr := .mxqry { ctl := ctl, d := 8, sel := n }
def leave (n : BitVec 7) : Instr := .leave { ctl := ctl, a := .imm n }
theorem witness_mxwait : (meets (mxwait 3) (with_ (mxwait 3)) (fun w _ => w.store?.isNone)
    && meets (mxwait 3) (tiled (with_ (mxwait 3)) fun q => { q with last := 4, done := 3 }) (fun w _ => w.store?.any fun q => mxWaitMet q 3)
    && meets (mxwait 3) (tiled (with_ (mxwait 3)) fun q => { q with last := 4, done := 2 }) (fun w _ => w.store?.any fun q => !mxWaitMet q 3)
    && (List.range 4).all fun k => meets (mxqry (BitVec.ofNat 2 k)) (tiled (with_ (mxqry (BitVec.ofNat 2 k))) id) (fun w _ => w.store?.isSome)
        && meets (mxqry (BitVec.ofNat 2 k)) (with_ (mxqry (BitVec.ofNat 2 k))) (fun w _ => w.store?.isNone)) = true := by decide
theorem witness_leave : (meets (leave 9) (with_ (leave 9)) (fun w _ => w.store?.isNone)
    && ([some true, some false, none] : List (Option Bool)).all fun l =>
      meets (leave 9) (grp (tiled (with_ (leave 9)) id) fun g => { g with leave := l })
        (fun w _ => w.g.leave == l && w.store?.any fun q => min (w.n32 (.imm 9) 0) (2 ^ 20 - q.balance) == 9)
      && meets (leave 9) (tiled (with_ (leave 9)) fun q => { q with grants := [(0, 2 ^ 20)] })
        (fun w _ => w.store?.any fun q => min (w.n32 (.imm 9) 0) (2 ^ 20 - q.balance) == 0)) = true := by decide

/-! TrapsAndReturns, SpecialRegisters -/

def rett : Instr := .rett { ctl := ctl }
def handler (s : State) (f : Group → Group) : State := grp s fun g => f { g with handler := true }
theorem witness_trap : ([false, true].all fun b =>
    meets (.trap { ctl := ctl, brk := b, n := 5 }) (with_ (.trap { ctl := ctl, brk := b, n := 5 })) fun _ _ => true) = true := by decide
def epcGood (w : View) : Bool :=
  let off := (w.g.epc - w.tm.codeBase.setWidth 64).toNat
  off % 12 == 0 && decide (off < w.tm.textSize)
theorem witness_rett : (meets rett (with_ rett) (fun w _ => !w.g.handler)
    && meets rett (handler (with_ rett) fun g => { g with tmask := 1, epc := 12 }) (fun w _ => w.g.handler && w.g.tmask != 0 && !epcGood w)
    && meets rett (handler (with_ rett) fun g => { g with tmask := 1 }) (fun w _ => w.g.handler && epcGood w && w.g.heldLog == none)
    && meets rett (handler (with_ rett) fun g => { g with epc := 12 }) (fun w _ => w.g.handler && w.g.tmask == 0 && w.g.heldLog == none)
    && meets rett (handler { with_ rett with ctxs := [(0, logging 1)] } fun g => { g with heldLog := some ⟨0, 0, 1⟩ })
        (fun w _ => w.g.handler && w.g.heldLog.isSome && decide (w.cx.alogwidx.toNat < w.cx.alogcap.toNat))) = true := by decide

def srrd (n : BitVec 8) : Instr := .srrd { ctl := ctl, ty := .b64, num := n, d := .s 8 }
def srwr (n : BitVec 8) (a : Src) : Instr := .srwr { ctl := ctl, ty := .b64, num := n, a := a }
def user (s : State) : State := { s with ctxs := [(0, { cx0 with priv := .user })] }
def inflight1 (s : State) : State := grp s fun g => { g with inflight := [flown 0] }
def anyGuard (i : Instr) (s : State) (p : View → Bool) : Bool := meets i s fun w _ => p w
theorem witness_srrd : (([0x05, 0x20] : List (BitVec 8)).all fun n => anyGuard (srrd n) (user (with_ (srrd n))) fun w => w.cx.priv == .user) = true
    ∧ anyGuard (srrd 0x18) (inflight1 (with_ (srrd 0x18))) (fun w => w.g.inflight != []) = true
    ∧ anyGuard (srrd 0x18) (with_ (srrd 0x18)) (fun w => w.g.inflight == [] && w.g.pends == []) = true
    ∧ anyGuard (srrd 0x20) (with_ (srrd 0x20)) (fun w => w.cx.priv == .hyp) = true := by decide
theorem witness_srwr : (([0x0A, 0x0B, 0x11, 0x12, 0x14, 0x18, 0x19, 0x1A, 0x1B, 0x1C, 0x20] : List (BitVec 8)).all fun n =>
      anyGuard (srwr n (r 6)) (with_ (srwr n (r 6))) fun w => w.g.quiet .dev && w.g.inflight == [] && w.g.pends == [] && w.cx.priv == .hyp) = true
    ∧ anyGuard (srwr 0x11 (r 6)) (handler (with_ (srwr 0x11 (r 6))) id) (fun w => w.g.handler) = true
    ∧ anyGuard (srwr 0x20 (r 6)) (user (with_ (srwr 0x20 (r 6)))) (fun w => w.cx.priv == .user) = true
    ∧ anyGuard (srwr 0x0A (r 6)) (user (with_ (srwr 0x0A (r 6)))) (fun w => w.cx.priv == .user) = true
    ∧ anyGuard (srwr 0x0A (r 6)) ({ with_ (srwr 0x0A (r 6)) with now := 7 }) (fun w =>
        decide (w.n64 (r 6) 0 < max w.cx.tlast (w.cx.baseval + w.s.now - w.cx.baseptp))) = true := by decide

/-! TeamsAndEvents -/

def sd (f : SdA → Instr) : Instr := f { ctl := ctl, d := 5, a := r 6 }
def sdb (f : SdAB → Instr) : Instr := f { ctl := ctl, d := 5, a := r 6, b := r 8 }
/-- An instruction's state with s6 and s8 set and more. -/
def on (i : Instr) (a b : Nat) (f : State → State) (p : View → Bool) : Bool := meets i (f (sset (sset (with_ i) 6 a) 8 b)) fun w _ => p w
/-- Another team, number 1, of the graph instance 7, with its group 1. -/
def other (t : Team → Team) (g : Group → Group) (s : State) : State :=
  { s with teams := put s.teams 1 (t { tm0 with gti := 7, cluster := 1, groups := [1] }), groups := put s.groups 1 (g { g0 with team := 1, quad := 1, slot := none }) }
def stop : Instr := sd .haltStop
def resume : Instr := sd .haltResume
def kill : Instr := sd .haltKill
def named (w : View) (p : Team → Bool) : Bool := match w.teamNamed (w.n64 (r 6) 0) with
  | some (k, tm) => k == 1 && p tm
  | none => false
theorem witness_halt : ([stop, resume, kill].all fun i => on i 9 0 id fun w => w.g.begun == none && (w.teamNamed (w.n64 (r 6) 0)).isNone)
    && on stop 7 0 (other id id) (fun w => named w (fun tm => tm.run == .running) && w.s.groups.any fun g => g.2.team == 1 && !g.2.stopped)
    && on stop 7 0 (other id fun g => { g with stopped := true }) (fun w => named w (fun _ => true) && w.s.groups.all fun g => g.2.team != 1 || g.2.stopped)
    && on resume 7 0 (other id id) (fun w => named w fun tm => tm.run != .halted)
    && on resume 7 0 (other (fun t => { t with run := .halted }) id) (fun w => named w fun tm => tm.run == .halted)
    && on resume 7 0 (other (fun t => { t with run := .spilled, haltRun := .halted }) id) (fun w => named w fun tm => tm.run == .spilled && tm.haltRun == .halted)
    && on kill 7 0 (other id id) (fun w => w.g.begun == none && named w fun _ => true)
    && on kill 7 0 (fun s => other (fun t => { t with run := .retired }) id (grp s fun g => { g with begun := some 1 }))
        (fun w => w.g.begun == some 1 && (look w.s.teams 1).all fun t => t.run == .retired)
    && on kill 7 0 (fun s => other id id (grp s fun g => { g with begun := some 1 }))
        (fun w => w.g.begun == some 1 && (look w.s.teams 1).any fun t => t.run != .retired) = true := by decide
def evwait (n : BitVec 7) : Instr := .evwait { ctl := ctl, d := 6, a := .imm n }
def queueOf (w : View) : Nat := if w.cx.priv = .hyp then 64 else w.cx.zone
theorem witness_evwait : (meets (evwait 0) (with_ (evwait 0)) (fun w _ => rget [] w.s.evq (queueOf w) == [])
    && meets (evwait 3) { with_ (evwait 3) with evq := [(64, [{ code := 6 }])] } (fun w _ => rget [] w.s.evq (queueOf w) != [])
    && meets (evwait 3) (grp (with_ (evwait 3)) fun g => { g with evUntil := some 0 }) (fun w _ => rget [] w.s.evq (queueOf w) == [] && w.g.evUntil == some 0)
    && meets (evwait 3) (with_ (evwait 3)) (fun w _ => rget [] w.s.evq (queueOf w) == [] && w.n32 (.imm 3) 0 != 0 && w.g.evUntil == none)) = true := by decide
theorem witness_sysc : on (sd .sysc) 0 0 id (fun w => w.cx.priv == .hyp) && on (sd .sysc) 0 0 user (fun w => w.cx.priv != .hyp) = true := by decide
theorem witness_evsig : on (sdb .evsigSig) 3 0 id (fun w => w.g.signalsClear && (look w.s.zones 3).isNone)
    && on (sdb .evsigSig) 64 0 (fun s => { s with evHeld := [(64, { code := 6 })] }) (fun w => w.g.signalsClear && w.s.evHeld.any fun h => h.1 == 64)
    && on (sdb .evsigSig) 64 0 id (fun w => w.g.signalsClear && w.s.evHeld == [] && rget [] w.s.evq 64 == [])
    && on (sdb .evsigAns) 7 5 id (fun w => w.g.signalsClear && w.s.groups.all fun g => g.2.sysc == none)
    && on (sdb .evsigAns) 7 5 (other id fun g => { g with sysc := some ⟨3, 0, []⟩ }) (fun w => w.g.signalsClear && w.cx.priv == .hyp
        && (w.s.groups.filter fun g => g.2.sysc.isSome).map (·.1) == [1]) = true := by decide

/-! TlbsFaultsAndQueues, ContextForms -/

theorem witness_tlbinv : ([sdb .tlbinvVa, sdb .tlbinvCtx, sdb .tlbinvZone].all fun i =>
      on i 0x10000 64 id (fun w => w.g.quiet .dev && (look w.s.ctxs (w.n32 (r 8) 0)).isNone && decide (w.n32 (r 8) 0 ≤ 64))
      && on i 0x10000 0 page (fun w => w.g.quiet .dev && (look w.s.ctxs (w.n32 (r 8) 0)).isSome)
      && on i 0x10000 65 id (fun w => decide (64 < w.n32 (r 8) 0)) && on i 0 0 busy (fun w => !w.g.quiet .dev)) = true := by decide
def answered (kind : Nat) (r : FaultRec) : Bool :=
  on (sd .fbresp) (2 ^ 24 * kind) 0 (fun s => { other id (fun g => { g with wait := .parked 0 r (some 0) }) s with fbuf := [(0, r)] }) fun w =>
    w.s.fbuf == [(0, r)] && w.cx.priv == .hyp && (State.view? { w.s with cur := r.group, curPc := 0 }).isSome
theorem witness_fbresp : on (sd .fbresp) 0 0 id (fun w => w.s.fbuf == []) && answered 2 { rec0 with group := 1 } && answered 1 { rec0 with group := 1 }
    && answered 0 { rec0 with group := 1 }
    && on (sd .fbresp) (2 ^ 24) 0 (fun s => { s with fbuf := [(0, { rec0 with acc := .qslice })] }) (fun w =>
      (look w.s.fbuf 0).any fun r => r.group == w.u && w.cx.priv == .hyp) = true := by decide
/-- A request of device 3 that the home has accepted waits at the line of data. -/
def heldAt (s : State) : State := { s with held := [(0, { dev := some 3, pa := dataPa, n := 64, op := .load 0 })], uid := s.uid + 1 }
/-- Queue 5 of zone 3, whose control block is valid; slot 9 belongs to the zone. -/
def queued (e : QDir → QDir) (z : Zone → Zone) (s : State) : State :=
  { s with qdir := [(5, e { valid := true, qcbpa := dataPa / 64, zone := 3 })], zones := [(3, z { hbmbase := dataPa, hbmmax := 4096, size := 4096, slots := [9] })]
           ctxs := s.ctxs ++ [(4, { zone := 3 })], mem := writeByte s.mem (dataPa + 9) 4 }
theorem witness_qmap : on (sdb .qmap) (9 * 256 + 5) 4 id (fun w => !(w.s.qd 5).valid)
    && on (sdb .qmap) (9 * 256 + 5) 4 (queued (fun e => { e with slot := some 9 }) id) (fun w => (w.s.qd 5).slot != none)
    && on (sdb .qmap) (9 * 256 + 5) 4 (fun s => { queued id id s with badLines := [line0] }) (fun w => w.s.badLine line0 && !w.s.lineQueued line0)
    && on (sdb .qmap) (9 * 256 + 5) 4 (fun s => heldAt (queued id id s)) (fun w => w.s.lineQueued (lineOf (w.s.ownPa ((w.s.qd 5).qcbpa * 64))))
    && on (sdb .qmap) (9 * 256 + 5) 4 (queued id id) (fun w =>
      let e := w.s.qd 5
      let x1 : Slot := { queue := 5, ctx := 4, qcb := setField (readBytes w.s.mem (paLocal (e.qcbpa * 64)) 64) 0x10 4 e.lastw.toNat }
      e.valid && (w.s.zoneOf e.zone).slots == [9] && e.slot == none && look w.s.slots 9 == none && (w.s.zoneOf 3).shrink == []
        && (look w.s.ctxs 4).map (·.zone) == some 3 && !w.s.lineQueued line0 && !w.s.badLine line0 && (w.s.backer dataPa).isSome && !x1.overfull && !x1.invalid) = true := by decide
set_option maxRecDepth 2000 in
theorem witness_qunmap : on (sd .qunmap) 5 0 id (fun w => !(w.s.qd 5).valid)
    && on (sd .qunmap) 5 0 (fun s => { queued (fun e => { e with slot := some 9 }) id s with slots := [(9, ⟨5, 4, List.replicate 64 0⟩)] }) (fun w =>
      (w.s.qd 5).slot == some 9 && (look w.s.slots 9).any (fun x => x.qcb.length == 64) && !w.s.isCode dataPa) = true := by decide
def ctxsave : Instr := .ctxsave { ctl := ctl, n := 2, d := 5, a := r 6, b := r 8, c := r 9 }
def second (f : Ctx → Ctx) (s : State) : State := { s with ctxs := s.ctxs ++ [(4, f { zone := 3 })] }
def started (n : Nat) (s : State) : State := grp s fun g => { g with begun := some n }
set_option maxRecDepth 20000 in
theorem witness_ctxsave : on ctxsave 4095 4 id (fun w => w.n128 (r 6) 0 % 4096 != 0) && on ctxsave 4096 4 id (fun w => look w.s.ctxs 4 == none)
    && on ctxsave 4096 0 id (fun w => w.g.begun == none && (look w.s.ctxs 0).isSome)
    && on ctxsave 4096 4 (second fun c => { c with saver := some 0 }) (fun w => w.g.begun == none && (look w.s.ctxs 4).any (w.s.ctxStopping 4))
    && on ctxsave 4096 4 (second id) (fun w => w.g.begun == none && w.tm.ctx != 4 && w.s.slots == [] && w.s.graphs == [])
    && on ctxsave 4096 4 (fun s => started 4 (second (fun c => { c with saver := some 0 }) s)) (fun w => w.g.begun == some 4 && w.s.ctxStopped 4
        && (w.saveNow 4 { zone := 3, saver := some 0 } 2 4096 (w.n64 (r 9) 0)).any fun x => look x.1.groups 0 == look w.s.groups 0) = true := by decide
/-- A context's record stands in memory. -/
def recorded (s : State) : State :=
  let s := { tables s with zones := put s.zones 3 {} }
  { s with mem := writeBytes s.mem dataPa ((second id s).ctxRecord 4 { zone := 3 }).1 }
set_option maxRecDepth 20000 in
theorem witness_ctxloadGood : on (sd .ctxload) 0x10000 0 recorded (fun w => match w.loadCtx 0x10000 with
      | .error _ => false
      | .ok s => w.s.held == [] && look s.groups 0 == look w.s.groups 0
        && (match w.s.exRead w.cx 0x10000 512 with
          | .ok h => (match w.s.exRead w.cx 0x10000 (fieldOf h 0x18 8) with
            | .ok _ => true
            | .error _ => false)
          | .error _ => false)) = true := by decide
theorem witness_ctxload : on (sd .ctxload) 4095 0 id (fun w => w.n128 (r 6) 0 % 4096 != 0)
    && on (sd .ctxload) 4096 0 heldAt (fun w => w.s.held != [])
    && on (sd .ctxload) 4096 0 id (fun w => match w.loadCtx 4096 with
      | .error _ => true
      | .ok _ => false) = true := by decide
def ctxq (n : BitVec 3) : Instr := .ctxq { ctl := ctl, d := 5, sel := n, a := r 6 }
theorem witness_ctxq : ((List.range 5).all fun k => on (ctxq (BitVec.ofNat 3 k)) 0 0 id fun w => (look w.s.ctxs 0).isSome && w.cx.priv == .hyp)
    && on (ctxq 0) 4096 0 id (fun w => decide (4096 ≤ w.n32 (r 6) 0)) && on (ctxq 0) 0 0 (fun s => { s with ctxs := [(0, { cx0 with priv := .sup })] })
      (fun w => w.cx.priv != .hyp) = true := by decide

/-! TaskForms, AccessSlices -/

def tasked (f : Team → Team) (s : State) : State := team s fun t => f { t with task := true, graph := 1 }
/-- A task control block of a kind, its condition at 0x10000. -/
def tcb (kind maxIter : Nat) : List Byte := putFields 128 [(8, 1, kind), (0x1C, 4, maxIter), (0x20, 8, 0x10000), (0x10, 8, 0x10000), (0x18, 4, 1)]
def nodeOf (kind : Nat) : Node := { tcb := tcb kind 2, succ := [], st := .chosen, armed := true }
def graph0 (xs : List Node) : Graph := { ctx := 0, queue := 5, prio := 0, base := 0, nodes := xs, done := 0, tag := 9 }
def graphed (xs : List Node) (s : State) : State := { tasked id s with graphs := [(1, graph0 xs)] }
def cpstat : Instr := .cpstat { ctl := ctl, d := 5, i := 0 }
theorem witness_cpstat : meets cpstat (with_ cpstat) (fun w _ => !w.tm.task) && meets cpstat (tasked id (with_ cpstat)) (fun w _ => w.tm.task && w.tm.inputs == [])
    && meets cpstat (tasked (fun t => { t with inputs := [(7, some 3)] }) (with_ cpstat)) (fun w _ => w.tm.inputs[0]? == some (7, some 3))
    && meets cpstat { tasked (fun t => { t with inputs := [(7, none)] }) (with_ cpstat) with copies := [(4, { team := 0, input := 0, shape := [] })] }
        (fun w _ => w.tm.inputs[0]? == some (7, none) && (w.s.copies.find? fun c => c.2.team == w.g.team && c.2.input == 0).isSome) = true := by decide
def outrdy : Instr := .outrdy { ctl := ctl, i := 1 }
def signalling (s : State) : State := grp (busy s) fun g => { g with signalAt := some 1 }
theorem witness_outrdy : meets outrdy (signalling (with_ outrdy)) (fun w _ => !w.g.signalsClear)
    && meets outrdy (tasked (fun t => { t with nout := 2 }) (with_ outrdy)) (fun w _ => w.g.signalsClear && w.tm.task && w.tm.nout == 2)
    && meets outrdy (with_ outrdy) (fun w _ => w.g.signalsClear && !w.tm.task) = true := by decide
def tcond (n : BitVec 12) : Instr := .tcond { ctl := ctl, d := 5, n := n, a := r 6 }
theorem witness_tcond : meets (tcond 0) (with_ (tcond 0)) (fun w _ => w.graph?.isNone)
    && meets (tcond 1) (graphed [nodeOf 1] (with_ (tcond 1))) (fun w _ => w.graph?.any fun g => g.nodes.length == 1)
    && meets (tcond 0) (graphed [nodeOf 0] (with_ (tcond 0))) (fun w _ => w.graph?.any fun g => (g.node 0).kind == 0)
    && ([1, 2].all fun k => meets (tcond 0) (graphed [nodeOf k] (mem (with_ (tcond 0)))) (fun w m => w.graph?.any fun g =>
        let addr := fun (_ : Nat) => w.wideAddr (g.addr ((g.node 0).fld 0x20 8)).toNat 0 8 false true
        (g.node 0).kind == k && w.s.objs == [] && w.accessible (tcond 0).uses m 8 .store addr && decide (w.g.sbuf.length < 16)
          && (w.accsOf (tcond 0).uses m 8 .store addr).all fun a => a.pcs.all fun p => !isRegLine (lineOf p.pa))) = true := by decide
def tdone : Instr := .tdone { ctl := ctl, a := .imm 5 }
def tspawn : Instr := .tspawn { ctl := ctl, d := 5, a := r 2 }
/-- A packet of the kind, with the flags and the node count. -/
def packetOf (kind flags n : Nat) : List Byte := putFields 64 [(0, 1, kind), (1, 1, flags), (2, 2, n), (8, 8, if kind = 2 then 0 else 0x10000)]
def packet (kind flags n : Nat) (s : State) : State := { s with mem := writeBytes s.mem dataPa (packetOf kind flags n) }
def spawns (bs : List Byte) (f : State → State) (p : View → Bool) : Bool :=
  stores tspawn (readIn bs false (f (graphed [] (mem (with_ tspawn))))) 64 .load (fun w _ => w.wideAddr (w.n128 (r 2) 0) 0 64 false true) fun w _ =>
    w.g.signalsClear && !w.s.zoneQueued w.cx.zone && w.tm.task && (look w.s.graphs w.tm.graph).isSome && p w
set_option maxRecDepth 20000 in
theorem witness_tspawn : meets tspawn (with_ tspawn) (fun w _ => w.g.signalsClear && !w.s.zoneQueued w.cx.zone && !w.tm.task)
    && meets tspawn (signalling (with_ tspawn)) (fun w _ => !w.g.signalsClear)
    && spawns [] id (fun _ => !packetOk [])
    && spawns (packetOf 1 0 1) (fun s => { s with qdir := [(5, { error := true })] }) (fun w => packetOk (packetOf 1 0 1) && !packetFence (packetOf 1 0 1)
        && (w.s.qd 5).slot == none && (w.s.qd 5).error)
    && spawns (packetOf 1 0 1) id (fun w => !(w.s.qd 5).error && w.s.infl 5 == 0 && fieldOf (packetOf 1 0 1) 0 1 == 1)
    && spawns (packetOf 2 0 0) id (fun w => packetOk (packetOf 2 0 0) && !packetFence (packetOf 2 0 0) && !(w.s.qd 5).error && w.s.infl 5 == 0
        && fieldOf (packetOf 2 0 0) 0 1 == 2) = true := by decide
set_option maxRecDepth 4000 in
theorem witness_formReads : starts objdecl 64 (fun w _ => w.wideAddr (w.n128 (r 2) 0) 0 64 false true) id
    && stores objdecl (readIn [] true (mem (with_ objdecl))) 64 .load (fun w _ => w.wideAddr (w.n128 (r 2) 0) 0 64 false true) (fun _ _ => true)
    && starts tspawn 64 (fun w _ => w.wideAddr (w.n128 (r 2) 0) 0 64 false true) (graphed [])
    && stores tspawn (readIn [] true (graphed [] (mem (with_ tspawn)))) 64 .load (fun w _ => w.wideAddr (w.n128 (r 2) 0) 0 64 false true)
      (fun w _ => w.g.signalsClear && !w.s.zoneQueued w.cx.zone && w.tm.task) = true := by decide
theorem witness_tdone : meets tdone (signalling (with_ tdone)) (fun w _ => !w.g.signalsClear) && meets tdone (tasked id (with_ tdone)) (fun w _ => w.g.signalsClear && w.n32 (.imm 5) 0 == 5) = true := by decide

def aend : Instr := .aend { ctl := ctl }
def sliced (st : Stream) (trips : List Nat) (s : State) : State := grp s fun g => { g with slice := some { streams := [(2, st)], trips := trips } }
def stream0 (base : Nat) : Stream := { sp := false, w64 := false, base := base, strides := [4, 0, 0, 0], ts := 4 }
theorem witness_aend : meets aend (sliced (stream0 2) [1, 1, 1, 1] (with_ aend)) (fun w _ => (w.g.slice.getD {}).streams.any fun p => p.2.base % 4 != 0)
    && meets aend (sliced (stream0 (2 ^ 72)) [1, 1, 1, 1] (with_ aend)) (fun w _ => (w.g.slice.getD {}).streams.all fun p => p.2.base % 4 == 0 && decide (2 ^ 72 ≤ p.2.base))
    && ([0, 1].all fun t => meets aend (sliced (stream0 (2 ^ 72 - 4)) [1, 1, 1, t] (with_ aend)) (fun w _ =>
        (w.g.slice.getD {}).streams.all fun p => p.2.base % 4 == 0 && decide (p.2.base < 2 ^ 72))) = true := by decide
def streaming (q : OpQueue) : State := grp base fun g => { g with queues := [(2, q)] }
def spStream (b : Nat) : Stream := { stream0 b with sp := true }
def spQueue (b : Nat) : OpQueue := { bound := true, ended := false, stream := some { spStream b with trips := [1, 1, 1, 1] } }
theorem witness_streams :
    (let s := streaming { waits := true }
     ({ s with banks := [(0, { owner := some 64, mode := 2 })] }).streamChannel ((look s.groups 0).getD {}) tm0 64 = some (0, false))
    ∧ (streaming {}).streamChannel g0 tm0 64 = none
    ∧ (spQueue 0).waits = false ∧ (spQueue 0).stop = none ∧ (spQueue 0).poison = 0 ∧ (spQueue 0).entries.length < 128
    ∧ (∀ k : Fin 32, 0 + (k : Nat) * 4 + 4 ≤ 4096) ∧ tm0.run = .running ∧ tm0.scrbad = [] ∧ g0.hasLive = true ∧ g0.loads = [] := by decide
/-- A stream of global memory whose elements lie in the page of data, and one whose elements lie in the window. -/
def globQueue (b : Nat) : OpQueue := { bound := true, ended := false, stream := some { stream0 b with trips := [1, 1, 1, 1] } }
theorem witness_globalStreams : (match State.view? { page (streaming (globQueue 0x10000)) with cur := 0 } with
      | some w => look w.g.queues 2 == some (globQueue 0x10000) && w.g.sbuf == [] && w.g.fly == [] && (List.range 32).all fun k =>
          let va := BitVec.ofInt 72 ((stream0 0x10000).addr k)
          !isWindow va && (w.translateQuiet va .qslice).any fun r => !w.s.refusedPa r.2 r.1 && !isRegLine (lineOf r.1) && !r.2.unc
      | none => false) = true
    ∧ isWindow (BitVec.ofInt 72 ((stream0 (0xFF * 2 ^ 64)).addr 0)) = true := by decide

/-! TaskEngine -/

def running (x : Node) : State := { tables base with graphs := [(1, graph0 [x])] }
def cxT : Ctx := (look (tables base).ctxs 0).getD {}
def condition (n : Nat) (s : State) : State := { s with mem := writeNat s.mem dataPa 8 n }
set_option maxRecDepth 20000 in
theorem witness_condition : (((condition 3 (running (nodeOf 2))).exTouch cxT 0x10000 8).exRead? cxT 0x10000 8).map natOfBytes = some 3
    ∧ ((running (nodeOf 1)).exTouch cx0 0x10000 8).exRead? cx0 0x10000 8 = none ∧ (running (nodeOf 1)).exQueued cxT 0x10000 8 = false
    ∧ (heldAt (running (nodeOf 1))).exQueued cxT 0x10000 8 = true ∧ (nodeOf 1).kind = 1 ∧ (nodeOf 2).kind = 2
    ∧ (nodeOf 2).fld 0x1C 4 = 2 ∧ (nodeOf 2).iter < 2 ∧ ({ nodeOf 2 with iter := 2 } : Node).fld 0x1C 4 = 2 := by decide
/-- A code object of one kernel of one group, at 0x10000. -/
def object (s : State) : State :=
  let h := putFields 256 [(0, 4, 0x4F435057), (4, 2, 1), (6, 2, 0xB0), (8, 16, natOfBytes encodingHash), (0x1C, 4, 1), (0x20, 8, 0x100), (0x28, 8, 12), (0x50, 8, 0x200)]
  let d := putFields 128 [(8, 8, 12), (0x14, 2, 8), (0x16, 2, 1), (0x18, 2, 1), (0x1A, 2, 1)]
  { s with mem := writeBytes (writeBytes s.mem dataPa h) (dataPa + 0x200) d, cap := { cores := [(0, 1)] }, quads := [(0, { zones := [64] })] }
set_option maxRecDepth 20000 in
theorem witness_ready : (match (object (running (nodeOf 0))).readyKernel cxT (graph0 [nodeOf 0]) (nodeOf 0) with
      | .ok (_, k) => k.gpt == 1 && k.clw == 1 && k.clh == 1
      | .error _ => false) = true
    ∧ (match (running (nodeOf 0)).readyKernel cxT (graph0 [nodeOf 0]) (nodeOf 0) with
      | .ok _ => false
      | .error _ => true) = true ∧ (nodeOf 0).kind = 0 ∧ (nodeOf 0).armed = true := by decide
def kern0 : Kern := { codeVa := 0x10000, base := 0x10100, textSize := 12, entry := 0, regs := 8, gpt := 1, clw := 1, clh := 1, privw := 0, scratch := 0, nout := 0, inputs := [], banks := [], objs := [] }
def ready0 : Node := { nodeOf 0 with st := .ready, kern := some kern0 }
theorem witness_place : (object (running ready0)).tramLoad 0 = 0 ∧ ready0.nextClu < ready0.nclu ∧ ready0.matrix = false
    ∧ ((object (running ready0)).placeTeams 64 (graph0 [ready0]) kern0 [(teamOf 1 0 1 0 0 (graph0 [ready0]) ready0 kern0, 0, [0])]).isSome = true := by decide
def placedTeam (live : Bool) (run : TeamRun) : State :=
  { running { ready0 with nextClu := 1, live := live } with
    teams := [(0, { tm0 with task := true, graph := 1, live := live, run := run })], groups := [(0, { g0 with launched := false })] }
theorem witness_dispatch : (((placedTeam false .running).teamsOf 1 0).filter fun t => !t.2.live) ≠ [] ∧ ready0.count = 0
    ∧ risingKeys (placedTeam false .running).groups = true ∧ ready0.again = []
    ∧ ((∀ tm ∈ (placedTeam true .retired).teams, tm.2.run = .retired) ∧ (∀ c ∈ (placedTeam true .retired).copies, c.2.status ≠ none)) := by decide
theorem witness_groupRetire : (let g := g0.mapThreads fun _ th => { th with stat := .exited }
    ({ base with groups := [(0, g)] } : State).groupDone 0 g = true ∧ (look base.zones (base.zoneNum g)).isSome = true) := by decide
def slot0 (rd wr : Nat) : Slot := { queue := 5, ctx := 0, qcb := putFields 64 [(0, 8, 0x10000), (9, 1, 4), (0x0B, 1, 1), (0x0C, 4, rd), (0x10, 4, wr)] }
def ring (kind flags : Nat) : State := { packet kind flags 1 (tables base) with slots := [(9, slot0 0 1)], qdir := [(5, { valid := true, zone := 64, slot := some 9 })] }
set_option maxRecDepth 20000 in
theorem witness_queue : (slot0 0 1).enabled = true ∧ (slot0 0 1).error = false ∧ (slot0 0 1).rdidx ≠ (slot0 0 1).wridx ∧ (slot0 0 1).infl < 256
    ∧ (slot0 0 1).qcb.length = 64
    ∧ (ring 1 0).exQueued cxT 0x10000 64 = false ∧ ((ring 1 0).exTouch cxT 0x10000 64).zoneQueued 64 = false
    ∧ (((ring 1 0).exTouch cxT 0x10000 64).exRead? cxT 0x10000 64).map (fun bs => (packetOk bs, packetFence bs, fieldOf bs 0 1)) = some (true, false, 1)
    ∧ ((ring 1 1).exRead? cxT 0x10000 64).map (fun bs => (packetOk bs, packetFence bs)) = some (true, true)
    ∧ ((ring 3 0).exRead? cxT 0x10000 64).map packetOk = some false ∧ (ring 1 0).exRead? cx0 0x10000 64 = none
    ∧ ((ring 1 0).qd 5).slot = some 9 ∧ (graph0 [{ nodeOf 0 with st := .retired }]).complete = true := by decide
theorem witness_kick : ((ring 1 0).qd 5).valid = true ∧ (ring 1 0).writerZone (.ctx 0) = some 64 ∧ ((5 : W32) - 0).toNat < 2 ^ 31
    ∧ (ring 1 0).writerHyp (.ctx 0) = true ∧ (ring 1 0).writerHyp .controller = false ∧ (ring 1 0).writerSup .controller 64 = false := by decide

/-! ZoneForms -/

/-- Bytes at 0x10000, which s6 names; the page tables map it. -/
def listed (bs : List Byte) (s : State) : State :=
  let t := tables s
  { t with mem := writeBytes t.mem dataPa bs, cap := { cores := [(0, 3)], slices := (List.range 8).map fun d => (d, 3), chans := 1 } }
def isOk : ZRes → Bool
  | .ok _ => true
  | .error _ => false
/-- A list of one quadrant, number 5. -/
def oneQuad : List Byte := putFields 64 [(0, 4, 1), (16, 8, 2 ^ 60 + 5)]
def zoneBytes : List Byte := putFields 128 [(0, 8, 0), (8, 8, 2 ^ 27)]
def sliceBytes : List Byte := putFields 128 [(0, 1, 1), (64, 1, 1)]
def chanBytes : List Byte := putFields 128 [(0, 8, 2 ^ 21), (8, 2, 1), (64, 4, 2 ^ 18 * 100)]
def zslices : Instr := .zslices { ctl := ctl, d := 5, dist := 6, a := r 6, z := r 8 }
theorem witness_zoneChecks : ([sdb .zcreate, sdb .zgrow, zslices, sdb .zchan, sd .zscrub, sdb .zshrink].all fun i =>
    on i 0x10020 64 id (fun w => w.g.begun == none && w.n128 (r 6) 0 % 64 != 0)
    && on i 0x10000 64 heldAt (fun w => w.g.begun == none && w.n128 (r 6) 0 % 128 == 0 && w.s.zoneQueued w.cx.zone)
    && on i 0x10000 64 busy (fun w => w.g.begun == none && w.n128 (r 6) 0 % 128 == 0 && w.g.sbuf != [])
    && on i 0x10000 64 (fun s => sset s 7 0x100) (fun w => !w.zbehind 64 && !w.s.zoneQueued w.cx.zone && w.g.sbuf == [] && w.g.fly == [] && w.n128 (r 6) 0 == 2 ^ 72 + 0x10000)) = true := by decide
set_option maxRecDepth 20000 in
theorem witness_zoneOk : on (sdb .zcreate) 0x10000 3 (listed zoneBytes) (fun w => isOk (w.zcreate 3 0x10000) && !isOk (w.zcreate 64 0x10000))
    && on (sdb .zgrow) 0x10000 64 (listed oneQuad) (fun w => isOk (w.zgrow 64 0x10000) && !isOk (w.zgrow 3 0x10000))
    && on zslices 0x10000 64 (listed sliceBytes) (fun w => isOk (w.zslices 64 6 0x10000) && !isOk (w.zslices 3 6 0x10000))
    && on (sdb .zchan) 0x10000 64 (listed chanBytes) (fun w => isOk (w.zchan 64 0x10000) && !isOk (w.zchan 3 0x10000))
    && on (sd .zscrub) 0x10000 64 (listed oneQuad) (fun w => isOk (w.zscrub 0x10000))
    && on (sd .zscrub) 0x10000 64 (listed []) (fun w => !isOk (w.zscrub 0x10000))
    && on (sdb .zshrink) 0x10000 64 (fun s => { listed oneQuad s with quads := [(5, { zones := [64] })] }) (fun w =>
        w.g.begun == none && isOk (w.zshrink 64 0x10000) && !isOk (w.zshrink 3 0x10000)) = true := by decide
def zone3 (f : Zone → Zone) (s : State) : State := { s with zones := put s.zones 3 (f {}) }
/-- A form that issued before on the zone waits. -/
theorem witness_zbehind : ([zslices, sdb .zgrow, sdb .zcoins].all fun i =>
    on i 0x10000 64 (fun s => other id (fun g => { g with zform := some (64, 0) }) (grp s fun g => { g with zform := some (64, 1) })) (fun w => w.zbehind 64)) = true := by decide
theorem witness_zshrinkEnds : on (sdb .zshrink) 0 3 (fun s => started 3 (zone3 (fun z => { z with shrunk := [(0, 9)] }) s)) (fun w =>
      w.g.begun == some 3 && look (w.s.zoneOf 3).shrunk 0 == some 9)
    && on (sdb .zshrink) 0 3 (fun s => started 3 (zone3 id s)) (fun w => w.g.begun == some 3 && look (w.s.zoneOf 3).shrunk 0 == none) = true := by decide
def zdestroy (n : BitVec 7) : Instr := .zdestroy { ctl := ctl, d := 5, z := .imm n }
theorem witness_zdestroy : meets (zdestroy 3) (with_ (zdestroy 3)) (fun w _ => look w.s.zones 3 == none)
    && meets (zdestroy 3) (zone3 (fun z => { z with state := .transit }) (with_ (zdestroy 3))) (fun w _ => (w.s.zoneOf 3).state == .transit)
    && meets (zdestroy 3) (zone3 id (second id (with_ (zdestroy 3)))) (fun w _ => w.s.ctxs.any fun c => c.2.zone == 3)
    && meets (zdestroy 3) (zone3 id (with_ (zdestroy 3))) (fun w _ => (look w.s.zones 3).isSome && w.s.ctxs.all (fun c => c.2.zone != 3)
        && w.s.graphs == [] && (w.s.zoneOf 3).slots == []) = true := by decide
def ways64 (live : Bool) (leaving : Nat) (s : State) : State :=
  { s with cap := { slices := if live then [(6, 2 ^ 33)] else [] }, zones := upd s.zones 64 fun z => { z with ways := [(421, 3)], leaving := if leaving = 0 then [] else [(421, leaving)] } }
def zwaysL2 : Instr := .zwaysL2 { ctl := ctl, d := 5, dist := 6, slice := 33, z := r 8, m := r 6 }
def zwaysVault : Instr := .zwaysVault { ctl := ctl, d := 5, v := 3, z := r 8, m := r 6 }
def leavingAfter (x : ZRes) (c : Nat) : Option Nat := match x with
  | .ok s => some (rget 0 (s.zoneOf 64).leaving c)
  | .error _ => none
theorem witness_zways : on zwaysL2 1 64 (ways64 false 0) (fun w => w.g.begun == none && leavingAfter (w.zways 64 421 1 (w.s.cap.sliceLive 6 33)) 421 == none)
    && on zwaysL2 1 64 (ways64 true 0) (fun w => leavingAfter (w.zways 64 421 1 (w.s.cap.sliceLive 6 33)) 421 == some 2)
    && on zwaysL2 3 64 (ways64 true 0) (fun w => leavingAfter (w.zways 64 421 3 (w.s.cap.sliceLive 6 33)) 421 == some 0)
    && on zwaysL2 1 64 (fun s => started 64 (ways64 true 2 s)) (fun w => w.g.begun == some 64 && rget 0 (w.s.zoneOf 64).leaving 421 != 0)
    && on zwaysL2 1 64 (fun s => started 64 (ways64 true 0 s)) (fun w => w.g.begun == some 64 && rget 0 (w.s.zoneOf 64).leaving 421 == 0)
    && on zwaysVault 1 64 id (fun w => w.g.begun == none && leavingAfter (w.zways 64 3 1 (w.s.chipActive 11)) 3 == some 0) = true := by decide
def zcoins : Instr := sdb .zcoins
theorem witness_zcoins : on zcoins 0 64 id (fun w => decide (64 ≤ w.n32 (r 8) 0))
    && on zcoins 1 3 (zone3 id) (fun w => w.n64 (r 6) 0 % 2 ^ 24 == 1 && w.n64 (r 6) 0 / 2 ^ 24 % 2 ^ 24 == 0)
    && on zcoins (7201 * 2 ^ 48) 3 (zone3 id) (fun w => w.n64 (r 6) 0 / 2 ^ 48 == 7201)
    && on zcoins (7200 * 2 ^ 48) 3 (zone3 id) (fun w => w.s.floorsFit 3 7200 (dedup ((w.s.zoneOf 3).windows.map fun q => q.chan)))
    && on zcoins (1 * 2 ^ 48) 3 (fun s => let s := zone3 (fun z => { z with chans := [(7, 0)] }) s
        { s with zones := put s.zones 4 { floor := 7200, chans := [(7, 100)] } })
      (fun w => !w.s.floorsFit 3 1 (dedup ((w.s.zoneOf 3).windows.map fun q => q.chan))) = true := by decide
/-- The n bytes that s6 names, as the zone forms read them. -/
def recordAt (w : View) (n : Nat) : List Byte := match w.s.exRead w.cx (BitVec.ofNat 72 (w.n128 (r 6) 0)) n with
  | .ok bs => bs
  | .error _ => []
def quiet (w : View) : Bool := w.g.begun == none && w.n128 (r 6) 0 % 128 == 0 && decide (w.n128 (r 6) 0 < 2 ^ 72) && w.g.sbuf == [] && w.g.fly == []
  && !w.s.zoneQueued w.cx.zone && !w.zbehind 64 && !w.zbehind 3
/-- The list of one entry, which is quadrant 5. -/
def listIs (w : View) : Bool := fieldOf (recordAt w 16) 0 4 == 1 && fieldOf (recordAt w 16) 4 12 == 0 && recordAt w 24 != []
  && fieldOf (recordAt w 24) 16 8 == 2 ^ 60 + 5
def apart (w : View) (b : List Byte) : Bool := w.s.zones.all fun o =>
  rangesApart (zoneFrom b).hbmbase (zoneFrom b).hbmmax o.2.hbmbase o.2.hbmmax && rangesApart (zoneFrom b).hostbase (zoneFrom b).hostsize o.2.hostbase o.2.hostsize
set_option maxRecDepth 20000 in
theorem witness_zoneCompletes :
    on (sdb .zcreate) 0x10000 3 (listed zoneBytes) (fun w => quiet w && recordAt w 128 != [] && zoneDescOk w.s (recordAt w 128)
      && (List.range 8).all (fun d => w.s.cap.sliceLive d (fieldOf (recordAt w 128) (0x38 + d) 1)) && look w.s.zones 3 == none
      && apart w (recordAt w 128) && decide ((w.s.zones.map fun o => o.2.oquota).sum + (zoneFrom (recordAt w 128)).oquota ≤ 16384)
      && decide ((w.s.zones.map fun o => o.2.pquota).sum + (zoneFrom (recordAt w 128)).pquota ≤ w.s.privTotal))
    && on (sdb .zgrow) 0x10000 64 (listed oneQuad) (fun w => let e := 2 ^ 60 + 5
      quiet w && listIs w && listOk [e] [1, 2] true && (w.s.zoneOf 64).raises true e && w.s.entLive e && !w.s.entBusy 64 e && !w.s.entDirty e && !w.s.entNoRoom 64 e)
    && on (sd .zscrub) 0x10000 64 (listed oneQuad) (fun w => quiet w && listIs w && listOk [2 ^ 60 + 5] [1, 2] false && w.s.entLive (2 ^ 60 + 5)
      && entKind (2 ^ 60 + 5) == 1 && w.s.freeQuad (entNum (2 ^ 60 + 5)))
    && on (sdb .zshrink) 0x10000 64 (fun s => { listed oneQuad s with quads := [(5, { zones := [64] })] }) (fun w => let e := 2 ^ 60 + 5
      quiet w && listIs w && w.s.zoneNamed 64 true && (w.s.zoneOf 64).shrink == [] && listOk [e] [1, 2] false && (w.s.zoneOf 64).raises false e
        && w.s.entLive e && w.s.entHeld 64 e && !w.s.entInUse 64 e) = true := by decide
set_option maxRecDepth 20000 in
theorem witness_mapsComplete :
    on zslices 0x10000 64 (listed sliceBytes) (fun w => let b := recordAt w 128
      quiet w && w.s.zoneNamed 64 true && (w.s.zoneOf 64).shrink == [] && fieldOf b 0 1 == 1 && fieldOf b 1 63 == 0 && fieldOf b 65 63 == 0
        && fieldOf b 64 1 == 1 && w.s.cap.sliceLive 6 1 && look (w.s.zoneOf 64).newMaps 6 == none)
    && on (sdb .zchan) 0x10000 64 (listed chanBytes) (fun w =>
      let h := recordAt w 64
      let e := fieldOf (recordAt w 68) 64 4
      let map := [(e % 2 ^ 9, e / 2 ^ 18 % 2 ^ 14)]
      quiet w && w.s.zoneNamed 64 true && (w.s.zoneOf 64).shrink == [] && fieldOf h 8 2 == 1 && recordAt w 68 != [] && fieldOf h 0 8 == 2 ^ 21
        && decide (2 ^ 21 ≤ (w.s.zoneOf 64).hbmmax) && fieldOf h 0x0A 1 == 0 && fieldOf h 0x0B 53 == 0 && e / 2 ^ 9 % 2 ^ 9 == 0 && decide (e % 2 ^ 9 < 384)
        && w.s.cap.chanLive (e % 2 ^ 9) && (w.s.zoneOf 64).mig == none && w.s.floorsFit 64 (w.s.zoneOf 64).floor (map.map fun e => e.1)
        && (winsOf map (2 ^ 21) false).all fun v => decide (v.first + v.len ≤ 2 ^ 24) && w.s.zones.all fun o => o.2.windows.all fun u =>
          !winsMeet v u && (o.1 == 64 || u.chan != v.chan || !u.excl))
    && on zwaysL2 3 64 (ways64 true 0) (fun w => w.s.cap.sliceLive 6 33 && w.g.begun == none && w.s.zoneNamed 64 true && (w.s.zoneOf 64).shrink == []
      && w.s.zones.all (fun o => o.1 == 64 || ((rget 0 o.2.ways 421 ||| rget 0 o.2.leaving 421) &&& 3) == 0)
      && ((rget 0 (w.s.zoneOf 64).ways 421 ||| rget 0 (w.s.zoneOf 64).leaving 421) &&& (2 ^ 16 - 1 - 3)) == 0)
    && on zwaysVault 1 64 id (fun w => w.s.chipActive 11 && w.g.begun == none && w.s.zoneNamed 64 true && (w.s.zoneOf 64).shrink == []
      && w.s.zones.all (fun o => o.1 == 64 || ((rget 0 o.2.ways 3 ||| rget 0 o.2.leaving 3) &&& 1) == 0)
      && ((rget 0 (w.s.zoneOf 64).ways 3 ||| rget 0 (w.s.zoneOf 64).leaving 3) &&& (2 ^ 16 - 1 - 1)) == 0) = true := by decide
def zcommit : Instr := .zcommit { ctl := ctl, d := 5, z := r 8 }
def zquery : Instr := .zquery { ctl := ctl, d := 5, sel := 0, dist := 0, z := r 8 }
theorem witness_zcommit : on zcommit 0 3 id (fun w => w.g.begun == none && !w.s.zoneNamed 3 true)
    && on zcommit 0 3 (zone3 id) (fun w => w.s.zoneNamed 3 true && (w.s.zoneOf 3).state == .ready)
    && on zcommit 0 3 (zone3 fun z => { z with state := .transit }) (fun w => w.g.begun == none && (w.s.zoneOf 3).state == .transit)
    && on zcommit 0 3 (fun s => started 3 (zone3 (fun z => { z with commits := [0] }) s)) (fun w => w.g.begun == some 3 && (w.s.zoneOf 3).commits == [w.u])
    && on zcommit 0 3 (fun s => started 3 (zone3 id s)) (fun w => w.g.begun == some 3 && (w.s.zoneOf 3).commits == [])
    && on zquery 0 3 id (fun w => look w.s.zones 3 == none) && on zquery 0 3 (zone3 id) (fun w => (look w.s.zones 3).isSome && w.cx.priv == .hyp) = true := by decide
def capq : Instr := .capq { ctl := ctl, d := 5, a := r 2 }
theorem witness_capq : stores capq (mem (with_ capq)) 256 .store (fun w _ => w.wideAddr (w.n128 (r 2) 0) 0 256 false true)
    (fun w accs => decide (w.g.sbuf.length < 15) && accs.all fun a => a.pcs.all fun p => !isRegLine (lineOf p.pa)) = true := by decide

/-! ZoneTransitionsAndBanks -/

theorem witness_departure : (let s := zone3 (fun z => { z with shrink := [2 ^ 60 + 5, 2 ^ 61 + 7] }) base
      s.teams.any (s.teamAffected 3 [2 ^ 60 + 5, 2 ^ 61 + 7]) = false ∧ (({ s with banks := [(7, { mode := 3 })] } : State).bank (entBank (2 ^ 61 + 7))).mode = 3)
    ∧ (let s := { base with zones := [(64, { shrink := [2 ^ 60] })], cycle := 10 ^ 9 }
       s.teams.any (s.teamAffected 64 [2 ^ 60]) = true ∧ 0 + 0 + 125000 < s.cycle) := by decide
theorem witness_sweep : (let z : Zone := { newMaps := [(0, [1])], ways := [(4, 1), (5, 1)], slices := [(0, [0])] }
    let s := fun n rts => { zone3 (fun _ => z) base with homes := [(line0, { zn := 3, at_ := n, rts := rts })] }
    let new := 4 + 64 * 0 + z.slice 0 (paLocal (line0 * 128))
    (look z.newMaps 0).isSome = true ∧ look (s 4 0).homes line0 = some { zn := 3, at_ := 4 } ∧ (s 4 0).rollDue 3 = false
      ∧ (s 4 0).coKey 3 line0 = line0 ∧ (s 4 0).stampHome 3 new line0 = 5 ∧ new = 5
      ∧ (s 4 0).waysAt 3 5 ≠ 0 ∧ 0 ≤ (s 4 0).baseTop (homeLoc 5) 3 ∧ (s 4 0).baseTop (homeLoc 5) 3 < 2 ^ 40) := by decide
/-- A rollover that is due pauses the events of a transition. -/
theorem witness_rollPause : (let s := { old g0 with zones := upd (old g0).zones 64 fun z => { z with newMaps := [(0, [1])] } }
    s.rollDue 64 = true ∧ (look s.zones 64).isSome = true ∧ (look (s.zoneOf 64).newMaps 0).isSome = true) := by decide
def moving (wm : Nat) : Zone := { hbmbase := dataPa, hbmmax := 65536, size := 8192, mig := some { chans := [(1, 0)], newSize := 8192, oldSize := 4096, wm := wm } }
theorem witness_migration : (∀ m, (moving 32).mig = some m → m.wm < max m.oldSize m.newSize / 128 ∧ m.oldSize ≤ m.wm * 128)
    ∧ (∀ m, (moving 64).mig = some m → max m.oldSize m.newSize / 128 ≤ m.wm) ∧ (moving 64).lostChs = []
    ∧ base.batchWrites (moving 32) { chans := [(1, 0)], newSize := 8192, oldSize := 4096, wm := 32 } = false
    ∧ (let m : Migration := { chans := [(1, 0)], newSize := 8192, oldSize := 4096, wm := 0 }
       ({ base with chanq := [⟨.post 0 64 line0 1, 0⟩] } : State).batchWrites (moving 0) m = true)
    ∧ base.badLines = [] ∧ base.deadChs = [] ∧ ∀ v, v < 4 → base.chipActive (8 + v) = true := by decide
theorem witness_commit : ({ commit := true, state := .transit } : Zone).settled = true ∧ (moving 0).settled = false := by decide
theorem witness_banks : base.mayBank (.ctx 0) 0 = true ∧ base.mayBank .controller 0 = false ∧ base.mayBank (.ctx 0) 40959 = true
    ∧ (base.bank 40959).stage = 0 ∧ base.holders 0 = 0
    ∧ ({ base with teams := [(0, { tm0 with granules := [0] })] } : State).holders 0 ≠ 0 ∧ tm0.away = false := by decide

/-! MatrixEvents, CopyEvents -/

def accepting (b : List Byte) (n : Nat) (p : View → MxPend → Bool) : Bool :=
  let s := grp (withBlock b (tiled base fun q => { q with queue := List.replicate n op0 })) fun g =>
    { g with mxpend := some { x := { ctl := ctl, off := 1, d := 9, a := .zero }, pc := 0, m := 1, sel := 1, off := 64 } }
  match (look s.groups 0).bind fun g => g.mxpend, State.view? { s with cur := 0, curPc := 0 } with
  | some x, some w => p w x && (s.quadOf w.g.quad).queue.length == n
  | _, _ => false
set_option maxRecDepth 2000 in
theorem witness_accept : (accepting block 7 (fun w x => mxCheck (w.tm.scrBytes x.off 64) w.tm.scratchSize == none) && accepting block 8 (fun _ _ => true)
    && accepting [] 7 (fun w x => mxCheck (w.tm.scrBytes x.off 64) w.tm.scratchSize != none)) = true := by decide
theorem witness_opStart : op0.left ≠ 0 ∧ min op0.left (2 ^ 20) ≤ 64 ∧ ({} : Quad).balance < min op0.left (2 ^ 20) ∧ op0.asked = false
    ∧ (let op : MxOp := { op0 with left := 0, started := true }
       op.started = true ∧ op.left = 0 ∧ op.tb + op.mt * op.nt ≤ 16) := by decide
def govBase (left : Option Bool) (pool : Nat) : State :=
  { grp base fun g => { g with leave := left } with govs := [(0, { pool := pool, queue := [(.leave 0, 5)] })] }
theorem witness_grant : (govBase none 9).asks (.leave 0) = false ∧ (govBase (some false) 4).asks (.leave 0) = true ∧ ((govBase (some false) 4).gov 0).pool < 5
    ∧ 5 ≤ ((govBase (some false) 5).gov 0).pool ∧ ((govBase none 5).gov 0).queue = [(.leave 0, 5)] := by decide
theorem witness_leaveReturn : (let s := { base with quads := [(0, { grants := [(0, 7), (1, 8)] })], cycle := 50000 }
    (s.quadOf 0).grants.filter (fun g => decide (g.1 + 50000 ≤ s.cycle)) = [(0, 7)])
    ∧ (base.gov 0).at_ + 2500 ≤ ({ base with cycle := 2500 } : State).cycle := by decide

/-- A copy of one row of 128 bytes at 0x10000 into the scratchpad's start. -/
def copy0 : TCopy := { team := 0, input := 0, shape := (shapeAt 0x1A 32 1).take 0x38 ++ [0xFF, 0xFF, 0xFF, 0xFF] ++ List.replicate 4 0 }
def copying (c : TCopy) (s : State) : State := { s with copies := [(4, c)], teams := [(0, { tm0 with task := true, inputs := [(7, none)], scratchSize := 4096 })] }
set_option maxRecDepth 4000 in
theorem witness_copy : (copy0.rec?.any fun x => decide (copy0.pos < x.copySize) && x.swoff == 0xFFFFFFFF
      && (copying copy0 (tables base)).mayServe 4 copy0 0
      && (match (copying copy0 (tables base)).tramPieces cxT (copy0.spans x 0).1 with
        | .ok ps => ps.all fun p => let s := copying copy0 (tables base)
          !s.farLine (lineOf p.1) && !s.lineQueued (lineOf p.1) && s.needsChan 64 (lineOf p.1) == none
        | .error _ => false)
      && (copy0.spans x 0).1.all (fun v => !(copying copy0 (tables base)).exWalks cxT v.1 v.2)
      && (match (copying copy0 base).tramPieces cx0 (copy0.spans x 0).1 with
        | .ok _ => false
        | .error _ => true)
      && decide (x.copySize ≤ ({ copy0 with pos := 128 } : TCopy).pos)) = true ∧ copy0.status = none ∧ copy0.leave = 0
    ∧ risingKeys (copying copy0 base).teams = true := by decide

/-! PeriodsAndMoves -/

theorem witness_events : (∀ e : EvRec, ({ base with evHeld := [(64, e)] } : State).evHeld = [] ++ (64, e) :: [] ∧ (rget [] base.evq 64).length < 1024)
    ∧ (rget [] ({ base with evq := [(64, List.replicate 1024 { code := 6 })] } : State).evq 64).length = 1024 := by
  refine ⟨fun e => ⟨rfl, by decide⟩, ?_⟩
  exact List.length_replicate
theorem witness_timeout : ({ g0 with evUntil := some 5 } : Group).evUntil = some 5 ∧ 5 ≤ ({ base with cycle := 5 } : State).cycle ∧ base.cycle < 5
    ∧ (base.groups.any fun g => g.2.quad == 0 && base.ctxOf g.2 == some 0) = true ∧ (base.groups.any fun g => g.2.quad == 1) = false := by decide
/-- A held instruction goes on for the threads it was issued for. -/
theorem witness_heldAlone : (let g : Group := { g0 with wait := .retry 0 .kept, issuedAs := some { mask := 1 } }
    g.wait.boundary = false ∧ ∀ h, g.issuedAs = some h → h.pair = none) := by decide
def teamState (run : TeamRun) : State :=
  { base with groups := [(0, { g0 with slot := none })], teams := [(0, { tm0 with run := run, stoppedAt := 7, deadline := 5 })] }
theorem witness_stop : (teamState .stopping).teamQuiet 0 = true ∧ risingKeys (teamState .stopping).groups = true
    ∧ ({ teamState .stopping with groups := [(0, { g0 with loads := [lrec .home] })] } : State).teamQuiet 0 = false
    ∧ 5 + 2 = 7 ∧ (look base.zones cx0.zone).isSome = true := by decide
/-- The team has run to a stop; its context has a spill area at 0x10000. -/
def spilling : State :=
  let s := tables base
  { s with groups := [], teams := [(0, { tm0 with gpt := 0, groups := [], scratchSize := 1, run := .stopped })]
           ctxs := mapVals s.ctxs fun _ c => { c with spill := 0x10000, spillsz := 65536 } }
set_option maxRecDepth 20000 in
theorem witness_spill : (match look spilling.teams 0, look spilling.ctxs 0 with
    | some tm, some cx =>
      let block := (spilling.teamBlock cx 0 tm 0).1
      tm.run == .stopped && !cx.stopping && !(spilling.liftTeam 0).1.otherRoom cx.zone 0 tm (spilling.liftTeam 0).2
        && spilling.spillPlace tm.ctx cx block.length == some 0
        && match (spilling.liftTeam 0).1.exWrite cx cx.spill block with
          | .ok _ => true
          | .error _ => false
    | _, _ => false) = true := by decide
theorem witness_land : ((object (teamState .spilled)).landTeam 64 0 tm0 0 [0] []).isSome = true ∧ cx0.stopping = false ∧ 0 / 128 = tm0.district
    ∧ (let s := { object (teamState .stopped) with cap := { cores := [(0, 3)] }, quads := [(4, { zones := [64] })] }
       ((s.liftTeam 0).1.landTeam 64 0 tm0 1 [0] (s.liftTeam 0).2).isSome = true ∧ 1 ≠ tm0.core ∧ 1 / 128 = tm0.district) := by decide
/-- A group of another context waits on quadrant 0, whose slice is over after 25,000 cycles. -/
def sharing (n : Nat) : State := { other (fun t => { t with ctx := 1 }) (fun g => { g with quad := 0 })
    (second id { base with quads := [(0, { ctx := some 0 })] }) with cycle := n, ctxs := [(0, { cx0 with slice := 10 }), (1, {})] }
theorem witness_slice : (sharing 25000).sliceOver 0 = true ∧ (sharing 25000).nextCtx 0 = some 1 ∧ (sharing 24999).sliceOver 0 = false := by decide
theorem witness_image : base.imgReady (.sysc 0 0 0) = true ∧ (grp base fun g => { g with sysc := some ⟨5, 0, []⟩ }).imgReady (.sysc 0 0 0) = false := by decide

/-! FabricForms, FabricRequests -/

def ffull : Instr := .ffenceFull { ctl := ctl }
def facq : Instr := .ffenceAcq { ctl := ctl }
theorem witness_ffence : (meets ffull (with_ ffull) (fun w _ => w.g.releaseMet ⟨w.g.seq, .dev, true⟩)
    && meets ffull (busy (with_ ffull)) (fun w _ => w.g.begun == none && !w.g.releaseMet ⟨w.g.seq, .dev, true⟩)
    && meets ffull (started 1 (with_ ffull)) (fun w _ => w.g.begun == some 1 && w.g.releaseMet ⟨1, .dev, true⟩)
    && meets ffull (started 1 (busy (with_ ffull))) (fun w _ => w.g.begun == some 1 && !w.g.releaseMet ⟨1, .dev, true⟩)
    && meets facq (with_ facq) (fun w _ => w.g.loads == []) && meets facq (busy (with_ facq)) (fun w _ => w.g.loads != [])) = true := by decide
def rlease : Instr := .rlease { ctl := ctl, off := 0, a := v 8, b := v 6 }
/-- The page at 0x10000 is device 3's. -/
def farPage (s : State) : State :=
  { s with tlb1 := { loc := 0, zone := 64, ctx := 0, vpn := 1, ppn := (3 * 2 ^ 46 + dataPa) / 2 ^ 16, leaf := dleaf } :: s.tlb1, routes := [(3, 1)] }
theorem witness_rlease : stores rlease (vset (farPage (with_ rlease)) 8 0x10000) 1 .load (fun w k => w.wideAddr (w.n128 (v 8) k) 0 1 false true)
    (fun w accs => (accs.flatMap fun a => a.pcs) != [] && (accs.flatMap fun a => a.pcs).all fun p =>
      w.s.isRemote (lineOf p.pa) && w.s.reachable (paDevice (lineOf p.pa * 128))) = true := by decide
def fence3 (live : Live) (s : State) : State := { s with peers := [(3, { live := live })], routes := [(3, 1)] }
def contain : Instr := sd .fcontainFence
def clear_ : Instr := sd .fcontainClear
def clearing (n : Nat) (s : State) : State := grp s fun g => { g with clearAt := some n }
theorem witness_contain : ([contain, clear_].all fun i => on i 0 0 id (fun w => w.n32 (r 6) 0 == w.s.devNum)
      && on i 1024 0 id (fun w => decide (1024 ≤ w.n32 (r 6) 0)) && on i 1023 0 id (fun w => w.n32 (r 6) 0 == 1023 && w.s.devNum == 0))
    && on clear_ 3 0 (fence3 .suspect) (fun w => (w.s.peerOf 3).live == .suspect)
    && on clear_ 3 0 (fence3 .dead) (fun w => (w.s.peerOf 3).live == .dead && w.g.clearAt == none && rget 0 w.s.routes 3 != 0)
    && on clear_ 3 0 (fun s => clearing 0 { fence3 .dead s with now := 49999 }) (fun w => w.g.clearAt == some 0 && decide (w.s.now < 0 + 50000))
    && on clear_ 3 0 (fun s => clearing 0 { fence3 .fenced s with now := 50000 }) (fun w => w.g.clearAt == some 0 && decide (0 + 50000 ≤ w.s.now)) = true := by decide

/-- A window of the page of data is exported for reads and writes. -/
def exporting : State := { base with exportW := [(0, 2 ^ 63 + 2 ^ 62 + dataPa), (1, 1)] }
def held0 (op : RemoteOp) : HeldReq := { dev := some 3, pa := dataPa, n := 64, op := op }
def store64 : RemoteOp := .store (BitVec.allOnes 128) (List.replicate 64 1)
set_option maxRecDepth 20000 in
theorem witness_remoteRequest : ([RemoteOp.load 500, store64].all fun op =>
      paDevice dataPa == exporting.devNum && opFits op dataPa 64 && exporting.exported dataPa 64 (opWrites op) && exporting.reqReaches dataPa 64 (opWrites op)
        && (exporting.peerOf 3).live == .alive && !exporting.reqWaits (held0 op) exporting.uid && (look exporting.zones (exporting.lineZone dataPa)).isSome) = true
    ∧ (let op := RemoteOp.atom .n32 .add 1 0
       opFits op dataPa 4 = true ∧ exporting.exported dataPa 4 true = true ∧ exporting.reqReaches dataPa 4 true = true
         ∧ exporting.reqWaits { dev := some 3, pa := dataPa, n := 4, op := op } exporting.uid = false ∧ exporting.badLine line0 = false)
    ∧ ({ exporting with held := [(0, held0 (.load 5))] } : State).reqWaits (held0 (.load 5)) 1 = true ∧ opFits (.load 5) dataPa 4 = false
    ∧ base.exported dataPa 64 false = false ∧ regionOf dataPa = .hbm ∧ dataPa % 128 + 64 ≤ 128 := by decide
set_option maxRecDepth 20000 in
/-- A request to a line of the host window, which is exported too: accepted, and held with nothing before it. -/
theorem witness_hostLine : (let a := 0x100000000000
    let s := { base with exportW := [(0, 2 ^ 63 + 2 ^ 62 + a), (1, 1)], bridge := true }
    let h : HeldReq := { dev := some 3, pa := a, n := 64, op := store64 }
    isHostLine (lineOf a) && opFits store64 a 64 && s.exported a 64 true && s.reqReaches a 64 true && !s.reqWaits h s.uid
      && !{ s with held := [(0, h)] }.reqWaits h 0 && !h.sent && !({ s with bridge := false }).reqReaches a 64 true) = true := by decide
def asked (src : ReqSrc) (host : Bool) (at_ : Nat) : State :=
  { fence3 .alive { base with groups := [(0, loading .ext)] } with rout := [(7, { src := src, dev := 3, line := line0, host := host, exp := 0, at_ := at_ })], bridge := host }
theorem witness_answers : (asked (.load 0 0 0) false 0).reachable 3 = true ∧ (fence3 .dead (asked (.load 0 0 0) false 0)).reachable 3 = false
    ∧ (loading .ext).loads.find? (fun r => r.id == 0) = some (lrec .ext) ∧ (lrec .ext).kind = .data
    ∧ ((asked .probe false 0).peerOf 3).live = .alive ∧ ((fence3 .dead (asked (.store 0 0) false 0)).peerOf 3).live = .dead := by decide
theorem witness_liveness : (let s := { asked (.load 0 0 0) false 0 with now := 100000 }
      (s.peerOf 3).live = .alive ∧ ∃ r ∈ s.rout, r.2.dev = 3 ∧ r.2.host = false ∧ r.2.src ≠ .probe ∧ r.2.at_ + 100000 ≤ s.now)
    ∧ (let s := { fence3 .suspect base with now := 50000 }
       (s.peerOf 3).live = .suspect ∧ (s.peerOf 3).since + 50000 ≤ s.now) := by decide
theorem witness_host : (let a := dataPa + 65536
    let s := { zone3 (fun z => { z with hbmbase := a, size := 65536 }) base with
      bridge := true, hdm := [(0, { valid := true, zone := 3, base := 2 ^ 40, size := 4096, target := a })] }
    s.chipActive 12 = true ∧ regionOf (paLocal (2 ^ 40)) ≠ .doorbell ∧ regionOf (paLocal (2 ^ 40)) ≠ .devreg ∧ s.hdmAddr (2 ^ 40) 4 = some a
      ∧ s.hdmAddr (2 ^ 40 - 4) 4 = none ∧ regionOf a = .hbm ∧ s.reqReaches a 4 true = true ∧ s.reqReaches a 4 false = true
      ∧ s.reqWaits { dev := none, pa := s.ownPa a, n := 4, op := .load 0 } s.uid = false
      ∧ s.reqWaits { dev := none, pa := s.ownPa a, n := 4, op := .store (BitVec.allOnes 128) [1, 2, 3, 4] } s.uid = false ∧ a < 2 ^ 46
      ∧ regionOf 0x3F0001000000 = .devreg ∧ regionOf 0x3F0000000000 = .doorbell) := by decide
set_option maxRecDepth 20000 in
theorem witness_hostCompletion : (look (asked (.copy 4) true 0).rout 7).map (·.host) = some true ∧ (asked (.copy 4) true 0).bridge = true
    ∧ (asked (.copy 4) true 0).chipActive 12 = true
    ∧ (let a := 0x100000000000
       let s := { asked (.held 0) true 0 with exportW := [(0, 2 ^ 63 + 2 ^ 62 + a), (1, 1)] }
       isHostLine (lineOf a) = true ∧ s.exported a 64 true = true ∧ s.reqReaches a 64 true = true ∧ a % 128 + 64 ≤ 128) := by decide

/-! TimeAndCollectives -/

theorem witness_time : base.chipActive 12 = true ∧ 2000000000 % 1000000000 = 0 ∧ base.tstat = .freerun
    ∧ (let s := { base with tstat := .holdover, now := 60000000000 }
       s.tstat = .holdover ∧ s.holdoverAt + 60000000000 ≤ s.now) := by decide
/-- A device that is locked. -/
theorem witness_locked : (let s := { base with tstat := .locked }
    s.chipActive 12 = true ∧ s.tstat = .locked ∧ s.now ≤ s.now + 50 ∧ s.now + 50 ≤ s.now + 50) := by decide
/-- An all-reduce of two members, this device the first: records at 0x10000 and 0x10040, the table at 0x10080, buffers behind. -/
def collective (mem2 : Nat) (rcv : Nat := 0x10300) : State :=
  let t := let t := tables base
    { t with mem := writeNat t.mem (fetchPa + 0x50010) 8 (3 * 2 ^ 46 + fetchPa / 2 ^ 30 * 2 ^ 30 + 0x1BB), routes := [(3, 1)] }
  let rec1 := fun va => bytesOf 8 va ++ bytesOf 4 (2 ^ 8 * 8) ++ bytesOf 4 4 ++ bytesOf 4 1 ++ bytesOf 4 1 ++ bytesOf 8 16 ++ bytesOf 8 16
    ++ bytesOf 4 4 ++ bytesOf 4 1 ++ bytesOf 4 1 ++ bytesOf 12 0
  { t with mem := writeBytes (writeBytes (writeBytes t.mem dataPa (rec1 0x10200)) (dataPa + 0x40) (rec1 rcv)) (dataPa + 0x80) (bytesOf 2 0 ++ bytesOf 2 mem2)
           graphs := [(1, graph0 [{ tcb := putFields 128 [(8, 1, 3), (0x10, 8, 0x10080), (0x18, 2, 2), (0x40, 8, 0x10000), (0x48, 8, 0x10040)], succ := [], st := .running }])] }

def coll : State := collective 3
def collNode : Node := (look coll.graphs 1).elim { tcb := [], succ := [] } fun g => g.node 0
set_option maxRecDepth 20000 in
theorem witness_collective : (match coll.collShapes cxT (graph0 [collNode]) collNode with
      | some (snd_, rcv) => snd_.ty == rcv.ty && snd_.elems == 4 && !coll.exQueued cxT 0x10080 4 && !coll.bufHeld cxT snd_ .load
          && !coll.bufHeld cxT rcv .store && (coll.bufRead cxT snd_ []).isSome
          && ({ coll with badLines := [lineOf (dataPa + 0x200)] }.bufRead cxT snd_ []).isNone
          && (match coll.bufPieces cxT rcv .store with
            | .ok ps => coll.bufOpen ps && coll.bufFar ps == [] && !({ coll with badLines := [lineOf (dataPa + 0x300)] }).bufOpen ps
            | .error _ => false)
          && collResult 0 0 (RedOp.ofCode 0) snd_.ty 0 4 4 [[1, 2, 3, 4], [5, 6, 7, 8]] == some [6, 8, 10, 12]
      | none => false) = true ∧ collNode.kind = 3 ∧ collNode.st = .running ∧ collNode.fld 0x18 2 = 2
    ∧ (coll.exRead? cxT 0x10080 4).map (fun t => (List.range 2).map fun i => fieldOf t (2 * i) 2) = some [0, 3]
    ∧ ((collective 0).exRead? cxT 0x10080 4).map (fun t => (List.range 2).map fun i => fieldOf t (2 * i) 2) = some [0, 0]
    ∧ ((fence3 .dead coll).peerOf 3).live = .dead ∧ collNode.fld 0x1A 2 = 0 ∧ collNode.lost = false ∧ collNode.wrote = false
    ∧ ({ collNode with wrote := true } : Node).wrote = true
    ∧ ({ coll with held := [(0, { dev := some 3, pa := dataPa + 0x80, n := 64, op := .load 0 })], uid := coll.uid + 1 } : State).exQueued cxT 0x10080 4 = true := by decide
set_option maxRecDepth 20000 in
/-- The receive buffer lies on device 3. -/
theorem witness_collFar : (let s := collective 3 0x40010300
    match s.collShapes cxT (graph0 [collNode]) collNode with
      | some (_, rcv) => (match s.bufPieces cxT rcv .store with
        | .ok ps => s.bufOpen ps && s.bufFar ps != []
        | .error _ => false)
      | none => false) = true := by decide

/-! ChipletsCoresChannels, BringUpAndRegisters -/

def chipIs (c : Nat) (st : ChipState) (s : State) : State := { s with chips := [(c, { st := st })] }
theorem witness_chiplets : base.writerHyp (.ctx 0) = true ∧ base.writerHyp .controller = false ∧ base.chipActive 0 = true ∧ base.chipActive (25 - 13) = true
    ∧ (chipIs 13 .off base).chipActive (25 - 12) = false
    ∧ ((chipIs 3 .fenced base).chip 3).st = .fenced ∧ ((chipIs 3 .off base).chip 3).st = .off ∧ ((chipIs 3 .resetting base).chip 3).st = .resetting
    ∧ (chipIs 12 .fenced base).chipActive (12 + base.cap.gate) = false ∧ (chipIs 12 .fenced base).chipActive (13 - base.cap.gate) = true
    ∧ (let s := listed [] base
       s.cap.coreLive 0 = true ∧ s.cap.coreLive 1023 = false ∧ s.cap.chanLive 0 = true ∧ s.cap.chanLive 383 = false) := by decide
def boot0 (passes : Bool) : Boot :=
  { passes := passes, images := [], minSvn := [], gate1 := true, cap := {}, failed := if passes then [12, 13] else [], device := 0, groupBridge := none, routes := []
    codeAt := 0, podAt := 0, image := [], root := 0, header := 0 }
theorem witness_boot : base.boot = none ∧ (boot0 false).passes = false ∧ (boot0 true).verified = false ∧ 12 ∈ (boot0 true).failed ∧ 13 ∈ (boot0 true).failed
    ∧ isRegLine (lineOf 0x3F0001900038) = true ∧ isRegLine (lineOf dataPa) = false
    ∧ (∀ k : Fin 4, regionOf (dataPa + 170 * (k : Nat)) = .hbm ∧ (base.backer (dataPa + 170 * (k : Nat))).isSome = true
      ∧ base.lineQueued (lineOf (base.ownPa (dataPa + 170 * (k : Nat)))) = false
      ∧ base.homeHeld (base.lineZone (dataPa + 170 * (k : Nat))) (base.homeOf {} {} (dataPa + 170 * (k : Nat))) (lineOf (base.ownPa (dataPa + 170 * (k : Nat)))) = false)
    ∧ (let s := { base with homes := [(line0, { expmax := 5 })], leftAt := 1 }
       s.homeHeld (s.lineZone dataPa) (s.homeOf {} {} dataPa) (lineOf (s.ownPa dataPa)) = true) := by decide

/-! IssueChecks, BranchAndAccessTraps -/

/-- The view of an instruction and its execution mask. -/
def seen (i : Instr) (s : State) (p : View → Mask → Bool) : Bool := match s.view? with
  | some w => i.opc.isSome && p w (w.execMask i.uses.ctl.guard)
  | none => false
def tooHigh : Instr := .iadd { ctl := ctl, ty := .i32, sat := false, d := .v 5 false, a := v 6, b := v 255 }
def unguarded : Instr := .iadd { ctl := ⟨⟨false, 0⟩, ⟨0, false, 7, 0⟩⟩, ty := .i32, sat := false, d := .v 5 false, a := v 6, b := v 7 }
theorem witness_issueChecks : (let i : Instr := .clz { ctl := ctl, ty := .i32, d := .v 5 false, a := v 6 }
      seen i base fun _ _ => !i.uses.legal)
    && seen tooHigh (grp (with_ tooHigh) fun g => { g with regs := 248 }) (fun w _ => tooHigh.uses.legal && !tooHigh.uses.regsOk w.g.regs)
    && seen zcommit (user (with_ zcommit)) (fun w _ => zcommit.uses.legal && !w.privOk zcommit.uses.priv)
    && seen unguarded (with_ unguarded) (fun w m => unguarded.uses.legal && unguarded.uses.regsOk w.g.regs && w.privOk unguarded.uses.priv && m == 0)
    && seen good (grp (with_ good) fun g => { g with marks := [⟨.v, 3, 6, 0, false⟩] }) (fun w m => m != 0
        && w.operandError good.uses m != none) = true := by decide
/-- A check that fails, a translation that is missing, an address that is refused. -/
def trapsOn (i : Instr) (n : Nat) (acc : Acc) (addr : View → Nat → AddrOut) (sBad sGone sRef : State) : Bool :=
  (meets i sBad fun w m => (firstChk ((lanes i.uses m).flatMap fun k => (addr w k).chks.map fun c => (k, c))).isSome)
  && (meets i sGone fun w m => (lanes i.uses m).all (fun k => (addr w k).chks == []) && (lanes i.uses m).any fun k =>
      (w.vPieces k n (addr w k).tgt).any fun p => (w.lookupVa p.1 (accOf acc (addr w k).tgt)).isNone)
  && (meets i sRef fun w m => (lanes i.uses m).all (fun k => (addr w k).chks == []) && (lanes i.uses m).all fun k =>
      (w.vPieces k n (addr w k).tgt).all fun p => (w.lookupVa p.1 (accOf acc (addr w k).tgt)).any fun r => w.s.refusedPa r.2 r.1)
/-- The page at 0x10000 lies where this device has nothing. -/
def holePage (s : State) : State :=
  { s with tlb1 := { loc := 0, zone := 64, ctx := 0, vpn := 1, ppn := 0x3E0000000000 / 2 ^ 16, leaf := dleaf } :: s.tlb1 }
def at2 (i : Instr) (a : Nat) (f : State → State) : State := f (sset (with_ i) 2 a)
theorem witness_accessTraps : ([(Instr.ld (load adS (.v 8 false)), false), (.ldx (load adS (.v 8 false)), true)].all fun p =>
      trapsOn p.1 4 .load (fun w t => w.globalOf adS 4 p.2 true t) (at2 p.1 0x10002 id) (at2 p.1 0x10000 id) (at2 p.1 0x10000 holePage))
    && ([(Instr.st (store adS (v 7)), false), (.stx (store adS (v 7)), true)].all fun p =>
      trapsOn p.1 4 .store (fun w t => w.globalOf adS 4 p.2 true t) (at2 p.1 0x10002 id) (at2 p.1 0x10000 id) (at2 p.1 0x10000 holePage))
    && trapsOn (.atom (atom .rlx (r 2))) 4 .atomic (fun w k => atomAddr w false k) (at2 (.atom (atom .rlx (r 2))) 0x10002 id)
      (at2 (.atom (atom .rlx (r 2))) 0x10000 id) (at2 (.atom (atom .rlx (r 2))) 0x10000 holePage) = true := by decide

/-! StepRunsDecoded -/

theorem witness_step : (let s := State.reset.withFetchWord 96 (encode good).toNat
    let g := fetchGroup
    let s0 : State := { s with sched := [] }
    let s1 := s0.at_ 0 0
    s.sched == [.issue 0 []] && s.overdue == none && s0.issueOrder 0 [] == [0] && look s0.groups 0 == some g && s0.mayIssue g && g.wait.boundary
      && g.pcA none == some 0 && g.pcA (some 0) == none && (s1.view?).any fun w => (match w.fetch 0 with
        | .ok x => decode? x == some good && w.g.lastIssue == 0 && w.g.waitsSb (hintOf x) == [] && decide (rget 0 w.g.sb (hintOf x).setsb.toNat ≤ 62)
        | _ => false) && !w.g.spendHolds good.uses && w.g.holders good.uses == [] && w.ordered good) = true := by decide
theorem witness_form : State.reset.mem.wf = true ∧ State.reset.hostMem.wf = true ∧ risingKeys State.reset.groups = true ∧ risingKeys State.reset.teams = true := by decide
theorem witness_wellFormed : (landing.wellFormed && good.wellFormed && (jump 5).wellFormed) = true := by decide

/-! ## One step each: values worked out by hand from the rules -/

/-- A v register of thread k after the instruction. -/
def vOut (o : Host.Outcome State Fault Refusal) (k n : Nat) : Option Nat := match o with
  | .next t => (look t.groups 0).map fun g => ((g.thread k).vreg n).toNat
  | _ => none
def sOut (o : Host.Outcome State Fault Refusal) (n : Nat) : Option Nat := match o with
  | .next t => (look t.groups 0).map fun g => (g.sreg n).toNat
  | _ => none
def gOut {α : Type} (o : Host.Outcome State Fault Refusal) (f : Group → α) : Option α := match o with
  | .next t => (look t.groups 0).map f
  | _ => none
/-- The instruction with v6 and v7 given: v5 of thread 31. -/
def two (i : Instr) (a b : Nat) : Option Nat := vOut (exec i (vset (vset (with_ i) 6 a) 7 b)) 31 5
def bin (sat : Bool) : BinS := { ctl := ctl, ty := .i32, sat := sat, d := .v 5 false, a := v 6, b := v 7 }

/-- R108: the sum reduced to the width, or clamped. -/
theorem test_iadd : two (.iadd (bin false)) 0x7FFFFFFF 1 = some 0x80000000 ∧ two (.iadd (bin true)) 0x7FFFFFFF 1 = some 0x7FFFFFFF := by decide
/-- R110: division by zero gives all ones; the least number by −1 itself. -/
theorem test_idiv : two (.idiv { ctl := ctl, ty := .i32, sat := false, d := .v 5 false, a := v 6, b := v 7 }) 5 0 = some 0xFFFFFFFF
    ∧ two (.idiv { ctl := ctl, ty := .i32, sat := false, d := .v 5 false, a := v 6, b := v 7 }) 0x80000000 0xFFFFFFFF = some 0x80000000 := by decide
theorem test_irem : two (.irem { ctl := ctl, ty := .i32, d := .v 5 false, a := v 6, b := v 7 }) 0xFFFFFFF9 2 = some 0xFFFFFFFF := by decide
/-- R112: shifts past the width. -/
theorem test_shifts : two (.shr { ctl := ctl, ty := .b32, d := .v 5 false, a := v 6, b := v 7 }) 0x80000000 32 = some 0
    ∧ two (.sar { ctl := ctl, ty := .b32, d := .v 5 false, a := v 6, b := v 7 }) 0x80000000 40 = some 0xFFFFFFFF
    ∧ two (.rot { ctl := ctl, ty := .b32, d := .v 5 false, a := v 6, b := v 7 }) 0x80000001 33 = some 3 := by decide
/-- R113: a field of 8 bits from bit 4, sign-extended. -/
theorem test_bfx : two (.bfx { ctl := ctl, ty := .i32, d := .v 5 false, a := v 6, b := v 7 }) 0x00000F80 0x0804 = some 0xFFFFFFF8 := by decide
/-- R122: 1 + 2⁻²⁴ rounds to even. -/
theorem test_fadd : two (.fadd { ctl := ctl, ty := .f32, rm := .rne, sat := false, d := .v 5 false, a := v 6, b := v 7 }) 0x3F800000 0x33800000 = some 0x3F800000
    ∧ two (.fadd { ctl := ctl, ty := .f32, rm := .ru, sat := false, d := .v 5 false, a := v 6, b := v 7 }) 0x3F800000 0x33800000 = some 0x3F800001 := by decide
/-- R83: infinity to .e4m3 with SAT is its largest number. -/
theorem test_cvtff : two (.cvtff { ctl := ctl, dt := .e4m3, st := .f32, rm := .rne, sat := true, d := .v 5 false, a := v 6 }) 0x7F800000 0 = some 0x7E := by decide
/-- R159: thread 31 reads thread 30. -/
theorem test_shfl : (let i : Instr := .shfl { ctl := ctl, ty := .b32, mode := .xor, pv := 7, d := .v 5 false, a := v 6, b := .imm 1 }
    vOut (exec i (grp (with_ i) fun g => g.mapThreads fun k th => th.setV 6 (BitVec.ofNat 32 (100 + k)))) 31 5) = some 130 := by decide
theorem test_scan : (let i : Instr := .scan { ctl := ctl, ty := .i32, op := .add, excl := true, d := .v 5 false, a := v 6 }
    vOut (exec i (grp (with_ i) fun g => g.mapThreads fun k th => th.setV 6 (BitVec.ofNat 32 k))) 4 5) = some 6 := by decide
/-- R147: the target and the link. -/
theorem test_call : (let i : Instr := .call { ctl := ctl, d := 4, imm := 3 }
    gOut (exec i (also (with_ i) 36 landing)) fun g => ((g.thread 0).pc.toNat, ((g.thread 0).vreg 4).toNat)) = some (36, 12) := by decide
/-- R331, R336: a trap without a handler halts the team. -/
theorem test_trap : (let i : Instr := .trap { ctl := ctl, brk := false, n := 5 }
    gOut (exec i { with_ i with teams := [(0, { tm0 with textSize := 24 })] }) fun g => (g.cause.toNat, g.epc.toNat, g.tinfo.toNat, g.tmask.toNat))
    = some (0x50, 12, 5, 0xFFFFFFFF) := by decide
/-- R332: with a handler at offset 24 every thread runs there. -/
theorem test_handler : (let i : Instr := .trap { ctl := ctl, brk := true, n := 5 }
    gOut (exec i (grp (also (also (with_ i) 36 landing) 24 landing) fun g => { g with tvec := 25 })) fun g =>
      (g.handler, (g.thread 9).pc.toNat, (g.thread 9).fpc.toNat, g.epc.toNat)) = some (true, 24, 0, 0) := by decide
set_option maxRecDepth 4000 in
theorem test_srwr : gOut (exec (srwr 0x19 (r 6)) (sset (with_ (srwr 0x19 (r 6))) 6 0x11F)) (fun g => (g.thread 0).pc.toNat) = some 12
    ∧ (match exec (srwr 0x19 (r 6)) (sset (with_ (srwr 0x19 (r 6))) 6 0x11F) with
      | .next t => (look t.ctxs 0).map fun c => (c.ftz, c.logen.toNat)
      | _ => none) = some (true, 31) := by decide
theorem test_srrd : sOut (exec (srrd 0x14) (grp (with_ (srrd 0x14)) fun g => { g with tvec := 24 })) 8 = some 24 := by decide

set_option maxRecDepth 4000 in
theorem test_lds : (let i : Instr := .lds (load adV (.v 5 false))
    vOut (exec i (team (vset (mem (with_ i)) 6 4) fun t => { t with scratch := writeBytes [] 4 [1, 2, 3, 4] })) 0 5) = some 0x04030201 := by decide
set_option maxRecDepth 4000 in
theorem test_sts : (let i : Instr := .sts (store adV (v 7))
    match exec i (vset (vset (mem (with_ i)) 6 4) 7 0x04030201) with
    | .next t => (look t.teams 0).map fun tm => readBytes tm.scratch 4 4
    | _ => none) = some [1, 2, 3, 4] := by decide
set_option maxRecDepth 4000 in
theorem test_st : (let i : Instr := .st (store adS (v 7))
    gOut (exec i (vset (mem (with_ i)) 7 0x04030201)) fun g => g.sbuf.map fun e => (e.parts.headD (part (.store []))).op) = some [.store [1, 2, 3, 4]] := by decide

set_option maxRecDepth 4000 in
theorem test_atoms : (let i : Instr := .atoms { atoms false with sem := .rlx }
    let o := exec i (vset (vset (mem (with_ i)) 6 8) 7 3)
    (vOut o 0 5, vOut o 31 5)) = (some 0, some 93) := by decide
/-- R32, R42: a step from the loaded word runs it. -/
theorem test_step : gOut (step (State.reset.withFetchWord 96 (encode landing).toNat)) (fun g => (g.thread 0).pc.toNat) = some 12 := by decide

end Sys2Proof.Tests
end

namespace Sys2Proof

theorem risingKeys_upd {α : Type} (l : AList α) (k : Nat) (f : α → α) (h : risingKeys l = true) : risingKeys (upd l k f) = true := by
  unfold upd
  split
  · exact risingKeys_put _ _ _ h
  · exact h

theorem risingKeys_del {α : Type} (l : AList α) (k : Nat) (h : risingKeys l = true) : risingKeys (del l k) = true :=
  risingKeys_filter _ _ h

theorem risingKeys_map {α β : Type} {l : AList α} {f : Nat × α → Nat × β} (h : risingKeys l = true) (hf : ∀ x, (f x).1 = x.1) :
    risingKeys (l.map f) = true := by
  induction l with
  | nil => rfl
  | cons x l ih =>
    obtain ⟨hx, hl⟩ := (risingKeys_cons x l).1 h
    refine (risingKeys_cons (f x) (l.map f)).2 ⟨fun y hy => ?_, ih hl⟩
    obtain ⟨z, hz, rfl⟩ := List.mem_map.1 hy
    rw [hf, hf]
    exact hx z hz

theorem wf_foldl_writeByte {α : Type} (at_ : α → Nat) (val : α → Byte) (cs : List α) (m : Memory) (h : m.wf = true) :
    (cs.foldl (fun m c => writeByte m (at_ c) (val c)) m).wf = true :=
  List.foldlRecOn (motive := fun m : Memory => m.wf = true) _ _ h fun _ hm _ _ => wf_writeByte _ _ _ hm

theorem wf_filter (m : Memory) (p : Host.Cell → Bool) (h : m.wf = true) : Memory.wf (m.filter p) = true := by
  simp only [Memory.wf, canonical, Bool.and_eq_true, List.all_eq_true] at h ⊢
  exact ⟨risingKeys_filter _ _ h.1, fun x hx => h.2 x (List.mem_of_mem_filter hx)⟩

namespace Machine

/-- The form that every step keeps: memory and the host's memory canonical, the numbers of groups and teams rising. -/
structure State.Form (s : State) : Prop where
  mem : s.mem.wf = true
  hostMem : s.hostMem.wf = true
  groups : risingKeys s.groups = true
  teams : risingKeys s.teams = true

/-- An outcome that is a next state has the form. -/
def NextForm : Out → Prop
  | .next t => t.Form
  | _ => True

/-- What an option holds, if anything, satisfies p. -/
def AllSome {α : Type} (p : α → Prop) : Option α → Prop
  | some a => p a
  | none => True

/-- What a result holds, if it is no error, satisfies p. -/
def AllOk {ε α : Type} (p : α → Prop) : Except ε α → Prop
  | .ok a => p a
  | .error _ => True

theorem AllSome.of_eq {o : Option State} {t : State} (h : AllSome State.Form o) (e : o = some t) : t.Form := by subst e; exact h
theorem AllSome.fst_of_eq {α : Type} {o : Option (State × α)} {t : State} {a : α} (h : AllSome (fun p => p.1.Form) o) (e : o = some (t, a)) :
    t.Form := by subst e; exact h
theorem AllOk.of_eq {ε : Type} {o : Except ε State} {t : State} (h : AllOk State.Form o) (e : o = .ok t) : t.Form := by subst e; exact h
theorem AllOk.fst_of_eq {ε α : Type} {o : Except ε (State × α)} {t : State} {a : α} (h : AllOk (fun p => p.1.Form) o) (e : o = .ok (t, a)) :
    t.Form := by subst e; exact h
theorem NextForm.of_eq {o : Out} {t : State} (h : NextForm o) (e : o = .next t) : t.Form := by subst e; exact h

theorem ite_of {α : Type} (p : α → Prop) {c : Prop} [Decidable c] {a b : α} (ha : p a) (hb : p b) : p (if c then a else b) := by
  split <;> assumption

theorem NextForm.ite {c : Prop} [Decidable c] {o o' : Out} (h : NextForm o) (h' : NextForm o') :
    NextForm (if c then o else o') := ite_of NextForm h h'
theorem AllSome.ite {α : Type} {p : α → Prop} {c : Prop} [Decidable c] {o o' : Option α} (h : AllSome p o) (h' : AllSome p o') :
    AllSome p (if c then o else o') := ite_of (AllSome p) h h'
theorem AllOk.ite {ε α : Type} {p : α → Prop} {c : Prop} [Decidable c] {o o' : Except ε α} (h : AllOk p o) (h' : AllOk p o') :
    AllOk p (if c then o else o') := ite_of (AllOk p) h h'
theorem AllOk.ite_error {ε α : Type} {p : α → Prop} {c : Prop} [Decidable c] {e : ε} {o : Except ε α} (h : AllOk p o) :
    AllOk p (if c then .error e else o) := AllOk.ite True.intro h
theorem AllSome.ite_none {α : Type} {p : α → Prop} {c : Prop} [Decidable c] {o : Option α} (h : AllSome p o) :
    AllSome p (if c then o else none) := AllSome.ite h True.intro
theorem AllSome.map {α β : Type} {p : β → Prop} {o : Option α} {f : α → β} (h : ∀ a, p (f a)) : AllSome p (o.map f) := by
  cases o <;> [trivial; exact h _]
theorem AllSome.map_of {α β : Type} {q : α → Prop} {p : β → Prop} {o : Option α} {f : α → β} (h : AllSome q o) (hf : ∀ a, q a → p (f a)) :
    AllSome p (o.map f) := by
  cases o <;> [trivial; exact hf _ h]

theorem AllOk.get {ε α : Type} {p : α → Prop} {a : α} (h : AllOk p (.ok a : Except ε α)) : p a := h
theorem NextForm.get {t : State} (h : NextForm (.next t)) : t.Form := h
theorem AllOk.map_of {ε α β : Type} {q : α → Prop} {p : β → Prop} {o : Except ε α} {f : α → β} (h : AllOk q o) (hf : ∀ a, q a → p (f a)) :
    AllOk p (o.map f) := by
  cases o <;> [trivial; exact hf _ h]
theorem AllSome.bind_of {α β : Type} {q : α → Prop} {p : β → Prop} {o : Option α} {f : α → Option β} (h : AllSome q o)
    (hf : ∀ a, q a → AllSome p (f a)) : AllSome p (o.bind f) := by
  cases o <;> [trivial; exact hf _ h]
theorem AllSome.findSome {α β : Type} {p : β → Prop} {f : α → Option β} (h : ∀ a, AllSome p (f a)) (l : List α) : AllSome p (l.findSome? f) := by
  induction l with
  | nil => trivial
  | cons a l ih =>
    have ha := h a
    rw [List.findSome?_cons]
    split
    · rename_i e
      exact e ▸ ha
    · exact ih
theorem AllSome.of_findSome {α β : Type} {p : β → Prop} {f : α → Option β} {l : List α} {o : Option β} (e : l.findSome? f = o)
    (h : ∀ a, AllSome p (f a)) : AllSome p o := e ▸ AllSome.findSome h l
theorem AllOk.toOption {ε α : Type} {p : α → Prop} {o : Except ε α} (h : AllOk p o) : AllSome p o.toOption := by
  cases o <;> [trivial; exact h]
theorem AllSome.foldl {α β : Type} {p : β → Prop} {f : Option β → α → Option β} {o : Option β} (h : AllSome p o)
    (hf : ∀ o a, AllSome p o → AllSome p (f o a)) (l : List α) : AllSome p (l.foldl f o) :=
  List.foldlRecOn (motive := AllSome p) l f h fun o ho a _ => hf o a ho

/-- Every event of the list keeps the form. -/
def EventsKeep (l : List (State → Out)) : Prop := ∀ e ∈ l, ∀ s : State, s.Form → NextForm (e s)

@[simp] theorem eventsKeep_nil : EventsKeep [] := fun _ he => absurd he List.not_mem_nil
@[simp] theorem eventsKeep_cons (e : State → Out) (l : List (State → Out)) :
    EventsKeep (e :: l) ↔ (∀ s : State, s.Form → NextForm (e s)) ∧ EventsKeep l := List.forall_mem_cons
@[simp] theorem eventsKeep_append (l l' : List (State → Out)) : EventsKeep (l ++ l') ↔ EventsKeep l ∧ EventsKeep l' := List.forall_mem_append
theorem EventsKeep.map {α : Type} {f : α → State → Out} (hf : ∀ a, ∀ s : State, s.Form → NextForm (f a s)) (l : List α) : EventsKeep (l.map f) :=
  List.forall_mem_map.2 fun a _ => hf a
theorem EventsKeep.flatMap {α : Type} {f : α → List (State → Out)} (hf : ∀ a, EventsKeep (f a)) (l : List α) : EventsKeep (l.flatMap f) := by
  intro e he
  obtain ⟨a, _, ha⟩ := List.mem_flatMap.1 he
  exact hf a e ha

/-- A lease that is given leaves a state of the form. -/
def LeaseForm : Lease → Prop
  | .given s _ => s.Form
  | _ => True

theorem LeaseForm.of_eq {l : Lease} {t : State} {gv : Given} (h : LeaseForm l) (e : l = .given t gv) : t.Form := by subst e; exact h

namespace State.Form

variable {s t : State}

theorem frame (h : s.Form) (hm : t.mem = s.mem) (hh : t.hostMem = s.hostMem) (hg : t.groups = s.groups) (ht : t.teams = s.teams) : t.Form :=
  ⟨hm ▸ h.mem, hh ▸ h.hostMem, hg ▸ h.groups, ht ▸ h.teams⟩

theorem ite {c : Prop} [Decidable c] (h : s.Form) (h' : t.Form) : State.Form (if c then s else t) := ite_of State.Form h h'

theorem foldl {α : Type} {f : State → α → State} (h : s.Form) (hf : ∀ t a, t.Form → (f t a).Form) (l : List α) : (l.foldl f s).Form :=
  List.foldlRecOn (motive := State.Form) l f h fun t ht a _ => hf t a ht

theorem fst {α : Type} {p : State × α} {a : α} (h : p.1.Form) (e : p = (s, a)) : s.Form := by subst e; exact h

theorem of_pair {α : Type} {p : State × α} {a : α} (e : p = (s, a)) (h : p.1.Form) : s.Form := h.fst e

theorem iteFst {α : Type} {c : Prop} [Decidable c] {p q : State × α} (hp : p.1.Form) (hq : q.1.Form) : (if c then p else q).1.Form :=
  ite_of (fun p : State × α => p.1.Form) hp hq

theorem foldl_fst {α β : Type} {f : State × β → α → State × β} {p : State × β} (h : p.1.Form) (hf : ∀ q a, q.1.Form → (f q a).1.Form)
    (l : List α) : (l.foldl f p).1.Form :=
  List.foldlRecOn (motive := fun p : State × β => p.1.Form) l f h fun p hp a _ => hf p a hp

theorem getD {o : Option State} (h : s.Form) (ho : AllSome State.Form o) : (o.getD s).Form := by
  cases o
  exacts [h, ho]

theorem of_view {w : View} (e : s.view? = some w) (h : s.Form) : w.s.Form := by
  unfold State.view? at e
  repeat' split at e
  all_goals cases e
  exact h

theorem view {w : View} (h : s.Form) (e : s.view? = some w) : w.s.Form := of_view e h

end State.Form
end Machine
end Sys2Proof

namespace Sys2Proof.Machine

/-! ## What each function of the model leaves has the form

One lemma per function that answers a state, in the model's order. A function that only sets other fields keeps the form by the equality of
the four fields (`{ h with }`); a `put` into the groups or the teams keeps their numbers rising. -/

section
variable {s t : State} {w : View}

/-! ### Machine/Ops -/

theorem State.Form.setGroup {u g} (h : s.Form) : (s.setGroup u g).Form :=
  { h with groups := risingKeys_put _ _ _ h.groups }

theorem State.Form.updGroup {u} {f : Group → Group} (h : s.Form) : (s.updGroup u f).Form := by
  unfold State.updGroup
  split
  exacts [h.setGroup, h]

theorem State.Form.updTeam {u} {f : Team → Team} (h : s.Form) : (s.updTeam u f).Form :=
  { h with teams := risingKeys_upd _ _ _ h.teams }

theorem State.Form.updCtx {n} {f : Ctx → Ctx} (h : s.Form) : (s.updCtx n f).Form :=
  { h with }

theorem State.Form.issued {u ctl halted g} (h : s.Form) : (s.issued u ctl halted g).Form :=
  h.setGroup

theorem State.Form.skip {ctl} (h : w.s.Form) : (w.skip ctl).Form :=
  h.issued

theorem State.Form.raise {target e} (h : s.Form) : (s.raise target e).Form :=
  .ite { h with } { h with }

theorem State.Form.raiseFor {u code arg data} (h : s.Form) : (s.raiseFor u code arg data).Form := by
  unfold State.raiseFor
  split
  · exact h
  split
  exacts [h, h.raise]

theorem State.Form.haltTeam {team u code} (h : s.Form) : (s.haltTeam team u code).Form := by
  unfold State.haltTeam
  split
  exacts [h, State.Form.updGroup (State.Form.updTeam (.ite h h.raiseFor))]

theorem State.Form.takeTrap {g code mask epc tinfo} (h : w.s.Form) : (w.takeTrap g code mask epc tinfo).Form := by
  unfold View.takeTrap
  extract_lets s1 s
  have hs1 : s1.Form := h
  have hs : s.Form := { hs1 with }
  split
  exacts [.ite hs.setGroup.haltTeam hs.setGroup, hs.setGroup.haltTeam]

theorem State.Form.trapHere {code mask tinfo} (h : w.s.Form) : (w.trapHere code mask tinfo).Form :=
  h.takeTrap

theorem State.Form.illop {opc} (h : w.s.Form) : (w.illop opc).Form :=
  h.trapHere

theorem State.Form.priv {opc} (h : w.s.Form) : (w.priv opc).Form :=
  h.trapHere

theorem State.Form.firstReads {srcs} (h : w.s.Form) : (w.firstReads srcs).s.Form := by
  unfold View.firstReads
  split
  · exact h
  extract_lets
  split
  exacts [h, h]

theorem issue_form {i} {body : View → Mask → Out} (h : s.Form) (hbody : ∀ (w : View) (m : Mask), w.s.Form → NextForm (body w m)) :
    NextForm (issue i s body) := by
  unfold issue
  split
  · trivial
  rename_i e
  extract_lets
  split
  · exact (h.view e).illop
  split
  · exact (h.view e).priv
  split
  · exact (h.view e).skip
  split
  exacts [(h.view e).trapHere, hbody _ _ ((h.view e).firstReads)]

theorem State.Form.finish {i m sx} {out : ℕ → LaneOut} (h : w.s.Form) : (w.finish i m sx out).Form :=
  h.issued

theorem laneOp_form {i sx} {out : View → Mask → ℕ → LaneOut} (h : s.Form) : NextForm (laneOp i s sx out) :=
  issue_form h (fun _ _ h' => h'.finish)

theorem groupOp_form {i} {f : View → Mask → Group → Group} (h : s.Form) : NextForm (groupOp i s f) :=
  issue_form h (fun _ _ h' => h'.issued)

/-! ### Machine/Memory -/

theorem State.Form.markFrames {pa leaf} (h : s.Form) : AllSome State.Form (s.markFrames pa leaf) :=
  .ite (.ite trivial { h with }) (.ite (.ite trivial { h with }) h)

theorem State.Form.tlbInstall {core zone ctx va pa leaf} (h : s.Form) : (s.tlbInstall core zone ctx va pa leaf).Form :=
  { h with }

theorem State.Form.walkInstall {core ctx cx va acc} (h : s.Form) : AllOk State.Form (s.walkInstall core ctx cx va acc) := by
  unfold State.walkInstall
  split
  exacts [trivial, (h.getD h.markFrames).tlbInstall]

theorem State.Form.refreshFrames (h : s.Form) : s.refreshFrames.Form :=
  { h with }

theorem State.Form.installQuiet {acc vas} (h : w.s.Form) : (w.installQuiet acc vas).Form := by
  unfold View.installQuiet
  refine h.foldl ?_ _
  intro t a h'
  split
  · exact h'
  split
  · rename_i e
    exact AllOk.of_eq h'.walkInstall e
  · exact h'

/-! ### Machine/Coherence -/

theorem State.Form.updZone {zn} {f : Zone → Zone} (h : s.Form) : (s.updZone zn f).Form :=
  { h with }

theorem State.Form.updBank {b} {f : Bank → Bank} (h : s.Form) : (s.updBank b f).Form :=
  { h with }

theorem State.Form.touchBase {loc zn p} (h : s.Form) : (s.touchBase loc zn p).Form := by
  unfold State.touchBase
  split
  exacts [h.frame rfl rfl rfl rfl, h]

theorem State.Form.foldHome {zn home x} (h : s.Form) : (s.foldHome zn home x).Form :=
  h.updZone

theorem State.Form.charge {zn line n} (h : s.Form) : (s.charge zn line n).Form :=
  h.updZone

theorem State.Form.enterChan {src} (h : s.Form) : (s.enterChan src).Form :=
  .ite h { h with }

theorem State.Form.leaveChan {src} (h : s.Form) : (s.leaveChan src).Form :=
  { h with }

theorem State.Form.spend {zn line n} (h : s.Form) : (s.spend zn line n).Form := by
  unfold State.spend
  split
  exacts [h, .ite h.charge { h with }]

theorem State.Form.servePosts (h : s.Form) : s.servePosts.Form := by
  unfold State.servePosts
  refine h.foldl ?_ _
  intro t a h'
  split
  exacts [.ite h'.leaveChan.charge h', h']

theorem State.Form.chargeLine {zn line} (h : s.Form) : (s.chargeLine zn line).Form :=
  h.spend

theorem State.Form.touchLines {zn lines} (h : s.Form) : (s.touchLines zn lines).Form :=
  h.foldl (fun _ _ h' => .ite h'.chargeLine h') _

theorem State.Form.walkTouch {cx va} (h : s.Form) : (s.walkTouch cx va).Form :=
  h.touchLines

theorem State.Form.evictHome {key} (h : s.Form) : (s.evictHome key).Form := by
  unfold State.evictHome
  split
  · extract_lets s1 s'
    have hs1 : s1.Form := h.foldHome.foldHome
    have hs' : s'.Form := { hs1 with }
    exact .ite hs'.chargeLine hs'
  · exact h

theorem State.Form.roomAt {zn cache} (h : s.Form) : (s.roomAt zn cache).Form := by
  unfold State.roomAt
  extract_lets
  split
  · exact h
  split
  exacts [{ h with }, { h with }, h.evictHome, h]

theorem State.Form.storeRec {zn home line x unc} (h : s.Form) : (s.storeRec zn home line x unc).1.Form := by
  unfold State.storeRec
  extract_lets _ _ _ _ _ s' s1 s''
  have hs' : s'.Form := .ite h h.chargeLine
  have hs1 : s1.Form := hs'.foldHome
  have hs'' : s''.Form := .ite hs' hs'.roomAt
  split
  exacts [{ hs1 with }, { hs'' with }]

theorem State.Form.putHome {zn home line x unc} (h : s.Form) : (s.putHome zn home line x unc).Form :=
  h.storeRec

theorem State.Form.moveRec {zn home line x} (h : s.Form) : (s.moveRec zn home line x).Form := by
  unfold State.moveRec
  extract_lets _ s1
  have hs1 : s1.Form := h.foldHome
  exact .ite { hs1 with } h.putHome

theorem State.Form.writeLocal {a bytes} (h : s.Form) : (s.writeLocal a bytes).Form :=
  .ite { h with hostMem := wf_writeBytes _ _ _ h.hostMem } { h with mem := wf_writeBytes _ _ _ h.mem }

theorem State.Form.moveHere {zn home line} (h : s.Form) : (s.moveHere zn home line).Form := by
  unfold State.moveHere
  split
  exacts [.ite h.putHome h, h]

theorem State.Form.touchHome {zn home line p} (h : s.Form) : (s.touchHome zn home line p).Form :=
  h.touchBase.moveHere

theorem State.Form.homeWrite {zn home line p unc} (h : s.Form) : (s.homeWrite zn home line p unc).1.Form :=
  h.touchHome.putHome

theorem State.Form.homeRead {zn home line p} (h : s.Form) : (s.homeRead zn home line p).1.Form :=
  h.touchHome.putHome

theorem State.Form.agentWrite {zn leaf pa p bytes} (h : s.Form) : (s.agentWrite zn leaf pa p bytes).Form :=
  h.touchHome.putHome.writeLocal

theorem State.Form.writeLine {zn core p leaf line bytes} (h : s.Form) : (s.writeLine zn core p leaf line bytes).Form := by
  unfold State.writeLine
  extract_lets _ s'
  have hs' : s'.Form := h.homeWrite
  exact .ite h { hs' with mem := wf_foldl_writeByte _ _ _ _ hs'.mem }

theorem State.Form.writeBack {zn g} {sel : ℕ → Bool} (h : s.Form) : (s.writeBack zn g sel).1.Form :=
  h.foldl (fun _ _ h' => h'.writeLine) _

theorem State.Form.evictL1 {core zn line} (h : s.Form) : (s.evictL1 core zn line).Form := by
  unfold State.evictL1
  split
  · exact { h with }
  · split
    · exact { (h.foldl (fun _ _ h' => h'.writeLine) _) with groups := risingKeys_put _ _ _ ((h.foldl (fun _ _ h' => h'.writeLine) _).groups) }
    · exact h
  · exact h

theorem State.Form.roomL1 {core zn line} (h : s.Form) : (s.roomL1 core zn line).Form :=
  .ite h h.evictL1

theorem State.Form.raiseLh {zn d v} (h : s.Form) : (s.raiseLh zn d v).Form :=
  h.updZone

theorem State.Form.putL1 {core zn line c} (h : s.Form) : (s.putL1 core zn line c).Form :=
  .ite { h.roomL1 with } h

theorem State.Form.putL2 {d zn line c} (h : s.Form) : (s.putL2 d zn line c).Form := by
  unfold State.putL2
  extract_lets _ s'
  have hs' : s'.Form := .ite h h.roomAt
  exact .ite h { hs' with }

theorem State.Form.dropL1 {core zn line} (h : s.Form) : (s.dropL1 core zn line).Form :=
  { h with }

theorem State.Form.dropL2 {d zn line} (h : s.Form) : (s.dropL2 d zn line).Form :=
  { h with }

theorem State.Form.grantHome {zn home line p n} (h : s.Form) : (s.grantHome zn home line p n).1.Form :=
  h.touchHome.storeRec

theorem State.Form.grantL2 {zn d home line p n data} (h : s.Form) : (s.grantL2 zn d home line p n data).Form := by
  rw [show @State.grantL2 = _ by delta State.grantL2; exact rfl]
  split
  · rename_i e
    extract_lets s' _ s''
    have hs' : s'.Form := ((h.grantHome.fst e).touchBase).raiseLh
    have hs'' : s''.Form := by
      unfold s''
      split
      exacts [hs'.putL2, hs'.dropL2]
    refine hs''.foldl ?_ _
    intro t a h'
    split
    · split
      exacts [h'.putL2, h'.dropL2]
    · exact h'

theorem State.Form.leaseSource {zn d leaf home line p n} (h : s.Form) : AllSome (fun a => a.1.Form) (s.leaseSource zn d leaf home line p n) := by
  unfold State.leaseSource
  split
  · extract_lets s'
    have hs' : s'.Form := h.touchBase
    split
    exacts [.ite hs' trivial, trivial]
  · extract_lets s'
    have hs' : s'.Form := h.touchHome
    split
    · rename_i e
      exact .of_pair e (.iteFst hs' hs'.grantHome)

theorem State.Form.grantL1 {core zn leaf home line p n install xp} (h : s.Form) : LeaseForm (s.grantL1 core zn leaf home line p n install xp) := by
  unfold State.grantL1
  extract_lets
  split
  · trivial
  rename_i e
  extract_lets s'
  have hs' : s'.Form := (AllSome.fst_of_eq h.leaseSource e).touchBase
  split
  · trivial
  extract_lets s'' s''' s''''
  have hs'' : s''.Form := hs'.raiseLh
  have hs''' : s'''.Form := .ite hs''.putL1 hs''
  have hs'''' : s''''.Form := by
    unfold s''''
    refine hs'''.foldl ?_ _
    intro t a h'
    split
    exacts [.ite h' (.ite h'.putL1 h'.dropL1), h']
  exact hs''''

theorem State.Form.raceLines {write ls} (h : s.Form) : AllSome State.Form (w.raceLines write ls s) := by
  induction ls generalizing s with
  | nil => exact h
  | cons l ls ih =>
    unfold View.raceLines
    split
    · exact ih h
    split
    · exact ih h
    split
    · exact ih h
    split
    exacts [trivial, ih { h with }]

theorem State.Form.raceStamp {zn line team ts} (h : s.Form) : (s.raceStamp zn line team ts).Form := by
  unfold State.raceStamp
  split
  exacts [h, { h with }]

theorem State.Form.ackL1 {core zn line ts data} {own : ℕ → Bool} (h : s.Form) : (s.ackL1 core zn line ts own data).Form := by
  unfold State.ackL1
  refine h.foldl (fun t l ht => ?_) _
  split
  · exact ht
  split
  · extract_lets merged c fresh keep t'
    have ht' : t'.Form := .ite ht { ht with }
    split
    exacts [ht'.putL1.raiseLh, ht'.dropL1]
  · exact ht.dropL1

theorem State.Form.expireLines {zn lines} (h : s.Form) : (s.expireLines zn lines).Form :=
  { h with }

/-! ### Machine/Access -/

theorem State.Form.hold {how} (h : w.s.Form) : (w.hold how).Form :=
  h.setGroup

theorem State.Form.awaitWalk {va acc by_} (h : w.s.Form) : (w.awaitWalk va acc by_).Form :=
  h.setGroup

theorem State.Form.access {u m n acc} {addr : ℕ → AddrOut} {k : List ThreadAcc → Out} (h : w.s.Form) (hk : ∀ (x : List ThreadAcc), NextForm (k x)) :
    NextForm (w.access u m n acc addr k) := by
  unfold View.access
  extract_lets _ _ _ _ _ _ _ prot
  split
  · exact h.trapHere
  split
  · exact h.awaitWalk
  clear_value prot
  split
  exacts [hk _, h.trapHere]

theorem State.Form.raceCheck {accs write} (h : w.s.Form) : AllOk State.Form (w.raceCheck accs write) := by
  unfold View.raceCheck
  extract_lets bad
  split
  · clear_value bad
    split
    · rename_i e _
      exact AllSome.of_eq h.raceLines e
    · trivial
  · clear_value bad
    split
    exacts [h, trivial]

theorem State.Form.raced {u m accs write} {k : View → Out} (h : w.s.Form) (hk : ∀ (w : View), w.s.Form → NextForm (k w)) :
    NextForm (w.raced u m accs write k) := by
  unfold View.raced
  split
  · exact hk _ h
  split
  · rename_i e
    exact hk _ (AllOk.of_eq h.raceCheck e)
  · exact h.trapHere

theorem State.Form.privStore {u core zn p bytes} (h : s.Form) : (s.privStore u core zn p bytes).Form := by
  unfold State.privStore
  split
  · exact h
  split
  · extract_lets s'
    have hs' : s'.Form := h.roomL1
    exact { hs' with groups := risingKeys_upd _ _ _ hs'.groups }
  · extract_lets s'
    have hs' : s'.Form := h.agentWrite
    exact { hs' with groups := risingKeys_upd _ _ _ hs'.groups }

/-! ### Machine/Events -/

theorem State.Form.logError {kind chip unit zone pa} (h : s.Form) : (s.logError kind chip unit zone pa).Form :=
  { h with }

theorem State.Form.countCorrected (h : s.Form) : s.countCorrected.Form :=
  { h with }

theorem State.Form.capacityChange {f : State → State} {lost chip kind unit down} (h : s.Form) (hf : ∀ (s : State), s.Form → (f s).Form) :
    (s.capacityChange f lost chip kind unit down).Form := by
  have ht : (f s).Form := hf s h
  unfold State.capacityChange
  refine State.Form.raise (State.Form.foldl (.ite ?_ ?_) (fun _ _ h' => h'.raise) _)
  exacts [{ ht with }, { ht with }]

theorem State.Form.setTime {t} (h : s.Form) : (s.setTime t).Form :=
  h.capacityChange (fun _ h' => { h' with })

theorem execEventPlace_form {target} (h : s.Form) : NextForm (execEventPlace target s) := by
  unfold execEventPlace
  split
  · exact h
  extract_lets
  split
  · exact h
  split
  exacts [{ h with }, h]

/-! ### Machine/Exchange -/

theorem State.Form.exWrite {cx va bytes} (h : s.Form) : AllOk State.Form (s.exWrite cx va bytes) := by
  unfold State.exWrite
  split
  exacts [trivial, .ite trivial (.ite trivial (h.foldl (fun _ _ h' => h'.agentWrite) _))]

theorem State.Form.homePut {zn pa bytes} (h : s.Form) : (s.homePut zn pa bytes).Form :=
  h.agentWrite

theorem State.Form.exTouch {cx va n} (h : s.Form) : (s.exTouch cx va n).Form := by
  unfold State.exTouch
  split
  exacts [h, h.touchLines]

theorem State.Form.updQd {q} {f : QDir → QDir} (h : s.Form) : (s.updQd q f).Form :=
  { h with }

theorem State.Form.updSlot {k} {f : Slot → Slot} (h : s.Form) : (s.updSlot k f).Form :=
  { h with }

theorem State.Form.stopQueue {q} (h : s.Form) : (s.stopQueue q).Form := by
  unfold State.stopQueue
  extract_lets _ _ s'
  have hs' : s'.Form := by
    unfold s'
    split
    exacts [h.updSlot, .ite h h.homePut]
  exact hs'.updQd.raise

theorem State.Form.kick {from_ q w} (h : s.Form) : (s.kick from_ q w).Form := by
  unfold State.kick
  extract_lets _ d s'
  have hs' : s'.Form := h.updQd
  split
  · exact h
  split
  · exact h
  split
  · extract_lets s''
    have hs'' : s''.Form := hs'.updSlot
    split
    exacts [.ite hs''.stopQueue hs'', hs'']
  · exact .ite hs' hs'.updQd.raise

theorem execKick_form {from_ q w} (h : s.Form) : NextForm (execKick from_ q w s) :=
  h.kick

theorem State.Form.writeDirectory0 {from_ q v} (h : s.Form) : (s.writeDirectory0 from_ q v).Form :=
  .ite h.updQd h

theorem State.Form.directoryW1c {from_ q v} (h : s.Form) : (s.directoryW1c from_ q v).Form :=
  .ite h.updQd h

theorem execDirectoryW1c_form {from_ q v} (h : s.Form) : NextForm (execDirectoryW1c from_ q v s) :=
  h.directoryW1c

/-! ### Machine/Loads -/

theorem State.Form.send {r} (h : s.Form) : (s.send r).Form :=
  { h with }

theorem State.Form.stat {x : LoadRun} {k st} (h : x.s.Form) : (x.stat k st).s.Form :=
  h

theorem State.Form.remote {x : LoadRun} {c k q} (h : x.s.Form) : (x.remote c k q).s.Form := by
  unfold LoadRun.remote
  extract_lets
  split
  · exact h
  split
  exacts [h.send, h]

theorem State.Form.lose {x : LoadRun} {k q} (h : x.s.Form) : (x.lose k q).s.Form :=
  h

theorem State.Form.askHost {x : LoadRun} {c k q} (h : x.s.Form) : (x.askHost c k q).s.Form := by
  unfold LoadRun.askHost
  split
  exacts [h.stat, h.send]

theorem State.Form.miss {x : LoadRun} {c k q} (h : x.s.Form) : (x.miss c k q).s.Form := by
  unfold LoadRun.miss
  split
  · exact h.askHost
  split
  exacts [h.stat, h.stat]

theorem State.Form.start {x : LoadRun} {c k} (h : x.s.Form) : (x.start c k).s.Form := by
  rw [show @LoadRun.start = _ by delta LoadRun.start; exact rfl]
  split
  · exact h
  split
  · exact h.stat
  split
  · exact h.remote
  split
  · exact h.stat
  split
  · exact h.stat
  split
  · exact h.lose
  split
  · split
    exacts [h.askHost, h.stat]
  · extract_lets s x'
    have hs : s.Form := h.touchBase
    have hx' : x'.s.Form := hs
    split
    · split
      exacts [hx'.stat, hx'.miss]
    · split
      · split
        exacts [hx'.miss, hx'.stat]
      · split
        · exact hx'.stat
        split
        exacts [hx', hx'.stat]

theorem State.Form.startAll {x : LoadRun} {c} (h : x.s.Form) : (x.startAll c).s.Form := by
  unfold LoadRun.startAll
  extract_lets x'
  have hx' : x'.s.Form := List.foldlRecOn (motive := fun x : LoadRun => x.s.Form) _ _ h fun _ hx _ _ => hx.start
  split
  exacts [hx', { hx' with }]

theorem State.Form.logged {x : LoadRun} {zn} (h : x.s.Form) : (x.logged zn).s.Form :=
  h.foldl (fun _ _ h' => .ite h'.logError h') _

theorem State.Form.runLoad {i m ty nl1 kind accs} (h : w.s.Form) : NextForm (w.runLoad i m ty nl1 kind accs) := by
  unfold View.runLoad
  split
  · exact h.hold
  split
  · exact h.hold
  extract_lets _ _ _ _ _ x x' x'' _ x'''
  have hx : x.s.Form := State.Form.startAll h
  have hx' : x'.s.Form := by
    unfold x'
    split
    exacts [hx, hx]
  have hx'' : x''.s.Form := hx'.logged
  have hx''' : x'''.s.Form := by
    unfold x'''
    split
    exacts [hx'', hx''.logError]
  exact hx'''.issued

theorem State.Form.readForm {accs} {k : View → List Byte → Bool → Out} (h : w.s.Form)
    (hk : ∀ (w : View) (x : List Byte) (x' : Bool), w.s.Form → NextForm (k w x x')) : NextForm (w.readForm accs k) := by
  unfold View.readForm
  split
  · exact hk _ _ _ h
  split
  · exact h.hold
  split
  · exact h.hold
  extract_lets _ _ x s
  have hx : x.s.Form := State.Form.logged (State.Form.startAll h)
  have hs : s.Form := hx
  exact .ite (hk _ _ _ hs) (State.Form.hold hs)

/-! ### Machine/MemoryAccess -/

theorem scratchStores_form {accs} {data : ℕ → List Byte} {pts} (h : s.Form) : (scratchStores accs data pts s).Form := by
  unfold scratchStores
  refine h.foldl ?_ _
  intro t a h'
  split
  exacts [h'.updTeam, h']

theorem State.Form.clean {accs} (h : w.s.Form) : (w.clean accs).s.Form := by
  unfold View.clean
  extract_lets
  split
  exacts [h.foldl (fun _ _ h' => h'.writeLine) _, h]

theorem State.Form.privStores {accs} {data : ℕ → List Byte} {g} (hs : s.Form) : (w.privStores accs data s g).1.Form := by
  unfold View.privStores
  split
  · exact hs
  extract_lets s'
  have hs' : s'.Form := by
    unfold s'
    refine State.Form.foldl ?_ (fun t a h' => ?_) _
    · exact { hs with groups := risingKeys_put _ _ _ hs.groups }
    split
    exacts [.ite h' (h'.foldl (fun _ _ h'' => h''.privStore.raceStamp) _), h']
  exact hs'

theorem State.Form.runStore {i m accs} {data : ℕ → List Byte} (h : w.s.Form) : NextForm (w.runStore i m accs data) := by
  unfold View.runStore
  split
  · exact h.hold
  split
  · exact h.hold
  extract_lets w' _ s
  have hw' : w'.s.Form := h.clean
  have hs : s.Form := scratchStores_form hw'
  split
  · rename_i e
    exact (hs.privStores.fst e).issued

theorem loadOp_form {i x acc race} {addr : View → ℕ → AddrOut} (h : s.Form) : NextForm (loadOp i s x acc race addr) :=
  issue_form h (fun _ _ h' => h'.access (fun _ => .ite (h'.raced (fun _ h'' => h''.runLoad)) h'.runLoad))

theorem storeOp_form {i x acc} {addr : View → ℕ → AddrOut} (h : s.Form) : NextForm (storeOp i s x acc addr) :=
  issue_form h (fun _ _ h' => h'.access (fun _ => h'.raced (fun _ h'' => h''.runStore)))

theorem execLd_form {x} (h : s.Form) : NextForm (execLd x s) :=
  loadOp_form h

theorem execLdun_form {x} (h : s.Form) : NextForm (execLdun x s) :=
  loadOp_form h

theorem execLdx_form {x} (h : s.Form) : NextForm (execLdx x s) :=
  loadOp_form h

theorem execLds_form {x} (h : s.Form) : NextForm (execLds x s) :=
  loadOp_form h

theorem execLdp_form {x} (h : s.Form) : NextForm (execLdp x s) :=
  loadOp_form h

theorem execSt_form {x} (h : s.Form) : NextForm (execSt x s) :=
  storeOp_form h

theorem execStx_form {x} (h : s.Form) : NextForm (execStx x s) :=
  storeOp_form h

theorem execSts_form {x} (h : s.Form) : NextForm (execSts x s) :=
  storeOp_form h

theorem execStp_form {x} (h : s.Form) : NextForm (execStp x s) :=
  storeOp_form h

theorem execMcst_form {x} (h : s.Form) : NextForm (execMcst x s) :=
  issue_form h (fun _ _ h' => h'.access (fun _ => h'.runStore))

theorem execLdc_form {x} (h : s.Form) : NextForm (execLdc x s) := by
  unfold execLdc
  refine issue_form h ?_
  intro w m h'
  extract_lets _ _ _ _ _ _ s'
  have hs' : s'.Form := h'.finish
  split
  exacts [h'.trapHere, State.Form.ite { hs' with } hs']

theorem execPref_form {x} (h : s.Form) : NextForm (execPref x s) :=
  issue_form h (fun _ _ h' => .ite h'.hold (State.Form.issued (State.Form.startAll h'.installQuiet)))

theorem execWbp_form {x} (h : s.Form) : NextForm (execWbp x s) :=
  issue_form h (fun _ _ h' => h'.access (fun _ => (h'.foldl (fun _ _ h'' => h''.writeLine) _).issued))

theorem execWbpAll_form {x} (h : s.Form) : NextForm (execWbpAll x s) :=
  issue_form h (fun _ _ h' => (h'.foldl (fun _ _ h'' => h''.writeLine) _).issued)

theorem queueOp_form {i x pop} (h : s.Form) : NextForm (queueOp i x pop s) := by
  unfold queueOp
  refine issue_form h ?_
  intro w m h'
  extract_lets
  split
  · split
    exacts [State.Form.trapHere h', h'.setGroup, .ite h'.finish h'.hold]
  · exact h'.issued

theorem execQpop_form {x} (h : s.Form) : NextForm (execQpop x s) :=
  queueOp_form h

theorem execQpeek_form {x} (h : s.Form) : NextForm (execQpeek x s) :=
  queueOp_form h

theorem execFpush_form {x} (h : s.Form) : NextForm (execFpush x s) :=
  issue_form h (fun _ _ h' => .ite h'.trapHere (.ite h'.hold h'.updTeam.issued))

theorem execFpop_form {x} (h : s.Form) : NextForm (execFpop x s) := by
  unfold execFpop
  refine issue_form h ?_
  intro w m h'
  extract_lets
  split
  · exact h'.trapHere
  split
  exacts [h'.hold, .ite h'.hold h'.updTeam.issued]

/-! ### Machine/Atomics -/

theorem State.Form.note {x : LocalRun} {a old bad} (h : x.s.Form) : (x.note a old bad).s.Form :=
  h

theorem State.Form.one {x : LocalRun} {a pts} {f : ℕ → ℕ} (h : x.s.Form) : (x.one w a pts f).s.Form := by
  unfold LocalRun.one
  split
  · split
    exacts [h, h.updTeam]
  · split
    · exact h
    extract_lets bs new s1 s'
    refine State.Form.foldl ?_ (fun _ _ h' => h'.privStore) _
    exact { h with groups := risingKeys_put _ _ _ h.groups }
  · exact h

theorem State.Form.readFar {accs} {k : View → List Byte → Bool → Out} (h : w.s.Form)
    (hk : ∀ (w : View) (x : List Byte) (x' : Bool), w.s.Form → NextForm (k w x x')) : NextForm (w.readFar accs k) := by
  unfold View.readFar
  split
  exacts [hk _ _ _ h, h.readForm (fun _ _ _ h' => hk _ _ _ h')]

theorem State.Form.foldRun {α : Type} {x : LocalRun} {f : LocalRun → α → LocalRun} (h : x.s.Form)
    (hf : ∀ y a, y.s.Form → (f y a).s.Form) (l : List α) : (l.foldl f x).s.Form :=
  List.foldlRecOn (motive := fun y : LocalRun => y.s.Form) l f h fun y hy a _ => hf y a hy

theorem State.Form.runAtomic {i m ty op sem scope} {b : ℕ → ℕ} {c : ℕ → ℕ} {accs} (h : w.s.Form) :
    NextForm (w.runAtomic i m ty op sem scope b c accs) := by
  unfold View.runAtomic
  extract_lets
  refine .ite h.trapHere (.ite h.hold (.ite h.hold (.ite h.hold (.ite h.hold (h.readFar fun v bs bad h' => ?_)))))
  extract_lets w' one _ x _ s'
  have hone : one.s.Form := h'.clean.foldRun (fun _ _ hy => hy.one) _
  have hx : x.s.Form := hone.foldRun (fun _ _ hy => hy.note) _
  have hs' : s'.Form := .ite hx.updTeam hx
  exact hs'.issued

theorem atomOp_form {i x win} (h : s.Form) : NextForm (atomOp i x win s) :=
  issue_form h (fun _ _ h' => h'.access (fun _ => h'.runAtomic))

theorem execAtom_form {x} (h : s.Form) : NextForm (execAtom x s) :=
  atomOp_form h

theorem execAtomx_form {x} (h : s.Form) : NextForm (execAtomx x s) :=
  atomOp_form h

theorem execAtoms_form {x} (h : s.Form) : NextForm (execAtoms x s) :=
  issue_form h (fun _ _ h' => h'.access (fun _ => h'.runAtomic))

theorem execRed_form {x} (h : s.Form) : NextForm (execRed x s) :=
  issue_form h (fun _ _ h' => h'.access (fun _ => h'.runAtomic))

theorem fenceOp_form {i} {ready : View → Bool} {f : View → State × Group} (h : s.Form) (hf : ∀ (w : View), w.s.Form → (f w).1.Form) :
    NextForm (fenceOp i s ready f) :=
  issue_form h (fun _ _ h' => .ite h'.hold ((hf _ h').issued))

theorem execFence_form {x} (h : s.Form) : NextForm (execFence x s) :=
  fenceOp_form h (fun _ h' => h'.updTeam)

theorem execAcq_form {x} (h : s.Form) : NextForm (execAcq x s) :=
  fenceOp_form h (fun _ h' => h')

theorem relOp_form {i scope signal} (h : s.Form) : NextForm (relOp i s scope signal) :=
  issue_form h (fun _ _ h' => h'.updTeam.issued)

theorem execRel_form {x} (h : s.Form) : NextForm (execRel x s) :=
  relOp_form h

theorem execXfence_form {x} (h : s.Form) : NextForm (execXfence x s) :=
  relOp_form h

theorem State.Form.expireDistrict {d zn} (h : s.Form) : (s.expireDistrict d zn).Form :=
  { h with }

theorem State.Form.expireCore {core zn} (h : s.Form) : (s.expireCore core zn).Form :=
  { h with groups := risingKeys_map h.groups fun _ => rfl }

theorem execPtsrd_form {x} (h : s.Form) : NextForm (execPtsrd x s) :=
  laneOp_form h

theorem State.Form.runLease {i m kind pieces lines} (h : w.s.Form) : NextForm (w.runLease i m kind pieces lines) :=
  State.Form.issued (State.Form.foldl (State.Form.startAll h) (fun _ _ h' => .ite h'.logError h') _)

theorem execLease_form {x} (h : s.Form) : NextForm (execLease x s) :=
  issue_form h (fun _ _ h' => h'.access (fun _ => h'.runLease))

theorem execSwarm_form {x} (h : s.Form) : NextForm (execSwarm x s) :=
  issue_form h (fun _ _ h' => h'.access (fun _ => .ite h'.hold ((h'.foldl (fun _ _ h'' => h''.updTeam) _).issued)))

theorem State.Form.swFinish {i m accs acq} (h : w.s.Form) : (w.swFinish i m accs acq).Form :=
  h.issued

theorem execSwgen_form {x} (h : s.Form) : NextForm (execSwgen x s) :=
  issue_form h (fun _ _ h' => h'.access (fun _ => h'.swFinish))

theorem execSwwait_form {x} (h : s.Form) : NextForm (execSwwait x s) :=
  issue_form h (fun _ _ h' => h'.access (fun _ => .ite h'.hold h'.swFinish))

theorem State.Form.finishS {i m g d} (hs : s.Form) : (w.finishS i m s g d).Form :=
  hs.issued

theorem State.Form.placeObj {zn x race tiles} (h : s.Form) : (s.placeObj zn x race tiles).Form := by
  unfold State.placeObj
  extract_lets _ _ _ s' s''
  have hs' : s'.Form := h.expireLines
  have hs'' : s''.Form := { hs' with }
  refine hs''.foldl ?_ _
  intro t a h'
  split
  exacts [h', h'.moveRec]

theorem State.Form.dropObj {x} (h : s.Form) : (s.dropObj x).Form := by
  unfold State.dropObj
  split
  · exact h
  extract_lets _ _ _ s1 s' s''
  have hs1 : s1.Form := h.expireLines
  have hs' : s'.Form := { hs1 with }
  have hs'' : s''.Form := { hs' with }
  exact hs''.foldl (fun _ _ h' => h'.foldl (fun _ _ h'' => h''.moveRec) _) _

theorem State.Form.declare {x race} (h : w.s.Form) : AllOk (fun a => a.1.Form) (w.declare x race) := by
  unfold View.declare
  extract_lets
  split
  exacts [trivial, .ite trivial (.ite trivial h.placeObj)]

theorem execObjdecl_form {x} (h : s.Form) : NextForm (execObjdecl x s) := by
  unfold execObjdecl
  refine issue_form h fun w m h' => h'.access fun accs => h'.readForm fun w bs bad h' => ?_
  extract_lets shape
  refine .ite h'.trapHere (.ite h'.trapHere (h'.raced fun w h' => ?_))
  extract_lets fail
  clear_value shape
  have hfail : ∀ k, NextForm (fail k) := fun k => h'.finishS
  split
  · exact hfail _
  refine .ite (hfail _) ?_
  extract_lets vas w'
  have hw : w'.s.Form := h'.installQuiet
  refine .ite h'.hold ?_
  split
  · exact hfail _
  · rename_i e
    exact State.Form.finishS (AllOk.fst_of_eq hw.declare e)

theorem execObjdrop_form {x} (h : s.Form) : NextForm (execObjdrop x s) := by
  unfold execObjdrop
  refine issue_form h ?_
  intro w m h'
  extract_lets
  split
  exacts [.ite h'.dropObj.finishS h'.finishS, h'.finishS]

/-! ### Machine/Matrix -/

theorem State.Form.updQuad {q} {f : Quad → Quad} (h : s.Form) : (s.updQuad q f).Form :=
  { h with }

theorem State.Form.mxParam {m reason field} (h : w.s.Form) : (w.mxParam m reason field).Form :=
  State.Form.trapHere h

theorem State.Form.accBusy {m id tile} (h : w.s.Form) : (w.accBusy m id tile).Form :=
  State.Form.trapHere h

theorem State.Form.tileForm {m regions badSel tiles keys} {k : Quad → Out} (h : w.s.Form) (hk : ∀ (x : Quad), NextForm (k x)) :
    NextForm (w.tileForm m regions badSel tiles keys k) := by
  unfold View.tileForm
  split
  · exact h.trapHere
  split
  · exact h.mxParam
  split
  · exact h.mxParam
  split
  · exact h.accBusy
  split
  exacts [h.trapHere, hk _]

theorem State.Form.mxDone {i m} (hs : s.Form) : NextForm (w.mxDone i m s) :=
  hs.issued

theorem execMxzero_form {x} (h : s.Form) : NextForm (execMxzero x s) :=
  issue_form h (fun _ _ h' => h'.tileForm (fun _ => h'.updQuad.mxDone))

theorem execMxrd_form {x} (h : s.Form) : NextForm (execMxrd x s) :=
  issue_form h (fun _ _ h' => h'.tileForm (fun _ => h'.finish))

theorem execMxwr_form {x} (h : s.Form) : NextForm (execMxwr x s) :=
  issue_form h (fun _ _ h' => h'.tileForm (fun _ => h'.updQuad.mxDone))

theorem State.Form.scrStore {parts} (h : w.s.Form) : (w.scrStore parts).Form :=
  h.foldl (fun _ _ h' => h'.updTeam) _

theorem execMxst_form {x} (h : s.Form) : NextForm (execMxst x s) :=
  issue_form h (fun _ _ h' => h'.tileForm (fun _ => .ite h'.hold h'.scrStore.mxDone))

theorem execMxepi_form {x} (h : s.Form) : NextForm (execMxepi x s) :=
  issue_form h (fun _ _ h' => h'.tileForm (fun _ => .ite h'.hold h'.scrStore.mxDone))

theorem execMxscl_form {x} (h : s.Form) : NextForm (execMxscl x s) :=
  issue_form h (fun _ _ h' => h'.tileForm (fun _ => h'.updQuad.mxDone))

theorem execMxperm_form {x} (h : s.Form) : NextForm (execMxperm x s) := by
  unfold execMxperm
  refine issue_form h ?_
  intro w m h'
  extract_lets
  split
  · exact h'.trapHere
  split
  exacts [h'.mxParam, .ite h'.mxParam (h'.tileForm (fun _ => h'.updQuad.mxDone))]

theorem execPlane_form {x} (h : s.Form) : NextForm (execPlane x s) := by
  unfold execPlane
  refine issue_form h ?_
  intro w m h'
  extract_lets
  split
  · exact h'.trapHere
  split
  exacts [h'.mxParam, .ite h'.hold h'.scrStore.mxDone]

theorem execUnplane_form {x} (h : s.Form) : NextForm (execUnplane x s) := by
  unfold execUnplane
  refine issue_form h ?_
  intro w m h'
  extract_lets
  split
  · exact h'.trapHere
  split
  exacts [h'.mxParam, State.Form.finish h']

theorem execMxop_form {x} (h : s.Form) : NextForm (execMxop x s) := by
  unfold execMxop
  refine issue_form h ?_
  intro w m h'
  extract_lets _ _ s'
  have hs' : s'.Form := h'.issued
  split
  · exact h'.hold
  split
  exacts [h'.trapHere, .ite h'.mxParam hs'.updGroup]

theorem State.Form.mxAccept {x sel bs} (h : w.s.Form) : (w.mxAccept x sel bs).Form :=
  h.updQuad.updTeam.setGroup

theorem execMxopAccept_form {u} (h : s.Form) : NextForm (execMxopAccept u s) := by
  unfold execMxopAccept
  split
  · exact h
  split
  · exact h
  rename_i w e
  have hw : w.s.Form := State.Form.of_view e { h with }
  split
  · exact h
  extract_lets _ w' bs s'
  have hw' : w'.s.Form := hw
  have hs' : s'.Form := by
    unfold s'
    split
    exacts [hw'.mxParam, hw'.mxAccept]
  exact { hs' with }

theorem State.Form.takeLeave {qn q op rest} (h : s.Form) : (s.takeLeave qn q op rest).Form := by
  unfold State.takeLeave
  extract_lets _ s'
  have hs' : s'.Form := h.updQuad
  exact .ite h.updQuad (.ite h { hs' with })

theorem execMatrixOpStart_form {qn} (h : s.Form) : NextForm (execMatrixOpStart qn s) := by
  unfold execMatrixOpStart
  extract_lets
  split
  exacts [h, .ite h h.takeLeave]

theorem execMatrixOpComplete_form {qn} (h : s.Form) : NextForm (execMatrixOpComplete qn s) := by
  unfold execMatrixOpComplete
  extract_lets
  split
  · exact h
  split
  · exact h
  split
  · exact h
  extract_lets _ _ _ s'
  have hs' : s'.Form := h.foldl (fun _ _ h' => h'.countCorrected) _
  split
  · extract_lets s1 s''
    have hs1 : s1.Form := hs'.updQuad
    have hs'' : s''.Form := { hs1 with }
    exact hs''.updTeam

theorem execMxwait_form {x} (h : s.Form) : NextForm (execMxwait x s) := by
  unfold execMxwait
  refine issue_form h ?_
  intro w m h'
  split
  exacts [h'.mxDone, .ite h'.mxDone h'.hold]

theorem execMxqry_form {x} (h : s.Form) : NextForm (execMxqry x s) :=
  laneOp_form h

theorem execLeave_form {x} (h : s.Form) : NextForm (execLeave x s) := by
  unfold execLeave
  refine issue_form h ?_
  intro w m h'
  split
  · exact h'.mxDone
  split
  · exact h'.mxDone
  · exact h'.hold
  extract_lets _ _ s1 _ s'
  have hs1 : s1.Form := h'
  have hs' : s'.Form := { hs1 with }
  exact .ite h'.mxDone (State.Form.hold hs')

/-! ### Machine/Task -/

theorem State.Form.updGraph {k} {f : Graph → Graph} (h : s.Form) : (s.updGraph k f).Form :=
  { h with }

theorem State.Form.updGov {d} {f : Gov → Gov} (h : s.Form) : (s.updGov d f).Form :=
  { h with }

theorem State.Form.dropStores {tk} (h : s.Form) : (s.dropStores tk).Form :=
  h.foldl (fun _ _ h' => h'.updGov.updQuad) _

theorem State.Form.freeTeam {k} (h : s.Form) : (s.freeTeam k).Form := by
  unfold State.freeTeam
  extract_lets s'
  have hs' : s'.Form := h.dropStores
  exact { hs' with groups := risingKeys_filter _ _ hs'.groups, teams := risingKeys_del _ _ hs'.teams }

theorem State.Form.dropObjs {x} (h : s.Form) : (s.dropObjs x).Form := by
  unfold State.dropObjs
  split
  exacts [h.foldl (fun _ _ h' => h'.dropObj) _, h]

theorem State.Form.freeNode {gr nd x} (h : s.Form) : (s.freeNode gr nd x).Form :=
  h.dropObjs.foldl (fun _ _ h' => h'.freeTeam) _

theorem State.Form.freeReady {gr n} (h : s.Form) : (s.freeReady gr n).Form := by
  unfold State.freeReady
  split
  · exact h
  extract_lets
  exact .ite h.freeNode.updGraph h

theorem State.Form.sweepNode {gr n} (h : s.Form) : (s.sweepNode gr n).Form := by
  unfold State.sweepNode
  split
  · exact h
  extract_lets
  exact .ite h.updGraph (.ite h.updGraph h)

theorem State.Form.failSweep {gr} (h : s.Form) : (s.failSweep gr).Form := by
  unfold State.failSweep
  split
  exacts [h, .ite h ((h.foldl (fun _ _ h' => h'.freeReady) _).foldl (fun _ _ h' => h'.sweepNode) _)]

theorem State.Form.retireNode {gr nd status} {toRun : ℕ → Bool} (h : s.Form) : (s.retireNode gr nd status toRun).Form :=
  h.updGraph.failSweep

theorem execConditionRead_form {gr nd} (h : s.Form) : NextForm (execConditionRead gr nd s) := by
  unfold execConditionRead
  split
  · exact h
  extract_lets _ _ cx? s'
  have hs : s'.Form := by
    clear_value cx?
    simp only [s']
    split
    exacts [h.exTouch, h]
  refine .ite h ?_
  split
  · exact hs.retireNode
  · exact .ite hs.retireNode (.ite hs.retireNode (.ite hs.updGraph hs.retireNode))

theorem State.Form.addInfl {q} {f : ℕ → ℕ} (h : s.Form) : (s.addInfl q f).Form := by
  unfold State.addInfl
  extract_lets
  split
  exacts [h.updSlot, .ite h.stopQueue h.homePut]

theorem State.Form.writeRecord {cx q va tag status node nrun} (h : s.Form) : (s.writeRecord cx q va tag status node nrun).Form := by
  unfold State.writeRecord
  split
  · exact h.stopQueue
  rename_i e'
  split
  · exact (AllOk.of_eq h.exWrite e').stopQueue
  rename_i e
  exact AllOk.of_eq ((AllOk.of_eq h.exWrite e').exWrite) e

theorem execCompletionRecord_form {gr} (h : s.Form) : NextForm (execCompletionRecord gr s) := by
  unfold execCompletionRecord
  split
  · exact h
  split
  · exact h
  split
  · exact h
  split
  · extract_lets s' s''
    have hs' : s'.Form := h.addInfl
    have hs'' : s''.Form := .ite hs'.writeRecord hs'
    exact { hs'' with }

theorem State.Form.submit {cn cx q qcb bs} (h : s.Form) : (s.submit cn cx q qcb bs).1.Form :=
  State.Form.addInfl { h with }

theorem execPacketFetch_form {slot} (h : s.Form) : NextForm (execPacketFetch slot s) := by
  unfold execPacketFetch
  split
  · exact h
  split
  · exact h
  split
  · exact h
  extract_lets _ _ s' next
  have hs' : s'.Form := h.exTouch
  have hnext : ∀ (s : State), s.Form → (next s).Form := fun _ h' => h'.updSlot
  split
  · exact h
  split
  · exact hs'.stopQueue
  · exact .ite hs'.stopQueue (.ite hs' (.ite hs' (.ite (hnext _ hs'.submit) (.ite (hnext _ hs') (.ite hs' ((hnext _ hs').writeRecord))))))

/-! ### Machine/Launch -/

theorem State.Form.declareFor {cx x race} (h : s.Form) : AllSome (fun a => a.1.Form) (s.declareFor cx x race) := by
  unfold State.declareFor
  extract_lets
  split
  exacts [trivial, .ite trivial h.placeObj]

theorem State.Form.declareAll {cx xs hs} (h : s.Form) : AllSome (fun a => a.1.Form) (s.declareAll cx xs hs) := by
  induction xs generalizing s hs with
  | nil => exact h
  | cons x xs ih =>
    cases x with
    | none => trivial
    | some x =>
      unfold State.declareAll
      split
      · trivial
      · rename_i e
        exact ih (AllSome.fst_of_eq h.declareFor e)

theorem State.Form.readyKernel {cx g x} (h : s.Form) : AllOk (fun a => a.1.Form) (s.readyKernel cx g x) := by
  rw [show @State.readyKernel = _ by delta State.readyKernel; exact rfl]
  extract_lets
  split
  · trivial
  extract_lets
  split
  · extract_lets
    generalize someCore _ = c, someCore _ = c', someCore _ = c''
    refine .ite_error <| .ite_error <| .ite_error <| .ite_error <| .ite_error <| .ite_error ?_
    split
    · trivial
    rename_i t hs e
    have ht : t.Form := AllSome.fst_of_eq h.declareAll e
    split
    exacts [trivial, ht]
  · trivial

theorem execNodeReady_form {gr nd} (h : s.Form) : NextForm (execNodeReady gr nd s) := by
  unfold execNodeReady
  split
  · exact h
  split
  · exact h
  extract_lets
  split
  · split
    · split
      exacts [h.retireNode, h.updGraph]
    · split
      · exact State.Form.ite h h.retireNode
      rename_i e
      exact (AllOk.fst_of_eq h.readyKernel e).updGraph
  · exact h

theorem State.Form.addGroups {tk gr tm quads} (h : s.Form) : AllSome State.Form (s.addGroups tk gr tm quads) := by
  unfold State.addGroups
  refine AllSome.foldl (p := State.Form) (o := some s) h (fun r iq hr => hr.bind_of fun t ht => ?_) _
  extract_lets ps
  exact .map fun ps => { ht with groups := risingKeys_put _ _ _ ht.groups }

theorem State.Form.giveStores {tk quads} (h : s.Form) : (s.giveStores tk quads).Form :=
  h.foldl (fun _ _ h' => h'.updQuad) _

theorem State.Form.placeTeam {zn gr tm core qs} (h : s.Form) : AllSome State.Form (s.placeTeam zn gr tm core qs) := by
  unfold State.placeTeam
  extract_lets
  split
  · trivial
  split
  · trivial
  split
  · extract_lets _ s'
    have hs' : s'.Form := { h with teams := risingKeys_put _ _ _ h.teams }
    split
    · trivial
    rename_i e
    exact .ite (State.Form.ite ((AllSome.of_eq hs'.addGroups e).giveStores) (AllSome.of_eq hs'.addGroups e)) trivial
  · trivial

theorem State.Form.addCopies {tk tm k} (h : s.Form) : (s.addCopies tk tm k).Form :=
  h.foldl (fun _ _ h' => .ite (h'.frame (by rfl) (by rfl) (by rfl) (by rfl)) (h'.frame (by rfl) (by rfl) (by rfl) (by rfl))) _

theorem State.Form.placeTeams {zn g k l} (h : s.Form) : AllSome State.Form (s.placeTeams zn g k l) := by
  induction l generalizing s with
  | nil => exact h
  | cons x l ih =>
    unfold State.placeTeams
    extract_lets tk
    split
    · trivial
    · rename_i e
      split
      exacts [ih (AllSome.of_eq h.placeTeam e).addCopies, trivial]

theorem State.Form.placeCluster {gr nd g x k cx clid pl} (h : s.Form) : AllSome State.Form (s.placeCluster gr nd g x k cx clid pl) :=
  .ite h.placeTeams trivial

theorem execClusterPlace_form {gr nd pl} (h : s.Form) : NextForm (execClusterPlace gr nd pl s) := by
  unfold execClusterPlace
  split
  · exact h
  split
  · exact h
  · rename_i t e
    have ht : t.Form := AllSome.of_eq h.placeCluster.ite_none e
    exact ht.updGraph

theorem State.Form.launchTeam {tk} (h : s.Form) : (s.launchTeam tk).Form := by
  unfold State.launchTeam
  split
  · exact h
  split
  exacts [h, h.updTeam.foldl (fun _ _ h' => h'.updGroup) _]

theorem execNodeDispatch_form {gr nd} (h : s.Form) : NextForm (execNodeDispatch gr nd s) := by
  unfold execNodeDispatch
  split
  · exact h
  extract_lets _ _ s'
  have hs' : s'.Form := h.foldl (fun _ _ h' => h'.launchTeam) _
  exact .ite hs'.updGraph h

theorem State.Form.nodeStatus {gr nd status} (h : s.Form) : (s.nodeStatus gr nd status).Form :=
  h.updGraph

theorem State.Form.reap {cluster} (h : s.Form) : (s.reap cluster).Form :=
  .ite (h.foldl (fun _ _ h' => h'.freeTeam) _) h

theorem State.Form.dropWaits {us group} (h : s.Form) : (s.dropWaits us group).Form :=
  { h with }

theorem State.Form.retireGroup {u g} (h : s.Form) : (s.retireGroup u g).Form := by
  unfold State.retireGroup
  extract_lets _ s' s'' s''' s'''' s'''''
  have hs' : s'.Form := h.writeBack
  have hs'' : s''.Form := hs'.dropWaits.updTeam
  have hs''' : s'''.Form := hs''.updZone
  have hs'''' : s''''.Form := { hs''' with groups := risingKeys_del _ _ hs'''.groups }
  have hs''''' : s'''''.Form := hs''''.updTeam.dropStores
  split
  · split
    exacts [hs'''''.reap, hs''''']
  · exact hs''''

theorem execGroupRetire_form {u} (h : s.Form) : NextForm (execGroupRetire u s) := by
  unfold execGroupRetire
  split
  · exact h
  extract_lets
  exact State.Form.ite h.retireGroup h

theorem execNodeRetire_form {gr nd} (h : s.Form) : NextForm (execNodeRetire gr nd s) := by
  unfold execNodeRetire
  split
  · exact h
  extract_lets _ _ s'
  have hs' : s'.Form := h.dropObjs.foldl (fun _ _ h' => h'.freeTeam) _
  exact .ite hs'.retireNode h

/-! ### Machine/Copies -/

theorem State.Form.askFar {k line} (h : s.Form) : (s.askFar k line).Form :=
  .ite h h.send

theorem State.Form.fetchLines {zn k c lines} (h : s.Form) : (s.fetchLines zn k c lines).1.Form := by
  unfold State.fetchLines
  split
  rename_i e
  refine State.Form.enterChan (State.Form.frame (State.Form.of_pair e (State.Form.foldl_fst h (fun q l hq => ?_) _)) rfl rfl rfl rfl)
  split
  split
  · exact hq
  extract_lets s'
  split
  exacts [State.Form.charge hq.leaveChan, hq]

theorem execTramLine_form {k} (h : s.Form) : NextForm (execTramLine k s) := by
  unfold execTramLine
  split
  · exact h
  split
  · split
    · exact h
    split
    · exact h
    split
    split
    · extract_lets s'
      have hs' : s'.Form := by
        unfold s'
        split
        exacts [h.logError, h]
      exact { hs' with }
    · extract_lets
      split
      · exact h
      split
      · refine State.Form.foldl ?_ (fun _ _ h' => h'.askFar) _
        exact { h with }
      split
      rename_i e
      split
      · exact h.fetchLines.fst e
      extract_lets s'
      have hs' : s'.Form := (h.fetchLines.fst e).foldl (fun _ _ h' => h'.logError) _
      exact { hs'.updTeam with }
  · exact h

theorem execCopyEnd_form {k} (h : s.Form) : NextForm (execCopyEnd k s) := by
  unfold execCopyEnd
  split
  · exact h
  split
  · extract_lets _ _ _ _ s' s'' s'''
    have hs' : s'.Form := { h with }
    have hs'' : s''.Form := hs'.updTeam
    have hs''' : s'''.Form := .ite (hs''.foldl (fun _ _ h' => h'.updGroup) _) hs''
    exact .ite h hs'''.reap
  · exact { h with }

theorem execStreamStart_form {u qn} (h : s.Form) : NextForm (execStreamStart u qn s) := by
  unfold execStreamStart
  split
  · exact h
  split
  · split
    exacts [h.updGroup, h]
  · exact h

theorem State.Form.stopStream {qn p} (h : w.s.Form) : (w.stopStream qn p).Form := by
  unfold View.stopStream
  extract_lets s1 s
  have hs1 : s1.Form := h
  have hs : s.Form := by
    unfold s
    split
    exacts [{ hs1 with }, h]
  exact hs.setGroup

theorem State.Form.startEntry {qn x accs} (h : w.s.Form) : (w.startEntry qn x accs).Form := by
  unfold View.startEntry
  extract_lets
  refine .ite h ?_
  split
  · exact h.stopStream
  rename_i t e
  have ht : t.Form := by
    split at e
    · cases e
      exact h
    · exact AllOk.of_eq h.raceCheck e
  extract_lets w' r _ y s1
  have hw : w'.s.Form := ht
  have hy : y.s.Form := State.Form.logged (State.Form.startAll hw.installQuiet)
  have hs1 : s1.Form := .ite hy hy.logError
  exact .ite ht hs1.setGroup

theorem State.Form.streamRead {qn q x} (h : w.s.Form) : (w.streamRead qn q x).Form := by
  unfold View.streamRead
  split
  · split
    · exact h
    split
    exacts [h, h.startEntry, h.stopStream, h.setGroup]
  · split
    · exact h
    split
    exacts [h, h.startEntry, h.stopStream, h.setGroup]

theorem execStreamRead_form {u qn} (h : s.Form) : NextForm (execStreamRead u qn s) := by
  unfold execStreamRead
  split
  · exact h
  rename_i e
  split
  · exact h
  split
  · exact h
  extract_lets s1
  have hs1 : s1.Form := State.Form.streamRead (State.Form.of_view e { h with })
  exact { hs1 with }

/-! ### Machine/TaskForms -/

theorem execCpstat_form {x} (h : s.Form) : NextForm (execCpstat x s) :=
  laneOp_form h

theorem onceOp_form {i} {ready : View → Bool} {f : View → Mask → State × Group} (h : s.Form)
    (hf : ∀ (w : View) (m : Mask), w.s.Form → (f w m).1.Form) : NextForm (onceOp i s ready f) :=
  issue_form h (fun _ _ h' => .ite h'.hold ((hf _ _ h').issued))

theorem execOutrdy_form {x} (h : s.Form) : NextForm (execOutrdy x s) :=
  onceOp_form h (fun _ _ h' => .ite h'.updTeam h')

theorem execTcond_form {x} (h : s.Form) : NextForm (execTcond x s) := by
  unfold execTcond
  refine issue_form h ?_
  intro w m h'
  extract_lets
  split
  · exact h'.finishS
  · exact .ite h'.finishS (.ite h'.finishS (h'.access (fun _ => .ite h'.trapHere (h'.raced (fun _ h'' => .ite h''.hold h''.clean.finishS)))))

theorem execTdone_form {x} (h : s.Form) : NextForm (execTdone x s) :=
  onceOp_form h (fun _ _ h' => .ite h'.nodeStatus h')

theorem State.Form.spawn {bs} (h : w.s.Form) : (w.spawn bs).1.Form := by
  unfold View.spawn
  extract_lets s
  have hs : s.Form := h
  split
  · exact hs
  extract_lets _ _ s'
  have hs' : s'.Form := .ite hs.writeRecord hs
  exact .iteFst hs (.iteFst hs (.iteFst hs.submit { hs' with }))

theorem execTspawn_form {x} (h : s.Form) : NextForm (execTspawn x s) :=
  issue_form h (fun _ _ h' => .ite h'.hold (.ite h'.finishS (h'.access (fun _ => h'.raced (fun _ h'' => h''.readForm (fun _ _ _ h''' =>
    .ite h'''.trapHere (.ite h'''.hold h'''.spawn.finishS)))))))

theorem execTqry_form {x} (h : s.Form) : NextForm (execTqry x s) :=
  laneOp_form h

theorem execAstart_form {x} (h : s.Form) : NextForm (execAstart x s) :=
  onceOp_form h (fun _ _ h' => h'.dropWaits)

theorem execAloop_form {x} (h : s.Form) : NextForm (execAloop x s) :=
  groupOp_form h

theorem execAstrm_form {x} (h : s.Form) : NextForm (execAstrm x s) :=
  groupOp_form h

theorem execAend_form {x} (h : s.Form) : NextForm (execAend x s) := by
  unfold execAend
  refine issue_form h ?_
  intro w m h'
  extract_lets
  split
  exacts [h'.trapHere, h'.trapHere, h'.issued]

/-! ### Machine/Complete -/

theorem State.Form.boundaryTrap {u g code mask info} (h : s.Form) : (s.boundaryTrap u g code mask info).Form := by
  unfold State.boundaryTrap
  split
  · rename_i e
    extract_lets s'
    have hs' : s'.Form := State.Form.takeTrap (State.Form.of_view e { h with })
    exact { hs' with }
  · exact h

theorem State.Form.logSlot {u r} (h : s.Form) : (s.logSlot u r).Form := by
  unfold State.logSlot
  split
  · exact h
  split
  · exact h
  split
  exacts [h, h.updCtx.setGroup]

theorem State.Form.logRecord {u cx g r} (h : s.Form) : (s.logRecord u cx g r).Form := by
  unfold State.logRecord
  split
  exacts [h.setGroup, .ite h.setGroup.logSlot h.setGroup]

theorem State.Form.completeInstr {u k} (h : s.Form) : (s.completeInstr u k).Form := by
  unfold State.completeInstr
  split
  · exact h
  split
  · split
    · exact h
    extract_lets
    exact .ite h.logRecord h.setGroup
  · exact h

theorem State.Form.logLost {u g va} (h : s.Form) : (s.logLost u g va).Form := by
  unfold State.logLost
  extract_lets s'
  have hs' : s'.Form := by
    unfold s'
    split
    exacts [h.updCtx, h]
  exact .ite hs'.setGroup.boundaryTrap hs'.setGroup

theorem State.Form.logStore {u g} (h : s.Form) : (s.logStore u g).Form := by
  unfold State.logStore
  split
  · split
    · exact h
    split
    · exact h
    split
    · exact .ite h.logLost h
    split
    · exact .ite (.ite h.logLost h) h.setGroup
    split
    · exact h
    split
    · rename_i e
      exact AllOk.of_eq h.walkInstall e
    · exact .ite (State.Form.setGroup { h with }) h
  · exact h

theorem execInstructionComplete_form {u k} (h : s.Form) : NextForm (execInstructionComplete u k s) := by
  unfold execInstructionComplete
  split
  exacts [h, State.Form.ite h.completeInstr h.logStore]

/-! ### Machine/System -/

theorem execTrap_form {x} (h : s.Form) : NextForm (execTrap x s) :=
  issue_form h (fun _ _ h' => State.Form.ite h'.trapHere h'.takeTrap)

theorem execRett_form {x} (h : s.Form) : NextForm (execRett x s) := by
  unfold execRett
  refine issue_form h ?_
  intro w m h'
  split
  · exact h'.issued
  split
  · exact h'.trapHere
  extract_lets _ s'
  have hs' : s'.Form := h'.issued
  split
  exacts [State.Form.ite hs'.updGroup.logSlot hs'.updGroup, hs']

theorem execLogrd_form {x} (h : s.Form) : NextForm (execLogrd x s) :=
  issue_form h (fun _ _ h' => h'.issued)

theorem State.Form.noteTime {ctx} (h : s.Form) : (s.noteTime ctx).Form :=
  h.updCtx

theorem execSrrd_form {x} (h : s.Form) : NextForm (execSrrd x s) :=
  issue_form h (fun _ _ h' => .ite h'.trapHere (.ite h'.hold (State.Form.ite h'.finish.noteTime h'.finish)))

theorem State.Form.tlbDrop {p : TlbE → Bool} (h : s.Form) : (s.tlbDrop p).Form :=
  State.Form.refreshFrames { h with }

theorem State.Form.srWrite {num v} (h : w.s.Form) : (w.srWrite num v).1.Form := by
  unfold View.srWrite
  extract_lets _ cx s
  have hcx : ∀ (f : Ctx → Ctx), (cx f).1.Form := fun _ => h.updCtx
  have hs : s.Form := h.updCtx
  split
  exacts [.iteFst h (hcx _), h, h, h, h, hcx _, hcx _, hcx _, hcx _, hs.tlbDrop, h]

theorem execSrwr_form {x} (h : s.Form) : NextForm (execSrwr x s) := by
  unfold execSrwr
  refine issue_form h ?_
  intro w m h'
  extract_lets
  split
  · exact h'.trapHere
  split
  · exact h'.hold
  split
  · exact h'.hold
  split
  · rename_i e'
    split
    · rename_i e
      exact State.Form.issued (.of_pair e (.iteFst ((h'.srWrite.fst e').updTeam) (h'.srWrite.fst e')))

theorem State.Form.statusOr {i m done mark} (hs : s.Form) : NextForm (w.statusOr i m s done mark) := by
  unfold View.statusOr
  split
  · split
    exacts [hs.finishS, hs]
  · exact hs.updGroup

theorem execHaltStop_form {x} (h : s.Form) : NextForm (execHaltStop x s) := by
  unfold execHaltStop
  refine issue_form h ?_
  intro w m h'
  split
  exacts [h'.statusOr, State.Form.statusOr (.ite h'.updTeam h')]

theorem execHaltResume_form {x} (h : s.Form) : NextForm (execHaltResume x s) := by
  unfold execHaltResume
  refine issue_form h ?_
  intro w m h'
  split
  exacts [h'.statusOr, .ite h'.statusOr (State.Form.statusOr (h'.updTeam.foldl (fun _ _ h'' => h''.updGroup) _))]

theorem State.Form.dropFaults {tk} (h : s.Form) : (s.dropFaults tk).Form :=
  h.dropWaits

theorem State.Form.dropPromos {tk} (h : s.Form) : (s.dropPromos tk).Form :=
  h.foldl (fun _ _ h' => h'.foldl (fun _ _ h'' => h''.updTeam) _) _

theorem State.Form.killTeam {tk tm} (h : s.Form) : (s.killTeam tk tm).Form :=
  State.Form.foldl (.ite h.dropFaults.dropPromos.updTeam.nodeStatus h.dropFaults.dropPromos.updTeam) (fun _ _ h' => h'.updGroup) _

theorem execHaltKill_form {x} (h : s.Form) : NextForm (execHaltKill x s) := by
  unfold execHaltKill
  refine issue_form h ?_
  intro w m h'
  split
  · split
    exacts [h'.statusOr, h'.statusOr]
  · split
    exacts [h'.statusOr, h'.killTeam.statusOr]

theorem execHaltsib_form {u} (h : s.Form) : NextForm (execHaltsib u s) := by
  unfold execHaltsib
  split
  · exact h
  split
  exacts [h, .ite h (.ite h.setGroup h.setGroup)]

theorem execSysc_form {x} (h : s.Form) : NextForm (execSysc x s) :=
  issue_form h (fun _ _ h' => .ite h'.finishS h'.raiseFor.issued.updGroup)

theorem execEvwait_form {x} (h : s.Form) : NextForm (execEvwait x s) := by
  unfold execEvwait
  refine issue_form h ?_
  intro w m h'
  extract_lets _ give s1
  have hgive : ∀ (s : State) (e : EvRec), s.Form → NextForm (give s e) := fun _ _ h'' => h''.issued
  have hs1 : s1.Form := h'
  split
  exacts [hgive _ _ { hs1 with }, .ite (hgive _ _ h') (State.Form.hold h')]

theorem execEvwaitTimeout_form {u} (h : s.Form) : NextForm (execEvwaitTimeout u s) := by
  unfold execEvwaitTimeout
  split
  · exact h
  split
  exacts [.ite h.setGroup h, h]

theorem execEvsigSig_form {x} (h : s.Form) : NextForm (execEvsigSig x s) :=
  issue_form h (fun _ _ h' => .ite h'.hold (.ite h'.finishS (.ite h'.finishS h'.raise.finishS)))

theorem execEvsigAns_form {x} (h : s.Form) : NextForm (execEvsigAns x s) := by
  unfold execEvsigAns
  refine issue_form h ?_
  intro w m h'
  extract_lets _ _ _ hit
  split
  · exact h'.hold
  clear_value hit
  split
  · exact h'.finishS
  split
  exacts [h'.finishS, h'.setGroup.finishS]

theorem State.Form.tlbInv {i m ok} {p : TlbE → Bool} (h : w.s.Form) : NextForm (w.tlbInv i m ok p) :=
  .ite h.hold (.ite h.updTeam.tlbDrop.finishS h.updTeam.finishS)

theorem execTlbinvVa_form {x} (h : s.Form) : NextForm (execTlbinvVa x s) :=
  issue_form h (fun _ _ h' => h'.tlbInv)

theorem execTlbinvCtx_form {x} (h : s.Form) : NextForm (execTlbinvCtx x s) :=
  issue_form h (fun _ _ h' => h'.tlbInv)

theorem execTlbinvZone_form {x} (h : s.Form) : NextForm (execTlbinvZone x s) :=
  issue_form h (fun _ _ h' => h'.tlbInv)

theorem State.Form.answerFault {tag rec convert} (h : s.Form) : (s.answerFault tag rec convert).Form := by
  unfold State.answerFault
  extract_lets s'
  have hs' : s'.Form := { h with }
  split
  · exact hs'
  extract_lets
  split
  · split
    · exact hs'.setGroup
    split
    · exact hs'.setGroup.logLost
    extract_lets s''
    have hs'' : s''.Form := hs'.setGroup
    split
    · split
      · rename_i e
        extract_lets s'''
        have hs''' : s'''.Form := State.Form.trapHere (State.Form.of_view e { hs'' with })
        exact { hs''' with }
      · exact hs''
    · exact hs''
  · exact hs'.setGroup

theorem execFbresp_form {x} (h : s.Form) : NextForm (execFbresp x s) := by
  unfold execFbresp
  refine issue_form h ?_
  intro w m h'
  extract_lets _ _ _ _ s1
  have hs1 : s1.Form := h'
  split
  exacts [.ite (.ite (State.Form.finishS { hs1 with }) h'.answerFault.finishS) h'.finishS, h'.finishS]

theorem State.Form.unmap {q} (h : s.Form) : (s.unmap q).Form := by
  unfold State.unmap
  split
  · exact h
  extract_lets _ s' s''
  have hs' : s'.Form := { h with }
  have hs'' : s''.Form := hs'.updQd
  exact .ite hs''.stopQueue hs''.homePut

theorem execQmap_form {x} (h : s.Form) : NextForm (execQmap x s) :=
  issue_form h (fun _ _ h' => .ite h'.finishS (.ite h'.finishS (.ite h'.hold (.ite h'.hold (.ite h'.finishS (State.Form.finishS (.ite
    (State.Form.stopQueue (State.Form.updQd { h' with })) (State.Form.updQd { h' with }))))))))

theorem execQunmap_form {x} (h : s.Form) : NextForm (execQunmap x s) :=
  issue_form h (fun _ _ h' => .ite h'.finishS h'.unmap.finishS)

theorem State.Form.regate (h : s.Form) : s.regate.Form :=
  .ite { h with groups := risingKeys_map h.groups fun _ => rfl } h

theorem State.Form.setSlice {q ctx} (h : s.Form) : (s.setSlice q ctx).Form := by
  unfold State.setSlice
  extract_lets s'
  have hs' : s'.Form := h.updQuad
  exact State.Form.regate { hs' with groups := risingKeys_map hs'.groups fun _ => rfl }

theorem execSliceChange_form {q ctx} (h : s.Form) : NextForm (execSliceChange q ctx s) :=
  State.Form.ite h.setSlice h

theorem State.Form.rotate (h : s.Form) : s.rotate.Form := by
  unfold State.rotate
  refine State.Form.regate ?_
  refine h.foldl ?_ _
  intro t a h'
  split
  exacts [h', .ite h'.setSlice (.ite h' h'.updQuad)]

theorem State.Form.askStop {tk deadline} (h : s.Form) : (s.askStop tk deadline).Form :=
  h.updTeam

theorem execStopRequest_form {tk} (h : s.Form) : NextForm (execStopRequest tk s) := by
  unfold execStopRequest
  split
  exacts [h.askStop, h]

theorem State.Form.resumeTeam {tk} (h : s.Form) : (s.resumeTeam tk).Form :=
  h.updTeam

theorem State.Form.resumeCtx {n} (h : s.Form) : (s.resumeCtx n).Form :=
  (h.foldl (fun _ _ h' => .ite h'.resumeTeam h') _).updCtx

theorem State.Form.dropSaves {u} (h : s.Form) : (s.dropSaves u).Form :=
  h.foldl (fun _ _ h' => h'.resumeCtx) _

theorem State.Form.stopTeam {tk} (h : s.Form) : (s.stopTeam tk).Form :=
  ((h.dropFaults.foldl (fun _ _ h' => h'.dropSaves) _).foldl (fun _ _ h' => (h'.foldl (fun _ _ h'' => h''.writeLine) _).setGroup) _).updTeam

theorem execTeamStopped_form {tk} (h : s.Form) : NextForm (execTeamStopped tk s) := by
  unfold execTeamStopped
  split
  exacts [State.Form.ite h.stopTeam h, h]

theorem execOverrun_form {tk cycles} (h : s.Form) : NextForm (execOverrun tk cycles s) := by
  unfold execOverrun
  split
  · exact h
  split
  · split
    exacts [h, h.updTeam.updZone.raise]
  · exact h

theorem State.Form.chargeOverruns (h : s.Form) : s.chargeOverruns.Form := by
  unfold State.chargeOverruns
  refine h.foldl ?_ _
  intro t a h'
  split
  · rename_i e
    exact NextForm.of_eq (execOverrun_form h') e
  · exact h'

theorem State.Form.deliverHeld {tk} (h : s.Form) : (s.deliverHeld tk).Form := by
  unfold State.deliverHeld
  extract_lets s'
  have hs' : s'.Form := h.foldl (fun _ _ h' => h'.foldl (fun _ _ h'' => h''.updTeam) _) _
  exact { hs' with groups := risingKeys_map hs'.groups fun _ => rfl }

theorem execPeerAccessResume_form {tk} (h : s.Form) : NextForm (execPeerAccessResume tk s) := by
  unfold execPeerAccessResume
  split
  · exact h
  split
  · exact h
  extract_lets s'
  have hs' : s'.Form := h.deliverHeld
  exact { hs' with groups := risingKeys_map hs'.groups fun _ => rfl }

theorem execArithlog_form {u} (h : s.Form) : NextForm (execArithlog u s) := by
  unfold execArithlog
  split
  exacts [h, .ite h.boundaryTrap h]

theorem execRemote_form {u} (h : s.Form) : NextForm (execRemote u s) := by
  unfold execRemote
  split
  · exact h
  split
  · exact h
  extract_lets
  split
  · split
    exacts [State.Form.setGroup (.ite h.nodeStatus h), h.setGroup]
  · exact .ite h.boundaryTrap h

/-! ### Machine/Record -/

theorem execCtxq_form {x} (h : s.Form) : NextForm (execCtxq x s) :=
  issue_form h (fun _ _ h' => h'.finishS)

theorem State.Form.saveLines {cls a off bs} (h : s.Form) : (w.saveLines cls a off s bs).1.Form := by
  induction bs generalizing off s with
  | nil => exact h
  | cons b bs ih =>
    unfold View.saveLines
    split
    · exact ih h
    split
    exacts [h, ih h.agentWrite]

theorem State.Form.settleDone {u} (h : s.Form) : (s.settleDone u).Form := by
  unfold State.settleDone
  split
  exacts [h, h.foldl (fun _ _ h' => h'.completeInstr) _]

theorem State.Form.makeGhost {tk ck items map} (h : s.Form) : (s.makeGhost tk ck items map).Form :=
  h.updTeam.foldl (fun _ _ h' => h'.updGroup) _

theorem State.Form.dropCtx {n cx items map} (h : s.Form) : (s.dropCtx n cx items map).Form := by
  unfold State.dropCtx
  extract_lets s' _ _ s'' s''' s''''
  have hs' : s'.Form := h.tlbDrop
  have hs'' : s''.Form := .ite hs' { hs' with }
  have hs''' : s'''.Form := hs''.foldl (fun _ _ h' => .ite (h'.foldl (fun _ _ h'' => h''.dropObjs) _) h') _
  have hs'''' : s''''.Form := by
    unfold s''''
    refine hs'''.foldl ?_ _
    intro t a h'
    split
    · exact h'
    split
    exacts [h'.dropStores.makeGhost, h'.dropStores.freeTeam]
  exact { hs'''' with }

theorem State.Form.saveNow {n cx cls a room} (h : w.s.Form) : AllSome (fun a => a.1.Form) (w.saveNow n cx cls a room) := by
  unfold View.saveNow
  extract_lets s _ resume
  have hs : s.Form := h.foldl (fun _ _ h' => h'.deliverHeld.foldl (fun _ _ h'' => h''.settleDone) _) _
  have hresume : ∀ (s : State), s.Form → (resume s).Form := fun _ h' => h'.resumeCtx
  split
  split
  · trivial
  split
  · exact hresume _ hs
  split
  · exact hresume _ hs
  split
  · exact hresume _ hs
  split
  rename_i e
  split
  · exact hresume _ (hs.saveLines.fst e)
  extract_lets _ s1
  have hs1 : s1.Form := (hs.saveLines.fst e).dropCtx
  exact { hs1 with }

theorem execCtxsave_form {x} (h : s.Form) : NextForm (execCtxsave x s) := by
  unfold execCtxsave
  refine issue_form h ?_
  intro w m h'
  extract_lets _ _ _ _ _ s' s''
  have hs' : s'.Form := h'.updCtx
  have hs'' : s''.Form := hs'.foldl (fun _ _ h'' => .ite h''.askStop h'') _
  split
  · exact h'.trapHere
  split
  · exact h'.statusOr
  · exact .ite h'.statusOr (.ite h'.statusOr (.ite h'.hold hs''.statusOr))
  split
  · exact h'.statusOr
  split
  · exact h'.statusOr
  rename_i e
  exact State.Form.statusOr (AllSome.fst_of_eq h'.saveNow e)

theorem State.Form.imgPut {zn map off bytes} (h : s.Form) : (s.imgPut zn map off bytes).Form :=
  h.foldl (fun _ _ h' => .ite h' h'.agentWrite) _

theorem State.Form.imgSub {zn map off n} (h : s.Form) : (s.imgSub zn map off n).Form :=
  h.imgPut

theorem State.Form.imgApply {zn tm x} (h : s.Form) : (s.imgApply zn tm x).Form := by
  unfold State.imgApply
  extract_lets
  split
  · exact h.imgSub
  · split
    exacts [h.imgPut.imgPut, h]
  · extract_lets s'
    have hs' : s'.Form := h.imgPut
    split
    exacts [hs'.foldl (fun _ _ h' => h'.imgPut.imgPut) _, hs']

theorem execImageUpdate_form {tk} (h : s.Form) : NextForm (execImageUpdate tk s) := by
  rw [show @execImageUpdate = _ by delta execImageUpdate; exact rfl]
  split
  · exact h
  split
  · split
    · exact h
    extract_lets s' s'' s'''
    have hs' : s'.Form := h.imgApply.imgSub
    have hs'' : s''.Form := hs'.updTeam
    have hs''' : s'''.Form := hs''.freeTeam
    exact .ite hs'' (State.Form.ite hs''' { hs''' with })
  · exact h

/-! ### Machine/Restore -/

theorem State.Form.restoreKerns {cx id ks} (h : s.Form) : AllOk State.Form (s.restoreKerns cx id ks) := by
  induction ks generalizing s with
  | nil => exact h
  | cons k ks ih =>
    unfold State.restoreKerns
    split
    · trivial
    extract_lets x
    split
    · split
      · trivial
      · rename_i e
        exact ih (State.Form.updGraph (AllOk.fst_of_eq h.readyKernel e))
    · exact ih h

theorem State.Form.restoreGraph {n cx b} (h : s.Form) : AllOk (fun a => a.1.Form) (s.restoreGraph n cx b) :=
  .ite trivial (.map_of (State.Form.restoreKerns { h with }) (fun _ h' => h'))

theorem State.Form.restoreGraphs {n cx bs os ids} (h : s.Form) : AllOk (fun a => a.1.Form) (s.restoreGraphs n cx bs os ids) := by
  induction os generalizing s ids with
  | nil => exact h
  | cons o os ih =>
    unfold State.restoreGraphs
    split
    · trivial
    · rename_i e
      exact ih (AllOk.fst_of_eq h.restoreGraph e)

theorem State.Form.putPriv {cx tm g b} (h : s.Form) : (s.putPriv cx tm g b).Form := by
  unfold State.putPriv
  extract_lets
  split
  · exact h
  refine h.foldl ?_ _
  intro t a h'
  split
  · rename_i e
    exact AllOk.of_eq h'.exWrite e
  · exact h'

theorem State.Form.placeSaved {zn g k bs core l done} (h : s.Form) :
    AllSome (fun a => a.1.Form) (s.placeSaved zn g k bs core l done) := by
  induction l generalizing s done with
  | nil => exact h
  | cons x l ih =>
    unfold State.placeSaved
    split
    · trivial
    extract_lets tk
    split
    · trivial
    · rename_i e
      exact ih (AllSome.of_eq (.findSome (fun _ => h.placeTeam) _) e)

theorem State.Form.restoreGroups {cx tm same bs l} (h : s.Form) : AllSome State.Form (s.restoreGroups cx tm same bs l) := by
  induction l generalizing s with
  | nil => exact h
  | cons x l ih =>
    unfold State.restoreGroups
    extract_lets offs b
    split
    exacts [trivial, ih h.putPriv.setGroup]

theorem State.Form.fillTeams {cx same bs l} (h : s.Form) : AllSome State.Form (s.fillTeams cx same bs l) := by
  induction l generalizing s with
  | nil => exact h
  | cons x l ih =>
    unfold State.fillTeams
    split
    · trivial
    extract_lets b tm s1 s2
    have hs1 : s1.Form := { h with teams := risingKeys_put _ _ _ h.teams }
    have hs2 : s2.Form := hs1.foldl (fun _ _ h' => h'.updQuad) _
    split
    · trivial
    · rename_i e
      extract_lets s3 s4 halted
      have hs4 : s4.Form := (AllSome.of_eq hs2.restoreGroups e).expireCore.expireDistrict.updTeam
      exact ih (.ite hs4.updTeam hs4)

theorem State.Form.placeClusters {zn bs ids l done} (h : s.Form) :
    AllOk (fun a => a.1.Form) (s.placeClusters zn bs ids l done) := by
  induction l generalizing s done with
  | nil => exact h
  | cons os l ih =>
    cases os with
    | nil =>
      change AllOk _ (s.placeClusters zn bs ids l done)
      exact ih h
    | cons o os =>
      change AllOk _ (match look s.graphs (ids.getD (fieldOf bs (o + 0xF0) 2) 0) with
        | none => .error 3
        | some g => _)
      split
      · trivial
      split
      · trivial
      have hu : State.Form { s with uid := s.uid + 1 } := { h with }
      refine .ite_error ?_
      generalize e : List.findSome? _ _ = placed
      have hp : AllSome (fun a => a.1.Form) placed := .of_findSome e fun _ => hu.placeSaved
      split
      exacts [trivial, ih hp]

theorem State.Form.loadCtx {a} (h : w.s.Form) : AllOk State.Form (w.loadCtx a) := by
  unfold View.loadCtx
  split
  · trivial
  extract_lets _ _ _ s1 s
  have hs1 : s1.Form := h
  have hs : s.Form := { hs1 with }
  split
  · trivial
  split
  · trivial
  split
  · trivial
  split
  · trivial
  split
  · trivial
  split
  · trivial
  split
  · trivial
  split
  · trivial
  rename_i e''
  extract_lets
  split
  · trivial
  rename_i e'
  split
  · trivial
  rename_i e
  exact AllSome.of_eq ((AllOk.fst_of_eq ((AllOk.fst_of_eq hs.restoreGraphs e'').placeClusters) e').fillTeams) e

theorem execCtxload_form {x} (h : s.Form) : NextForm (execCtxload x s) := by
  unfold execCtxload
  refine issue_form h ?_
  intro w m h'
  extract_lets
  split
  · exact h'.trapHere
  split
  · exact h'.hold
  split
  · exact .ite h'.hold h'.finishS
  rename_i e
  exact State.Form.statusOr (AllOk.of_eq h'.loadCtx e)

theorem State.Form.liftTeam {tk} (h : s.Form) : (s.liftTeam tk).1.Form :=
  h.dropStores.updTeam.foldl (fun _ _ h' => h'.updGroup) _

theorem State.Form.landTeam {zn tk tm core qs stores} (h : s.Form) : AllSome State.Form (s.landTeam zn tk tm core qs stores) := by
  unfold State.landTeam
  extract_lets _ _ _ s'
  have hs' : s'.Form := h.foldl (fun _ _ h' => h'.updGroup) _
  split
  · trivial
  split
  · trivial
  split
  · extract_lets s'' s'''
    have hs'' : s''.Form := hs'.updTeam.expireCore
    have hs''' : s'''.Form := .ite (hs''.foldl (fun _ _ h' => h'.updQuad) _) hs''
    exact .ite hs''' trivial
  · trivial

theorem State.Form.spillTeam {cx tk tm} (h : s.Form) : (s.spillTeam cx tk tm).Form := by
  rw [show @State.spillTeam = _ by delta State.spillTeam; exact rfl]
  split
  rename_i e
  split
  · exact h
  extract_lets block
  split
  · exact h
  split
  · exact h
  · rename_i e'
    exact (AllOk.of_eq (h.liftTeam.fst e).exWrite e').updTeam

theorem execMigration_form {tk core quads} (h : s.Form) : NextForm (execMigration tk core quads s) := by
  unfold execMigration
  split
  · exact h
  split
  · exact h
  extract_lets land
  have hland : ∀ (s' : State) (stores : List Quad), s'.Form → (land s' stores).Form := fun _ _ h' => .ite h (h.getD h'.landTeam)
  exact .ite h (.ite (.ite h.spillTeam (.ite h (hland _ _ h.liftTeam))) (.ite (hland _ _ h.updTeam) h))

/-! ### Machine/Banks -/

theorem execBankReqmode_form {from_ bank mode} (h : s.Form) : NextForm (execBankReqmode from_ bank mode s) :=
  .ite h.updBank h

theorem State.Form.flushL1 {core zn} (h : s.Form) : (s.flushL1 core zn).Form :=
  h.foldl (fun _ _ h' => .ite h' h'.evictL1) _

theorem execWriteback_form {bank} (h : s.Form) : NextForm (execWriteback bank s) := by
  unfold execWriteback
  extract_lets _ s'
  have hs' : s'.Form := by
    unfold s'
    split
    exacts [h.flushL1, h]
  exact .ite h hs'.updBank

theorem execWaitrelease_form {bank} (h : s.Form) : NextForm (execWaitrelease bank s) :=
  .ite h.updBank h

theorem execZerofill_form {bank} (h : s.Form) : NextForm (execZerofill bank s) :=
  .ite h.updBank h

theorem State.Form.startScrub {bank n} (h : s.Form) : (s.startScrub bank n).Form :=
  .ite h.updBank h.updQuad

theorem execScrubEnd_form {bank n} (h : s.Form) : NextForm (execScrubEnd bank n s) :=
  .ite (State.Form.ite h.updBank h) (State.Form.ite h.updQuad h)

theorem State.Form.evictCache {zn cache} (h : s.Form) : (s.evictCache zn cache).Form :=
  { (h.foldl (fun _ _ h' => h'.evictHome) _) with }

theorem execWayFree_form {z} (h : s.Form) : NextForm (execWayFree z s) := by
  unfold execWayFree
  split
  exacts [h, (h.foldl (fun _ _ h' => h'.evictCache) _).updZone]

theorem State.Form.lend {z} (h : s.Form) : (s.lend z).Form := by
  unfold State.lend
  split
  · exact h
  split
  exacts [h, .ite h h.updZone.updZone]

theorem State.Form.payIssue {z n} (h : s.Form) : (s.payIssue z n).Form :=
  h.updZone

theorem State.Form.lendAll (h : s.Form) : s.lendAll.Form := by
  unfold State.lendAll
  refine h.foldl ?_ _
  intro t a h'
  split
  exacts [.ite h'.lend h', h']

theorem execCoinPeriod_form (h : s.Form) : NextForm (execCoinPeriod s) :=
  { h with }

/-! ### Machine/Control -/

theorem branchOp_form {i link indirect needLand} {target : View → ℕ → ℤ} (h : s.Form) : NextForm (branchOp i s link indirect needLand target) := by
  unfold branchOp
  refine issue_form h ?_
  intro w m h'
  split
  · exact h'.hold
  extract_lets w'
  have hw' : w'.s.Form := by
    unfold w'
    split
    exacts [h'.installQuiet, h']
  exact .ite hw'.issued hw'.takeTrap

theorem execBra_form {x} (h : s.Form) : NextForm (execBra x s) :=
  branchOp_form h

theorem execBrx_form {x} (h : s.Form) : NextForm (execBrx x s) :=
  branchOp_form h

theorem execCall_form {x} (h : s.Form) : NextForm (execCall x s) :=
  branchOp_form h

theorem execCallx_form {x} (h : s.Form) : NextForm (execCallx x s) :=
  branchOp_form h

theorem execRet_form {x} (h : s.Form) : NextForm (execRet x s) :=
  branchOp_form h

theorem execLand_form {x} (h : s.Form) : NextForm (execLand x s) :=
  groupOp_form h

theorem execNop_form {x} (h : s.Form) : NextForm (execNop x s) :=
  groupOp_form h

theorem execExit_form {x} (h : s.Form) : NextForm (execExit x s) :=
  issue_form h (fun _ _ h' => h'.issued)

theorem execYield_form {x} (h : s.Form) : NextForm (execYield x s) :=
  groupOp_form h

theorem execPause_form {x} (h : s.Form) : NextForm (execPause x s) :=
  groupOp_form h

theorem execSleep_form {x} (h : s.Form) : NextForm (execSleep x s) :=
  groupOp_form h

theorem expire_form {u t} {done : ℕ → TStat → Bool} (h : s.Form) : (expire s u t done).Form := by
  unfold expire
  split
  exacts [h, h.setGroup]

theorem execHoldExpiry_form {u t} (h : s.Form) : NextForm (execHoldExpiry u t s) :=
  expire_form h

theorem execSleepExpiry_form {u t} (h : s.Form) : NextForm (execSleepExpiry u t s) :=
  expire_form h

theorem execCbarm_form {x} (h : s.Form) : NextForm (execCbarm x s) :=
  groupOp_form h

theorem execCbwait_form {x} (h : s.Form) : NextForm (execCbwait x s) :=
  issue_form h (fun _ _ h' => h'.issued)

theorem barOp_form {i cluster b scope} (h : s.Form) : NextForm (barOp i s cluster b scope) :=
  issue_form h (fun _ _ h' => h'.issued.updTeam)

theorem execBar_form {x} (h : s.Form) : NextForm (execBar x s) :=
  barOp_form h

theorem execBarc_form {x} (h : s.Form) : NextForm (execBarc x s) :=
  barOp_form h

theorem completeBar_form {teams cluster b} (h : s.Form) : (completeBar s teams cluster b).Form :=
  (h.foldl (fun _ _ h' => h'.updGroup) _).foldl (fun _ _ h' => h'.updTeam) _

theorem execBarRelease_form {team b} (h : s.Form) : NextForm (execBarRelease team b s) := by
  unfold execBarRelease
  split
  · exact h
  extract_lets
  exact .ite (completeBar_form h) h

theorem execBarcRelease_form {team b} (h : s.Form) : NextForm (execBarcRelease team b s) := by
  unfold execBarcRelease
  split
  · exact h
  extract_lets
  exact .ite (completeBar_form h) h

theorem execSlotRefill_form {quad slot} (h : s.Form) : NextForm (execSlotRefill quad slot s) := by
  unfold execSlotRefill
  split
  · split
    exacts [h.updGroup, h]
  · exact h

/-! ### Machine/Cross -/

theorem execPart_form {x} (h : s.Form) : NextForm (execPart x s) :=
  groupOp_form h

theorem execVote_form {x} (h : s.Form) : NextForm (execVote x s) :=
  laneOp_form h

theorem execShfl_form {x} (h : s.Form) : NextForm (execShfl x s) :=
  laneOp_form h

theorem execRedux_form {x} (h : s.Form) : NextForm (execRedux x s) :=
  laneOp_form h

theorem execScan_form {x} (h : s.Form) : NextForm (execScan x s) :=
  laneOp_form h

theorem execMatch_form {x} (h : s.Form) : NextForm (execMatch x s) :=
  laneOp_form h

theorem execElect_form {x} (h : s.Form) : NextForm (execElect x s) :=
  laneOp_form h

theorem execBcast_form {x} (h : s.Form) : NextForm (execBcast x s) :=
  laneOp_form h

/-! ### Machine/Zones -/

theorem zneed_form {ok code k} (h : AllOk State.Form k) : AllOk State.Form (zneed ok code k) :=
  .ite h trivial

theorem zread_form {a n} {k : List Byte → ZRes} (hk : ∀ (x : List Byte), AllOk State.Form (k x)) : AllOk State.Form (w.zread a n k) := by
  unfold View.zread
  split
  · trivial
  split
  exacts [trivial, hk _]

theorem State.Form.zqueue {z} (h : w.s.Form) : (w.zqueue z).s.Form :=
  .ite h { h with }

theorem State.Form.zwait {z} (h : w.s.Form) : (w.zwait z).Form :=
  State.Form.hold h.zqueue

theorem zoneOnce_form {i m z r} (h : w.s.Form) (hr : AllOk State.Form r) : NextForm (zoneOnce w i m z r) := by
  unfold zoneOnce
  split
  · exact h.zwait
  split
  exacts [h.finishS, hr.get.statusOr]

theorem zoneForm_form {i a align} {zone : View → Mask → Option ℕ} {f : View → ℕ → Mask → ZRes} (h : s.Form)
    (hf : ∀ (w : View) (n : ℕ) (m : Mask), w.s.Form → AllOk State.Form (f w n m)) : NextForm (zoneForm i s a align zone f) := by
  unfold zoneForm
  refine issue_form h ?_
  intro w m h'
  extract_lets
  split
  · exact h'.trapHere
  split
  · exact h'.zwait
  · exact h'.hold
  · exact zoneOnce_form h' (hf _ _ _ h')
  split
  · exact h'.finishS
  rename_i e
  exact State.Form.statusOr (AllOk.of_eq (hf _ _ _ h') e)

theorem State.Form.openZone {z} (h : s.Form) : (s.openZone z).Form :=
  h.updZone

theorem State.Form.zeroRange {a n} (h : s.Form) : (s.zeroRange a n).Form :=
  { h with mem := wf_filter _ _ h.mem }

theorem State.Form.startMigration {z map size excl auto} (h : s.Form) : (s.startMigration z map size excl auto).Form :=
  h.updZone

theorem State.Form.rehash {z gone} (h : s.Form) : (s.rehash z gone).Form := by
  unfold State.rehash
  split
  · exact h
  split
  · exact h.updZone
  extract_lets _ _ _ pick
  clear_value pick
  split
  exacts [h.startMigration, h.startMigration]

theorem State.Form.zcreate {z a} (h : w.s.Form) : AllOk State.Form (w.zcreate z a) :=
  zneed_form (zread_form (fun _ => zneed_form (zneed_form (zneed_form (zneed_form { h with })))))

theorem execZcreate_form {x} (h : s.Form) : NextForm (execZcreate x s) :=
  zoneForm_form h (fun _ _ _ h' => h'.zcreate)

theorem State.Form.leaveQuad {z q} (h : s.Form) : (s.leaveQuad z q).Form :=
  h.updQuad

theorem State.Form.leaveBank {b} (h : s.Form) : (s.leaveBank b).Form :=
  h.updBank

theorem State.Form.destroyZone {z} (h : s.Form) : (s.destroyZone z).Form := by
  unfold State.destroyZone
  extract_lets s' s'' s''' s''''
  have hs' : s'.Form := h.foldl (fun _ _ h' => h'.leaveQuad) _
  have hs'' : s''.Form := hs'.foldl (fun _ _ h' => h'.leaveBank) _
  have hs''' : s'''.Form := hs''.foldl (fun _ _ h' => h'.dropObj) _
  have hs'''' : s''''.Form := hs'''.tlbDrop
  exact { hs'''' with }

theorem execZdestroy_form {x} (h : s.Form) : NextForm (execZdestroy x s) :=
  issue_form h (fun _ _ h' => zoneOnce_form h' (zneed_form (zneed_form (zneed_form h'.destroyZone))))

theorem zlist_form {a} {k : List ℕ → ZRes} (hk : ∀ (x : List ℕ), AllOk State.Form (k x)) : AllOk State.Form (w.zlist a k) :=
  zread_form (fun _ => .ite trivial (zread_form (fun _ => zneed_form (hk _))))

theorem State.Form.grantEnt {z e} (h : s.Form) : (s.grantEnt z e).Form := by
  unfold State.grantEnt
  split
  exacts [h.updQuad, h.updBank, h.updZone, h.updZone, h.updZone]

theorem State.Form.zgrow {z a} (h : w.s.Form) : AllOk State.Form (w.zgrow z a) := by
  unfold View.zgrow
  exact zneed_form (zlist_form (fun _ => zneed_form (zneed_form (zneed_form (zneed_form (zneed_form (h.openZone.foldl
    (fun _ _ h' => h'.grantEnt) _)))))))

theorem execZgrow_form {x} (h : s.Form) : NextForm (execZgrow x s) :=
  zoneForm_form h (fun _ _ _ h' => h'.zgrow)

theorem State.Form.zshrink {z a} (h : w.s.Form) : AllOk State.Form (w.zshrink z a) := by
  unfold View.zshrink
  exact zneed_form (zlist_form (fun _ => zneed_form (zneed_form (zneed_form (zneed_form (zneed_form (h.openZone.updZone.foldl (fun _ _ h' =>
    .ite h'.askStop h') _)))))))

theorem execZshrink_form {x} (h : s.Form) : NextForm (execZshrink x s) := by
  unfold execZshrink
  refine issue_form h ?_
  intro w m h'
  extract_lets
  split
  · exact h'.updZone.statusOr
  split
  · exact h'.trapHere
  split
  · exact h'.zwait
  split
  · exact h'.finishS
  rename_i e
  exact State.Form.statusOr ((AllOk.of_eq h'.zshrink e).updGroup)

theorem State.Form.departSlot {k} (h : s.Form) : (s.departSlot k).Form := by
  unfold State.departSlot
  split
  · exact h
  extract_lets s'
  have hs' : s'.Form := h.unmap
  exact .ite hs' hs'.updQd.raise

theorem State.Form.departEnt {z e} (h : s.Form) : (s.departEnt z e).Form := by
  unfold State.departEnt
  split
  exacts [h.leaveQuad, h.leaveBank, h.departSlot.updZone, h.updZone, h.updZone]

theorem execDepartureEnd_form {z} (h : s.Form) : NextForm (execDepartureEnd z s) := by
  unfold execDepartureEnd
  split
  · exact h
  extract_lets _ s'
  have hs' : s'.Form := h.foldl (fun _ _ h' => h'.resumeTeam) _
  exact .ite h (.ite (.ite hs'.updZone h) (.ite ((h.foldl (fun _ _ h' => h'.departEnt) _).updZone) (h.foldl (fun _ _ h' => .ite h' h'.updBank) _)))

theorem State.Form.zslices {z d a} (h : w.s.Form) : AllOk State.Form (w.zslices z d a) :=
  zneed_form (zread_form (fun _ => zneed_form (zneed_form (zneed_form (.ite h h.updZone)))))

theorem execZslices_form {x} (h : s.Form) : NextForm (execZslices x s) :=
  zoneForm_form h (fun _ _ _ h' => h'.zslices)

theorem State.Form.moveHome {z d key} (h : s.Form) : (s.moveHome z d key).Form :=
  h.moveHere

theorem State.Form.sweepLine {z d line} (h : s.Form) : (s.sweepLine z d line).Form := by
  unfold State.sweepLine
  extract_lets _ _ _ s'
  have hs' : s'.Form := by
    unfold s'
    split
    exacts [.ite h.moveHome h, h]
  exact .ite hs' { hs' with }

theorem execSweepVisit_form {z d line} (h : s.Form) : NextForm (execSweepVisit z d line s) :=
  .ite h.sweepLine h

theorem execSweepEnd_form {z d} (h : s.Form) : NextForm (execSweepEnd z d s) := by
  unfold execSweepEnd
  split
  exacts [h, .ite h ((h.foldl (fun _ _ h' => h'.sweepLine) _).updZone)]

theorem State.Form.zways {z cache m live} (h : w.s.Form) : AllOk State.Form (w.zways z cache m live) :=
  zneed_form (zneed_form (zneed_form (zneed_form h.updZone)))

theorem waysForm_form {i z m cache} {live : State → Bool} (h : s.Form) : NextForm (waysForm i s z m cache live) := by
  unfold waysForm
  refine issue_form h ?_
  intro w m' h'
  extract_lets
  split
  · exact h'.statusOr
  split
  · exact h'.zwait
  split
  · exact h'.finishS
  rename_i e
  exact State.Form.statusOr ((AllOk.of_eq h'.zways e).updGroup)

theorem execZwaysL2_form {x} (h : s.Form) : NextForm (execZwaysL2 x s) :=
  waysForm_form h

theorem execZwaysVault_form {x} (h : s.Form) : NextForm (execZwaysVault x s) :=
  waysForm_form h

theorem State.Form.zchan {z a} (h : w.s.Form) : AllOk State.Form (w.zchan z a) :=
  zneed_form (zread_form (fun _ => .ite trivial (zread_form (fun _ => zneed_form (zneed_form (zneed_form (zneed_form h.startMigration)))))))

theorem execZchan_form {x} (h : s.Form) : NextForm (execZchan x s) :=
  zoneForm_form h (fun _ _ _ h' => h'.zchan)

theorem State.Form.poisonLine {zn line} (h : s.Form) : (s.poisonLine zn line).Form :=
  State.Form.logError { h with mem := wf_writeBytes _ _ _ h.mem }

theorem State.Form.chargeEngine {ch n} (h : s.Form) : (s.chargeEngine ch n).Form :=
  h.updZone

theorem State.Form.moveBatch {z zz m} (h : s.Form) : (s.moveBatch z zz m).Form := by
  unfold State.moveBatch
  extract_lets _ _ _ _ s' s''
  have hs' : s'.Form := .ite h h.zeroRange
  have hs'' : s''.Form := by
    unfold s''
    refine hs'.foldl ?_ _
    intro t a h'
    extract_lets _ s''' _ _ s'''' s''''' _ _ s''''''
    have hs''' : s'''.Form := .ite h' (.ite h' h'.poisonLine)
    have hs'''' : s''''.Form := .ite hs''' hs'''.chargeEngine
    have hs''''' : s'''''.Form := .ite hs'''' hs''''.chargeEngine
    have hs'''''' : s''''''.Form := hs'''''.updZone
    split
    · exact hs'''''
    split
    exacts [.ite hs''''''.putHome hs'''''', hs'''''']
  exact hs''.updZone

theorem State.Form.endMigration {z zz m} (h : s.Form) : (s.endMigration z zz m).Form :=
  .ite h.updZone h.updZone.updZone.rehash

theorem execMigrationBatch_form {z} (h : s.Form) : NextForm (execMigrationBatch z s) := by
  unfold execMigrationBatch
  split
  · exact h
  split
  exacts [h, .ite h (.ite h.endMigration h.moveBatch)]

theorem execZcoins_form {x} (h : s.Form) : NextForm (execZcoins x s) :=
  issue_form h (fun _ _ h' => zoneOnce_form h' (zneed_form (zneed_form (zneed_form h'.updZone))))

theorem State.Form.zscrub {a} (h : w.s.Form) : AllOk State.Form (w.zscrub a) := by
  unfold View.zscrub
  exact zlist_form (fun _ => zneed_form (zneed_form (zneed_form (h.foldl (fun _ _ h' => .ite h'.startScrub h'.startScrub) _))))

theorem execZscrub_form {x} (h : s.Form) : NextForm (execZscrub x s) :=
  zoneForm_form h (fun _ _ _ h' => h'.zscrub)

theorem State.Form.announce {z} (h : s.Form) : (s.announce z).Form :=
  State.Form.raise { h with }

theorem execZoneCommit_form {z} (h : s.Form) : NextForm (execZoneCommit z s) := by
  unfold execZoneCommit
  split
  exacts [h, .ite (h.updZone.announce.foldl (fun _ _ h' => h'.announce) _) h]

theorem execZcommit_form {x} (h : s.Form) : NextForm (execZcommit x s) := by
  unfold execZcommit
  refine issue_form h ?_
  intro w m h'
  extract_lets _ _ q
  have hq : q.s.Form := h'.zqueue
  split
  exacts [h'.statusOr, .ite h'.zwait (.ite h'.finishS (.ite h'.announce.statusOr hq.setGroup.updZone.statusOr))]

theorem execZquery_form {x} (h : s.Form) : NextForm (execZquery x s) :=
  issue_form h (fun _ _ h' => .ite h'.zwait h'.finishS)

theorem execCapq_form {x} (h : s.Form) : NextForm (execCapq x s) :=
  issue_form h (fun _ _ h' => h'.access (fun _ => .ite h'.trapHere (h'.raced (fun _ h'' => .ite h''.hold h''.clean.finishS))))

/-! ### Machine/Device -/

theorem State.Form.restartCopies {tk k} (h : s.Form) : (s.restartCopies tk k).Form := by
  unfold State.restartCopies
  split
  exacts [h, State.Form.addCopies { h with teams := risingKeys_put _ _ _ h.teams }]

theorem State.Form.withdrawMarks {gr nd} (h : s.Form) : (s.withdrawMarks gr nd).Form := by
  unfold State.withdrawMarks
  split
  · exact h
  refine h.foldl ?_ _
  intro t a h'
  extract_lets
  split
  exacts [.ite (h'.foldl (fun _ _ h'' => h''.restartCopies) _) h', h']

theorem State.Form.loseCluster {c} (h : s.Form) : (s.loseCluster c).Form := by
  unfold State.loseCluster
  extract_lets ts s'
  have hs' : s'.Form := h.foldl (fun _ _ h' => h'.dropFaults.dropPromos.freeTeam) _
  clear_value ts
  split
  · exact h
  split
  · exact hs'
  split
  exacts [hs', .ite hs'.updGraph.withdrawMarks (.ite hs'.nodeStatus hs'.freeNode.retireNode)]

theorem State.Form.loseTeams {p : ℕ → Bool} (h : s.Form) : (s.loseTeams p).Form :=
  h.foldl (fun _ _ h' => h'.loseCluster) _

theorem State.Form.loseCores {p : ℕ → Bool} (h : s.Form) : (s.loseCores p).Form :=
  { h.loseTeams with }

theorem State.Form.loseCaches {p : ℕ → Bool} (h : s.Form) : (s.loseCaches p).Form :=
  { (h.foldl (fun _ _ h' => h'.evictHome) _) with }

theorem State.Form.loseDistrict {d} (h : s.Form) : (s.loseDistrict d).Form := by
  unfold State.loseDistrict
  extract_lets _ s' s'' s'''
  have hs' : s'.Form := h.foldl (fun _ _ h' => h'.foldl (fun _ _ h'' => h''.poisonLine) _) _
  have hs'' : s''.Form := { hs' with }
  have hs''' : s'''.Form := hs''.loseCores.loseCaches
  exact { hs''' with }

theorem State.Form.loseChans {chs readable} (h : s.Form) : (s.loseChans chs readable).Form := by
  unfold State.loseChans
  refine State.Form.foldl ?_ (fun _ _ h' => h'.rehash) _
  exact { h with }

theorem State.Form.loseVault {v} (h : s.Form) : (s.loseVault v).Form :=
  { h.loseCaches.loseChans with }

theorem State.Form.setLive {dev l} (h : s.Form) : (s.setLive dev l).Form :=
  .ite h { h with }

theorem State.Form.loseStations {mask} (h : s.Form) : (s.loseStations mask).Form :=
  { (h.foldl (fun _ _ h' => .ite h' h'.setLive) _) with }

theorem State.Form.loseReference (h : s.Form) : s.loseReference.Form :=
  .ite { h with } h

theorem State.Form.loseGate {g} (h : s.Form) : (s.loseGate g).Form :=
  .ite h.loseStations.loseReference h.loseStations

theorem State.Form.loseChip {c} (h : s.Form) : (s.loseChip c).Form :=
  .ite h.loseDistrict (.ite h.loseVault h.loseGate)

theorem State.Form.setChip {c st} (h : s.Form) : (s.setChip c st).Form :=
  { h with }

theorem State.Form.fenceChip {c} (h : s.Form) : (s.fenceChip c).Form :=
  (h.capacityChange (fun _ h' => h'.setChip.loseChip.frame (by rfl) (by rfl) (by rfl) (by rfl))).logError

theorem State.Form.reqFence {from_ c} (h : s.Form) : (s.reqFence from_ c).Form :=
  .ite h.fenceChip h

theorem State.Form.reqOff {from_ c} (h : s.Form) : (s.reqOff from_ c).Form :=
  .ite (h.capacityChange (fun _ h' => h'.setChip)) h

theorem State.Form.reqReset {from_ c} (h : s.Form) : (s.reqReset from_ c).Form :=
  .ite (h.capacityChange (fun _ h' => h'.setChip)) h

theorem execChipletFence_form {from_ c} (h : s.Form) : NextForm (execChipletFence from_ c s) :=
  h.reqFence

theorem execChipletPowerOff_form {from_ c} (h : s.Form) : NextForm (execChipletPowerOff from_ c s) :=
  h.reqOff

theorem execChipletReset_form {from_ c} (h : s.Form) : NextForm (execChipletReset from_ c s) :=
  h.reqReset

theorem execChipletError_form {c} (h : s.Form) : NextForm (execChipletError c s) :=
  .ite h.fenceChip h

theorem State.Form.bringBack {c} (h : s.Form) : (s.bringBack c).Form := by
  unfold State.bringBack
  extract_lets _ _ _ s'
  have hs' : s'.Form := h.foldl (fun _ _ h' => (h'.foldl (fun _ _ h'' => h''.updQuad) _).foldl (fun _ _ h'' => h''.updBank) _) _
  exact .ite { hs' with } (.ite { h with } { h with })

theorem execResetDone_form {c pass} (h : s.Form) : NextForm (execResetDone c pass s) :=
  .ite h (.ite (h.capacityChange (fun _ h' => h'.setChip.bringBack)) h.fenceChip)

theorem execExchangeTakeover_form (h : s.Form) : NextForm (execExchangeTakeover s) :=
  .ite h (h.capacityChange (fun _ h' => { h' with }))

theorem execCoreFence_form {core} (h : s.Form) : NextForm (execCoreFence core s) :=
  .ite h ((h.capacityChange (fun _ h' => h'.loseCores.frame (by rfl) (by rfl) (by rfl) (by rfl))).logError)

theorem execChannelLoss_form {ch readable} (h : s.Form) : NextForm (execChannelLoss ch readable s) :=
  .ite h ((h.capacityChange (fun _ h' => h'.loseChans)).logError)

theorem State.Form.healthW1c {from_ v} (h : s.Form) : (s.healthW1c from_ v).Form :=
  .ite { h with } h

theorem execHealthW1c_form {from_ v} (h : s.Form) : NextForm (execHealthW1c from_ v s) :=
  h.healthW1c

theorem State.Form.grantQuad {q n} (h : s.Form) : (s.grantQuad q n).Form := by
  unfold State.grantQuad
  exact h.updGov.updQuad

theorem State.Form.giveLeave {n x} (h : s.Form) : (s.giveLeave n x).Form := by
  unfold State.giveLeave
  split
  · exact h.grantQuad.updQuad
  · split
    exacts [h.grantQuad.setGroup, h]
  · exact { h with }

theorem execLeaveGrant_form {d} (h : s.Form) : NextForm (execLeaveGrant d s) := by
  unfold execLeaveGrant
  extract_lets v
  split
  exacts [h, .ite h.updGov (.ite h.updGov.giveLeave h)]

theorem State.Form.returnLeave {q} (h : s.Form) : (s.returnLeave q).Form := by
  unfold State.returnLeave
  exact h.updGov.updQuad

theorem execLeaveReturn_form {q} (h : s.Form) : NextForm (execLeaveReturn q s) :=
  h.returnLeave

theorem State.Form.returnLeaves (h : s.Form) : s.returnLeaves.Form :=
  h.foldl (fun _ _ h' => h'.returnLeave) _

theorem execGovernorPeriod_form {d} (h : s.Form) : NextForm (execGovernorPeriod d s) :=
  .ite h h.updGov

theorem execPowerSample_form {overrun rates} (h : s.Form) : NextForm (execPowerSample overrun rates s) :=
  State.Form.ite ((h.foldl (fun _ _ h' => h'.updGov) _).logError) (h.foldl (fun _ _ h' => h'.updGov) _)

theorem State.Form.bootTeam {header} (h : s.Form) : AllSome State.Form (s.bootTeam header) := by
  unfold State.bootTeam
  split
  · trivial
  split
  · trivial
  extract_lets
  split
  · trivial
  split
  exacts [trivial, .map_of h.placeTeam (fun _ h' => h'.launchTeam)]

theorem State.reset_form : State.reset.Form := ⟨rfl, rfl, rfl, rfl⟩

theorem Boot.memory_wf (b : Boot) : b.memory.wf = true := by
  unfold Boot.memory
  extract_lets cells pod code
  exact wf_foldl_writeByte _ _ _ _ rfl

theorem execColdReset_form (h : s.Form) : NextForm (execColdReset s) := by
  unfold execColdReset
  extract_lets base0 base
  have hbase : base.Form := { State.reset_form with hostMem := h.hostMem }
  split
  · exact { hbase with }
  rename_i b _
  refine .ite { hbase with } ?_
  extract_lets _ _ _ _ _ s1 s2
  have hs1 : s1.Form := { hbase with mem := b.memory_wf }
  have hs2 : s2.Form := hs1.foldl (fun _ _ h' => h'.logError) _
  split
  · rename_i e
    exact AllSome.of_eq hs2.bootTeam e
  · exact { hbase with }

theorem State.Form.attest {nonce zone dest} (h : s.Form) : (s.attest nonce zone dest).Form :=
  .ite { (h.foldl (fun _ _ h' => h'.homePut) _) with } h

theorem State.Form.serveMailbox (h : s.Form) : s.serveMailbox.Form :=
  .ite h.attest h

theorem execAttestationRequest_form {from_ nonce zone dest} (h : s.Form) : NextForm (execAttestationRequest from_ nonce zone dest s) :=
  .ite h.attest h

/-! ### Machine/Mmio -/

theorem State.Form.writeReg {from_ a v c} (h : s.Form) : (s.writeReg from_ a v c).Form := by
  unfold State.writeReg
  split
  · exact .ite h.kick h
  · exact .ite h.writeDirectory0 h.directoryW1c
  · exact .ite h.updBank h
  · extract_lets
    exact .ite { h with } h
  · split
    · exact h
    split
    exacts [h.reqFence, h.reqOff, h.reqReset, h]
  · exact .ite h.healthW1c h
  · exact .ite { h with } h
  · exact .ite h.updGov h
  · exact .ite { h with } h
  · exact .ite { h with } h
  · exact h
  · exact h

theorem State.Form.writeRegs {from_ a bytes} (h : s.Form) : (s.writeRegs from_ a bytes).Form :=
  h.foldl (fun _ _ h' => h'.writeReg) _

theorem execRegisterWrite_form {from_ pa n v} (h : s.Form) : NextForm (execRegisterWrite from_ pa n v s) :=
  .ite h.writeRegs h

/-! ### Machine/MemEvents -/

theorem lineEvent_form {u ld k} {on : LineStat → Bool} {f : LineCtx → State} (h : s.Form) (hf : ∀ (x : LineCtx), (f x).Form) :
    NextForm (lineEvent u ld k s on f) := by
  unfold lineEvent
  split
  exacts [.ite (hf _) h, h]

theorem State.Form.to {c : LineCtx} {st} (h : s.Form) : (c.to s st).Form :=
  h.setGroup

theorem State.Form.bind {c : LineCtx} {byte : ℕ → Byte} {bad ts} (h : s.Form) : (c.bind s byte bad ts).Form :=
  State.Form.setGroup (.ite h.logError h)

theorem State.Form.fail {c : LineCtx} {kind dev} (h : s.Form) : (c.fail s kind dev).Form :=
  h.setGroup

theorem State.Form.lineCtx_askHost {c : LineCtx} (h : s.Form) : (c.askHost s).Form :=
  h.to.send

theorem State.Form.grant {c : LineCtx} (h : s.Form) : (c.grant s).Form :=
  h.leaveChan.grantL2

theorem State.Form.granted {c : LineCtx} (h : s.Form) : (c.granted s).Form :=
  State.Form.to (.ite h h.grant)

theorem execGrantL2_form {u ld k} (h : s.Form) : NextForm (execGrantL2 u ld k s) :=
  lineEvent_form h (fun _ => .ite h.fail (.ite (.ite h h.lineCtx_askHost) (.ite h h.granted)))

theorem State.Form.fill {c : LineCtx} (h : s.Form) : (c.fill s).Form := by
  unfold LineCtx.fill
  split
  · exact h.to
  split
  · exact h.bind
  extract_lets
  split
  · exact h.to
  · exact h.to
  rename_i e
  exact (LeaseForm.of_eq h.grantL1 e).bind

theorem State.Form.atHome {c : LineCtx} (h : s.Form) : (c.atHome s).Form :=
  .ite h.to (.ite (State.Form.bind { h with }) h.touchHome.putHome.bind)

theorem execLineFill_form {u ld k} (h : s.Form) : NextForm (execLineFill u ld k s) :=
  lineEvent_form h (fun _ => .ite h.fail (.ite h (.ite h.atHome h.fill)))

theorem execRenewalReturn_form {u ld k} (h : s.Form) : NextForm (execRenewalReturn u ld k s) :=
  lineEvent_form h (fun _ => .ite h.fail (.ite (.ite h h.fill) (.ite h (.ite h.lineCtx_askHost (.ite h (.ite h.grant.fill h.grant.to))))))

theorem State.Form.failFly {u f report} (h : s.Form) : (s.failFly u f report).Form :=
  h.updGroup

theorem State.Form.sendFlights {u fs} (h : s.Form) : (s.sendFlights u fs).Form :=
  h.foldl (fun _ _ h' => .ite h' (.ite h'.send h'.failFly.logError)) _

theorem execStoreBufferLeave_form {u} (h : s.Form) : NextForm (execStoreBufferLeave u s) := by
  unfold execStoreBufferLeave
  split
  · exact h
  split
  exacts [h, .ite h (State.Form.sendFlights (State.Form.setGroup { h with }))]

theorem State.Form.arrive {src} (h : s.Form) : (s.arrive src).Form :=
  .ite h.enterChan h

theorem SPart.run_wf {p : SPart} {m : Memory} (h : m.wf = true) : (p.run m).1.wf = true := by
  unfold SPart.run
  extract_lets a old
  split
  exacts [wf_writeBytes _ _ _ h, wf_writeNat _ _ _ _ h]

theorem runParts_wf {parts : List SPart} {m : Memory} (h : m.wf = true) : (runParts parts m).1.wf = true :=
  List.foldlRecOn (motive := fun r : Memory × List (ℕ × ℕ) => r.1.wf = true) _ _ h fun _ hr _ _ => SPart.run_wf hr

theorem State.Form.perform {zn home line p parts} (h : s.Form) : (s.perform zn home line p parts).1.Form := by
  unfold State.perform
  split
  rename_i t ts e
  have ht := h.homeWrite.fst e
  extract_lets host
  split
  rename_i m old e'
  have hm : m.wf = true := by
    have := runParts_wf (parts := parts) (m := if host then t.hostMem else t.mem) (by split; exacts [ht.hostMem, ht.mem])
    rwa [e'] at this
  exact .ite { ht with hostMem := hm } { ht with mem := hm }

theorem State.Form.performFly {u zn g f} (h : s.Form) : (s.performFly u zn g f).Form :=
  State.Form.updGroup (State.Form.raceStamp (.ite h.perform h.perform.charge))

theorem State.Form.holdFly {u f} (h : s.Form) : (s.holdFly u f).Form :=
  .ite h (State.Form.updGroup { h with })

theorem execPerformAtHome_form {u k} (h : s.Form) : NextForm (execPerformAtHome u k s) := by
  unfold execPerformAtHome
  split
  · exact h
  split
  · exact h
  extract_lets _ s' _ t
  have hs' : s'.Form := by
    unfold s'
    refine h.foldl ?_ _
    intro t' a h'
    split
    exacts [h'.writeRegs, h']
  have ht : t.Form := h.holdFly
  exact .ite h (.ite hs'.failFly (.ite h.failFly (.ite h.failFly (.ite ht (.ite ht.updGroup.send h.performFly)))))

theorem State.Form.raiseBars {g ts} (h : s.Form) : (s.raiseBars g ts).Form :=
  h.updTeam

theorem execStoreAck_form {u k} (h : s.Form) : NextForm (execStoreAck u k s) := by
  unfold execStoreAck
  split
  · exact h
  split
  · exact h
  split
  · exact h
  extract_lets _ _ s' s''
  have hs' : s'.Form := by
    unfold s'
    split
    exacts [h.ackL1, h]
  have hs'' : s''.Form := hs'.raiseBars
  exact .ite h hs''.setGroup

theorem execWalk_form {u} (h : s.Form) : NextForm (execWalk u s) := by
  rw [show @execWalk = _ by delta execWalk; exact rfl]
  split
  · exact h
  split
  · split
    · exact h
    split
    · exact h
    extract_lets s'
    have hs' : s'.Form := h.walkTouch
    split
    · rename_i e
      exact (AllOk.of_eq hs'.walkInstall e).setGroup
    · extract_lets _ s1
      have hs1 : s1.Form := hs'.setGroup
      exact hs1.frame rfl rfl rfl rfl
  · exact h

theorem execFaultRecord_form {u} (h : s.Form) : NextForm (execFaultRecord u s) := by
  unfold execFaultRecord
  split
  · exact h
  split
  · split
    exacts [h, (State.Form.raiseFor (State.Form.updGroup { h with }))]
  · exact h

theorem execPtsWindowTick_form {u} (h : s.Form) : NextForm (execPtsWindowTick u s) := by
  unfold execPtsWindowTick
  split
  exacts [h, h.setGroup]

theorem State.Form.closeWindows (h : s.Form) : s.closeWindows.Form :=
  .ite { h with groups := risingKeys_map h.groups fun _ => rfl } h

theorem execEpochRollover_form {z} (h : s.Form) : NextForm (execEpochRollover z s) :=
  .ite h { h with groups := risingKeys_map h.groups fun _ => rfl, teams := risingKeys_map h.teams fun _ => rfl }

/-! ### Machine/Fabric -/

theorem execFfenceRel_form {x} (h : s.Form) : NextForm (execFfenceRel x s) :=
  issue_form h (fun _ _ h' => h'.updTeam.issued)

theorem execFfenceAcq_form {x} (h : s.Form) : NextForm (execFfenceAcq x s) :=
  fenceOp_form h (fun _ h' => h')

theorem execFfenceFull_form {x} (h : s.Form) : NextForm (execFfenceFull x s) :=
  issue_form h (fun _ _ h' => .ite h'.updTeam.issued (State.Form.hold h'))

theorem execPtprd_form {x} (h : s.Form) : NextForm (execPtprd x s) :=
  laneOp_form h

theorem execTimens_form {x} (h : s.Form) : NextForm (execTimens x s) :=
  issue_form h (fun _ _ h' => h'.noteTime.finishS)

theorem execPeerq_form {x} (h : s.Form) : NextForm (execPeerq x s) :=
  laneOp_form h

theorem execRlease_form {x} (h : s.Form) : NextForm (execRlease x s) :=
  issue_form h (fun _ _ h' => h'.access (fun _ => h'.runLease))

theorem State.Form.sendProbe {d} (h : s.Form) : (s.sendProbe d).Form :=
  .ite h h.send

theorem State.Form.dropProbes {d} (h : s.Form) : (s.dropProbes d).Form :=
  { h with }

theorem execFcontainFence_form {x} (h : s.Form) : NextForm (execFcontainFence x s) :=
  issue_form h (fun _ _ h' => .ite h'.finishS h'.setLive.dropProbes.finishS)

theorem execFcontainClear_form {x} (h : s.Form) : NextForm (execFcontainClear x s) := by
  unfold execFcontainClear
  refine issue_form h ?_
  intro w m h'
  extract_lets
  split
  · exact h'.finishS
  split
  · exact h'.statusOr
  split
  exacts [.ite h'.dropProbes.statusOr h'.statusOr, h'.sendProbe.updGroup.statusOr]

theorem State.Form.reply {dev pa n r} (h : s.Form) : (s.reply dev pa n r).Form :=
  { h with }

theorem State.Form.performReq {x} (h : s.Form) : (s.performReq x).Form := by
  unfold State.performReq
  extract_lets _ _ _ _ r
  split
  · exact h.reply
  split
  · extract_lets t
    have ht : t.Form := h.putHome
    exact .ite ht.logError.reply ht.reply
  · exact h.perform.reply

theorem State.Form.serveHeld {k x} (h : s.Form) : (s.serveHeld k x).Form :=
  .ite (State.Form.performReq { h with }) (State.Form.send { h with })

theorem State.Form.accept {x} (h : s.Form) : (s.accept x).Form :=
  .ite { h with } (.ite (State.Form.serveHeld { h with }) h.performReq)

theorem execRemoteRequest_form {dev pa n op} (h : s.Form) : NextForm (execRemoteRequest dev pa n op s) :=
  .ite h (.ite h.reply h.accept)

theorem execHeldWriteRelease_form {k} (h : s.Form) : NextForm (execHeldWriteRelease k s) := by
  unfold execHeldWriteRelease
  split
  exacts [h, .ite h h.serveHeld]

theorem execHostRequest_form {from_ pa n op} (h : s.Form) : NextForm (execHostRequest from_ pa n op s) := by
  rw [show @execHostRequest = _ by delta execHostRequest; exact rfl]
  extract_lets _ _ cxl
  have hcxl : ∀ o : RemoteOp, (cxl o).Form := by
    intro o
    simp only [cxl]
    split
    exacts [.ite h.accept h, h]
  split
  · refine .ite h ?_
    split
    exacts [h.reply, h.reply, hcxl _]
  · refine .ite h ?_
    split
    exacts [h.writeRegs, .ite h.writeRegs h, hcxl _]

theorem State.Form.failLoadLine {u id k kind dev line} (h : s.Form) : (s.failLoadLine u id k kind dev line).Form :=
  h.updGroup

theorem State.Form.failReq {k q kl ks ka} (h : s.Form) : (s.failReq k q kl ks ka).Form := by
  unfold State.failReq
  extract_lets s' s''
  have hs' : s'.Form := .ite h.logError h
  have hs'' : s''.Form := { hs' with }
  split
  · exact hs''.failLoadLine
  · exact { hs'' with }
  · exact hs''
  · split
    exacts [State.Form.reply { hs'' with }, hs'']
  · exact hs''.updGraph
  · split
    · exact hs''
    split
    exacts [hs''.failFly, hs'']

theorem State.Form.keepRemote {c : LineCtx} {q line} (h : s.Form) : (c.keepRemote s q line).Form := by
  unfold LineCtx.keepRemote
  extract_lets d copy keep
  have hkeep : ∀ (s : State) (cache key : ℕ), s.Form → (keep s cache key).Form := by
    intro s cache key h
    unfold keep
    split
    · exact h
    extract_lets s'
    have hs' : s'.Form := .ite h h.roomAt
    exact { hs' with }
  exact .ite h (hkeep _ _ _ (hkeep _ _ _ h))

theorem State.Form.takeRemote {u id k q line} (h : s.Form) : (s.takeRemote u id k q line).Form := by
  unfold State.takeRemote
  split
  exacts [h.keepRemote.bind, h.bind, h]

theorem State.Form.ackRemote {u fid olds} (h : s.Form) : (s.ackRemote u fid olds).Form := by
  unfold State.ackRemote
  extract_lets s'
  have hs' : s'.Form := by
    unfold s'
    split
    exacts [h.raceStamp, h]
  exact hs'.updGroup

theorem execRemoteResponse_form {k r} (h : s.Form) : NextForm (execRemoteResponse k r s) := by
  unfold execRemoteResponse
  split
  · exact h
  extract_lets _ s' gone
  have hs' : s'.Form := .ite h.setLive h
  have hgone : gone.Form := { hs' with }
  split
  · exact h
  split
  · exact State.Form.setLive { h with }
  split
  · exact h
  split
  · exact hs'.failReq
  · exact hs'.failReq
  · exact State.Form.ite hs' hgone.takeRemote
  · exact State.Form.ite hs' hgone.takeRemote
  · exact { hgone with }
  · exact { hgone with }
  · exact hgone.ackRemote
  · exact hgone
  · exact hs'

theorem execRemoteFailure_form {k} (h : s.Form) : NextForm (execRemoteFailure k s) := by
  unfold execRemoteFailure
  split
  exacts [h, .ite h h.failReq]

theorem execFenceAssistAnswer_form {u} (h : s.Form) : NextForm (execFenceAssistAnswer u s) := by
  unfold execFenceAssistAnswer
  split
  exacts [h, h.setGroup]

theorem execSuspect_form {dev} (h : s.Form) : NextForm (execSuspect dev s) :=
  .ite h.setLive.sendProbe h

theorem execProbeTimeout_form {dev} (h : s.Form) : NextForm (execProbeTimeout dev s) :=
  .ite h.setLive.dropProbes h

theorem execLinkDown_form {dev} (h : s.Form) : NextForm (execLinkDown dev s) :=
  .ite h h.setLive.dropProbes

theorem execHostCompletion_form {k ok} (h : s.Form) : NextForm (execHostCompletion k ok s) := by
  unfold execHostCompletion
  split
  · exact h
  split
  · exact h
  split
  · exact h.failReq
  extract_lets gone
  have hgone : gone.Form := { h with }
  split
  · split
    exacts [State.Form.performReq { hgone with }, hgone]
  · split
    · exact hgone
    extract_lets granted atHome
    have hgranted : granted.Form := hgone.grant
    have hatHome : ∀ (s : State), s.Form → (atHome s).Form := fun _ h' => h'.homeRead.bind
    exact State.Form.ite h (.ite (hatHome _ hgone) (.ite hgranted.to (hatHome _ hgranted)))
  · exact { hgone with }
  · exact hgone
  · exact hgone
  · split
    · exact hgone
    split
    exacts [hgone.performFly, hgone]

theorem State.Form.bufPut {zn ps bytes} (h : s.Form) : (s.bufPut zn ps bytes).Form :=
  h.foldl (fun _ _ h' => .ite h' h'.agentWrite) _

theorem State.Form.failColl {cx x gr nd status lost} (h : s.Form) : (s.failColl cx x gr nd status lost).Form := by
  unfold State.failColl
  extract_lets _ _ s' s''
  have hs' : s'.Form := by
    refine State.Form.foldl ?_ (fun _ _ h' => h'.logError) _
    exact { h with }
  have hs'' : s''.Form := by
    unfold s''
    split
    exacts [.ite hs'.bufPut hs', hs']
  exact hs''.retireNode

theorem State.Form.raiseClock {zn cx x} (h : s.Form) : (s.raiseClock zn cx x).Form :=
  h.updZone

theorem State.Form.endColl {cx x gr nd} (h : s.Form) : (s.endColl cx x gr nd).Form :=
  h.raiseClock.retireNode

theorem State.Form.writeColl {cx x gr nd bytes} (h : s.Form) : (s.writeColl cx x gr nd bytes).Form := by
  unfold State.writeColl
  split
  · exact h.failColl
  split
  · exact h.failColl
  extract_lets _ t
  have ht : t.Form := h.bufPut.foldl (fun _ _ h' => h'.send) _
  exact .ite ht.endColl ht.updGraph

theorem execCollectiveRetire_form {gr nd status inputs} (h : s.Form) : NextForm (execCollectiveRetire gr nd status inputs s) := by
  unfold execCollectiveRetire
  split
  · exact h
  extract_lets
  split
  · exact h
  split
  · exact h
  split
  · exact h
  extract_lets _ e
  split
  · exact h.failColl
  · exact h.failColl
  extract_lets
  split
  · exact h.failColl
  split
  · exact h.failColl
  split
  · exact State.Form.ite h h.endColl
  split
  · exact h
  split
  exacts [h.failColl, h.writeColl]

theorem State.Form.slew {n bound} (h : s.Form) : (s.slew n bound).Form :=
  .ite { h with } h

theorem State.Form.stepTime {n} (h : s.Form) : (s.stepTime n).Form :=
  { h with groups := risingKeys_map h.groups fun _ => rfl }

theorem State.Form.leaveHoldover {t} (h : s.Form) : (s.leaveHoldover t).Form :=
  State.Form.setTime { h with }

theorem execPtpMessage_form {locked now} (h : s.Form) : NextForm (execPtpMessage locked now s) := by
  unfold execPtpMessage
  split
  · exact h
  split
  exacts [h.stepTime.setTime, h.slew.setTime, h.slew, h.slew, h.slew.leaveHoldover, h]

theorem execPpsEdge_form {now} (h : s.Form) : NextForm (execPpsEdge now s) := by
  unfold execPpsEdge
  split
  · exact h
  split
  exacts [h.slew, h.slew, h]

theorem execReferenceLoss_form (h : s.Form) : NextForm (execReferenceLoss s) :=
  State.Form.ite (State.Form.setTime { h with }) h

theorem execHoldoverExpiry_form (h : s.Form) : NextForm (execHoldoverExpiry s) :=
  .ite (State.Form.leaveHoldover { h with }) h

theorem execIllegalWord_form {opc} (h : s.Form) : NextForm (execIllegalWord opc s) := by
  unfold execIllegalWord
  split
  · trivial
  rename_i e
  exact (h.view e).illop

/-! ### Machine/Float -/

theorem fbin_form {i x} {f : Ty → FEnv → ℕ → ℕ → ℕ × Flags} (h : s.Form) : NextForm (fbin i s x f) :=
  laneOp_form h

theorem fter_form {i x} (h : s.Form) : NextForm (fter i s x) :=
  laneOp_form h

theorem packedBin_form {i x} {f : Ty → FEnv → ℕ → ℕ → ℕ × Flags} (h : s.Form) : NextForm (packedBin i s x f) :=
  laneOp_form h

theorem fminmax_form {i x big} (h : s.Form) : NextForm (fminmax i s x big) :=
  laneOp_form h

theorem packedMinmax_form {i x big} (h : s.Form) : NextForm (packedMinmax i s x big) :=
  laneOp_form h

theorem fsetp_form {i x} (h : s.Form) : NextForm (fsetp i s x) :=
  laneOp_form h

theorem execFadd_form {x} (h : s.Form) : NextForm (execFadd x s) :=
  fbin_form h

theorem execFsub_form {x} (h : s.Form) : NextForm (execFsub x s) :=
  fbin_form h

theorem execFmul_form {x} (h : s.Form) : NextForm (execFmul x s) :=
  fbin_form h

theorem execFfma_form {x} (h : s.Form) : NextForm (execFfma x s) :=
  fter_form h

theorem execFmin_form {x} (h : s.Form) : NextForm (execFmin x s) :=
  fminmax_form h

theorem execFmax_form {x} (h : s.Form) : NextForm (execFmax x s) :=
  fminmax_form h

theorem execFsetp_form {x} (h : s.Form) : NextForm (execFsetp x s) :=
  fsetp_form h

theorem execFclass_form {x} (h : s.Form) : NextForm (execFclass x s) :=
  laneOp_form h

theorem execFscale_form {x} (h : s.Form) : NextForm (execFscale x s) :=
  laneOp_form h

theorem execFrnd_form {x} (h : s.Form) : NextForm (execFrnd x s) :=
  laneOp_form h

theorem execHadd2_form {x} (h : s.Form) : NextForm (execHadd2 x s) :=
  packedBin_form h

theorem execHmul2_form {x} (h : s.Form) : NextForm (execHmul2 x s) :=
  packedBin_form h

theorem execHfma2_form {x} (h : s.Form) : NextForm (execHfma2 x s) :=
  laneOp_form h

theorem execHmin2_form {x} (h : s.Form) : NextForm (execHmin2 x s) :=
  packedMinmax_form h

theorem execHmax2_form {x} (h : s.Form) : NextForm (execHmax2 x s) :=
  packedMinmax_form h

theorem execDadd_form {x} (h : s.Form) : NextForm (execDadd x s) :=
  fbin_form h

theorem execDmul_form {x} (h : s.Form) : NextForm (execDmul x s) :=
  fbin_form h

theorem execDfma_form {x} (h : s.Form) : NextForm (execDfma x s) :=
  fter_form h

theorem execDsetp_form {x} (h : s.Form) : NextForm (execDsetp x s) :=
  fsetp_form h

theorem execDmin_form {x} (h : s.Form) : NextForm (execDmin x s) :=
  fminmax_form h

theorem execDmax_form {x} (h : s.Form) : NextForm (execDmax x s) :=
  fminmax_form h

/-! ### Machine/Integer -/

theorem intBin_form {i ty sat a b} {f : ℤ → ℤ → ℤ} (h : s.Form) : NextForm (intBin i s ty sat a b f) :=
  laneOp_form h

theorem intUn_form {i ty sat a} {f : ℤ → ℤ} (h : s.Form) : NextForm (intUn i s ty sat a f) :=
  laneOp_form h

theorem bitBin_form {i ty a b} {f : ℕ → ℕ → ℕ} (h : s.Form) : NextForm (bitBin i s ty a b f) :=
  laneOp_form h

theorem execMov_form {x} (h : s.Form) : NextForm (execMov x s) :=
  laneOp_form h

theorem execMovi_form {x} (h : s.Form) : NextForm (execMovi x s) := by
  unfold execMovi
  split
  exacts [issue_form h (fun _ _ h' => h'.issued), laneOp_form h]

theorem execMovs_form {x} (h : s.Form) : NextForm (execMovs x s) :=
  laneOp_form h

theorem execMovv_form {x} (h : s.Form) : NextForm (execMovv x s) :=
  issue_form h (fun _ _ h' => h'.issued)

theorem execIadd_form {x} (h : s.Form) : NextForm (execIadd x s) :=
  intBin_form h

theorem execIsub_form {x} (h : s.Form) : NextForm (execIsub x s) :=
  intBin_form h

theorem execImul_form {x} (h : s.Form) : NextForm (execImul x s) :=
  intBin_form h

theorem execImulh_form {x} (h : s.Form) : NextForm (execImulh x s) :=
  intBin_form h

theorem execImin_form {x} (h : s.Form) : NextForm (execImin x s) :=
  intBin_form h

theorem execImax_form {x} (h : s.Form) : NextForm (execImax x s) :=
  intBin_form h

theorem execIabs_form {x} (h : s.Form) : NextForm (execIabs x s) :=
  intUn_form h

theorem execIneg_form {x} (h : s.Form) : NextForm (execIneg x s) :=
  intUn_form h

theorem execImad_form {x} (h : s.Form) : NextForm (execImad x s) :=
  laneOp_form h

theorem execImadw_form {x} (h : s.Form) : NextForm (execImadw x s) :=
  laneOp_form h

theorem execIaddc_form {x} (h : s.Form) : NextForm (execIaddc x s) :=
  laneOp_form h

theorem execIsubb_form {x} (h : s.Form) : NextForm (execIsubb x s) :=
  laneOp_form h

theorem execIdiv_form {x} (h : s.Form) : NextForm (execIdiv x s) :=
  laneOp_form h

theorem execIrem_form {x} (h : s.Form) : NextForm (execIrem x s) :=
  laneOp_form h

theorem execAnd_form {x} (h : s.Form) : NextForm (execAnd x s) :=
  bitBin_form h

theorem execOr_form {x} (h : s.Form) : NextForm (execOr x s) :=
  bitBin_form h

theorem execXor_form {x} (h : s.Form) : NextForm (execXor x s) :=
  bitBin_form h

theorem execAndn_form {x} (h : s.Form) : NextForm (execAndn x s) :=
  bitBin_form h

theorem execNot_form {x} (h : s.Form) : NextForm (execNot x s) :=
  laneOp_form h

theorem shiftOp_form {i x} {f : ℕ → ℕ → ℕ → ℕ} (h : s.Form) : NextForm (shiftOp i s x f) :=
  laneOp_form h

theorem execShl_form {x} (h : s.Form) : NextForm (execShl x s) :=
  shiftOp_form h

theorem execShr_form {x} (h : s.Form) : NextForm (execShr x s) :=
  shiftOp_form h

theorem execSar_form {x} (h : s.Form) : NextForm (execSar x s) :=
  shiftOp_form h

theorem execRot_form {x} (h : s.Form) : NextForm (execRot x s) :=
  shiftOp_form h

theorem execFshl_form {x} (h : s.Form) : NextForm (execFshl x s) :=
  laneOp_form h

theorem bitUn_form {i x} {f : ℕ → ℕ → ℕ} (h : s.Form) : NextForm (bitUn i s x f) :=
  laneOp_form h

theorem execPopc_form {x} (h : s.Form) : NextForm (execPopc x s) :=
  bitUn_form h

theorem execClz_form {x} (h : s.Form) : NextForm (execClz x s) :=
  bitUn_form h

theorem execCtz_form {x} (h : s.Form) : NextForm (execCtz x s) :=
  bitUn_form h

theorem execBrev_form {x} (h : s.Form) : NextForm (execBrev x s) :=
  bitUn_form h

theorem execBfx_form {x} (h : s.Form) : NextForm (execBfx x s) :=
  laneOp_form h

theorem execBfi_form {x} (h : s.Form) : NextForm (execBfi x s) :=
  laneOp_form h

theorem execIsetp_form {x} (h : s.Form) : NextForm (execIsetp x s) :=
  laneOp_form h

theorem execIsel_form {x} (h : s.Form) : NextForm (execIsel x s) :=
  laneOp_form h

theorem execLea_form {x} (h : s.Form) : NextForm (execLea x s) :=
  laneOp_form h

theorem execLeax_form {x} (h : s.Form) : NextForm (execLeax x s) :=
  laneOp_form h

/-! ### Machine/Promotion -/

theorem State.Form.respill {tk} (h : s.Form) : (s.respill tk).Form := by
  unfold State.respill
  split
  · exact h
  split
  · exact h
  rename_i cx _
  have hw : ∀ va bytes, AllSome State.Form (s.exWrite cx va bytes).toOption := fun _ _ => h.exWrite.toOption
  generalize (s.teamBlock cx tk _ 0).1 = bytes
  split
  exacts [h.getD (hw _ _), h]

theorem State.Form.promote {vs} (h : w.s.Form) : (w.promote vs).1.Form := by
  unfold View.promote
  extract_lets _ s
  have hs : s.Form := h.foldl (fun _ _ h' => State.Form.respill (.ite ((h'.foldl (fun _ _ h'' => h''.updGroup) _).updTeam) (((h'.foldl
    (fun _ _ h'' => h''.updGroup) _).updTeam).expireCore))) _
  exact hs

theorem execAcqr_form {x} (h : s.Form) : NextForm (execAcqr x s) :=
  issue_form h (fun _ _ h' => .ite h'.trapHere (.ite h'.hold (.ite (State.Form.hold (h'.foldl (fun _ _ h'' => h''.updTeam) _)) (.ite h'.hold
    (State.Form.issued (State.Form.updTeam (State.Form.promote h')))))))

/-! ### Machine/Special -/

theorem specOp_form {i op x} (h : s.Form) : NextForm (specOp i s op x) :=
  laneOp_form h

theorem execRcp_form {x} (h : s.Form) : NextForm (execRcp x s) :=
  specOp_form h

theorem execRsq_form {x} (h : s.Form) : NextForm (execRsq x s) :=
  specOp_form h

theorem execSqrt_form {x} (h : s.Form) : NextForm (execSqrt x s) :=
  specOp_form h

theorem execEx2_form {x} (h : s.Form) : NextForm (execEx2 x s) :=
  specOp_form h

theorem execLg2_form {x} (h : s.Form) : NextForm (execLg2 x s) :=
  specOp_form h

theorem execSinpi_form {x} (h : s.Form) : NextForm (execSinpi x s) :=
  specOp_form h

theorem execCospi_form {x} (h : s.Form) : NextForm (execCospi x s) :=
  specOp_form h

theorem execTanh_form {x} (h : s.Form) : NextForm (execTanh x s) :=
  specOp_form h

theorem execCvtff_form {x} (h : s.Form) : NextForm (execCvtff x s) :=
  laneOp_form h

theorem execCvtfi_form {x} (h : s.Form) : NextForm (execCvtfi x s) :=
  laneOp_form h

theorem execCvtif_form {x} (h : s.Form) : NextForm (execCvtif x s) :=
  laneOp_form h

theorem execPackn_form {x} (h : s.Form) : NextForm (execPackn x s) :=
  laneOp_form h

theorem execUnpackn_form {x} (h : s.Form) : NextForm (execUnpackn x s) :=
  laneOp_form h

theorem execScaleb_form {x} (h : s.Form) : NextForm (execScaleb x s) :=
  laneOp_form h

theorem execRand_form {x} (h : s.Form) : NextForm (execRand x s) :=
  laneOp_form h

theorem execCvtsr_form {x} (h : s.Form) : NextForm (execCvtsr x s) :=
  laneOp_form h

/-! ### Machine/Dispatch -/

theorem exec_form {i} (h : s.Form) : NextForm (exec i s) := by
  unfold exec
  split
  · exact execMov_form h
  · exact execMovi_form h
  · exact execMovs_form h
  · exact execMovv_form h
  · exact execIadd_form h
  · exact execIaddc_form h
  · exact execIsub_form h
  · exact execIsubb_form h
  · exact execImul_form h
  · exact execImulh_form h
  · exact execImad_form h
  · exact execImadw_form h
  · exact execIdiv_form h
  · exact execIrem_form h
  · exact execImin_form h
  · exact execImax_form h
  · exact execIabs_form h
  · exact execIneg_form h
  · exact execAnd_form h
  · exact execOr_form h
  · exact execXor_form h
  · exact execAndn_form h
  · exact execNot_form h
  · exact execShl_form h
  · exact execShr_form h
  · exact execSar_form h
  · exact execRot_form h
  · exact execFshl_form h
  · exact execPopc_form h
  · exact execClz_form h
  · exact execCtz_form h
  · exact execBrev_form h
  · exact execBfx_form h
  · exact execBfi_form h
  · exact execIsetp_form h
  · exact execIsel_form h
  · exact execLea_form h
  · exact execLeax_form h
  · exact execFadd_form h
  · exact execFsub_form h
  · exact execFmul_form h
  · exact execFfma_form h
  · exact execFmin_form h
  · exact execFmax_form h
  · exact execFsetp_form h
  · exact execFclass_form h
  · exact execFscale_form h
  · exact execFrnd_form h
  · exact execHadd2_form h
  · exact execHmul2_form h
  · exact execHfma2_form h
  · exact execHmin2_form h
  · exact execHmax2_form h
  · exact execDadd_form h
  · exact execDmul_form h
  · exact execDfma_form h
  · exact execDsetp_form h
  · exact execDmin_form h
  · exact execDmax_form h
  · exact execRcp_form h
  · exact execRsq_form h
  · exact execSqrt_form h
  · exact execEx2_form h
  · exact execLg2_form h
  · exact execSinpi_form h
  · exact execCospi_form h
  · exact execTanh_form h
  · exact execCvtff_form h
  · exact execCvtfi_form h
  · exact execCvtif_form h
  · exact execPackn_form h
  · exact execUnpackn_form h
  · exact execScaleb_form h
  · exact execRand_form h
  · exact execCvtsr_form h
  · exact execPart_form h
  · exact execVote_form h
  · exact execShfl_form h
  · exact execRedux_form h
  · exact execScan_form h
  · exact execMatch_form h
  · exact execElect_form h
  · exact execBcast_form h
  · exact execBra_form h
  · exact execBrx_form h
  · exact execCall_form h
  · exact execCallx_form h
  · exact execRet_form h
  · exact execLand_form h
  · exact execExit_form h
  · exact execYield_form h
  · exact execPause_form h
  · exact execSleep_form h
  · exact execNop_form h
  · exact execCbarm_form h
  · exact execCbwait_form h
  · exact execBar_form h
  · exact execBarc_form h
  · exact execLd_form h
  · exact execSt_form h
  · exact execLds_form h
  · exact execSts_form h
  · exact execLdp_form h
  · exact execStp_form h
  · exact execLdx_form h
  · exact execStx_form h
  · exact execMcst_form h
  · exact execLdc_form h
  · exact execLdun_form h
  · exact execPref_form h
  · exact execWbp_form h
  · exact execWbpAll_form h
  · exact execQpop_form h
  · exact execQpeek_form h
  · exact execFpush_form h
  · exact execFpop_form h
  · exact execAtom_form h
  · exact execAtoms_form h
  · exact execAtomx_form h
  · exact execRed_form h
  · exact execFence_form h
  · exact execXfence_form h
  · exact execAcq_form h
  · exact execRel_form h
  · exact execAcqr_form h
  · exact execPtsrd_form h
  · exact execLease_form h
  · exact execSwarm_form h
  · exact execSwwait_form h
  · exact execSwgen_form h
  · exact execObjdecl_form h
  · exact execObjdrop_form h
  · exact execMxop_form h
  · exact execMxzero_form h
  · exact execMxrd_form h
  · exact execMxwr_form h
  · exact execMxst_form h
  · exact execPlane_form h
  · exact execUnplane_form h
  · exact execMxperm_form h
  · exact execMxwait_form h
  · exact execMxqry_form h
  · exact execMxepi_form h
  · exact execLeave_form h
  · exact execMxscl_form h
  · exact execCpstat_form h
  · exact execOutrdy_form h
  · exact execTcond_form h
  · exact execTdone_form h
  · exact execTspawn_form h
  · exact execTqry_form h
  · exact execAstart_form h
  · exact execAloop_form h
  · exact execAstrm_form h
  · exact execAend_form h
  · exact execTrap_form h
  · exact execRett_form h
  · exact execSrrd_form h
  · exact execSrwr_form h
  · exact execLogrd_form h
  · exact execHaltStop_form h
  · exact execHaltResume_form h
  · exact execHaltKill_form h
  · exact execSysc_form h
  · exact execEvwait_form h
  · exact execEvsigSig_form h
  · exact execEvsigAns_form h
  · exact execTlbinvVa_form h
  · exact execTlbinvCtx_form h
  · exact execTlbinvZone_form h
  · exact execFbresp_form h
  · exact execCtxsave_form h
  · exact execCtxload_form h
  · exact execCtxq_form h
  · exact execQmap_form h
  · exact execQunmap_form h
  · exact execZcreate_form h
  · exact execZdestroy_form h
  · exact execZgrow_form h
  · exact execZshrink_form h
  · exact execZslices_form h
  · exact execZwaysL2_form h
  · exact execZwaysVault_form h
  · exact execZchan_form h
  · exact execZcoins_form h
  · exact execZscrub_form h
  · exact execZcommit_form h
  · exact execZquery_form h
  · exact execCapq_form h
  · exact execFfenceFull_form h
  · exact execFfenceRel_form h
  · exact execFfenceAcq_form h
  · exact execPtprd_form h
  · exact execTimens_form h
  · exact execPeerq_form h
  · exact execRlease_form h
  · exact execFcontainFence_form h
  · exact execFcontainClear_form h
  · exact execIllegalWord_form h
  · exact execHaltsib_form h
  · exact execArithlog_form h
  · exact execInstructionComplete_form h
  · exact execSlotRefill_form h
  · exact execHoldExpiry_form h
  · exact execSleepExpiry_form h
  · exact execBarRelease_form h
  · exact execBarcRelease_form h
  · exact execGroupRetire_form h
  · exact execPtsWindowTick_form h
  · exact execGrantL2_form h
  · exact execLineFill_form h
  · exact execRenewalReturn_form h
  · exact execEpochRollover_form h
  · exact execStoreBufferLeave_form h
  · exact execPerformAtHome_form h
  · exact execStoreAck_form h
  · exact execWalk_form h
  · exact execFaultRecord_form h
  · exact execBankReqmode_form h
  · exact execWriteback_form h
  · exact execWaitrelease_form h
  · exact execZerofill_form h
  · exact execPeerAccessResume_form h
  · exact execMxopAccept_form h
  · exact execMatrixOpStart_form h
  · exact execMatrixOpComplete_form h
  · exact execLeaveGrant_form h
  · exact execLeaveReturn_form h
  · exact execGovernorPeriod_form h
  · exact execPowerSample_form h
  · exact execKick_form h
  · exact execDirectoryW1c_form h
  · exact execPacketFetch_form h
  · exact execNodeReady_form h
  · exact execClusterPlace_form h
  · exact execNodeDispatch_form h
  · exact execConditionRead_form h
  · exact execNodeRetire_form h
  · exact execCompletionRecord_form h
  · exact execTramLine_form h
  · exact execCopyEnd_form h
  · exact execStreamStart_form h
  · exact execStreamRead_form h
  · exact execCoinPeriod_form h
  · exact execEventPlace_form h
  · exact execEvwaitTimeout_form h
  · exact execSliceChange_form h
  · exact execStopRequest_form h
  · exact execTeamStopped_form h
  · exact execOverrun_form h
  · exact execMigration_form h
  · exact execImageUpdate_form h
  · exact execScrubEnd_form h
  · exact execDepartureEnd_form h
  · exact execWayFree_form h
  · exact execSweepEnd_form h
  · exact execMigrationBatch_form h
  · exact execZoneCommit_form h
  · exact execRemoteRequest_form h
  · exact execRemoteResponse_form h
  · exact execHeldWriteRelease_form h
  · exact execFenceAssistAnswer_form h
  · exact execSuspect_form h
  · exact execProbeTimeout_form h
  · exact execLinkDown_form h
  · exact execRemoteFailure_form h
  · exact execRemote_form h
  · exact execCollectiveRetire_form h
  · exact execPtpMessage_form h
  · exact execPpsEdge_form h
  · exact execHoldoverExpiry_form h
  · exact execReferenceLoss_form h
  · exact execHostCompletion_form h
  · exact execHostRequest_form h
  · exact execChipletFence_form h
  · exact execChipletPowerOff_form h
  · exact execChipletReset_form h
  · exact execResetDone_form h
  · exact execChipletError_form h
  · exact execExchangeTakeover_form h
  · exact execCoreFence_form h
  · exact execChannelLoss_form h
  · exact execHealthW1c_form h
  · exact execColdReset_form h
  · exact execAttestationRequest_form h
  · exact execRegisterWrite_form h
  · exact execSweepVisit_form h

/-! ### Machine/Schedule -/

theorem State.Form.correctReads {i} (h : s.Form) : (s.correctReads i).Form := by
  unfold State.correctReads
  split
  · exact h
  extract_lets _ _ _ _ s' s''
  have hs' : s'.Form := h.foldl (fun _ _ h' => h'.countCorrected) _
  have hs'' : s''.Form := .ite hs' hs'.updQuad
  exact .ite h (.ite h (.ite hs'' hs''.updGroup))

theorem State.Form.at_ {u pc} (h : s.Form) : (s.at_ u pc).Form :=
  { h with }

theorem State.Form.atHeld {u pc m} (h : s.Form) : (s.atHeld u pc m).Form :=
  { h with }

theorem State.Form.goOn {u pc m} (h : s.Form) : NextForm (s.goOn u pc m) := by
  unfold State.goOn
  extract_lets s'
  have hs' : s'.Form := h.atHeld
  split
  · exact hs'
  rename_i e
  split
  exacts [exec_form hs'.correctReads, (hs'.view e).awaitWalk, (hs'.view e).trapHere]

theorem State.Form.issueAlone {u pc} (h : s.Form) : NextForm (s.issueAlone u pc) := by
  unfold State.issueAlone
  extract_lets s'
  have hs' : s'.Form := h.at_
  split
  · exact hs'
  rename_i e
  split
  · exact exec_form hs'.correctReads
  · exact hs'
  · exact (hs'.view e).hold
  · exact (hs'.view e).awaitWalk
  · exact (hs'.view e).trapHere

theorem State.Form.half {u a i} (h : s.Form) : NextForm (s.half u a i) :=
  exec_form h.atHeld.correctReads

theorem State.Form.freeLatch {u bad} (h : s.Form) : (s.freeLatch u bad).Form :=
  { h with groups := risingKeys_upd _ _ _ h.groups }

theorem State.Form.blindHalf {u a bad} (h : s.Form) : NextForm (s.blindHalf u a bad) := by
  unfold State.blindHalf
  extract_lets _ s1
  have hs1 : s1.Form := h.atHeld
  split
  · rename_i e
    have ht := NextForm.of_eq (exec_form (State.Form.correctReads (hs1.frame (by rfl) (by rfl) (by rfl) (by rfl)))) e
    exact State.Form.ite ht.freeLatch ht
  · exact exec_form (State.Form.correctReads { hs1 with })

theorem withPair_form {u a b x} (h : NextForm x) : NextForm (withPair u a b x) := by
  unfold withPair
  split
  exacts [{ h.get with groups := risingKeys_upd _ _ _ h.get.groups }, h]

theorem State.Form.thenHalf {u : ℕ} {b cede alone x} (h : NextForm alone) (hx : NextForm x) : NextForm (State.thenHalf u b cede alone x) := by
  unfold State.thenHalf
  split
  · extract_lets o
    have ho : NextForm o := State.Form.half { hx.get with groups := risingKeys_upd _ _ _ hx.get.groups }
    exact .ite h ho
  · exact hx

theorem State.Form.both {u a b cede alone} (h : s.Form) (halone : NextForm alone) : NextForm (s.both u a b cede alone) :=
  State.Form.thenHalf halone h.half

theorem State.Form.issuePair {u a b} (h : s.Form) : NextForm (s.issuePair u a b) := by
  unfold State.issuePair
  extract_lets i j cede ra rb wa wb
  have hra : NextForm ra := h.half
  have hrb : NextForm rb := h.half
  refine .ite ?_ (.ite hra (.ite ?_ (.ite (withPair_form hrb) (.ite (withPair_form hra) (.ite (h.both hra) (h.both hra))))))
  · split
    rename_i lo hi rlo e
    have hlo : NextForm rlo := by
      split at e
      all_goals cases e
      exacts [hra, hrb]
    split
    · extract_lets r
      have hr : NextForm r := h.blindHalf
      exact .ite hlo (.ite (withPair_form hr) (State.Form.thenHalf hlo hr))
    · exact hlo
  · exact withPair_form (.ite hrb hra)

theorem State.Form.issueTwo {u a b} (h : s.Form) : NextForm (s.issueTwo u a b) := by
  unfold State.issueTwo
  split
  · split
    exacts [.ite h.issueAlone (.ite h.issueAlone (.ite h.issuePair h.issueAlone)), .ite h.issueAlone h.issueAlone, h.issueAlone]
  · exact h

theorem State.Form.issueHeld {u g pc} (h : s.Form) : NextForm (s.issueHeld u g pc) := by
  unfold State.issueHeld
  split
  · exact h.goOn
  · exact h.goOn
  extract_lets
  split
  exacts [h.issuePair, h.goOn, h.goOn]

theorem State.Form.issueGroup {u} (h : s.Form) : NextForm (s.issueGroup u) := by
  unfold State.issueGroup
  split
  · exact h
  split
  · exact h
  split
  · split
    exacts [h.issueHeld, h]
  · split
    · exact h
    split
    exacts [h.issueAlone, h.issueTwo]

theorem State.Form.noteIssue {u} (ht : t.Form) : (s.noteIssue t u).Form := by
  unfold State.noteIssue
  split
  · exact ht
  extract_lets _ t' t''
  have ht' : t'.Form := .ite ht ht.updQuad
  have ht'' : t''.Form := ht'.payIssue
  exact .ite ht'' { ht'' with }

theorem State.Form.issueFirst {us} (h : s.Form) : NextForm (s.issueFirst us) := by
  induction us generalizing s with
  | nil => exact h
  | cons u us ih =>
    unfold State.issueFirst
    have hg : NextForm (s.issueGroup u) := h.issueGroup
    split
    · rename_i t e
      have ht : t.Form := hg.of_eq e
      have hn : (s.noteIssue t u).Form := ht.noteIssue
      exact .ite hn (ih ht)
    · exact hg

theorem State.Form.issueQuad {quad busy} (h : s.Form) : NextForm (s.issueQuad quad busy) :=
  h.issueFirst

theorem State.Form.wake (h : s.Form) : s.wake.Form :=
  .ite h { h with groups := risingKeys_map h.groups fun _ => rfl }

theorem State.Form.leaveOut {u} (h : s.Form) : (s.leaveOut u).Form := by
  unfold State.leaveOut
  split
  · exact h
  split
  · exact h
  extract_lets t
  have ht : t.Form := by
    unfold t
    split
    · split
      · split
        · rename_i e
          exact .ite (State.Form.hold (State.Form.of_view e h.at_)) h
        · exact h
      · exact h
    · split
      · split
        · rename_i e'
          exact .ite (NextForm.of_eq h.issueHeld e') h
        · exact h
      · exact h
  exact { ht with }

theorem State.Form.leaveWaits (h : s.Form) : s.leaveWaits.Form :=
  h.foldl (fun _ _ h' => h'.leaveOut) _

theorem State.Form.upset {x} (h : s.Form) : (s.upset x).Form := by
  unfold State.upset
  split
  · split
    exacts [h, h.setGroup.logError]
  · exact h.updQuad.logError
  · exact { h with }
  · exact h.updGroup
  · exact h.updQuad
  · exact h.countCorrected

theorem State.Form.evict {level key} (h : s.Form) : (s.evict level key).Form := by
  unfold State.evict
  split
  · exact { h with }
  · exact { h with }
  · exact h.evictHome
  split
  exacts [h, (h.foldl (fun _ _ h' => h'.writeLine) _).setGroup]

theorem State.Form.take {x} (h : s.Form) : NextForm (s.take x) := by
  unfold State.take
  split
  · exact .ite (exec_form h) h
  · exact h.issueQuad
  · exact h.evict
  · exact { h with hostMem := wf_writeBytes _ _ _ h.hostMem }
  · exact h.charge
  · exact h.arrive
  · exact { h with }
  · exact h.upset
  · exact State.Form.closeWindows { h with }

theorem groupEvents_keep {u g} : EventsKeep (groupEvents u g) := by
  unfold groupEvents
  simp only [eventsKeep_append, eventsKeep_cons, eventsKeep_nil, and_true, and_assoc]
  exact ⟨fun _ => execHaltsib_form, fun _ => execArithlog_form, fun _ => execRemote_form, fun _ => execWalk_form,
    fun _ => execFaultRecord_form, fun _ => execMxopAccept_form,
    .map (fun _ _ => execInstructionComplete_form) _,
    .flatMap (fun _ => .flatMap (fun _ => by
      simpa using ⟨fun _ => execGrantL2_form, fun _ => execLineFill_form, fun _ => execRenewalReturn_form⟩) _) _,
    fun _ => execStoreBufferLeave_form,
    .flatMap (fun _ => by simpa using ⟨fun _ => execPerformAtHome_form, fun _ => execStoreAck_form⟩) _,
    .flatMap (fun _ => by simpa using ⟨fun _ => execHoldExpiry_form, fun _ => execSleepExpiry_form⟩) _,
    .flatMap (fun _ => by simpa using ⟨fun _ => execStreamStart_form, fun _ => execStreamRead_form⟩) _,
    fun _ => execEvwaitTimeout_form, fun _ => execGroupRetire_form⟩

theorem teamEvents_keep {k tm} : EventsKeep (teamEvents k tm) := by
  unfold teamEvents
  simp only [eventsKeep_append, eventsKeep_cons, eventsKeep_nil, and_true, and_assoc]
  exact ⟨.map (fun _ _ => execBarRelease_form) _, .map (fun _ _ => execBarcRelease_form) _,
    fun _ => execTeamStopped_form, fun _ => execImageUpdate_form, fun _ => execPeerAccessResume_form⟩

theorem graphEvents_keep {gr g} : EventsKeep (graphEvents gr g) := by
  unfold graphEvents
  simp only [eventsKeep_append, eventsKeep_cons, eventsKeep_nil, and_true]
  refine ⟨.flatMap (fun nd => ?_) _, fun _ => execCompletionRecord_form⟩
  simpa using ⟨fun _ => execConditionRead_form, fun _ => execNodeReady_form, fun _ => execNodeDispatch_form, fun _ => execNodeRetire_form⟩

theorem State.candidates_keep (s : State) : EventsKeep s.candidates := by
  unfold State.candidates
  simp only [eventsKeep_append, and_assoc]
  exact ⟨.flatMap (fun _ => groupEvents_keep) _, .flatMap (fun _ => teamEvents_keep) _,
    .flatMap (fun _ => by simpa using ⟨fun _ => execMatrixOpStart_form, fun _ => execMatrixOpComplete_form⟩) _,
    .map (fun _ _ => execLeaveGrant_form) _,
    .flatMap (fun _ => by simpa using ⟨fun _ => execTramLine_form, fun _ => execCopyEnd_form⟩) _,
    .map (fun _ _ => execPacketFetch_form) _, .flatMap (fun _ => graphEvents_keep) _, .map (fun _ _ => execHeldWriteRelease_form) _,
    .flatMap (fun _ => by
      simpa using ⟨fun _ => execWriteback_form, fun _ => execWaitrelease_form, fun _ => execZerofill_form, fun _ => execScrubEnd_form⟩) _,
    .map (fun _ _ => execScrubEnd_form) _, .flatMap (fun _ => .map (fun _ _ => execSweepEnd_form) _) _,
    .flatMap (fun _ => by
      simpa using ⟨fun _ => execDepartureEnd_form, fun _ => execWayFree_form, fun _ => execMigrationBatch_form, fun _ => execZoneCommit_form⟩) _,
    .map (fun _ _ => execEpochRollover_form) _, .map (fun _ _ => execEventPlace_form) _,
    .flatMap (fun _ => .map (fun _ _ => execSlotRefill_form) _) _⟩

theorem State.Form.after {e : State → Out} (h : s.Form) (he : ∀ (s : State), s.Form → NextForm (e s)) : AllSome State.Form (s.after e) := by
  unfold State.after
  split
  · rename_i e'
    exact .ite trivial (NextForm.of_eq (he _ h) e')
  · trivial

theorem State.Form.candidate (h : s.Form) (e : s.candidates.findSome? s.after = some t) : t.Form := by
  obtain ⟨f, hf, ht⟩ := List.exists_of_findSome?_eq_some e
  have hs : AllSome State.Form (s.after f) := h.after (s.candidates_keep f hf)
  exact hs.of_eq ht

theorem State.Form.idle (h : s.Form) : NextForm s.idle := by
  unfold State.idle
  split
  · exact execColdReset_form h
  · exact h
  split
  · rename_i e
    exact h.candidate e
  split
  exacts [h.issueQuad, h]

theorem State.Form.giveSlot {u g} (h : s.Form) : AllSome State.Form (s.giveSlot u g) :=
  .ite trivial (.map (fun _ => h.updGroup.updGroup))

theorem State.Form.force {u k} (h : s.Form) : AllSome NextForm (s.force u k) := by
  unfold State.force
  split
  · rename_i e
    exact h.candidate e
  · rename_i g _ _
    split
    · extract_lets o
      have ho : NextForm o := by
        simp only [o]
        split
        exacts [.ite h.issueAlone h.issueHeld, h.issueAlone]
      clear_value o
      split
      · exact .ite (NextForm.get ho).noteIssue trivial
      · exact ho
    · exact h.giveSlot.map_of fun _ h' => h'
  · trivial

theorem State.Form.cycleEnd (h : s.Form) : s.cycleEnd.Form := by
  unfold State.cycleEnd
  extract_lets t
  have ht : t.Form := h.closeWindows.lendAll.rotate.chargeOverruns.returnLeaves.servePosts.serveMailbox
  have hc : NextForm (execCoinPeriod t) := execCoinPeriod_form ht
  split
  · split
    · rename_i e
      exact hc.of_eq e
    · exact ht
  · exact ht

theorem nextCycle_form {x} (h : NextForm x) : NextForm (nextCycle x) := by
  unfold nextCycle
  split
  exacts [State.Form.cycleEnd { h.get.leaveWaits.wake with }, h]

theorem State.Form.advance (h : s.Form) : NextForm s.advance := by
  unfold State.advance
  split
  · rename_i o _ e
    obtain ⟨x, -, hx⟩ := Option.bind_eq_some_iff.1 e
    have hf : AllSome NextForm (s.force x.1 x.2) := h.force
    rw [hx] at hf
    exact nextCycle_form hf
  · exact nextCycle_form (State.Form.take { h with })
  · exact nextCycle_form h.idle
end

/-- Settles O58: what a step may call leaves a state of the form, one lemma per function of the model (`State.Form.advance` at the top). -/
theorem stepKeepsForm : Obligations.StepKeepsForm := by
  unfold Obligations.StepKeepsForm
  intro s t ⟨hmem, hhost, hgroups, hteams⟩ hstep
  have ht : t.Form := NextForm.of_eq (State.Form.advance ⟨hmem, hhost, hgroups, hteams⟩) hstep
  exact ⟨ht.mem, ht.hostMem, ht.groups, ht.teams⟩

end Sys2Proof.Machine

namespace Sys2Proof.Machine

/-! ## What a write at a home keeps: the memory but for its bytes, and the device's number -/

/-- The device's memory is m and its number d. -/
structure State.MemoryAs (m : Memory) (d : Nat) (s : State) : Prop where
  mem : s.mem = m
  devNum : s.devNum = d

section
variable {s : State} {m : Memory} {d : Nat}

theorem State.MemoryAs.spend {zn line n} (h : s.MemoryAs m d) : (s.spend zn line n).MemoryAs m d := by
  unfold State.spend
  split
  · exact h
  · exact ite_of (State.MemoryAs m d) { h with } { h with }

theorem State.MemoryAs.evictHome {key} (h : s.MemoryAs m d) : (s.evictHome key).MemoryAs m d := by
  unfold State.evictHome
  split
  · extract_lets _ s'
    have hs' : s'.MemoryAs m d := { h with }
    exact ite_of (State.MemoryAs m d) hs'.spend hs'
  · exact h

theorem State.MemoryAs.roomAt {zn cache} (h : s.MemoryAs m d) : (s.roomAt zn cache).MemoryAs m d := by
  unfold State.roomAt
  extract_lets
  refine ite_of (State.MemoryAs m d) h ?_
  split
  exacts [{ h with }, { h with }, h.evictHome, h]

theorem State.MemoryAs.storeRec {zn home line x unc} (h : s.MemoryAs m d) : (s.storeRec zn home line x unc).1.MemoryAs m d := by
  unfold State.storeRec
  extract_lets _ _ _ _ _ s' s1 s''
  have hs' : s'.MemoryAs m d := ite_of (State.MemoryAs m d) h h.spend
  have hs'' : s''.MemoryAs m d := ite_of (State.MemoryAs m d) hs' hs'.roomAt
  split
  exacts [{ hs' with }, { hs'' with }]

theorem State.MemoryAs.putHome {zn home line x unc} (h : s.MemoryAs m d) : (s.putHome zn home line x unc).MemoryAs m d := h.storeRec

theorem State.MemoryAs.touchBase {loc zn p} (h : s.MemoryAs m d) : (s.touchBase loc zn p).MemoryAs m d := by
  unfold State.touchBase
  split
  exacts [⟨h.mem, h.devNum⟩, h]

theorem State.MemoryAs.moveHere {zn home line} (h : s.MemoryAs m d) : (s.moveHere zn home line).MemoryAs m d := by
  unfold State.moveHere
  split
  · split
    exacts [h.putHome, h]
  · exact h

theorem State.MemoryAs.touchHome {zn home line p} (h : s.MemoryAs m d) : (s.touchHome zn home line p).MemoryAs m d :=
  h.touchBase.moveHere

theorem State.MemoryAs.homeWrite {zn home line p unc} (h : s.MemoryAs m d) : (s.homeWrite zn home line p unc).1.MemoryAs m d :=
  h.touchHome.putHome

end
end Sys2Proof.Machine

namespace Sys2Proof

theorem writeBytes_append (m : Memory) (a : Nat) (xs ys : List Byte) :
    writeBytes m a (xs ++ ys) = writeBytes (writeBytes m a xs) (a + xs.length) ys := by
  induction xs generalizing m a with
  | nil => rfl
  | cons x xs ih =>
    rw [List.cons_append, writeBytes, ih, writeBytes, List.length_cons]
    congr 1
    omega

namespace Machine

/-! ## The report is 512 bytes -/

theorem shakeMix_length (st : List W64) : (shakeMix st).length = st.length := by simp [shakeMix]

theorem shakeMove_length (st : List W64) : (shakeMove st).length = st.length := by
  unfold shakeMove
  refine List.foldlRecOn (motive := fun a : List W64 × Nat × Nat => a.1.length = st.length) _ _ rfl fun a ha _ _ => ?_
  exact (List.length_set ..).trans ha

theorem shakeChoose_length (st : List W64) : (shakeChoose st).length = st.length := by simp [shakeChoose]

theorem shakePerm_length (st : List W64) : (shakePerm st).length = st.length := by
  unfold shakePerm
  refine List.foldlRecOn (motive := fun l : List W64 => l.length = st.length) _ _ rfl fun l hl k _ => ?_
  have hr : (shakeChoose (shakeMove (shakeMix l))).length = st.length := by
    rw [shakeChoose_length, shakeMove_length, shakeMix_length, hl]
  split
  · rename_i e
    rw [e] at hr
    exact hr
  · rename_i e
    rw [e] at hr
    exact hr

theorem shake256_length (bs : List Byte) : (shake256 bs).length = 64 := by
  unfold shake256
  extract_lets st
  have hst : st.length = 25 := by
    refine List.foldlRecOn (motive := fun l : List W64 => l.length = 25) _ _ (List.length_replicate ..) fun l hl blk _ => ?_
    simpa [shakePerm_length] using hl
  simp [List.length_flatMap, bytesOf_length, hst]

theorem fitTo_length (n : Nat) (bs : List Byte) : (fitTo n bs).length = n := by
  simp only [fitTo, List.length_append, List.length_take, List.length_replicate]
  omega

theorem report_length (s : State) (nonce : List Byte) (zone : Nat) : (s.report nonce zone).length = 512 := by
  have hz : (if zone = 0xFF then bytesOf 64 0 else s.zoneDigest zone).length = 64 := by
    split
    exacts [bytesOf_length .., shake256_length _]
  simp only [State.report, List.length_append, bytesOf_length, fitTo_length, hz]
  rfl

/-! ## A report's bytes in memory -/

section
variable {s : State} {m : Memory} {d : Nat}

theorem paLocal_ownPa {a : Nat} (s : State) (ha : regionOf a = .hbm) : paLocal (s.ownPa a) = a := by
  have hlt : a < 2 ^ 40 := by
    unfold regionOf at ha
    split at ha
    · assumption
    · repeat' split at ha
      all_goals cases ha
  unfold paLocal State.ownPa
  omega

theorem State.MemoryAs.writeLocal {a bytes} (h : s.MemoryAs m d) (ha : regionOf a = .hbm) :
    (s.writeLocal a bytes).MemoryAs (writeBytes m a bytes) d := by
  unfold State.writeLocal
  rw [ha]
  exact ⟨congrArg (writeBytes · a bytes) h.mem, h.devNum⟩

theorem State.MemoryAs.homePut {zn a bytes} (h : s.MemoryAs m d) (ha : regionOf a = .hbm) :
    (s.homePut zn a bytes).MemoryAs (writeBytes m a bytes) d := by
  unfold State.homePut State.agentWrite
  rw [paLocal_ownPa s ha]
  exact h.homeWrite.writeLocal ha

/-- Bytes that are written piece by piece are written. -/
theorem State.MemoryAs.homePuts {unit dest zn : Nat} {bs : List Byte} (hu : 0 < unit) {f a i n : Nat} (hf : n ≤ f) (hlen : i + n ≤ bs.length)
    (hd : ∀ j, j < i + n → regionOf (dest + j) = .hbm) (h : s.MemoryAs m d) :
    ((cutWith unit f a i n).foldl (fun s p => s.homePut zn (dest + p.2.1) ((bs.drop p.2.1).take p.2.2)) s).MemoryAs
      (writeBytes m (dest + i) ((bs.drop i).take n)) d := by
  induction f generalizing s m a i n with
  | zero =>
    obtain rfl : n = 0 := by omega
    exact h
  | succ f ih =>
    unfold cutWith
    extract_lets k
    by_cases hn : n = 0
    · subst hn
      exact h
    have hmod : a % unit < unit := Nat.mod_lt _ hu
    have hk : 0 < k ∧ k ≤ n := by omega
    have hsplit : (bs.drop i).take n = (bs.drop i).take k ++ (bs.drop (i + k)).take (n - k) := by
      rw [← List.drop_drop, ← List.take_add, Nat.add_sub_cancel' hk.2]
    have hlk : ((bs.drop i).take k).length = k := by
      simp only [List.length_take, List.length_drop]
      omega
    rw [if_neg hn, List.foldl_cons, hsplit, writeBytes_append, hlk, Nat.add_assoc]
    exact ih (by omega) (by omega) (fun j hj => hd j (by omega)) (h.homePut (hd i (by omega)))

end

theorem mem_reportLines {dest a : Nat} (ha : a ∈ (List.range 5).map fun i => dest + min 511 (128 * i)) : ∃ j, j < 512 ∧ a = dest + j := by
  obtain ⟨i, _, rfl⟩ := List.mem_map.1 ha
  exact ⟨_, by omega, rfl⟩

theorem reportLine_mem {dest j : Nat} (hj : j = 511 ∨ j % 128 = 0 ∧ j < 512) : dest + j ∈ (List.range 5).map fun i => dest + min 511 (128 * i) := by
  refine List.mem_map.2 ⟨(j + 127) / 128, List.mem_range.2 (by omega), ?_⟩
  omega

theorem attest_held {s : State} {nonce : List Byte} {zone dest j : Nat} (hj : j = 511 ∨ j % 128 = 0 ∧ j < 512)
    (hh : s.homeHeld (s.lineZone (dest + j)) (s.homeOf {} {} (dest + j)) (lineOf (s.ownPa (dest + j))) = true) :
    s.attest nonce zone dest = s := by
  unfold State.attest
  extract_lets bs lines held
  refine if_neg fun hall => ?_
  have hline := List.all_eq_true.1 hall _ (reportLine_mem hj)
  simp [held, hh] at hline

theorem attest_done {s : State} {nonce : List Byte} {zone dest : Nat}
    (hfree : ∀ j, j < 512 → regionOf (dest + j) = .hbm ∧ (s.backer (dest + j)).isSome = true ∧ s.lineQueued (lineOf (s.ownPa (dest + j))) = false
      ∧ s.homeHeld (s.lineZone (dest + j)) (s.homeOf {} {} (dest + j)) (lineOf (s.ownPa (dest + j))) = false) :
    (s.attest nonce zone dest).mem = writeBytes s.mem dest (s.report nonce zone)
      ∧ (s.attest nonce zone dest).mailbox = { nonce := fitTo 32 nonce, zone := zone, dest := dest, done := true } := by
  have hw := State.MemoryAs.homePuts (s := s) (unit := 128) (f := 512) (a := dest % 128) (i := 0) (zn := 64) (dest := dest) (bs := s.report nonce zone)
    (by decide) (le_refl 512) (report_length s nonce zone).ge (fun j hj => (hfree j (by omega)).1) ⟨rfl, rfl⟩
  rw [List.drop_zero, List.take_of_length_le (report_length s nonce zone).le] at hw
  unfold State.attest
  extract_lets bs lines held
  have hall : (lines.all fun a => regionOf a == .hbm && (s.backer a).isSome && !held a) = true := by
    refine List.all_eq_true.2 fun a ha => ?_
    obtain ⟨j, hj, rfl⟩ := mem_reportLines ha
    obtain ⟨hreg, hback, hqueue, hhome⟩ := hfree j hj
    simp [held, hreg, hback, hqueue, hhome]
  rw [if_pos hall]
  exact ⟨hw.mem, rfl⟩

end Machine
end Sys2Proof

namespace Sys2Proof.Machine

/-! ## A write of a governor's RATE register -/

/-- RATE of governor d lies 8 · d bytes into its block. -/
theorem regAt_rate {d : Nat} (hd : d < 8) : regAt (0x3F0001900000 + 8 * d) = .gov d := by
  interval_cases d <;> rfl

theorem isRegLine_rate {d : Nat} (hd : d < 8) : isRegLine (lineOf (0x3F0001900000 + 8 * d)) = true := by
  interval_cases d <;> rfl

theorem cutAt_word {a : Nat} (ha : a % 8 = 0) : cutAt 8 a 8 = [(a, 0, 8)] := by
  simp [cutAt, cutWith, ha]

theorem clearBits_word (n : Nat) : clearBits (n % 2 ^ 64) (2 ^ 64 - 1) = 0 := by
  rw [clearBits, Nat.and_two_pow_sub_one_eq_mod, Nat.mod_mod, Nat.xor_self]

/-- A write of a whole aligned word leaves nothing of the register's old bits. -/
theorem writeRegs_word (s : State) (f : Writer) {a : Nat} (ha : a % 8 = 0) (v : W64) :
    s.writeRegs f a (bytesOf 8 v.toNat) = s.writeReg f a v.toNat v.toNat := by
  have hv : natOfBytes (bytesOf 8 v.toNat) = v.toNat := by
    rw [natOfBytes_bytesOf]
    exact Nat.mod_eq_of_lt v.isLt
  have hbs : (bytesOf 8 v.toNat).take 8 = bytesOf 8 v.toNat := List.take_of_length_le (bytesOf_length ..).le
  simp only [State.writeRegs, bytesOf_length, cutAt_word ha, List.foldl_cons, List.foldl_nil, List.drop_zero, hbs, hv, ha,
    Nat.mul_zero, Nat.pow_zero, Nat.mul_one]
  rw [clearBits_word, Nat.zero_add]

theorem writeReg_rate (s : State) (f : Writer) {d : Nat} (hd : d < 8) (v c : Nat) :
    s.writeReg f (0x3F0001900000 + 8 * d) v c = if f = .controller then s.updGov d fun g => { g with rate := v % 2 ^ 21 } else s := by
  unfold State.writeReg
  rw [regAt_rate hd]

theorem execRegisterWrite_rate (s : State) (f : Writer) {d : Nat} (hd : d < 8) (v : W64) :
    execRegisterWrite f (0x3F0001900000 + 8 * d) 8 v s
      = .next (if f = .controller then s.updGov d fun g => { g with rate := v.toNat % 2 ^ 21 } else s) := by
  unfold execRegisterWrite
  rw [isRegLine_rate hd, writeRegs_word s f (by omega), writeReg_rate s f hd]
  rfl

theorem execRegisterWrite_none (s : State) (f : Writer) {pa n : Nat} (v : W64) (h : isRegLine (lineOf pa) = false ∨ 8 < n) :
    execRegisterWrite f pa n v s = .next s := by
  refine if_neg fun hc => ?_
  obtain ⟨hline, hn⟩ := (Bool.and_eq_true ..).mp hc
  obtain hl | hl := h
  · simp [hl] at hline
  · exact absurd (of_decide_eq_true hn) (by omega)

/-! ## HEALTH's W1C bit -/

theorem healthW1c_eq (s : State) (f : Writer) (v : W64) :
    s.healthW1c f v = if s.writerHyp f ∧ v.getLsbD 3 = true then { s with health := { s.health with logfull := false } } else s := by
  unfold State.healthW1c
  by_cases hf : s.writerHyp f = true
  · cases hv : v.getLsbD 3
    · simp [hf]
    · simp [hf]
  · simp [hf]

end Sys2Proof.Machine

namespace Sys2Proof.Machine

/-! ## Cold reset -/

/-- What a cold reset starts from: the reset state but for what is outside the device, the clock and the inputs of bring-up. -/
def State.resetBase (s : State) : State :=
  { State.reset with sched := s.sched, nfree := s.nfree, hostMem := s.hostMem, now := s.now, cycle := s.cycle, boot := s.boot }

/-- The boot team's start leaves what the images and the inputs of bring-up gave. -/
structure BootKeeps (s t : State) : Prop where
  now : t.now = s.now
  hostMem : t.hostMem = s.hostMem
  phase : t.phase = s.phase
  capgen : t.capgen = s.capgen
  devNum : t.devNum = s.devNum
  groupBridge : t.groupBridge = s.groupBridge
  bridge : t.bridge = s.bridge
  zones : t.zones = s.zones
  ctxs : t.ctxs = s.ctxs
  mem : t.mem = s.mem

theorem AllSome.get_of_eq {α : Type} {p : α → Prop} {o : Option α} {a : α} (h : AllSome p o) (e : o = some a) : p a := by
  subst e
  exact h

section
variable {s t : State}

theorem BootKeeps.refl (s : State) : BootKeeps s s := ⟨rfl, rfl, rfl, rfl, rfl, rfl, rfl, rfl, rfl, rfl⟩

theorem BootKeeps.foldl {α : Type} {f : State → α → State} (h : BootKeeps s t) (hf : ∀ u a, BootKeeps s u → BootKeeps s (f u a)) (l : List α) :
    BootKeeps s (l.foldl f t) :=
  List.foldlRecOn (motive := BootKeeps s) l f h fun u hu a _ => hf u a hu

theorem BootKeeps.logError {kind chip unit zone pa} (h : BootKeeps s t) : BootKeeps s (t.logError kind chip unit zone pa) := { h with }

theorem BootKeeps.updQuad {q} {f : Quad → Quad} (h : BootKeeps s t) : BootKeeps s (t.updQuad q f) := { h with }

theorem BootKeeps.updGroup {k} {f : Group → Group} (h : BootKeeps s t) : BootKeeps s (t.updGroup k f) := by
  unfold State.updGroup
  split
  exacts [{ h with }, h]

theorem BootKeeps.addGroups {tk gr tm quads} (h : BootKeeps s t) : AllSome (BootKeeps s) (t.addGroups tk gr tm quads) := by
  unfold State.addGroups
  refine AllSome.foldl (p := BootKeeps s) (o := some t) h (fun r iq hr => hr.bind_of fun u hu => ?_) _
  exact .map fun _ => { hu with }

theorem BootKeeps.giveStores {tk quads} (h : BootKeeps s t) : BootKeeps s (t.giveStores tk quads) :=
  h.foldl (fun _ _ hu => hu.updQuad) _

theorem BootKeeps.placeTeam {zn gr tm core qs} (h : BootKeeps s t) : AllSome (BootKeeps s) (t.placeTeam zn gr tm core qs) := by
  unfold State.placeTeam
  extract_lets
  split
  · trivial
  split
  · trivial
  split
  · extract_lets _ t'
    have ht' : BootKeeps s t' := { h with }
    split
    · trivial
    rename_i u e
    have hu : BootKeeps s u := ht'.addGroups.get_of_eq e
    split
    · split
      exacts [hu.giveStores, hu]
    · trivial
  · trivial

theorem BootKeeps.launchTeam {tk} (h : BootKeeps s t) : BootKeeps s (t.launchTeam tk) := by
  unfold State.launchTeam
  split
  · exact h
  split
  · exact h
  · refine BootKeeps.foldl ?_ (fun _ _ hu => hu.updGroup) _
    exact { h with }

theorem BootKeeps.bootTeam {header} (h : BootKeeps s t) : AllSome (BootKeeps s) (t.bootTeam header) := by
  unfold State.bootTeam
  split
  · trivial
  split
  · trivial
  extract_lets
  split
  · trivial
  split
  exacts [trivial, .map_of h.placeTeam fun _ hu => hu.launchTeam]

end

/-- What the images and the inputs of bring-up give a device that starts (R439, R440). -/
structure BroughtUp (s : State) (b : Boot) (t : State) : Prop where
  now : t.now = s.now
  hostMem : t.hostMem = s.hostMem
  phase : t.phase = .running
  capgen : t.capgen = 1
  devNum : t.devNum = b.device % 1024
  groupBridge : t.groupBridge = b.groupBridge
  bridge : t.bridge = (b.groupBridge == some (b.device % 1024))
  zones : ∃ z, t.zones = [(64, z)]
  ctxs : t.ctxs = [(0, { zone := 64, priv := .hyp, ptroot := b.root })]
  mem : t.mem = b.memory

theorem execColdReset_none {s : State} (h : s.boot = none) : execColdReset s = .next { s.resetBase with phase := .recovery } := by
  unfold execColdReset
  rw [h]
  simp only [State.resetBase, h]

/-- The checks of bring-up that a cold reset makes first. -/
def Boot.refused (b : Boot) : Bool := !b.passes || (b.failed.contains 12 && b.failed.contains 13) || !b.verified

theorem refused_iff (b : Boot) : b.refused = true ↔ b.passes = false ∨ b.verified = false ∨ (12 ∈ b.failed ∧ 13 ∈ b.failed) := by
  simp only [Boot.refused, Bool.or_eq_true, Bool.and_eq_true, Bool.not_eq_true', List.contains_iff_mem]
  tauto

theorem execColdReset_refused {s : State} {b : Boot} (h : s.boot = some b) (hb : b.refused = true) :
    execColdReset s = .next { s.resetBase with phase := .recovery } := by
  unfold execColdReset
  rw [h]
  simp only [State.resetBase, h]
  exact if_pos hb

theorem execColdReset_cases {s : State} {b : Boot} (h : s.boot = some b) :
    execColdReset s = .next { s.resetBase with phase := .recovery } ∨ ∃ t, execColdReset s = .next t ∧ BroughtUp s b t := by
  unfold execColdReset
  extract_lets b0 base
  split
  · simp_all
  rename_i b' h'
  obtain rfl : b' = b := by simp_all
  split
  · exact .inl rfl
  extract_lets _ _ _ _ _ s1 s2
  have h2 : BootKeeps s1 s2 := (BootKeeps.refl s1).foldl (fun _ _ hu => hu.logError) _
  split
  · rename_i t e
    have ht : BootKeeps s1 t := h2.bootTeam.get_of_eq e
    exact .inr ⟨t, rfl, ht.now, ht.hostMem, ht.phase, ht.capgen, ht.devNum, ht.groupBridge, ht.bridge, ⟨_, ht.zones⟩, ht.ctxs, ht.mem⟩
  · exact .inl rfl

end Sys2Proof.Machine

namespace Sys2Proof.Machine

theorem readByte_foldl_writeByte (cs : List (Nat × Byte)) (m : Memory) (a : Nat) (h : ∀ c ∈ cs, c.1 ≠ a) :
    readByte (cs.foldl (fun m c => writeByte m c.1 c.2) m) a = readByte m a :=
  List.foldlRecOn (motive := fun r : Memory => readByte r a = readByte m a) _ _ rfl fun r hr c hc => by
    rw [readByte_writeByte, if_neg (h c hc).symm, hr]

/-- Bring-up writes nothing outside the boot zone's range. -/
theorem readByte_bootMemory {b : Boot} {a : Nat} (h : readByte b.memory a ≠ readByte [] a) : 0xF800000000 ≤ a ∧ a < 0xF800000000 + 2 ^ 34 := by
  by_contra hout
  refine h ?_
  unfold Boot.memory
  extract_lets cells pod code
  refine readByte_foldl_writeByte _ _ _ fun c hc hca => hout ?_
  subst hca
  exact of_decide_eq_true (List.mem_filter.1 hc).2

/-- Settles O52, clause by clause. -/
theorem bringUpAndRegisters : Obligations.BringUpAndRegisters := by
  unfold Obligations.BringUpAndRegisters
  refine ⟨fun s => ⟨fun h => ⟨_, execColdReset_none h, rfl, rfl, rfl⟩, fun b h => ⟨fun hb => ⟨_, execColdReset_refused h ((refused_iff b).2 hb), rfl, rfl⟩, ?_⟩⟩,
    fun s f pa n v => ⟨execRegisterWrite_none s f v, fun d hd hpa => ?_⟩, fun s f v => congrArg _ (healthW1c_eq s f v),
    fun s f nonce zone dest => ⟨fun hhyp hctl => ?_, fun hw => ?_, fun hw hfree => ?_⟩⟩
  · obtain e | ⟨t, e, ht⟩ := execColdReset_cases h
    · exact ⟨_, e, rfl, rfl, .inl ⟨rfl, rfl⟩⟩
    obtain ⟨z, hz⟩ := ht.zones
    refine ⟨t, e, ht.now, ht.hostMem, .inr ⟨ht.phase, ht.capgen, ht.devNum, ht.groupBridge, ?_, fun n hn => ?_, fun n hn => ?_, ?_, ht.mem,
      fun a ha => ?_⟩⟩
    · rw [ht.bridge, ht.devNum, beq_iff_eq]
    · simp [hz, look, hn.symm]
    · simp [ht.ctxs, look, hn.symm]
    · exact ⟨_, by rw [ht.ctxs]; rfl, rfl, rfl, rfl⟩
    · rw [ht.mem] at ha
      exact readByte_bootMemory ha
  · subst hpa
    refine ⟨fun hf => ?_, fun hf => ?_⟩
    · exact (execRegisterWrite_rate s f hd v).trans (by rw [if_pos hf]; rfl)
    · exact (execRegisterWrite_rate s f hd v).trans (by rw [if_neg hf])
  · exact if_neg (by simp [hhyp, hctl])
  · rintro ⟨j, hj, hheld⟩
    have hc : (s.writerHyp f || f == .controller) = true := by simpa using hw
    exact (if_pos hc).trans (congrArg _ (attest_held hj hheld))
  · have hc : (s.writerHyp f || f == .controller) = true := by simpa using hw
    obtain ⟨hmem, hbox⟩ := attest_done (nonce := nonce) (zone := zone.toNat) hfree
    refine ⟨_, if_pos hc, hbox, fun j hj => ?_, fun a ha => ?_⟩
    · rw [hmem]
      exact readByte_writeBytes_in _ _ _ _ (by rwa [report_length])
    · rw [hmem]
      exact readByte_writeBytes_of_out _ _ _ _ (by rwa [report_length])

/-! ## The state after reset -/

theorem bank_reset (b : Nat) : (State.reset.bank b).owner = none ∧ (State.reset.bank b).scrub = 0 := by
  change (Bank.atReset b).owner = none ∧ (Bank.atReset b).scrub = 0
  unfold Bank.atReset
  split <;> exact ⟨rfl, rfl⟩

/-- With no inputs of bring-up a step from reset ends in RECOVERY. -/
theorem step_reset : ∃ t, step State.reset = .next t ∧ t.phase = .recovery ∧ t.groups = [] := ⟨_, rfl, rfl, rfl⟩

/-- Settles O59 on the state of reset as it stands. -/
theorem resetState : Obligations.ResetState := by
  unfold Obligations.ResetState
  exact ⟨rfl, rfl, rfl, rfl, rfl, rfl, rfl, rfl, fun _ => rfl, bank_reset, fun _ => ⟨rfl, rfl⟩,
    ⟨State.reset_form.mem, State.reset_form.hostMem, State.reset_form.groups, State.reset_form.teams⟩, step_reset⟩

end Sys2Proof.Machine

/-! ## The word and its fields (R31 to R50)

What an encoder writes, the decoder reads back: first for the parts of a word, then for the codes and the operand fields, then shape by
shape. -/

namespace Sys2Proof

/-! The two sides of a word put together from parts. The width of the whole is matched by unification (`no_index`), since the model
writes it as a numeral. -/

@[simp] theorem extractLsb'_low_append {v w : Nat} (x : BitVec v) (y : BitVec w) {s l : Nat} (h : s + l ≤ w) :
    BitVec.extractLsb' (n := no_index (v + w)) s l (@HAppend.hAppend (BitVec v) (BitVec w) (no_index (BitVec (v + w))) _ x y)
      = y.extractLsb' s l := BitVec.extractLsb'_append_eq_of_add_le h
@[simp] theorem extractLsb'_high_append {v w : Nat} (x : BitVec v) (y : BitVec w) {s l : Nat} (h : w ≤ s) :
    BitVec.extractLsb' (n := no_index (v + w)) s l (@HAppend.hAppend (BitVec v) (BitVec w) (no_index (BitVec (v + w))) _ x y)
      = x.extractLsb' (s - w) l := BitVec.extractLsb'_append_eq_of_le h
@[simp] theorem getLsbD_low_append {v w : Nat} (x : BitVec v) (y : BitVec w) {i : Nat} (h : i < w) :
    BitVec.getLsbD (w := no_index (v + w)) (@HAppend.hAppend (BitVec v) (BitVec w) (no_index (BitVec (v + w))) _ x y) i
      = y.getLsbD i := by
  rw [BitVec.getLsbD_append, if_pos h]
@[simp] theorem getLsbD_high_append {v w : Nat} (x : BitVec v) (y : BitVec w) {i : Nat} (h : w ≤ i) :
    BitVec.getLsbD (w := no_index (v + w)) (@HAppend.hAppend (BitVec v) (BitVec w) (no_index (BitVec (v + w))) _ x y) i
      = x.getLsbD (i - w) := by
  rw [BitVec.getLsbD_append, if_neg (by omega)]

theorem Fields.ofWord_word (f : Fields) : Fields.ofWord f.word = f := by
  simp [Fields.ofWord, Fields.word]
theorem Fields.word_ofWord (w : BitVec 96) : (Fields.ofWord w).word = w := by
  simp only [Fields.ofWord, Fields.word]
  repeat rw [BitVec.extractLsb'_append_extractLsb'_eq_extractLsb']
  all_goals simp

/-! Codes and operand fields. -/

@[simp] theorem Ty.ofCode_code (t : Ty) : Ty.ofCode t.code = some t := by cases t <;> rfl
@[simp] theorem RM.ofCode_code (r : RM) : RM.ofCode r.code = some r := by cases r <;> rfl
@[simp] theorem Cmp.ofCode_code (c : Cmp) : Cmp.ofCode c.code = c := by cases c <;> rfl
@[simp] theorem BoolOp.ofCode_code (b : BoolOp) : BoolOp.ofCode b.code = some b := by cases b <;> rfl
@[simp] theorem MoviMode.ofCode_code (m : MoviMode) : MoviMode.ofCode m.code = some m := by cases m <;> rfl
@[simp] theorem VoteMode.ofCode_code (m : VoteMode) : VoteMode.ofCode m.code = m := by cases m <;> rfl
@[simp] theorem ShflMode.ofCode_code (m : ShflMode) : ShflMode.ofCode m.code = m := by cases m <;> rfl
@[simp] theorem RedOp.ofCode_code (o : RedOp) : RedOp.ofCode o.code = some o := by cases o <;> rfl
@[simp] theorem Aop.ofCode_code (o : Aop) : Aop.ofCode o.code = some o := by cases o <;> rfl
@[simp] theorem Sem.ofCode_code (s : Sem) : Sem.ofCode s.code = s := by cases s <;> rfl
@[simp] theorem Scope.ofCode_code (s : Scope) : Scope.ofCode s.code = some s := by cases s <;> rfl

@[simp] theorem getLsbD_bit1 (b : Bool) : (bit1 b).getLsbD 0 = b := by simp [bit1]
@[simp] theorem Guard.dec_enc (g : Guard) : Guard.dec g.enc = g := by
  simp [-BitVec.getLsbD_eq_getElem, Guard.dec, Guard.enc]
@[simp] theorem Hint.dec_enc (h : Hint) : Hint.dec h.enc = h := by
  simp [-BitVec.getLsbD_eq_getElem, Hint.dec, Hint.enc]
@[simp] theorem Life.dec_enc (l : Life) : Life.dec l.enc = some l := by cases l <;> rfl
@[simp] theorem Dst.dec_enc (d : Dst) : Dst.dec d.enc = some d := by
  cases d <;> simp [-BitVec.getLsbD_eq_getElem, -BitVec.extractLsb'_toNat, Dst.dec, Dst.enc]
@[simp] theorem Src.dec_enc (x : Src) : Src.dec x.enc = some x := by
  cases x <;> simp [-BitVec.getLsbD_eq_getElem, -BitVec.extractLsb'_toNat, Src.dec, Src.enc]

/-! What the accessors read of fields that an encoder filled. -/

section
variable (c : Ctl) (o : BitVec 10) (d a b e : BitVec 12) (m : BitVec 20)
@[simp] theorem mkFields_ctl : (mkFields c o d a b e m).ctl = c := by simp [mkFields, Fields.ctl]
@[simp] theorem mkFields_d : (mkFields c o d a b e m).d = Dst.dec d := rfl
@[simp] theorem mkFields_a : (mkFields c o d a b e m).a = Src.dec a := rfl
@[simp] theorem mkFields_b : (mkFields c o d a b e m).b = Src.dec b := rfl
@[simp] theorem mkFields_c : (mkFields c o d a b e m).c = Src.dec e := rfl
@[simp] theorem mkFields_opc : (mkFields c o d a b e m).opc = o := rfl
@[simp] theorem mkFields_dst : (mkFields c o d a b e m).dst = d := rfl
@[simp] theorem mkFields_sa : (mkFields c o d a b e m).sa = a := rfl
@[simp] theorem mkFields_sb : (mkFields c o d a b e m).sb = b := rfl
@[simp] theorem mkFields_sc : (mkFields c o d a b e m).sc = e := rfl
@[simp] theorem mkFields_mod : (mkFields c o d a b e m).mod = m := rfl
@[simp] theorem mkFields_ty : (mkFields c o d a b e m).ty = Ty.ofCode (m.extractLsb' 15 5) := rfl
@[simp] theorem mkFields_ty2 : (mkFields c o d a b e m).ty2 = Ty.ofCode (m.extractLsb' 10 5) := rfl
@[simp] theorem mkFields_rm : (mkFields c o d a b e m).rm = RM.ofCode (m.extractLsb' 7 3) := rfl
@[simp] theorem mkFields_sat : (mkFields c o d a b e m).sat = m.getLsbD 6 := rfl
@[simp] theorem mkFields_dS : (mkFields c o d a b e m).dS = d.extractLsb' 1 6 := rfl
@[simp] theorem mkFields_dV : (mkFields c o d a b e m).dV = d.extractLsb' 1 8 := rfl
@[simp] theorem mkFields_imm32 : (mkFields c o d a b e m).imm32 = e ++ b ++ m.extractLsb' 0 8 := rfl
@[simp] theorem mkFields_aop : (mkFields c o d a b e m).aop = Aop.ofCode (m.extractLsb' 11 4) := rfl
@[simp] theorem mkFields_sem : (mkFields c o d a b e m).sem = Sem.ofCode (m.extractLsb' 9 2) := rfl
@[simp] theorem mkFields_scope : (mkFields c o d a b e m).scope = Scope.ofCode (m.extractLsb' 6 3) := rfl
end

@[simp] theorem mkFields_addr {c : Ctl} {o : BitVec 10} {d a b e : BitVec 12} {m : BitVec 20} :
    (mkFields c o d a b e m).addr = (do return ⟨← Src.dec a, ← Src.dec b, m.extractLsb' 12 3, m.getLsbD 11, m.extractLsb' 0 10⟩) := rfl
@[simp] theorem Dst.enc_p_num (n : BitVec 3) : (Dst.enc (.p n)).extractLsb' 1 3 = n := by simp [Dst.enc]
@[simp] theorem Dst.enc_cb_num (n : BitVec 3) : (Dst.enc (.cb n)).extractLsb' 1 3 = n := by simp [Dst.enc]
@[simp] theorem Dst.enc_v_num (n : BitVec 8) (b : Bool) : (Dst.enc (.v n b)).extractLsb' 1 8 = n := by simp [Dst.enc]
@[simp] theorem Dst.enc_tile_num (n : BitVec 4) : (Dst.enc (.tile n)).extractLsb' 1 4 = n := by simp [Dst.enc]
@[simp] theorem sDst_num (n : BitVec 6) : (sDst n).extractLsb' 1 6 = n := by simp [sDst, Dst.enc]
@[simp] theorem Src.enc_p_num (n : BitVec 3) : (Src.enc (.p n)).extractLsb' 0 3 = n := by simp [Src.enc]
@[simp] theorem Src.enc_cb_num (n : BitVec 3) : (Src.enc (.cb n)).extractLsb' 0 3 = n := by simp [Src.enc]
@[simp] theorem Src.enc_k_num (n : BitVec 7) : (Src.enc (.k n)).extractLsb' 0 7 = n := by simp [Src.enc]
@[simp] theorem imm32_split (n : W32) : n.extractLsb' 20 12 ++ n.extractLsb' 8 12 ++ n.extractLsb' 0 8 = n := by
  repeat rw [BitVec.extractLsb'_append_extractLsb'_eq_extractLsb']
  all_goals simp
@[simp] theorem memMod_ty (ty : BitVec 5) (ad : Addr) (v : Bool) : (memMod ty ad v).extractLsb' 15 5 = ty := by simp [memMod]
@[simp] theorem memMod_scale (ty : BitVec 5) (ad : Addr) (v : Bool) : (memMod ty ad v).extractLsb' 12 3 = ad.scale := by simp [memMod]
@[simp] theorem memMod_ixu (ty : BitVec 5) (ad : Addr) (v : Bool) : (memMod ty ad v).getLsbD 11 = ad.ixu := by
  simp [memMod, -BitVec.getLsbD_eq_getElem]
@[simp] theorem memMod_var (ty : BitVec 5) (ad : Addr) (v : Bool) : (memMod ty ad v).getLsbD 10 = v := by
  simp [memMod, -BitVec.getLsbD_eq_getElem]
@[simp] theorem memMod_off (ty : BitVec 5) (ad : Addr) (v : Bool) : (memMod ty ad v).extractLsb' 0 10 = ad.off := by simp [memMod]
section
variable (t : Ty) (op : Aop) (sem : BitVec 2) (sc : Scope) (off : BitVec 6)
@[simp] theorem atomMod_ty : (atomMod t op sem sc off).extractLsb' 15 5 = t.code := by simp [atomMod]
@[simp] theorem atomMod_aop : (atomMod t op sem sc off).extractLsb' 11 4 = op.code := by simp [atomMod]
@[simp] theorem atomMod_sem : (atomMod t op sem sc off).extractLsb' 9 2 = sem := by simp [atomMod]
@[simp] theorem atomMod_scope : (atomMod t op sem sc off).extractLsb' 6 3 = sc.code := by simp [atomMod]
@[simp] theorem atomMod_off : (atomMod t op sem sc off).extractLsb' 0 6 = off := by simp [atomMod]
@[simp] theorem atomMod_off5 : (atomMod t op sem sc off).extractLsb' 0 5 = off.extractLsb' 0 5 := by simp [atomMod]
@[simp] theorem atomMod_rel : (atomMod t op sem sc off).getLsbD 10 = sem.getLsbD 1 := by simp [atomMod, -BitVec.getLsbD_eq_getElem]
@[simp] theorem atomMod_pe : (atomMod t op sem sc off).getLsbD 5 = off.getLsbD 5 := by simp [atomMod, -BitVec.getLsbD_eq_getElem]
end
@[simp] theorem Dst.enc_bit0 (d : Dst) : d.enc.getLsbD 0 = false := by
  cases d <;> simp [Dst.enc, -BitVec.getLsbD_eq_getElem]
@[simp] theorem sDst_bit0 (n : BitVec 6) : (sDst n).getLsbD 0 = false := Dst.enc_bit0 _
/-- SC of an atomic reads back when the third source is there for .cas alone (R240). -/
theorem casSrc_optSrc {c : Ctl} {o : BitVec 10} {d a b : BitVec 12} {m : BitVec 20} {s : Option Src} {op : Aop}
    (h : s.isSome = (op == .cas)) : (mkFields c o d a b (optSrc s) m).casSrc op = some s := by
  cases s with
  | none =>
    have hop : op ≠ .cas := by simpa using h.symm
    simp [Fields.casSrc, hop]
  | some s =>
    have hop : op = .cas := by simpa using h.symm
    simp [Fields.casSrc, optSrc, hop]
/-! The shapes: each encoder writes OPC, leaves the reserved bit of DST clear, and its decoder reads the shape back. -/

@[simp] theorem CtlOnly.enc_reads (o : BitVec 10) (m : BitVec 20) (x : CtlOnly) :
    (CtlOnly.enc o m x).opc = o ∧ (CtlOnly.enc o m x).dst.getLsbD 0 = false ∧ CtlOnly.dec (CtlOnly.enc o m x) = some x := by
  simp [-BitVec.getLsbD_eq_getElem, CtlOnly.enc, CtlOnly.dec]
@[simp] theorem Un.enc_reads (o : BitVec 10) (x : Un) :
    (Un.enc o x).opc = o ∧ (Un.enc o x).dst.getLsbD 0 = false ∧ Un.dec (Un.enc o x) = some x := by
  simp [-BitVec.getLsbD_eq_getElem, Un.enc, Un.dec]
@[simp] theorem UnS.enc_reads (o : BitVec 10) (x : UnS) :
    (UnS.enc o x).opc = o ∧ (UnS.enc o x).dst.getLsbD 0 = false ∧ UnS.dec (UnS.enc o x) = some x := by
  simp [-BitVec.getLsbD_eq_getElem, UnS.enc, UnS.dec]
@[simp] theorem Bin.enc_reads (o : BitVec 10) (x : Bin) :
    (Bin.enc o x).opc = o ∧ (Bin.enc o x).dst.getLsbD 0 = false ∧ Bin.dec (Bin.enc o x) = some x := by
  simp [-BitVec.getLsbD_eq_getElem, Bin.enc, Bin.dec]
@[simp] theorem BinS.enc_reads (o : BitVec 10) (x : BinS) :
    (BinS.enc o x).opc = o ∧ (BinS.enc o x).dst.getLsbD 0 = false ∧ BinS.dec (BinS.enc o x) = some x := by
  simp [-BitVec.getLsbD_eq_getElem, BinS.enc, BinS.dec]
@[simp] theorem Ter.enc_reads (o : BitVec 10) (x : Ter) :
    (Ter.enc o x).opc = o ∧ (Ter.enc o x).dst.getLsbD 0 = false ∧ Ter.dec (Ter.enc o x) = some x := by
  simp [-BitVec.getLsbD_eq_getElem, Ter.enc, Ter.dec]
@[simp] theorem TerS.enc_reads (o : BitVec 10) (x : TerS) :
    (TerS.enc o x).opc = o ∧ (TerS.enc o x).dst.getLsbD 0 = false ∧ TerS.dec (TerS.enc o x) = some x := by
  simp [-BitVec.getLsbD_eq_getElem, TerS.enc, TerS.dec]
@[simp] theorem Movi.enc_reads (o : BitVec 10) (x : Movi) :
    (Movi.enc o x).opc = o ∧ (Movi.enc o x).dst.getLsbD 0 = false ∧ Movi.dec (Movi.enc o x) = some x := by
  simp [-BitVec.getLsbD_eq_getElem, Movi.enc, Movi.dec]
@[simp] theorem Carry.enc_reads (o : BitVec 10) (x : Carry) :
    (Carry.enc o x).opc = o ∧ (Carry.enc o x).dst.getLsbD 0 = false ∧ Carry.dec (Carry.enc o x) = some x := by
  simp [-BitVec.getLsbD_eq_getElem, Carry.enc, Carry.dec]
@[simp] theorem Setp.enc_reads (o : BitVec 10) (x : Setp) :
    (Setp.enc o x).opc = o ∧ (Setp.enc o x).dst.getLsbD 0 = false ∧ Setp.dec (Setp.enc o x) = some x := by
  simp [-BitVec.getLsbD_eq_getElem, Setp.enc, Setp.dec]
@[simp] theorem Sel.enc_reads (o : BitVec 10) (x : Sel) :
    (Sel.enc o x).opc = o ∧ (Sel.enc o x).dst.getLsbD 0 = false ∧ Sel.dec (Sel.enc o x) = some x := by
  simp [-BitVec.getLsbD_eq_getElem, Sel.enc, Sel.dec]
@[simp] theorem Lea.enc_reads (o : BitVec 10) (x : Lea) :
    (Lea.enc o x).opc = o ∧ (Lea.enc o x).dst.getLsbD 0 = false ∧ Lea.dec (Lea.enc o x) = some x := by
  simp [-BitVec.getLsbD_eq_getElem, Lea.enc, Lea.dec]
@[simp] theorem Leax.enc_reads (o : BitVec 10) (x : Leax) :
    (Leax.enc o x).opc = o ∧ (Leax.enc o x).dst.getLsbD 0 = false ∧ Leax.dec (Leax.enc o x) = some x := by
  obtain ⟨ctl, ty, mode, d, a, b⟩ := x
  cases mode <;> simp [-BitVec.getLsbD_eq_getElem, Leax.enc, Leax.dec, Leax.decMode]
@[simp] theorem FBin.enc_reads (o : BitVec 10) (x : FBin) :
    (FBin.enc o x).opc = o ∧ (FBin.enc o x).dst.getLsbD 0 = false ∧ FBin.dec (FBin.enc o x) = some x := by
  simp [-BitVec.getLsbD_eq_getElem, FBin.enc, FBin.dec]
@[simp] theorem FTer.enc_reads (o : BitVec 10) (x : FTer) :
    (FTer.enc o x).opc = o ∧ (FTer.enc o x).dst.getLsbD 0 = false ∧ FTer.dec (FTer.enc o x) = some x := by
  simp [-BitVec.getLsbD_eq_getElem, FTer.enc, FTer.dec]
@[simp] theorem FMinMax.enc_reads (o : BitVec 10) (x : FMinMax) :
    (FMinMax.enc o x).opc = o ∧ (FMinMax.enc o x).dst.getLsbD 0 = false ∧ FMinMax.dec (FMinMax.enc o x) = some x := by
  simp [-BitVec.getLsbD_eq_getElem, FMinMax.enc, FMinMax.dec]
@[simp] theorem Frnd.enc_reads (o : BitVec 10) (x : Frnd) :
    (Frnd.enc o x).opc = o ∧ (Frnd.enc o x).dst.getLsbD 0 = false ∧ Frnd.dec (Frnd.enc o x) = some x := by
  simp [-BitVec.getLsbD_eq_getElem, Frnd.enc, Frnd.dec]
@[simp] theorem SpecUn.enc_reads (o : BitVec 10) (x : SpecUn) :
    (SpecUn.enc o x).opc = o ∧ (SpecUn.enc o x).dst.getLsbD 0 = false ∧ SpecUn.dec (SpecUn.enc o x) = some x := by
  simp [-BitVec.getLsbD_eq_getElem, SpecUn.enc, SpecUn.dec]
@[simp] theorem Cvt.enc_reads (o : BitVec 10) (x : Cvt) :
    (Cvt.enc o x).opc = o ∧ (Cvt.enc o x).dst.getLsbD 0 = false ∧ Cvt.dec (Cvt.enc o x) = some x := by
  simp [-BitVec.getLsbD_eq_getElem, Cvt.enc, Cvt.dec]
@[simp] theorem Packn.enc_reads (o : BitVec 10) (x : Packn) :
    (Packn.enc o x).opc = o ∧ (Packn.enc o x).dst.getLsbD 0 = false ∧ Packn.dec (Packn.enc o x) = some x := by
  simp [-BitVec.getLsbD_eq_getElem, Packn.enc, Packn.dec]
@[simp] theorem Unpackn.enc_reads (o : BitVec 10) (x : Unpackn) :
    (Unpackn.enc o x).opc = o ∧ (Unpackn.enc o x).dst.getLsbD 0 = false ∧ Unpackn.dec (Unpackn.enc o x) = some x := by
  simp [-BitVec.getLsbD_eq_getElem, Unpackn.enc, Unpackn.dec]
@[simp] theorem Scaleb.enc_reads (o : BitVec 10) (x : Scaleb) :
    (Scaleb.enc o x).opc = o ∧ (Scaleb.enc o x).dst.getLsbD 0 = false ∧ Scaleb.dec (Scaleb.enc o x) = some x := by
  simp [-BitVec.getLsbD_eq_getElem, Scaleb.enc, Scaleb.dec]
@[simp] theorem RandF.enc_reads (o : BitVec 10) (x : RandF) :
    (RandF.enc o x).opc = o ∧ (RandF.enc o x).dst.getLsbD 0 = false ∧ RandF.dec (RandF.enc o x) = some x := by
  simp [-BitVec.getLsbD_eq_getElem, RandF.enc, RandF.dec]
@[simp] theorem Part.enc_reads (o : BitVec 10) (x : Part) :
    (Part.enc o x).opc = o ∧ (Part.enc o x).dst.getLsbD 0 = false ∧ Part.dec (Part.enc o x) = some x := by
  simp [-BitVec.getLsbD_eq_getElem, Part.enc, Part.dec]
@[simp] theorem Vote.enc_reads (o : BitVec 10) (x : Vote) :
    (Vote.enc o x).opc = o ∧ (Vote.enc o x).dst.getLsbD 0 = false ∧ Vote.dec (Vote.enc o x) = some x := by
  simp [-BitVec.getLsbD_eq_getElem, Vote.enc, Vote.dec]
@[simp] theorem Shfl.enc_reads (o : BitVec 10) (x : Shfl) :
    (Shfl.enc o x).opc = o ∧ (Shfl.enc o x).dst.getLsbD 0 = false ∧ Shfl.dec (Shfl.enc o x) = some x := by
  simp [-BitVec.getLsbD_eq_getElem, Shfl.enc, Shfl.dec]
@[simp] theorem Redux.enc_reads (o : BitVec 10) (x : Redux) :
    (Redux.enc o x).opc = o ∧ (Redux.enc o x).dst.getLsbD 0 = false ∧ Redux.dec (Redux.enc o x) = some x := by
  simp [-BitVec.getLsbD_eq_getElem, Redux.enc, Redux.dec]
@[simp] theorem Scan.enc_reads (o : BitVec 10) (x : Scan) :
    (Scan.enc o x).opc = o ∧ (Scan.enc o x).dst.getLsbD 0 = false ∧ Scan.dec (Scan.enc o x) = some x := by
  simp [-BitVec.getLsbD_eq_getElem, Scan.enc, Scan.dec]
@[simp] theorem Elect.enc_reads (o : BitVec 10) (x : Elect) :
    (Elect.enc o x).opc = o ∧ (Elect.enc o x).dst.getLsbD 0 = false ∧ Elect.dec (Elect.enc o x) = some x := by
  simp [-BitVec.getLsbD_eq_getElem, Elect.enc, Elect.dec]
@[simp] theorem BraF.enc_reads (o : BitVec 10) (x : BraF) :
    (BraF.enc o x).opc = o ∧ (BraF.enc o x).dst.getLsbD 0 = false ∧ BraF.dec (BraF.enc o x) = some x := by
  simp [-BitVec.getLsbD_eq_getElem, BraF.enc, BraF.dec]
@[simp] theorem CallF.enc_reads (o : BitVec 10) (x : CallF) :
    (CallF.enc o x).opc = o ∧ (CallF.enc o x).dst.getLsbD 0 = false ∧ CallF.dec (CallF.enc o x) = some x := by
  simp [-BitVec.getLsbD_eq_getElem, CallF.enc, CallF.dec]
@[simp] theorem CallxF.enc_reads (o : BitVec 10) (x : CallxF) :
    (CallxF.enc o x).opc = o ∧ (CallxF.enc o x).dst.getLsbD 0 = false ∧ CallxF.dec (CallxF.enc o x) = some x := by
  simp [-BitVec.getLsbD_eq_getElem, CallxF.enc, CallxF.dec]
@[simp] theorem SrcF.enc_reads (o : BitVec 10) (x : SrcF) :
    (SrcF.enc o x).opc = o ∧ (SrcF.enc o x).dst.getLsbD 0 = false ∧ SrcF.dec (SrcF.enc o x) = some x := by
  simp [-BitVec.getLsbD_eq_getElem, SrcF.enc, SrcF.dec]
@[simp] theorem Cbarm.enc_reads (o : BitVec 10) (x : Cbarm) :
    (Cbarm.enc o x).opc = o ∧ (Cbarm.enc o x).dst.getLsbD 0 = false ∧ Cbarm.dec (Cbarm.enc o x) = some x := by
  simp [-BitVec.getLsbD_eq_getElem, Cbarm.enc, Cbarm.dec]
@[simp] theorem Cbwait.enc_reads (o : BitVec 10) (x : Cbwait) :
    (Cbwait.enc o x).opc = o ∧ (Cbwait.enc o x).dst.getLsbD 0 = false ∧ Cbwait.dec (Cbwait.enc o x) = some x := by
  simp [-BitVec.getLsbD_eq_getElem, Cbwait.enc, Cbwait.dec]
@[simp] theorem BarF.enc_reads (o : BitVec 10) (x : BarF) :
    (BarF.enc o x).opc = o ∧ (BarF.enc o x).dst.getLsbD 0 = false ∧ BarF.dec (BarF.enc o x) = some x := by
  simp [-BitVec.getLsbD_eq_getElem, BarF.enc, BarF.dec]
@[simp] theorem BarcF.enc_reads (o : BitVec 10) (x : BarcF) :
    (BarcF.enc o x).opc = o ∧ (BarcF.enc o x).dst.getLsbD 0 = false ∧ BarcF.dec (BarcF.enc o x) = some x := by
  simp [-BitVec.getLsbD_eq_getElem, BarcF.enc, BarcF.dec]
@[simp] theorem Ld.enc_reads (o : BitVec 10) (x : Ld) :
    (Ld.enc o x).opc = o ∧ (Ld.enc o x).dst.getLsbD 0 = false ∧ Ld.dec (Ld.enc o x) = some x := by
  simp [-BitVec.getLsbD_eq_getElem, Ld.enc, Ld.dec]
@[simp] theorem St.enc_reads (o : BitVec 10) (x : St) :
    (St.enc o x).opc = o ∧ (St.enc o x).dst.getLsbD 0 = false ∧ St.dec (St.enc o x) = some x := by
  simp [-BitVec.getLsbD_eq_getElem, St.enc, St.dec]
@[simp] theorem Mcst.enc_reads (o : BitVec 10) (x : Mcst) :
    (Mcst.enc o x).opc = o ∧ (Mcst.enc o x).dst.getLsbD 0 = false ∧ Mcst.dec (Mcst.enc o x) = some x := by
  simp [-BitVec.getLsbD_eq_getElem, Mcst.enc, Mcst.dec]
@[simp] theorem Ldc.enc_reads (o : BitVec 10) (x : Ldc) :
    (Ldc.enc o x).opc = o ∧ (Ldc.enc o x).dst.getLsbD 0 = false ∧ Ldc.dec (Ldc.enc o x) = some x := by
  simp [-BitVec.getLsbD_eq_getElem, Ldc.enc, Ldc.dec]
@[simp] theorem Pref.enc_reads (o : BitVec 10) (x : Pref) :
    (Pref.enc o x).opc = o ∧ (Pref.enc o x).dst.getLsbD 0 = false ∧ Pref.dec (Pref.enc o x) = some x := by
  simp [-BitVec.getLsbD_eq_getElem, Pref.enc, Pref.dec]
@[simp] theorem Wbp.enc_reads (o : BitVec 10) (x : Wbp) :
    (Wbp.enc o x).opc = o ∧ (Wbp.enc o x).dst.getLsbD 0 = false ∧ Wbp.dec (Wbp.enc o x) = some x := by
  simp [-BitVec.getLsbD_eq_getElem, Wbp.enc, Wbp.dec]
@[simp] theorem Qpop.enc_reads (o : BitVec 10) (x : Qpop) :
    (Qpop.enc o x).opc = o ∧ (Qpop.enc o x).dst.getLsbD 0 = false ∧ Qpop.dec (Qpop.enc o x) = some x := by
  simp [-BitVec.getLsbD_eq_getElem, Qpop.enc, Qpop.dec]
@[simp] theorem Fpush.enc_reads (o : BitVec 10) (x : Fpush) :
    (Fpush.enc o x).opc = o ∧ (Fpush.enc o x).dst.getLsbD 0 = false ∧ Fpush.dec (Fpush.enc o x) = some x := by
  simp [-BitVec.getLsbD_eq_getElem, Fpush.enc, Fpush.dec]
@[simp] theorem Fpop.enc_reads (o : BitVec 10) (x : Fpop) :
    (Fpop.enc o x).opc = o ∧ (Fpop.enc o x).dst.getLsbD 0 = false ∧ Fpop.dec (Fpop.enc o x) = some x := by
  simp [-BitVec.getLsbD_eq_getElem, Fpop.enc, Fpop.dec]
@[simp] theorem Atom.enc_head (o : BitVec 10) (x : Atom) :
    (Atom.enc o x).opc = o ∧ (Atom.enc o x).dst.getLsbD 0 = false := by
  simp [-BitVec.getLsbD_eq_getElem, Atom.enc]
theorem Atom.dec_enc (o : BitVec 10) (x : Atom) (h : x.c.isSome = (x.aop == .cas)) :
    Atom.dec (Atom.enc o x) = some x := by
  simp [-BitVec.getLsbD_eq_getElem, Atom.enc, Atom.dec, casSrc_optSrc h]
@[simp] theorem Atoms.enc_head (o : BitVec 10) (x : Atoms) :
    (Atoms.enc o x).opc = o ∧ (Atoms.enc o x).dst.getLsbD 0 = false := by
  simp [-BitVec.getLsbD_eq_getElem, Atoms.enc]
theorem Atoms.dec_enc (o : BitVec 10) (x : Atoms) (h : x.c.isSome = (x.aop == .cas)) :
    Atoms.dec (Atoms.enc o x) = some x := by
  simp [-BitVec.getLsbD_eq_getElem, Atoms.enc, Atoms.dec, casSrc_optSrc h]
@[simp] theorem Red.enc_reads (o : BitVec 10) (x : Red) :
    (Red.enc o x).opc = o ∧ (Red.enc o x).dst.getLsbD 0 = false ∧ Red.dec (Red.enc o x) = some x := by
  simp [-BitVec.getLsbD_eq_getElem, Red.enc, Red.dec]
@[simp] theorem ScopeF.enc_reads (o : BitVec 10) (x : ScopeF) :
    (ScopeF.enc o x).opc = o ∧ (ScopeF.enc o x).dst.getLsbD 0 = false ∧ ScopeF.dec (ScopeF.enc o x) = some x := by
  simp [-BitVec.getLsbD_eq_getElem, ScopeF.enc, ScopeF.dec]
@[simp] theorem Ptsrd.enc_reads (o : BitVec 10) (x : Ptsrd) :
    (Ptsrd.enc o x).opc = o ∧ (Ptsrd.enc o x).dst.getLsbD 0 = false ∧ Ptsrd.dec (Ptsrd.enc o x) = some x := by
  simp [-BitVec.getLsbD_eq_getElem, Ptsrd.enc, Ptsrd.dec]
@[simp] theorem Off2.enc_reads (o : BitVec 10) (x : Off2) :
    (Off2.enc o x).opc = o ∧ (Off2.enc o x).dst.getLsbD 0 = false ∧ Off2.dec (Off2.enc o x) = some x := by
  simp [-BitVec.getLsbD_eq_getElem, Off2.enc, Off2.dec]
@[simp] theorem Swwait.enc_reads (o : BitVec 10) (x : Swwait) :
    (Swwait.enc o x).opc = o ∧ (Swwait.enc o x).dst.getLsbD 0 = false ∧ Swwait.dec (Swwait.enc o x) = some x := by
  simp [-BitVec.getLsbD_eq_getElem, Swwait.enc, Swwait.dec]
@[simp] theorem Swgen.enc_reads (o : BitVec 10) (x : Swgen) :
    (Swgen.enc o x).opc = o ∧ (Swgen.enc o x).dst.getLsbD 0 = false ∧ Swgen.dec (Swgen.enc o x) = some x := by
  simp [-BitVec.getLsbD_eq_getElem, Swgen.enc, Swgen.dec]
@[simp] theorem Objdecl.enc_reads (o : BitVec 10) (x : Objdecl) :
    (Objdecl.enc o x).opc = o ∧ (Objdecl.enc o x).dst.getLsbD 0 = false ∧ Objdecl.dec (Objdecl.enc o x) = some x := by
  simp [-BitVec.getLsbD_eq_getElem, Objdecl.enc, Objdecl.dec]
@[simp] theorem Mxop.enc_reads (o : BitVec 10) (x : Mxop) :
    (Mxop.enc o x).opc = o ∧ (Mxop.enc o x).dst.getLsbD 0 = false ∧ Mxop.dec (Mxop.enc o x) = some x := by
  simp [-BitVec.getLsbD_eq_getElem, Mxop.enc, Mxop.dec]
@[simp] theorem Mxzero.enc_reads (o : BitVec 10) (x : Mxzero) :
    (Mxzero.enc o x).opc = o ∧ (Mxzero.enc o x).dst.getLsbD 0 = false ∧ Mxzero.dec (Mxzero.enc o x) = some x := by
  simp [-BitVec.getLsbD_eq_getElem, Mxzero.enc, Mxzero.dec]
@[simp] theorem Mxrd.enc_reads (o : BitVec 10) (x : Mxrd) :
    (Mxrd.enc o x).opc = o ∧ (Mxrd.enc o x).dst.getLsbD 0 = false ∧ Mxrd.dec (Mxrd.enc o x) = some x := by
  simp [-BitVec.getLsbD_eq_getElem, Mxrd.enc, Mxrd.dec]
@[simp] theorem Mxwr.enc_reads (o : BitVec 10) (x : Mxwr) :
    (Mxwr.enc o x).opc = o ∧ (Mxwr.enc o x).dst.getLsbD 0 = false ∧ Mxwr.dec (Mxwr.enc o x) = some x := by
  simp [-BitVec.getLsbD_eq_getElem, Mxwr.enc, Mxwr.dec]
@[simp] theorem Mxst.enc_reads (o : BitVec 10) (x : Mxst) :
    (Mxst.enc o x).opc = o ∧ (Mxst.enc o x).dst.getLsbD 0 = false ∧ Mxst.dec (Mxst.enc o x) = some x := by
  simp [-BitVec.getLsbD_eq_getElem, Mxst.enc, Mxst.dec]
@[simp] theorem PlaneF.enc_reads (o : BitVec 10) (x : PlaneF) :
    (PlaneF.enc o x).opc = o ∧ (PlaneF.enc o x).dst.getLsbD 0 = false ∧ PlaneF.dec (PlaneF.enc o x) = some x := by
  simp [-BitVec.getLsbD_eq_getElem, PlaneF.enc, PlaneF.dec]
@[simp] theorem Unplane.enc_reads (o : BitVec 10) (x : Unplane) :
    (Unplane.enc o x).opc = o ∧ (Unplane.enc o x).dst.getLsbD 0 = false ∧ Unplane.dec (Unplane.enc o x) = some x := by
  simp [-BitVec.getLsbD_eq_getElem, Unplane.enc, Unplane.dec]
@[simp] theorem Mxperm.enc_reads (o : BitVec 10) (x : Mxperm) :
    (Mxperm.enc o x).opc = o ∧ (Mxperm.enc o x).dst.getLsbD 0 = false ∧ Mxperm.dec (Mxperm.enc o x) = some x := by
  simp [-BitVec.getLsbD_eq_getElem, Mxperm.enc, Mxperm.dec]
@[simp] theorem Mxqry.enc_reads (o : BitVec 10) (x : Mxqry) :
    (Mxqry.enc o x).opc = o ∧ (Mxqry.enc o x).dst.getLsbD 0 = false ∧ Mxqry.dec (Mxqry.enc o x) = some x := by
  simp [-BitVec.getLsbD_eq_getElem, Mxqry.enc, Mxqry.dec]
@[simp] theorem Mxepi.enc_reads (o : BitVec 10) (x : Mxepi) :
    (Mxepi.enc o x).opc = o ∧ (Mxepi.enc o x).dst.getLsbD 0 = false ∧ Mxepi.dec (Mxepi.enc o x) = some x := by
  simp [-BitVec.getLsbD_eq_getElem, Mxepi.enc, Mxepi.dec]
@[simp] theorem Mxscl.enc_reads (o : BitVec 10) (x : Mxscl) :
    (Mxscl.enc o x).opc = o ∧ (Mxscl.enc o x).dst.getLsbD 0 = false ∧ Mxscl.dec (Mxscl.enc o x) = some x := by
  simp [-BitVec.getLsbD_eq_getElem, Mxscl.enc, Mxscl.dec]
@[simp] theorem Cpstat.enc_reads (o : BitVec 10) (x : Cpstat) :
    (Cpstat.enc o x).opc = o ∧ (Cpstat.enc o x).dst.getLsbD 0 = false ∧ Cpstat.dec (Cpstat.enc o x) = some x := by
  simp [-BitVec.getLsbD_eq_getElem, Cpstat.enc, Cpstat.dec]
@[simp] theorem Outrdy.enc_reads (o : BitVec 10) (x : Outrdy) :
    (Outrdy.enc o x).opc = o ∧ (Outrdy.enc o x).dst.getLsbD 0 = false ∧ Outrdy.dec (Outrdy.enc o x) = some x := by
  simp [-BitVec.getLsbD_eq_getElem, Outrdy.enc, Outrdy.dec]
@[simp] theorem Tcond.enc_reads (o : BitVec 10) (x : Tcond) :
    (Tcond.enc o x).opc = o ∧ (Tcond.enc o x).dst.getLsbD 0 = false ∧ Tcond.dec (Tcond.enc o x) = some x := by
  simp [-BitVec.getLsbD_eq_getElem, Tcond.enc, Tcond.dec]
@[simp] theorem SdA.enc_reads (o : BitVec 10) (m : BitVec 20) (x : SdA) :
    (SdA.enc o m x).opc = o ∧ (SdA.enc o m x).dst.getLsbD 0 = false ∧ SdA.dec (SdA.enc o m x) = some x := by
  simp [-BitVec.getLsbD_eq_getElem, SdA.enc, SdA.dec]
@[simp] theorem SdAB.enc_reads (o : BitVec 10) (m : BitVec 20) (x : SdAB) :
    (SdAB.enc o m x).opc = o ∧ (SdAB.enc o m x).dst.getLsbD 0 = false ∧ SdAB.dec (SdAB.enc o m x) = some x := by
  simp [-BitVec.getLsbD_eq_getElem, SdAB.enc, SdAB.dec]
@[simp] theorem SdZ.enc_reads (o : BitVec 10) (x : SdZ) :
    (SdZ.enc o x).opc = o ∧ (SdZ.enc o x).dst.getLsbD 0 = false ∧ SdZ.dec (SdZ.enc o x) = some x := by
  simp [-BitVec.getLsbD_eq_getElem, SdZ.enc, SdZ.dec]
@[simp] theorem Sd.enc_reads (o : BitVec 10) (x : Sd) :
    (Sd.enc o x).opc = o ∧ (Sd.enc o x).dst.getLsbD 0 = false ∧ Sd.dec (Sd.enc o x) = some x := by
  simp [-BitVec.getLsbD_eq_getElem, Sd.enc, Sd.dec]
@[simp] theorem SdSel.enc_reads (o : BitVec 10) (x : SdSel) :
    (SdSel.enc o x).opc = o ∧ (SdSel.enc o x).dst.getLsbD 0 = false ∧ SdSel.dec (SdSel.enc o x) = some x := by
  simp [-BitVec.getLsbD_eq_getElem, SdSel.enc, SdSel.dec]
@[simp] theorem Aloop.enc_reads (o : BitVec 10) (x : Aloop) :
    (Aloop.enc o x).opc = o ∧ (Aloop.enc o x).dst.getLsbD 0 = false ∧ Aloop.dec (Aloop.enc o x) = some x := by
  simp [-BitVec.getLsbD_eq_getElem, Aloop.enc, Aloop.dec]
@[simp] theorem Astrm.enc_reads (o : BitVec 10) (x : Astrm) :
    (Astrm.enc o x).opc = o ∧ (Astrm.enc o x).dst.getLsbD 0 = false ∧ Astrm.dec (Astrm.enc o x) = some x := by
  simp [-BitVec.getLsbD_eq_getElem, Astrm.enc, Astrm.dec]
@[simp] theorem TrapF.enc_reads (o : BitVec 10) (x : TrapF) :
    (TrapF.enc o x).opc = o ∧ (TrapF.enc o x).dst.getLsbD 0 = false ∧ TrapF.dec (TrapF.enc o x) = some x := by
  simp [-BitVec.getLsbD_eq_getElem, TrapF.enc, TrapF.dec]
@[simp] theorem Srrd.enc_reads (o : BitVec 10) (x : Srrd) :
    (Srrd.enc o x).opc = o ∧ (Srrd.enc o x).dst.getLsbD 0 = false ∧ Srrd.dec (Srrd.enc o x) = some x := by
  simp [-BitVec.getLsbD_eq_getElem, Srrd.enc, Srrd.dec]
@[simp] theorem Srwr.enc_reads (o : BitVec 10) (x : Srwr) :
    (Srwr.enc o x).opc = o ∧ (Srwr.enc o x).dst.getLsbD 0 = false ∧ Srwr.dec (Srwr.enc o x) = some x := by
  simp [-BitVec.getLsbD_eq_getElem, Srwr.enc, Srwr.dec]
@[simp] theorem Ctxsave.enc_reads (o : BitVec 10) (x : Ctxsave) :
    (Ctxsave.enc o x).opc = o ∧ (Ctxsave.enc o x).dst.getLsbD 0 = false ∧ Ctxsave.dec (Ctxsave.enc o x) = some x := by
  simp [-BitVec.getLsbD_eq_getElem, Ctxsave.enc, Ctxsave.dec]
@[simp] theorem Ctxq.enc_reads (o : BitVec 10) (x : Ctxq) :
    (Ctxq.enc o x).opc = o ∧ (Ctxq.enc o x).dst.getLsbD 0 = false ∧ Ctxq.dec (Ctxq.enc o x) = some x := by
  simp [-BitVec.getLsbD_eq_getElem, Ctxq.enc, Ctxq.dec]
@[simp] theorem Zslices.enc_reads (o : BitVec 10) (x : Zslices) :
    (Zslices.enc o x).opc = o ∧ (Zslices.enc o x).dst.getLsbD 0 = false ∧ Zslices.dec (Zslices.enc o x) = some x := by
  simp [-BitVec.getLsbD_eq_getElem, Zslices.enc, Zslices.dec]
@[simp] theorem ZwaysL2.enc_reads (o : BitVec 10) (x : ZwaysL2) :
    (ZwaysL2.enc o x).opc = o ∧ (ZwaysL2.enc o x).dst.getLsbD 0 = false ∧ ZwaysL2.dec (ZwaysL2.enc o x) = some x := by
  simp [-BitVec.getLsbD_eq_getElem, ZwaysL2.enc, ZwaysL2.dec]
@[simp] theorem ZwaysVault.enc_reads (o : BitVec 10) (x : ZwaysVault) :
    (ZwaysVault.enc o x).opc = o ∧ (ZwaysVault.enc o x).dst.getLsbD 0 = false ∧ ZwaysVault.dec (ZwaysVault.enc o x) = some x := by
  simp [-BitVec.getLsbD_eq_getElem, ZwaysVault.enc, ZwaysVault.dec]
@[simp] theorem Zquery.enc_reads (o : BitVec 10) (x : Zquery) :
    (Zquery.enc o x).opc = o ∧ (Zquery.enc o x).dst.getLsbD 0 = false ∧ Zquery.dec (Zquery.enc o x) = some x := by
  simp [-BitVec.getLsbD_eq_getElem, Zquery.enc, Zquery.dec]
@[simp] theorem Ptprd.enc_reads (o : BitVec 10) (x : Ptprd) :
    (Ptprd.enc o x).opc = o ∧ (Ptprd.enc o x).dst.getLsbD 0 = false ∧ Ptprd.dec (Ptprd.enc o x) = some x := by
  simp [-BitVec.getLsbD_eq_getElem, Ptprd.enc, Ptprd.dec]
@[simp] theorem Rlease.enc_reads (o : BitVec 10) (x : Rlease) :
    (Rlease.enc o x).opc = o ∧ (Rlease.enc o x).dst.getLsbD 0 = false ∧ Rlease.dec (Rlease.enc o x) = some x := by
  simp [-BitVec.getLsbD_eq_getElem, Rlease.enc, Rlease.dec]

/-! MOD of the forms that share an OP: it tells them apart. -/
@[simp] theorem CtlOnly.enc_mod (o : BitVec 10) (m : BitVec 20) (x : CtlOnly) : (CtlOnly.enc o m x).mod = m := rfl
@[simp] theorem SdA.enc_mod (o : BitVec 10) (m : BitVec 20) (x : SdA) : (SdA.enc o m x).mod = m := rfl
@[simp] theorem SdAB.enc_mod (o : BitVec 10) (m : BitVec 20) (x : SdAB) : (SdAB.enc o m x).mod = m := rfl
@[simp] theorem Wbp.enc_all (o : BitVec 10) (x : Wbp) : (Wbp.enc o x).mod.getLsbD 10 = false := memMod_var _ _ _
@[simp] theorem ZwaysL2.enc_lvl (o : BitVec 10) (x : ZwaysL2) : (ZwaysL2.enc o x).mod.getLsbD 9 = false := by
  simp [-BitVec.getLsbD_eq_getElem, ZwaysL2.enc]
@[simp] theorem ZwaysVault.enc_lvl (o : BitVec 10) (x : ZwaysVault) : (ZwaysVault.enc o x).mod.getLsbD 9 = true := by
  simp [-BitVec.getLsbD_eq_getElem, ZwaysVault.enc]

/-- An atomic whose form its limits accept has its third source exactly when it compares (R240). -/
theorem atomUses_legal_third {c : Ctl} {t : Ty} {op : Aop} {d : Option DstUse} {w : Nat} {a b : Src} {e : Option Src} {ok : Bool}
    (h : (atomUses c t op d w a b e ok).legal = true) : e.isSome = (op == .cas) := by
  simp only [Uses.legal, atomUses, Bool.and_eq_true, beq_iff_eq] at h
  tauto

/-- OPC of the fields of an instruction (R33, R50). -/
theorem Instr.opc_eq_of_fields {i : Instr} {f : Fields} (h : i.fields = some f) : i.opc = some f.opc := by
  cases i <;> cases h <;> exact congrArg some (by simp)

/-- No encoder sets the reserved bit (R35). -/
theorem Instr.fields_bit0 {i : Instr} {f : Fields} (h : i.fields = some f) : f.dst.getLsbD 0 = false := by
  cases i <;> cases h <;> simp [-BitVec.getLsbD_eq_getElem]

/-- The decoder reads back the rows of classes 0x0 to 0x4. -/
theorem decodeForm_fields_low {i : Instr} {f : Fields} (h : i.fields = some f) (hlow : f.opc < 0x140) :
    decodeForm f = some i := by
  cases i <;> cases h <;>
    simp [decodeForm, decodeClass0, decodeClass1, decodeClass2, decodeClass3, decodeClass4] at hlow ⊢

/-- The decoder reads back the rows of classes 0x5 to 0xB; of an atomic it needs that its form is legal. -/
theorem decodeForm_fields_high {i : Instr} {f : Fields} (hl : i.uses.legal = true) (h : i.fields = some f) (hhigh : ¬ f.opc < 0x140) :
    decodeForm f = some i := by
  cases i <;> cases h
  case atom x | atomx x => simp [decodeForm, decodeClass6, Atom.dec_enc, atomUses_legal_third hl]
  case atoms x => simp [decodeForm, decodeClass6, Atoms.dec_enc, atomUses_legal_third hl]
  all_goals
    simp [-BitVec.getLsbD_eq_getElem, decodeForm, decodeClass5, decodeClass6, decodeClass7, decodeClass8, decodeClass9, decodeClass10,
      decodeClass11] at hhigh ⊢

/-- Every row stands in an assigned operation of its class (R50). -/
theorem Instr.opAssigned_opc {i : Instr} {o : BitVec 10} (h : i.opc = some o) :
    opAssigned (o.extractLsb' 6 4).toNat (o.extractLsb' 0 6).toNat = true := by
  cases i <;> cases h <;> decide

/-- Only classes 0x0 to 0xB have assigned operations. -/
theorem opAssigned_class_lt {cls op : Nat} (h : opAssigned cls op = true) : cls < 0xC := by
  by_contra hge
  unfold opAssigned at h
  split at h <;> simp_all

/-- What the decoder answers for the fields of a well-formed instruction. -/
theorem decodeWord_word_of_fields {i : Instr} {f : Fields} (hw : i.wellFormed = true) (h : i.fields = some f) :
    decodeWord f.word = .ok i := by
  have hl : i.uses.legal = true := (Bool.and_eq_true_iff.mp hw).2
  have hop := Instr.opAssigned_opc (Instr.opc_eq_of_fields h)
  have hform : decodeForm f = some i := by
    by_cases hlow : f.opc < 0x140
    · exact decodeForm_fields_low h hlow
    · exact decodeForm_fields_high hl h hlow
  simp [-BitVec.getLsbD_eq_getElem, -BitVec.extractLsb'_toNat, decodeWord, Fields.ofWord_word, Nat.not_le.mpr (opAssigned_class_lt hop), hop,
    Instr.fields_bit0 h, hform, h, hw]

/-- The rows that have an OPC are those that have fields; the others are events. -/
theorem Instr.isSome_fields (i : Instr) : i.fields.isSome = i.opc.isSome := by
  cases i <;> rfl

/-- Settles O55: each shape's decoder reads back what its encoder wrote, each row of the table stands in its own operation, and R33's
fields are the word. -/
theorem encodedWordsDecode : Obligations.EncodedWordsDecode := by
  intro i hw
  obtain ⟨f, hf⟩ := Option.isSome_iff_exists.mp (i.isSome_fields.trans (Bool.and_eq_true_iff.mp hw).1)
  have hword : encode i = f.word := by simp [encode, hf]
  rw [hword]
  exact decodeWord_word_of_fields hw hf

/-- What a decoded word says of its instruction: its fields are this word's, and it is well-formed. -/
theorem fields_of_decodeWord {x : BitVec 96} {i : Instr} (h : decodeWord x = .ok i) :
    i.fields = some (Fields.ofWord x) ∧ i.wellFormed = true := by
  simp only [decodeWord] at h
  split at h
  · cases h
  split at h
  · cases h
  split at h
  · cases h
  split at h
  · cases h
  split at h
  next hf =>
    split at h
    next hw =>
      cases h
      exact ⟨hf, hw⟩
    · cases h
  · cases h

/-- The class, the operation and the reserved bit of a word's fields, by their places in the word (R33). -/
theorem Fields.ofWord_class (x : BitVec 96) : (Fields.ofWord x).opc.extractLsb' 6 4 = x.extractLsb' 92 4 := by
  ext j hj
  simp [Fields.ofWord, show 6 + j < 10 by omega, show 86 + (6 + j) = 92 + j by omega]
theorem Fields.ofWord_op (x : BitVec 96) : (Fields.ofWord x).opc.extractLsb' 0 6 = x.extractLsb' 86 6 := by
  ext j hj
  simp [Fields.ofWord, show j < 10 by omega]
theorem Fields.ofWord_bit0 (x : BitVec 96) : (Fields.ofWord x).dst.getLsbD 0 = x.getLsbD 70 := by
  simp [Fields.ofWord]

/-- Settles O56: the decoder compares the fields of its candidate with the word's, and its first three tests are in the order of R46. -/
theorem decodedWordsEncode : Obligations.DecodedWordsEncode := by
  intro x
  refine ⟨fun i h => ?_, fun hc => ?_, fun hc ho => ?_, fun hc ho hb => ?_⟩
  · obtain ⟨hf, hw⟩ := fields_of_decodeWord h
    exact ⟨by simp only [encode, hf, Fields.word_ofWord], hw⟩
  · simp only [decodeWord, Fields.ofWord_class, if_pos hc]
  · simp only [decodeWord, Fields.ofWord_class, Fields.ofWord_op, if_neg (Nat.not_le.mpr hc), ho, Bool.not_false, if_true]
  · simp only [decodeWord, Fields.ofWord_class, Fields.ofWord_op, Fields.ofWord_bit0, if_neg (Nat.not_le.mpr hc), ho, hb, Bool.not_true,
      Bool.false_eq_true, if_false, if_true]

/-- Settles O60: each word of the spec, decoded. -/
theorem workedEncodings : Obligations.WorkedEncodings := by
  refine ⟨?_, ?_, ?_, ?_, ?_, ?_, ?_, ?_, ?_, ?_⟩ <;> decide

end Sys2Proof

namespace Sys2Proof.Machine

/-! ## The issue stage runs the word it fetched (R32, R138) -/

theorem instrOf_of_decode {x : BitVec 96} {i : Instr} (h : decode? x = some i) : instrOf x = i := by
  simp [instrOf, h]

/-- No counter is waited for: no member of one stalls the group. -/
@[simp] theorem View.sbStalled_nil (w : View) : w.sbStalled [] = false := by
  simp only [View.sbStalled, List.any_eq_false]
  intro x _
  cases x.sb <;> simp

/-- What lets a decoded instruction issue past its registers (R41 to R43, R47, R222): its word traps, its guard is NEVER, or its
counter has room, no pending result holds its registers and no order holds it. -/
def View.MayRun (w : View) (h : Hint) (i : Instr) : Prop :=
  w.decodeTraps i = true ∨ guardNever i.uses.ctl.guard = true
    ∨ ((h.setsb.toNat < 6 → rget 0 w.g.sb h.setsb.toNat ≤ 62) ∧ w.g.spendHolds i.uses = false ∧ w.g.holders i.uses = []
      ∧ w.ordered i = true)

theorem View.MayRun.not_stalls {w : View} {h : Hint} {i : Instr} (hrun : w.MayRun h i) (hsb : w.g.waitsSb h = []) :
    w.stalls h i = false := by
  obtain htrap | hnever | ⟨-, hspend, hhold, -⟩ := hrun
  · simp [View.stalls, hsb, htrap]
  · simp [View.stalls, hsb, hnever]
  · simp [View.stalls, hsb, hspend, hhold]

/-- The plan for a word that nothing holds is to run its instruction. -/
theorem View.plan_eq_run {w : View} {x : BitVec 96} {i : Instr} (hf : w.fetch w.s.curPc = .ok x) (hi : decode? x = some i)
    (hgap : w.g.lastIssue = 0 ∨ w.g.lastIssue + (hintOf x).gap.toNat ≤ w.s.schedOf w.g + 1) (hsb : w.g.waitsSb (hintOf x) = [])
    (hrun : w.MayRun (hintOf x) i) : w.plan = .run x i := by
  have hstall := hrun.not_stalls hsb
  have hgap' : ¬ (w.g.lastIssue ≠ 0 ∧ w.s.schedOf w.g + 1 < w.g.lastIssue + (hintOf x).gap.toNat) := by omega
  simp only [View.plan, hf, instrOf_of_decode hi, hstall, hgap', hsb]
  obtain htrap | hnever | ⟨hroom, -, hhold, hord⟩ := hrun
  · simp [htrap]
  · simp [hnever]
  · have hroom' : ¬ ((hintOf x).setsb.toNat < 6 ∧ 62 < rget 0 w.g.sb (hintOf x).setsb.toNat) := by
      rintro ⟨h6, h62⟩
      exact absurd (hroom h6) (by omega)
    simp [hroom', hhold, hord]

section
variable {s : State} {u : Nat} {a : VA} {w : View} {x : BitVec 96} {i : Instr}

/-- An instruction at a PC alone, when its plan is to run, runs. -/
theorem State.issueAlone_of_run (hv : (s.at_ u a).view? = some w) (hp : w.plan = .run x i) :
    s.issueAlone u a = exec i ((s.at_ u a).correctReads i) := by
  simp [State.issueAlone, hv, hp]

/-- An issued instruction that goes on runs the instruction of its word. -/
theorem State.goOn_of_fetch {m : Mask} (hv : (s.atHeld u a m).view? = some w) (hf : w.fetch a = .ok x) (hi : decode? x = some i) :
    s.goOn u a m = exec i ((s.atHeld u a m).correctReads i) := by
  simp [State.goOn, hv, hf, instrOf_of_decode hi]

/-- A held instruction without the other of a pair goes on for the threads that it was issued for, or for all. -/
theorem State.issueHeld_single {g : Group} (hpair : ∀ h, g.issuedAs = some h → h.pair = none) :
    s.issueHeld u g a = s.goOn u a ((g.issuedAs.map fun h => h.mask).getD (BitVec.allOnes 32)) := by
  unfold State.issueHeld
  split
  · simp [*]
  · simp [*]
  · exact absurd (hpair _ ‹_›) (by simp)

/-- A group at an instruction boundary with one PC issues the instruction at that PC. -/
theorem State.issueGroup_alone {g : Group} (hg : look s.groups u = some g) (hmay : s.mayIssue g = true) (hb : g.wait.boundary = true)
    (ha : g.pcA none = some a) (hone : s.lastSkid g = true ∨ g.pcA (some a) = none) : s.issueGroup u = s.issueAlone u a := by
  have hnone : (if s.lastSkid g then none else g.pcA (some a)) = none := by
    obtain h | h := hone <;> simp [h]
  simp [State.issueGroup, hg, hmay, hb, ha, hnone]

/-- A group that an issued instruction holds goes on with it. -/
theorem State.issueGroup_held {g : Group} {how : HoldKind} (hg : look s.groups u = some g) (hmay : s.mayIssue g = true)
    (hb : g.wait.boundary = false) (hw : g.wait = .retry a how) : s.issueGroup u = s.issueHeld u g a := by
  rw [hw] at hb
  simp [State.issueGroup, hg, hmay, hw, hb]

/-- The first group of the order decides the cycle when it issues; otherwise the stage goes on from what it left. -/
theorem State.issueFirst_cons_next {us : List Nat} {t : State} (h : s.issueGroup u = .next t) :
    s.issueFirst (u :: us) = if didIssue s t u then .next (s.noteIssue t u) else t.issueFirst us := by
  simp [State.issueFirst, h]

theorem State.issueFirst_cons_stop {us : List Nat} (h : ∀ t, s.issueGroup u ≠ .next t) : s.issueFirst (u :: us) = s.issueGroup u := by
  simp only [State.issueFirst]

/-- A step whose pick is a cycle of an issue stage serves the groups in their order. -/
theorem step_issue {quad : Nat} {busy : List Nat} {rest : List Pick} (hs : s.sched = .issue quad busy :: rest) (ho : s.overdue = none) :
    step s = nextCycle (({ s with sched := rest } : State).issueFirst (({ s with sched := rest } : State).issueOrder quad busy)) := by
  simp only [step, State.advance, ho, hs]
  rfl
end

/-- An outcome that is no next state ends the cycle as it is. -/
theorem nextCycle_of_stop {o : Out} (h : ∀ t, o ≠ .next t) : nextCycle o = o := by
  cases o with
  | next t => exact absurd rfl (h t)
  | _ => rfl

/-- The end of a cycle in which group `u` came first: it issued, the stage went on from what it left, or the group's outcome is the step's. -/
theorem nextCycle_issueFirst {s : State} {u : Nat} {us : List Nat} {o : Out} (h : s.issueGroup u = o) :
    (∀ t, o = .next t →
      nextCycle (s.issueFirst (u :: us)) = nextCycle (if didIssue s t u then .next (s.noteIssue t u) else t.issueFirst us))
    ∧ ((∀ t, o ≠ .next t) → nextCycle (s.issueFirst (u :: us)) = o) := by
  refine ⟨fun t ht => ?_, fun hstop => ?_⟩
  · rw [State.issueFirst_cons_next (h.trans ht)]
  · rw [State.issueFirst_cons_stop (by simpa [h] using hstop), h, nextCycle_of_stop hstop]

/-- Settles O57: the pick serves the order's first group, whose plan at its PC (or whose held instruction) is to run the word's
instruction. -/
theorem stepRunsDecoded : Obligations.StepRunsDecoded := by
  intro s quad busy rest u us g a w x i hs ho s0 horder hg hmay hcase s1 hv hf hi hgap hsb hrun o
  have hstep : step s = nextCycle (s0.issueFirst (u :: us)) := horder ▸ step_issue hs ho
  have hgroup : s0.issueGroup u = o := by
    obtain ⟨hb, ha, hone⟩ | ⟨hb, ⟨how, hw⟩, hpair⟩ := hcase
    · have hs1 : s1 = s0.at_ u a := by simp only [s1, hb, if_true]; rfl
      have hws : w.s = s1 := (view?_eq hv).1
      have hplan : w.plan = .run x i :=
        View.plan_eq_run (by simpa only [hws] using hf) hi hgap hsb hrun
      rw [State.issueGroup_alone hg hmay hb ha hone, State.issueAlone_of_run (hs1 ▸ hv) hplan, ← hs1]
    · have hs1 : s1 = s0.atHeld u a ((g.issuedAs.map fun h => h.mask).getD (BitVec.allOnes 32)) := by
        simp only [s1, hb, Bool.false_eq_true, if_false]; rfl
      rw [State.issueGroup_held hg hmay hb hw, State.issueHeld_single hpair, State.goOn_of_fetch (hs1 ▸ hv) hf hi, ← hs1]
  rw [hstep]
  exact nextCycle_issueFirst hgroup

end Sys2Proof.Machine

namespace Sys2Proof.Machine

/-! ## Completion of an instruction, and the refill of a slot (R43, R75 to R80, R142) -/

theorem dropAt_eq {α : Type} (l : List α) (k : Nat) : dropAt l k = l.take k ++ l.drop (k + 1) := by
  induction l generalizing k with
  | nil => simp [dropAt]
  | cons a l ih =>
    cases k with
    | zero => rfl
    | succ n => simp [dropAt, ih]

/-- The group when entry k of its instructions, `x`, has completed. -/
def Group.completed (g : Group) (k : Nat) (x : Inflight) : Group :=
  ({ g with inflight := dropAt g.inflight k, fflags := g.fflags ||| x.flags } : Group).leaveSb x.sb

theorem Group.logs_completed (g : Group) (cx : Ctx) (k : Nat) (x : Inflight) : x.logs cx (g.completed k x) = x.logs cx g := by
  unfold Group.completed
  cases x.sb <;> rfl

@[simp] theorem Group.leaveSb_core (g : Group) (n : Option Nat) : (g.leaveSb n).core = g.core := by
  cases n <;> rfl

@[simp] theorem Group.leaveSb_inflight (g : Group) (n : Option Nat) : (g.leaveSb n).inflight = g.inflight := by
  cases n <;> rfl

theorem Group.rget_leaveSb (g : Group) (n : Option Nat) (j : Nat) :
    rget 0 (g.leaveSb n).sb j = if n = some j then rget 0 g.sb j - 1 else rget 0 g.sb j := by
  cases n with
  | none => simp [Group.leaveSb]
  | some k =>
    simp only [Group.leaveSb, rget_rput, Option.some.injEq, eq_comm (a := k)]
    split <;> simp_all

theorem settle_sb (now : Nat) (g : Group) : (g.settle now).sb = g.sb := by
  obtain ⟨a, b, c, e, -⟩ := settle_settled now g
  rw [e]

section
variable {s : State} {u k : Nat} {g : Group} {tm : Team} {cx : Ctx} {x : Inflight}
variable (hg : look s.groups u = some g) (htm : look s.teams g.team = some tm) (hcx : look s.ctxs tm.ctx = some cx)
  (hx : g.inflight[k]? = some x) (hdone : s.doneNow g x.when_ = true)
include hg htm hcx hx hdone

/-- An entry that is done, and whose record waits for none before it, completes: it gives its record or none. -/
theorem completeInstr_eq (hfirst : x.logs cx g = true → ((g.inflight.take k).any fun y => y.logs cx g) = false) :
    s.completeInstr u k = if x.logs cx g then s.logRecord u cx (g.completed k x) ⟨x.pc, x.opc, x.flags⟩
      else s.setGroup u (g.completed k x) := by
  have hlogs := g.logs_completed cx k x
  simp only [Group.completed] at hlogs ⊢
  cases h : x.logs cx g
  · simp [State.completeInstr, hg, htm, hcx, hx, hdone, h, hlogs]
  · simp [State.completeInstr, hg, htm, hcx, hx, hdone, h, hlogs, hfirst h]
end

theorem exec_instructionComplete_entry {s : State} {u k : Nat} {g : Group} {x : Inflight} (hg : look s.groups u = some g)
    (hx : g.inflight[k]? = some x) : exec (.instructionComplete u k) s = .next (s.completeInstr u k) := by
  have hk : k < g.inflight.length := (List.getElem?_eq_some_iff.mp hx).1
  simp [exec_instructionComplete, execInstructionComplete, hg, hk]
 
theorem Group.completed_core (g : Group) (k : Nat) (x : Inflight) :
    (g.completed k x).core = ({ g with fflags := g.fflags ||| x.flags } : Group).core := by
  rw [Group.completed, Group.leaveSb_core]
  rfl

theorem core_withLogOut {a b : Group} (h : a.core = b.core) {l l' : List (VA × List Byte)} (hl : l = l') :
    ({ a with logOut := l } : Group).core = ({ b with logOut := l' } : Group).core := by
  subst hl
  exact congrArg (fun c : Group => { c with logOut := l }) h

/-- A record that finds a free slot takes it: the context counts it, and it waits for the group's store buffer (R79). -/
theorem logSlot_spec {s : State} {u : Nat} {G : Group} {tm : Team} {cx : Ctx} (r : LogRec) (htm : look s.teams G.team = some tm)
    (hcx : look s.ctxs tm.ctx = some cx) :
    GroupIs ((s.setGroup u G).logSlot u r) u { G with logOut := G.logOut ++ [(cx.logVa, r.bytes G tm)] }
      ∧ look ((s.setGroup u G).logSlot u r).ctxs tm.ctx = some { cx with alogwidx := cx.alogwidx + 1 } := by
  have hcore := settle_core s.cycle G
  have hteam : (G.settle s.cycle).team = G.team := (congrArg Group.team hcore :)
  have hout : (G.settle s.cycle).logOut = G.logOut := (congrArg Group.logOut hcore :)
  have hbytes : r.bytes (G.settle s.cycle) tm = r.bytes G tm := by
    have hgidx : (G.settle s.cycle).gidx = G.gidx := (congrArg Group.gidx hcore :)
    simp only [LogRec.bytes, hgidx]
  have hslot : (s.setGroup u G).logSlot u r
      = ((s.setGroup u G).updCtx tm.ctx fun c => { c with alogwidx := c.alogwidx + 1 }).setGroup u
          { G.settle s.cycle with logOut := G.logOut ++ [(cx.logVa, r.bytes G tm)] } := by
    simp only [State.logSlot, State.setGroup_groups, look_put_same, hteam, State.setGroup_teams, htm, State.setGroup_ctxs, hcx, hout,
      hbytes]
  rw [hslot]
  refine ⟨⟨_, by rw [State.setGroup_groups, look_put_same], ?_⟩, ?_⟩
  · rw [settle_core]
    exact core_withLogOut hcore rfl
  · rw [State.setGroup_ctxs, State.updCtx_ctxs, look_upd_self, State.setGroup_ctxs, hcx]
    rfl

/-- A group that goes into a slot with a runnable thread stays in it. -/
theorem settle_of_slot {now : Nat} {g : Group} (hslot : g.slot.isSome = true) (hrun : g.hasRun = true) : g.settle now = g := by
  have hnone : g.slot.isNone = false := by simpa using hslot
  simp [Group.settle, hslot, hnone, hrun]

theorem any_running_map_bare (l : List Thread) : (l.map Thread.bare).any Thread.running = l.any Thread.running := by
  rw [List.any_map]
  rfl

theorem laneSwitch_hasRun (g : Group) : g.laneSwitch.hasRun = g.hasRun := by
  rw [Group.hasRun, Group.hasRun, ← any_running_map_bare, laneSwitch_bare, any_running_map_bare]

section
variable {s : State} {u k : Nat} {g : Group} {tm : Team} {cx : Ctx} {x : Inflight}
variable (hg : look s.groups u = some g) (htm : look s.teams g.team = some tm) (hcx : look s.ctxs tm.ctx = some cx)
  (hx : g.inflight[k]? = some x) (hdone : s.doneNow g x.when_ = true)
include hg htm hcx hx hdone

/-- An instruction without exceptions to log completes: its exceptions are in SR.FFLAGS, and it has left its counter (R43, R75). -/
theorem instructionComplete_quiet (hlog : x.logs cx g = false) :
    ∃ t, exec (.instructionComplete u k) s = .next t ∧ Leaves s u t { g with fflags := g.fflags ||| x.flags }
      ∧ ∃ g', look t.groups u = some g' ∧ g'.inflight = g.inflight.take k ++ g.inflight.drop (k + 1)
        ∧ ∀ n, rget 0 g'.sb n = if x.sb = some n then rget 0 g.sb n - 1 else rget 0 g.sb n := by
  refine ⟨_, exec_instructionComplete_entry hg hx, ?_⟩
  rw [completeInstr_eq hg htm hcx hx hdone (by simp [hlog]), hlog, if_neg (by simp)]
  refine ⟨(setGroup_leaves _ _ _).of_core (g.completed_core k x), _, by rw [State.setGroup_groups, look_put_same], ?_, fun n => ?_⟩
  · rw [settle_inflight, Group.completed, Group.leaveSb_inflight, dropAt_eq]
  · rw [settle_sb, Group.completed, Group.rget_leaveSb]

/-- The first instruction with exceptions to log gives its record, when the group holds none. -/
theorem instructionComplete_logs (hlog : x.logs cx g = true) (hfirst : ((g.inflight.take k).any fun y => y.logs cx g) = false)
    (hheld : g.heldLog = none) :
    exec (.instructionComplete u k) s = .next (if cx.logFree
      then (s.setGroup u (g.completed k x)).logSlot u ⟨x.pc, x.opc, x.flags⟩
      else s.setGroup u { g.completed k x with heldLog := some ⟨x.pc, x.opc, x.flags⟩ }) := by
  have hheld' : (g.completed k x).heldLog = none := (congrArg Group.heldLog (g.completed_core k x) :).trans hheld
  rw [exec_instructionComplete_entry hg hx, completeInstr_eq hg htm hcx hx hdone fun _ => hfirst, if_pos hlog, State.logRecord, hheld']

/-- A record takes the next slot of a log with a free one (R78, R79). -/
theorem instructionComplete_slot (hlog : x.logs cx g = true) (hfirst : ((g.inflight.take k).any fun y => y.logs cx g) = false)
    (hheld : g.heldLog = none) (hfree : cx.alogwidx.toNat < cx.alogcap.toNat) :
    ∃ t, exec (.instructionComplete u k) s = .next t
      ∧ GroupIs t u { g with fflags := g.fflags ||| x.flags,
                             logOut := g.logOut ++ [(cx.logVa, LogRec.bytes ⟨x.pc, x.opc, x.flags⟩ g tm)] }
      ∧ look t.ctxs tm.ctx = some { cx with alogwidx := cx.alogwidx + 1 } := by
  have hcore := g.completed_core k x
  have hteam : (g.completed k x).team = g.team := (congrArg Group.team hcore :)
  have hlog' : (g.completed k x).logOut ++ [(cx.logVa, LogRec.bytes ⟨x.pc, x.opc, x.flags⟩ (g.completed k x) tm)]
      = g.logOut ++ [(cx.logVa, LogRec.bytes ⟨x.pc, x.opc, x.flags⟩ g tm)] := by
    have hout : (g.completed k x).logOut = g.logOut := (congrArg Group.logOut hcore :)
    have hgidx : (g.completed k x).gidx = g.gidx := (congrArg Group.gidx hcore :)
    simp only [hout, LogRec.bytes, hgidx]
  obtain ⟨⟨g', hlook, hg'⟩, hctx⟩ := logSlot_spec (u := u) ⟨x.pc, x.opc, x.flags⟩ (hteam ▸ htm) hcx
  refine ⟨_, instructionComplete_logs hg htm hcx hx hdone hlog hfirst hheld, ?_⟩
  have hroom : cx.logFree = true := decide_eq_true hfree
  rw [if_pos hroom]
  refine ⟨⟨g', hlook, hg'.trans ?_⟩, hctx⟩
  exact core_withLogOut hcore hlog'

/-- A record that finds the log full is held (R79, R80). -/
theorem instructionComplete_held (hlog : x.logs cx g = true) (hfirst : ((g.inflight.take k).any fun y => y.logs cx g) = false)
    (hheld : g.heldLog = none) (hfull : cx.alogcap.toNat ≤ cx.alogwidx.toNat) :
    ∃ t, exec (.instructionComplete u k) s = .next t
      ∧ Leaves s u t { g with fflags := g.fflags ||| x.flags, heldLog := some ⟨x.pc, x.opc, x.flags⟩ } := by
  refine ⟨_, instructionComplete_logs hg htm hcx hx hdone hlog hfirst hheld, ?_⟩
  rw [if_neg (by simpa [Ctx.logFree] using hfull)]
  exact (setGroup_leaves _ _ _).of_core (congrArg (fun c : Group => { c with heldLog := some ⟨x.pc, x.opc, x.flags⟩ }) (g.completed_core k x))
end

/-- SLOT_REFILL puts the group that is ready longest into the free slot. -/
theorem slotRefill_eq {s : State} {q slot u : Nat} {g : Group} (hslot : slot < 8)
    (hfree : (s.groups.all fun x => !(x.2.quad == q && x.2.slot == some slot)) = true) (hu : s.longestReady q = some u)
    (hg : look s.groups u = some g) (hrun : g.hasRun = true) :
    exec (.slotRefill q slot) s
      = .next { s with groups := put s.groups u { g.laneSwitch with slot := some slot, readyAt := none } } := by
  have hsettle : ({ g.laneSwitch with slot := some slot, readyAt := none } : Group).settle s.cycle
      = { g.laneSwitch with slot := some slot, readyAt := none } :=
    settle_of_slot rfl ((laneSwitch_hasRun g).trans hrun)
  have hnone : (s.groups.any fun x => x.2.quad == q && x.2.slot == some slot) = false := by
    simpa [List.any_eq_false, List.all_eq_true, imp_iff_not_or] using hfree
  simp only [exec_slotRefill, execSlotRefill, hslot, hnone, hu, State.updGroup, hg, State.setGroup, hsettle, decide_true,
    Bool.not_false, Bool.and_self, if_true]

/-- Settles O12: what completion and refill put into the group and the context, by whether the entry logs and whether the log has room. -/
theorem completionAndRefill : Obligations.CompletionAndRefill := by
  refine ⟨fun s u k g tm cx x hg htm hcx hx hdone => ⟨?_, ?_, ?_⟩, fun s q slot u g hslot hfree hu hg hrun => ?_⟩
  · exact instructionComplete_quiet hg htm hcx hx hdone
  · exact instructionComplete_slot hg htm hcx hx hdone
  · exact instructionComplete_held hg htm hcx hx hdone
  · refine ⟨_, slotRefill_eq hslot hfree hu hg hrun, ⟨_, rfl, laneSwitch_core g⟩, _, look_put_same _ _ _, rfl, rfl, fun k hk => ?_⟩
    have hlane := laneSwitch_thread g k hk
    exact ⟨(congrArg Thread.b0 hlane :), (congrArg Thread.b1 hlane :), (congrArg Thread.b2 hlane :), (congrArg Thread.b3 hlane :)⟩

end Sys2Proof.Machine

/-! ## What an instruction does before its own effect (R46, R47, R104, R135) -/

namespace Sys2Proof.Machine

section
variable {i : Instr} {s : State} {w : View} {m : Mask} {body : View → Mask → Out}

theorem issue_of_malformed (hv : s.view? = some w) (h : i.uses.legal = false ∨ i.uses.regsOk w.g.regs = false) :
    issue i s body = .next (w.illop (i.opc.getD 0)) := by
  have h' : (!i.uses.legal || !i.uses.regsOk w.g.regs) = true := by simpa using h
  simp only [issue, hv, h', if_true]

variable (hl : i.uses.legal = true) (hr : i.uses.regsOk w.g.regs = true)
include hl hr

theorem issue_of_unprivileged (hv : s.view? = some w) (hp : w.privOk i.uses.priv = false) :
    issue i s body = .next (w.priv (i.opc.getD 0)) := by
  simp [issue, hv, hl, hr, hp]

theorem issue_of_empty (hv : s.view? = some w) (hp : w.privOk i.uses.priv = true) (hm : w.execMask i.uses.ctl.guard = 0) :
    issue i s body = .next (w.skip i.uses.ctl) := by
  simp [issue, hv, hl, hr, hp, hm]

theorem issue_of_operandError {code tinfo : Nat} {bad : Mask} (hv : s.view? = some w) (hp : w.privOk i.uses.priv = true)
    (hm : w.execMask i.uses.ctl.guard ≠ 0)
    (he : w.operandError i.uses (w.execMask i.uses.ctl.guard) = some (code, bad, tinfo)) :
    issue i s body = .next (w.trapHere code bad tinfo) := by
  simp only [issue, hv, hl, hr, hp, he, Bool.not_true, Bool.or_self, Bool.false_eq_true, if_false, if_neg hm]
end

/-- A trap at the instruction, without its effect, is taken for the view's group. -/
theorem trapHere_taken {s : State} {w : View} (hv : s.view? = some w) (code : Nat) (mask : Mask) (tinfo : Nat) :
    TrapTaken w w.g code mask w.pc64 tinfo (w.trapHere code mask tinfo) := by
  obtain ⟨hs, -, -, htm, -⟩ := view?_eq hv
  exact takeTrap_taken w { w.g with lastIssue := w.s.schedOf w.g + 1 } code mask w.pc64 tinfo (by simp [hs, htm])

/-- Every row with an OPC runs through the checks of `issue`. -/
theorem exec_eq_issue {i : Instr} {o : BitVec 10} (h : i.opc = some o) (s : State) : ∃ body, exec i s = issue i s body := by
  cases i <;> cases h <;>
    simp only [exec, execMov, execMovi, execMovs, execMovv, execIadd, execIaddc, execIsub, execIsubb, execImul, execImulh, execImad,
      execImadw, execIdiv, execIrem, execImin, execImax, execIabs, execIneg, execAnd, execOr, execXor, execAndn, execNot, execShl,
      execShr, execSar, execRot, execFshl, execPopc, execClz, execCtz, execBrev, execBfx, execBfi, execIsetp, execIsel, execLea,
      execLeax, execFadd, execFsub, execFmul, execFfma, execFmin, execFmax, execFsetp, execFclass, execFscale, execFrnd,
      execHadd2, execHmul2, execHfma2, execHmin2, execHmax2, execDadd, execDmul, execDfma, execDsetp, execDmin, execDmax, execRcp,
      execRsq, execSqrt, execEx2, execLg2, execSinpi, execCospi, execTanh, execCvtff, execCvtfi, execCvtif, execPackn,
      execUnpackn, execScaleb, execRand, execCvtsr, execPart, execVote, execShfl, execRedux, execScan, execMatch, execElect,
      execBcast, execBra, execBrx, execCall, execCallx, execRet, execLand, execExit, execYield, execPause, execSleep, execNop,
      execCbarm, execCbwait, execBar, execBarc, execLd, execSt, execLds, execSts, execLdp, execStp, execLdx, execStx, execMcst,
      execLdc, execLdun, execPref, execWbp, execWbpAll, execQpop, execQpeek, execFpush, execFpop, execAtom, execAtoms, execAtomx,
      execRed, execFence, execXfence, execAcq, execRel, execAcqr, execPtsrd, execLease, execSwarm, execSwwait, execSwgen,
      execObjdecl, execObjdrop, execMxop, execMxzero, execMxrd, execMxwr, execMxst, execPlane, execUnplane, execMxperm,
      execMxwait, execMxqry, execMxepi, execLeave, execMxscl, execCpstat, execOutrdy, execTcond, execTdone, execTspawn, execTqry,
      execAstart, execAloop, execAstrm, execAend, execTrap, execRett, execSrrd, execSrwr, execLogrd, execHaltStop, execHaltResume,
      execHaltKill, execSysc, execEvwait, execEvsigSig, execEvsigAns, execTlbinvVa, execTlbinvCtx, execTlbinvZone, execFbresp,
      execCtxsave, execCtxload, execCtxq, execQmap, execQunmap, execZcreate, execZdestroy, execZgrow, execZshrink, execZslices,
      execZwaysL2, execZwaysVault, execZchan, execZcoins, execZscrub, execZcommit, execZquery, execCapq, execFfenceFull,
      execFfenceRel, execFfenceAcq, execPtprd, execTimens, execPeerq, execRlease, execFcontainFence, execFcontainClear, laneOp,
      groupOp, specOp, intBin, fbin, branchOp, loadOp, zoneForm, bitBin, shiftOp, bitUn, fminmax, storeOp, fenceOp, onceOp, intUn,
      fter, fsetp, packedBin, packedMinmax, barOp, queueOp, Sys2Proof.Machine.atomOp, relOp, waysForm]
  case movi x => cases x.d <;> exact ⟨_, rfl⟩
  all_goals exact ⟨_, rfl⟩

/-- A lane form that issues completes with its results and its exceptions. -/
theorem laneOp_completes {i : Instr} {s : State} {w : View} {m : Mask} (h : Issues i s w m) (sx : Bool)
    (out : View → Mask → Nat → LaneOut) :
    ∃ sx' out' t, laneOp i s sx out = .next t ∧ LaneDone i w m sx' out' t ∧ Excepts i w m out' t :=
  ⟨sx, out w m, _, issue_runs h _, finish_done i w m sx _, finish_excepts i w m sx _⟩

/-! Every event answers a next state: one case for each branch of its definition. -/

/-- The outcome is a next state. -/
def Proceeds (o : Out) : Prop := ∃ t, o = .next t

theorem Proceeds.next (t : State) : Proceeds (.next t) := ⟨t, rfl⟩

theorem lineEvent_proceeds (u ld k : Nat) (s : State) (on : LineStat → Bool) (f : LineCtx → State) :
    Proceeds (lineEvent u ld k s on f) := by
  fun_cases lineEvent <;> exact Proceeds.next _

theorem execHaltsib_proceeds (u s) : Proceeds (execHaltsib u s) := by
  fun_cases execHaltsib <;> exact Proceeds.next _
theorem execArithlog_proceeds (u s) : Proceeds (execArithlog u s) := by
  fun_cases execArithlog <;> exact Proceeds.next _
theorem execInstructionComplete_proceeds (u k s) : Proceeds (execInstructionComplete u k s) := by
  fun_cases execInstructionComplete <;> exact Proceeds.next _
theorem execSlotRefill_proceeds (quad slot s) : Proceeds (execSlotRefill quad slot s) := by
  fun_cases execSlotRefill <;> exact Proceeds.next _
theorem execHoldExpiry_proceeds (u t s) : Proceeds (execHoldExpiry u t s) :=
  Proceeds.next _
theorem execSleepExpiry_proceeds (u t s) : Proceeds (execSleepExpiry u t s) :=
  Proceeds.next _
theorem execBarRelease_proceeds (team b s) : Proceeds (execBarRelease team b s) := by
  fun_cases execBarRelease <;> exact Proceeds.next _
theorem execBarcRelease_proceeds (team b s) : Proceeds (execBarcRelease team b s) := by
  fun_cases execBarcRelease <;> exact Proceeds.next _
theorem execGroupRetire_proceeds (u s) : Proceeds (execGroupRetire u s) := by
  fun_cases execGroupRetire <;> exact Proceeds.next _
theorem execPtsWindowTick_proceeds (u s) : Proceeds (execPtsWindowTick u s) := by
  fun_cases execPtsWindowTick <;> exact Proceeds.next _
theorem execGrantL2_proceeds (u ld k s) : Proceeds (execGrantL2 u ld k s) :=
  lineEvent_proceeds ..
theorem execLineFill_proceeds (u ld k s) : Proceeds (execLineFill u ld k s) :=
  lineEvent_proceeds ..
theorem execRenewalReturn_proceeds (u ld k s) : Proceeds (execRenewalReturn u ld k s) :=
  lineEvent_proceeds ..
theorem execEpochRollover_proceeds (z s) : Proceeds (execEpochRollover z s) := by
  fun_cases execEpochRollover <;> exact Proceeds.next _
theorem execStoreBufferLeave_proceeds (u s) : Proceeds (execStoreBufferLeave u s) := by
  fun_cases execStoreBufferLeave <;> exact Proceeds.next _
theorem execPerformAtHome_proceeds (u k s) : Proceeds (execPerformAtHome u k s) := by
  fun_cases execPerformAtHome <;> exact Proceeds.next _
theorem execStoreAck_proceeds (u k s) : Proceeds (execStoreAck u k s) := by
  fun_cases execStoreAck <;> exact Proceeds.next _
theorem execWalk_proceeds (u s) : Proceeds (execWalk u s) := by
  fun_cases execWalk <;> exact Proceeds.next _
theorem execFaultRecord_proceeds (u s) : Proceeds (execFaultRecord u s) := by
  unfold execFaultRecord
  split
  · exact Proceeds.next _
  split
  · split
    · exact Proceeds.next _
    · exact Proceeds.next _
  · exact Proceeds.next _
theorem execBankReqmode_proceeds (from_ bank mode s) : Proceeds (execBankReqmode from_ bank mode s) := by
  fun_cases execBankReqmode <;> exact Proceeds.next _
theorem execWriteback_proceeds (bank s) : Proceeds (execWriteback bank s) := by
  fun_cases execWriteback <;> exact Proceeds.next _
theorem execWaitrelease_proceeds (bank s) : Proceeds (execWaitrelease bank s) := by
  fun_cases execWaitrelease <;> exact Proceeds.next _
theorem execZerofill_proceeds (bank s) : Proceeds (execZerofill bank s) := by
  fun_cases execZerofill <;> exact Proceeds.next _
theorem execPeerAccessResume_proceeds (tk s) : Proceeds (execPeerAccessResume tk s) := by
  fun_cases execPeerAccessResume <;> exact Proceeds.next _
theorem execMxopAccept_proceeds (u s) : Proceeds (execMxopAccept u s) := by
  fun_cases execMxopAccept <;> exact Proceeds.next _
theorem execMatrixOpStart_proceeds (qn s) : Proceeds (execMatrixOpStart qn s) := by
  fun_cases execMatrixOpStart <;> exact Proceeds.next _
theorem execMatrixOpComplete_proceeds (qn s) : Proceeds (execMatrixOpComplete qn s) := by
  fun_cases execMatrixOpComplete <;> exact Proceeds.next _
theorem execLeaveGrant_proceeds (d s) : Proceeds (execLeaveGrant d s) := by
  fun_cases execLeaveGrant <;> exact Proceeds.next _
theorem execLeaveReturn_proceeds (q s) : Proceeds (execLeaveReturn q s) :=
  Proceeds.next _
theorem execGovernorPeriod_proceeds (d s) : Proceeds (execGovernorPeriod d s) := by
  fun_cases execGovernorPeriod <;> exact Proceeds.next _
theorem execPowerSample_proceeds (overrun rates s) : Proceeds (execPowerSample overrun rates s) := by
  fun_cases execPowerSample <;> exact Proceeds.next _
theorem execKick_proceeds (from_ q w s) : Proceeds (execKick from_ q w s) :=
  Proceeds.next _
theorem execDirectoryW1c_proceeds (from_ q v s) : Proceeds (execDirectoryW1c from_ q v s) :=
  Proceeds.next _
theorem execPacketFetch_proceeds (slot s) : Proceeds (execPacketFetch slot s) := by
  fun_cases execPacketFetch <;> exact Proceeds.next _
theorem execNodeReady_proceeds (gr nd s) : Proceeds (execNodeReady gr nd s) := by
  fun_cases execNodeReady <;> exact Proceeds.next _
theorem execClusterPlace_proceeds (gr nd pl s) : Proceeds (execClusterPlace gr nd pl s) := by
  fun_cases execClusterPlace <;> exact Proceeds.next _
theorem execNodeDispatch_proceeds (gr nd s) : Proceeds (execNodeDispatch gr nd s) := by
  fun_cases execNodeDispatch <;> exact Proceeds.next _
theorem execConditionRead_proceeds (gr nd s) : Proceeds (execConditionRead gr nd s) := by
  fun_cases execConditionRead <;> exact Proceeds.next _
theorem execNodeRetire_proceeds (gr nd s) : Proceeds (execNodeRetire gr nd s) := by
  fun_cases execNodeRetire <;> exact Proceeds.next _
theorem execCompletionRecord_proceeds (gr s) : Proceeds (execCompletionRecord gr s) := by
  fun_cases execCompletionRecord <;> exact Proceeds.next _
theorem execTramLine_proceeds (k s) : Proceeds (execTramLine k s) := by
  fun_cases execTramLine <;> exact Proceeds.next _
theorem execCopyEnd_proceeds (k s) : Proceeds (execCopyEnd k s) := by
  fun_cases execCopyEnd <;> exact Proceeds.next _
theorem execStreamStart_proceeds (u qn s) : Proceeds (execStreamStart u qn s) := by
  fun_cases execStreamStart <;> exact Proceeds.next _
theorem execStreamRead_proceeds (u qn s) : Proceeds (execStreamRead u qn s) := by
  fun_cases execStreamRead <;> exact Proceeds.next _
theorem execCoinPeriod_proceeds (s) : Proceeds (execCoinPeriod s) := by
  fun_cases execCoinPeriod <;> exact Proceeds.next _
theorem execEventPlace_proceeds (target s) : Proceeds (execEventPlace target s) := by
  fun_cases execEventPlace <;> exact Proceeds.next _
theorem execEvwaitTimeout_proceeds (u s) : Proceeds (execEvwaitTimeout u s) := by
  fun_cases execEvwaitTimeout <;> exact Proceeds.next _
theorem execSliceChange_proceeds (q ctx s) : Proceeds (execSliceChange q ctx s) :=
  Proceeds.next _
theorem execStopRequest_proceeds (tk s) : Proceeds (execStopRequest tk s) := by
  fun_cases execStopRequest <;> exact Proceeds.next _
theorem execTeamStopped_proceeds (tk s) : Proceeds (execTeamStopped tk s) := by
  fun_cases execTeamStopped <;> exact Proceeds.next _
theorem execOverrun_proceeds (tk cycles s) : Proceeds (execOverrun tk cycles s) := by
  fun_cases execOverrun <;> exact Proceeds.next _
theorem execMigration_proceeds (tk core quads s) : Proceeds (execMigration tk core quads s) := by
  fun_cases execMigration <;> exact Proceeds.next _
theorem execImageUpdate_proceeds (tk s) : Proceeds (execImageUpdate tk s) := by
  fun_cases execImageUpdate <;> exact Proceeds.next _
theorem execScrubEnd_proceeds (bank n s) : Proceeds (execScrubEnd bank n s) := by
  fun_cases execScrubEnd <;> exact Proceeds.next _
theorem execDepartureEnd_proceeds (z s) : Proceeds (execDepartureEnd z s) := by
  fun_cases execDepartureEnd <;> exact Proceeds.next _
theorem execWayFree_proceeds (z s) : Proceeds (execWayFree z s) := by
  fun_cases execWayFree <;> exact Proceeds.next _
theorem execSweepEnd_proceeds (z d s) : Proceeds (execSweepEnd z d s) := by
  fun_cases execSweepEnd <;> exact Proceeds.next _
theorem execMigrationBatch_proceeds (z s) : Proceeds (execMigrationBatch z s) := by
  fun_cases execMigrationBatch <;> exact Proceeds.next _
theorem execZoneCommit_proceeds (z s) : Proceeds (execZoneCommit z s) := by
  fun_cases execZoneCommit <;> exact Proceeds.next _
theorem execRemoteRequest_proceeds (dev pa n op s) : Proceeds (execRemoteRequest dev pa n op s) := by
  fun_cases execRemoteRequest <;> exact Proceeds.next _
theorem execRemoteResponse_proceeds (k r s) : Proceeds (execRemoteResponse k r s) := by
  fun_cases execRemoteResponse <;> exact Proceeds.next _
theorem execHeldWriteRelease_proceeds (k s) : Proceeds (execHeldWriteRelease k s) := by
  fun_cases execHeldWriteRelease <;> exact Proceeds.next _
theorem execFenceAssistAnswer_proceeds (u s) : Proceeds (execFenceAssistAnswer u s) := by
  fun_cases execFenceAssistAnswer <;> exact Proceeds.next _
theorem execSuspect_proceeds (dev s) : Proceeds (execSuspect dev s) := by
  fun_cases execSuspect <;> exact Proceeds.next _
theorem execProbeTimeout_proceeds (dev s) : Proceeds (execProbeTimeout dev s) := by
  fun_cases execProbeTimeout <;> exact Proceeds.next _
theorem execLinkDown_proceeds (dev s) : Proceeds (execLinkDown dev s) := by
  fun_cases execLinkDown <;> exact Proceeds.next _
theorem execRemoteFailure_proceeds (k s) : Proceeds (execRemoteFailure k s) := by
  fun_cases execRemoteFailure <;> exact Proceeds.next _
theorem execRemote_proceeds (u s) : Proceeds (execRemote u s) := by
  fun_cases execRemote <;> exact Proceeds.next _
theorem execCollectiveRetire_proceeds (gr nd status inputs s) : Proceeds (execCollectiveRetire gr nd status inputs s) := by
  fun_cases execCollectiveRetire <;> exact Proceeds.next _
theorem execPtpMessage_proceeds (locked now s) : Proceeds (execPtpMessage locked now s) := by
  fun_cases execPtpMessage <;> exact Proceeds.next _
theorem execPpsEdge_proceeds (now s) : Proceeds (execPpsEdge now s) := by
  fun_cases execPpsEdge <;> exact Proceeds.next _
theorem execHoldoverExpiry_proceeds (s) : Proceeds (execHoldoverExpiry s) := by
  fun_cases execHoldoverExpiry <;> exact Proceeds.next _
theorem execReferenceLoss_proceeds (s) : Proceeds (execReferenceLoss s) :=
  Proceeds.next _
theorem execHostCompletion_proceeds (k ok s) : Proceeds (execHostCompletion k ok s) := by
  fun_cases execHostCompletion <;> exact Proceeds.next _
theorem execHostRequest_proceeds (from_ pa n op s) : Proceeds (execHostRequest from_ pa n op s) := by
  fun_cases execHostRequest <;> exact Proceeds.next _
theorem execChipletFence_proceeds (from_ c s) : Proceeds (execChipletFence from_ c s) :=
  Proceeds.next _
theorem execChipletPowerOff_proceeds (from_ c s) : Proceeds (execChipletPowerOff from_ c s) :=
  Proceeds.next _
theorem execChipletReset_proceeds (from_ c s) : Proceeds (execChipletReset from_ c s) :=
  Proceeds.next _
theorem execResetDone_proceeds (c pass s) : Proceeds (execResetDone c pass s) := by
  fun_cases execResetDone <;> exact Proceeds.next _
theorem execChipletError_proceeds (c s) : Proceeds (execChipletError c s) := by
  fun_cases execChipletError <;> exact Proceeds.next _
theorem execExchangeTakeover_proceeds (s) : Proceeds (execExchangeTakeover s) := by
  fun_cases execExchangeTakeover <;> exact Proceeds.next _
theorem execCoreFence_proceeds (core s) : Proceeds (execCoreFence core s) := by
  fun_cases execCoreFence <;> exact Proceeds.next _
theorem execChannelLoss_proceeds (ch readable s) : Proceeds (execChannelLoss ch readable s) := by
  fun_cases execChannelLoss <;> exact Proceeds.next _
theorem execHealthW1c_proceeds (from_ v s) : Proceeds (execHealthW1c from_ v s) :=
  Proceeds.next _
theorem execColdReset_proceeds (s) : Proceeds (execColdReset s) := by
  fun_cases execColdReset <;> exact Proceeds.next _
theorem execAttestationRequest_proceeds (from_ nonce zone dest s) : Proceeds (execAttestationRequest from_ nonce zone dest s) := by
  fun_cases execAttestationRequest <;> exact Proceeds.next _
theorem execRegisterWrite_proceeds (from_ pa n v s) : Proceeds (execRegisterWrite from_ pa n v s) := by
  fun_cases execRegisterWrite <;> exact Proceeds.next _
theorem execSweepVisit_proceeds (z d line s) : Proceeds (execSweepVisit z d line s) := by
  fun_cases execSweepVisit <;> exact Proceeds.next _

/-- Settles O53: every row with an OPC goes through the checks of `issue`, in R47's order; the lane forms then complete; and an event has
no branch that answers anything but a next state. -/
theorem issueChecks : Obligations.IssueChecks := by
  refine ⟨fun i o s w ho hv => ?_, fun s w m => ?_, fun s => ?_⟩
  · obtain ⟨body, hexec⟩ := exec_eq_issue ho s
    have hopc : i.opc.getD 0 = o := by simp [ho]
    rw [hexec]
    refine ⟨fun h => ⟨_, issue_of_malformed hv h, hopc ▸ trapHere_taken hv ..⟩,
      fun hl hr => ⟨fun hp => ?_, fun hp => ⟨fun hm => ?_, ?_⟩⟩⟩
    · exact ⟨_, issue_of_unprivileged hl hr hv hp, hopc ▸ trapHere_taken hv ..⟩
    · exact ⟨_, issue_of_empty hl hr hv hp hm, issued_leaves ..⟩
    · exact fun hm code bad info he => ⟨_, issue_of_operandError hl hr hv hp hm he, trapHere_taken hv ..⟩
  · intro completes
    and_intros <;> intro x h <;>
      simp only [exec, execFadd, execFsub, execFmul, execFfma, execFmin, execFmax, execFsetp, execFclass, execFscale, execFrnd,
      execHadd2, execHmul2, execHfma2, execHmin2, execHmax2, execDadd, execDmul, execDfma, execDsetp, execDmin, execDmax,
      execRcp, execRsq, execSqrt, execEx2, execLg2, execSinpi, execCospi, execTanh, execCvtff, execCvtfi, execCvtif,
      execPackn, execUnpackn, execScaleb, execRand, execCvtsr, execVote, execShfl, execRedux, execScan, execMatch, execElect,
      execBcast, specOp, fbin, fter, fminmax, fsetp, packedBin, packedMinmax] <;>
      exact laneOp_completes h _ _
  · exact ⟨fun _ => execHaltsib_proceeds .., fun _ => execArithlog_proceeds .., fun _ _ => execInstructionComplete_proceeds .., fun _ _
      => execSlotRefill_proceeds .., fun _ _ => execHoldExpiry_proceeds .., fun _ _ => execSleepExpiry_proceeds .., fun _ _ =>
      execBarRelease_proceeds .., fun _ _ => execBarcRelease_proceeds .., fun _ => execGroupRetire_proceeds .., fun _ =>
      execPtsWindowTick_proceeds .., fun _ _ _ => execGrantL2_proceeds .., fun _ _ _ => execLineFill_proceeds .., fun _ _ _ =>
      execRenewalReturn_proceeds .., fun _ => execEpochRollover_proceeds .., fun _ => execStoreBufferLeave_proceeds .., fun _ _ =>
      execPerformAtHome_proceeds .., fun _ _ => execStoreAck_proceeds .., fun _ => execWalk_proceeds .., fun _ =>
      execFaultRecord_proceeds .., fun _ _ _ => execBankReqmode_proceeds .., fun _ => execWriteback_proceeds .., fun _ =>
      execWaitrelease_proceeds .., fun _ => execZerofill_proceeds .., fun _ => execPeerAccessResume_proceeds .., fun _ =>
      execMxopAccept_proceeds .., fun _ => execMatrixOpStart_proceeds .., fun _ => execMatrixOpComplete_proceeds .., fun _ =>
      execLeaveGrant_proceeds .., fun _ => execLeaveReturn_proceeds .., fun _ => execGovernorPeriod_proceeds .., fun _ _ =>
      execPowerSample_proceeds .., fun _ _ _ => execKick_proceeds .., fun _ _ _ => execDirectoryW1c_proceeds .., fun _ =>
      execPacketFetch_proceeds .., fun _ _ => execNodeReady_proceeds .., fun _ _ _ => execClusterPlace_proceeds .., fun _ _ =>
      execNodeDispatch_proceeds .., fun _ _ => execConditionRead_proceeds .., fun _ _ => execNodeRetire_proceeds .., fun _ =>
      execCompletionRecord_proceeds .., fun _ => execTramLine_proceeds .., fun _ => execCopyEnd_proceeds .., fun _ _ =>
      execStreamStart_proceeds .., fun _ _ => execStreamRead_proceeds .., execCoinPeriod_proceeds .., fun _ =>
      execEventPlace_proceeds .., fun _ => execEvwaitTimeout_proceeds .., fun _ _ => execSliceChange_proceeds .., fun _ =>
      execStopRequest_proceeds .., fun _ => execTeamStopped_proceeds .., fun _ _ => execOverrun_proceeds .., fun _ _ _ =>
      execMigration_proceeds .., fun _ => execImageUpdate_proceeds .., fun _ _ => execScrubEnd_proceeds .., fun _ =>
      execDepartureEnd_proceeds .., fun _ => execWayFree_proceeds .., fun _ _ => execSweepEnd_proceeds .., fun _ =>
      execMigrationBatch_proceeds .., fun _ => execZoneCommit_proceeds .., fun _ _ _ _ => execRemoteRequest_proceeds .., fun _ _ =>
      execRemoteResponse_proceeds .., fun _ => execHeldWriteRelease_proceeds .., fun _ => execFenceAssistAnswer_proceeds .., fun _
      => execSuspect_proceeds .., fun _ => execProbeTimeout_proceeds .., fun _ => execLinkDown_proceeds .., fun _ =>
      execRemoteFailure_proceeds .., fun _ => execRemote_proceeds .., fun _ _ _ _ => execCollectiveRetire_proceeds .., fun _ _ =>
      execPtpMessage_proceeds .., fun _ => execPpsEdge_proceeds .., execHoldoverExpiry_proceeds .., execReferenceLoss_proceeds ..,
      fun _ _ => execHostCompletion_proceeds .., fun _ _ _ _ => execHostRequest_proceeds .., fun _ _ => execChipletFence_proceeds
      .., fun _ _ => execChipletPowerOff_proceeds .., fun _ _ => execChipletReset_proceeds .., fun _ _ => execResetDone_proceeds ..,
      fun _ => execChipletError_proceeds .., execExchangeTakeover_proceeds .., fun _ => execCoreFence_proceeds .., fun _ _ =>
      execChannelLoss_proceeds .., fun _ _ => execHealthW1c_proceeds .., execColdReset_proceeds .., fun _ _ _ _ =>
      execAttestationRequest_proceeds .., fun _ _ _ _ => execRegisterWrite_proceeds .., fun _ _ _ => execSweepVisit_proceeds ..⟩

end Sys2Proof.Machine

/-! ## A load that lacks a line (R41, R179, R196, R207) -/

namespace Sys2Proof.Machine

/-! Checks and records before the load. -/

/-- The virtual pieces of the threads' accesses, each with its thread and its kind of access. -/
def View.pieceAccs (w : View) (u : Uses) (m : Mask) (n : Nat) (acc : Acc) (addr : Nat → AddrOut) : List (Nat × Acc × VA × Nat × Nat) :=
  ((lanes u m).map fun t => (t, addr t)).flatMap fun o => (w.vPieces o.1 n o.2.tgt).map fun p => (o.1, accOf acc o.2.tgt, p)

section
variable {w : View} {u : Uses} {m : Mask} {n : Nat} {acc : Acc} {addr : Nat → AddrOut} (h : w.accessible u m n acc addr = true)
include h

theorem firstChk_of_accessible :
    firstChk (((lanes u m).map fun t => (t, addr t)).flatMap fun o => o.2.chks.map fun c => (o.1, c)) = none := by
  simp only [View.accessible, List.all_eq_true, Bool.and_eq_true, List.isEmpty_iff] at h
  have hnil : (((lanes u m).map fun t => (t, addr t)).flatMap fun o => o.2.chks.map fun c => (o.1, c)) = [] := by
    simp only [List.flatMap_eq_nil_iff, List.mem_map, forall_exists_index, and_imp]
    rintro _ t ht rfl
    simp [(h t ht).1]
  rw [hnil, firstChk]

theorem lookupVa_of_accessible {v : Nat × Acc × VA × Nat × Nat} (hv : v ∈ w.pieceAccs u m n acc addr) :
    ∃ pa leaf, w.lookupVa v.2.2.1 v.2.1 = some (pa, leaf) ∧ w.s.refusedPa leaf pa = false := by
  simp only [View.accessible, List.all_eq_true, Bool.and_eq_true] at h
  simp only [View.pieceAccs, List.mem_flatMap, List.mem_map] at hv
  obtain ⟨_, ⟨t, ht, rfl⟩, p, hp, rfl⟩ := hv
  have hpiece := (h t ht).2 p hp
  cases hl : w.lookupVa p.1 (accOf acc (addr t).tgt) with
  | none => simp [hl] at hpiece
  | some r => exact ⟨r.1, r.2, rfl, by simpa [hl] using hpiece⟩

/-- An access whose addresses, translations and places pass every check goes on with the translated accesses (R186). -/
theorem access_of_accessible (k : List ThreadAcc → Out) : w.access u m n acc addr k = k (w.accsOf u m n acc addr) := by
  have hmiss : ((w.pieceAccs u m n acc addr).filter fun v => (w.lookupVa v.2.2.1 v.2.1).isNone) = [] := by
    rw [List.filter_eq_nil_iff]
    intro v hv
    obtain ⟨pa, leaf, hl, -⟩ := lookupVa_of_accessible h hv
    simp [hl]
  have haccs : w.accsOf u m n acc addr = ((lanes u m).map fun t => (t, addr t)).map fun o =>
      w.settleTgt { thr := o.1, n := n, tgt := o.2.tgt,
                    pcs := (w.vPieces o.1 n o.2.tgt).filterMap fun p =>
                      (w.lookupVa p.1 (accOf acc o.2.tgt)).map fun r => ⟨o.1, p.2.1, p.2.2, r.1, r.2, p.1⟩ } := by
    rw [List.map_map]
    rfl
  simp only [View.pieceAccs] at hmiss
  simp only [View.access, firstChk_of_accessible h, hmiss, List.map_nil, lowestVa, haccs]
  split
  · rfl
  next hprot =>
    refine absurd (List.filter_eq_nil_iff.mpr fun v hv => ?_) hprot
    obtain ⟨pa, leaf, hl, hr⟩ := lookupVa_of_accessible h hv
    simp [hl, hr]
end

/-- The race check changes the records of objects alone (R234). -/
theorem raceLines_objs {w : View} {write : Bool} {ls : List Nat} {s s' : State} (h : w.raceLines write ls s = some s') :
    ∃ o, s' = { s with objs := o } := by
  induction ls generalizing s with
  | nil =>
    obtain rfl : s = s' := by simpa [View.raceLines] using h
    exact ⟨s.objs, rfl⟩
  | cons l ls ih =>
    simp only [View.raceLines] at h
    split at h
    · exact ih h
    split at h
    · exact ih h
    split at h
    · exact ih h
    split at h
    · cases h
    · obtain ⟨o, rfl⟩ := ih h
      exact ⟨o, rfl⟩

theorem raceCheck_objs {w : View} {accs : List ThreadAcc} {write : Bool} {s1 : State} (h : w.raceCheck accs write = .ok s1) :
    ∃ o, s1 = { w.s with objs := o } := by
  simp only [View.raceCheck] at h
  split at h
  · split at h
    next hs =>
      cases h
      exact raceLines_objs hs
    · cases h
      exact ⟨w.s.objs, rfl⟩
  · cases h

/-- Accesses that pass the race check go on, with their records made. -/
theorem raced_of_passes {w : View} {accs : List ThreadAcc} {write : Bool} {s1 : State} (h : w.Passes accs write s1) (u : Uses) (m : Mask)
    (k : View → Out) : w.raced u m accs write k = k { w with s := s1 } := by
  unfold View.Passes at h
  unfold View.raced
  split at h
  next he => rw [if_pos he, h]
  next he => rw [if_neg he, h]

theorem Passes.objs {w : View} {accs : List ThreadAcc} {write : Bool} {s1 : State} (h : w.Passes accs write s1) :
    ∃ o, s1 = { w.s with objs := o } := by
  unfold View.Passes at h
  split at h
  · exact ⟨w.s.objs, h⟩
  · exact raceCheck_objs h


/-! The lines of a load of data start. -/

theorem map_setAt {α β : Type} (f : α → β) (g : α → α) (h : ∀ a, f (g a) = f a) (l : List α) (k : Nat) :
    (setAt l k g).map f = l.map f := by
  induction l generalizing k with
  | nil => rfl
  | cons a l ih =>
    cases k with
    | zero => simp [setAt, h]
    | succ k => simp [setAt, ih]

theorem getElem?_setAt {α : Type} (g : α → α) (l : List α) (k j : Nat) :
    (setAt l k g)[j]? = if k = j then l[j]?.map g else l[j]? := by
  induction l generalizing k j with
  | nil => simp [setAt]
  | cons a l ih =>
    cases k <;> cases j <;> simp [setAt, ih]

/-- What the bytes of a line leave of the load beside them. -/
theorem LoadRec.foldl_addBytes (byte : Nat → Byte) (ps : List Piece) (r : LoadRec) :
    ∃ got, ps.foldl (fun r p => r.addBytes p byte) r = { r with got := got } := by
  induction ps generalizing r with
  | nil => exact ⟨r.got, rfl⟩
  | cons p ps ih =>
    obtain ⟨got, h⟩ := ih (r.addBytes p byte)
    exact ⟨got, h⟩

theorem LoadRec.bind_eq (r : LoadRec) (k line : Nat) (byte : Nat → Byte) (bad : Bool) :
    ∃ got bads, r.bind k line byte bad
      = { r with got := got, bad := bads, lines := setAt r.lines k fun q => { q with stat := .done } } := by
  obtain ⟨got, h⟩ := LoadRec.foldl_addBytes byte (r.piecesOn line) r
  unfold LoadRec.bind
  dsimp only
  split
  · exact ⟨got, _, by rw [h]⟩
  · exact ⟨r.got, _, rfl⟩

/-- What a line of a load names. -/
def LineReq.key (q : LineReq) : Nat × Leaf := (q.line, q.leaf)

theorem keys_setStat (l : List LineReq) (k : Nat) (st : LineStat) :
    (setAt l k fun q => { q with stat := st }).map LineReq.key = l.map LineReq.key :=
  map_setAt LineReq.key (fun q => { q with stat := st }) (fun _ => rfl) l k

/-- The BASEs when a group with clock p has accessed a cache (R211). -/
def touchedBases (loc zn p : Nat) (bases : AList Nat) : AList Nat :=
  if rget 0 bases (loc * 65 + zn) + 2 ^ 19 ≤ p then rput 0 bases (loc * 65 + zn) (p - 2 ^ 18) else bases

theorem State.touchBase_eq (s : State) (loc zn p : Nat) : s.touchBase loc zn p = { s with bases := touchedBases loc zn p s.bases } := by
  unfold State.touchBase State.baseOf touchedBases
  split <;> rfl

/-- A BASE that a group's clock has touched is touched no more by it. -/
theorem touchedBases_idem (loc zn p : Nat) (bases : AList Nat) :
    touchedBases loc zn p (touchedBases loc zn p bases) = touchedBases loc zn p bases := by
  by_cases h : rget 0 bases (loc * 65 + zn) + 2 ^ 19 ≤ p
  · have hno : ¬ p - 2 ^ 18 + 2 ^ 19 ≤ p := by omega
    simp only [touchedBases, if_pos h, rget_rput_same, if_neg hno]
  · simp only [touchedBases, if_neg h]

/-- A load of data, started in `s1` as `r0`, is underway: only BASEs and requests of the state have changed, no request has failed,
the load waits for the lines it asked for, and line j has not come. -/
structure LoadRun.Underway (s1 : State) (c : LoadCtx) (r0 : LoadRec) (j : Nat) (x : LoadRun) : Prop where
  state : ∃ bases rout seq, x.s = { s1 with bases := bases, rout := rout, reqSeq := seq }
    ∧ (bases = s1.bases ∨ bases = touchedBases (l1Loc c.core) c.zn r0.p s1.bases)
  fail : x.fail = []
  id : x.r.id = r0.id
  p : x.r.p = r0.p
  kind : x.r.kind = r0.kind
  keys : x.r.lines.map LineReq.key = r0.lines.map LineReq.key
  waits : ∃ q, x.r.lines[j]? = some q ∧ q.stat ≠ .done

namespace LoadRun.Underway
variable {s1 : State} {c : LoadCtx} {r0 : LoadRec} {j k : Nat} {x : LoadRun} {q : LineReq}

theorem stat (h : x.Underway s1 c r0 j) {st : LineStat} (hst : st ≠ .done) : (x.stat k st).Underway s1 c r0 j := by
  refine { h with keys := (keys_setStat _ _ _).trans h.keys, waits := ?_ }
  obtain ⟨q, hq, hne⟩ := h.waits
  simp only [LoadRun.stat, getElem?_setAt, hq]
  split
  · exact ⟨_, rfl, hst⟩
  · exact ⟨q, rfl, hne⟩

theorem send (h : x.Underway s1 c r0 j) (r : Req) : ({ x with s := x.s.send r } : LoadRun).Underway s1 c r0 j := by
  obtain ⟨bases, rout, seq, hs, hb⟩ := h.state
  exact { h with state := ⟨bases, put x.s.rout x.s.reqSeq r, x.s.reqSeq + 1, by simp only [State.send, hs], hb⟩ }

theorem bind (h : x.Underway s1 c r0 j) (hk : k ≠ j) (line : Nat) (byte : Nat → Byte) (bad : Bool) (ts : Nat) :
    ({ x with r := x.r.bind k line byte bad, ts := ts } : LoadRun).Underway s1 c r0 j := by
  obtain ⟨got, bads, hr⟩ := x.r.bind_eq k line byte bad
  rw [hr]
  refine { h with keys := (keys_setStat _ _ _).trans h.keys, waits := ?_ }
  simpa only [getElem?_setAt, if_neg hk] using h.waits

theorem touch (h : x.Underway s1 c r0 j) :
    ({ x with s := x.s.touchBase (l1Loc c.core) c.zn x.r.p } : LoadRun).Underway s1 c r0 j := by
  obtain ⟨bases, rout, seq, hs, hb⟩ := h.state
  refine { h with state := ⟨touchedBases (l1Loc c.core) c.zn r0.p s1.bases, rout, seq, ?_, .inr rfl⟩ }
  rw [State.touchBase_eq, h.p, hs]
  obtain rfl | rfl := hb
  · rfl
  · simp only [touchedBases_idem]

theorem askHost (h : x.Underway s1 c r0 j) (k : Nat) (q : LineReq) : (x.askHost c k q).Underway s1 c r0 j := by
  unfold LoadRun.askHost
  split
  · exact h.stat (by simp)
  · exact (h.stat (by simp)).send _

theorem miss (h : x.Underway s1 c r0 j) (k : Nat) (q : LineReq) : (x.miss c k q).Underway s1 c r0 j := by
  unfold LoadRun.miss
  split
  · exact h.askHost k q
  split
  · exact h.stat (by simp)
  · exact h.stat (by simp)

/-- A line of the load is the one that the record asked for. -/
theorem request (h : x.Underway s1 c r0 j) (hq : x.r.lines[k]? = some q) :
    ∃ q0, r0.lines[k]? = some q0 ∧ q.line = q0.line ∧ q.leaf = q0.leaf := by
  have hkey := congrArg (·[k]?) h.keys
  simp only [List.getElem?_map, hq, Option.map_some] at hkey
  obtain ⟨q0, hq0, hk⟩ := Option.map_eq_some_iff.mp hkey.symm
  exact ⟨q0, hq0, (congrArg Prod.fst hk).symm, (congrArg Prod.snd hk).symm⟩

end LoadRun.Underway

section
variable {w : View} {r0 : LoadRec} {j : Nat} {x : LoadRun}

/-- The copy that the start of a line finds in L1 is the one that the view's own look finds. -/
theorem LoadRun.Underway.getL1_touch (h : x.Underway w.s w.lineCtx r0 j) (hp : r0.p = w.g.pts) (line : Nat) :
    (x.s.touchBase (l1Loc w.tm.core) w.cx.zone x.r.p).getL1 w.tm.core w.cx.zone line
      = (w.s.touchBase (l1Loc w.tm.core) w.cx.zone w.g.pts).getL1 w.tm.core w.cx.zone line := by
  obtain ⟨bases, rout, seq, hs, hb⟩ := h.state
  rw [h.p, hp] at *
  rw [State.touchBase_eq, State.touchBase_eq, hs]
  obtain rfl | rfl := hb
  · rfl
  · simp only [View.lineCtx, touchedBases_idem]
    rfl

/-- A copy in L1 that is valid and reaches the group's clock is a hit, for a cached line of this device that is not lost and that no
earlier load waits for. -/
theorem View.l1Hit_eq_some {leaf : Leaf} {line : Nat} {cp : Copy} (hrem : w.s.isRemote line = false) (hreg : ¬ isRegLine line = true)
    (hlost : w.s.lineLost w.cx.zone leaf line = false) (hunc : ¬ leaf.unc = true) (hopen : ¬ w.g.openLines.contains line = true)
    (hhas : w.s.hasL1 w.tm.core w.cx.zone = true)
    (hcopy : (w.s.touchBase (l1Loc w.tm.core) w.cx.zone w.g.pts).getL1 w.tm.core w.cx.zone line = some cp)
    (hxp : cp.xp = false) (hrts : w.g.pts ≤ cp.rts) : w.l1Hit leaf line = some cp := by
  simp only [View.l1Hit, hrem, hreg, hlost, hunc, hopen, hhas, hcopy]
  simp [hxp, hrts]

/-- Line k starts: the load stays underway, for the line that it lacks finds no copy in L1 (R207). -/
theorem LoadRun.Underway.start (h : x.Underway w.s w.lineCtx r0 j) (hp : r0.p = w.g.pts) (hdata : r0.kind = .data)
    (hneed : ∀ q ∈ r0.lines, w.s.isRemote q.line = false ∧ w.s.lineLost w.cx.zone q.leaf q.line = false)
    (hlack : ∀ q, r0.lines[j]? = some q → w.l1Hit q.leaf q.line = none) (k : Nat) :
    (x.start w.lineCtx k).Underway w.s w.lineCtx r0 j := by
  unfold LoadRun.start
  split
  · exact h
  next q hq =>
  obtain ⟨q0, hq0, hline, hleaf⟩ := h.request hq
  obtain ⟨hrem, hlost⟩ := hneed q0 (List.mem_of_getElem? hq0)
  obtain ⟨bases, rout, seq, hs, -⟩ := h.state
  have hrem' : x.s.isRemote q.line = false := by rw [hline, ← hrem, hs]; rfl
  have hlost' : x.s.lineLost w.cx.zone q.leaf q.line = false := by rw [hline, hleaf, ← hlost, hs]; rfl
  have hl1 : (x.s.touchBase (l1Loc w.tm.core) w.cx.zone x.r.p).hasL1 w.tm.core w.cx.zone = w.s.hasL1 w.tm.core w.cx.zone := by
    rw [State.touchBase_eq, hs]; rfl
  have hkind : x.r.kind = .data := h.kind.trans hdata
  have hlease : (x.r.kind == .lease || x.r.kind == .pref) = false := by rw [hkind]; rfl
  have hrlease : (x.r.kind == .rlease) = false := by rw [hkind]; rfl
  have hpref : (x.r.kind == .pref) = false := by rw [hkind]; rfl
  have hfills : x.r.kind.fills = true := by rw [hkind]; rfl
  rw [hlease, Bool.and_false, if_neg Bool.false_ne_true, if_neg (by simp [hrem']), if_neg (by simp [hrlease])]
  split
  · exact h.stat (by simp)
  next hreg =>
  rw [if_neg (by simp [View.lineCtx, hlost'])]
  split
  · split
    · exact h.askHost k q
    · exact h.stat (by simp)
  next hunc =>
  have ht := h.touch
  have hget := h.getL1_touch hp q.line
  extract_lets s x'
  split
  · split
    · exact ht.stat (by simp)
    · exact ht.miss k q
  next cp hcp =>
  rw [if_neg (by simp [x', hpref])]
  split
  · exact ht.stat (by simp)
  next hbehind =>
  split
  next hvalid =>
    refine ht.bind ?_ q.line _ cp.bad _
    rintro rfl
    obtain ⟨hhas, hcopy⟩ := Option.ite_none_right_eq_some.mp hcp
    have hhit := View.l1Hit_eq_some (hline ▸ hrem) hreg (hline ▸ hleaf ▸ hlost) hunc (fun hb => hbehind (by simpa [x', hfills, View.lineCtx] using hb))
      (hl1 ▸ hhas) (hget ▸ hcopy) hvalid.1 (hp ▸ h.p ▸ hvalid.2.1)
    have hnone := hlack q0 hq0
    rw [← hline, ← hleaf, hhit] at hnone
    cases hnone
  · exact ht.stat (by simp)

/-- What the start of all lines leaves of the state: memory, groups, teams and contexts. -/
theorem LoadRun.Underway.sameMemory {s1 : State} {c : LoadCtx} (h : x.Underway s1 c r0 j) : SameMemory s1 x.s := by
  obtain ⟨bases, rout, seq, hs, -⟩ := h.state
  rw [hs]
  exact ⟨rfl, rfl, rfl, rfl, rfl⟩

theorem LoadRun.Underway.not_finished {s1 : State} {c : LoadCtx} (h : x.Underway s1 c r0 j) : x.r.finished = false := by
  obtain ⟨q, hq, hne⟩ := h.waits
  simp only [LoadRec.finished, List.all_eq_false]
  exact ⟨q, List.mem_of_getElem? hq, by simpa using hne⟩

/-- A load of data that lacks line j, started: it is not finished, no request has failed, and memory, groups and teams are as before. -/
theorem startAll_pending (hp : r0.p = w.g.pts) (hdata : r0.kind = .data)
    (hneed : ∀ q ∈ r0.lines, w.s.isRemote q.line = false ∧ w.s.lineLost w.cx.zone q.leaf q.line = false)
    (hlack : ∃ q ∈ r0.lines, w.l1Hit q.leaf q.line = none) (hstat : ∀ q ∈ r0.lines, q.stat ≠ .done) :
    let y := LoadRun.startAll { s := w.s, r := r0 } w.lineCtx
    SameMemory w.s y.s ∧ y.fail = [] ∧ y.r.finished = false ∧ y.r.id = r0.id ∧ y.r.p = r0.p
      ∧ y.r.lines.map (·.line) = r0.lines.map (·.line) := by
  obtain ⟨q, hq, hnone⟩ := hlack
  obtain ⟨j, hj⟩ := List.getElem?_of_mem hq
  have h0 : LoadRun.Underway w.s w.lineCtx r0 j { s := w.s, r := r0 } :=
    { state := ⟨w.s.bases, w.s.rout, w.s.reqSeq, rfl, .inl rfl⟩, fail := rfl, id := rfl, p := rfl, kind := rfl, keys := rfl
      waits := ⟨q, hj, hstat q hq⟩ }
  have hall : ∀ (ks : List Nat) (x : LoadRun), x.Underway w.s w.lineCtx r0 j →
      (ks.foldl (fun x k => x.start w.lineCtx k) x).Underway w.s w.lineCtx r0 j := by
    intro ks
    induction ks with
    | nil => exact fun x h => h
    | cons k ks ih =>
      exact fun x h => ih _ (h.start hp hdata hneed (fun q' hq' => by rw [hj] at hq'; cases hq'; exact hnone) k)
  have h := hall (List.range r0.lines.length) _ h0
  intro y
  have hy : y = LoadRun.startAll { s := w.s, r := r0 } w.lineCtx := rfl
  rw [LoadRun.startAll] at hy
  dsimp only at hy
  rw [h.not_finished, if_neg Bool.false_ne_true] at hy
  rw [hy]
  refine ⟨h.sameMemory, h.fail, h.not_finished, h.id, h.p, ?_⟩
  have hkeys := congrArg (List.map Prod.fst) h.keys
  rw [List.map_map, List.map_map] at hkeys
  exact hkeys

/-- The record of a load of data whose threads have failed nowhere, before its lines start. -/
def View.loadRec (w : View) (ty : Ty) (nl1 : Bool) (accs : List ThreadAcc) : LoadRec :=
  { id := w.g.seq, kind := .data, ty := ty, nl1 := nl1, p := w.g.pts
    pieces := accs.flatMap fun a => if a.tgt matches Tgt.glob _ then a.pcs.map fun p => ⟨p.thr, p.at_, p.pa, p.n⟩ else []
    got := accs.flatMap w.readyBytes, bad := [], lines := neededLines accs (accs.flatMap w.readyBytes) }

/-- A needed line is not there yet, and some access to global addresses needs it. -/
theorem neededLines_stat {accs : List ThreadAcc} {got : List (Nat × Nat × Byte)} {q : LineReq} (hq : q ∈ neededLines accs got) :
    q.stat = .l2 := by
  simp only [neededLines, List.mem_filterMap] at hq
  obtain ⟨l, -, h⟩ := hq
  obtain ⟨p, -, rfl⟩ := Option.map_eq_some_iff.mp h
  rfl

theorem any_isGlob_of_needed {accs : List ThreadAcc} {got : List (Nat × Nat × Byte)} {q : LineReq} (hq : q ∈ neededLines accs got) :
    accs.any isGlob = true := by
  simp only [neededLines, List.mem_filterMap] at hq
  obtain ⟨l, -, h⟩ := hq
  obtain ⟨p, hp, -⟩ := Option.map_eq_some_iff.mp h
  have hmem := (List.mem_filter.mp (List.mem_of_find?_eq_some hp)).1
  obtain ⟨a, ha, hpa⟩ := List.mem_flatMap.mp hmem
  refine List.any_eq_true.mpr ⟨a, ha, ?_⟩
  cases htgt : a.tgt <;> simp [htgt, isGlob] at hpa ⊢

theorem LoadRun.logged_of_none {x : LoadRun} (h : x.fail = []) (zn : Nat) : x.logged zn = x := by
  cases x
  simp_all [LoadRun.logged]

theorem SameMemory.trans {s t v : State} (h : SameMemory s t) (h' : SameMemory t v) : SameMemory s v := by
  obtain ⟨hm, hh, hg, ht, hc⟩ := h
  obtain ⟨hm', hh', hg', ht', hc'⟩ := h'
  exact ⟨hm'.trans hm, hh'.trans hh, hg'.trans hg, ht'.trans ht, hc'.trans hc⟩

/-- The log of an uncorrectable byte leaves the load, and memory, groups and teams. -/
theorem LoadRun.logBad_eq (x : LoadRun) (kind : Nat) (chip : Option Nat) (unit zone pa : Nat) :
    ∃ s2, (if x.r.bad.isEmpty then x else { x with s := x.s.logError kind chip unit zone pa }) = { x with s := s2 }
      ∧ SameMemory x.s s2 := by
  split
  · exact ⟨x.s, rfl, rfl, rfl, rfl, rfl, rfl⟩
  · exact ⟨_, rfl, rfl, rfl, rfl, rfl, rfl⟩

/-- The start of a pending instruction changes the registers of its group alone (R41). -/
theorem startPend_fields (g : Group) (i : Instr) (m moved : Mask) :
    let g' := g.startPend i m moved
    g'.lmax = g.lmax ∧ g'.winLoad = g.winLoad ∧ g'.pends = g.pends ∧ g'.loads = g.loads ∧ g'.reports = g.reports := by
  obtain ⟨⟨sr, e⟩, -⟩ := releaseS_spec i.uses.srcs g
  simp only [Group.startPend, e, Group.mapThreads, and_self]

/-- A load of data that lacks a line issues: its threads move on, its destination is pending, and it waits beside its group. -/
theorem runLoad_pending {i : Instr} {m : Mask} {ty : Ty} {nl1 : Bool} {accs : List ThreadAcc} {d : DstUse} (hdst : i.uses.dst = some d)
    (haway : w.away accs = false) (hblocked : w.loadBlocked accs = false) (hbad : w.badPriv accs = []) (hgone : w.privGone accs = [])
    (hneed : ∀ q ∈ neededLines accs (accs.flatMap w.readyBytes),
      w.s.isRemote q.line = false ∧ w.s.lineLost w.cx.zone q.leaf q.line = false)
    (hlack : ∃ q ∈ neededLines accs (accs.flatMap w.readyBytes), w.l1Hit q.leaf q.line = none) :
    ∃ s2 t l r p, w.runLoad i m ty nl1 .data accs = .next t ∧ SameMemory w.s s2
      ∧ Leaves s2 w.u t { w.g.startPend i m w.sel with
          seq := w.g.seq + 1, lmax := l, winLoad := w.g.winLoad || accs.any isGlob, pends := w.g.pends ++ [p], loads := w.g.loads ++ [r] }
      ∧ w.g.lmax ≤ l ∧ r.id = w.g.seq ∧ r.p = w.g.pts
      ∧ r.lines.map (·.line) = (neededLines accs (accs.flatMap w.readyBytes)).map (·.line)
      ∧ p.id = w.g.seq ∧ p.dst = d.dst ∧ p.ty = ty ∧ p.mask = m := by
  obtain ⟨hsame, hfail, hfin, hid, hp, hlines⟩ := startAll_pending (w := w) (r0 := w.loadRec ty nl1 accs) rfl rfl hneed hlack
    fun q hq => by simp [neededLines_stat hq]
  simp only [View.runLoad, haway, hblocked, hbad, hgone, hdst, beq_self_eq_true, Bool.true_and, Bool.false_eq_true, if_false, if_true,
    List.contains_nil, Bool.not_false, List.filter_true, List.flatMap_nil, List.append_nil, dedup, List.isEmpty_nil]
  generalize hy : LoadRun.startAll _ w.lineCtx = y
  rw [show LoadRun.startAll { s := w.s, r := w.loadRec ty nl1 accs } w.lineCtx = y from hy] at hsame hfail hfin hid hp hlines
  obtain ⟨s2, hz, hs2⟩ := y.logBad_eq 2 (some w.tm.district) 0xFFFF w.cx.zone 0
  obtain ⟨hlmax, hwin, hpends, hloads, hreports⟩ := startPend_fields w.g i m w.sel
  simp only [y.logged_of_none hfail]
  rw [hz]
  simp only [hfin, hfail, hlmax, hwin, hpends, hloads, hreports, Bool.false_eq_true, if_false, List.append_nil, Bool.and_true]
  refine ⟨s2, _, max w.g.lmax (max y.ts (w.scrStamp accs)), y.r,
    { id := w.g.seq, dst := d.dst, ty := ty, unif := i.uses.uniform, mask := m
      lat := (w.g.startPend i m w.sel).latPlaces i m }, rfl, hsame.trans hs2, ?_, le_max_left _ _, hid, hp, hlines, rfl, rfl, rfl, rfl⟩
  exact (issued_leaves s2 _ _ _ _).of_core (track_core w i 0 _ _)
end

/-- The records of objects play no part in the look for a copy in L1. -/
theorem View.l1Hit_objs (w : View) (o : AList Obj) (leaf : Leaf) (line : Nat) :
    View.l1Hit { w with s := { w.s with objs := o } } leaf line = w.l1Hit leaf line := by
  simp only [View.l1Hit, State.touchBase_eq]
  rfl

/-- A load form of class 0x5 that issues and lacks a line of this device starts its load, and its group goes on without it. -/
theorem loadOp_pending {s s1 : State} {w : View} {m : Mask} {x : Ld} {i : Instr} {d : DstUse} {addr : View → Nat → AddrOut}
    (hdst : i.uses.dst = some d) (h : Issues i s w m) (hacc : w.accessible i.uses m (x.ty.width / 8) .load (addr w) = true)
    (hpass : w.Passes (w.accsOf i.uses m (x.ty.width / 8) .load (addr w)) false s1) :
    let accs := w.accsOf i.uses m (x.ty.width / 8) .load (addr w)
    let need := neededLines accs (accs.flatMap w.readyBytes)
    w.away accs = false → w.loadBlocked accs = false → w.badPriv accs = [] → w.privGone accs = [] →
    (∀ q ∈ need, w.s.isRemote q.line = false ∧ w.s.lineLost w.cx.zone q.leaf q.line = false) →
    (∃ q ∈ need, w.l1Hit q.leaf q.line = none) →
    ∃ t l r p, loadOp i s x .load true addr = .next t ∧ w.g.lmax ≤ l ∧ t.mem = w.s.mem ∧ t.hostMem = w.s.hostMem ∧ t.teams = w.s.teams
      ∧ GroupIs t w.u { w.g.startPend i m w.sel with
          seq := w.g.seq + 1, lmax := l, winLoad := true, pends := w.g.pends ++ [p], loads := w.g.loads ++ [r] }
      ∧ (∀ v, v ≠ w.u → look t.groups v = look w.s.groups v)
      ∧ r.id = w.g.seq ∧ r.p = w.g.pts ∧ r.lines.map (·.line) = need.map (·.line)
      ∧ p.id = w.g.seq ∧ p.dst = d.dst ∧ p.ty = x.ty ∧ p.mask = m := by
  intro accs need haway hblocked hbad hgone hneed hlack
  have hglob : (w.g.winLoad || accs.any isGlob) = true := by
    obtain ⟨q, hq, -⟩ := hlack
    rw [any_isGlob_of_needed hq, Bool.or_true]
  have hexec : loadOp i s x .load true addr
      = View.runLoad { w with s := s1 } i m x.ty (x.var && Acc.load == .load) .data accs := by
    rw [loadOp, issue_runs h, access_of_accessible hacc]
    exact (if_pos rfl).trans (raced_of_passes hpass _ _ _)
  obtain ⟨o, rfl⟩ := Passes.objs hpass
  obtain ⟨s2, t, l, r, p, hrun, ⟨hmem, hhost, hgroups, hteams, -⟩, hleaves, hl, hid, hp, hlines, hpend⟩ :=
    runLoad_pending (w := { w with s := { w.s with objs := o } }) (i := i) (m := m) (ty := x.ty) (nl1 := x.var && Acc.load == .load)
      hdst haway hblocked hbad hgone hneed (hlack.imp fun q hq => ⟨hq.1, (w.l1Hit_objs o q.leaf q.line).trans hq.2⟩)
  rw [hglob] at hleaves
  have hother := fun v (hv : v ≠ w.u) => (hleaves.other hv).trans (congrArg (fun gs => look gs v) hgroups)
  have hgroup : GroupIs t w.u _ := hleaves.look
  obtain ⟨g', rfl, -⟩ := hleaves
  exact ⟨_, l, r, p, hexec.trans hrun, hl, hmem, hhost, hteams, hgroup, hother, hid, hp, hlines, hpend⟩

/-- Settles O19: the checks pass and the record of races is made, then the lines of the load start; the line that it lacks leaves it
waiting. -/
theorem loadsStart : Obligations.LoadsStart := by
  intro s s1 w m x
  refine ⟨fun h hacc hpass => ?_, fun h hacc hpass => ?_, fun h hacc hpass => ?_⟩
  · exact loadOp_pending (addr := fun w t => w.globalOf x.ad (x.ty.width / 8) false true t) rfl h hacc hpass
  · exact loadOp_pending (addr := fun w t => w.globalOf x.ad (x.ty.width / 8) false false t) rfl h hacc hpass
  · exact loadOp_pending (addr := fun w t => w.globalOf x.ad (x.ty.width / 8) true true t) rfl h hacc hpass
end Sys2Proof.Machine

/-! ## Traps between instructions (R46, R80, R336, R415) -/

namespace Sys2Proof.Machine

/-- The view of a state that serves group u is of that group's team. -/
theorem view?_cur_team {s : State} {u : Nat} {g : Group} {w : View} (hg : look s.groups u = some g)
    (hv : State.view? { s with cur := u } = some w) : g.team = w.g.team := by
  obtain ⟨-, -, hlook, -⟩ := view?_eq hv
  rw [Option.some.inj (hg.symm.trans hlook)]

/-- A trap at an instruction boundary is taken for the group's own view, whatever group the issue stage serves. -/
theorem boundaryTrap_taken {s : State} {u : Nat} {w : View} {g : Group} (hv : State.view? { s with cur := u } = some w)
    (hteam : g.team = w.g.team) (code : Nat) (mask : Mask) (info : Nat) :
    ∃ t', TrapTaken w g code mask (g.nextPc.setWidth 64) info t' ∧ s.boundaryTrap u g code mask info = { t' with cur := s.cur } := by
  obtain ⟨hs, -, -, htm, -⟩ := view?_eq hv
  have hteams : (look w.s.teams g.team).isSome := by simp [hs, hteam, htm]
  exact ⟨_, takeTrap_taken w g code mask (g.nextPc.setWidth 64) info hteams, by simp only [State.boundaryTrap, hv]⟩

section
variable {s : State} {u : Nat} {g : Group} (hg : look s.groups u = some g)
include hg

/-- A quiet group that holds a log record and is in no handler takes ARITHLOG (R80). -/
theorem execArithlog_of_quiet (hheld : g.heldLog.isSome = true) (hhandler : g.handler = false) (hdone : g.allDone = true)
    (hlive : g.hasLive = true) (hb : g.wait.boundary = true) (hstop : g.stopped = false) :
    execArithlog u s = .next (s.boundaryTrap u g 0x70 g.nextMask 0) := by
  simp [execArithlog, hg, hheld, hhandler, hdone, hlive, hb, hstop]

/-- A quiet group with live threads takes the trap of its oldest report (R415). -/
theorem execRemote_of_quiet {r : Report} {rest : List Report} (hr : g.reports = r :: rest) (hdone : g.allDone = true)
    (hlive : g.hasLive = true) (hb : g.wait.boundary = true) (hstop : g.stopped = false) :
    execRemote u s = .next (s.boundaryTrap u { g with reports := rest } 0x42 r.mask (r.kind * 2 ^ 12 + r.dev)) := by
  simp [execRemote, hg, hr, hdone, hlive, hb, hstop]

variable {tm : Team} (htm : look s.teams g.team = some tm) (hrun : tm.run = .halted) (hstop : g.stopped = false) (hlive : g.hasLive = true)
include htm hrun hstop hlive

/-- A group of a halted team stops, with the cause of HALTSIB, at some PC (R336). -/
theorem execHaltsib_stops (htripped : g.tripped = false) :
    ∃ epc, execHaltsib u s = .next (s.setGroup u
      { g with stopped := true, cause := 0x60, double := false, tinfo := BitVec.ofNat 64 g.skid, epc := epc }) := by
  simp only [execHaltsib, hg, htm, hrun, hstop, hlive, htripped, bne_self_eq_false, Bool.not_true, Bool.or_self, Bool.false_eq_true, if_false]
  exact ⟨_, rfl⟩

/-- A group that has trapped since the halt stops with its own trap's registers (R336). -/
theorem execHaltsib_tripped (htripped : g.tripped = true) : execHaltsib u s = .next (s.setGroup u { g with stopped := true }) := by
  simp [execHaltsib, hg, htm, hrun, hstop, hlive, htripped]
end

/-- Settles O17: each event's trap is one taken at a boundary of the group, and a halted team's group is set as stopped. -/
theorem trapsBetweenInstructions : Obligations.TrapsBetweenInstructions := by
  refine ⟨fun s w opc hv => ?_, fun s u g w hg hv hdone hb hstop hlive => ?_, fun s u g tm hg htm hrun hstop hlive => ⟨?_, ?_⟩⟩
  · exact ⟨w.illop opc, by rw [exec_illegalWord, execIllegalWord, hv], trapHere_taken hv ..⟩
  · have hteam : g.team = w.g.team := view?_cur_team hg hv
    refine ⟨fun hheld hhandler => ?_, fun r rest hr => ?_⟩
    · obtain ⟨t', htrap, ht⟩ := boundaryTrap_taken hv hteam 0x70 g.nextMask 0
      exact ⟨_, t', execArithlog_of_quiet hg hheld hhandler hdone hlive hb hstop, htrap, ht⟩
    · obtain ⟨t', htrap, ht⟩ := boundaryTrap_taken (g := { g with reports := rest }) hv hteam 0x42 r.mask (r.kind * 2 ^ 12 + r.dev)
      exact ⟨_, t', execRemote_of_quiet hg hr hdone hlive hb hstop, htrap, ht⟩
  · intro htripped
    obtain ⟨epc, h⟩ := execHaltsib_stops hg htm hrun hstop hlive htripped
    exact ⟨_, epc, h, setGroup_leaves ..⟩
  · intro htripped
    exact ⟨_, execHaltsib_tripped hg htm hrun hstop hlive htripped, setGroup_leaves ..⟩

end Sys2Proof.Machine

/-! ## Special registers (R75 to R77, R326 to R329, R354, R361, R417) -/

namespace Sys2Proof.Machine

/-- An update of a value that is there depends on what it makes of that value alone. -/
theorem upd_congr_of_look {α : Type} {l : AList α} {k : Nat} {a : α} {f f' : α → α} (h : look l k = some a) (hf : f a = f' a) :
    upd l k f = upd l k f' := by
  simp only [upd, h, hf]

/-! What an issuing instruction sees, and what it does when it holds or traps. -/

section
variable {i : Instr} {s : State} {w : View} {m : Mask} (h : Issues i s w m)
include h

theorem Issues.look_team : look w.s.teams w.g.team = some w.tm := by
  obtain ⟨v, hv, rfl⟩ := h.view
  obtain ⟨a, p, e⟩ := firstReads_eq v i.uses.srcs
  obtain ⟨rfl, -, -, htm, -⟩ := view?_eq hv
  rw [e]
  exact htm

theorem Issues.look_ctx : look w.s.ctxs w.tm.ctx = some w.cx := by
  obtain ⟨v, hv, rfl⟩ := h.view
  obtain ⟨a, p, e⟩ := firstReads_eq v i.uses.srcs
  obtain ⟨rfl, -, -, -, hcx⟩ := view?_eq hv
  rw [e]
  exact hcx

/-- A trap that an issuing instruction raises in place of its effect is taken. -/
theorem Issues.trapHere_taken (code : Nat) (mask : Mask) (tinfo : Nat) :
    TrapTaken w w.g code mask w.pc64 tinfo (w.trapHere code mask tinfo) :=
  takeTrap_taken w { w.g with lastIssue := w.s.schedOf w.g + 1 } code mask w.pc64 tinfo (by simp [h.look_team])
end

/-- A group that leaves its slot, or settles, waits for what it waited for. -/
theorem Settled.wait {g g' : Group} (h : Settled g g') : g'.wait = g.wait := by
  obtain ⟨sl, rd, th, rfl, -⟩ := h
  rfl

/-- A held group is as it was, and will try its instruction again. -/
theorem hold_holds (w : View) (how : HoldKind) : Holds w.s w.u (w.hold how) w.g := by
  have hset : ∀ g : Group, Settled g (Group.settle w.s.cycle (if g.wait.stalled && g.slot.isSome then g.leaveSlot none else g)) := by
    intro g
    split
    · exact (leaveSlot_settled g none).trans (settle_settled ..)
    · exact settle_settled ..
  exact ⟨_, how, rfl, (hset _).core.trans rfl, (hset _).wait⟩

/-- An instruction of the group, or a result of one, is not complete. -/
theorem Group.busy_iff (g : Group) : (!(g.inflight.isEmpty && g.pends.isEmpty)) = true ↔ ¬(g.inflight = [] ∧ g.pends = []) := by
  rw [Bool.not_eq_true', ← Bool.not_eq_true, Bool.and_eq_true, List.isEmpty_iff, List.isEmpty_iff]

/-! Reads. -/

/-- A lane instruction's state with a context changed beside it. -/
theorem LaneDone.updCtx {i : Instr} {w : View} {m : Mask} {sx : Bool} {out : Nat → LaneOut} {t : State} (h : LaneDone i w m sx out t)
    (n : Nat) (f : Ctx → Ctx) : LaneDone i { w with s := w.s.updCtx n f } m sx out (t.updCtx n f) := by
  obtain ⟨g', rfl, hg'⟩ := h
  exact ⟨g', rfl, hg'⟩

section
variable {x : Srrd} {s : State} {w : View} {m : Mask} (h : Issues (.srrd x) s w m)
include h

/-- SRRD, issued: PRIV for a user, a wait for SR.FFLAGS, or the register's bits (R328). -/
theorem exec_srrd_eq :
    exec (.srrd x) s =
      if srSup x.num.toNat && w.cx.priv == .user then .next (w.trapHere 0x02 m 0x242)
      else if x.num.toNat == 0x18 && !(w.g.inflight.isEmpty && w.g.pends.isEmpty) then .next (w.hold .kept)
      else
        let t := w.finish (.srrd x) m false fun k => .bits (w.sr x.num.toNat k % 2 ^ x.ty.width)
        .next (if x.num.toNat = 0x0A then t.noteTime w.tm.ctx else t) := by
  rw [exec_srrd, execSrrd, issue_runs h]

theorem srrd_traps (hsup : x.num.toNat = 0x05 ∨ x.num.toNat = 0x20) (huser : w.cx.priv = .user) :
    ∃ t, exec (.srrd x) s = .next t ∧ TrapTaken w w.g 0x02 m w.pc64 0x242 t := by
  refine ⟨_, (exec_srrd_eq h).trans (if_pos ?_), h.trapHere_taken ..⟩
  simpa [srSup, huser] using hsup

theorem srrd_holds (hnum : x.num.toNat = 0x18) (hbusy : ¬(w.g.inflight = [] ∧ w.g.pends = [])) :
    ∃ t, exec (.srrd x) s = .next t ∧ Holds w.s w.u t w.g := by
  refine ⟨w.hold .kept, (exec_srrd_eq h).trans ?_, hold_holds w .kept⟩
  rw [if_neg (by simp [srSup, hnum]), if_pos (by rw [hnum, beq_self_eq_true, Bool.true_and, Group.busy_iff]; exact hbusy)]

theorem srrd_reads (hpriv : x.num.toNat = 0x05 ∨ x.num.toNat = 0x20 → w.cx.priv ≠ .user)
    (hidle : x.num.toNat = 0x18 → w.g.inflight = [] ∧ w.g.pends = []) :
    exec (.srrd x) s = .next (
      let t := w.finish (.srrd x) m false fun k => .bits (w.sr x.num.toNat k % 2 ^ x.ty.width)
      if x.num.toNat = 0x0A then t.noteTime w.tm.ctx else t) := by
  rw [exec_srrd_eq h, if_neg (by simpa [srSup] using hpriv), if_neg (by simpa using hidle)]

theorem srrd_does (hpriv : x.num.toNat = 0x05 ∨ x.num.toNat = 0x20 → w.cx.priv ≠ .user)
    (hidle : x.num.toNat = 0x18 → w.g.inflight = [] ∧ w.g.pends = []) (htime : x.num.toNat ≠ 0x0A) :
    Does (.srrd x) s w m false fun k => .bits (w.sr x.num.toNat k % 2 ^ x.ty.width) :=
  ⟨_, (srrd_reads h hpriv hidle).trans (by rw [if_neg htime]), finish_done ..⟩

/-- The state after a read of guest time remembers it (R417). -/
theorem srrd_time (htime : x.num.toNat = 0x0A) :
    ∃ t, exec (.srrd x) s = .next t ∧ Answers (.srrd x) w m (w.s.updCtx w.tm.ctx fun c => { c with tlast := w.s.guestTime w.cx })
      (w.s.guestTime w.cx % 2 ^ x.ty.width) t := by
  have hexec := srrd_reads h (by simp [htime]) (by simp [htime])
  simp only [htime, if_true] at hexec
  refine ⟨_, hexec, ?_⟩
  obtain ⟨g', e, hg'⟩ := finish_done (.srrd x) w m false fun k => .bits (w.sr 0x0A k % 2 ^ x.ty.width)
  have hnote : State.noteTime { w.s with groups := put w.s.groups w.u g' } w.tm.ctx
      = State.updCtx { w.s with groups := put w.s.groups w.u g' } w.tm.ctx fun c => { c with tlast := w.s.guestTime w.cx } := by
    have hctxs : upd w.s.ctxs w.tm.ctx (fun c => { c with tlast := w.s.guestTime c })
        = upd w.s.ctxs w.tm.ctx fun c => { c with tlast := w.s.guestTime w.cx } := upd_congr_of_look h.look_ctx rfl
    exact congrArg (fun c => ({ w.s with groups := put w.s.groups w.u g', ctxs := c } : State)) hctxs
  rw [e, hnote]
  exact LaneDone.updCtx (⟨g', rfl, hg'⟩ : LaneDone (.srrd x) w m false _ _) ..
end

/-! Writes. -/

/-- What a write of a register that is read-only, or that no rule names, does: nothing (R328). -/
theorem srWrite_readOnly (w : View) (v : W64) {n : Nat} (hn : n ∉ [0x0A, 0x11, 0x12, 0x14, 0x18, 0x19, 0x1A, 0x1B, 0x1C, 0x20]) :
    w.srWrite n v = (w.s, w.g) := by
  unfold View.srWrite
  split <;> simp_all

theorem srWrite_time (w : View) (v : W64) :
    w.srWrite 0x0A v = if w.cx.priv = .user ∨ v.toNat < w.s.guestTime w.cx then (w.s, w.g)
      else (w.s.updCtx w.tm.ctx fun c => { c with baseval := v.toNat, baseptp := w.s.now }, w.g) := by
  simp [View.srWrite]

/-- The group after SRWR left it as g: its last-use sources released, its threads moved on. -/
def View.srwrMoved (w : View) (x : Srwr) (m : Mask) (g : Group) : Group :=
  ((releaseS (Instr.srwr x).uses.srcs g).mapThreads fun k th =>
    if inMask m k then releaseV (Instr.srwr x).uses.srcs th else th).advance w.sel

/-- The value that SRWR writes. -/
def View.srwrValue (w : View) (x : Srwr) (m : Mask) : W64 :=
  BitVec.ofNat 64 (w.rd (if x.ty.width = 64 then .b64 else .b32) x.a (lowest m))

/-- What SRWR makes of state and group: its register's write, which for SR.PTROOT is a release at .dev (R327). -/
def View.srwrWritten (w : View) (x : Srwr) (m : Mask) : State × Group :=
  if x.num.toNat = 0x20 then
    ((w.srWrite 0x20 (w.srwrValue x m)).1.updTeam w.g.team fun t => t.countRelease .dev, w.g.addRelease .dev)
  else w.srWrite x.num.toNat (w.srwrValue x m)

section
variable {x : Srwr} {s : State} {w : View} {m : Mask} (h : Issues (.srwr x) s w m)
include h

/-- SRWR, issued: PRIV for a user, a wait for SR.PTROOT or SR.FFLAGS, or the write (R327, R328). -/
theorem exec_srwr_eq :
    exec (.srwr x) s =
      if x.num.toNat == 0x20 && w.cx.priv == .user then .next (w.trapHere 0x02 m 0x243)
      else if x.num.toNat == 0x20 && !w.g.quiet .dev then .next (w.hold .kept)
      else if x.num.toNat == 0x18 && !(w.g.inflight.isEmpty && w.g.pends.isEmpty) then .next (w.hold .kept)
      else .next ((w.srwrWritten x m).1.issued w.u x.ctl w.halting (w.track (.srwr x) 0 .now (w.srwrMoved x m (w.srwrWritten x m).2))) := by
  rw [exec_srwr, execSrwr, issue_runs h]
  by_cases hn : x.num.toNat = 0x20
  · simp only [View.srwrWritten, hn]
    rfl
  · simp only [View.srwrWritten, if_neg hn]
    rfl

theorem srwr_traps (hnum : x.num.toNat = 0x20) (huser : w.cx.priv = .user) :
    ∃ t, exec (.srwr x) s = .next t ∧ TrapTaken w w.g 0x02 m w.pc64 0x243 t :=
  ⟨_, (exec_srwr_eq h).trans (if_pos (by simp [hnum, huser])), h.trapHere_taken ..⟩

theorem srwr_holds (hnum : x.num.toNat = 0x18) (hbusy : ¬(w.g.inflight = [] ∧ w.g.pends = [])) :
    ∃ t, exec (.srwr x) s = .next t ∧ Holds w.s w.u t w.g := by
  refine ⟨w.hold .kept, (exec_srwr_eq h).trans ?_, hold_holds w .kept⟩
  rw [if_neg (by simp [hnum]), if_neg (by simp [hnum]), if_pos (by rw [hnum, beq_self_eq_true, Bool.true_and, Group.busy_iff]; exact hbusy)]

/-- A write of a register but SR.PTROOT leaves what the register's write makes of state and group. -/
theorem srwr_leaves {s1 : State} {g1 : Group} (hnum : x.num.toNat ≠ 0x20) (hidle : x.num.toNat = 0x18 → w.g.inflight = [] ∧ w.g.pends = [])
    (hw : w.srWrite x.num.toNat (w.srwrValue x m) = (s1, g1)) :
    ∃ t, exec (.srwr x) s = .next t ∧ Leaves s1 w.u t (w.srwrMoved x m g1) := by
  refine ⟨_, ?_, (issued_leaves s1 w.u x.ctl w.halting (w.track (.srwr x) 0 .now (w.srwrMoved x m g1))).of_core (track_core ..)⟩
  rw [exec_srwr_eq h, if_neg (by simp [hnum]), if_neg (by simp [hnum]), if_neg (by simpa using hidle), View.srwrWritten, if_neg hnum, hw]

/-- A write of SR.PTROOT by a supervisor whose accesses are acknowledged is a release at .dev: it sets the root and takes the context's
entries out of every TLB (R327, R354). -/
theorem srwr_ptroot (hnum : x.num.toNat = 0x20) (hpriv : w.cx.priv ≠ .user) (hquiet : w.g.quiet .dev = true) :
    ∃ t, exec (.srwr x) s = .next t ∧ GroupIs t w.u (w.srwrMoved x m (w.g.addRelease .dev)) ∧ t.mem = w.s.mem
      ∧ look t.ctxs w.tm.ctx = some { w.cx with ptroot := w.srwrValue x m &&& 0x00FFFFFFFFFFFF80#64 }
      ∧ look t.teams w.g.team = (look w.s.teams w.g.team).map (fun tm => { tm with relc := (tm.relc + 1) % 2 ^ 32 })
      ∧ (∀ e, e ∈ t.tlb1 ↔ e ∈ w.s.tlb1 ∧ e.ctx ≠ w.tm.ctx) ∧ (∀ e, e ∈ t.tlb2 ↔ e ∈ w.s.tlb2 ∧ e.ctx ≠ w.tm.ctx) := by
  have hexec := exec_srwr_eq h
  rw [if_neg (by simp [hnum, hpriv]), if_neg (by simp [hnum, hquiet]), if_neg (by simp [hnum]), View.srwrWritten, if_pos hnum] at hexec
  obtain ⟨g', ht, hset⟩ := issued_spec _ w.u x.ctl w.halting (w.track (.srwr x) 0 .now (w.srwrMoved x m _))
  refine ⟨_, hexec, ?_⟩
  rw [ht]
  refine ⟨⟨g', look_put_same .., hset.core.trans (track_core ..)⟩, rfl, ?_, ?_, fun e => ?_, fun e => ?_⟩
  · exact (look_upd_self w.s.ctxs w.tm.ctx _).trans (by rw [h.look_ctx]; rfl)
  · exact look_upd_self w.s.teams w.g.team _
  · exact List.mem_filter.trans (by simp)
  · exact List.mem_filter.trans (by simp)
end

/-- The bytes that LOGRD reads: those of the held record, or zeros (R361). -/
def View.logrdBytes (w : View) : List Byte := (w.g.heldLog.map fun r => r.bytes w.g w.tm).getD (bytesOf 16 0)

/-- The group with those bytes in a pair of s registers. -/
def View.logrdGroup (w : View) (n : Nat) : Group :=
  (w.g.setS n (BitVec.ofNat 64 (natOfBytes (w.logrdBytes.take 8)))).setS (n + 1) (BitVec.ofNat 64 (natOfBytes ((w.logrdBytes.drop 8).take 8)))

theorem logrd_leaves {x : Sd} {s : State} {w : View} {m : Mask} (h : Issues (.logrd x) s w m) :
    ∃ t, exec (.logrd x) s = .next t ∧ Leaves w.s w.u t ((w.logrdGroup x.d.toNat).advance w.sel) := by
  have hexec : exec (.logrd x) s = .next (w.s.issued w.u x.ctl w.halting
      (w.track (.logrd x) 0 .now (((w.logrdGroup x.d.toNat).clearMarks .s 0 x.d.toNat 2).advance w.sel))) := by
    rw [exec_logrd, execLogrd, issue_runs h]
    unfold View.logrdGroup View.logrdBytes
    cases w.g.heldLog <;> rfl
  refine ⟨_, hexec, (issued_leaves ..).of_core ((track_core ..).trans ?_)⟩
  obtain ⟨ms, so, e⟩ := clearMarks_spec (w.logrdGroup x.d.toNat) .s 0 x.d.toNat 2
  rw [e]
  rfl

/-- Settles O36: reads give `View.sr`, writes do `View.srWrite`, by the register's number. -/
theorem specialRegisters : Obligations.SpecialRegisters := by
  intro s w m value idle
  have hvalue : ∀ n k, value n k = w.sr n k := fun _ _ => rfl
  have htime : value 0x0A 0 = w.s.guestTime w.cx := rfl
  refine ⟨fun x h => ?_, fun x h => ?_, fun x h => logrd_leaves h⟩
  · exact ⟨srrd_traps h, srrd_holds h, srrd_does h, srrd_time h⟩
  · intro num v moved group ctx
    have hgroup : ∀ n g, num = n → n ≠ 0x20 → n ≠ 0x18 → w.srWrite n v = (w.s, g) → group g := by
      rintro n g rfl hroot hflags hw
      exact srwr_leaves h hroot (fun hn => absurd hn hflags) hw
    have hctx : ∀ n f, num = n → n ≠ 0x20 → n ≠ 0x18 → w.srWrite n v = (w.s.updCtx w.tm.ctx f, w.g) → ctx f := by
      rintro n f rfl hroot hflags hw
      exact srwr_leaves h hroot (fun hn => absurd hn hflags) hw
    refine ⟨srwr_traps h, srwr_ptroot h, fun hn => ?_, fun hn => ?_, fun hn => ?_, fun hn hidle => ?_, srwr_holds h, fun hn => ?_, fun hn => ?_,
      fun hn => ?_, fun hn => ?_, fun hn hno => ?_, fun hn hpriv hle => ?_, fun hn => ?_⟩
    · exact hgroup _ _ hn (by decide) (by decide) rfl
    · exact hgroup _ _ hn (by decide) (by decide) rfl
    · exact hgroup _ _ hn (by decide) (by decide) rfl
    · exact srwr_leaves h (by omega) (fun _ => hidle) (by rw [show x.num.toNat = 0x18 from hn]; rfl)
    · exact hctx _ _ hn (by decide) (by decide) rfl
    · exact hctx _ _ hn (by decide) (by decide) rfl
    · exact hctx _ _ hn (by decide) (by decide) rfl
    · exact hctx _ _ hn (by decide) (by decide) rfl
    · exact hgroup _ _ hn (by decide) (by decide) ((srWrite_time w v).trans (if_pos hno))
    · exact hctx _ _ hn (by decide) (by decide) ((srWrite_time w v).trans (if_neg (by rw [not_or, not_lt]; exact ⟨hpriv, hle⟩)))
    · have hne : num ≠ 0x20 ∧ num ≠ 0x18 := by constructor <;> rintro he <;> simp [he] at hn
      exact hgroup _ _ rfl hne.1 hne.2 (srWrite_readOnly w v hn)

end Sys2Proof.Machine

/-! ## Values of the float formats (R63, R69, R71) -/

namespace Sys2Proof

theorem decodeF_of_nan {t : Ty} {b : Nat} (h : isNaNF t b = true) (ftz : Bool) : decodeF t ftz b = .nan := by
  simp [decodeF, h]

theorem decodeF_ne_nan {t : Ty} {b : Nat} (h : isNaNF t b = false) (ftz : Bool) : decodeF t ftz b ≠ .nan := by
  simp only [decodeF, h, Bool.false_eq_true, if_false]
  repeat' split
  all_goals nofun

@[simp] theorem FVal.num_fin_pos (m : Nat) (e : Int) : (FVal.fin false m e).num = (m : ℚ) * 2 ^ e := by
  simp [FVal.num]

@[simp] theorem FVal.num_fin_minus (m : Nat) (e : Int) : (FVal.fin true m e).num = -((m : ℚ) * 2 ^ e) := by
  simp [FVal.num]

/-- The magnitude of a finite value. -/
theorem FVal.abs_num_fin (s : Bool) (m : Nat) (e : Int) : |(FVal.fin s m e).num| = (m : ℚ) * 2 ^ e := by
  have hpos : (0 : ℚ) ≤ m * 2 ^ e := by positivity
  cases s <;> simp [abs_of_nonneg hpos]

theorem FVal.num_fin_eq_zero {s : Bool} {m : Nat} {e : Int} : (FVal.fin s m e).num = 0 ↔ m = 0 := by
  have hpow : (2 : ℚ) ^ e ≠ 0 := by positivity
  rw [← abs_eq_zero, FVal.abs_num_fin]
  simp [hpow]

/-- A finite value other than zero is negative as its sign says. -/
theorem FVal.num_fin_neg {s : Bool} {m : Nat} {e : Int} (hm : m ≠ 0) : decide ((FVal.fin s m e).num < 0) = s := by
  have hpos : (0 : ℚ) < m * 2 ^ e := by positivity
  cases s
  · simp [hpos.le]
  · simp [hpos]

namespace Machine

/-- Round gives its exact argument, rounded once. -/
theorem roundBy_roundF {t : Ty} {rm : RMode} {sat ftz s z : Bool} {m : Nat} {e : Int} {x : ℚ} {o : LaneOut} (hx : x = (FVal.fin s m e).num)
    (hz : m = 0 → s = z) (ho : (o.d, o.fl) = roundF t rm sat ftz s m e) : RoundBy t rm sat ftz z x o := by
  subst hx
  unfold RoundBy
  by_cases hm : m = 0
  · rw [if_pos (FVal.num_fin_eq_zero.2 hm)]
    rw [roundF, if_pos hm, hz hm] at ho
    exact ⟨congrArg Prod.fst ho, congrArg Prod.snd ho⟩
  · rw [if_neg (mt FVal.num_fin_eq_zero.1 hm)]
    exact ⟨m, e, (FVal.abs_num_fin s m e).symm, by rw [FVal.num_fin_neg hm, ho]⟩

theorem snanFlag_or_NV (t : Ty) (bs : List Nat) : snanFlag t bs ||| flagNV = flagNV := by
  unfold snanFlag
  split <;> rfl

/-- A form of one operand: QNaN for a NaN, else what it gives for the value. -/
theorem nanFirst_of {t : Ty} {a : Nat} {o : LaneOut} {k : Prop} (hnan : isNaNF t a = true → (o.d, o.fl) = (qnanF t, snanFlag t [a]))
    (hk : isNaNF t a = false → k) : NanFirst t [a] o k := by
  unfold NanFirst
  cases h : isNaNF t a
  · simpa [h] using hk h
  · obtain ⟨hd, hf⟩ := Prod.mk.inj (hnan h)
    simp [h, hd, hf, snanFlag]

/-- CVTFF and CVTSR give the value of one format in another (R86, R93). -/
theorem converted_cvtFF {dt st : Ty} {rm : RMode} {sat ftz : Bool} {a : Nat} {o : LaneOut} (ho : (o.d, o.fl) = cvtFF dt st ftz rm sat a) :
    Converted dt st rm sat ftz a o := by
  unfold Converted
  unfold cvtFF at ho
  cases hnan : isNaNF st a
  · have hne := decodeF_ne_nan hnan ftz
    cases hv : decodeF st ftz a with
    | nan => exact absurd hv hne
    | inf s =>
      simp only [hv] at ho
      by_cases hinf : dt.hasInf = true
      · simp_all [FVal.isInf, FVal.sign]
      · by_cases hsat : (sat || !dt.hasNaN) = true <;> simp_all [FVal.isInf, FVal.sign]
    | fin s m e =>
      simp only [hv] at ho
      simpa [FVal.isInf, FVal.sign] using roundBy_roundF rfl (fun _ => rfl) ho
  · simp only [decodeF_of_nan hnan] at ho
    by_cases hq : dt.hasNaN = true
    · simp_all [snanFlag]
    · rw [if_neg hq, snanFlag_or_NV] at ho
      simp_all

/-- SCALEB gives the value times a power of two, rounded once (R91). -/
theorem scaleb_rounds {t : Ty} {v : FEnv} {a e : Nat} {o : LaneOut} (ho : (o.d, o.fl) = scalebBits t v a e) :
    NanFirst t [a] o (if e = 255 then o.d = qnanF t ∧ o.fl = 0
      else if (decodeF t v.ftz a).isInf then o.d = infF t (decodeF t v.ftz a).sign ∧ o.fl = 0
      else RoundOnce t v (decodeF t v.ftz a).sign ((decodeF t v.ftz a).num * 2 ^ ((e : Int) - 127)) o) := by
  unfold scalebBits at ho
  refine nanFirst_of (fun h => by rwa [decodeF_of_nan h] at ho) fun h => ?_
  have hne := decodeF_ne_nan h v.ftz
  cases hv : decodeF t v.ftz a with
  | nan => exact absurd hv hne
  | inf s =>
    simp only [hv] at ho
    by_cases he : e = 255 <;> simp_all [FVal.isInf, FVal.sign]
  | fin s m x =>
    simp only [hv] at ho
    by_cases he : e = 255
    · simp_all
    · rw [if_neg he] at ho ⊢
      refine roundBy_roundF (m := m) ?_ (fun _ => rfl) ho
      simp only [FVal.num, add_sub_assoc, zpow_add₀ (two_ne_zero' ℚ), mul_assoc]
      rfl

end Machine
end Sys2Proof

/-! ## Rounding to an integer (R69, R87) -/

namespace Sys2Proof

/-- The split of r at the integer grid: its integer part n, and a discarded part that is zero, below, at or above a half as rem / 2^k is. -/
structure SplitsAt (r : ℚ) (n rem k : Nat) : Prop where
  lower : (n : ℚ) ≤ r
  upper : r < n + 1
  exact_iff : rem = 0 ↔ r = n
  above_iff : 2 ^ k < 2 * rem ↔ 1 < 2 * (r - n)
  tie_iff : 2 * rem = 2 ^ k ↔ 2 * (r - n) = 1

theorem splitsAt_self (n k : Nat) : SplitsAt n n 0 k where
  lower := le_rfl
  upper := lt_add_one _
  exact_iff := by simp
  above_iff := by norm_num
  tie_iff := by simp [eq_comm (a := 0)]

/-- A quotient by a power of two splits as division with remainder. -/
theorem splitsAt_div (m k : Nat) : SplitsAt ((m : ℚ) / 2 ^ k) (m / 2 ^ k) (m % 2 ^ k) k := by
  have hp : (0 : ℚ) < 2 ^ k := by positivity
  have hlt : m % 2 ^ k < 2 ^ k := Nat.mod_lt _ (by positivity)
  have hltq : ((m % 2 ^ k : Nat) : ℚ) < 2 ^ k := by exact_mod_cast hlt
  have hr : (m : ℚ) / 2 ^ k = (m / 2 ^ k : Nat) + (m % 2 ^ k : Nat) / 2 ^ k := by
    have hdiv : (m : ℚ) = 2 ^ k * (m / 2 ^ k : Nat) + (m % 2 ^ k : Nat) := by exact_mod_cast (Nat.div_add_mod m (2 ^ k)).symm
    field_simp
    linarith
  generalize (m / 2 ^ k : Nat) = n at *
  generalize m % 2 ^ k = rem at *
  refine ⟨?_, ?_, ?_, ?_, ?_⟩
  · rw [hr]
    have : (0 : ℚ) ≤ rem / 2 ^ k := by positivity
    linarith
  · rw [hr]
    have : (rem : ℚ) / 2 ^ k < 1 := by rwa [div_lt_one hp]
    linarith
  · rw [hr, add_eq_left, div_eq_zero_iff, Nat.cast_eq_zero]
    simp [hp.ne']
  · rw [hr, add_sub_cancel_left, ← mul_div_assoc, one_lt_div hp]
    exact_mod_cast Iff.rfl
  · rw [hr, add_sub_cancel_left, ← mul_div_assoc, div_eq_one_iff_eq hp.ne']
    exact_mod_cast Iff.rfl

/-- A part far below the grid counts as a small one that is not zero. -/
theorem splitsAt_tiny {r : ℚ} (h0 : 0 < r) (h1 : 2 * r < 1) : SplitsAt r 0 1 64 where
  lower := by simpa using h0.le
  upper := by norm_num; linarith
  exact_iff := by simpa using h0.ne'
  above_iff := by norm_num; exact h1.le
  tie_iff := by norm_num; exact h1.ne

/-- `gridSplit` against the integers splits m × 2^e there. -/
theorem gridSplit_splits (m : Nat) (e : Int) :
    SplitsAt ((m : ℚ) * 2 ^ e) (gridSplit m e 0).1 (gridSplit m e 0).2.1 (gridSplit m e 0).2.2 := by
  unfold gridSplit
  by_cases he : 0 ≤ e
  · obtain ⟨k, rfl⟩ := Int.eq_ofNat_of_zero_le he
    simpa [he] using splitsAt_self (m * 2 ^ k) 0
  obtain ⟨k, hk⟩ := Int.eq_ofNat_of_zero_le (show 0 ≤ -e by omega)
  obtain rfl : e = -(k : Int) := by omega
  have hr : (m : ℚ) * 2 ^ (-(k : Int)) = m / 2 ^ k := by rw [zpow_neg, zpow_natCast, div_eq_mul_inv]
  rw [if_neg he, hr]
  have hk' : (0 - -(k : Int)).toNat = k := by omega
  simp only [hk']
  by_cases hfar : k > Nat.log2 m + 40
  · rw [if_pos hfar]
    by_cases hm : m = 0
    · simpa [hm] using splitsAt_self 0 64
    · rw [if_neg hm]
      have hlt : 2 * m < 2 ^ k := calc
        2 * m < 2 * 2 ^ (Nat.log2 m + 1) := by have := Nat.lt_log2_self (n := m); omega
        _ = 2 ^ (Nat.log2 m + 2) := by ring
        _ ≤ 2 ^ k := Nat.pow_le_pow_right (by decide) (by omega)
      refine splitsAt_tiny (by positivity) ?_
      rw [← mul_div_assoc, div_lt_one (by positivity)]
      exact_mod_cast hlt
  · rw [if_neg hfar]
    exact splitsAt_div m k

section
variable {r : ℚ} {n rem k : Nat} (h : SplitsAt r n rem k)
include h

/-- The distance down to the integer part. -/
theorem SplitsAt.abs_down : |(n : ℚ) - r| = r - n := by
  rw [abs_sub_comm, abs_of_nonneg (sub_nonneg.2 h.lower)]

/-- The distance up to the next integer. -/
theorem SplitsAt.abs_up : |((n + 1 : Nat) : ℚ) - r| = n + 1 - r := by
  push_cast
  rw [abs_of_pos (sub_pos.2 h.upper)]

theorem SplitsAt.lower_lt (h0 : rem ≠ 0) : (n : ℚ) < r := lt_of_le_of_ne h.lower fun e => h0 (h.exact_iff.2 e.symm)

/-- Under RNE an inexact value steps up when it lies above the half, or on it at an odd integer part. -/
theorem SplitsAt.away_rne (neg : Bool) :
    roundsAway rem k n (.fixed .rne) neg = true ↔ 1 < 2 * (r - n) ∨ 2 * (r - n) = 1 ∧ n % 2 = 1 := by
  simp [roundsAway, h.above_iff, h.tie_iff]

theorem SplitsAt.away_rna (neg : Bool) : roundsAway rem k n (.fixed .rna) neg = true ↔ 1 ≤ 2 * (r - n) := by
  rw [le_iff_lt_or_eq, ← h.above_iff, eq_comm (a := (1 : ℚ)), ← h.tie_iff]
  simp only [roundsAway, decide_eq_true_eq, ge_iff_le]
  omega
end

namespace Machine

section
variable {r : ℚ} {n rem k : Nat} {rm : RM} {neg : Bool} (h : SplitsAt r n rem k)
include h

/-- The integer part of a value that does not step up is its integer in the direction. -/
theorem integerOf_down (hup : (rm = .ru ∧ neg = false ∨ rm = .rd ∧ neg = true) → r ≤ n) (hrne : rm = .rne → 2 * (r - n) ≤ 1)
    (htie : rm = .rne → 2 * (r - n) = 1 → n % 2 = 0) (hrna : rm = .rna → 2 * (r - n) < 1) : IntegerOf rm neg r n := by
  have hhi := h.upper
  simp only [IntegerOf, h.abs_down]
  refine ⟨by linarith, hup, fun _ _ _ => h.lower, ?_, fun he => ⟨fun hr => htie hr he, fun hr => ?_⟩⟩
  · rintro (hr | hr)
    · exact hrne hr
    · exact (hrna hr).le
  · exact absurd he (hrna hr).ne

/-- The next integer of a value that steps up is its integer in the direction. -/
theorem integerOf_up (hlt : (n : ℚ) < r) (hdown : (rm = .ru ∧ neg = false ∨ rm = .rd ∧ neg = true) ∨ rm = .rne ∨ rm = .rna)
    (hnear : rm = .rne ∨ rm = .rna → 1 ≤ 2 * (r - n)) (htie : rm = .rne → 2 * (r - n) = 1 → n % 2 = 1) :
    IntegerOf rm neg r (n + 1) := by
  have hhi := h.upper
  simp only [IntegerOf, h.abs_up]
  refine ⟨by linarith, fun _ => by push_cast; exact hhi.le, fun hno hrne hrna => ?_, fun hr => ?_, fun he => ⟨fun hr => ?_, fun _ => ?_⟩⟩
  · exact absurd hdown (by tauto)
  · have := hnear hr
    linarith
  · have := htie hr (by linarith)
    omega
  · push_cast
    exact hhi

/-- An integer part that steps up as the direction says is the value's integer in that direction (R69, R87). -/
theorem integerOf_split : IntegerOf rm neg r (if rem ≠ 0 && roundsAway rem k n (.fixed rm) neg then n + 1 else n) := by
  by_cases h0 : rem = 0
  · have hr : r = n := h.exact_iff.1 h0
    simp only [h0, ne_eq, not_true_eq_false, decide_false, Bool.false_and, Bool.false_eq_true, if_false]
    refine integerOf_down (h0 ▸ h) (fun _ => hr.le) ?_ ?_ ?_ <;> simp [hr]
  have hlt := h.lower_lt h0
  simp only [h0, ne_eq, not_false_eq_true, decide_true, Bool.true_and]
  split
  next haway =>
    cases rm with
    | rne =>
      have hcase := (h.away_rne neg).1 haway
      refine integerOf_up h hlt (by simp) (fun _ => ?_) fun _ he => ?_
      · obtain hgt | ⟨heq, -⟩ := hcase
        exacts [hgt.le, heq.ge]
      · obtain hgt | ⟨-, hodd⟩ := hcase
        exacts [absurd he hgt.ne', hodd]
    | rz => simp [roundsAway] at haway
    | ru => exact integerOf_up h hlt (by simpa [roundsAway] using haway) (by simp) (by simp)
    | rd => exact integerOf_up h hlt (by simpa [roundsAway] using haway) (by simp) (by simp)
    | rna => exact integerOf_up h hlt (by simp) (fun _ => (h.away_rna neg).1 haway) (by simp)
  next hstay =>
    cases rm with
    | rne =>
      rw [h.away_rne, not_or, not_lt, not_and] at hstay
      refine integerOf_down h (by simp) (fun _ => hstay.1) (fun _ he => ?_) (by simp)
      have := hstay.2 he
      omega
    | rz => exact integerOf_down h (by simp) (by simp) (by simp) (by simp)
    | ru => exact integerOf_down h (fun hup => absurd hup (by simpa [roundsAway] using hstay)) (by simp) (by simp) (by simp)
    | rd => exact integerOf_down h (fun hup => absurd hup (by simpa [roundsAway] using hstay)) (by simp) (by simp) (by simp)
    | rna =>
      rw [h.away_rna, not_le] at hstay
      exact integerOf_down h (by simp) (by simp) (by simp) fun _ => hstay
end

/-- The rounded integer of a value (R87). -/
theorem roundToInt_integerOf (rm : RM) (neg : Bool) (m : Nat) (e : Int) :
    IntegerOf rm neg ((m : ℚ) * 2 ^ e) (roundToInt rm neg m e).1 := integerOf_split (gridSplit_splits m e)

/-- The rounded integer is exact when it is the value. -/
theorem roundToInt_exact_iff (rm : RM) (neg : Bool) (m : Nat) (e : Int) :
    (roundToInt rm neg m e).2 = false ↔ ((roundToInt rm neg m e).1 : ℚ) = m * 2 ^ e := by
  have h := gridSplit_splits m e
  unfold roundToInt
  generalize gridSplit m e 0 = p at *
  obtain ⟨n, rem, k⟩ := p
  dsimp only at h ⊢
  by_cases h0 : rem = 0
  · simp [h0, (h.exact_iff.1 h0).symm]
  · have hlt := h.lower_lt h0
    have hhi := h.upper
    simp only [h0, ne_eq, not_false_eq_true, decide_true, Bool.true_and, Bool.true_eq_false, false_iff]
    split
    · push_cast
      exact hhi.ne'
    · exact hlt.ne

/-! CVTFI. -/

/-- The integer of a magnitude and a sign. -/
def signedInt (s : Bool) (n : Nat) : Int := if s then -n else n

@[simp] theorem signedInt_false (n : Nat) : signedInt false n = n := rfl
@[simp] theorem signedInt_true (n : Nat) : signedInt true n = -n := rfl

theorem signedInt_eq_num_iff {s : Bool} {m n : Nat} {e : Int} : (signedInt s n : ℚ) = (FVal.fin s m e).num ↔ (n : ℚ) = m * 2 ^ e := by
  cases s <;> simp [FVal.num]

/-- The bits and exceptions of an integer in a type, the ends of the type in place of what lies beyond them (R87). -/
def saturated (dt : Ty) (i : Int) (x : ℚ) : Nat × Flags :=
  if i < intMin dt then (wrap dt.width (intMin dt), flagNV)
  else if intMax dt < i then (wrap dt.width (intMax dt), flagNV)
  else (wrap dt.width i, if (i : ℚ) ≠ x then flagNX else 0)

theorem intMin_le_intMax (dt : Ty) : intMin dt ≤ intMax dt := by
  unfold intMin intMax
  have h1 : (0 : Int) < 2 ^ (dt.width - 1) := by positivity
  have h2 : (0 : Int) < 2 ^ dt.width := by positivity
  split <;> omega

theorem saturated_below {dt : Ty} {i : Int} (h : i < intMin dt) (x : ℚ) : saturated dt i x = (wrap dt.width (intMin dt), flagNV) := if_pos h

theorem saturated_above {dt : Ty} {i : Int} (h : intMax dt < i) (x : ℚ) : saturated dt i x = (wrap dt.width (intMax dt), flagNV) := by
  have hle := intMin_le_intMax dt
  rw [saturated, if_neg (by omega), if_pos h]

/-- A type of at most 64 bits holds no integer of magnitude 2^64 or more. -/
theorem int_bounds {dt : Ty} (hw : dt.width ≤ 64) : -2 ^ 64 < intMin dt ∧ intMax dt < 2 ^ 64 := by
  have h1 : (2 : Int) ^ (dt.width - 1) ≤ 2 ^ 63 := pow_le_pow_right₀ (by norm_num) (by omega)
  have h2 : (2 : Int) ^ dt.width ≤ 2 ^ 64 := pow_le_pow_right₀ (by norm_num) hw
  unfold intMin intMax
  split <;> constructor <;> omega

/-- A value of 2^71 or more rounds to an integer above 2^64. -/
theorem integerOf_big {rm : RM} {s : Bool} {m n : Nat} {e : Int} (hm : m ≠ 0) (hbig : 70 < (Nat.log2 m : Int) + e)
    (hn : IntegerOf rm s ((m : ℚ) * 2 ^ e) n) : 2 ^ 64 < n := by
  have hlog : (2 : ℚ) ^ (Nat.log2 m : Int) ≤ m := by
    rw [zpow_natCast]
    exact_mod_cast Nat.log2_self_le hm
  have hbound : (2 : ℚ) ^ (71 : Int) ≤ m * 2 ^ e := calc
    (2 : ℚ) ^ (71 : Int) ≤ 2 ^ ((Nat.log2 m : Int) + e) := zpow_le_zpow_right₀ (by norm_num) (by omega)
    _ = 2 ^ (Nat.log2 m : Int) * 2 ^ e := zpow_add₀ (by norm_num) _ _
    _ ≤ m * 2 ^ e := by gcongr
  have hnear := (abs_lt.1 hn.1).1
  generalize (m : ℚ) * 2 ^ e = r at *
  have hlt : (2 : ℚ) ^ (64 : Nat) < n := by linarith [show (2 : ℚ) ^ (71 : Int) = 2 ^ 64 * 128 by norm_num, show (1 : ℚ) < 2 ^ 64 by norm_num]
  exact_mod_cast hlt

/-- CVTFI of a finite value in reach: its rounded integer, clamped. -/
theorem cvtFI_near {dt st : Ty} {ftz s : Bool} {rm : RM} {a m : Nat} {e : Int} (hv : decodeF st ftz a = .fin s m e)
    (hnear : ¬(m ≠ 0 ∧ (Nat.log2 m : Int) + e > 70)) {i : Int} (hi : i = signedInt s (roundToInt rm s m e).1) :
    cvtFI dt st ftz rm a = if i < intMin dt ∨ i > intMax dt then (wrap dt.width (clampI i (intMin dt) (intMax dt)), flagNV)
      else (wrap dt.width i, if (roundToInt rm s m e).2 then flagNX else 0) := by
  subst hi
  simp only [cvtFI, hv, if_neg hnear]
  rfl

/-- A finite value becomes its rounded integer, or the end of the type beyond which that lies (R87). -/
theorem cvtFI_fin {dt st : Ty} {ftz s : Bool} {rm : RM} {a m : Nat} {e : Int} (hw : dt.width ≤ 64) (hv : decodeF st ftz a = .fin s m e) :
    ∃ n, IntegerOf rm s ((m : ℚ) * 2 ^ e) n ∧ cvtFI dt st ftz rm a = saturated dt (signedInt s n) (FVal.fin s m e).num := by
  have hn := roundToInt_integerOf rm s m e
  refine ⟨_, hn, ?_⟩
  by_cases hbig : m ≠ 0 ∧ (Nat.log2 m : Int) + e > 70
  · obtain ⟨hlo, hhi⟩ := int_bounds hw
    have hgt := integerOf_big hbig.1 hbig.2 hn
    simp only [cvtFI, hv, if_pos hbig]
    cases s
    · exact (saturated_above (by rw [signedInt_false]; omega) _).symm
    · exact (saturated_below (by rw [signedInt_true]; omega) _).symm
  have hle := intMin_le_intMax dt
  have hex : (roundToInt rm s m e).2 = false ↔ _ := (roundToInt_exact_iff rm s m e).trans (signedInt_eq_num_iff (s := s)).symm
  generalize hi : signedInt s (roundToInt rm s m e).1 = i at hex
  rw [cvtFI_near hv hbig hi.symm]
  by_cases hmin : i < intMin dt
  · have hclamp : clampI i (intMin dt) (intMax dt) = intMin dt := by unfold clampI; omega
    rw [if_pos (.inl hmin), saturated_below hmin, hclamp]
  by_cases hmax : intMax dt < i
  · have hclamp : clampI i (intMin dt) (intMax dt) = intMax dt := by unfold clampI; omega
    rw [if_pos (.inr hmax), saturated_above hmax, hclamp]
  rw [if_neg (not_or.2 ⟨hmin, hmax⟩), saturated, if_neg hmin, if_neg hmax]
  cases hinex : (roundToInt rm s m e).2
  · simp [hex.1 hinex]
  · have hne : (i : ℚ) ≠ (FVal.fin s m e).num := fun h => by simp [hex.2 h] at hinex
    simp [hne]

/-- A zero in a narrow type is zero in its register. -/
theorem narrowInt_zero (t : Ty) : narrowInt t 0 = 0 := by
  cases t <;> rfl

/-- CVTFI: 0 for a NaN, an end of the type for an infinity, the integer of any other value (R87). -/
theorem cvtFI_meets {dt st : Ty} {ftz : Bool} {rm : RM} {a : Nat} {o : LaneOut} (hw : dt.width ≤ 64)
    (hd : o.d = narrowInt dt (cvtFI dt st ftz rm a).1) (hf : o.fl = (cvtFI dt st ftz rm a).2) :
    if isNaNF st a then o.d = 0 ∧ o.fl = flagNV
    else if (decodeF st ftz a).isInf then
      o.d = narrowInt dt (wrap dt.width (if (decodeF st ftz a).sign then intMin dt else intMax dt)) ∧ o.fl = flagNV
    else ∃ n : Nat, IntegerOf rm (decodeF st ftz a).sign |(decodeF st ftz a).num| n ∧
      let i : Int := if (decodeF st ftz a).sign then -n else n
      if i < intMin dt then o.d = narrowInt dt (wrap dt.width (intMin dt)) ∧ o.fl = flagNV
      else if intMax dt < i then o.d = narrowInt dt (wrap dt.width (intMax dt)) ∧ o.fl = flagNV
      else o.d = narrowInt dt (wrap dt.width i) ∧ o.fl = if (i : ℚ) ≠ (decodeF st ftz a).num then flagNX else 0 := by
  cases hnan : isNaNF st a
  · rw [if_neg (by simp)]
    have hne := decodeF_ne_nan hnan ftz
    cases hv : decodeF st ftz a with
    | nan => exact absurd hv hne
    | inf s =>
      simp only [cvtFI, hv] at hd hf
      exact ⟨hd, hf⟩
    | fin s m e =>
      obtain ⟨n, hn, heq⟩ := cvtFI_fin (rm := rm) hw hv
      rw [heq] at hd hf
      refine ⟨n, by rwa [FVal.abs_num_fin], ?_⟩
      change if signedInt s n < intMin dt then _ else _
      by_cases hmin : signedInt s n < intMin dt
      · rw [saturated_below hmin] at hd hf
        rw [if_pos hmin]
        exact ⟨hd, hf⟩
      rw [if_neg hmin]
      change if intMax dt < signedInt s n then _ else _
      by_cases hmax : intMax dt < signedInt s n
      · rw [saturated_above hmax] at hd hf
        rw [if_pos hmax]
        exact ⟨hd, hf⟩
      · rw [saturated, if_neg hmin, if_neg hmax] at hd hf
        rw [if_neg hmax]
        exact ⟨hd, hf⟩
  · simp_all [cvtFI, decodeF_of_nan hnan, narrowInt_zero]

end Machine
end Sys2Proof

/-! ## Packed elements (R67, R89) -/

namespace Sys2Proof

/-- Round gives a zero, what an overflow gives, or a code up to the largest finite one under the sign (R69). -/
theorem roundF_cases (t : Ty) (rm : RMode) (sat ftz s : Bool) (m : Nat) (e : Int) :
    (roundF t rm sat ftz s m e).1 = zeroF t s ∨ (roundF t rm sat ftz s m e).1 = (overflowF t rm sat s).1
      ∨ ∃ code ≤ t.maxCode, (roundF t rm sat ftz s m e).1 = signBit t s + code := by
  unfold roundF
  split
  · exact .inl rfl
  extract_lets top ex
  split
  · exact .inl rfl
  split
  · exact .inr (.inl rfl)
  rcases gridSplit m e (ex - t.frac) with ⟨n, rem, k⟩
  dsimp -zeta only
  extract_lets n' fl code
  split
  · exact .inr (.inl rfl)
  next hcode => exact .inr (.inr ⟨code, not_lt.1 hcode, rfl⟩)

/-! A result in a narrow float format fills no more than its container. -/

section
variable {t : Ty} (h : t.isNarrowFloat = true)
include h

theorem encodings_lt_container (s : Bool) :
    zeroF t s < 2 ^ t.container ∧ maxF t s < 2 ^ t.container ∧ infF t s < 2 ^ t.container ∧ qnanF t < 2 ^ t.container := by
  revert h
  cases t <;> cases s <;> decide

theorem overflowF_lt_container (rm : RMode) (sat s : Bool) : (overflowF t rm sat s).1 < 2 ^ t.container := by
  obtain ⟨-, hmax, hinf, hqnan⟩ := encodings_lt_container h s
  unfold overflowF
  extract_lets fl big
  split
  · exact hmax
  · split
    exacts [hinf, hqnan]

theorem roundF_lt_container (rm : RMode) (sat ftz s : Bool) (m : Nat) (e : Int) : (roundF t rm sat ftz s m e).1 < 2 ^ t.container := by
  obtain ⟨hzero, hmax, -, -⟩ := encodings_lt_container h s
  obtain hz | ho | ⟨code, hcode, hc⟩ := roundF_cases t rm sat ftz s m e
  · rwa [hz]
  · rw [ho]
    exact overflowF_lt_container h rm sat s
  · rw [hc]
    exact lt_of_le_of_lt (Nat.add_le_add_left hcode _) hmax

theorem cvtFF_lt_container (st : Ty) (ftz : Bool) (rm : RMode) (sat : Bool) (a : Nat) : (cvtFF t st ftz rm sat a).1 < 2 ^ t.container := by
  have henc := encodings_lt_container h
  unfold cvtFF
  split
  · dsimp only
    split
    exacts [(henc false).2.2.2, (henc false).1]
  next s _ =>
    split
    · exact (henc s).2.2.1
    split
    exacts [(henc s).2.1, (henc s).2.2.2]
  · exact roundF_lt_container h ..
end

namespace Machine

/-! The containers of a packed register. -/

theorem testBit_container (x c j i : Nat) : (x / 2 ^ (c * j) % 2 ^ c).testBit i = (decide (i < c) && x.testBit (i + c * j)) := by
  rw [Nat.testBit_mod_two_pow, Nat.testBit_div_two_pow]

/-- Bit k of a packed register: of the two elements in their containers, of the old bits elsewhere. -/
theorem testBit_packBits {c p r a b k : Nat} :
    (packBits c p r a b).testBit k = if k < 2 * p * c then r.testBit k
      else if k < (2 * p + 1) * c then a.testBit (k - 2 * p * c)
      else if k < (2 * p + 2) * c then b.testBit (k - (2 * p + 1) * c)
      else r.testBit k := by
  have h1 : (2 * p + 1) * c = 2 * p * c + c := by ring
  have h2 : (2 * p + 2) * c = 2 * p * c + c + c := by ring
  have heq : packBits c p r a b
      = r % 2 ^ (2 * p * c) + 2 ^ (2 * p * c) * (a % 2 ^ c + 2 ^ c * (b % 2 ^ c + 2 ^ c * (r / 2 ^ ((2 * p + 2) * c)))) := by
    rw [packBits, h1, h2]
    ring
  have hmod : ∀ x n : Nat, x % 2 ^ n < 2 ^ n := fun x n => Nat.mod_lt _ (by positivity)
  rw [heq, testBit_add_disjoint _ _ _ _ (hmod ..), testBit_add_disjoint _ _ _ _ (hmod ..), testBit_add_disjoint _ _ _ _ (hmod ..),
    Nat.testBit_div_two_pow]
  simp only [Nat.testBit_mod_two_pow, h1, h2, ← Nat.sub_sub]
  generalize 2 * p * c = q
  by_cases hq : k < q
  · simp [hq]
  by_cases ha : k < q + c
  · have : k - q < c := by omega
    simp [hq, ha, this]
  by_cases hb : k < q + c + c
  · have h3 : ¬ k - q < c := by omega
    have h4 : k - q - c < c := by omega
    simp [hq, ha, hb, h3, h4]
  · have h3 : ¬ k - q < c := by omega
    have h4 : ¬ k - q - c < c := by omega
    simp only [hq, ha, hb, h3, h4, if_false]
    congr 1
    omega

/-- A container of a packed register: the elements in theirs, the old bits in the others (R89). -/
theorem container_packBits {c p r a b j : Nat} (ha : a < 2 ^ c) (hb : b < 2 ^ c) :
    packBits c p r a b / 2 ^ (c * j) % 2 ^ c = if j = 2 * p then a else if j = 2 * p + 1 then b else r / 2 ^ (c * j) % 2 ^ c := by
  refine Nat.eq_of_testBit_eq fun i => ?_
  rw [testBit_container, testBit_packBits]
  by_cases hi : i < c
  swap
  · have hhigh : ∀ x, x < 2 ^ c → x.testBit i = false := fun x hx => testBit_high hx (not_lt.1 hi)
    have hr : r / 2 ^ (c * j) % 2 ^ c < 2 ^ c := Nat.mod_lt _ (by positivity)
    simp only [hi, decide_false, Bool.false_and]
    split_ifs
    exacts [(hhigh a ha).symm, (hhigh b hb).symm, (hhigh _ hr).symm]
  simp only [hi, decide_true, Bool.true_and]
  obtain hlt | rfl | rfl | hgt : j < 2 * p ∨ j = 2 * p ∨ j = 2 * p + 1 ∨ 2 * p + 2 ≤ j := by omega
  · have : i + c * j < 2 * p * c := by nlinarith
    rw [if_pos this, if_neg (by omega), if_neg (by omega), testBit_container]
    simp [hi]
  · rw [if_neg (by nlinarith), if_pos (by nlinarith), if_pos rfl]
    congr 1
    rw [Nat.mul_comm c, Nat.add_sub_cancel]
  · rw [if_neg (by nlinarith), if_neg (by nlinarith), if_pos (by nlinarith), if_neg (by omega), if_pos rfl]
    congr 1
    rw [Nat.mul_comm c, Nat.add_sub_cancel]
  · have : (2 * p + 2) * c ≤ c * j := by nlinarith
    rw [if_neg (by nlinarith), if_neg (by nlinarith), if_neg (by omega), if_neg (by omega), if_neg (by omega), testBit_container]
    simp [hi]

theorem packBits_lt {c p r a b : Nat} (hr : r < 2 ^ 32) (hp : (2 * p + 2) * c ≤ 32) : packBits c p r a b < 2 ^ 32 := by
  refine Nat.lt_pow_two_of_testBit _ fun k hk => ?_
  rw [testBit_packBits, if_neg (by nlinarith), if_neg (by nlinarith), if_neg (by omega)]
  exact testBit_high hr hk

end Machine
end Sys2Proof

namespace Sys2Proof.Machine

/-! PACKN (R89). -/

/-- The types and containers that PACKN takes (R83, R89). -/
theorem packn_uses_ok (x : Packn) : (Instr.packn x).uses.ok =
    (((x.dt.isNarrowFloat && x.st == .f32)
        || ((x.dt == .i16 || x.dt == .n16 || x.dt == .i8 || x.dt == .n8 || x.dt == .i4 || x.dt == .n4)
          && (x.st == .i32 || x.st == .n32) && x.rm == .rne))
      && decide (x.p.toNat < 16 / x.dt.container) && zeroOk 32 x.d [x.a, x.b]) := rfl

section
variable {x : Packn} (h : (Instr.packn x).uses.ok = true)
include h

/-- A legal PACKN names a narrow float format or an integer type, and two containers of the register. -/
theorem packn_ok : (x.dt.isNarrowFloat = true ∨ x.dt.isFloat = false) ∧ (2 * x.p.toNat + 2) * x.dt.container ≤ 32 := by
  simp only [packn_uses_ok, Bool.and_eq_true, Bool.or_eq_true, beq_iff_eq, decide_eq_true_eq] at h
  obtain ⟨⟨htypes, hp⟩, -⟩ := h
  refine ⟨?_, ?_⟩
  · obtain ⟨hnarrow, -⟩ | ⟨⟨hint, -⟩, -⟩ := htypes
    · exact .inl hnarrow
    · refine .inr ?_
      obtain ((((hd | hd) | hd) | hd) | hd) | hd := hint <;> rw [hd] <;> rfl
  · generalize x.dt.container = c at hp
    have hmul : (x.p.toNat + 1) * c ≤ 16 := (Nat.mul_le_mul_right c hp).trans (Nat.div_mul_le_self 16 c)
    calc (2 * x.p.toNat + 2) * c = 2 * ((x.p.toNat + 1) * c) := by ring
      _ ≤ 32 := by omega

theorem packElem_lt (ftz : Bool) (a : Nat) : (packElem x ftz a).1 < 2 ^ x.dt.container := by
  obtain ⟨htype, -⟩ := packn_ok h
  unfold packElem
  split
  next hf =>
    obtain hnarrow | hint := htype
    · exact cvtFF_lt_container hnarrow ..
    · simp [hint] at hf
  · split
    · exact wrap_lt ..
    · exact Nat.mod_lt _ (by positivity)
end

/-- An element that is no float is the integer, clamped or not, reduced to its container (R89). -/
theorem packElem_int {x : Packn} (hf : x.dt.isFloat = false) (ftz : Bool) (a : Nat) :
    let i : Int := if x.sat then clampI (intOf x.st a) (intMin x.dt) (intMax x.dt) else a
    ((packElem x ftz a).1 : Int) = i % 2 ^ x.dt.container ∧ (packElem x ftz a).2 = 0 := by
  cases hs : x.sat
  · simp [packElem, hf, hs]
  · simp only [packElem, hf, hs, if_true, Bool.false_eq_true, if_false, wrap, and_true]
    exact Int.toNat_of_nonneg (Int.emod_nonneg _ (by positivity))

/-! RAND (R92). -/

/-- Round of a number that lies on the format's grid below its largest value has no exceptions (R69). -/
theorem roundF_on_grid {t : Ty} {rm : RMode} {sat s : Bool} {m n : Nat} {e : Int} (htop : (Nat.log2 m : Int) + e ≤ 2 ^ t.ebits)
    (hgrid : gridSplit m e (max ((Nat.log2 m : Int) + e) t.emin - t.frac) = (n, 0, 0))
    (hcode : (if n < 2 ^ t.frac then n else (max ((Nat.log2 m : Int) + e) t.emin - t.emin + 1).toNat * 2 ^ t.frac + (n - 2 ^ t.frac)) ≤ t.maxCode) :
    (roundF t rm sat false s m e).2 = 0 := by
  unfold roundF
  by_cases hm : m = 0
  · rw [if_pos hm]
  rw [if_neg hm]
  simp only [Bool.false_and, Bool.false_eq_true, if_false, if_neg (not_lt.2 htop), hgrid, ne_eq, not_true_eq_false, decide_false,
    if_neg (not_lt.2 hcode)]

/-- A number below 2^24 over 2^24 is an .f32 value. -/
theorem roundF_unit_exact {m : Nat} (hm : m < 2 ^ 24) : (roundF .f32 (.fixed .rne) false false false m (-24)).2 = 0 := by
  by_cases h0 : m = 0
  · simp [h0, roundF]
  have hlog : Nat.log2 m < 24 := (Nat.log2_lt h0).2 hm
  have hself : m < 2 ^ (Nat.log2 m + 1) := Nat.lt_log2_self
  have hemin : Ty.f32.emin = -126 := rfl
  have hfrac : Ty.f32.frac = 23 := rfl
  have hmax : Ty.f32.maxCode = 255 * 2 ^ 23 - 1 := rfl
  have hn : m * 2 ^ (23 - Nat.log2 m) < 2 ^ 24 := calc
    m * 2 ^ (23 - Nat.log2 m) < 2 ^ (Nat.log2 m + 1) * 2 ^ (23 - Nat.log2 m) := by gcongr
    _ = 2 ^ 24 := by rw [← pow_add]; congr 1; omega
  refine roundF_on_grid (n := m * 2 ^ (23 - Nat.log2 m)) (by norm_num [Ty.ebits]; omega) ?_ ?_
  · rw [gridSplit, if_pos (by omega)]
    congr 3
    omega
  · rw [hemin, hfrac, hmax]
    have htop : (max ((Nat.log2 m : Int) + -24) (-126) - -126 + 1).toNat ≤ 126 := by omega
    generalize (max ((Nat.log2 m : Int) + -24) (-126) - -126 + 1).toNat = top at *
    split <;> omega

end Sys2Proof.Machine

/-! ## Special functions (R128 to R131) -/

namespace Sys2Proof.Machine

/-! Powers of two. -/

section
variable {m : Nat} {e : Int} (hm : m ≠ 0)
include hm

/-- A magnitude lies at or above the power of two of its logarithm, and below the next. -/
theorem magnitude_bounds : (2 : ℚ) ^ ((Nat.log2 m : Int) + e) ≤ m * 2 ^ e ∧ (m : ℚ) * 2 ^ e < 2 ^ ((Nat.log2 m : Int) + e + 1) := by
  have hlo : (2 : ℚ) ^ (Nat.log2 m : Int) ≤ m := by
    rw [zpow_natCast]
    exact_mod_cast Nat.log2_self_le hm
  have hhi : (m : ℚ) < 2 ^ ((Nat.log2 m : Int) + 1) := by
    have : m < 2 ^ (Nat.log2 m + 1) := Nat.lt_log2_self
    exact_mod_cast this
  constructor
  · rw [zpow_add₀ two_ne_zero]
    gcongr
  · rw [show (Nat.log2 m : Int) + e + 1 = Nat.log2 m + 1 + e by ring, zpow_add₀ two_ne_zero]
    gcongr

theorem magnitude_lt_iff (n : Int) : (m : ℚ) * 2 ^ e < 2 ^ n ↔ (Nat.log2 m : Int) + e < n := by
  obtain ⟨hlo, hhi⟩ := magnitude_bounds (e := e) hm
  constructor
  · intro h
    exact (zpow_lt_zpow_iff_right₀ one_lt_two).1 (hlo.trans_lt h)
  · intro h
    exact hhi.trans_le (zpow_le_zpow_right₀ one_le_two (by omega))

theorem magnitude_eq_iff (n : Int) : (m : ℚ) * 2 ^ e = 2 ^ n ↔ isPow2 m = true ∧ (Nat.log2 m : Int) + e = n := by
  have hpow : isPow2 m = true ↔ (m : ℚ) * 2 ^ e = 2 ^ ((Nat.log2 m : Int) + e) := by
    rw [isPow2, beq_iff_eq, zpow_add₀ two_ne_zero, mul_left_inj' (by positivity), zpow_natCast]
    exact_mod_cast Iff.rfl
  obtain ⟨hlo, hhi⟩ := magnitude_bounds (e := e) hm
  constructor
  · intro h
    have hl : (Nat.log2 m : Int) + e = n := by
      rw [h] at hlo hhi
      have h1 := (zpow_le_zpow_iff_right₀ one_lt_two).1 hlo
      have h2 := (zpow_lt_zpow_iff_right₀ one_lt_two).1 hhi
      omega
    exact ⟨hpow.2 (hl ▸ h), hl⟩
  · rintro ⟨hp, rfl⟩
    exact hpow.1 hp

theorem magnitude_le_iff (n : Int) : (m : ℚ) * 2 ^ e ≤ 2 ^ n ↔ (Nat.log2 m : Int) + e < n ∨ (isPow2 m = true ∧ (Nat.log2 m : Int) + e = n) := by
  rw [le_iff_lt_or_eq, magnitude_lt_iff hm, magnitude_eq_iff hm]
end

theorem four_zpow (n : Int) : (4 : ℚ) ^ n = 2 ^ (2 * n) := by
  rw [zpow_mul]
  norm_num

/-- Dyadic magnitudes compare as the numbers do. -/
theorem leDyadic_iff (m n : Nat) (e f : Int) : leDyadic m e n f = true ↔ (m : ℚ) * 2 ^ e ≤ n * 2 ^ f := by
  have hscale : ∀ (k : Nat) (g : Int), min e f ≤ g → (k : ℚ) * 2 ^ g = (k * 2 ^ (g - min e f).toNat : Nat) * 2 ^ min e f := by
    intro k g hg
    have hsplit : (2 : ℚ) ^ g = 2 ^ (g - min e f).toNat * 2 ^ min e f := by
      rw [← zpow_natCast, ← zpow_add₀ two_ne_zero]
      congr 1
      omega
    rw [hsplit]
    push_cast
    ring
  rw [hscale m e (min_le_left ..), hscale n f (min_le_right ..), mul_le_mul_iff_left₀ (by positivity), Nat.cast_le]
  simp [leDyadic]

/-! Twice a value, where that is an integer. -/

/-- A dyadic number is an integer when its denominator divides its numerator. -/
theorem eq_dyadic_iff {n q k : Nat} : (n : ℚ) = q / 2 ^ k ↔ n * 2 ^ k = q := by
  rw [eq_div_iff (by positivity)]
  exact_mod_cast Iff.rfl

theorem two_mul_num_fin (neg : Bool) (m : Nat) (e : Int) :
    2 * (FVal.fin neg m e).num = if neg then -((m : ℚ) * 2 ^ (e + 1)) else (m : ℚ) * 2 ^ (e + 1) := by
  rw [zpow_add_one₀ two_ne_zero]
  cases neg
  · simp only [FVal.num, Bool.false_eq_true, if_false]
    ring
  · simp only [FVal.num, if_true]
    ring

/-- A signed integer is twice a value when it is so in magnitude. -/
theorem signedInt_eq_two_mul_iff (neg : Bool) (m n : Nat) (e : Int) :
    (signedInt neg n : ℚ) = 2 * (FVal.fin neg m e).num ↔ (n : ℚ) = m * 2 ^ (e + 1) := by
  rw [two_mul_num_fin]
  cases neg <;> simp

/-- Below the grid of halves, the exponent as a division. -/
theorem magnitude_below {m k : Nat} {e : Int} (he : ¬ e ≥ -1) (hk : (-1 - e).toNat = k) : (m : ℚ) * 2 ^ (e + 1) = m / 2 ^ k := by
  rw [show e + 1 = -(k : Int) by omega, zpow_neg, zpow_natCast, div_eq_mul_inv]

theorem twice_some {neg : Bool} {m : Nat} {e n : Int} (h : twice neg m e = some n) : (n : ℚ) = 2 * (FVal.fin neg m e).num := by
  unfold twice at h
  by_cases he : e ≥ -1
  · obtain ⟨k, hk⟩ := Int.eq_ofNat_of_zero_le (show 0 ≤ e + 1 by omega)
    have hexp : (e - -1).toNat = k := by omega
    rw [if_pos he, Option.some.injEq] at h
    have hn : n = signedInt neg (m * 2 ^ k) := by
      rw [← h, scaledInt, signedInt, hexp]
      push_cast
      rfl
    rw [hn, signedInt_eq_two_mul_iff, hk]
    push_cast
    rfl
  · rw [if_neg he] at h
    generalize hk : (-1 - e).toNat = k at h
    dsimp only at h
    split at h
    · cases h
    split at h
    next hdiv =>
      have hn : n = signedInt neg (m / 2 ^ k) := (Option.some.inj h).symm
      rw [hn, signedInt_eq_two_mul_iff, magnitude_below he hk, eq_dyadic_iff]
      exact Nat.div_mul_cancel (Nat.dvd_of_mod_eq_zero hdiv)
    · cases h

theorem twice_none {neg : Bool} {m : Nat} {e : Int} (hm : m ≠ 0) (h : twice neg m e = none) (n : Int) : (n : ℚ) ≠ 2 * (FVal.fin neg m e).num := by
  intro hn
  unfold twice at h
  by_cases he : e ≥ -1
  · simp [he] at h
  rw [if_neg he] at h
  generalize hk : (-1 - e).toNat = k at h
  have habs : (n.natAbs : ℚ) = m / 2 ^ k := by
    rw [← magnitude_below he hk, Nat.cast_natAbs, Int.cast_abs, hn, two_mul_num_fin]
    have hpos : (0 : ℚ) ≤ m * 2 ^ (e + 1) := by positivity
    cases neg <;> simp [abs_of_nonneg hpos]
  have hdvd : n.natAbs * 2 ^ k = m := eq_dyadic_iff.1 habs
  dsimp only at h
  split at h
  next hfar =>
    have hlt : m < 2 ^ k := Nat.lt_log2_self.trans_le (Nat.pow_le_pow_right (by decide) hfar)
    exact absurd (Nat.le_of_dvd (Nat.pos_of_ne_zero hm) ⟨n.natAbs, by rw [← hdvd, Nat.mul_comm]⟩) (not_le.2 hlt)
  · rw [if_pos (by rw [← hdvd]; exact Nat.mul_mod_left ..)] at h
    cases h

theorem num_ofIntF (i : Int) : (ofIntF i).num = i := by
  have habs : ((i.natAbs : Nat) : ℚ) = |(i : ℚ)| := by rw [Nat.cast_natAbs, Int.cast_abs]
  simp only [ofIntF, FVal.num, zpow_zero, mul_one, habs]
  by_cases hi : i < 0
  · rw [decide_eq_true hi, if_pos rfl, abs_of_neg (by exact_mod_cast hi)]
    ring
  · rw [decide_eq_false hi, if_neg Bool.false_ne_true, abs_of_nonneg (by exact_mod_cast not_lt.1 hi)]
    ring

/-! The exact operands of R130. -/

theorem int_ne_half (n k : Int) : (n : ℚ) ≠ k + 1 / 2 := by
  intro h
  have : (2 * n : ℚ) = 2 * k + 1 := by linarith
  have : 2 * n = 2 * k + 1 := by exact_mod_cast this
  omega

/-- An operand has one exact result. -/
theorem exactAt_unique {op : Nat} {x y y' : ℚ} (hop : op < 8) (h : ExactAt op x y) (h' : ExactAt op x y') : y = y' := by
  have hfour : Function.Injective fun n : Int => (4 : ℚ) ^ n := zpow_right_injective₀ (by norm_num) (by norm_num)
  have htwo : Function.Injective fun n : Int => (2 : ℚ) ^ n := zpow_right_injective₀ (by norm_num) (by norm_num)
  obtain ⟨n, hn⟩ := h
  obtain ⟨k, hk⟩ := h'
  interval_cases op
  · exact hn.2.2.2.trans hk.2.2.2.symm
  · obtain ⟨-, -, hx, rfl⟩ := hn
    obtain ⟨-, -, hx', rfl⟩ := hk
    rw [hfour (hx.symm.trans hx')]
  · obtain ⟨-, -, hx, rfl⟩ := hn
    obtain ⟨-, -, hx', rfl⟩ := hk
    rw [hfour (hx.symm.trans hx')]
  · obtain ⟨-, -, hx, rfl⟩ := hn
    obtain ⟨-, -, hx', rfl⟩ := hk
    rw [Int.cast_injective (hx.symm.trans hx')]
  · obtain ⟨-, -, hx, rfl⟩ := hn
    obtain ⟨-, -, hx', rfl⟩ := hk
    rw [htwo (hx.symm.trans hx')]
  · obtain ⟨hx, rfl⟩ | ⟨hx, rfl⟩ := hn <;> obtain ⟨hx', rfl⟩ | ⟨hx', rfl⟩ := hk
    · rfl
    · exact absurd (hx.symm.trans hx') (int_ne_half n k)
    · exact absurd (hx'.symm.trans hx) (int_ne_half k n)
    · rw [Int.cast_injective (add_right_cancel (hx.symm.trans hx'))]
  · obtain ⟨hx, rfl⟩ | ⟨hx, rfl⟩ := hn <;> obtain ⟨hx', rfl⟩ | ⟨hx', rfl⟩ := hk
    · rw [Int.cast_injective (hx.symm.trans hx')]
    · exact absurd (hx.symm.trans hx') (int_ne_half n k)
    · exact absurd (hx'.symm.trans hx) (int_ne_half k n)
    · rfl
  · obtain ⟨hx, rfl⟩ | ⟨hx, rfl⟩ := hn <;> obtain ⟨hx', rfl⟩ | ⟨hx', rfl⟩ := hk
    · rfl
    · linarith
    · linarith
    · rfl

/-- The last clauses of `SpecialOf`: what it says of an operand other than a NaN, an infinity, a zero, or a negative one that is invalid. -/
def SpecialTail (op : Nat) (ftz sign : Bool) (x : ℚ) (o : LaneOut) : Prop :=
  (∀ y, ExactAt op x y → RoundOnce .f32 ⟨ftz, .rne, false⟩ (op == 5 && sign) y o)
  ∧ (op = 0 → |x| ≤ 1 / 2 ^ 128 → o.d = infF .f32 sign ∧ o.fl = flagOF ||| flagNX)
  ∧ (op = 3 → 128 ≤ x → o.d = infF .f32 false ∧ o.fl = flagOF ||| flagNX)
  ∧ ((¬∃ y, ExactAt op x y) → o.fl &&& flagNX ≠ 0)
  ∧ (ftz = true → (op = 0 ∧ 2 ^ 126 < |x|) ∨ (op = 7 ∧ |x| = 1 / 2 ^ 126) → o.d = zeroF .f32 sign ∧ o.fl = flagNX ||| flagUF)

section
variable {op : Nat} {ftz sign : Bool} {x y : ℚ} {o : LaneOut}

/-- An exact operand lies where no result overflows or comes below 2^-126. -/
theorem exactAt_range (h : ExactAt op x y) :
    (op = 0 → 1 / 2 ^ 128 < |x| ∧ |x| ≤ 2 ^ 126) ∧ (op = 3 → x < 128) ∧ (op = 7 → |x| ≠ 1 / 2 ^ 126) := by
  obtain ⟨n, hn⟩ := h
  refine ⟨?_, ?_, ?_⟩
  · rintro rfl
    obtain ⟨hlo, hhi, hx, -⟩ := hn
    rw [hx, show (1 : ℚ) / 2 ^ 128 = 2 ^ (-128 : Int) by norm_num, show (2 : ℚ) ^ 126 = 2 ^ (126 : Int) by norm_num]
    exact ⟨zpow_lt_zpow_right₀ one_lt_two (by omega), zpow_le_zpow_right₀ one_le_two hhi⟩
  · rintro rfl
    obtain ⟨-, hhi, rfl, -⟩ := hn
    have : n < 128 := by omega
    exact_mod_cast this
  · rintro rfl heq
    have hsmall : |x| < 10 := by rw [heq]; norm_num
    obtain ⟨hx, -⟩ | ⟨hx, -⟩ := hn
    · linarith [le_abs_self x]
    · linarith [neg_le_abs x]

/-- An exact result is that of its operand. -/
theorem specialTail_of_exact (hop : op < 8) (hy : ExactAt op x y) (ho : RoundOnce .f32 ⟨ftz, .rne, false⟩ (op == 5 && sign) y o) :
    SpecialTail op ftz sign x o := by
  obtain ⟨h0, h3, h7⟩ := exactAt_range hy
  refine ⟨fun y' hy' => exactAt_unique hop hy hy' ▸ ho, fun e hle => ?_, fun e hle => ?_, fun hno => absurd ⟨y, hy⟩ hno, ?_⟩
  · exact absurd hle (not_le.2 (h0 e).1)
  · exact absurd hle (not_le.2 (h3 e))
  · rintro - (⟨e, hlt⟩ | ⟨e, heq⟩)
    · exact absurd hlt (not_lt.2 (h0 e).2)
    · exact absurd heq (h7 e)

theorem overflow_nx : (flagOF ||| flagNX) &&& flagNX ≠ 0 := by decide

/-- RCP of an operand too small for its inverse. -/
theorem specialTail_rcp_overflow (hx : |x| ≤ 1 / 2 ^ 128) (ho : (o.d, o.fl) = (infF .f32 sign, flagOF ||| flagNX)) : SpecialTail 0 ftz sign x o := by
  obtain ⟨hd, hfl⟩ := Prod.mk.inj ho
  refine ⟨fun y hy => ?_, fun _ _ => ⟨hd, hfl⟩, nofun, fun _ => hfl ▸ overflow_nx, ?_⟩
  · exact absurd hx (not_le.2 ((exactAt_range hy).1 rfl).1)
  · rintro - (⟨-, hlt⟩ | ⟨e, -⟩)
    · have : (1 : ℚ) / 2 ^ 128 < 2 ^ 126 := by norm_num
      linarith
    · cases e

/-- EX2 of an operand of 128 or more. -/
theorem specialTail_ex2_overflow (hx : 128 ≤ x) (ho : (o.d, o.fl) = (infF .f32 false, flagOF ||| flagNX)) : SpecialTail 3 ftz sign x o := by
  obtain ⟨hd, hfl⟩ := Prod.mk.inj ho
  refine ⟨fun y hy => ?_, nofun, fun _ _ => ⟨hd, hfl⟩, fun _ => hfl ▸ overflow_nx, ?_⟩
  · exact absurd hx (not_le.2 ((exactAt_range hy).2.1 rfl))
  · rintro - (⟨e, -⟩ | ⟨e, -⟩) <;> cases e
end

/-! Results that R130 leaves to the bounds. -/

theorem inexactOut_nx (ftz : Bool) (op : Nat) (neg : Bool) (m : Nat) (e : Int) (r : Nat) :
    (inexactOut ftz op neg m e r).2 &&& flagNX ≠ 0 := by
  have hboth : (flagNX ||| flagUF) &&& flagNX ≠ 0 := by decide
  have hone : flagNX &&& flagNX ≠ 0 := by decide
  unfold inexactOut
  split
  · exact hboth
  · dsimp only
    split
    exacts [hboth, hone]

/-- A result that FtzOut takes is a zero of the exact result's sign (R70). -/
theorem inexactOut_ftz {op : Nat} {neg : Bool} {m : Nat} {e : Int} (htiny : exactTiny op neg m e = true) (hneg : exactNeg op neg m e = neg)
    (r : Nat) : inexactOut true op neg m e r = (zeroF .f32 neg, flagNX ||| flagUF) := by
  simp [inexactOut, htiny, hneg]

theorem signedInt_neg {s : Bool} {n : Nat} (hn : 0 < n) : decide (signedInt s n < 0) = s := by
  cases s
  · exact decide_eq_false (by rw [signedInt_false]; omega)
  · exact decide_eq_true (by rw [signedInt_true]; omega)

/-- The model's value of TANH at 2^-126 is above zero. -/
theorem fxTanh_pos : 0 < fxTanh (2 ^ 130) := by decide

/-- TANH of ±2^-126 has the operand's sign. -/
theorem exactNeg_tanh {neg : Bool} {m : Nat} {e : Int} (he : -256 ≤ e) (hx : (m : ℚ) * 2 ^ e = 1 / 2 ^ 126) : exactNeg 7 neg m e = neg := by
  have hscaled : m * 2 ^ (e + 256).toNat = 2 ^ 130 := by
    have hq : (m : ℚ) * 2 ^ (e + 256).toNat = 2 ^ 130 := by
      rw [← zpow_natCast, show ((e + 256).toNat : Int) = e + 256 by omega, zpow_add₀ two_ne_zero, ← mul_assoc, hx]
      norm_num
    exact_mod_cast hq
  have hpos : 0 < fxTanh (m * 2 ^ (e + 256).toNat) := by
    rw [hscaled]
    exact fxTanh_pos
  exact signedInt_neg (s := neg) hpos

/-- A result that R130 does not fix has NX, and FtzOut by the exact result (R70, R131). -/
theorem specialTail_of_free {op a m : Nat} {ftz neg : Bool} {e : Int} {o : LaneOut} (he : -256 ≤ e)
    (hno : ¬∃ y, ExactAt op (FVal.fin neg m e).num y) (hrcp : op = 0 → ¬(m : ℚ) * 2 ^ e ≤ 1 / 2 ^ 128)
    (hex2 : op = 3 → (FVal.fin neg m e).num < 128) (ho : (o.d, o.fl) = specFree op ftz a neg m e) :
    SpecialTail op ftz neg (FVal.fin neg m e).num o := by
  have hfl : o.fl = (specFree op ftz a neg m e).2 := congrArg Prod.snd ho
  unfold SpecialTail
  rw [FVal.abs_num_fin]
  refine ⟨fun y hy => absurd ⟨y, hy⟩ hno, fun h hle => absurd hle (hrcp h), fun h hle => absurd hle (not_le.2 (hex2 h)),
    fun _ => by rw [hfl]; exact inexactOut_nx _ _ _ _ _ _, ?_⟩
  rintro rfl hcase
  refine Prod.mk.inj (ho.trans (inexactOut_ftz ?_ ?_ _))
  · obtain ⟨rfl, hlt⟩ | ⟨rfl, heq⟩ := hcase
    · have hgt : ¬ leDyadic m e 1 126 = true := by
        rw [leDyadic_iff, not_le]
        norm_num at hlt ⊢
        exact hlt
      simpa [exactTiny] using hgt
    · have hle : leDyadic m e 1 (-126) = true := by
        rw [leDyadic_iff, heq]
        norm_num
      exact hle
  · obtain ⟨rfl, -⟩ | ⟨rfl, heq⟩ := hcase
    · rfl
    · exact exactNeg_tanh he heq

/-! Each function of a finite operand other than zero. -/

/-- What a finite .f32 value other than zero is. -/
structure IsF32 (m : Nat) (e : Int) : Prop where
  ne : m ≠ 0
  low : -149 ≤ e
  high : (Nat.log2 m : Int) + e ≤ 127

theorem isF32_of_decode {ftz s : Bool} {a m : Nat} {e : Int} (h : decodeF .f32 ftz a = .fin s m e) (hm : m ≠ 0) : IsF32 m e := by
  have hfrac : ffrac .f32 a < 2 ^ 23 := Nat.mod_lt _ (by decide)
  have hexp : fexp .f32 a < 2 ^ 8 := Nat.mod_lt _ (by decide)
  have hspecial : fexp .f32 a = 255 → isNaNF .f32 a = true ∨ isInfF .f32 a = true := by
    intro h255
    have hinf : Ty.f32.hasInf = true := rfl
    have hbits : 2 ^ Ty.f32.ebits - 1 = 255 := rfl
    by_cases h0 : ffrac .f32 a = 0
    · exact .inr (by simp [isInfF, hinf, hbits, h255, h0])
    · exact .inl (by simp [isNaNF, hinf, hbits, h255, h0])
  unfold decodeF at h
  split at h
  · cases h
  next hnan =>
  split at h
  · cases h
  next hinf =>
  split at h
  · split at h
    · obtain ⟨-, rfl, -⟩ := FVal.fin.inj h
      exact absurd rfl hm
    · obtain ⟨-, rfl, rfl⟩ := FVal.fin.inj h
      have hlog : Nat.log2 (ffrac .f32 a) < 23 := (Nat.log2_lt hm).2 hfrac
      have he : Ty.f32.emin - (Ty.f32.frac : Int) = -149 := rfl
      exact ⟨hm, he.ge, by rw [he]; omega⟩
  next h0 =>
    obtain ⟨-, rfl, rfl⟩ := FVal.fin.inj h
    have hlog : Nat.log2 (2 ^ 23 + ffrac .f32 a) < 24 := (Nat.log2_lt (by omega)).2 (by omega)
    have h0' : fexp .f32 a ≠ 0 := by simpa using h0
    have h255 : fexp .f32 a ≠ 255 := fun h => by
      obtain hn | hi := hspecial h
      exacts [hnan hn, hinf hi]
    have hb : (Ty.f32.bias : Int) = 127 := rfl
    have hfr : (Ty.f32.frac : Int) = 23 := rfl
    exact ⟨hm, by rw [hb, hfr]; omega, by rw [hb, hfr]; change (Nat.log2 (2 ^ 23 + ffrac .f32 a) : Int) + _ ≤ _; omega⟩

/-- The exact value, rounded once, is a special function's result at an exact operand. -/
theorem specialTail_of_round {op : Nat} {ftz neg s : Bool} {k : Nat} {g : Int} {x y : ℚ} {o : LaneOut} (hop : op < 8) (hy : ExactAt op x y)
    (hyv : y = (FVal.fin s k g).num) (hz : k = 0 → s = (op == 5 && neg)) (ho : (o.d, o.fl) = roundV .f32 (.fixed .rne) false ftz (.fin s k g)) :
    SpecialTail op ftz neg x o :=
  specialTail_of_exact hop hy (roundBy_roundF hyv hz ho)

end Sys2Proof.Machine

namespace Sys2Proof.Machine

/-! Each function at a finite operand other than zero (R129 to R131). -/

theorem isPow4_iff {m : Nat} {e : Int} : isPow4 m e = true ↔ isPow2 m = true ∧ ((Nat.log2 m : Int) + e) % 2 = 0 := by
  simp [isPow4]

/-- A power of four is the power of two of twice its exponent. -/
theorem magnitude_eq_four {m : Nat} {e : Int} (hm : m ≠ 0) (n : Int) :
    (FVal.fin false m e).num = 4 ^ n ↔ isPow2 m = true ∧ (Nat.log2 m : Int) + e = 2 * n := by
  rw [four_zpow, FVal.num_fin_pos, magnitude_eq_iff hm]

theorem magnitude_of_pow2 {m : Nat} {e : Int} (hm : m ≠ 0) (hp : isPow2 m = true) : (m : ℚ) * 2 ^ e = 2 ^ ((Nat.log2 m : Int) + e) :=
  (magnitude_eq_iff hm _).2 ⟨hp, rfl⟩

/-- The sign of an odd or even power of −1. -/
theorem neg_one_zpow (n : Int) : (-1 : ℚ) ^ n = if n % 2 == 1 then -1 else 1 := by
  obtain hn | hn := Int.even_or_odd n
  · simp [hn.neg_one_zpow, Int.even_iff.1 hn]
  · simp [hn.neg_one_zpow, Int.odd_iff.1 hn]

section
variable {ftz neg s z : Bool} {a m : Nat} {e : Int} {o : LaneOut}

/-- One, of either sign, is its own rounding. -/
theorem one_rounds (ho : (o.d, o.fl) = (oneF s, 0)) : RoundOnce .f32 ⟨ftz, .rne, false⟩ z (if s then -1 else 1) o := by
  have hround : (oneF s, 0) = roundF .f32 (.fixed .rne) false ftz s 1 0 := by
    cases ftz <;> cases s <;> decide
  exact roundBy_roundF (m := 1) (by cases s <;> simp) nofun (ho.trans hround)

theorem zero_rounds (ho : (o.d, o.fl) = (zeroF .f32 z, 0)) : RoundOnce .f32 ⟨ftz, .rne, false⟩ z 0 o := by
  unfold RoundOnce RoundBy
  rw [if_pos rfl]
  exact Prod.mk.inj ho

theorem parityOne_rounds {n : Int} (ho : (o.d, o.fl) = (parityOne n, 0)) : RoundOnce .f32 ⟨ftz, .rne, false⟩ z ((-1) ^ n) o :=
  neg_one_zpow n ▸ one_rounds ho

variable (hf : IsF32 m e)
include hf

theorem rcp_tail (ho : (o.d, o.fl) = specFinite 0 ftz a neg m e) : SpecialTail 0 ftz neg (FVal.fin neg m e).num o := by
  obtain ⟨hm, hlow, -⟩ := hf
  have habs := FVal.abs_num_fin neg m e
  have hsmall : (m : ℚ) * 2 ^ e ≤ 1 / 2 ^ 128 ↔
      (Nat.log2 m : Int) + e < -128 ∨ (isPow2 m = true ∧ (Nat.log2 m : Int) + e = -128) := by
    rw [show (1 : ℚ) / 2 ^ 128 = 2 ^ (-128 : Int) by norm_num]
    exact magnitude_le_iff hm (-128)
  simp only [specFinite, Bool.or_eq_true, Bool.and_eq_true, beq_iff_eq, decide_eq_true_eq] at ho
  split at ho
  next hover => exact specialTail_rcp_overflow (habs ▸ hsmall.2 (hover.imp_right And.symm)) ho
  next hover =>
  split at ho
  next hexact =>
    obtain ⟨⟨hp, h1⟩, h2⟩ := hexact
    have hpow := magnitude_of_pow2 (e := e) hm hp
    refine specialTail_of_round (k := 1) (by decide) ⟨_, h1, h2, habs.trans hpow, rfl⟩ ?_ nofun ho
    cases neg <;> simp [hpow, zpow_neg, -neg_add_rev]
  next hexact =>
    refine specialTail_of_free (by omega) ?_ (fun _ => mt hsmall.1 (mt (Or.imp_right And.symm) hover)) nofun ho
    rintro ⟨y, n, h1, h2, hx, -⟩
    obtain ⟨hp, rfl⟩ := (magnitude_eq_iff hm n).1 (habs ▸ hx)
    exact hexact ⟨⟨hp, h1⟩, h2⟩

theorem rsq_tail (ho : (o.d, o.fl) = specFinite 1 ftz a false m e) : SpecialTail 1 ftz false (FVal.fin false m e).num o := by
  obtain ⟨hm, hlow, -⟩ := hf
  simp only [specFinite, Bool.false_eq_true, if_false, Bool.and_eq_true, isPow4_iff, decide_eq_true_eq] at ho
  split at ho
  next hexact =>
    obtain ⟨⟨⟨hp, heven⟩, h1⟩, h2⟩ := hexact
    have hpow := (magnitude_eq_four (e := e) hm (((Nat.log2 m : Int) + e) / 2)).2 ⟨hp, by omega⟩
    refine specialTail_of_round (k := 1) (by decide) ⟨_, by omega, by omega, hpow, rfl⟩ ?_ nofun ho
    simp
  next hexact =>
    refine specialTail_of_free (by omega) ?_ nofun nofun ho
    rintro ⟨y, n, h1, h2, hx, -⟩
    obtain ⟨hp, hl⟩ := (magnitude_eq_four hm n).1 hx
    exact hexact ⟨⟨⟨hp, by omega⟩, by omega⟩, by omega⟩

theorem sqrt_tail (ho : (o.d, o.fl) = specFinite 2 ftz a false m e) : SpecialTail 2 ftz false (FVal.fin false m e).num o := by
  obtain ⟨hm, hlow, -⟩ := hf
  simp only [specFinite, Bool.false_eq_true, if_false, Bool.and_eq_true, isPow4_iff, decide_eq_true_eq] at ho
  split at ho
  next hexact =>
    obtain ⟨⟨⟨hp, heven⟩, h1⟩, h2⟩ := hexact
    have hpow := (magnitude_eq_four (e := e) hm (((Nat.log2 m : Int) + e) / 2)).2 ⟨hp, by omega⟩
    refine specialTail_of_round (k := 1) (by decide) ⟨_, by omega, by omega, hpow, rfl⟩ ?_ nofun ho
    simp
  next hexact =>
    refine specialTail_of_free (by omega) ?_ nofun nofun ho
    rintro ⟨y, n, h1, h2, hx, -⟩
    obtain ⟨hp, hl⟩ := (magnitude_eq_four hm n).1 hx
    exact hexact ⟨⟨⟨hp, by omega⟩, by omega⟩, by omega⟩

theorem lg2_tail (ho : (o.d, o.fl) = specFinite 4 ftz a false m e) : SpecialTail 4 ftz false (FVal.fin false m e).num o := by
  obtain ⟨hm, hlow, hhigh⟩ := hf
  simp only [specFinite, Bool.false_eq_true, if_false] at ho
  split at ho
  next hp =>
    have hpow := magnitude_of_pow2 (e := e) hm hp
    refine specialTail_of_round (by decide) ⟨_, by omega, hhigh, (FVal.num_fin_pos m e).trans hpow, rfl⟩ (num_ofIntF _).symm (fun h0 => ?_) ho
    exact decide_eq_false (by omega)
  next hp =>
    refine specialTail_of_free (by omega) ?_ nofun nofun ho
    rintro ⟨y, n, -, -, hx, -⟩
    exact hp ((magnitude_eq_iff hm n).1 (FVal.num_fin_pos m e ▸ hx)).1

theorem ex2_tail (ho : (o.d, o.fl) = specFinite 3 ftz a neg m e) : SpecialTail 3 ftz neg (FVal.fin neg m e).num o := by
  obtain ⟨hm, hlow, -⟩ := hf
  have hbig : 128 ≤ (FVal.fin neg m e).num ↔ neg = false ∧ 7 ≤ (Nat.log2 m : Int) + e := by
    have hmag := magnitude_lt_iff (e := e) hm 7
    cases neg
    · rw [FVal.num_fin_pos, ← not_lt, show (128 : ℚ) = 2 ^ (7 : Int) by norm_num, hmag, not_lt]
      simp
    · have hpos : (0 : ℚ) ≤ m * 2 ^ e := by positivity
      simp only [FVal.num_fin_minus, Bool.true_eq_false, false_and, iff_false]
      linarith
  simp only [specFinite, Bool.and_eq_true, Bool.not_eq_true', decide_eq_true_eq] at ho
  split at ho
  next hover => exact specialTail_ex2_overflow (hbig.2 hover) ho
  next hover =>
  have hlt : (FVal.fin neg m e).num < 128 := not_le.1 (mt hbig.1 hover)
  split at ho
  next n2 h2 =>
    have hx := twice_some h2
    split at ho
    next hexact =>
      have hhalf : (FVal.fin neg m e).num = (n2 / 2 : Int) := by
        have : (n2 : ℚ) = 2 * (n2 / 2 : Int) := by exact_mod_cast (show n2 = 2 * (n2 / 2) by omega)
        linarith
      have hhigh : n2 / 2 < 128 := by
        rw [hhalf] at hlt
        exact_mod_cast hlt
      exact specialTail_of_round (k := 1) (by decide) ⟨_, by omega, by omega, hhalf, rfl⟩ (by simp) nofun ho
    next hexact =>
      refine specialTail_of_free (by omega) ?_ nofun (fun _ => hlt) ho
      rintro ⟨y, n, h1, -, hn, -⟩
      rw [hn] at hx
      have : n2 = 2 * n := by exact_mod_cast hx
      omega
  next h2 =>
    refine specialTail_of_free (by omega) ?_ nofun (fun _ => hlt) ho
    rintro ⟨y, n, -, -, hn, -⟩
    exact twice_none hm h2 (2 * n) (by rw [hn]; push_cast; rfl)

omit hf in
/-- A value whose double is an integer is an integer, or lies half above one. -/
theorem half_of_twice {n2 : Int} (h : twice neg m e = some n2) :
    (n2 % 2 = 0 → (FVal.fin neg m e).num = (n2 / 2 : Int)) ∧ (n2 % 2 ≠ 0 → (FVal.fin neg m e).num = (n2 / 2 : Int) + 1 / 2) := by
  have hx := twice_some h
  constructor <;> intro hpar
  · have : (n2 : ℚ) = 2 * (n2 / 2 : Int) := by exact_mod_cast (show n2 = 2 * (n2 / 2) by omega)
    linarith
  · have : (n2 : ℚ) = 2 * (n2 / 2 : Int) + 1 := by exact_mod_cast (show n2 = 2 * (n2 / 2) + 1 by omega)
    linarith

/-- A value whose double is no integer is neither an integer nor half above one. -/
theorem no_half_of_twice (h : twice neg m e = none) (n : Int) :
    (FVal.fin neg m e).num ≠ n ∧ (FVal.fin neg m e).num ≠ n + 1 / 2 := by
  constructor <;> intro hn
  · exact twice_none hf.ne h (2 * n) (by rw [hn]; push_cast; rfl)
  · exact twice_none hf.ne h (2 * n + 1) (by rw [hn]; push_cast; ring)

theorem sinpi_tail (ho : (o.d, o.fl) = specFinite 5 ftz a neg m e) : SpecialTail 5 ftz neg (FVal.fin neg m e).num o := by
  simp only [specFinite] at ho
  split at ho
  next n2 h2 =>
    obtain ⟨hint, hhalf⟩ := half_of_twice h2
    split at ho
    next hpar => exact specialTail_of_exact (by decide) ⟨_, .inl ⟨hint hpar, rfl⟩⟩ (zero_rounds ho)
    next hpar =>
      rw [Int.fdiv_eq_ediv_of_nonneg _ (by decide)] at ho
      exact specialTail_of_exact (by decide) ⟨_, .inr ⟨hhalf hpar, rfl⟩⟩ (parityOne_rounds ho)
  next h2 =>
    refine specialTail_of_free (by have := hf.low; omega) ?_ nofun nofun ho
    rintro ⟨y, n, ⟨hx, -⟩ | ⟨hx, -⟩⟩
    exacts [(no_half_of_twice hf h2 n).1 hx, (no_half_of_twice hf h2 n).2 hx]

theorem cospi_tail (ho : (o.d, o.fl) = specFinite 6 ftz a neg m e) : SpecialTail 6 ftz neg (FVal.fin neg m e).num o := by
  simp only [specFinite] at ho
  split at ho
  next n2 h2 =>
    obtain ⟨hint, hhalf⟩ := half_of_twice h2
    split at ho
    next hpar => exact specialTail_of_exact (by decide) ⟨_, .inl ⟨hint hpar, rfl⟩⟩ (parityOne_rounds ho)
    next hpar => exact specialTail_of_exact (by decide) ⟨_, .inr ⟨hhalf hpar, rfl⟩⟩ (zero_rounds ho)
  next h2 =>
    refine specialTail_of_free (by have := hf.low; omega) ?_ nofun nofun ho
    rintro ⟨y, n, ⟨hx, -⟩ | ⟨hx, -⟩⟩
    exacts [(no_half_of_twice hf h2 n).1 hx, (no_half_of_twice hf h2 n).2 hx]

theorem tanh_tail (ho : (o.d, o.fl) = specFinite 7 ftz a neg m e) : SpecialTail 7 ftz neg (FVal.fin neg m e).num o := by
  have hten : leDyadic 10 0 m e = true ↔ (10 : ℚ) ≤ m * 2 ^ e := by
    rw [leDyadic_iff]
    norm_num
  have hpos : (0 : ℚ) < m * 2 ^ e := by have := hf.ne; positivity
  simp only [specFinite, hten] at ho
  split at ho
  next hle =>
    refine specialTail_of_exact (y := if neg then -1 else 1) (by decide) ⟨0, ?_⟩ (one_rounds ho)
    cases neg
    · exact .inl ⟨FVal.num_fin_pos m e ▸ hle, rfl⟩
    · exact .inr ⟨FVal.num_fin_minus m e ▸ neg_le_neg hle, rfl⟩
  next hle =>
    refine specialTail_of_free (by have := hf.low; omega) ?_ nofun nofun ho
    rintro ⟨y, n, hx⟩
    cases neg <;> simp only [FVal.num_fin_pos, FVal.num_fin_minus] at hx <;> obtain ⟨hx, -⟩ | ⟨hx, -⟩ := hx <;> linarith
end

end Sys2Proof.Machine

namespace Sys2Proof.Machine

section
variable {op a : Nat} {ftz : Bool} {o : LaneOut}

/-- A finite operand other than zero, where the function is defined. -/
theorem special_tail {neg : Bool} {m : Nat} {e : Int} (hf : IsF32 m e) (hop : op < 8) (hneg : ¬(neg = true ∧ (op = 1 ∨ op = 2 ∨ op = 4)))
    (ho : (o.d, o.fl) = specFinite op ftz a neg m e) : SpecialTail op ftz neg (FVal.fin neg m e).num o := by
  have hpos : op = 1 ∨ op = 2 ∨ op = 4 → neg = false := fun h => by simpa [h] using hneg
  interval_cases op
  · exact rcp_tail hf ho
  · obtain rfl := hpos (by decide)
    exact rsq_tail hf ho
  · obtain rfl := hpos (by decide)
    exact sqrt_tail hf ho
  · exact ex2_tail hf ho
  · obtain rfl := hpos (by decide)
    exact lg2_tail hf ho
  · exact sinpi_tail hf ho
  · exact cospi_tail hf ho
  · exact tanh_tail hf ho

/-- RSQ, SQRT and LG2 of a negative operand are invalid (R130). -/
theorem specFinite_negative {m : Nat} {e : Int} (hop : op = 1 ∨ op = 2 ∨ op = 4) : specFinite op ftz a true m e = (qnanF .f32, flagNV) := by
  obtain rfl | rfl | rfl := hop <;> rfl

/-- The model's special functions are those of R128 to R131. -/
theorem specBits_specialOf (hop : op < 8) (ho : (o.d, o.fl) = specBits op ftz a) : SpecialOf op ftz a o := by
  unfold specBits at ho
  refine nanFirst_of (fun h => by rwa [decodeF_of_nan h] at ho) fun h => ?_
  have hne := decodeF_ne_nan h ftz
  cases hv : decodeF .f32 ftz a with
  | nan => exact absurd hv hne
  | inf s =>
    rw [hv] at ho
    rw [if_pos (.inl rfl), ho]
    interval_cases op <;> cases s <;> rfl
  | fin s m e =>
    simp only [hv] at ho
    by_cases hm : m = 0
    · rw [if_pos (.inr (FVal.num_fin_eq_zero.2 hm)), ho, if_pos hm]
      interval_cases op <;> cases s <;> rfl
    rw [if_neg hm] at ho
    rw [if_neg (by simp [FVal.isInf, FVal.num_fin_eq_zero, hm])]
    split
    next hneg =>
      obtain ⟨rfl, hop⟩ := hneg
      rw [specFinite_negative hop] at ho
      exact Prod.mk.inj ho
    next hneg => exact special_tail (isF32_of_decode hv hm) hop hneg ho
end

end Sys2Proof.Machine

namespace Sys2Proof.Machine

/-! ## Conversions, special functions, packing and random numbers (R72 to R74, R81 to R93, R128 to R131) -/

theorem bitsOf_eq (x lo n : Nat) : bitsOf x lo n = x / 2 ^ lo % 2 ^ n := by
  rw [bitsOf, Nat.shiftRight_eq_div_pow]

/-- The integer types of CVTFI are no wider than a register pair (R87). -/
theorem cvtfi_width {x : Cvt} (h : (Instr.cvtfi x).uses.ok = true) : x.dt.width ≤ 64 := by
  have heq : (Instr.cvtfi x).uses.ok = (cvtUses x (x.dt.isCvtInt && x.st.isWideFloat && !x.sat)).ok := rfl
  simp only [heq, cvtUses, Bool.and_eq_true] at h
  obtain ⟨⟨⟨⟨hint, -⟩, -⟩, -⟩, -⟩ := h
  revert hint
  cases x.dt <;> decide

section
variable {s : State} {w : View} {m : Mask}

/-- A special function's form (R128). -/
theorem special_form {i : Instr} {op : Nat} {x : SpecUn} (hop : op < 8) (he : exec i s = specOp i s op x) (h : Issues i s w m) :
    Rounds i s w m false fun k => SpecialOf op w.cx.ftz (w.rd .f32 x.a k) :=
  laneOp_rounds h false _ he fun _ _ => specBits_specialOf hop rfl

/-- The bits that PACKN gives: its elements in their containers, the third source in the others (R89). -/
theorem packn_meets {x : Packn} (h : (Instr.packn x).uses.ok = true) (ftz : Bool) (a b : Nat) {r : Nat} (hr : r < 2 ^ 32) :
    let c := x.dt.container
    let cvt := fun (a : Nat) (p : LaneOut) =>
      if x.dt.isFloat then Converted x.dt .f32 (.fixed x.rm) x.sat ftz a p
      else
        let i : Int := if x.sat then clampI (intOf x.st a) (intMin x.dt) (intMax x.dt) else a
        (p.d : Int) = i % 2 ^ c ∧ p.fl = 0
    let d := packBits c x.p.toNat r (packElem x ftz a).1 (packElem x ftz b).1
    ∃ p q, cvt a p ∧ cvt b q ∧ (packElem x ftz a).2 ||| (packElem x ftz b).2 = p.fl ||| q.fl
      ∧ d < 2 ^ 32 ∧ ∀ j, j < 32 / c → d / 2 ^ (c * j) % 2 ^ c =
        if j = 2 * x.p.toNat then p.d else if j = 2 * x.p.toNat + 1 then q.d else r / 2 ^ (c * j) % 2 ^ c := by
  intro c cvt d
  have hcvt : ∀ a, cvt a (.float (packElem x ftz a)) := by
    intro a
    cases hf : x.dt.isFloat
    · simp only [cvt, hf, Bool.false_eq_true, if_false]
      exact packElem_int hf ftz a
    · simp only [cvt, hf, if_true]
      exact converted_cvtFF (by simp [LaneOut.float, packElem, hf])
  exact ⟨_, _, hcvt a, hcvt b, rfl, packBits_lt hr (packn_ok h).2, fun _ _ => container_packBits (packElem_lt h ftz a) (packElem_lt h ftz b)⟩

theorem high_half_lt (z : W64) : (z >>> 32).toNat < 2 ^ 32 := by
  have := z.isLt
  rw [BitVec.toNat_ushiftRight, Nat.shiftRight_eq_div_pow]
  omega

theorem draw_lt (w : View) (k j : Nat) : w.draw k j < 2 ^ 32 := high_half_lt _

/-- A draw's high 24 bits as a fraction of one (R92). -/
theorem draw_fraction_rounds (d n : Nat) (hd : d < 2 ^ 32) :
    RoundOnce .f32 ⟨false, .rne, false⟩ false ((d / 2 ^ 8 : Nat) / 2 ^ 24)
      { d := (roundF .f32 (.fixed .rne) false false false (d / 2 ^ 8) (-24)).1, draws := n } := by
  have hexact := roundF_unit_exact (m := d / 2 ^ 8) (by omega)
  generalize d / 2 ^ 8 = f at *
  refine roundBy_roundF (m := f) (e := -24) (s := false) ?_ (fun _ => rfl) (Prod.ext rfl hexact.symm)
  rw [FVal.num_fin_pos, zpow_neg, div_eq_mul_inv]
  norm_num

/-- RAND draws once or twice, and of .f32 gives the draw's high bits over 2^24 (R92). -/
theorem rand_form {x : RandF} (h : Issues (.rand x) s w m) :
    (x.ty = .b32 → Does (.rand x) s w m false fun k => ⟨w.draw k 0, false, 0, 1⟩)
    ∧ (x.ty = .f32 → DoesSome (.rand x) s w m false fun k o => o.draws = 1 ∧ RoundOnce .f32 ⟨false, .rne, false⟩ false
        ((w.draw k 0 / 2 ^ 8 : Nat) / 2 ^ 24) o)
    ∧ (x.ty = .b64 → Does (.rand x) s w m false fun k => ⟨w.draw k 0 + 2 ^ 32 * w.draw k 1, false, 0, 2⟩) := by
  have he := exec_rand x s
  unfold execRand at he
  refine ⟨fun ht => ?_, fun ht => ?_, fun ht => ?_⟩ <;> rw [ht] at he
  · exact does_of h he
  · exact doesSome_of h he fun k _ => ⟨rfl, draw_fraction_rounds _ _ (draw_lt w k 0)⟩
  · exact does_of h he
end

/-- Settles O6: each form is a lane form (`laneOp_rounds`) of a function of bits. For the special functions that function is
`specBits`, whose cases are those of R130; for the conversions it is Round of the exact value. -/
theorem conversionForms : Obligations.ConversionForms := by
  intro s w m
  refine ⟨fun x => special_form (by decide) (exec_rcp x s), fun x => special_form (by decide) (exec_rsq x s),
    fun x => special_form (by decide) (exec_sqrt x s), fun x => special_form (by decide) (exec_ex2 x s),
    fun x => special_form (by decide) (exec_lg2 x s), fun x => special_form (by decide) (exec_sinpi x s),
    fun x => special_form (by decide) (exec_cospi x s), fun x => special_form (by decide) (exec_tanh x s), ?_⟩
  refine ⟨fun x h => ?cvtff, fun x h => ?cvtfi, fun x h => ?cvtif, fun x h => ?packn, fun x h => ?unpackn, fun x h => ?scaleb,
    fun x h => rand_form h, fun x h => ?cvtsr⟩
  case cvtff => exact laneOp_rounds h false _ (exec_cvtff x s) fun _ _ => converted_cvtFF rfl
  case cvtfi => exact laneOp_rounds h _ _ (exec_cvtfi x s) fun _ _ => cvtFI_meets (cvtfi_width h.ok) rfl rfl
  case cvtif =>
    exact laneOp_rounds h false _ (exec_cvtif x s) fun _ _ => roundBy_roundF (num_ofIntF _).symm (fun h0 => decide_eq_false (by omega)) rfl
  case packn =>
    exact laneOp_rounds h false _ (exec_packn x s) fun k hk => packn_meets h.ok _ _ _ (rd_lt w .b32 x.c k hk rfl)
  case unpackn => exact laneOp_rounds h _ _ (exec_unpackn x s) fun _ _ => congrArg (unpackElem x.dt x.st) (bitsOf_eq ..)
  case scaleb =>
    exact laneOp_rounds h false _ (exec_scaleb x s) fun k _ =>
      scaleb_rounds (v := ⟨w.cx.ftz, x.rm, x.sat⟩) (congrArg (scalebBits x.dt _ (w.rd x.dt x.a k)) (bitsOf_eq ..))
  case cvtsr => exact laneOp_rounds h false _ (exec_cvtsr x s) fun _ _ => ⟨rfl, converted_cvtFF rfl⟩

end Sys2Proof.Machine

namespace Sys2Proof

/-! ## Integer arithmetic (R108 to R110) -/

theorem cast_wrap (w : Nat) (x : Int) : (wrap w x : Int) = x % 2 ^ w :=
  Int.toNat_of_nonneg (Int.emod_nonneg _ (by positivity))

theorem wrap_of_lt {w n : Nat} (h : n < 2 ^ w) : wrap w n = n := by
  have : (n : Int) < 2 ^ w := by exact_mod_cast h
  rw [wrap, Int.emod_eq_of_lt (Int.natCast_nonneg n) this, Int.toNat_natCast]

theorem width_pos_of_isInt4 {t : Ty} (h : t.isInt4 = true) : 0 < t.width := by
  obtain rfl | rfl | rfl | rfl := isInt4_cases h <;> decide

/-- Zero lies in every type. -/
theorem zero_bounds (t : Ty) : intMin t ≤ 0 ∧ 0 ≤ intMax t := by
  have h1 : (0 : Int) < 2 ^ (t.width - 1) := by positivity
  have h2 : (0 : Int) < 2 ^ t.width := by positivity
  unfold intMin intMax
  split <;> omega

section
variable {t : Ty} {a b : Int} (ha : intMin t ≤ a ∧ a ≤ intMax t)
include ha

/-- A truncated quotient stays in its type, but for that of the least number by -1. -/
theorem tdiv_bounds (hb : intMin t ≤ b) (ho : ¬(t.signed = true ∧ a = intMin t ∧ b = -1)) :
    intMin t ≤ Int.tdiv a b ∧ Int.tdiv a b ≤ intMax t := by
  have hdiv : (a.tdiv b).natAbs = a.natAbs / b.natAbs := Int.natAbs_tdiv a b
  unfold intMin intMax at *
  cases hs : t.signed <;> simp only [hs, Bool.false_eq_true, if_false, if_true, true_and] at ha hb ho ⊢
  · have hle := Nat.div_le_self a.natAbs b.natAbs
    have hpos := Int.tdiv_nonneg ha.1 hb
    omega
  · by_cases h0 : b = 0 ∨ b = 1
    · obtain rfl | rfl := h0 <;> simp only [Int.tdiv_zero, Int.tdiv_one] <;> omega
    by_cases h1 : b = -1
    · subst h1
      simp only [Int.tdiv_neg, Int.tdiv_one]
      omega
    · have hhalf : a.natAbs / b.natAbs ≤ a.natAbs / 2 := Nat.div_le_div_left (by omega) (by decide)
      omega

/-- A truncated remainder stays in the type of its dividend: it lies between that and zero. -/
theorem tmod_bounds (b : Int) : intMin t ≤ Int.tmod a b ∧ Int.tmod a b ≤ intMax t := by
  have hmod := Int.natAbs_tmod a b
  have hle := Nat.mod_le a.natAbs b.natAbs
  have hzero := zero_bounds t
  obtain h | h := le_total 0 a
  · have := Int.tmod_nonneg b h
    omega
  · have := Int.tmod_nonneg b (neg_nonneg.2 h)
    rw [Int.neg_tmod] at this
    omega
end

namespace Machine

/-! A form's results are known by their value in each thread. -/

theorem Does.congr {i : Instr} {s : State} {w : View} {m : Mask} {sx : Bool} {f g : Nat → LaneOut} (h : Does i s w m sx f)
    (hfg : ∀ k, f k = g k) : Does i s w m sx g := funext hfg ▸ h

/-! The forms of one and of two integers are lane forms. -/

theorem intBin_eq (i : Instr) (s : State) (ty : Ty) (sat : Bool) (a b : Src) (f : Int → Int → Int) :
    intBin i s ty sat a b f = laneOp i s ty.sfill fun w _ t => .bits (satWrap ty sat (f (w.int ty a t) (w.int ty b t))) := rfl

theorem intUn_eq (i : Instr) (s : State) (ty : Ty) (sat : Bool) (a : Src) (f : Int → Int) :
    intUn i s ty sat a f = laneOp i s ty.sfill fun w _ t => .bits (satWrap ty sat (f (w.int ty a t))) := rfl

section
variable {i : Instr} {s : State} {w : View} {m : Mask} {ty : Ty} {sat : Bool} {a b : Src} (h : Issues i s w m)
include h

theorem intBin_does {f : Int → Int → Int} (he : exec i s = intBin i s ty sat a b f) :
    Does i s w m ty.sfill fun k => .bits (satWrap ty sat (f (w.int ty a k) (w.int ty b k))) :=
  does_of h (he.trans (intBin_eq ..))

theorem intUn_does {f : Int → Int} (he : exec i s = intUn i s ty sat a f) :
    Does i s w m ty.sfill fun k => .bits (satWrap ty sat (f (w.int ty a k))) :=
  does_of h (he.trans (intUn_eq ..))
end

/-- The sum and the carry are parts of the exact sum (R109). -/
theorem addCarry_spec (w a b k : Nat) :
    (addCarry w a b k).1 = (a + b + k) % 2 ^ w ∧ ((addCarry w a b k).2 = true ↔ 2 ^ w ≤ a + b + k) :=
  ⟨rfl, decide_eq_true_iff⟩

/-- The difference is the exact one reduced; a borrow says that the exact one is negative (R109). -/
theorem subBorrow_spec {w a b k : Nat} (hb : b < 2 ^ w) (hk : k ≤ 1) :
    ((subBorrow w a b k).1 : Int) = ((a : Int) - b - k) % 2 ^ w ∧ ((subBorrow w a b k).2 = true ↔ (a : Int) - b - k < 0) := by
  constructor
  · have hcast : ((a + 2 ^ w + 2 ^ w - b - k : Nat) : Int) = (a : Int) - b - k + 2 ^ w * 2 := by
      have : ((2 ^ w : Nat) : Int) = 2 ^ w := by push_cast; rfl
      omega
    rw [subBorrow, Int.natCast_emod, hcast]
    push_cast
    exact Int.add_mul_emod_self_left ..
  · rw [subBorrow, decide_eq_true_eq]
    omega

theorem View.carry_le_one (w : View) (c : Src) (k : Nat) : w.carry c k ≤ 1 := by
  unfold View.carry
  split
  · split <;> omega
  · omega

/-! Quotient and remainder, by the cases of R110. -/

theorem divRem_zero (t : Ty) (sat : Bool) (a : Int) : divRem t sat a 0 = (2 ^ t.width - 1, a) := rfl

theorem divRem_overflow {t : Ty} (hs : t.signed = true) (sat : Bool) :
    divRem t sat (intMin t) (-1) = (if sat then intMax t else intMin t, 0) := by
  simp [divRem, hs]

theorem divRem_trunc {t : Ty} {a b : Int} (sat : Bool) (hb : b ≠ 0) (ho : ¬(t.signed = true ∧ a = intMin t ∧ b = -1)) :
    divRem t sat a b = (Int.tdiv a b, Int.tmod a b) := by
  rw [divRem, if_neg hb, if_neg ho]

section
variable {t : Ty} {a b : Int} (hw : 0 < t.width) (ha : intMin t ≤ a ∧ a ≤ intMax t)
include hw ha

/-- The bits of a quotient (R110). -/
theorem quotient_bits (sat : Bool) (hb : intMin t ≤ b) :
    (b = 0 → wrap t.width (divRem t sat a b).1 = 2 ^ t.width - 1)
    ∧ (b = -1 → t.signed = true → a = intMin t → intOf t (wrap t.width (divRem t sat a b).1) = if sat then intMax t else intMin t)
    ∧ (b ≠ 0 → ¬(t.signed = true ∧ a = intMin t ∧ b = -1) → intOf t (wrap t.width (divRem t sat a b).1) = Int.tdiv a b) := by
  refine ⟨?_, ?_, fun hb0 ho => ?_⟩
  · rintro rfl
    have hpos : 0 < 2 ^ t.width := by positivity
    have hcast : (2 : Int) ^ t.width - 1 = (2 ^ t.width - 1 : Nat) := by push_cast [Nat.one_le_two_pow]; rfl
    rw [divRem_zero, hcast, wrap_of_lt (by omega)]
  · rintro rfl hs rfl
    have hle := intMin_le_intMax t
    rw [divRem_overflow hs]
    split
    · exact intOf_wrap t _ hw hle le_rfl
    · exact intOf_wrap t _ hw le_rfl hle
  · obtain ⟨hlo, hhi⟩ := tdiv_bounds ha hb ho
    rw [divRem_trunc sat hb0 ho]
    exact intOf_wrap t _ hw hlo hhi

/-- The bits of a remainder (R110). -/
theorem remainder_bits (sat : Bool) (b : Int) :
    (b = 0 → intOf t (wrap t.width (divRem t sat a b).2) = a)
    ∧ (b ≠ 0 → intOf t (wrap t.width (divRem t sat a b).2) = a - Int.tdiv a b * b) := by
  refine ⟨?_, fun hb0 => ?_⟩
  · rintro rfl
    exact intOf_wrap t a hw ha.1 ha.2
  by_cases ho : t.signed = true ∧ a = intMin t ∧ b = -1
  · obtain ⟨hs, rfl, rfl⟩ := ho
    obtain ⟨hlo, hhi⟩ := zero_bounds t
    rw [divRem_overflow hs, Int.tdiv_neg, Int.tdiv_one]
    exact (intOf_wrap t 0 hw hlo hhi).trans (by ring)
  · obtain ⟨hlo, hhi⟩ := tmod_bounds ha b
    rw [divRem_trunc sat hb0 ho, ← mul_comm b, ← Int.tmod_def]
    exact intOf_wrap t _ hw hlo hhi
end

/-- An operand of an integer type with a width lies in the type. -/
theorem View.int_bounds {t : Ty} (hw : 0 < t.width) (w : View) (x : Src) (k : Nat) : intMin t ≤ w.int t x k ∧ w.int t x k ≤ intMax t :=
  intOf_bounds t _ hw

/-- Settles O1: each form is a lane form (`does_of`, `doesSome_of`); carries, quotients and remainders are parts of the exact result. -/
theorem integerArithmetic : Obligations.IntegerArithmetic := by
  intro s w m
  refine ⟨fun x h => intBin_does h (exec_iadd x s), fun x h => intBin_does h (exec_isub x s), fun x h => intBin_does h (exec_imul x s),
    fun x h => (does_of h (exec_imad x s)).congr fun _ => rfl, fun x h => ?imulh, fun x h => ?imadw,
    fun x h => (intBin_does h (exec_imin x s)).congr fun _ => rfl, fun x h => (intBin_does h (exec_imax x s)).congr fun _ => rfl,
    fun x h => ?iabs, fun x h => intUn_does h (exec_ineg x s), fun x h => ?iaddc, fun x h => ?isubb, fun x h => ?idiv, fun x h => ?irem⟩
  case imulh =>
    exact (intBin_does h (exec_imulh x s)).congr fun k => congrArg (fun y => LaneOut.bits (wrap x.ty.width y))
      (Int.fdiv_eq_ediv_of_nonneg _ (by positivity))
  case imadw =>
    have he := does_of h (exec_imadw x s)
    refine ⟨fun ht => ?_, fun ht => ?_⟩ <;> rw [ht] at he <;> exact he
  case iabs =>
    refine (intUn_does h (exec_iabs x s)).congr fun k => congrArg (fun y => LaneOut.bits (satWrap x.ty x.sat y)) ?_
    split
    next hneg => exact (abs_of_neg hneg).symm
    next hneg => exact (abs_of_nonneg (not_lt.1 hneg)).symm
  case iaddc => exact doesSome_of h (exec_iaddc x s) fun k _ => addCarry_spec ..
  case isubb => exact doesSome_of h (exec_isubb x s) fun k hk => subBorrow_spec (rd_n_lt hk h.ok) (w.carry_le_one x.ci k)
  case idiv =>
    have hw := width_pos_of_isInt4 h.ok
    exact doesSome_of h (exec_idiv x s) fun k _ => quotient_bits hw (w.int_bounds hw x.a k) x.sat (w.int_bounds hw x.b k).1
  case irem =>
    have hw := width_pos_of_isInt4 h.ok
    exact doesSome_of h (exec_irem x s) fun k _ => remainder_bits hw (w.int_bounds hw x.a k) false _

end Machine
end Sys2Proof

namespace Sys2Proof.Machine

/-! ## Logical, shift, count and field forms (R111 to R113) -/

theorem bitBin_eq (i : Instr) (s : State) (ty : Ty) (a b : Src) (f : Nat → Nat → Nat) :
    bitBin i s ty a b f = laneOp i s false fun w _ t => .bits (f (w.rd ty a t) (w.rd ty b t) % 2 ^ ty.width) := rfl

theorem shiftOp_eq (i : Instr) (s : State) (x : Bin) (f : Nat → Nat → Nat → Nat) :
    shiftOp i s x f = laneOp i s false fun w _ t => .bits (f x.ty.width (w.rd x.ty x.a t) (w.n32 x.b t)) := rfl

theorem bitUn_eq (i : Instr) (s : State) (x : Un) (f : Nat → Nat → Nat) :
    bitUn i s x f = laneOp i s false fun w _ t => .bits (f x.ty.width (w.rd x.ty x.a t)) := rfl

section
variable {i : Instr} {s : State} {w : View} {m : Mask} (h : Issues i s w m)
include h

/-- A logical form of two operands is known by its bits inside the width. -/
theorem bitBin_bits {ty : Ty} {a b : Src} {f : Nat → Nat → Nat} {g : Nat → Nat → Bool} (he : exec i s = bitBin i s ty a b f)
    (hbit : ∀ k j, j < ty.width → (f (w.rd ty a k) (w.rd ty b k)).testBit j = g k j) :
    DoesSome i s w m false fun k => BitsAre ty.width (g k) :=
  doesSome_of h (he.trans (bitBin_eq ..)) fun k _ => ⟨Nat.mod_lt _ (by positivity), fun j hj => by
    rw [LaneOut.bits, Nat.testBit_mod_two_pow, decide_eq_true hj, Bool.true_and, hbit k j hj]⟩

/-- A shift is known by its bits, its operand being inside the width. -/
theorem shiftOp_bits {x : Bin} {f : Nat → Nat → Nat → Nat} {g : Nat → Nat → Bool} (he : exec i s = shiftOp i s x f)
    (hty : x.ty.isB3264 = true) (hlt : ∀ a n, a < 2 ^ x.ty.width → f x.ty.width a n < 2 ^ x.ty.width)
    (hbit : ∀ k, w.rd x.ty x.a k < 2 ^ x.ty.width → ∀ j, j < x.ty.width →
      (f x.ty.width (w.rd x.ty x.a k) (w.n32 x.b k)).testBit j = g k j) :
    DoesSome i s w m false fun k => BitsAre x.ty.width (g k) :=
  doesSome_of h (he.trans (shiftOp_eq ..)) fun k hk => ⟨hlt _ _ (rd_b_lt hk hty), hbit k (rd_b_lt hk hty)⟩

/-- A form of one operand, whose results meet what its helper is known to give. -/
theorem bitUn_meets {x : Un} {f : Nat → Nat → Nat} {p : Nat → LaneOut → Prop} (he : exec i s = bitUn i s x f) (hty : x.ty.isB3264 = true)
    (hp : ∀ k, w.rd x.ty x.a k < 2 ^ x.ty.width → p k (.bits (f x.ty.width (w.rd x.ty x.a k)))) : DoesSome i s w m false p :=
  doesSome_of h (he.trans (bitUn_eq ..)) fun k hk => hp k (rd_b_lt hk hty)
end

theorem clzN_zero (w : Nat) : clzN w 0 = w := rfl

/-- Settles O2: the bits of each form are those of its helper (`testBit_shlN` to `testBit_bfxBits`), its operands being inside the width. -/
theorem bitForms : Obligations.BitForms := by
  intro s w m
  refine ⟨fun x h => bitBin_bits h (exec_and x s) fun _ _ _ => Nat.testBit_and ..,
    fun x h => bitBin_bits h (exec_or x s) fun _ _ _ => Nat.testBit_or ..,
    fun x h => bitBin_bits h (exec_xor x s) fun _ _ _ => Nat.testBit_xor .., fun x h => ?andn, fun x h => ?not, ?_⟩
  case andn => exact bitBin_bits h (exec_andn x s) fun _ _ hj => by rw [Nat.testBit_and, testBit_notN _ _ _ hj]
  case not => exact doesSome_of h (exec_not x s) fun _ _ => ⟨notN_lt .., fun j hj => testBit_notN _ _ j hj⟩
  refine ⟨fun x h => shiftOp_bits h (exec_shl x s) h.ok (fun _ _ _ => shlN_lt ..) fun _ _ j hj => testBit_shlN _ _ _ j hj,
    fun x h => shiftOp_bits h (exec_shr x s) h.ok (fun _ _ ha => shrN_lt _ _ _ ha) fun _ ha j _ => testBit_shrN _ _ _ j ha,
    fun x h => shiftOp_bits h (exec_sar x s) h.ok (fun _ _ ha => sarN_lt _ _ _ ha) fun _ ha j hj => testBit_sarN _ _ _ j hj ha,
    fun x h => shiftOp_bits h (exec_rot x s) h.ok (fun _ _ ha => rotN_lt _ _ _ ha) fun _ ha j hj => testBit_rotN _ _ _ j hj ha,
    fun x h => ?fshl, fun x h => ?brev, fun x h => ?popc, fun x h => ?clz, fun x h => ?ctz, fun x h => ?bfx, fun x h => ?bfi⟩
  case fshl => exact doesSome_of h (exec_fshl x s) fun k hk => ⟨fshlN_lt .., fun j hj => testBit_fshlN _ _ _ _ j hj (rd_b_lt hk h.ok)⟩
  case brev => exact bitUn_meets h (exec_brev x s) h.ok fun _ _ => ⟨brevN_lt .., fun j hj => testBit_brevN _ _ j hj⟩
  case popc => exact bitUn_meets h (exec_popc x s) h.ok fun _ _ => popcN_card ..
  case clz =>
    refine bitUn_meets h (exec_clz x s) h.ok fun k ha => ⟨fun h0 => ?_, clzN_spec _ _ ha⟩
    rw [h0]
    exact clzN_zero _
  case ctz =>
    refine bitUn_meets h (exec_ctz x s) h.ok fun k ha => ⟨fun h0 => ?_, ctzN_spec _ _ ha⟩
    rw [h0]
    exact ctzN_zero _
  case bfx => exact doesSome_of h (exec_bfx x s) fun k hk => ⟨bfxBits_lt .., fun j hj => testBit_bfxBits _ _ _ j hj (rd_i_lt hk h.ok)⟩
  case bfi => exact doesSome_of h (exec_bfi x s) fun k hk => ⟨bfiBits_lt _ _ _ _ (rd_b_lt hk h.ok), fun j hj => testBit_bfiBits _ _ _ _ j hj⟩

end Sys2Proof.Machine

namespace Sys2Proof.Machine

/-! ## Moves, compares, selects and addresses (R115 to R119) -/

section
variable {s : State} {w : View} {m : Mask}

/-- MOVI into an s register leaves what its mode makes of the register (R117). -/
theorem movi_leaves {x : Movi} {n : BitVec 6} (hd : x.d = .s n) (h : Issues (.movi x) s w m) :
    ∃ t, exec (.movi x) s = .next t
      ∧ Leaves w.s w.u t ((w.g.setS n.toNat (moviBits x.mode x.imm (w.g.sreg n.toNat))).advance w.sel) := by
  have he := exec_movi x s
  simp only [execMovi, hd] at he
  exact ⟨_, he.trans (issue_runs h _), (tracked_leaves ..).of_core rfl⟩

/-- MOVV gives its result to the one thread that b names, when it is in the execution mask (R117). -/
theorem movv_done {x : Bin} (h : Issues (.movv x) s w m) :
    ∃ t, exec (.movv x) s = .next t
      ∧ LaneDone (.movv x) w (if inMask m (w.n32 x.b (lowest m) % 32) then 1#32 <<< (w.n32 x.b (lowest m) % 32) else 0) false
          (fun k => .bits (w.rd x.ty x.a k)) t :=
  ⟨_, (exec_movv x s).trans (issue_runs h _), results_done _ w w rfl ..⟩
end

/-- The mask of one thread of a mask. -/
theorem maskOf_single (m : Mask) (j : Nat) :
    (maskOf fun k => inMask m k && k == j) = if inMask m j then 1#32 <<< j else 0 := by
  refine BitVec.eq_of_getLsbD_eq fun i hi => (inMask_maskOf _ i).trans ?_
  have hone : (1#32 <<< j).getLsbD i = (i == j) := by
    rw [BitVec.getLsbD_shiftLeft, BitVec.getLsbD_one, Bool.eq_iff_iff]
    simp only [Nat.ofNat_pos, decide_true, Bool.true_and, Bool.and_eq_true, decide_eq_true_eq, Bool.not_eq_true', decide_eq_false_iff_not,
      beq_iff_eq]
    omega
  obtain rfl | hne := eq_or_ne i j
  · split <;> simp_all
  · split <;> simp_all

/-! LEAX's bits in each of its modes (R119). -/

theorem leaxBits_add {x : Leax} {c : Src} {sh : BitVec 3} (hm : x.mode = .add c sh) (w : View) (k : Nat) :
    (leaxBits w x k : Int) = (w.n128 x.a k + w.int x.ty x.b k * 2 ^ sh.toNat + w.int .i32 c k) % 2 ^ 72 := by
  simp only [leaxBits, hm]
  rw [cast_wrap, add_assoc, add_assoc, Int.emod_add_emod]

theorem leaxBits_join {x : Leax} (hm : x.mode = .join) (w : View) (k : Nat) :
    leaxBits w x k = w.n64 x.a k + 2 ^ 64 * (w.n32 x.b k % 2 ^ 8) := by
  simp only [leaxBits, hm]
  ring

theorem leaxBits_win {x : Leax} (hm : x.mode = .win) (w : View) (k : Nat) :
    leaxBits w x k = w.n64 x.a k % 2 ^ 56 + 2 ^ 56 * (w.n32 x.b k % 2 ^ 8) + 2 ^ 64 * 0xFF := by
  simp only [leaxBits, hm]
  ring

/-- Settles O3: moves, compares and selects give what they read, addresses the exact sum reduced. -/
theorem movesAndSelects : Obligations.MovesAndSelects := by
  intro s w m
  refine ⟨fun x h => does_of h (exec_mov x s), fun x n nwb hd h => ?moviV, fun x n hd h => ?moviS, fun x h => does_of h (exec_movs x s),
    fun x h => ?movv, fun x h => does_of h (exec_isetp x s), fun x h => ?isel, fun x h => doesSome_of h (exec_lea x s) fun k _ => cast_wrap ..,
    fun x h => doesSome_of h (exec_leax x s) fun k _ => ?leax⟩
  case moviV =>
    have he := exec_movi x s
    simp only [execMovi, hd] at he
    exact does_of h he
  case moviS => exact movi_leaves hd h
  case movv =>
    rw [maskOf_single]
    exact movv_done h
  case isel =>
    refine (does_of h (exec_isel x s)).congr fun k => congrArg LaneOut.bits ?_
    exact apply_ite (fun y => w.rd x.ty y k) ..
  case leax =>
    split
    next hm => exact leaxBits_add hm w k
    next hm => exact leaxBits_join hm w k
    next hm => exact leaxBits_win hm w k

end Sys2Proof.Machine

/-! ## Round depends on the value alone (R69) -/

namespace Sys2Proof

theorem log2_mul_two_pow {m : Nat} (hm : m ≠ 0) (k : Nat) : Nat.log2 (m * 2 ^ k) = Nat.log2 m + k := by
  induction k with
  | zero => simp
  | succ k ih => rw [pow_succ', Nat.mul_left_comm, Nat.log2_two_mul (by positivity), ih, Nat.add_assoc]

/-- Two splits at a grid with one integer part and one discarded part, a fraction over two powers of two. -/
structure SameSplit (p q : Nat × Nat × Nat) : Prop where
  int : p.1 = q.1
  frac : p.2.1 * 2 ^ q.2.2 = q.2.1 * 2 ^ p.2.2

section
variable {n rem k n' rem' k' : Nat} (h : SameSplit (n, rem, k) (n', rem', k'))
include h

theorem SameSplit.exact_iff : rem = 0 ↔ rem' = 0 := by
  have hfrac : rem * 2 ^ k' = rem' * 2 ^ k := h.frac
  have hk : 2 ^ k ≠ 0 := by positivity
  have hk' : 2 ^ k' ≠ 0 := by positivity
  constructor <;> intro h0 <;> simp_all

/-- The direction of a rounding step depends on the discarded fraction alone. -/
theorem SameSplit.roundsAway_eq (rm : RMode) (neg : Bool) : roundsAway rem k n rm neg = roundsAway rem' k' n' rm neg := by
  obtain ⟨hint, hfrac⟩ := h
  dsimp only at hint hfrac
  subst hint
  have hk : 0 < 2 ^ k := by positivity
  have hk' : 0 < 2 ^ k' := by positivity
  have hgt : 2 * rem > 2 ^ k ↔ 2 * rem' > 2 ^ k' := by
    rw [gt_iff_lt, ← Nat.mul_lt_mul_right hk', mul_assoc, hfrac, ← mul_assoc, mul_comm (2 ^ k), Nat.mul_lt_mul_right hk]
  have heq : 2 * rem = 2 ^ k ↔ 2 * rem' = 2 ^ k' := by
    rw [← Nat.mul_left_inj hk'.ne', mul_assoc, hfrac, ← mul_assoc, mul_comm (2 ^ k), Nat.mul_left_inj hk.ne']
  have hge : 2 * rem ≥ 2 ^ k ↔ 2 * rem' ≥ 2 ^ k' := by omega
  have hdiv : rem * 2 ^ 32 / 2 ^ k = rem' * 2 ^ 32 / 2 ^ k' := by
    rw [← Nat.mul_div_mul_right _ _ hk', ← Nat.mul_div_mul_right (rem' * 2 ^ 32) _ hk, mul_right_comm, hfrac, mul_right_comm,
      mul_comm (2 ^ k)]
  cases rm with
  | sr d => rw [roundsAway, roundsAway, hdiv]
  | fixed rm => cases rm <;> simp only [roundsAway, hgt, hge, Bool.beq_eq_decide_eq, heq]
end

/-- Against a grid a number splits the same way however its powers of two are divided between magnitude and exponent. -/
theorem gridSplit_shift {m : Nat} (hm : m ≠ 0) (k : Nat) (e qe : Int) : SameSplit (gridSplit (m * 2 ^ k) e qe) (gridSplit m (e + k) qe) := by
  by_cases hlo : qe ≤ e
  · obtain ⟨j, hj⟩ := Int.eq_ofNat_of_zero_le (show 0 ≤ e - qe by omega)
    have h1 : (e - qe).toNat = j := by omega
    have h2 : (e + k - qe).toNat = k + j := by omega
    rw [gridSplit, gridSplit, if_pos hlo, if_pos (by omega), h1, h2, pow_add, mul_assoc]
    exact ⟨rfl, rfl⟩
  obtain ⟨j, hj⟩ := Int.eq_ofNat_of_zero_le (show 0 ≤ qe - e by omega)
  have h1 : (qe - e).toNat = j := by omega
  rw [gridSplit, if_neg hlo]
  simp only [h1, log2_mul_two_pow hm]
  by_cases hmid : qe ≤ e + k
  · obtain ⟨i, rfl⟩ := Nat.exists_eq_add_of_le (show j ≤ k by omega)
    have h2 : (e + (j + i : Nat) - qe).toNat = i := by omega
    have hmul : m * 2 ^ (j + i) = m * 2 ^ i * 2 ^ j := by ring
    rw [gridSplit, if_pos hmid, if_neg (by omega), h2, hmul, Nat.mul_div_cancel _ (by positivity), Nat.mul_mod_left]
    exact ⟨rfl, by simp⟩
  obtain ⟨i, rfl⟩ := Nat.exists_eq_add_of_le (show k ≤ j by omega)
  have h2 : (qe - (e + k)).toNat = i := by omega
  rw [gridSplit, if_neg hmid]
  simp only [h2]
  by_cases hfar : i > Nat.log2 m + 40
  · rw [if_pos hfar, if_pos (by omega), if_neg hm, if_neg (by positivity)]
    exact ⟨rfl, rfl⟩
  · rw [if_neg hfar, if_neg (by omega), Nat.add_comm k, pow_add, Nat.mul_div_mul_right _ _ (by positivity), Nat.mul_mod_mul_right]
    exact ⟨rfl, by dsimp only; ring⟩

theorem roundF_shift (t : Ty) (rm : RMode) (sat ftz neg : Bool) (m k : Nat) (e : Int) :
    roundF t rm sat ftz neg (m * 2 ^ k) e = roundF t rm sat ftz neg m (e + k) := by
  by_cases hm : m = 0
  · simp [hm, roundF]
  have htop : ((Nat.log2 m + k : Nat) : Int) + e = Nat.log2 m + (e + k) := by push_cast; ring
  have hsplit := gridSplit_shift hm k e (max (Nat.log2 m + (e + k)) t.emin - t.frac)
  simp only [roundF, hm, mul_eq_zero, pow_eq_zero_iff', OfNat.ofNat_ne_zero, false_and, or_false, if_false, log2_mul_two_pow hm, htop]
  generalize gridSplit (m * 2 ^ k) e _ = p at *
  generalize gridSplit m (e + k) _ = q at *
  obtain ⟨n, rem, j⟩ := p
  obtain ⟨n', rem', j'⟩ := q
  obtain rfl : n = n' := hsplit.int
  simp only [hsplit.exact_iff, hsplit.roundsAway_eq rm neg, ne_eq]

/-- Magnitudes that are one number round alike. -/
theorem roundF_congr {m m' : Nat} {e e' : Int} (h : (m : ℚ) * 2 ^ e = m' * 2 ^ e') (t : Ty) (rm : RMode) (sat ftz neg : Bool) :
    roundF t rm sat ftz neg m e = roundF t rm sat ftz neg m' e' := by
  wlog hle : e ≤ e' generalizing m m' e e'
  · exact (this h.symm (by omega)).symm
  obtain ⟨k, hk⟩ := Int.eq_ofNat_of_zero_le (show 0 ≤ e' - e by omega)
  obtain rfl : e' = e + k := by omega
  have hm : m = m' * 2 ^ k := by
    rw [zpow_add₀ two_ne_zero, mul_comm ((2 : ℚ) ^ e), ← mul_assoc, mul_left_inj' (by positivity), zpow_natCast] at h
    exact_mod_cast h
  rw [hm, roundF_shift]

end Sys2Proof

/-! ## Sums, products and fused products (R122) -/

namespace Sys2Proof

theorem isNaN_decodeF (t : Ty) (ftz : Bool) (b : Nat) : (decodeF t ftz b).isNaN = isNaNF t b := by
  cases h : isNaNF t b
  · have hne := decodeF_ne_nan h ftz
    cases hv : decodeF t ftz b with
    | nan => exact absurd hv hne
    | inf => rfl
    | fin => rfl
  · rw [decodeF_of_nan h]
    rfl

@[simp] theorem FVal.isInf_inf (s : Bool) : (FVal.inf s).isInf = true := rfl
@[simp] theorem FVal.isInf_fin (s : Bool) (m : Nat) (e : Int) : (FVal.fin s m e).isInf = false := rfl
@[simp] theorem FVal.sign_inf (s : Bool) : (FVal.inf s).sign = s := rfl
@[simp] theorem FVal.sign_fin (s : Bool) (m : Nat) (e : Int) : (FVal.fin s m e).sign = s := rfl

/-- A value that is no NaN is an infinity or a finite number. -/
theorem FVal.number_cases {a : FVal} (h : a.isNaN = false) : (∃ s, a = .inf s) ∨ ∃ s m e, a = .fin s m e := by
  cases a with
  | nan => cases h
  | inf s => exact .inl ⟨s, rfl⟩
  | fin s m e => exact .inr ⟨s, m, e, rfl⟩

@[simp] theorem FVal.isNaN_negate (a : FVal) : a.negate.isNaN = a.isNaN := by
  cases a <;> rfl

/-- A signal is a NaN. -/
theorem isNaNF_of_isSNaNF {t : Ty} {b : Nat} (h : isSNaNF t b = true) : isNaNF t b = true := by
  simp only [isSNaNF, Bool.and_eq_true] at h
  exact h.1.2

theorem snanFlag_of_no_nan {t : Ty} {bs : List Nat} (h : bs.any (isNaNF t) = false) : snanFlag t bs = 0 := by
  have hs : bs.any (isSNaNF t) = false := by
    rw [List.any_eq_false] at h ⊢
    exact fun b hb hsn => h b hb (isNaNF_of_isSNaNF hsn)
  simp [snanFlag, hs]

/-- A number brought to a lower exponent. -/
theorem scaledInt_num {s : Bool} {m : Nat} {e lo : Int} (h : lo ≤ e) : (scaledInt s m e lo : ℚ) * 2 ^ lo = (FVal.fin s m e).num := by
  obtain ⟨k, hk⟩ := Int.eq_ofNat_of_zero_le (show 0 ≤ e - lo by omega)
  obtain rfl : e = k + lo := by omega
  have hexp : (k + lo - lo).toNat = k := by omega
  rw [scaledInt, hexp, FVal.num, zpow_add₀ two_ne_zero, zpow_natCast]
  cases s <;> simp only [Bool.false_eq_true, if_false, if_true] <;> push_cast <;> ring

theorem scaledInt_zero (s : Bool) (e lo : Int) : scaledInt s 0 e lo = 0 := by
  cases s <;> simp [scaledInt]

/-- The sign of a sum that is zero (R122). -/
def zeroSumSign (rd : Bool) (a b : FVal) : Bool := if a.num = 0 ∧ b.num = 0 ∧ a.sign = b.sign then a.sign else rd

/-- The exact sum of two finite values. -/
theorem addF_fin (rd s s' : Bool) (m m' : Nat) (e e' : Int) : ∃ z n x, addF rd (.fin s m e) (.fin s' m' e') = some (.fin z n x)
    ∧ (FVal.fin s m e).num + (FVal.fin s' m' e').num = (FVal.fin z n x).num
    ∧ (n = 0 → z = zeroSumSign rd (.fin s m e) (.fin s' m' e')) := by
  unfold zeroSumSign
  by_cases h0 : m = 0 ∧ m' = 0
  · obtain ⟨rfl, rfl⟩ := h0
    exact ⟨if s = s' then s else rd, 0, 0, rfl, by simp [FVal.num], fun _ => by simp [FVal.num]⟩
  have hnum : ¬((FVal.fin s m e).num = 0 ∧ (FVal.fin s' m' e').num = 0 ∧ (FVal.fin s m e).sign = (FVal.fin s' m' e').sign) :=
    fun h => h0 ⟨FVal.num_fin_eq_zero.1 h.1, FVal.num_fin_eq_zero.1 h.2.1⟩
  rw [if_neg hnum]
  generalize hlo : (if m = 0 then e' else if m' = 0 then e else min e e') = lo
  have hs : (scaledInt s m (max e lo) lo : ℚ) * 2 ^ lo = (FVal.fin s m e).num := by
    by_cases hm : m = 0
    · simp [hm, scaledInt_zero, FVal.num]
    · have hle : lo ≤ e := by rw [← hlo, if_neg hm]; split <;> omega
      rw [max_eq_left hle, scaledInt_num hle]
  have hs' : (scaledInt s' m' (max e' lo) lo : ℚ) * 2 ^ lo = (FVal.fin s' m' e').num := by
    by_cases hm' : m' = 0
    · simp [hm', scaledInt_zero, FVal.num]
    · have hle : lo ≤ e' := by rw [← hlo, if_neg hm']; split <;> omega
      rw [max_eq_left hle, scaledInt_num hle]
  rw [← hs, ← hs', ← add_mul]
  generalize hx : scaledInt s m (max e lo) lo + scaledInt s' m' (max e' lo) lo = x
  have hadd : addF rd (.fin s m e) (.fin s' m' e') = if x = 0 then some (.fin rd 0 0) else some (.fin (x < 0) x.natAbs lo) := by
    simp only [addF, if_neg h0, hlo, hx]
  rw [← Int.cast_add, hx, hadd]
  by_cases hx0 : x = 0
  · exact ⟨_, _, _, if_pos hx0, by simp [hx0, FVal.num], fun _ => rfl⟩
  · refine ⟨_, _, _, if_neg hx0, ?_, fun h => absurd (Int.natAbs_eq_zero.1 h) hx0⟩
    by_cases hneg : x < 0
    · have habs : ((x.natAbs : Int) : ℚ) = -x := by exact_mod_cast Int.ofNat_natAbs_of_nonpos hneg.le
      simp only [hneg, decide_true, FVal.num_fin_minus]
      rw [← Int.cast_natCast, habs]
      ring
    · have habs : ((x.natAbs : Int) : ℚ) = x := by exact_mod_cast Int.natAbs_of_nonneg (not_lt.1 hneg)
      simp only [hneg, decide_false, FVal.num_fin_pos]
      rw [← Int.cast_natCast, habs]

/-- p is the exact product of two values, as `FusedOf` takes it: infinite with a factor, of the sign of both, else their product. -/
structure IsProduct (a b p : FVal) : Prop where
  number : p.isNaN = false
  inf : p.isInf = (a.isInf || b.isInf)
  sign : p.sign = (a.sign ^^ b.sign)
  num : p.isInf = false → p.num = a.num * b.num

theorem num_fin_mul (s s' : Bool) (m m' : Nat) (e e' : Int) :
    (FVal.fin (s != s') (m * m') (e + e')).num = (FVal.fin s m e).num * (FVal.fin s' m' e').num := by
  simp only [FVal.num, zpow_add₀ (two_ne_zero' ℚ)]
  push_cast
  cases s <;> cases s' <;> simp <;> ring

end Sys2Proof

namespace Sys2Proof.Machine

theorem mulF_none {a b : FVal} (ha : a.isNaN = false) (hb : b.isNaN = false) (h : ZeroTimesInf a b) : mulF a b = none := by
  obtain ⟨s, rfl⟩ | ⟨s, m, e, rfl⟩ := FVal.number_cases ha <;> obtain ⟨s', rfl⟩ | ⟨s', m', e', rfl⟩ := FVal.number_cases hb
  · simp [ZeroTimesInf] at h
  · exact if_pos (by simpa [ZeroTimesInf, FVal.num_fin_eq_zero] using h)
  · exact if_pos (by simpa [ZeroTimesInf, FVal.num_fin_eq_zero] using h)
  · simp [ZeroTimesInf] at h

theorem mulF_some {a b : FVal} (ha : a.isNaN = false) (hb : b.isNaN = false) (h : ¬ZeroTimesInf a b) :
    ∃ p, mulF a b = some p ∧ IsProduct a b p := by
  obtain ⟨s, rfl⟩ | ⟨s, m, e, rfl⟩ := FVal.number_cases ha <;> obtain ⟨s', rfl⟩ | ⟨s', m', e', rfl⟩ := FVal.number_cases hb
  · exact ⟨_, rfl, rfl, rfl, rfl, nofun⟩
  · exact ⟨_, if_neg fun h0 => h (.inl ⟨rfl, rfl, FVal.num_fin_eq_zero.2 h0⟩), rfl, rfl, rfl, nofun⟩
  · exact ⟨_, if_neg fun h0 => h (.inr ⟨rfl, rfl, FVal.num_fin_eq_zero.2 h0⟩), rfl, rfl, rfl, nofun⟩
  · exact ⟨_, rfl, rfl, rfl, rfl, fun _ => num_fin_mul ..⟩

/-! The end of R122, with no NaN among the operands. -/

section
variable {t : Ty} {v : FEnv} {o : LaneOut}

theorem invalid_of_finishF (ho : (o.d, o.fl) = finishF t v 0 false none) : Invalid t o := Prod.mk.inj ho

theorem finishF_inf {s : Bool} (ho : (o.d, o.fl) = finishF t v 0 false (some (.inf s))) : o.d = infF t s ∧ o.fl = 0 := Prod.mk.inj ho

theorem finishF_fin {s z : Bool} {m : Nat} {e : Int} {x : ℚ} (hx : x = (FVal.fin s m e).num) (hz : m = 0 → s = z)
    (ho : (o.d, o.fl) = finishF t v 0 false (some (.fin s m e))) : RoundOnce t v z x o := by
  refine roundBy_roundF hx hz (ho.trans ?_)
  simp [finishF, roundV]

/-- With a NaN among the operands the result is QNaN; with none the form ends as `finishF` does for its exact result. -/
theorem nanFirst_finishF {bs : List Nat} {x : Option FVal} {k : Prop}
    (ho : (o.d, o.fl) = finishF t v (snanFlag t bs) (bs.any (isNaNF t)) x)
    (hk : bs.any (isNaNF t) = false → (o.d, o.fl) = finishF t v 0 false x → k) : NanFirst t bs o k := by
  unfold NanFirst
  cases h : bs.any (isNaNF t)
  · rw [h, snanFlag_of_no_nan h] at ho
    simpa using hk h ho
  · rw [h] at ho
    exact Prod.mk.inj ho

/-- The model's sum is that of R122. -/
theorem addF_sumOf {a b : FVal} (ha : a.isNaN = false) (hb : b.isNaN = false)
    (ho : (o.d, o.fl) = finishF t v 0 false (addF (v.rm == .rd) a b)) : SumOf t v a b o := by
  obtain ⟨s, rfl⟩ | ⟨s, m, e, rfl⟩ := FVal.number_cases ha <;> obtain ⟨s', rfl⟩ | ⟨s', m', e', rfl⟩ := FVal.number_cases hb
  · by_cases hs : s = s'
    · rw [addF, if_pos hs] at ho
      simpa [SumOf, hs] using finishF_inf ho
    · rw [addF, if_neg hs] at ho
      simpa [SumOf, hs] using invalid_of_finishF ho
  · simpa [SumOf] using finishF_inf ho
  · simpa [SumOf] using finishF_inf ho
  · obtain ⟨z, n, x, hadd, hnum, hzero⟩ := addF_fin (v.rm == .rd) s s' m m' e e'
    rw [hadd] at ho
    simp only [SumOf, FVal.isInf_fin, Bool.false_eq_true, false_and, if_false]
    exact finishF_fin hnum hzero ho

/-- The model's product is that of R122. -/
theorem mulF_productOf {a b : FVal} (ha : a.isNaN = false) (hb : b.isNaN = false)
    (ho : (o.d, o.fl) = finishF t v 0 false (mulF a b)) : ProductOf t v a b o := by
  refine ⟨fun h => invalid_of_finishF (mulF_none ha hb h ▸ ho), fun h => ?_⟩
  obtain ⟨p, hp, hnan, hinf, hsign, hnum⟩ := mulF_some ha hb h
  rw [hp] at ho
  rw [← hinf, ← hsign]
  obtain ⟨s, rfl⟩ | ⟨s, m, e, rfl⟩ := FVal.number_cases hnan
  · exact finishF_inf ho
  · exact finishF_fin (hnum rfl).symm (fun _ => rfl) ho

/-- A sum depends on what number its first addend is. -/
theorem sumOf_product {a b c p q : FVal} (hp : IsProduct a b p) (hq : IsProduct a b q) (h : SumOf t v p c o) : SumOf t v q c o := by
  have hinf : p.isInf = q.isInf := hp.inf.trans hq.inf.symm
  have hsign : p.sign = q.sign := hp.sign.trans hq.sign.symm
  unfold SumOf at *
  rw [← hinf, ← hsign]
  cases hi : p.isInf
  · have hnum : q.num = p.num := (hq.num (hinf ▸ hi)).trans (hp.num hi).symm
    simpa [hi, hnum] using h
  · simpa [hi] using h

/-- The model's fused product and sum is that of R122. -/
theorem fusedOf {a b c : FVal} (ha : a.isNaN = false) (hb : b.isNaN = false) (hc : c.isNaN = false)
    (ho : (o.d, o.fl) = finishF t v 0 false ((mulF a b).bind fun p => addF (v.rm == .rd) p c)) : FusedOf t v a b c o := by
  refine ⟨fun h => invalid_of_finishF (mulF_none ha hb h ▸ ho), fun h p h1 h2 h3 h4 => ?_⟩
  obtain ⟨q, hq, hprod⟩ := mulF_some ha hb h
  rw [hq] at ho
  exact sumOf_product hprod ⟨h1, h2, h3, h4⟩ (addF_sumOf hprod.number hc ho)
end

/-! The forms' bits. -/

section
variable {t : Ty} {v : FEnv} {a b c : Nat} {o : LaneOut}

theorem any_isNaNF_two (ftz : Bool) : [a, b].any (isNaNF t) = ((decodeF t ftz a).isNaN || (decodeF t ftz b).isNaN) := by
  simp [isNaN_decodeF]

theorem any_isNaNF_three (ftz : Bool) :
    [a, b, c].any (isNaNF t) = ((decodeF t ftz a).isNaN || (decodeF t ftz b).isNaN || (decodeF t ftz c).isNaN) := by
  simp [isNaN_decodeF, Bool.or_assoc]

theorem addBits_meets (ho : (o.d, o.fl) = addBits t v a b) :
    NanFirst t [a, b] o (SumOf t v (decodeF t v.ftz a) (decodeF t v.ftz b) o) := by
  rw [addBits, ← any_isNaNF_two] at ho
  refine nanFirst_finishF ho fun hnan hfin => ?_
  rw [any_isNaNF_two v.ftz, Bool.or_eq_false_iff] at hnan
  exact addF_sumOf hnan.1 hnan.2 hfin

theorem subBits_meets (ho : (o.d, o.fl) = subBits t v a b) :
    NanFirst t [a, b] o (SumOf t v (decodeF t v.ftz a) (decodeF t v.ftz b).negate o) := by
  rw [subBits, FVal.isNaN_negate, ← any_isNaNF_two] at ho
  refine nanFirst_finishF ho fun hnan hfin => ?_
  rw [any_isNaNF_two v.ftz, Bool.or_eq_false_iff] at hnan
  exact addF_sumOf hnan.1 ((FVal.isNaN_negate _).trans hnan.2) hfin

theorem mulBits_meets (ho : (o.d, o.fl) = mulBits t v a b) :
    NanFirst t [a, b] o (ProductOf t v (decodeF t v.ftz a) (decodeF t v.ftz b) o) := by
  rw [mulBits, ← any_isNaNF_two] at ho
  refine nanFirst_finishF ho fun hnan hfin => ?_
  rw [any_isNaNF_two v.ftz, Bool.or_eq_false_iff] at hnan
  exact mulF_productOf hnan.1 hnan.2 hfin

theorem fmaBits_meets (ho : (o.d, o.fl) = fmaBits t v a b c) :
    NanFirst t [a, b, c] o (FusedOf t v (decodeF t v.ftz a) (decodeF t v.ftz b) (decodeF t v.ftz c) o) := by
  rw [fmaBits, ← any_isNaNF_three] at ho
  refine nanFirst_finishF ho fun hnan hfin => ?_
  rw [any_isNaNF_three v.ftz, Bool.or_eq_false_iff, Bool.or_eq_false_iff] at hnan
  obtain ⟨⟨ha, hb⟩, hc⟩ := hnan
  exact fusedOf ha hb hc hfin
end

end Sys2Proof.Machine

/-! ## The order of values (R114, R124) -/

namespace Sys2Proof

section
variable {a b : FVal} (ha : a.isNaN = false) (hb : b.isNaN = false)
include ha hb

/-- The model's order is that of the extended line. -/
theorem ltF_iff : ltF a b = true ↔ a.Lt b := by
  obtain ⟨s, rfl⟩ | ⟨s, m, e, rfl⟩ := FVal.number_cases ha <;> obtain ⟨s', rfl⟩ | ⟨s', m', e', rfl⟩ := FVal.number_cases hb
  · simp [ltF, FVal.Lt]
  · simp [ltF, FVal.Lt]
  · simp [ltF, FVal.Lt]
  · have hpos : (0 : ℚ) < 2 ^ min e e' := by positivity
    simp only [ltF, FVal.Lt, FVal.isInf_fin, Bool.false_eq_true, if_false, decide_eq_true_eq]
    rw [← scaledInt_num (min_le_left e e'), ← scaledInt_num (min_le_right e e'), mul_lt_mul_iff_left₀ hpos, Int.cast_lt]

/-- Two values are one number when neither lies below the other. -/
theorem FVal.same_iff : a.Same b ↔ ¬a.Lt b ∧ ¬b.Lt a := by
  obtain ⟨s, rfl⟩ | ⟨s, m, e, rfl⟩ := FVal.number_cases ha <;> obtain ⟨s', rfl⟩ | ⟨s', m', e', rfl⟩ := FVal.number_cases hb
  · cases s <;> cases s' <;> simp [FVal.Same, FVal.Lt]
  · cases s <;> simp [FVal.Same, FVal.Lt]
  · cases s' <;> simp [FVal.Same, FVal.Lt]
  · simp only [FVal.Same, FVal.Lt, FVal.isInf_fin, Bool.false_eq_true, if_false, true_and, not_lt]
    exact ⟨fun h => ⟨h.ge, h.le⟩, fun h => le_antisymm h.2 h.1⟩

theorem FVal.Lt.asymm (h : a.Lt b) : ¬b.Lt a := by
  obtain ⟨s, rfl⟩ | ⟨s, m, e, rfl⟩ := FVal.number_cases ha <;> obtain ⟨s', rfl⟩ | ⟨s', m', e', rfl⟩ := FVal.number_cases hb
  · cases s <;> simp_all [FVal.Lt]
  · cases s <;> simp_all [FVal.Lt]
  · cases s' <;> simp_all [FVal.Lt]
  · simp only [FVal.Lt, FVal.isInf_fin, Bool.false_eq_true, if_false] at h ⊢
    exact lt_asymm h

theorem eqF_iff : eqF a b = true ↔ a.Same b := by
  have heq : eqF a b = (!ltF a b && !ltF b a) := by
    obtain ⟨s, rfl⟩ | ⟨s, m, e, rfl⟩ := FVal.number_cases ha <;>
      obtain ⟨s', rfl⟩ | ⟨s', m', e', rfl⟩ := FVal.number_cases hb <;> rfl
  rw [FVal.same_iff ha hb, ← ltF_iff ha hb, ← ltF_iff hb ha, heq]
  simp

/-- The order that tells zeros apart by sign (R124). -/
theorem belowF_iff : belowF a b = true ↔ a.Lt b ∨ (a.Same b ∧ a.isInf = false ∧ a.num = 0 ∧ a.sign = true ∧ b.sign = false) := by
  by_cases heq : a.Same b
  swap
  · unfold belowF
    rw [if_neg (mt (eqF_iff ha hb).1 heq), ltF_iff ha hb]
    simp [heq]
  have hlt : ¬a.Lt b := ((FVal.same_iff ha hb).1 heq).1
  unfold belowF
  rw [if_pos ((eqF_iff ha hb).2 heq)]
  simp only [heq, hlt, false_or, true_and]
  obtain ⟨s, rfl⟩ | ⟨s, m, e, rfl⟩ := FVal.number_cases ha <;> obtain ⟨s', rfl⟩ | ⟨s', m', e', rfl⟩ := FVal.number_cases hb
  · simp
  · simp [FVal.Same] at heq
  · simp [FVal.Same] at heq
  · have hzero : m = 0 ↔ m' = 0 := by
      have hnum : (FVal.fin s m e).num = (FVal.fin s' m' e').num := heq.2
      rw [← FVal.num_fin_eq_zero (s := s) (e := e), hnum, FVal.num_fin_eq_zero]
    cases m with
    | zero =>
      obtain rfl := hzero.1 rfl
      simp [FVal.num_fin_eq_zero]
    | succ m => simp [FVal.num_fin_eq_zero]

theorem belowF_asymm (h : belowF a b = true) : ¬belowF b a = true := by
  rw [belowF_iff ha hb] at h
  rw [belowF_iff hb ha]
  obtain hlt | ⟨hsame, -, -, hsa, hsb⟩ := h
  · rintro (hgt | ⟨hsame, -⟩)
    · exact hlt.asymm ha hb hgt
    · exact ((FVal.same_iff hb ha).1 hsame).2 hlt
  · rintro (hgt | ⟨-, -, -, hsb', -⟩)
    · exact ((FVal.same_iff ha hb).1 hsame).2 hgt
    · simp [hsb] at hsb'
end

/-- Values that are one number, of one sign, have one encoding. -/
theorem encodeF_congr {a b : FVal} (ha : a.isNaN = false) (hb : b.isNaN = false) (h : a.Same b) (hsign : a.sign = b.sign) (t : Ty) :
    encodeF t a = encodeF t b := by
  obtain ⟨s, rfl⟩ | ⟨s, m, e, rfl⟩ := FVal.number_cases ha <;> obtain ⟨s', rfl⟩ | ⟨s', m', e', rfl⟩ := FVal.number_cases hb
  · rw [show s = s' from hsign]
  · simp [FVal.Same] at h
  · simp [FVal.Same] at h
  · have habs := congrArg abs (show (FVal.fin s m e).num = (FVal.fin s' m' e').num from h.2)
    rw [FVal.abs_num_fin, FVal.abs_num_fin] at habs
    obtain rfl : s = s' := hsign
    rw [encodeF, encodeF, roundV, roundV, roundF_congr habs]

/-- One number other than zero has one sign. -/
theorem FVal.Same.sign_eq {a b : FVal} (ha : a.isNaN = false) (hb : b.isNaN = false) (h : a.Same b) (h0 : a.isInf = false → a.num ≠ 0) :
    a.sign = b.sign := by
  obtain ⟨s, rfl⟩ | ⟨s, m, e, rfl⟩ := FVal.number_cases ha <;> obtain ⟨s', rfl⟩ | ⟨s', m', e', rfl⟩ := FVal.number_cases hb
  · simpa [FVal.Same] using h
  · simp [FVal.Same] at h
  · simp [FVal.Same] at h
  · have hnum : (FVal.fin s m e).num = (FVal.fin s' m' e').num := h.2
    have hm : m ≠ 0 := fun hm => h0 rfl (FVal.num_fin_eq_zero.2 hm)
    have hm' : m' ≠ 0 := fun hm' => h0 rfl (hnum.trans (FVal.num_fin_eq_zero.2 hm'))
    calc s = decide ((FVal.fin s m e).num < 0) := (FVal.num_fin_neg hm).symm
      _ = decide ((FVal.fin s' m' e').num < 0) := by rw [hnum]
      _ = s' := FVal.num_fin_neg hm'

/-- Two values of which neither is below the other have one encoding. -/
theorem encodeF_of_not_below {a b : FVal} (ha : a.isNaN = false) (hb : b.isNaN = false) (hab : ¬belowF a b = true)
    (hba : ¬belowF b a = true) (t : Ty) : encodeF t a = encodeF t b := by
  rw [belowF_iff ha hb, not_or] at hab
  rw [belowF_iff hb ha, not_or] at hba
  have hsame : a.Same b := (FVal.same_iff ha hb).2 ⟨hab.1, hba.1⟩
  have hsame' : b.Same a := (FVal.same_iff hb ha).2 ⟨hba.1, hab.1⟩
  refine encodeF_congr ha hb hsame ?_ t
  by_cases h0 : a.isInf = false ∧ a.num = 0
  · obtain ⟨hi, hn⟩ := h0
    have hi' : b.isInf = false := hsame.1 ▸ hi
    have hn' : b.num = 0 := by
      have := hsame.2
      rw [if_neg (by simp [hi])] at this
      exact this ▸ hn
    have hpos : a.sign = true → b.sign = true := by simpa [hsame, hi, hn] using hab.2
    have hneg : b.sign = true → a.sign = true := by simpa [hsame', hi', hn'] using hba.2
    exact Bool.eq_iff_iff.2 ⟨hpos, hneg⟩
  · exact hsame.sign_eq ha hb fun hi hn => h0 ⟨hi, hn⟩

end Sys2Proof

namespace Sys2Proof.Machine

/-- The bits and the exceptions that FMIN to DMAX give, apart. -/
theorem minmaxBits_eq (t : Ty) (ftz nanp big : Bool) (a b : Nat) : minmaxBits t ftz nanp big a b =
    (if isNaNF t a ∧ isNaNF t b then qnanF t
      else if isNaNF t a then if nanp then qnanF t else encodeF t (decodeF t ftz b)
      else if isNaNF t b then if nanp then qnanF t else encodeF t (decodeF t ftz a)
      else encodeF t (if (if big then belowF (decodeF t ftz a) (decodeF t ftz b) else belowF (decodeF t ftz b) (decodeF t ftz a))
        then decodeF t ftz b else decodeF t ftz a),
     if isSNaNF t a ∨ isSNaNF t b then flagNV else 0) := by
  simp only [minmaxBits, isNaN_decodeF]
  cases isNaNF t a <;> cases isNaNF t b <;> cases nanp <;> simp [snanFlag]

/-- The lesser, or with `big` the greater, of two values, the second in place of the first where they are one. -/
theorem encodeF_chosen {t : Ty} {x y : FVal} (hx : x.isNaN = false) (hy : y.isNaN = false) (big : Bool) :
    let d := encodeF t (if (if big then belowF x y else belowF y x) then y else x)
    (belowF x y = true → d = encodeF t (if big then y else x)) ∧ (¬belowF x y = true → d = encodeF t (if big then x else y)) := by
  cases big
  · refine ⟨fun h => ?_, fun h => ?_⟩
    · simp [belowF_asymm hx hy h]
    · by_cases h' : belowF y x = true
      · simp [h']
      · simpa [h'] using encodeF_of_not_below hx hy h h' t
  · exact ⟨fun h => by simp [h], fun h => by simp [h]⟩

/-- FMIN to DMAX choose as R124 says. -/
theorem minmaxBits_chosenOf {t : Ty} {ftz nanp big : Bool} {a b : Nat} {o : LaneOut} (ho : (o.d, o.fl) = minmaxBits t ftz nanp big a b) :
    ChosenOf t ftz nanp big a b o := by
  rw [minmaxBits_eq] at ho
  obtain ⟨hd, hfl⟩ := Prod.mk.inj ho
  refine ⟨hfl, ?_⟩
  by_cases hboth : isNaNF t a = true ∧ isNaNF t b = true
  · rwa [if_pos hboth] at hd ⊢
  rw [if_neg hboth] at hd ⊢
  by_cases hna : isNaNF t a = true
  · rwa [if_pos hna] at hd ⊢
  rw [if_neg hna] at hd ⊢
  by_cases hnb : isNaNF t b = true
  · rwa [if_pos hnb] at hd ⊢
  rw [if_neg hnb] at hd ⊢
  have ha : (decodeF t ftz a).isNaN = false := (isNaN_decodeF ..).trans (Bool.eq_false_iff.2 hna)
  have hb : (decodeF t ftz b).isNaN = false := (isNaN_decodeF ..).trans (Bool.eq_false_iff.2 hnb)
  obtain ⟨hbelow, hnot⟩ := encodeF_chosen (t := t) ha hb big
  have hiff := belowF_iff ha hb
  exact ⟨fun h => hd.trans (hbelow (hiff.2 h)), fun h => hd.trans (hnot (mt hiff.1 h))⟩

/-- The model's comparison is that of R114. -/
theorem cmpF_iff (c : Cmp) (a b : FVal) : cmpF c a b = true ↔ CmpHolds c (a.isNaN || b.isNaN) a b := by
  have nan : (a.isNaN || b.isNaN) = true → ltF a b = false ∧ ltF b a = false ∧ eqF a b = false := by
    cases a <;> cases b <;> simp [FVal.isNaN, ltF, eqF]
  cases hun : a.isNaN || b.isNaN
  · obtain ⟨ha, hb⟩ := Bool.or_eq_false_iff.1 hun
    have hlt := ltF_iff ha hb
    have hgt := ltF_iff hb ha
    have heq := eqF_iff ha hb
    cases c <;> simp [cmpF, CmpHolds, hun, ← hlt, ← hgt, ← heq]
  · obtain ⟨hlt, hgt, heq⟩ := nan hun
    cases c <;> simp [cmpF, CmpHolds, hun, hlt, hgt, heq]

/-- The comparisons under which a quiet NaN is invalid (R114). -/
theorem quietNV_iff (c : Cmp) : c.quietNV = true ↔ c ∈ [Cmp.lt, .le, .gt, .ge, .ltu, .leu, .gtu, .geu] := by
  cases c <;> decide

theorem cmpFlags_eq (t : Ty) (c : Cmp) (a b : Nat) : cmpFlags t c a b =
    if (c ≠ .f ∧ c ≠ .t ∧ (isSNaNF t a || isSNaNF t b) = true)
      ∨ (c ∈ [Cmp.lt, .le, .gt, .ge, .ltu, .leu, .gtu, .geu] ∧ (isNaNF t a || isNaNF t b) = true) then flagNV else 0 := by
  simp only [cmpFlags, ← quietNV_iff, Bool.and_eq_true, bne_iff_ne, and_assoc]
  split_ifs <;> tauto

/-! FCLASS, FSCALE and FRND (R126, R127). -/

/-- The model's class is that of R126. -/
theorem fclassBits_eq (t : Ty) (ftz : Bool) (a : Nat) : fclassBits t ftz a = 2 ^ classOf t ftz a := by
  unfold classOf
  cases hnan : isNaNF t a
  · have hsn : isSNaNF t a = false := Bool.eq_false_iff.2 fun h => by simp [isNaNF_of_isSNaNF h] at hnan
    cases hinf : isInfF t a
    · simp only [hsn, hinf, Bool.false_eq_true, if_false, fclassBits, decodeF, hnan, beq_iff_eq]
      by_cases hexp : fexp t a = 0
      · by_cases hfz : (ftz && t.ftzable) = true
        · simp [hexp, hfz]
        · simp [hexp, hfz]
      · simp [hexp]
    · simp [fclassBits, decodeF, hnan, hinf, hsn]
  · cases hsn : isSNaNF t a <;> simp [fclassBits, decodeF_of_nan hnan, hsn]

/-- FSCALE gives the value times a power of two, rounded once (R127). -/
theorem fscale_rounds {t : Ty} {v : FEnv} {a : Nat} {n : Int} {o : LaneOut} (ho : (o.d, o.fl) = fscaleBits t v a n) :
    NanFirst t [a] o (if (decodeF t v.ftz a).isInf then o.d = infF t (decodeF t v.ftz a).sign ∧ o.fl = 0
      else RoundOnce t v (decodeF t v.ftz a).sign ((decodeF t v.ftz a).num * 2 ^ n) o) := by
  unfold fscaleBits at ho
  refine nanFirst_of (fun h => by rwa [decodeF_of_nan h] at ho) fun h => ?_
  have hne := decodeF_ne_nan h v.ftz
  cases hv : decodeF t v.ftz a with
  | nan => exact absurd hv hne
  | inf s =>
    simp only [hv] at ho
    exact Prod.mk.inj ho
  | fin s m e =>
    simp only [hv] at ho
    refine roundBy_roundF (m := m) ?_ (fun _ => rfl) ho
    simp only [FVal.num, zpow_add₀ (two_ne_zero' ℚ), mul_assoc]
    rfl

/-- A finite value rounded to an integer, in the format: that of an integer is the integer's own (R127). -/
theorem frndBits_fin {t : Ty} {ftz s : Bool} {a m : Nat} {e : Int} (hv : decodeF t ftz a = .fin s m e) (rm : RM) (x : Bool) :
    frndBits t ftz rm x a = (encodeF t (.fin s (roundToInt rm s m e).1 0), if x && (roundToInt rm s m e).2 then flagNX else 0) := by
  simp only [frndBits, hv]
  by_cases he : 0 ≤ e
  · obtain ⟨k, rfl⟩ := Int.eq_ofNat_of_zero_le he
    have hround : roundToInt rm s m k = (m * 2 ^ k, false) := by simp [roundToInt, gridSplit]
    rw [if_pos he, hround, encodeF, encodeF, roundV, roundV, roundF_shift, zero_add]
    simp
  · rw [if_neg he]

/-- FRND gives the value's integer in the direction (R127). -/
theorem frnd_meets {t : Ty} {ftz x : Bool} {rm : RM} {a : Nat} {o : LaneOut} (ho : (o.d, o.fl) = frndBits t ftz rm x a) :
    NanFirst t [a] o (if (decodeF t ftz a).isInf then o.d = infF t (decodeF t ftz a).sign ∧ o.fl = 0
      else ∃ n : Nat, IntegerOf rm (decodeF t ftz a).sign |(decodeF t ftz a).num| n
        ∧ o.d = encodeF t (.fin (decodeF t ftz a).sign n 0)
        ∧ o.fl = if x = true ∧ (n : ℚ) ≠ |(decodeF t ftz a).num| then flagNX else 0) := by
  refine nanFirst_of (fun h => by rwa [frndBits, decodeF_of_nan h] at ho) fun h => ?_
  have hne := decodeF_ne_nan h ftz
  cases hv : decodeF t ftz a with
  | nan => exact absurd hv hne
  | inf s =>
    rw [frndBits, hv] at ho
    exact Prod.mk.inj ho
  | fin s m e =>
    rw [frndBits_fin hv] at ho
    obtain ⟨hd, hfl⟩ := Prod.mk.inj ho
    have hinex : (roundToInt rm s m e).2 = true ↔ ((roundToInt rm s m e).1 : ℚ) ≠ m * 2 ^ e := by
      rw [ne_eq, ← roundToInt_exact_iff, Bool.not_eq_false]
    rw [FVal.abs_num_fin]
    refine ⟨_, roundToInt_integerOf rm s m e, hd, ?_⟩
    simp only [hfl, ← hinex, Bool.and_eq_true]

end Sys2Proof.Machine

namespace Sys2Proof.Machine

/-! ## The floating forms (R121 to R127) -/

theorem fbin_eq (i : Instr) (s : State) (x : FBin) (f : Ty → FEnv → Nat → Nat → Nat × Flags) :
    fbin i s x f = laneOp i s false fun w _ t => .float (f x.ty (w.fenv x.rm x.sat) (w.rd x.ty x.a t) (w.rd x.ty x.b t)) := rfl

theorem fter_eq (i : Instr) (s : State) (x : FTer) : fter i s x = laneOp i s false fun w _ t =>
    .float (fmaBits x.ty (w.fenv x.rm x.sat) (w.rd x.ty x.a t) (w.rd x.ty x.b t) (w.rd x.ty x.c t)) := rfl

theorem fminmax_eq (i : Instr) (s : State) (x : FMinMax) (big : Bool) : fminmax i s x big =
    laneOp i s false fun w _ t => .float (minmaxBits x.ty w.cx.ftz x.nanp big (w.rd x.ty x.a t) (w.rd x.ty x.b t)) := rfl

theorem fsetp_eq (i : Instr) (s : State) (x : Setp) : fsetp i s x = laneOp i s false fun w _ t =>
    { p := x.bop.run (cmpF x.cmp (decodeF x.ty w.cx.ftz (w.rd x.ty x.a t)) (decodeF x.ty w.cx.ftz (w.rd x.ty x.b t)))
        ((w.g.thread t).pred x.pc != x.negc), fl := cmpFlags x.ty x.cmp (w.rd x.ty x.a t) (w.rd x.ty x.b t) } := rfl

section
variable {i : Instr} {s : State} {w : View} {m : Mask} (h : Issues i s w m)
include h

/-- A form of two operands, whose bits meet what the exact operation says of them. -/
theorem fbin_rounds {x : FBin} {f : Ty → FEnv → Nat → Nat → Nat × Flags} {p : Ty → FEnv → Nat → Nat → LaneOut → Prop}
    (he : exec i s = fbin i s x f) (hp : ∀ {t v a b o}, (o.d, o.fl) = f t v a b → p t v a b o) :
    Rounds i s w m false fun k => p x.ty ⟨w.cx.ftz, x.rm, x.sat⟩ (w.rd x.ty x.a k) (w.rd x.ty x.b k) :=
  laneOp_rounds h false _ (he.trans (fbin_eq ..)) fun _ _ => hp rfl

theorem fter_rounds {x : FTer} (he : exec i s = fter i s x) :
    Rounds i s w m false fun k o =>
      let val := decodeF x.ty w.cx.ftz
      let a := w.rd x.ty x.a k
      let b := w.rd x.ty x.b k
      let c := w.rd x.ty x.c k
      NanFirst x.ty [a, b, c] o (FusedOf x.ty ⟨w.cx.ftz, x.rm, x.sat⟩ (val a) (val b) (val c) o) :=
  laneOp_rounds h false _ (he.trans (fter_eq ..)) fun _ _ => fmaBits_meets (v := w.fenv x.rm x.sat) rfl

theorem fminmax_rounds {x : FMinMax} {big : Bool} (he : exec i s = fminmax i s x big) :
    Rounds i s w m false fun k => ChosenOf x.ty w.cx.ftz x.nanp big (w.rd x.ty x.a k) (w.rd x.ty x.b k) :=
  laneOp_rounds h false _ (he.trans (fminmax_eq ..)) fun _ _ => minmaxBits_chosenOf rfl

/-- A comparison gives its code of the operands' values, with the exceptions of R114. -/
theorem fsetp_rounds {x : Setp} (he : exec i s = fsetp i s x) : Rounds i s w m false fun k o =>
    let a := w.rd x.ty x.a k
    let b := w.rd x.ty x.b k
    let un := isNaNF x.ty a || isNaNF x.ty b
    (∃ c : Bool, (c = true ↔ CmpHolds x.cmp un (decodeF x.ty w.cx.ftz a) (decodeF x.ty w.cx.ftz b))
        ∧ o.p = x.bop.run c ((w.g.thread k).pred x.pc ^^ x.negc))
      ∧ o.fl = if (x.cmp ≠ .f ∧ x.cmp ≠ .t ∧ (isSNaNF x.ty a || isSNaNF x.ty b) = true)
          ∨ (x.cmp ∈ [Cmp.lt, .le, .gt, .ge, .ltu, .leu, .gtu, .geu] ∧ un = true) then flagNV else 0 :=
  laneOp_rounds h false _ (he.trans (fsetp_eq ..)) fun k _ => by
    refine ⟨⟨_, ?_, rfl⟩, cmpFlags_eq ..⟩
    rw [← isNaN_decodeF x.ty w.cx.ftz, ← isNaN_decodeF x.ty w.cx.ftz]
    exact cmpF_iff ..
end

/-- Settles O4: each form is a lane form of a function of bits, which is the exact operation followed by one Round (`addBits_meets` to
`fmaBits_meets`), a choice (`minmaxBits_chosenOf`) or a comparison of values (`cmpF_iff`). -/
theorem floatForms : Obligations.FloatForms := by
  intro s w m
  refine ⟨fun x h => fbin_rounds h (exec_fadd x s) addBits_meets, fun x h => fbin_rounds h (exec_fsub x s) subBits_meets,
    fun x h => fbin_rounds h (exec_fmul x s) mulBits_meets, fun x h => fbin_rounds h (exec_dadd x s) addBits_meets,
    fun x h => fbin_rounds h (exec_dmul x s) mulBits_meets, fun x h => fter_rounds h (exec_ffma x s),
    fun x h => fter_rounds h (exec_dfma x s), fun x h => fminmax_rounds h (exec_fmin x s), fun x h => fminmax_rounds h (exec_fmax x s),
    fun x h => fminmax_rounds h (exec_dmin x s), fun x h => fminmax_rounds h (exec_dmax x s), fun x h => fsetp_rounds h (exec_fsetp x s),
    fun x h => fsetp_rounds h (exec_dsetp x s), fun x h => ?fclass, fun x h => ?fscale, fun x h => ?frnd⟩
  case fclass => exact laneOp_rounds h false _ (exec_fclass x s) fun _ _ => ⟨fclassBits_eq .., rfl⟩
  case fscale => exact laneOp_rounds h false _ (exec_fscale x s) fun _ _ => fscale_rounds (v := w.fenv x.rm x.sat) rfl
  case frnd => exact laneOp_rounds h false _ (exec_frnd x s) fun _ _ => frnd_meets rfl

end Sys2Proof.Machine

namespace Sys2Proof.Machine

/-! ## The packed forms (R121, R123, R124) -/

/-- Element 1 or 0 of a packed operand, an immediate standing in both (R121). -/
def View.elem (w : View) (t : Ty) (x : Src) (k : Nat) (hi : Bool) : Nat :=
  match x with
  | .imm n => immBits t n
  | _ => w.rd .b32 x k / 2 ^ (if hi then 16 else 0) % 2 ^ 16

/-- The elements that the model reads. -/
theorem packed_eq (w : View) (t : Ty) (x : Src) (k : Nat) : w.packed t x k = (w.elem t x k false, w.elem t x k true) := by
  unfold View.packed View.elem
  cases x <;> simp

/-- A result of two elements, each of which meets what is said of it alone. -/
def BothMeet (f : Bool → LaneOut → Prop) (o : LaneOut) : Prop :=
  ∃ lo hi, f false lo ∧ f true hi ∧ o.d = lo.d + 2 ^ 16 * hi.d ∧ o.fl = lo.fl ||| hi.fl

theorem packedOut_both {f : Bool → LaneOut → Prop} {g : Bool → Nat × Flags} (hf : ∀ hi, f hi (.float (g hi))) :
    BothMeet f (packedOut (g false) (g true)) :=
  ⟨_, _, hf false, hf true, congrArg _ (Nat.mul_comm ..), rfl⟩

theorem packedBin_eq (i : Instr) (s : State) (x : FBin) (f : Ty → FEnv → Nat → Nat → Nat × Flags) : packedBin i s x f =
    laneOp i s false fun w _ t => packedOut
      (f x.ty (w.fenv x.rm x.sat) (w.packed x.ty x.a t).1 (w.packed x.ty x.b t).1)
      (f x.ty (w.fenv x.rm x.sat) (w.packed x.ty x.a t).2 (w.packed x.ty x.b t).2) := rfl

theorem packedMinmax_eq (i : Instr) (s : State) (x : FMinMax) (big : Bool) : packedMinmax i s x big =
    laneOp i s false fun w _ t => packedOut
      (minmaxBits x.ty w.cx.ftz x.nanp big (w.packed x.ty x.a t).1 (w.packed x.ty x.b t).1)
      (minmaxBits x.ty w.cx.ftz x.nanp big (w.packed x.ty x.a t).2 (w.packed x.ty x.b t).2) := rfl

section
variable {i : Instr} {s : State} {w : View} {m : Mask} (h : Issues i s w m)
include h

/-- A packed form of two operands: its elements meet what the exact operation says of them. -/
theorem packedBin_rounds {x : FBin} {f : Ty → FEnv → Nat → Nat → Nat × Flags} {p : Ty → FEnv → Nat → Nat → LaneOut → Prop}
    (he : exec i s = packedBin i s x f) (hp : ∀ {t v a b o}, (o.d, o.fl) = f t v a b → p t v a b o) :
    Rounds i s w m false fun k =>
      BothMeet fun hi => p x.ty ⟨w.cx.ftz, x.rm, x.sat⟩ (w.elem x.ty x.a k hi) (w.elem x.ty x.b k hi) :=
  laneOp_rounds h false _ (he.trans (packedBin_eq ..)) fun k _ => by
    simp only [packed_eq]
    exact packedOut_both (g := fun hi => f x.ty (w.fenv x.rm x.sat) (w.elem x.ty x.a k hi) (w.elem x.ty x.b k hi)) fun hi => hp rfl

theorem packedMinmax_rounds {x : FMinMax} {big : Bool} (he : exec i s = packedMinmax i s x big) :
    Rounds i s w m false fun k =>
      BothMeet fun hi => ChosenOf x.ty w.cx.ftz x.nanp big (w.elem x.ty x.a k hi) (w.elem x.ty x.b k hi) :=
  laneOp_rounds h false _ (he.trans (packedMinmax_eq ..)) fun k _ => by
    simp only [packed_eq]
    exact packedOut_both (g := fun hi => minmaxBits x.ty w.cx.ftz x.nanp big (w.elem x.ty x.a k hi) (w.elem x.ty x.b k hi))
      fun hi => minmaxBits_chosenOf rfl
end

/-- HFMA2's elements (R123). -/
theorem hfma2_rounds {s : State} {w : View} {m : Mask} {x : FTer} (h : Issues (.hfma2 x) s w m) :
    Rounds (.hfma2 x) s w m false fun k => BothMeet fun hi o =>
      let val := decodeF x.ty w.cx.ftz
      let a := w.elem x.ty x.a k hi
      let b := w.elem x.ty x.b k hi
      let c := w.elem x.ty x.c k hi
      NanFirst x.ty [a, b, c] o (FusedOf x.ty ⟨w.cx.ftz, x.rm, x.sat⟩ (val a) (val b) (val c) o) :=
  laneOp_rounds h false _ (exec_hfma2 x s) fun k _ => by
    simp only [packed_eq]
    exact packedOut_both
      (g := fun hi => fmaBits x.ty (w.fenv x.rm x.sat) (w.elem x.ty x.a k hi) (w.elem x.ty x.b k hi) (w.elem x.ty x.c k hi))
      fun hi => fmaBits_meets (v := w.fenv x.rm x.sat) rfl

/-- Settles O5: the two elements are computed apart by the functions of the scalar forms, and packed. -/
theorem packedForms : Obligations.PackedForms := by
  intro s w m
  exact ⟨fun x h => packedBin_rounds h (exec_hadd2 x s) addBits_meets, fun x h => packedBin_rounds h (exec_hmul2 x s) mulBits_meets,
    fun x h => hfma2_rounds h, fun x h => packedMinmax_rounds h (exec_hmin2 x s), fun x h => packedMinmax_rounds h (exec_hmax2 x s)⟩

end Sys2Proof.Machine

/-! ## Thread status (R148 to R151, R334) -/

namespace Sys2Proof.Machine

/-! Threads changed in place. -/

section
variable {g : Group} {f f' : Nat → Thread → Thread}

/-- What is done to the threads depends on the threads that are there alone. -/
theorem mapThreads_congr (h : ∀ j, j < g.threads.length → f j (g.thread j) = f' j (g.thread j)) : g.mapThreads f = g.mapThreads f' := by
  have : g.threads.mapIdx f = g.threads.mapIdx f' := by
    refine List.ext_getElem (by simp) fun j hj _ => ?_
    have hlt : j < g.threads.length := by simpa using hj
    simpa [Group.thread, hlt] using h j hlt
  simp only [Group.mapThreads, this]

/-- A change that leaves every thread leaves the group. -/
theorem mapThreads_self (h : ∀ j, j < g.threads.length → f j (g.thread j) = g.thread j) : g.mapThreads f = g := by
  have : g.mapThreads (fun _ th => th) = g := by
    have hid : g.threads.mapIdx (fun _ th => th) = g.threads := List.ext_getElem (by simp) fun j _ _ => by simp
    rw [Group.mapThreads, hid]
  exact (mapThreads_congr h).trans this
end

/-- Groups that agree up to slot and latches agree so when threads move on. -/
theorem Settled.advance {g g' : Group} (h : Settled g g') (m : Mask) : (g'.advance m).core = (g.advance m).core := by
  obtain ⟨sl, rd, ths, rfl, e⟩ := h
  have hbare : ∀ l : List Thread, (l.mapIdx fun t th => if inMask m t then th.step12 else th).map Thread.bare
      = (l.map Thread.bare).mapIdx fun t th => if inMask m t then th.step12 else th := by
    refine fun l => List.ext_getElem (by simp) fun t _ _ => ?_
    simp only [List.getElem_map, List.getElem_mapIdx]
    split <;> rfl
  simp only [Group.advance, Group.mapThreads, Group.core, hbare, e]

/-- A form that acts once for its group leaves the group it forms, its selected threads moved on. -/
theorem groupForm_leaves {i : Instr} {s : State} {w : View} {m : Mask} {f : View → Mask → Group → Group} (h : Issues i s w m)
    (he : exec i s = groupOp i s f) :
    ∃ t, exec i s = .next t ∧ Leaves w.s w.u t ((releaseS i.uses.srcs (f w m w.g)).advance w.sel) :=
  he ▸ groupOp_leaves h f

/-! YIELD (R142, R149). -/

/-- A group without a slot gets none when it settles. -/
theorem settle_slot_none {g : Group} (h : g.slot = none) (now : Nat) : (g.settle now).slot = none := by
  unfold Group.settle
  split
  · rfl
  split
  · exact h
  split <;> exact h

/-- A group that has left its slot has none at the end of its issue. -/
theorem issued_slot_none {g : Group} (h : g.slot = none) (s : State) (u : Nat) (ctl : Ctl) (halted : Bool) :
    ∃ g', look (s.issued u ctl halted g).groups u = some g' ∧ g'.slot = none := by
  have hslot : (g.wasIssued (s.schedOf g) halted).slot = none := h
  refine ⟨_, look_put_same .., ?_⟩
  simp only [hslot, Option.isSome_none, Bool.and_false, Bool.false_and, Bool.false_eq_true, if_false]
  exact settle_slot_none hslot _

theorem track_slot (w : View) (i : Instr) (fl : Flags) (d : DoneWhen) (g : Group) : (w.track i fl d g).slot = g.slot := by
  obtain ⟨sb, fly, e⟩ := track_spec w i fl d g
  rw [e]

section
variable {s : State} {w : View} {m : Mask} {x : CtlOnly} (h : Issues (.yield x) s w m)
include h

/-- What YIELD makes of its group before the issue ends. -/
theorem exec_yield_of_issues : exec (.yield x) s = .next (w.s.issued w.u (Instr.yield x).uses.ctl w.halting
    (w.track (.yield x) 0 .now ((if w.g.slot.isSome then w.g.leaveSlot (some w.s.cycle) else w.g).advance w.sel))) := by
  rw [exec_yield, execYield, groupOp, issue_runs h]
  rfl

/-- A group that yields leaves its slot and moves on. -/
theorem yield_leaves_slot (hslot : w.g.slot.isSome = true) : ∃ t, exec (.yield x) s = .next t
    ∧ Leaves w.s w.u t (w.g.advance w.sel) ∧ ∃ g', look t.groups w.u = some g' ∧ g'.slot = none := by
  refine ⟨_, exec_yield_of_issues h, ?_⟩
  rw [if_pos hslot]
  exact ⟨(tracked_leaves ..).of_core ((leaveSlot_settled _ _).advance _), issued_slot_none (track_slot ..) ..⟩

/-- A group that has no slot to yield only moves on. -/
theorem yield_leaves (hslot : w.g.slot = none) : ∃ t, exec (.yield x) s = .next t ∧ Leaves w.s w.u t (w.g.advance w.sel) := by
  refine ⟨_, exec_yield_of_issues h, ?_⟩
  rw [if_neg (by simp [hslot])]
  exact tracked_leaves ..
end

/-! Counts that run out (R150, R151, R334). -/

section
variable {s : State} {u k : Nat} {g : Group} (hg : look s.groups u = some g) {done : Nat → TStat → Bool}
include hg

/-- Thread k of the group, told that the time is now, becomes `f` of it. -/
theorem expire_leaves {f : Thread → Thread} (hf : (let th := if done (s.schedOf g) (g.thread k).stat then { g.thread k with stat := .run } else g.thread k
    if g.handler && th.live && done (s.schedOf g) th.fstat then { th with fstat := .run } else th) = f (g.thread k)) :
    Leaves s u (expire s u k done) (g.mapThreads fun j th => if j = k then f th else th) := by
  have hgroup : expire s u k done = s.setGroup u (g.mapThreads fun j th => if j = k then f th else th) := by
    unfold expire
    rw [hg]
    refine congrArg (s.setGroup u) (mapThreads_congr fun j _ => ?_)
    by_cases hj : j = k
    · subst hj
      simpa using hf
    · simp [hj]
  rw [hgroup]
  exact setGroup_leaves ..

/-- Outside of a handler a count that has run out makes its thread run. -/
theorem expire_runs (hh : g.handler = false) (hdone : done (s.schedOf g) (g.thread k).stat = true) :
    Leaves s u (expire s u k done) (g.mapThreads fun j th => if j = k then { th with stat := .run } else th) :=
  expire_leaves hg (by simp [hh, hdone])

/-- In handler mode a live thread whose own status counts nothing has the count of its frame end. -/
theorem expire_frameRuns (hh : g.handler = true) (hlive : (g.thread k).live = true) (hown : done (s.schedOf g) (g.thread k).stat = false)
    (hdone : done (s.schedOf g) (g.thread k).fstat = true) :
    Leaves s u (expire s u k done) (g.mapThreads fun j th => if j = k then { th with fstat := .run } else th) :=
  expire_leaves hg (by simp [hh, hown, hlive, hdone])

/-- Before a count has run out nothing changes. -/
theorem expire_early (hh : g.handler = false) (hdone : done (s.schedOf g) (g.thread k).stat = false) : Leaves s u (expire s u k done) g := by
  have hleaves := expire_leaves (k := k) hg (done := done) (f := id) (by simp [hh, hdone])
  rwa [mapThreads_self fun j _ => by split <;> rfl] at hleaves
end

/-- Settles O9: EXIT, PAUSE and SLEEP form their group as stated (`tracked_leaves`, `groupOp_leaves`), YIELD leaves its slot, and a count
ends where it is due. -/
theorem threadStatus : Obligations.ThreadStatus := by
  refine ⟨fun s w m => ⟨fun x h => ?_, fun x h => yield_leaves_slot h, fun x h => yield_leaves h, fun x h => ?_, fun x h => ?_⟩, ?_⟩
  · exact ⟨_, (exec_exit x s).trans (issue_runs h _), tracked_leaves ..⟩
  · exact groupForm_leaves h (exec_pause x s)
  · exact groupForm_leaves h (exec_sleep x s)
  intro s u k g tm cx hg _ _ _
  refine ⟨fun due hh hstat hdue => ⟨_, rfl, expire_runs hg hh ?_⟩, fun due hh hstat hdue => ⟨_, rfl, expire_early hg hh ?_⟩,
    fun due hh hstat hdue => ⟨_, rfl, expire_runs hg hh ?_⟩, fun due hh hstat hdue => ⟨_, rfl, expire_early hg hh ?_⟩,
    fun due hh hstat hfstat hdue => ⟨_, rfl, expire_frameRuns hg hh ?_ ?_ ?_⟩⟩
  · simp [hstat, TStat.holdDone, hdue]
  · simp [hstat, TStat.holdDone, hdue]
  · simp [hstat, TStat.sleepDone, hdue]
  · simp [hstat, TStat.sleepDone, hdue]
  · simp [Thread.live, hstat]
  · simp [hstat, TStat.sleepDone]
  · simp [hfstat, TStat.sleepDone, hdue]

end Sys2Proof.Machine

/-! ## Convergence barriers (R152) -/

namespace Sys2Proof.Machine

/-- A mask is empty when it holds no thread. -/
theorem mask_eq_zero_iff (m : Mask) : m = 0 ↔ ∀ k, k < 32 → inMask m k = false := by
  refine ⟨fun h k _ => by simp [h, inMask], fun h => BitVec.eq_of_getLsbD_eq fun k hk => ?_⟩
  simpa [inMask] using h k hk

theorem inMask_diff (a b : Mask) {k : Nat} (hk : k < 32) : inMask (a &&& ~~~b) k = (inMask a k && !inMask b k) := by
  simp [inMask, hk]

theorem inMask_or (a b : Mask) (k : Nat) : inMask (a ||| b) k = (inMask a k || inMask b k) := BitVec.getLsbD_or ..

theorem inMask_maskIf {g : Group} (hlen : g.threads.length = 32) (p : Thread → Bool) {k : Nat} (hk : k < 32) :
    inMask (g.maskIf p) k = p (g.thread k) := by
  rw [Group.maskIf, inMask_maskOf, hlen, decide_eq_true hk, Bool.true_and, Bool.true_and]

/-- When Release(N) acts outside of a handler: some thread waits at cbN, and each member waits there or has exited. -/
def Group.cbMet (g : Group) (n : BitVec 3) : Prop :=
  (∃ k, k < 32 ∧ (g.thread k).stat = .cbwait n)
    ∧ ∀ k, k < 32 → inMask (g.cbreg n.toNat) k = true → (g.thread k).stat = .cbwait n ∨ (g.thread k).stat = .exited

/-- What it does then: the threads that wait go on past their own CBWAIT, and the mask empties. -/
def Group.passCb (g : Group) (n : BitVec 3) : Group :=
  (g.mapThreads fun _ th => if waitsCb n th then { th with stat := .run, pc := th.pc + 12 } else th).setCb n.toNat 0

section
variable {g : Group} {n : BitVec 3}

/-- The model's test is that of R152. -/
theorem cbTest_iff (hlen : g.threads.length = 32) :
    (g.maskIf (waitsCb n) != 0 && (g.cbreg n.toNat &&& ~~~(g.maskIf (waitsCb n) ||| g.maskIf fun th => !th.live)) == 0) = true ↔ g.cbMet n := by
  simp only [Bool.and_eq_true, bne_iff_ne, ne_eq, beq_iff_eq, mask_eq_zero_iff, Group.cbMet]
  refine and_congr ?_ (forall₂_congr fun k hk => ?_)
  · simp +contextual [inMask_maskIf hlen, waitsCb]
  · rw [inMask_diff _ _ hk, inMask_or, inMask_maskIf hlen _ hk, inMask_maskIf hlen _ hk]
    cases inMask (g.cbreg n.toNat) k <;> simp [waitsCb, Thread.live, or_iff_not_imp_left]

variable (hh : g.handler = false) (hlen : g.threads.length = 32)
include hh hlen

theorem releaseCb_of_not_met (h : ¬g.cbMet n) : g.releaseCb n = g := by
  have htest := mt (cbTest_iff hlen).1 h
  simp only [Group.releaseCb, hh, Bool.false_and, Bool.or_false, if_neg htest]

theorem releaseCb_of_met (h : g.cbMet n) : g.releaseCb n = g.passCb n := by
  have htest := (cbTest_iff hlen).2 h
  simp only [Group.releaseCb, hh, Bool.false_and, Bool.or_false, if_pos htest, Bool.false_eq_true, if_false, Group.passCb]
end

/-- Settles O10: the forms set their group as stated, then Release(N) acts where its test (`cbTest_iff`) is met. -/
theorem convergenceBarriers : Obligations.ConvergenceBarriers := by
  refine ⟨fun s w m => ⟨fun x h => groupForm_leaves h (exec_cbarm x s), fun x h => ⟨_, (exec_cbwait x s).trans (issue_runs h _), tracked_leaves ..⟩⟩,
    fun g n hh hlen => ?_⟩
  have hmet : ((∃ k, k < 32 ∧ decide ((g.thread k).stat = .cbwait n) = true)
      ∧ ∀ k, k < 32 → inMask (g.cbreg n.toNat) k = true → decide ((g.thread k).stat = .cbwait n) = true ∨ (g.thread k).stat = .exited)
      ↔ g.cbMet n := by simp only [decide_eq_true_eq, Group.cbMet]
  dsimp only
  rw [hmet]
  refine ⟨releaseCb_of_not_met hh hlen, fun h k hk => ?_, fun h j => ?_⟩
  · rw [releaseCb_of_met hh hlen h, Group.passCb]
    exact mapThreads_thread _ _ _ (hlen ▸ hk)
  · rw [releaseCb_of_met hh hlen h]
    exact rget_rput 0 g.cb n.toNat j 0

end Sys2Proof.Machine

/-! ## Barriers between groups (R153 to R155) -/

namespace Sys2Proof.Machine

/-! Arrival. -/

/-- A team changed beside the group that an instruction leaves. -/
theorem Leaves.updTeam {s0 t : State} {u : Nat} {g : Group} (h : Leaves s0 u t g) (n : Nat) (f : Team → Team) :
    Leaves (s0.updTeam n f) u (t.updTeam n f) g := by
  obtain ⟨g', rfl, hg'⟩ := h
  exact ⟨g', rfl, hg'⟩

/-- A group that has not arrived in the phase arrives, with its clock. -/
theorem Barrier.arrive_eq (b : Barrier) (gidx pts : Nat) : b.arrive gidx pts
    = if !b.arrived.contains gidx then { b with arrived := gidx :: b.arrived, clk := max b.clk pts } else b := by
  unfold Barrier.arrive
  cases b.arrived.contains gidx <;> rfl

/-- A barrier form that issues leaves its threads waiting and its group arrived and releasing; beside it only its team has changed. -/
theorem barOp_leaves {i : Instr} {s : State} {w : View} {m : Mask} (h : Issues i s w m) {far : Bool} {b : Nat} {scope : Scope}
    (he : exec i s = barOp i s far b scope) {f : Team → Team}
    (hf : f = fun tm =>
      let bars := if far then w.tm.barcs else w.tm.bars
      let tm := if !(rget {} bars b).arrived.contains w.g.gidx then tm.countRelease scope else tm
      let bars := put bars b ((rget {} bars b).arrive w.g.gidx w.g.pts)
      if far then { tm with barcs := bars } else { tm with bars := bars }) :
    ∃ t, exec i s = .next t ∧ Leaves (w.s.updTeam w.g.team f) w.u t
      ((w.g.mapThreads fun k th => if inMask m k then { th with stat := .barwait far b } else th).addRelease scope) :=
  ⟨_, he.trans (issue_runs h _), hf ▸ (tracked_leaves w i 0 .now i.uses.ctl _).updTeam _ _⟩

/-! Release. -/

@[simp] theorem Thread.bare_stat (th : Thread) : th.bare.stat = th.stat := rfl
@[simp] theorem Thread.bare_pc (th : Thread) : th.bare.pc = th.pc := rfl

section
variable {far : Bool} {b pts : Nat} {g g1 g2 : Group} {s : State}

/-- Between two states of a group its threads that waited at a barrier have gone on past it, and the others stand where they stood. -/
structure PassedBar (far : Bool) (b : Nat) (g g' : Group) : Prop where
  len : g'.threads.length = g.threads.length
  threads : ∀ k, k < g.threads.length →
    if (g.thread k).stat = .barwait far b then (g'.thread k).stat = .run ∧ (g'.thread k).pc = (g.thread k).pc + 12
    else (g'.thread k).stat = (g.thread k).stat ∧ (g'.thread k).pc = (g.thread k).pc

/-- What has passed a barrier is not moved by passing it again. -/
theorem PassedBar.trans (h : PassedBar far b g g1) (h' : PassedBar far b g1 g2) : PassedBar far b g g2 := by
  refine ⟨h'.len.trans h.len, fun k hk => ?_⟩
  have ht := h.threads k hk
  have ht' := h'.threads k (h.len ▸ hk)
  split at ht
  next hwait =>
    rw [if_neg (by simp [ht.1])] at ht'
    rw [if_pos hwait]
    exact ⟨ht'.1.trans ht.1, ht'.2.trans ht.2⟩
  next hno =>
    rw [ht.1, if_neg hno] at ht'
    rw [if_neg hno]
    exact ⟨ht'.1, ht'.2.trans ht.2⟩

/-- Settling moves no thread. -/
theorem PassedBar.settled (h : PassedBar far b g g1) (hs : Settled g1 g2) : PassedBar far b g g2 := by
  refine ⟨hs.len.trans h.len, fun k hk => ?_⟩
  have hbare := bare_eq_of_settled hs k
  have hstat : (g2.thread k).stat = (g1.thread k).stat := by simpa using congrArg Thread.stat hbare
  have hpc : (g2.thread k).pc = (g1.thread k).pc := by simpa using congrArg Thread.pc hbare
  rw [hstat, hpc]
  exact h.threads k hk

theorem passBar_passed (g : Group) (far : Bool) (b pts : Nat) : PassedBar far b g (g.passBar far b pts) := by
  have hthreads : ∃ f : Nat → Thread → Thread, (g.passBar far b pts).threads = (g.mapThreads f).threads
      ∧ ∀ k th, (f k th).stat = (if th.stat = .barwait far b then .run else th.stat)
        ∧ (f k th).pc = if th.stat = .barwait far b then th.pc + 12 else th.pc := by
    refine ⟨_, by unfold Group.passBar; dsimp only; split <;> rfl, fun k th => ?_⟩
    by_cases h : th.stat = .barwait far b
    · simp only [h, beq_self_eq_true, if_true]
      split <;> exact ⟨rfl, rfl⟩
    · simp only [h, beq_iff_eq, if_false]
      split <;> exact ⟨rfl, rfl⟩
  obtain ⟨f, hths, hf⟩ := hthreads
  refine ⟨(congrArg List.length hths).trans (mapThreads_length ..), fun k hk => ?_⟩
  have hthread : (g.passBar far b pts).thread k = f k (g.thread k) := by
    rw [← mapThreads_thread g f k hk, Group.thread, Group.thread, hths]
  obtain ⟨hstat, hpc⟩ := hf k (g.thread k)
  rw [hthread, hstat, hpc]
  split <;> exact ⟨rfl, rfl⟩

/-- The groups that are named pass the barrier, some perhaps more than once. -/
def State.passBars (s : State) (gs : AList Group) (far : Bool) (b pts : Nat) : State :=
  gs.foldl (fun s g => s.updGroup g.1 fun g => g.passBar far b pts) s

theorem updGroup_look (s : State) (u k : Nat) (f : Group → Group) : look (s.updGroup u f).groups k
    = if k = u then (look s.groups u).map fun g => (f g).settle s.cycle else look s.groups k := by
  rw [updGroup_groups]
  cases hu : look s.groups u with
  | none => split <;> simp_all
  | some g => exact look_put ..

/-- Each group is as it was, or has passed the barrier if it is named. -/
theorem passBars_groups (gs : AList Group) {u : Nat} (hg : look s.groups u = some g) : ∃ g', look (s.passBars gs far b pts).groups u = some g'
    ∧ (g' = g ∨ PassedBar far b g g') ∧ (u ∈ gs.map Prod.fst → PassedBar far b g g') := by
  induction gs generalizing s g with
  | nil => exact ⟨g, hg, .inl rfl, by simp⟩
  | cons x gs ih =>
    by_cases hu : u = x.1
    · have hpass : PassedBar far b g ((g.passBar far b pts).settle s.cycle) := (passBar_passed ..).settled (settle_settled ..)
      obtain ⟨g', hg', hor, -⟩ := ih (s := s.updGroup x.1 fun g => g.passBar far b pts) (by rw [updGroup_look, if_pos hu, ← hu, hg]; rfl)
      have hg1 : PassedBar far b g g' := hor.elim (fun h => h ▸ hpass) hpass.trans
      exact ⟨g', hg', .inr hg1, fun _ => hg1⟩
    · obtain ⟨g', hg', hor, hmem⟩ := ih (s := s.updGroup x.1 fun g => g.passBar far b pts) (by rw [updGroup_look, if_neg hu, hg])
      exact ⟨g', hg', hor, fun h => hmem ((List.mem_cons.1 h).resolve_left hu)⟩

theorem passBars_frame (gs : AList Group) (s : State) (far : Bool) (b pts : Nat) :
    (s.passBars gs far b pts).teams = s.teams ∧ (s.passBars gs far b pts).mem = s.mem := by
  induction gs generalizing s with
  | nil => exact ⟨rfl, rfl⟩
  | cons x gs ih =>
    obtain ⟨ht, hm⟩ := ih (s.updGroup x.1 fun g => g.passBar far b pts)
    exact ⟨ht.trans (by rw [updGroup_groups]), hm.trans (by rw [updGroup_groups])⟩

/-- The next phase of a team's barrier, with no group arrived. -/
def Team.nextPhase (tm : Team) (far : Bool) (b : Nat) : Team :=
  let bars := if far then tm.barcs else tm.bars
  let bars := put bars b { phase := !(rget {} bars b).phase, arrived := [] }
  if far then { tm with barcs := bars } else { tm with bars := bars }

/-- Teams changed one after the other leave groups and memory. -/
theorem foldl_updTeam_frame (ts : List Nat) (f : Team → Team) (s : State) :
    (ts.foldl (fun s tn => s.updTeam tn f) s).groups = s.groups ∧ (ts.foldl (fun s tn => s.updTeam tn f) s).mem = s.mem := by
  induction ts generalizing s with
  | nil => exact ⟨rfl, rfl⟩
  | cons t ts ih => exact ih (s.updTeam t f)

/-- A barrier completes: the groups of its teams pass it, then the teams enter the next phase. -/
theorem completeBar_eq (s : State) (ts : List Nat) (far : Bool) (b : Nat) : ∃ pts, completeBar s ts far b
    = ts.foldl (fun s tn => s.updTeam tn fun tm => tm.nextPhase far b) (s.passBars (s.groups.filter fun g => ts.contains g.2.team) far b pts) :=
  ⟨_, rfl⟩

theorem mem_of_look {α : Type} {l : AList α} {k : Nat} {a : α} (h : look l k = some a) : (k, a) ∈ l := by
  induction l with
  | nil => simp at h
  | cons x l ih =>
    simp only [look] at h
    split at h
    next hk => exact List.mem_cons.2 (.inl (Prod.ext hk.symm (Option.some.inj h).symm))
    next => exact List.mem_cons_of_mem _ (ih h)

/-- Every thread of the teams that waits at a barrier passes it when it completes, and memory is as it was. -/
theorem completeBar_passes (s : State) (ts : List Nat) (far : Bool) (b : Nat) :
    (∀ u g, look s.groups u = some g → g.team ∈ ts → ∃ g', look (completeBar s ts far b).groups u = some g' ∧ PassedBar far b g g')
      ∧ (completeBar s ts far b).mem = s.mem := by
  obtain ⟨pts, hc⟩ := completeBar_eq s ts far b
  obtain ⟨hgroups, hmem⟩ := foldl_updTeam_frame ts (fun tm => tm.nextPhase far b)
    (s.passBars (s.groups.filter fun g => ts.contains g.2.team) far b pts)
  rw [hc, hgroups, hmem]
  refine ⟨fun u g hg hteam => ?_, (passBars_frame ..).2⟩
  obtain ⟨g', hg', -, hnamed⟩ := passBars_groups (far := far) (b := b) (pts := pts) (s.groups.filter fun g => ts.contains g.2.team) hg
  exact ⟨g', hg', hnamed (List.mem_map.2 ⟨(u, g), List.mem_filter.2 ⟨mem_of_look hg, by simpa using hteam⟩, rfl⟩)⟩

/-- A single team enters the next phase. -/
theorem completeBar_team (s : State) {team : Nat} {tm : Team} (htm : look s.teams team = some tm) (far : Bool) (b : Nat) :
    look (completeBar s [team] far b).teams team = some (tm.nextPhase far b) := by
  obtain ⟨pts, hc⟩ := completeBar_eq s [team] far b
  have hteams := (passBars_frame (s.groups.filter fun g => [team].contains g.2.team) s far b pts).1
  rw [hc]
  exact (look_upd_self ..).trans (by rw [hteams, htm]; rfl)
end

section
variable {s : State} {team b : Nat} {tm : Team} (htm : look s.teams team = some tm)
include htm

/-- BAR_RELEASE (R153). -/
theorem execBarRelease_eq : execBarRelease team b s
    = if !(rget {} tm.bars b).arrived.isEmpty && s.teamArrived team tm (rget {} tm.bars b) then .next (completeBar s [team] false b)
      else .next s := by
  simp only [execBarRelease, htm]

/-- The teams of the cluster of a team. -/
def State.mates (s : State) (tm : Team) : AList Team := s.teams.filter fun x => x.2.cluster == tm.cluster

/-- BARC_RELEASE (R154). -/
theorem execBarcRelease_eq : execBarcRelease team b s
    = if ((s.mates tm).any fun x => !(rget {} x.2.barcs b).arrived.isEmpty)
        && ((s.mates tm).all fun x => x.2.run == .retired || s.teamArrived x.1 x.2 (rget {} x.2.barcs b))
      then .next (completeBar s ((s.mates tm).map fun x => x.1) true b) else .next s := by
  simp only [execBarcRelease, htm]
  rfl

theorem barRelease_completes (harr : (rget {} tm.bars b).arrived ≠ []) (hall : s.teamArrived team tm (rget {} tm.bars b) = true) :
    exec (.barRelease team b) s = .next (completeBar s [team] false b) := by
  rw [exec_barRelease, execBarRelease_eq htm, if_pos (by simp [harr, hall])]

theorem barRelease_waits (hall : s.teamArrived team tm (rget {} tm.bars b) = false) : exec (.barRelease team b) s = .next s := by
  rw [exec_barRelease, execBarRelease_eq htm, if_neg (by simp [hall])]

theorem barcRelease_completes (harr : (rget {} tm.barcs b).arrived ≠ [])
    (hall : ∀ x ∈ s.teams, x.2.cluster = tm.cluster → x.2.run = .retired ∨ s.teamArrived x.1 x.2 (rget {} x.2.barcs b) = true) :
    exec (.barcRelease team b) s = .next (completeBar s ((s.mates tm).map fun x => x.1) true b) := by
  have hany : ((s.mates tm).any fun x => !(rget {} x.2.barcs b).arrived.isEmpty) = true :=
    List.any_eq_true.2 ⟨(team, tm), List.mem_filter.2 ⟨mem_of_look htm, by simp⟩, by simpa using harr⟩
  have hmates : ((s.mates tm).all fun x => x.2.run == .retired || s.teamArrived x.1 x.2 (rget {} x.2.barcs b)) = true :=
    List.all_eq_true.2 fun x hx => by simpa using hall x (List.mem_filter.1 hx).1 (by simpa using (List.mem_filter.1 hx).2)
  rw [exec_barcRelease, execBarcRelease_eq htm, hany, hmates]
  rfl

theorem barcRelease_waits {x : Nat × Team} (hx : x ∈ s.teams) (hc : x.2.cluster = tm.cluster) (hrun : x.2.run ≠ .retired)
    (hno : s.teamArrived x.1 x.2 (rget {} x.2.barcs b) = false) : exec (.barcRelease team b) s = .next s := by
  have hmates : ((s.mates tm).all fun x => x.2.run == .retired || s.teamArrived x.1 x.2 (rget {} x.2.barcs b)) = false :=
    List.all_eq_false.2 ⟨x, List.mem_filter.2 ⟨hx, by simp [hc]⟩, by simp [hrun, hno]⟩
  rw [exec_barcRelease, execBarcRelease_eq htm, hmates, Bool.and_false]
  rfl
end

/-- Settles O11: arrival changes the group and its team as stated (`barOp_leaves`), and a barrier completes where its test is met
(`completeBar_passes`). -/
theorem barriers : Obligations.Barriers := by
  refine ⟨fun s w m => ⟨fun x h => ?_, fun x h => ?_⟩, fun s team b tm htm => ⟨fun harr hall => ?_, barRelease_waits htm⟩,
    fun s team b tm htm => ⟨fun harr hall => ?_, fun x hx => barcRelease_waits htm hx⟩⟩
  · exact barOp_leaves h (exec_bar x s) (by simp [Barrier.arrive_eq, Team.countRelease, Scope.wide])
  · refine barOp_leaves h (exec_barc x s) (funext fun tm => ?_)
    simp only [Barrier.arrive_eq, Team.countRelease, Scope.wide, if_true]
    split <;> rfl
  · obtain ⟨hpass, hmem⟩ := completeBar_passes s [team] false b
    refine ⟨_, barRelease_completes htm harr hall, fun u g hg hteam => ?_, completeBar_team s htm false b, hmem⟩
    obtain ⟨g', hg', hp⟩ := hpass u g hg hteam
    exact ⟨g', hg', hp.threads⟩
  · obtain ⟨hpass, hmem⟩ := completeBar_passes s ((s.mates tm).map fun x => x.1) true b
    refine ⟨_, barcRelease_completes htm harr hall, fun u g hg hteam => ?_, hmem⟩
    obtain ⟨g', hg', hp⟩ := hpass u g hg hteam
    exact ⟨g', hg', hp.threads⟩

end Sys2Proof.Machine

/-! ## Branches to good targets (R145, R147, R400) -/

namespace Sys2Proof.Machine

/-! What the check of targets leaves. -/

/-- The issue stage stands at the same PC for the same threads in both states. -/
def SameIssue (s t : State) : Prop := t.curPc = s.curPc ∧ t.curMask = s.curMask

theorem SameIssue.trans {s t v : State} (h : SameIssue s t) (h' : SameIssue t v) : SameIssue s v := ⟨h'.1.trans h.1, h'.2.trans h.2⟩

/-- Marks of frames leave the issue stage alone (R185). -/
theorem markFrames_sameIssue {s : State} {pa : Nat} {leaf : Leaf} : SameIssue s ((s.markFrames pa leaf).getD s) := by
  unfold State.markFrames
  dsimp only
  split
  · split <;> exact ⟨rfl, rfl⟩
  · split
    · split <;> exact ⟨rfl, rfl⟩
    · exact ⟨rfl, rfl⟩

theorem walkInstall_sameIssue {s t : State} {core ctx : Nat} {cx : Ctx} {va : VA} {acc : Acc}
    (h : s.walkInstall core ctx cx va acc = .ok t) : SameIssue s t := by
  unfold State.walkInstall at h
  split at h
  · cases h
  · cases h
    exact markFrames_sameIssue.trans ⟨rfl, rfl⟩

/-- What translations that never park install leaves the issue stage alone (R184). -/
theorem installQuiet_sameIssue (w : View) (acc : Acc) (vas : List VA) : SameIssue w.s (w.installQuiet acc vas) := by
  refine List.foldlRecOn (motive := SameIssue w.s) _ _ ⟨rfl, rfl⟩ fun t ht va _ => ?_
  split
  · exact ht
  split
  next h => exact ht.trans (walkInstall_sameIssue h)
  next => exact ht

/-- The view with which an indirect branch goes on. -/
def View.looked (w : View) (m : Mask) (T : Nat → Int) : View := { w with s := w.installQuiet .fetch (w.targetBytes m T) }

theorem looked_sel (w : View) (m : Mask) (T : Nat → Int) : (w.looked m T).sel = w.sel := by
  obtain ⟨hpc, hmask⟩ := installQuiet_sameIssue w .fetch (w.targetBytes m T)
  simp only [View.looked, View.sel, hpc, hmask]

theorem looked_pcOffset (w : View) (m : Mask) (T : Nat → Int) : (w.looked m T).pcOffset = w.pcOffset := by
  simp only [View.looked, View.pcOffset, (installQuiet_sameIssue w .fetch (w.targetBytes m T)).1]

section
variable {w : View} {land : Bool} {T : Int}

/-- A direct target in the text on an instruction is good. -/
theorem branchCheck_direct (hT : w.tm.badOffset T = false) : w.branchCheck false land T = .go := by simp [View.branchCheck, hT]

/-- An indirect one whose word is fetched, and is LAND where that is needed, is good too. -/
theorem branchCheck_indirect {x : BitVec 96} (hT : w.tm.badOffset T = false) (hx : w.fetchQuiet (w.tm.at_ T) = some x)
    (hland : land = true → opcOf x = 0x105) : w.branchCheck true land T = .go := by
  cases land <;> simp_all [View.branchCheck]

theorem badOffset_of_inText {tm : Team} (h : 0 ≤ T ∧ T < tm.textSize ∧ T % 12 = 0) : tm.badOffset T = false := by
  obtain ⟨h0, hsize, hmod⟩ := h
  simp [Team.badOffset, h0, hsize, hmod]
end

/-! The group that moves. -/

/-- A group's core depends on its threads up to their latches. -/
theorem mapThreads_core {g : Group} {f f' : Nat → Thread → Thread} (h : ∀ k th, (f k th).bare = (f' k th).bare) :
    (g.mapThreads f).core = (g.mapThreads f').core := by
  have hbare : (g.threads.mapIdx f).map Thread.bare = (g.threads.mapIdx f').map Thread.bare :=
    List.ext_getElem (by simp) fun k _ _ => by simp [h]
  simp only [Group.mapThreads, Group.core, hbare]

theorem clearMarks_core (g : Group) (file : MarkFile) (m : Mask) (b r : Nat) : (g.clearMarks file m b r).core = g.core := by
  obtain ⟨ms, so, e⟩ := clearMarks_spec g file m b r
  rw [e]
  rfl

/-- The link of a call, if it is one (R145). -/
def Thread.linked (link : Option (BitVec 8)) (ret : Int) (th : Thread) : Thread :=
  match link with
  | some n => th.setV n.toNat (BitVec.ofInt 32 ret)
  | none => th

/-- A thread of the view's group after a branch of the threads of m, whose targets are T. -/
def View.branchThread (w : View) (srcs : List SrcUse) (m : Mask) (link : Option (BitVec 8)) (T : Nat → Int) (k : Nat) (th : Thread) : Thread :=
  if inMask m k then { (releaseV srcs th).linked link (w.pcOffset + 12) with pc := w.tm.at_ (T k) }
  else if inMask w.sel k then { th with pc := th.pc + 12 } else th

/-- The view's group after a branch whose threads all have good targets. -/
def View.branched (w : View) (srcs : List SrcUse) (m : Mask) (link : Option (BitVec 8)) (T : Nat → Int) : Group :=
  (releaseS srcs w.g).mapThreads (w.branchThread srcs m link T)

theorem branched_eq (w : View) (srcs : List SrcUse) (m : Mask) (link : Option (BitVec 8)) (T : Nat → Int) :
    w.branched srcs m link T = { w.g.mapThreads (w.branchThread srcs m link T) with s := (releaseS srcs w.g).s } := by
  obtain ⟨⟨sr, e⟩, -⟩ := releaseS_spec srcs w.g
  rw [View.branched, e]
  rfl

theorem maskOf_all {m : Mask} {p : Nat → Bool} (h : ∀ k, inMask m k = true → p k = true) : (maskOf fun k => inMask m k && p k) = m := by
  refine BitVec.eq_of_getLsbD_eq fun k hk => ?_
  show inMask _ k = inMask m k
  rw [inMask_maskOf, decide_eq_true hk, Bool.true_and]
  cases hm : inMask m k with
  | true => simp [h k hm]
  | false => rfl

theorem maskOf_none {m : Mask} {p : Nat → Bool} (h : ∀ k, inMask m k = true → p k = false) : (maskOf fun k => inMask m k && p k) = 0 := by
  refine (mask_eq_zero_iff _).2 fun k hk => ?_
  rw [inMask_maskOf]
  cases hm : inMask m k with
  | true => simp [h k hm]
  | false => simp

/-- The return address as a link register takes it. -/
theorem ofNat_ret (w : View) : BitVec.ofNat 32 (w.pcOffset + 12).toNat = BitVec.ofInt 32 (w.pcOffset + 12) := by
  have hpos : 0 ≤ w.pcOffset + 12 := by unfold View.pcOffset; omega
  rw [← BitVec.ofInt_natCast, Int.toNat_of_nonneg hpos]

section
variable {i : Instr} {s : State} {w : View} {m : Mask} {link : Option (BitVec 8)} {indirect land : Bool} {target : View → Nat → Int}
  {T : Nat → Int}

/-- A branch that waits for no held request and whose threads all have good targets moves them. -/
theorem branchOp_moves (h : Issues i s w m) (he : exec i s = branchOp i s link indirect land target)
    (hfree : indirect = true → w.walkBehind .fetch (w.targetBytes m T) = false) (hT : target w = T)
    (hlooked : indirect = true → target (w.looked m T) = T)
    (hgood : ∀ k, inMask m k = true → View.branchCheck (if indirect then w.looked m T else w) indirect land (T k) = .go) :
    ∃ t, exec i s = .next t ∧ Leaves (if indirect then w.looked m T else w).s w.u t (w.branched i.uses.srcs m link T) := by
  have hnowait : (indirect && w.walkBehind .fetch (w.targetBytes m (target w))) = false := by
    rw [hT]
    cases indirect
    · rfl
    · exact hfree rfl
  rw [he, branchOp, issue_runs h]
  dsimp only
  rw [hnowait, if_neg Bool.false_ne_true, hT]
  have hw1 : ∃ w1 : View, w1 = (if indirect then w.looked m T else w) ∧ target w1 = T ∧ w1.sel = w.sel ∧ w1.pcOffset = w.pcOffset
      ∧ w1.u = w.u ∧ w1.g = w.g ∧ w1.tm = w.tm := by
    cases indirect
    · exact ⟨w, rfl, hT, rfl, rfl, rfl, rfl, rfl⟩
    · exact ⟨w.looked m T, rfl, hlooked rfl, looked_sel .., looked_pcOffset .., rfl, rfl, rfl⟩
  obtain ⟨w1, e1, hT1, hsel, hpc, hu, hg, htm⟩ := hw1
  rw [← e1] at hgood ⊢
  rw [show (if indirect = true then { w with s := w.installQuiet .fetch (w.targetBytes m T) } else w) = w1 from e1.symm, hT1]
  have hbad : (maskOf fun t => inMask m t && w1.branchCheck indirect land (T t) != .go) = 0 :=
    maskOf_none fun k hk => by simp [hgood k hk]
  have hall : (maskOf fun t => inMask m t && w1.branchCheck indirect land (T t) == .go) = m :=
    maskOf_all fun k hk => by simp [hgood k hk]
  rw [hbad, hall, if_pos rfl, if_pos rfl, ← hu]
  refine ⟨_, rfl, (tracked_leaves w1 ..).of_core ?_⟩
  rw [hg, hpc, hsel, htm]
  simp only [LaneOut.bits, ofNat_ret w]
  cases link
  case' some n => refine (clearMarks_core ..).trans ?_
  all_goals
    refine mapThreads_core fun k th => ?_
    unfold View.branchThread
    by_cases hk : inMask m k = true
    · rw [if_pos hk, if_pos hk]
      rfl
    · rw [if_neg hk, if_neg hk, Bool.eq_false_iff.2 hk, Bool.not_false, Bool.and_true]
      rfl
end

section
variable {i : Instr} {s : State} {w : View} {m : Mask} {link : Option (BitVec 8)} {land : Bool} (h : Issues i s w m)
include h

/-- A direct branch to an instruction of the text. -/
theorem directBranch_moves {T : Int} {target : View → Nat → Int} (he : exec i s = branchOp i s link false land target)
    (hT : target w = fun _ => T) (hgood : 0 ≤ T ∧ T < w.tm.textSize ∧ T % 12 = 0) :
    ∃ t, exec i s = .next t ∧ Leaves w.s w.u t
      { w.g.mapThreads (w.branchThread i.uses.srcs m link fun _ => T) with s := (releaseS i.uses.srcs w.g).s } := by
  rw [← branched_eq]
  exact branchOp_moves h he nofun hT nofun fun _ _ => branchCheck_direct (badOffset_of_inText hgood)

/-- An indirect branch whose threads' targets are instructions of the text that can be fetched. -/
theorem indirectBranch_moves {a : Src} (he : exec i s = branchOp i s link true land fun w k => w.n32 a k)
    (hfree : w.walkBehind .fetch (w.targetBytes m fun k => w.n32 a k) = false)
    (hgood : ∀ k, inMask m k = true → (0 ≤ (w.n32 a k : Int) ∧ (w.n32 a k : Int) < w.tm.textSize ∧ (w.n32 a k : Int) % 12 = 0)
      ∧ ∃ b, (w.looked m fun k => w.n32 a k).fetchQuiet (w.tm.at_ (w.n32 a k)) = some b ∧ (land = true → opcOf b = 0x105)) :
    ∃ t, exec i s = .next t ∧ Leaves (w.looked m fun k => w.n32 a k).s w.u t
      { w.g.mapThreads (w.branchThread i.uses.srcs m link fun k => w.n32 a k) with s := (releaseS i.uses.srcs w.g).s } := by
  rw [← branched_eq]
  refine branchOp_moves h he (fun _ => hfree) rfl (fun _ => rfl) fun k hk => ?_
  obtain ⟨hT, b, hb, hland⟩ := hgood k hk
  exact branchCheck_indirect (badOffset_of_inText hT) hb hland
end

theorem exec_brx_eq (x : SrcF) (s : State) : exec (.brx x) s = branchOp (.brx x) s none true true fun w k => w.n32 x.a k := rfl
theorem exec_callx_eq (x : CallxF) (s : State) : exec (.callx x) s = branchOp (.callx x) s (some x.d) true true fun w k => w.n32 x.a k := rfl
theorem exec_ret_eq (x : SrcF) (s : State) : exec (.ret x) s = branchOp (.ret x) s none true false fun w k => w.n32 x.a k := rfl

/-- Settles O8: each form is a branch whose threads all move (`directBranch_moves`, `indirectBranch_moves`); LAND and NOP move on alone. -/
theorem branches : Obligations.Branches := by
  intro s w m
  refine ⟨fun x h hT => directBranch_moves h (exec_bra x s) rfl hT, fun x h hT => directBranch_moves h (exec_call x s) rfl hT,
    fun x h hfree hgood => ?_, fun x h hfree hgood => ?_, fun x h hfree hgood => ?_,
    fun x h => groupForm_leaves h (exec_land x s), fun x h => groupForm_leaves h (exec_nop x s)⟩
  · have hmoves := indirectBranch_moves h (exec_brx_eq x s) hfree
    exact hmoves fun k hk => (hgood k hk).imp_right fun ⟨b, hb, hland⟩ => ⟨b, hb, fun _ => hland⟩
  · have hmoves := indirectBranch_moves h (exec_callx_eq x s) hfree
    exact hmoves fun k hk => (hgood k hk).imp_right fun ⟨b, hb, hland⟩ => ⟨b, hb, fun _ => hland⟩
  · have hmoves := indirectBranch_moves h (exec_ret_eq x s) hfree
    exact hmoves fun k hk => (hgood k hk).imp_right fun ⟨b, hb⟩ => ⟨b, hb, nofun⟩

end Sys2Proof.Machine

/-! ## Sections, votes, shuffles, reductions, scans and matches (R156 to R162) -/

namespace Sys2Proof.Machine

/-! Participants (R158). -/

section
variable {g : Group} {m : Mask} {k j : Nat}

theorem participants_eq (g : Group) (m : Mask) (k : Nat) :
    participants g m k = (List.range 32).filter fun j => inMask m j && j / 2 ^ g.part.toNat == k / 2 ^ g.part.toNat := by
  rw [participants, threadsOf, List.filter_filter]
  exact List.filter_congr fun _ _ => Bool.and_comm ..

theorem participants_sorted (g : Group) (m : Mask) (k : Nat) : (participants g m k).Pairwise (· < ·) :=
  (List.pairwise_lt_range.filter _).filter _

/-- An active thread takes part in its own section. -/
theorem mem_participants_self (h : inMask m k = true) : k ∈ participants g m k := by
  simp [participants, mem_threadsOf, h, inMask_lt h]

/-- The head of a rising list is its least element. -/
theorem head?_eq_some_iff_least {l : List Nat} (h : l.Pairwise (· < ·)) : l.head? = some k ↔ k ∈ l ∧ ∀ j ∈ l, k ≤ j := by
  cases l with
  | nil => simp
  | cons a l =>
    obtain ⟨ha, -⟩ := List.pairwise_cons.1 h
    rw [List.head?_cons, Option.some.injEq]
    refine ⟨?_, fun ⟨hk, hle⟩ => le_antisymm ?_ (hle a List.mem_cons_self)⟩
    · rintro rfl
      exact ⟨List.mem_cons_self, fun j hj => (List.mem_cons.1 hj).elim (fun e => e.ge) fun hj => (ha j hj).le⟩
    · exact (List.mem_cons.1 hk).elim (fun e => e.ge) fun hk => (ha k hk).le
end

/-! VOTE, MATCH, SHFL (R159, R160, R162). -/

/-- A predicate is the same in all threads of a list. -/
theorem all_or_none_iff (l : List Nat) (q : Nat → Bool) : (l.all q || l.all fun j => !q j) = true ↔ ∀ i ∈ l, ∀ j ∈ l, q i = q j := by
  rw [Bool.or_eq_true, List.all_eq_true, List.all_eq_true]
  constructor
  · rintro (h | h) i hi j hj
    · rw [h i hi, h j hj]
    · simpa using (h i hi).trans (h j hj).symm
  · intro h
    by_cases hq : ∃ i ∈ l, q i = true
    · obtain ⟨i, hi, hqi⟩ := hq
      exact .inl fun j hj => (h i hi j hj).symm.trans hqi
    · exact .inr fun j hj => by simpa using fun hqj => hq ⟨j, hj, hqj⟩

/-- A mask as a result: bit j says that thread j is in the list. -/
theorem maskList_bits (l : List Nat) {b : Nat → Bool} (hb : ∀ j, l.contains j = b j) : BitsAre 32 b (.bits (maskList l).toNat) := by
  refine ⟨BitVec.isLt _, fun j hj => ?_⟩
  rw [LaneOut.bits, BitVec.testBit_toNat, ← hb]
  exact (inMask_maskOf ..).trans (by rw [decide_eq_true hj, Bool.true_and])

theorem contains_filter (l : List Nat) (q : Nat → Bool) (j : Nat) : (l.filter q).contains j = (l.contains j && q j) := by
  rw [Bool.eq_iff_iff]
  simp

/-- The thread that SHFL names for thread k (R160). -/
def shflPlace (mode : ShflMode) (sec k n : Nat) : Int :=
  match mode with
  | .idx => (k / sec * sec + n % sec : Nat)
  | .up => (k : Int) - n
  | .down => k + n
  | .xor => (k ^^^ (n % sec) : Nat)

section
variable {mode : ShflMode} {sec k n : Nat}

/-- A place in the section is the thread that SHFL reads. -/
theorem shflFrom_inside (h : (k / sec * sec : Nat) ≤ shflPlace mode sec k n ∧ shflPlace mode sec k n < (k / sec * sec : Nat) + sec) :
    shflFrom mode sec (k / sec * sec) k n = some (shflPlace mode sec k n).toNat := by
  cases mode <;> simp only [shflFrom, shflPlace] at h ⊢
  case idx => rw [Int.toNat_natCast]
  case xor => rw [Int.toNat_natCast]
  case up => rw [if_pos (by omega), Int.toNat_sub]
  case down => rw [if_pos (by omega), ← Int.natCast_add, Int.toNat_natCast]

/-- Outside of it SHFL reads no thread; an index and an exclusive or stay inside. -/
theorem shflFrom_outside {p : Nat} (hsec : sec = 2 ^ p)
    (h : ¬((k / sec * sec : Nat) ≤ shflPlace mode sec k n ∧ shflPlace mode sec k n < (k / sec * sec : Nat) + sec)) :
    shflFrom mode sec (k / sec * sec) k n = none := by
  have hpos : 0 < sec := hsec ▸ Nat.two_pow_pos p
  have hn : n % sec < sec := Nat.mod_lt _ hpos
  have hle : k / sec * sec ≤ k := Nat.div_mul_le_self ..
  cases mode <;> simp only [shflFrom, shflPlace] at h ⊢
  case idx => exact absurd h (by omega)
  case xor =>
    have hx : (k ^^^ (n % sec)) / sec = k / sec := by rw [hsec, Nat.xor_div_two_pow, ← hsec, Nat.div_eq_of_lt hn, Nat.xor_zero]
    have hxle : k / sec * sec ≤ k ^^^ (n % sec) := hx ▸ Nat.div_mul_le_self ..
    have hxlt : (k ^^^ (n % sec)) < k / sec * sec + sec := hx ▸ Nat.lt_div_mul_add hpos
    exact absurd h (by omega)
  case up =>
    have hlt : k < k / sec * sec + sec := Nat.lt_div_mul_add hpos
    rw [if_neg (by omega)]
  case down => rw [if_neg (by omega)]
end

/-! REDUX and SCAN (R161). -/

/-- One step of a reduction of a and b gives what R161 says. -/
def StepOf (op : RedOp) (ty : Ty) (a b : Nat) (o : LaneOut) : Prop :=
  if ty = .f32 then
    match op with
    | .min => ChosenOf .f32 false false false a b o
    | .max => ChosenOf .f32 false false true a b o
    | _ => NanFirst .f32 [a, b] o (SumOf .f32 ⟨false, .rne, false⟩ (decodeF .f32 false a) (decodeF .f32 false b) o)
  else o.fl = 0 ∧ match op with
    | .add => o.d = (a + b) % 2 ^ ty.width
    | .min => (o.d = a ∨ o.d = b) ∧ intOf ty o.d = min (intOf ty a) (intOf ty b)
    | .max => (o.d = a ∨ o.d = b) ∧ intOf ty o.d = max (intOf ty a) (intOf ty b)
    | .and => ∀ i, o.d.testBit i = (a.testBit i && b.testBit i)
    | .or => ∀ i, o.d.testBit i = (a.testBit i || b.testBit i)
    | .xor => ∀ i, o.d.testBit i = (a.testBit i ^^ b.testBit i)

theorem redStep_f32 (op : RedOp) (a b : Nat) : StepOf op .f32 a b (.float (redStep op .f32 a b)) := by
  unfold StepOf
  rw [if_pos rfl]
  cases op
  case min => exact minmaxBits_chosenOf rfl
  case max => exact minmaxBits_chosenOf rfl
  all_goals exact addBits_meets rfl

theorem redStep_int {ty : Ty} (h : ty ≠ .f32) (op : RedOp) (a b : Nat) : StepOf op ty a b (.float (redStep op ty a b)) := by
  unfold StepOf redStep
  rw [if_neg h, if_neg (by simpa using h)]
  cases op
  case add => exact ⟨rfl, rfl⟩
  case min =>
    obtain hle | hle := le_or_gt (intOf ty a) (intOf ty b)
    · simp [LaneOut.float, hle]
    · simp [LaneOut.float, hle.le, not_le.2 hle]
  case max =>
    obtain hle | hle := le_or_gt (intOf ty b) (intOf ty a)
    · simp [LaneOut.float, hle]
    · simp [LaneOut.float, hle.le, not_le.2 hle]
  case and => exact ⟨rfl, fun i => Nat.testBit_and ..⟩
  case or => exact ⟨rfl, fun i => Nat.testBit_or ..⟩
  case xor => exact ⟨rfl, fun i => Nat.testBit_xor ..⟩

theorem redStep_stepOf (op : RedOp) (ty : Ty) (a b : Nat) : StepOf op ty a b (.float (redStep op ty a b)) := by
  by_cases h : ty = .f32
  · exact h ▸ redStep_f32 op a b
  · exact redStep_int h op a b

/-- The partial results of R161 over the values v(0), v(1), …, each with the exceptions of its own step. -/
def redPartial (op : RedOp) (ty : Ty) (v : Nat → Nat) : Nat → LaneOut
  | 0 => .bits (v 0)
  | i + 1 => .float (redStep op ty (redPartial op ty v i).d (v (i + 1)))

theorem redPartial_succ (op : RedOp) (ty : Ty) (v : Nat → Nat) (i : Nat) :
    redPartial op ty v (i + 1) = .float (redStep op ty (redPartial op ty v i).d (v (i + 1))) := rfl

/-- The exceptions of the first n partial results. -/
def raisedBy (x : Nat → LaneOut) (n : Nat) : Flags := (List.range n).foldl (fun fl i => fl ||| (x i).fl) 0

theorem raisedBy_succ (x : Nat → LaneOut) (n : Nat) : raisedBy x (n + 1) = raisedBy x n ||| (x n).fl := by
  simp [raisedBy, List.range_succ]

/-- Each entry of the model's run is a step from the one before it. -/
theorem redFrom_step {op : RedOp} {ty : Ty} {bs : List Nat} {acc p : Nat × Flags} {i b : Nat}
    (hp : (acc :: redRun.redFrom op ty acc bs)[i]? = some p) (hb : bs[i]? = some b) :
    (acc :: redRun.redFrom op ty acc bs)[i + 1]? = some ((redStep op ty p.1 b).1, p.2 ||| (redStep op ty p.1 b).2) := by
  induction bs generalizing acc i with
  | nil => simp at hb
  | cons c bs ih =>
    cases i with
    | zero =>
      obtain rfl : acc = p := by simpa using hp
      obtain rfl : c = b := by simpa using hb
      rfl
    | succ i => exact ih (by simpa [redRun.redFrom] using hp) (by simpa using hb)

/-- Entry i of the model's run is partial result i, with the exceptions up to it. -/
theorem redRun_getElem? (op : RedOp) (ty : Ty) {l : List Nat} {v : Nat → Nat} (hv : ∀ i, i < l.length → l[i]? = some (v i)) {i : Nat}
    (hi : i < l.length) : (redRun op ty l)[i]? = some ((redPartial op ty v i).d, raisedBy (redPartial op ty v) (i + 1)) := by
  cases l with
  | nil => simp at hi
  | cons a as =>
    induction i with
    | zero =>
      obtain rfl : a = v 0 := by simpa using hv 0 hi
      simp [redRun, raisedBy, redPartial, LaneOut.bits]
    | succ i ih =>
      rw [raisedBy_succ, redPartial_succ]
      have hb : as[i]? = some (v (i + 1)) := by simpa using hv (i + 1) hi
      have hstep := redFrom_step (ih (by omega)) hb
      exact hstep

theorem redRun_length (op : RedOp) (ty : Ty) (l : List Nat) : (redRun op ty l).length = l.length := by
  have hfrom : ∀ (bs : List Nat) (acc : Nat × Flags), (redRun.redFrom op ty acc bs).length = bs.length := by
    intro bs
    induction bs with
    | nil => exact fun _ => rfl
    | cons b bs ih => exact fun acc => congrArg Nat.succ (ih _)
  cases l with
  | nil => rfl
  | cons a as => exact congrArg Nat.succ (hfrom as _)

theorem width_pos (t : Ty) : 0 < t.width := by cases t <;> decide

section
variable {w : View} {m : Mask} {op : RedOp} {ty : Ty} {a : Src} {k : Nat}

/-- The partial results of a section's participants. -/
def View.sectionPartial (w : View) (m : Mask) (op : RedOp) (ty : Ty) (a : Src) (k : Nat) : Nat → LaneOut :=
  redPartial op ty fun i => w.rd ty a ((participants w.g m k).getD i 0)

theorem sectionPartial_step (i : Nat) : StepOf op ty (w.sectionPartial m op ty a k i).d (w.rd ty a ((participants w.g m k).getD (i + 1) 0))
    (w.sectionPartial m op ty a k (i + 1)) := redStep_stepOf ..

theorem sectionRun_getElem? {i : Nat} (hi : i < (participants w.g m k).length) : (sectionRun w m op ty a k)[i]?
    = some ((w.sectionPartial m op ty a k i).d, raisedBy (w.sectionPartial m op ty a k) (i + 1)) := by
  refine redRun_getElem? op ty (fun i hi => ?_) (by simpa using hi)
  have hlt : i < (participants w.g m k).length := by simpa using hi
  simp [hlt]

/-- An entry of the run as SCAN reads it. -/
theorem sectionRun_getD {i : Nat} (hi : i < (participants w.g m k).length) :
    ((sectionRun w m op ty a k).getD i (0, 0)).1 = (w.sectionPartial m op ty a k i).d := by
  rw [List.getD_eq_getElem?_getD, sectionRun_getElem? hi, Option.getD_some]

/-- The last entry of the run of a thread's section. -/
theorem sectionRun_getLastD (hk : inMask m k = true) : (sectionRun w m op ty a k).getLastD (0, 0)
    = ((w.sectionPartial m op ty a k ((participants w.g m k).length - 1)).d,
       raisedBy (w.sectionPartial m op ty a k) (participants w.g m k).length) := by
  have hpos : 0 < (participants w.g m k).length := List.length_pos_of_mem (mem_participants_self hk)
  have hlen : (sectionRun w m op ty a k).length = (participants w.g m k).length := by simp [sectionRun, redRun_length]
  rw [List.getLastD_eq_getLast?, List.getLast?_eq_getElem?, hlen, sectionRun_getElem? (by omega), Option.getD_some,
    Nat.sub_add_cancel hpos]
end

/-- The identity of an exclusive scan (R161). -/
theorem redIdentity_spec (op : RedOp) (ty : Ty) : match op with
    | .min => if ty = .f32 then redIdentity op ty = 0x7F800000 else intOf ty (redIdentity op ty) = intMax ty
    | .max => if ty = .f32 then redIdentity op ty = 0xFF800000 else intOf ty (redIdentity op ty) = intMin ty
    | .and => redIdentity op ty = 2 ^ ty.width - 1
    | _ => redIdentity op ty = 0 := by
  cases op <;> dsimp only
  case min =>
    split
    next h => subst h; rfl
    next h => simpa [redIdentity, h] using intOf_wrap ty _ (width_pos ty) (intMin_le_intMax ty) le_rfl
  case max =>
    split
    next h => subst h; rfl
    next h => simpa [redIdentity, h] using intOf_wrap ty _ (width_pos ty) le_rfl (intMin_le_intMax ty)
  all_goals rfl

/-- What SHFL gives thread k. -/
def View.shflOut (w : View) (m : Mask) (x : Shfl) (k : Nat) : LaneOut :=
  match shflFrom x.mode w.g.section (w.g.sectionBase k) k (w.n32 x.b k) with
  | some j => if inMask m j then { d := w.rd x.ty x.a j, p := true } else .bits (w.rd x.ty x.a k)
  | none => .bits (w.rd x.ty x.a k)

theorem exec_shfl_eq (x : Shfl) (s : State) : exec (.shfl x) s = laneOp (.shfl x) s false fun w m => w.shflOut m x := rfl

/-- It is the value of the place where that is an active thread of the section, else its own (R160). -/
theorem shfl_meets (w : View) (m : Mask) (x : Shfl) (k : Nat) :
    let sec := 2 ^ w.g.part.toNat
    let j := shflPlace x.mode sec k (w.n32 x.b k)
    if (k / sec * sec : Nat) ≤ j ∧ j < (k / sec * sec : Nat) + sec ∧ inMask m j.toNat = true then
      (w.shflOut m x k).d = w.rd x.ty x.a j.toNat ∧ (w.shflOut m x k).p = true
    else (w.shflOut m x k).d = w.rd x.ty x.a k ∧ (w.shflOut m x k).p = false := by
  intro sec j
  by_cases hin : (k / sec * sec : Nat) ≤ j ∧ j < (k / sec * sec : Nat) + sec
  · have ho : w.shflOut m x k = if inMask m j.toNat then { d := w.rd x.ty x.a j.toNat, p := true } else LaneOut.bits (w.rd x.ty x.a k) := by
      have hfrom : shflFrom x.mode w.g.section (w.g.sectionBase k) k (w.n32 x.b k) = some j.toNat := shflFrom_inside hin
      simp only [View.shflOut, hfrom]
    rw [ho]
    by_cases hj : inMask m j.toNat = true
    · rw [if_pos ⟨hin.1, hin.2, hj⟩, if_pos hj]
      exact ⟨rfl, rfl⟩
    · rw [if_neg fun h => hj h.2.2, if_neg hj]
      exact ⟨rfl, rfl⟩
  · have hfrom : shflFrom x.mode w.g.section (w.g.sectionBase k) k (w.n32 x.b k) = none := shflFrom_outside rfl hin
    have ho : w.shflOut m x k = .bits (w.rd x.ty x.a k) := by simp only [View.shflOut, hfrom]
    rw [ho, if_neg fun h => hin ⟨h.1, h.2.1⟩]
    exact ⟨rfl, rfl⟩

/-- What SCAN gives thread k. -/
def View.scanOut (w : View) (m : Mask) (x : Scan) (k : Nat) : LaneOut :=
  let run := sectionRun w m x.op x.ty x.a k
  let i := (participants w.g m k).idxOf k
  let all := (run.getLastD (0, 0)).2
  if x.excl then { d := if i = 0 then redIdentity x.op x.ty else (run.getD (i - 1) (0, 0)).1, fl := all }
  else { d := (run.getD i (0, 0)).1, fl := all }

theorem exec_scan_eq (x : Scan) (s : State) : exec (.scan x) s = laneOp (.scan x) s x.ty.sfill fun w m => w.scanOut m x := rfl

/-- It is the partial result at the thread's own place, or at the place before it, with every exception of the section (R161). -/
theorem scanOut_eq {w : View} {m : Mask} {k : Nat} (x : Scan) (hk : inMask m k = true) :
    let i := (participants w.g m k).idxOf k
    let r := w.sectionPartial m x.op x.ty x.a k
    w.scanOut m x k = { d := if x.excl then if i = 0 then redIdentity x.op x.ty else (r (i - 1)).d else (r i).d,
                        fl := raisedBy r (participants w.g m k).length } := by
  intro i r
  have hi : i < (participants w.g m k).length := List.idxOf_lt_length_of_mem (mem_participants_self hk)
  have hat : ∀ n ≤ i, ((sectionRun w m x.op x.ty x.a k).getD n (0, 0)).1 = (r n).d := fun n hn => sectionRun_getD (hn.trans_lt hi)
  have hlast := sectionRun_getLastD (w := w) (op := x.op) (ty := x.ty) (a := x.a) hk
  dsimp only [View.scanOut]
  rw [hlast, hat _ le_rfl, hat _ (Nat.sub_le _ _)]
  cases x.excl <;> rfl

/-- Settles O7: each form goes by the lane, and R160 to R162 say what its lanes give: `shfl_meets` of a shuffle's place, `sectionRun_getLastD`
and `scanOut_eq` of the partial results, `maskList_bits` of the masks, `head?_eq_some_iff_least` of the lowest participant. -/
theorem crossThreadForms : Obligations.CrossThreadForms := by
  intro s w m sec P val combines runs raised
  have hP : participants w.g m = P := funext fun k => participants_eq w.g m k
  refine ⟨fun x h => groupForm_leaves h (exec_part x s), fun x h => doesSome_of h (exec_vote x s) fun k _ => ?vote,
    fun x h => doesSome_of h (exec_shfl_eq x s) fun k _ => shfl_meets w m x k, fun x h => laneOp_rounds h _ _ (exec_redux x s) fun k _ hk => ?redux,
    fun x h => laneOp_rounds h _ _ (exec_scan_eq x s) fun k _ hk => ?scan, fun x h => doesSome_of h (exec_match x s) fun k _ => ?match_,
    fun x h => doesSome_of h (exec_elect x s) fun k _ => ?elect, fun x h => doesSome_of h (exec_bcast x s) fun k _ j hj hleast => ?bcast⟩
  case vote =>
    intro q
    dsimp only
    rw [hP]
    cases x.mode
    case all => exact List.all_eq_true
    case any => exact List.any_eq_true
    case uni => exact all_or_none_iff (P k) q
    case ballot => exact maskList_bits _ (contains_filter (P k) q)
  case redux =>
    have hlast := sectionRun_getLastD (w := w) (op := x.op) (ty := x.ty) (a := x.a) hk
    rw [hlast]
    dsimp only [runs, raised]
    rw [← hP]
    exact ⟨w.sectionPartial m x.op x.ty x.a k, ⟨rfl, rfl, fun i _ => sectionPartial_step i⟩, rfl, rfl⟩
  case scan =>
    rw [scanOut_eq x hk, hP]
    refine ⟨w.sectionPartial m x.op x.ty x.a k, ⟨by rw [← hP]; rfl, rfl, fun i _ => by rw [← hP]; exact sectionPartial_step i⟩, rfl, ?_, ?_, ?_⟩
    · intro he
      simp only [he, Bool.false_eq_true, if_false]
    · intro he hi
      simp only [he, hi, if_true, if_false]
    · intro he hi
      simp only [he, hi, if_true]
      exact redIdentity_spec x.op x.ty
  case match_ =>
    rw [hP]
    exact maskList_bits _ (contains_filter (P k) _)
  case elect =>
    rw [hP, LaneOut.pred, beq_iff_eq]
    exact head?_eq_some_iff_least (hP ▸ participants_sorted w.g m k)
  case bcast =>
    have hhead := (head?_eq_some_iff_least (hP ▸ participants_sorted w.g m k)).2 ⟨hj, hleast⟩
    rw [hP, List.headD_eq_head?_getD, hhead]
    rfl

end Sys2Proof.Machine

/-! ## Traps of branches: what the statement leaves out (R400) -/

namespace Sys2Proof.Machine

/-- An indirect branch whose check of targets walks behind a held request does nothing but wait (R400). -/
theorem brx_waits {x : SrcF} {s : State} {w : View} {m : Mask} (h : Issues (.brx x) s w m)
    (hwalk : w.walkBehind .fetch (w.targetBytes m fun k => w.n32 x.a k) = true) : exec (.brx x) s = .next (w.hold .again) := by
  rw [exec_brx, execBrx, branchOp, issue_runs h]
  simp only [hwalk, Bool.and_self, if_true]

/-- A held group's teams are as they were. -/
theorem hold_teams (w : View) (how : HoldKind) : (w.hold how).teams = w.s.teams := rfl

/-- Without a usable handler a trap that is taken halts the team (R331, R336). -/
theorem TrapTaken.team_halted {w : View} {g : Group} {code tinfo : Nat} {mask : Mask} {epc : W64} {t : State}
    (h : TrapTaken w g code mask epc tinfo t) (hno : w.handlerOffset = none) :
    look t.teams g.team = (look w.s.teams g.team).map fun tm : Team => { tm with run := .halted } := by
  unfold TrapTaken at h
  rw [hno] at h
  exact h.2.2.1

/-- BRX to offset 0 of the text. -/
def branchHome : SrcF := { ctl := ⟨⟨false, 7⟩, ⟨0, false, 7, 0⟩⟩, a := .zero }

/-- It stands at address 0; no TLB holds the text's translation, and a request to the line of the root table waits at its home. -/
def behindHeld : State :=
  { (State.reset.withFetchWord 96 (encode (.brx branchHome)).toNat).at_ 0 0 with
    tlb1 := [], held := [(0, { dev := none, pa := 0, n := 8, op := .load 0 })] }

/-- What BRX sees there. -/
def behindView : View := { s := behindHeld, u := 0, g := fetchGroup, tm := (look behindHeld.teams 0).getD {}, cx := { priv := .hyp } }

theorem branchHome_issues : Issues (.brx branchHome) behindHeld behindView (BitVec.allOnes 32) := by decide

/-- The walk of its target waits, and the target is bad: the page tables are empty. -/
theorem branchHome_target :
    behindView.walkBehind .fetch (behindView.targetBytes (BitVec.allOnes 32) fun k => behindView.n32 branchHome.a k) = true
      ∧ behindView.branchCheck true true 0 = .bad := by decide

/-- Refutes O54: BRX to the text's first instruction, whose word no table translates, while a request to the line of the root table waits.
Every thread's target is bad by R145, but the walk that shows it comes after the request (R400): the group waits and no trap is
taken. -/
theorem not_branchAndAccessTraps : ¬ Obligations.BranchAndAccessTraps := by
  intro h
  obtain ⟨-, -, hbrx, -⟩ := h behindHeld behindView (BitVec.allOnes 32)
  obtain ⟨hwalk, hbad⟩ := branchHome_target
  obtain ⟨t, ht, htrap⟩ := hbrx branchHome (BitVec.allOnes 32) branchHome_issues (by decide) fun k =>
    ⟨fun hk => ⟨hk, fun hgo => BranchRes.noConfusion (hbad.symm.trans hgo)⟩, fun hk => hk.1⟩
  obtain rfl : behindView.hold .again = t := by simpa [brx_waits branchHome_issues hwalk] using ht
  have hteam := htrap.team_halted (by decide)
  rw [hold_teams] at hteam
  exact absurd hteam (by decide)

end Sys2Proof.Machine

/-! ## What an issue gives its group -/

namespace Sys2Proof.Machine

/-- What `LaneDone` says of the issuing group: `g'` is the view's group with the results `out`. -/
def View.Gives (w : View) (i : Instr) (m : Mask) (sx : Bool) (out : Nat → LaneOut) (g' : Group) : Prop :=
  g'.rest = w.g.rest
    ∧ g'.threads.length = w.g.threads.length
    ∧ (∀ k, k < w.g.threads.length →
        (g'.thread k).pc = (if inMask w.sel k then (w.g.thread k).pc + 12 else (w.g.thread k).pc)
        ∧ (g'.thread k).stat = (w.g.thread k).stat
        ∧ (g'.thread k).pausing = (w.g.thread k).pausing
        ∧ (g'.thread k).rctr = (if inMask m k then (w.g.thread k).rctr + BitVec.ofNat 64 (out k).draws else (w.g.thread k).rctr)
        ∧ (g'.thread k).fpc = (w.g.thread k).fpc ∧ (g'.thread k).fstat = (w.g.thread k).fstat
        ∧ (g'.thread k).fpausing = (w.g.thread k).fpausing ∧ (g'.thread k).fpreds = (w.g.thread k).fpreds
        ∧ (∀ n, (g'.thread k).vreg n =
            if inMask m k then vAfter i.uses (out k).d (w.g.thread k).vreg n else (w.g.thread k).vreg n)
        ∧ (∀ n, (g'.thread k).pred n =
            if inMask m k then predAfter i.uses (out k).p (w.g.thread k).pred n else (w.g.thread k).pred n))
    ∧ (∀ n, g'.sreg n = sAfter i.uses sx (out (lowest m)).d w.g.sreg n)
    ∧ (∀ n, g'.hreg n = hAfter i.uses (out (highest m)).d w.g.hreg n)

theorem laneDone_iff {i : Instr} {w : View} {m : Mask} {sx : Bool} {out : Nat → LaneOut} {t : State} :
    LaneDone i w m sx out t ↔ ∃ g', t = { w.s with groups := put w.s.groups w.u g' } ∧ w.Gives i m sx out g' := Iff.rfl

section
variable {i : Instr} {w : View} {m : Mask} {sx : Bool} {out : Nat → LaneOut}

theorem bare_of_core {g g' : Group} (h : g'.core = g.core) (k : Nat) : (g'.thread k).bare = (g.thread k).bare := by
  have := congrArg (fun l : List Thread => l.getD k (Thread.bare {})) (congrArg Group.threads h)
  simp only [Group.core, List.getD_map] at this
  exact this

theorem length_of_core {g g' : Group} (h : g'.core = g.core) : g'.threads.length = g.threads.length := by
  simpa [Group.core] using congrArg List.length (congrArg Group.threads h)

theorem rest_of_core {g g' : Group} (h : g'.core = g.core) : g'.rest = g.rest :=
  congrArg (fun x : Group => ({ x with threads := [], s := [], h := [] } : Group)) h

theorem core_sreg (g : Group) (n : Nat) : g.core.sreg n = g.sreg n := rfl
theorem core_hreg (g : Group) (n : Nat) : g.core.hreg n = g.hreg n := rfl

/-- What a group was given does not depend on what the issue stage keeps for itself. -/
theorem View.Gives.of_core {g g' : Group} (hg : w.Gives i m sx out g) (h : g'.core = g.core) : w.Gives i m sx out g' := by
  obtain ⟨hrest, hlen, hthreads, hs, hh⟩ := hg
  have hsreg : ∀ n, g'.sreg n = g.sreg n := fun n => by rw [← core_sreg, h, core_sreg]
  have hhreg : ∀ n, g'.hreg n = g.hreg n := fun n => by rw [← core_hreg, h, core_hreg]
  refine ⟨(rest_of_core h).trans hrest, (length_of_core h).trans hlen, fun k hk => ?_, fun n => (hsreg n).trans (hs n),
    fun n => (hhreg n).trans (hh n)⟩
  obtain ⟨c1, c2, c3, c4, c5, c6, c7, c8, c9, c10⟩ := hthreads k hk
  have f := fun {α : Type} (p : Thread → α) (hp : ∀ t : Thread, p t.bare = p t) =>
    (hp _).symm.trans ((congrArg p (bare_of_core h k)).trans (hp _))
  exact ⟨(f Thread.pc fun _ => rfl).trans c1, (f Thread.stat fun _ => rfl).trans c2, (f Thread.pausing fun _ => rfl).trans c3,
    (f Thread.rctr fun _ => rfl).trans c4, (f Thread.fpc fun _ => rfl).trans c5, (f Thread.fstat fun _ => rfl).trans c6,
    (f Thread.fpausing fun _ => rfl).trans c7, (f Thread.fpreds fun _ => rfl).trans c8,
    fun n => (f (fun t => t.vreg n) fun _ => rfl).trans (c9 n), fun n => (f (fun t => t.pred n) fun _ => rfl).trans (c10 n)⟩

/-- An issue that leaves a group with its results is a lane instruction's. -/
theorem View.Gives.done {g : Group} {t : State} (hg : w.Gives i m sx out g) (h : Leaves w.s w.u t g) : LaneDone i w m sx out t := by
  obtain ⟨g', ht, hcore⟩ := h
  exact ⟨g', ht, hg.of_core hcore⟩

theorem results_gives (i : Instr) (w : View) (m : Mask) (sx : Bool) (out : Nat → LaneOut) :
    w.Gives i m sx out (results i m w.sel sx out w.g) := by
  obtain ⟨⟨ths, sr, hr, ms, so, e, hlen⟩, ht, hs, hh⟩ := results_spec i m w.sel sx out w.g
  refine ⟨by rw [e]; rfl, by rw [e]; exact hlen, fun k hk => ?_, fun n => (hs n).trans ?_, fun n => (hh n).trans ?_⟩
  · rw [ht k hk]
    exact resultThread_spec i m w.sel out k (w.g.thread k)
  · unfold sAfter
    rcases i.uses.dst with _ | ⟨_ | _ | _ | _ | _ | _, r⟩ <;> rfl
  · unfold hAfter
    rcases i.uses.dst with _ | ⟨_ | _ | _ | _ | _ | _, r⟩ <;> rfl

/-- Two groups hold the same threads and registers. -/
def Group.SameRegs (a b : Group) : Prop := a.threads = b.threads ∧ a.s = b.s ∧ a.h = b.h

/-- What else is done to a group and its state beside the results does not touch them. -/
theorem View.Gives.beside {g : Group} (hg : w.Gives i m sx out g) {w' : View} {g' : Group} (hw : w'.g.SameRegs w.g)
    (hsel : w'.sel = w.sel) (hg' : g'.SameRegs g) (hrest : g'.rest = w'.g.rest) : w'.Gives i m sx out g' := by
  obtain ⟨w1, w2, w3⟩ := hw
  obtain ⟨g1, g2, g3⟩ := hg'
  obtain ⟨-, hlen, hthreads, hs, hh⟩ := hg
  refine ⟨hrest, by rw [g1, w1]; exact hlen, fun k hk => ?_, fun n => ?_, fun n => ?_⟩
  · rw [show g'.thread k = g.thread k by simp only [Group.thread, g1],
      show w'.g.thread k = w.g.thread k by simp only [Group.thread, w1], hsel]
    exact hthreads k (by rwa [w1] at hk)
  · rw [show g'.sreg n = g.sreg n by simp only [Group.sreg, g2], show w'.g.sreg = w.g.sreg by funext n; simp only [Group.sreg, w2]]
    exact hs n
  · rw [show g'.hreg n = g.hreg n by simp only [Group.hreg, g3], show w'.g.hreg = w.g.hreg by funext n; simp only [Group.hreg, w3]]
    exact hh n
end

end Sys2Proof.Machine

/-! ## Operand queues and team FIFOs (R190, R191, R198, R303) -/

namespace Sys2Proof.Machine

/-- Results written by the issue stage of a group w.g, which other parts of the group and of the state move beside. -/
theorem results_laneDone (i : Instr) {w w' : View} {m : Mask} {sx : Bool} {out : Nat → LaneOut} {g' : Group} {t : State}
    (hl : Leaves w'.s w'.u t g') (hw : w'.g.SameRegs w.g) (hsel : w'.sel = w.sel)
    (hg' : g'.SameRegs (results i m w.sel sx out w.g)) (hrest : g'.rest = w'.g.rest) : LaneDone i w' m sx out t :=
  ((results_gives i w m sx out).beside hw hsel hg' hrest).done hl

theorem Group.SameRegs.refl (g : Group) : g.SameRegs g := ⟨rfl, rfl, rfl⟩

/-- A queue without its oldest element: after the last one of an ended queue its channel is free. -/
def OpQueue.popped (q : OpQueue) (rest : List (List Nat × Mask)) : OpQueue :=
  { q with entries := rest, chan := if rest.isEmpty && q.ended then none else q.chan
           waits := q.waits && !(rest.isEmpty && q.ended) }

/-- A trap that a view's instruction raises in place of its effect is taken. -/
theorem trapHere_taken_of_team (w : View) (code : Nat) (mask : Mask) (tinfo : Nat) (h : (look w.s.teams w.g.team).isSome) :
    TrapTaken w w.g code mask w.pc64 tinfo (w.trapHere code mask tinfo) :=
  takeTrap_taken w { w.g with lastIssue := w.s.schedOf w.g + 1 } code mask w.pc64 tinfo h

section
variable {x : Qpop} {i : Instr} {s : State} {w : View} {m : Mask} (h : Issues i s w m) (pop : Bool)
include h

theorem queueOp_element {e : List Nat × Mask} {rest : List (List Nat × Mask)}
    (he : (rget {} w.g.queues x.n.toNat).entries = e :: rest) (queues : AList OpQueue)
    (hq : queues = if pop then put w.g.queues x.n.toNat ((rget {} w.g.queues x.n.toNat).popped rest) else w.g.queues) :
    ∃ t, queueOp i x pop s = .next t ∧ LaneDone i { w with g := { w.g with queues := queues } } m false
        (fun k => { d := e.1.getD k 0 % 2 ^ x.ty.width, p := true }) t := by
  have hout : (fun k => ({ d := e.1.getD k 0 % 2 ^ x.ty.width, p := true } : LaneOut)) = popOut x.ty fun k => some (e.1.getD k 0) := rfl
  rw [hout]
  unfold queueOp
  rw [issue_runs h]
  simp only [he]
  generalize popOut x.ty _ = out
  obtain ⟨⟨ths, sr, hr, ms, so, hres, -⟩, -⟩ := results_spec i m w.sel false out w.g
  subst hq
  refine ⟨_, rfl, results_laneDone (w := w) i (tracked_leaves ..) (.refl _) rfl ?_ ?_⟩
  · cases pop <;> exact .refl _
  · rw [hres]
    cases pop <;> rfl

/-- An ended queue without elements gives poison and a false predicate. -/
theorem queueOp_ended (he : (rget {} w.g.queues x.n.toNat).entries = []) (hstop : (rget {} w.g.queues x.n.toNat).stop = none)
    (hended : (rget {} w.g.queues x.n.toNat).ended = true) :
    ∃ t, queueOp i x pop s = .next t ∧ LaneDone i w m false
        (fun _ => { d := if x.ty.width = 64 then poison64.toNat else poison32.toNat, p := false }) t := by
  unfold queueOp
  rw [issue_runs h]
  simp only [he, hstop, hended]
  exact ⟨_, rfl, finish_done ..⟩

theorem queueOp_waits (he : (rget {} w.g.queues x.n.toNat).entries = []) (hstop : (rget {} w.g.queues x.n.toNat).stop = none)
    (hended : (rget {} w.g.queues x.n.toNat).ended = false) : ∃ t, queueOp i x pop s = .next t ∧ Holds w.s w.u t w.g := by
  unfold queueOp
  rw [issue_runs h]
  simp only [he, hstop, hended]
  exact ⟨_, rfl, hold_holds ..⟩

/-- The entry of a stream that a fault has stopped parks the group. -/
theorem queueOp_parks {r : FaultRec} {entry : Option Nat} (he : (rget {} w.g.queues x.n.toNat).entries = [])
    (hstop : (rget {} w.g.queues x.n.toNat).stop = some (.fault r entry)) :
    ∃ t g', queueOp i x pop s = .next t ∧ Leaves w.s w.u t w.g ∧ look t.groups w.u = some g' ∧ g'.wait = .parked w.s.curPc r entry := by
  unfold queueOp
  rw [issue_runs h]
  simp only [he, hstop]
  generalize hg : ({ w.g with wait := .parked w.s.curPc r entry, issuedAs := some w.asIssued } : Group) = g
  have hset : Settled g ((if w.g.slot.isSome then g.leaveSlot none else g).settle w.s.cycle) := by
    split
    · exact (leaveSlot_settled ..).trans (settle_settled ..)
    · exact settle_settled ..
  refine ⟨_, _, rfl, ⟨_, rfl, hset.core.trans ?_⟩, look_put_same .., hset.wait.trans ?_⟩ <;> subst hg <;> rfl

/-- The entry of a stream that a trap has stopped takes the trap, and the stream goes on past it. -/
theorem queueOp_traps {code info : Nat} {mask : Mask} (he : (rget {} w.g.queues x.n.toNat).entries = [])
    (hstop : (rget {} w.g.queues x.n.toNat).stop = some (.trap code mask info)) :
    let q := rget {} w.g.queues x.n.toNat
    let g := { w.g with queues := put w.g.queues x.n.toNat { q with stop := none, poison := q.poison ||| mask } }
    ∃ t, queueOp i x pop s = .next t ∧ TrapTaken { w with g := g } g code mask w.pc64 info t := by
  unfold queueOp
  rw [issue_runs h]
  simp only [he, hstop]
  exact ⟨_, rfl, trapHere_taken_of_team _ _ _ _ (by simp [h.look_team])⟩
end

/-- Settles O23: by the state of the queue that a pop or peek finds (R198, R303). -/
theorem operandQueues : Obligations.OperandQueues := by
  intro s w m x
  refine ⟨fun e rest h he => ?_, fun e rest h he => ?_, fun h he hstop hended => ?_, fun h he hstop hended => ?_,
    fun h he hstop hended => ?_, fun r entry h he hstop => ?_, fun code mask info h he hstop => ?_⟩
  · exact queueOp_element h true he _ (if_pos rfl).symm
  · exact queueOp_element h false he _ (if_neg Bool.false_ne_true).symm
  · exact queueOp_ended h true he hstop hended
  · exact queueOp_ended h false he hstop hended
  · exact queueOp_waits h true he hstop hended
  · exact queueOp_parks h true he hstop
  · exact queueOp_traps h true he hstop

/-! Team FIFOs. -/

/-- The entry that FPUSH adds. -/
def View.fifoEntry (w : View) (x : Fpush) (m : Mask) : FifoE :=
  { valid := m, wide := x.ty.width == 64, stamp := w.g.pts, elems := (List.range 32).map fun k => if inMask m k then w.rd x.ty x.c k else 0 }

section
variable {x : Fpush} {s : State} {w : View} {m : Mask} (h : Issues (.fpush x) s w m)
include h

/-- An entry with the elements of the pusher's threads and its clock joins the FIFO; the push is a release at team scope. -/
theorem fpush_leaves (hn : x.n.toNat < w.tm.fifoN)
    (hroom : fifoUsed (rget [] w.tm.fifos x.n.toNat) + (if x.ty.width == 64 then 2 else 1) ≤ 128) (hquiet : w.g.quiet .team = true)
    (hpend : w.g.releasePending = false) :
    ∃ t, exec (.fpush x) s = .next t ∧ Leaves (w.s.updTeam w.g.team fun tm =>
        { tm with fifos := put tm.fifos x.n.toNat (rget [] w.tm.fifos x.n.toNat ++ [w.fifoEntry x m]) })
      w.u t ((w.g.startPend (.fpush x) m w.sel).addRelease .team) := by
  rw [exec_fpush, execFpush, issue_runs h]
  rw [if_neg (by omega), if_neg (by simp [hquiet, hpend]; simpa using hroom)]
  exact ⟨_, rfl, (issued_leaves ..).of_core (track_core ..)⟩

theorem fpush_holds (hn : x.n.toNat < w.tm.fifoN)
    (hwait : 128 < fifoUsed (rget [] w.tm.fifos x.n.toNat) + (if x.ty.width == 64 then 2 else 1) ∨ w.g.quiet .team = false
      ∨ w.g.releasePending = true) : ∃ t, exec (.fpush x) s = .next t ∧ Holds w.s w.u t w.g := by
  rw [exec_fpush, execFpush, issue_runs h]
  rw [if_neg (by omega), if_pos (by simpa [or_assoc] using hwait)]
  exact ⟨_, rfl, hold_holds ..⟩

theorem fpush_traps (hn : w.tm.fifoN ≤ x.n.toNat) :
    ∃ t, exec (.fpush x) s = .next t ∧ TrapTaken w w.g 0x14 m w.pc64 x.n.toNat t := by
  rw [exec_fpush, execFpush, issue_runs h]
  rw [if_pos hn]
  exact ⟨_, rfl, h.trapHere_taken ..⟩
end

section
variable {x : Fpop} {s : State} {w : View} {m : Mask} (h : Issues (.fpop x) s w m)
include h

/-- The oldest entry's elements go to the threads it is valid for, the others get poison; the pop acquires through its clock. -/
theorem fpop_done {e : FifoE} {rest : List FifoE} (hn : x.n.toNat < w.tm.fifoN) (he : rget [] w.tm.fifos x.n.toNat = e :: rest)
    (hraw : e.raw = false ∨ x.ty.width = 32) (hreads : w.g.reads = []) :
    ∃ t, exec (.fpop x) s = .next t ∧ LaneDone (.fpop x)
      { w with s := w.s.updTeam w.g.team (fun tm => { tm with fifos := put tm.fifos x.n.toNat rest }),
               g := { w.g with lmax := max w.g.lmax e.stamp, pts := max w.g.pts (max w.g.lmax e.stamp) } } m false
      (fun k => if inMask e.valid k then { d := e.elems.getD k 0 % 2 ^ x.ty.width, p := true }
        else { d := if x.ty.width = 64 then poison64.toNat else poison32.toNat, p := false }) t := by
  have hwhole : (e.raw && x.ty.width == 64) = false := by
    rcases hraw with hraw | hraw <;> simp [hraw]
  have hout : (fun k => if inMask e.valid k then ({ d := e.elems.getD k 0 % 2 ^ x.ty.width, p := true } : LaneOut)
        else { d := if x.ty.width = 64 then poison64.toNat else poison32.toNat, p := false })
      = popOut x.ty fun k => if inMask e.valid k then some (e.elems.getD k 0) else none := by
    funext k
    cases hv : inMask e.valid k <;> simp [popOut, poisonOf, hv]
  rw [hout, exec_fpop, execFpop, issue_runs h]
  simp only [if_neg (Nat.not_le.2 hn), he, hreads, hwhole, List.isEmpty_nil, Bool.not_true, Bool.false_eq_true, if_false]
  generalize popOut x.ty _ = out
  obtain ⟨⟨ths, sr, hr, ms, so, hres, -⟩, -⟩ := results_spec (.fpop x) m w.sel false out w.g
  refine ⟨_, rfl, results_laneDone (w := w) _ ((issued_leaves ..).of_core (track_core ..)) (.refl _) rfl (.refl _) ?_⟩
  rw [hres]
  rfl

theorem fpop_holds (hn : x.n.toNat < w.tm.fifoN) (he : rget [] w.tm.fifos x.n.toNat = []) :
    ∃ t, exec (.fpop x) s = .next t ∧ Holds w.s w.u t w.g := by
  rw [exec_fpop, execFpop, issue_runs h]
  simp only [if_neg (Nat.not_le.2 hn), he]
  exact ⟨_, rfl, hold_holds ..⟩

theorem fpop_traps (hn : w.tm.fifoN ≤ x.n.toNat) :
    ∃ t, exec (.fpop x) s = .next t ∧ TrapTaken w w.g 0x14 m w.pc64 x.n.toNat t := by
  rw [exec_fpop, execFpop, issue_runs h]
  rw [if_pos hn]
  exact ⟨_, rfl, h.trapHere_taken ..⟩
end

/-- Settles O24: by the state of the FIFO that a push or pop finds (R198, R222, R226). -/
theorem teamFifos : Obligations.TeamFifos := by
  intro s w m
  exact ⟨fun x => ⟨fun h => fpush_leaves h, fun h => fpush_holds h, fun h => fpush_traps h⟩,
    fun x => ⟨fun e rest h => fpop_done h, fun h => fpop_holds h, fun h => fpop_traps h⟩⟩

end Sys2Proof.Machine

/-! ## What a write at a home moves of the state (R205, R208) -/

namespace Sys2Proof.Machine

/-- The parts of the state that a home's record, its caches and its channel keep; a step between them has changed no other. -/
def HomeMoved (s t : State) : Prop :=
  ∃ uid chanq zones homes rcopies l2 bases,
    t = { s with uid := uid, chanq := chanq, zones := zones, homes := homes, rcopies := rcopies, l2 := l2, bases := bases }

section
variable {s t : State}

theorem HomeMoved.refl (s : State) : HomeMoved s s := ⟨s.uid, s.chanq, s.zones, s.homes, s.rcopies, s.l2, s.bases, rfl⟩

theorem HomeMoved.trans {a : State} (h : HomeMoved s t) (h' : HomeMoved t a) : HomeMoved s a := by
  obtain ⟨_, _, _, _, _, _, _, rfl⟩ := h
  obtain ⟨_, _, _, _, _, _, _, rfl⟩ := h'
  exact ⟨_, _, _, _, _, _, _, rfl⟩

theorem HomeMoved.updZone (h : HomeMoved s t) (zn : Nat) (f : Zone → Zone) : HomeMoved s (t.updZone zn f) :=
  h.trans ⟨t.uid, t.chanq, _, t.homes, t.rcopies, t.l2, t.bases, rfl⟩

theorem HomeMoved.delHome (h : HomeMoved s t) (key : Nat) : HomeMoved s { t with homes := del t.homes key } :=
  h.trans ⟨t.uid, t.chanq, t.zones, _, t.rcopies, t.l2, t.bases, rfl⟩

theorem HomeMoved.spend (h : HomeMoved s t) (zn line n : Nat) : HomeMoved s (t.spend zn line n) := by
  unfold State.spend
  split
  · exact h
  · split
    · exact h.updZone ..
    · exact h.trans ⟨_, _, t.zones, t.homes, t.rcopies, t.l2, t.bases, rfl⟩

theorem HomeMoved.evictHome (h : HomeMoved s t) (key : Nat) : HomeMoved s (t.evictHome key) := by
  unfold State.evictHome
  split
  · exact ite_of (HomeMoved s) (((h.updZone ..).updZone ..).delHome key |>.spend ..) (((h.updZone ..).updZone ..).delHome key)
  · exact h

theorem HomeMoved.roomAt (h : HomeMoved s t) (zn cache : Nat) : HomeMoved s (t.roomAt zn cache) := by
  unfold State.roomAt
  extract_lets
  refine ite_of (HomeMoved s) h ?_
  split
  · exact h.trans ⟨t.uid, t.chanq, t.zones, t.homes, _, t.l2, t.bases, rfl⟩
  · exact h.trans ⟨t.uid, t.chanq, t.zones, t.homes, t.rcopies, _, t.bases, rfl⟩
  · exact h.evictHome _
  · exact h

theorem HomeMoved.storeRec (h : HomeMoved s t) (zn home line : Nat) (x : Home) (unc : Bool) : HomeMoved s (t.storeRec zn home line x unc).1 := by
  unfold State.storeRec
  extract_lets _ key _ _ _ s' s1 s''
  have hs' : HomeMoved s s' := ite_of (HomeMoved s) h (h.spend ..)
  have hs'' : HomeMoved s s'' := ite_of (HomeMoved s) hs' (hs'.roomAt ..)
  split
  · exact (hs'.updZone ..).delHome key
  · exact hs''.trans ⟨s''.uid, s''.chanq, s''.zones, _, s''.rcopies, s''.l2, s''.bases, rfl⟩

theorem HomeMoved.putHome (h : HomeMoved s t) (zn home line : Nat) (x : Home) (unc : Bool) : HomeMoved s (t.putHome zn home line x unc) :=
  h.storeRec ..

theorem HomeMoved.touchBase (h : HomeMoved s t) (loc zn p : Nat) : HomeMoved s (t.touchBase loc zn p) := by
  rw [State.touchBase_eq]
  exact h.trans ⟨t.uid, t.chanq, t.zones, t.homes, t.rcopies, t.l2, _, rfl⟩

theorem HomeMoved.moveHere (h : HomeMoved s t) (zn home line : Nat) : HomeMoved s (t.moveHere zn home line) := by
  unfold State.moveHere
  split
  · exact ite_of (HomeMoved s) (h.putHome ..) h
  · exact h

theorem HomeMoved.touchHome (h : HomeMoved s t) (zn home line p : Nat) : HomeMoved s (t.touchHome zn home line p) :=
  (h.touchBase ..).moveHere ..

theorem HomeMoved.homeWrite (h : HomeMoved s t) (zn home line p : Nat) (unc : Bool) : HomeMoved s (t.homeWrite zn home line p unc).1 :=
  (h.touchHome ..).putHome ..
end

/-- Bytes that an agent puts at a home in the device's HBM change that memory and what the home keeps. -/
theorem homePut_eq (s : State) (zn : Nat) {a : Nat} {bytes : List Byte} (ha : regionOf (paLocal (s.ownPa a)) ≠ .host) :
    ∃ t, HomeMoved s t ∧ s.homePut zn a bytes = { t with mem := writeBytes s.mem (paLocal (s.ownPa a)) bytes } := by
  have hmoved := (HomeMoved.refl s).homeWrite zn (s.homeOf (s.zoneOf zn) {} (s.ownPa a)) (lineOf (s.ownPa a)) 0 false
  refine ⟨_, hmoved, ?_⟩
  have hmem : (s.homeWrite zn (s.homeOf (s.zoneOf zn) {} (s.ownPa a)) (lineOf (s.ownPa a)) 0 false).1.mem = s.mem := by
    obtain ⟨_, _, _, _, _, _, _, e⟩ := hmoved
    rw [e]
  unfold State.homePut State.agentWrite State.writeLocal
  simp only [beq_iff_eq, if_neg ha, hmem]

/-! ## What a trap moves of the state -/

theorem haltTeam_frame (s : State) (team u code : Nat) :
    ∃ groups teams evq evHeld, s.haltTeam team u code = { s with groups := groups, teams := teams, evq := evq, evHeld := evHeld } := by
  unfold State.haltTeam
  split
  · exact ⟨_, _, _, _, rfl⟩
  next tm _ =>
    obtain ⟨a, b, e⟩ : ∃ a b, (if (tm.run == .halted) = true then s else s.raiseFor u 0x04 code tm.sr) = { s with evq := a, evHeld := b } := by
      split
      · exact ⟨s.evq, s.evHeld, rfl⟩
      · exact raiseFor_eq ..
    simp only [e, updGroup_groups]
    exact ⟨_, _, _, _, rfl⟩

theorem takeTrap_frame (w : View) (g : Group) (code : Nat) (mask : Mask) (epc : W64) (tinfo : Nat) :
    ∃ trapSeq groups teams evq evHeld, w.takeTrap g code mask epc tinfo
      = { w.s with trapSeq := trapSeq, groups := groups, teams := teams, evq := evq, evHeld := evHeld } := by
  have halted : ∀ g' : Group, ∃ trapSeq groups teams evq evHeld,
      (State.setGroup { w.s with trapSeq := w.s.trapSeq + 1 } w.u g').haltTeam g'.team w.u code
        = { w.s with trapSeq := trapSeq, groups := groups, teams := teams, evq := evq, evHeld := evHeld } := fun g' => by
    obtain ⟨_, _, _, _, e⟩ := haltTeam_frame (State.setGroup { w.s with trapSeq := w.s.trapSeq + 1 } w.u g') g'.team w.u code
    exact ⟨_, _, _, _, _, e⟩
  unfold View.takeTrap
  dsimp only
  split
  · split
    · exact halted { g.setTrap code mask epc tinfo (w.tm.run == .halted) with double := true }
    · exact ⟨_, _, w.s.teams, w.s.evq, w.s.evHeld, rfl⟩
  · exact halted { g.setTrap code mask epc tinfo (w.tm.run == .halted) with double := _ }

/-- The group that has taken a trap shows it in its trap registers. -/
theorem TrapTaken.regs {w : View} {g : Group} {code : Nat} {mask : Mask} {epc : W64} {tinfo : Nat} {t : State}
    (h : TrapTaken w g code mask epc tinfo t) :
    ∃ g', look t.groups w.u = some g' ∧ g'.cause = BitVec.ofNat 8 code ∧ g'.tmask = mask ∧ g'.tinfo = BitVec.ofNat 64 tinfo := by
  have halted : ∀ double, TrapTaken.Halted w g code mask epc tinfo t double →
      ∃ g', look t.groups w.u = some g' ∧ g'.cause = BitVec.ofNat 8 code ∧ g'.tmask = mask ∧ g'.tinfo = BitVec.ofNat 64 tinfo := by
    rintro double ⟨⟨g', hg', hcore⟩, -⟩
    exact ⟨g', hg', congrArg Group.cause hcore, congrArg Group.tmask hcore, congrArg Group.tinfo hcore⟩
  unfold TrapTaken at h
  split at h
  · split at h
    · exact halted _ h
    · obtain ⟨g', hg', hcore⟩ := h.look
      exact ⟨g', hg', congrArg Group.cause hcore, congrArg Group.tmask hcore, congrArg Group.tinfo hcore⟩
  · exact halted _ h

end Sys2Proof.Machine

/-! ## TLB invalidation, fault answers, mapping of queues (R187, R338, R354, R355, R360) -/

namespace Sys2Proof.Machine

/-- A form that acts once has changed, beside its group, only parts of the state that do not choose its threads. -/
theorem finishS_answers_beside (i : Instr) (w : View) (m : Mask) (s1 : State) (g1 : Group) (d : Nat) (hpc : s1.curPc = w.s.curPc)
    (hmask : s1.curMask = w.s.curMask) (hthr : g1.threads = w.g.threads) :
    Answers i { w with g := g1 } m s1 d (w.finishS i m s1 g1 d) :=
  finishS_done i w m s1 g1 d (by simp only [View.sel, Group.maskIf, Group.thread, hpc, hmask, hthr])

theorem mayAct_iff (c : Ctx) (zn : Nat) : c.mayAct zn = true ↔ c.priv = .hyp ∨ c.zone = zn := by
  simp [Ctx.mayAct]

/-- The caller may act on a context that is live. -/
theorem ctxActs_iff (w : View) (n : Nat) :
    w.ctxActs n = true ↔ n < 4096 ∧ ∃ cx, look w.s.ctxs n = some cx ∧ (w.cx.priv = .hyp ∨ w.cx.zone = cx.zone) := by
  unfold View.ctxActs
  cases look w.s.ctxs n <;> simp [mayAct_iff]

section
variable {i : Instr} {w : View} {m : Mask}

theorem tlbInv_holds (ok : Bool) (p : TlbE → Bool) (hquiet : w.g.quiet .dev = false) :
    ∃ t, w.tlbInv i m ok p = .next t ∧ Holds w.s w.u t w.g := by
  unfold View.tlbInv
  rw [hquiet]
  exact ⟨_, rfl, hold_holds ..⟩

/-- An invalidation that is allowed drops the entries that it names. -/
theorem tlbInv_drops (p : TlbE → Bool) (hquiet : w.g.quiet .dev = true) :
    ∃ t s1, w.tlbInv i m true p = .next t ∧ Answers i { w with g := w.g.addRelease .dev } m s1 0 t ∧ s1.mem = w.s.mem
      ∧ s1.groups = w.s.groups ∧ (∀ e, e ∈ s1.tlb1 ↔ e ∈ w.s.tlb1 ∧ ¬p e) ∧ (∀ e, e ∈ s1.tlb2 ↔ e ∈ w.s.tlb2 ∧ ¬p e) := by
  unfold View.tlbInv
  rw [hquiet]
  refine ⟨_, _, rfl, finishS_answers_beside i w m _ _ 0 rfl rfl rfl, rfl, rfl, fun e => ?_, fun e => ?_⟩ <;>
    simp [State.tlbDrop, State.refreshFrames, State.updTeam]

theorem tlbInv_refuses (p : TlbE → Bool) (hquiet : w.g.quiet .dev = true) :
    ∃ t s1, w.tlbInv i m false p = .next t ∧ Answers i { w with g := w.g.addRelease .dev } m s1 1 t ∧ s1.mem = w.s.mem
      ∧ s1.groups = w.s.groups ∧ s1.tlb1 = w.s.tlb1 ∧ s1.tlb2 = w.s.tlb2 := by
  unfold View.tlbInv
  rw [hquiet]
  exact ⟨_, _, rfl, finishS_answers_beside i w m _ _ 1 rfl rfl rfl, rfl, rfl, rfl, rfl⟩
end

/-- The place of the fault buffer that an operand of FBRESP names: a district and a tag. -/
def fbTag (a : Nat) : Nat := a / 2 ^ 16 % 8 * 512 + a % 512

/-- The group of a record is parked on the record's entry. -/
structure ParkedOn (s : State) (tag : Nat) (r : FaultRec) (g : Group) (pc : VA) : Prop where
  look_group : look s.groups r.group = some g
  wait : g.wait = .parked pc r (some tag)
  notLog : r.log = false

/-- The group tries its instruction again. -/
def Group.retryAt (g : Group) (tag : Nat) (convert : Bool) (pc : VA) : Group :=
  { g.answerStreams tag convert with wait := .retry pc g.afterWalk }

section
variable {s : State} {tag : Nat} {r : FaultRec} {g : Group} {pc : VA} (hp : ParkedOn s tag r g pc)
include hp

/-- The view of the parked group is there again when its wait has changed. -/
theorem ParkedOn.view_retry (hview : (State.view? { s with cur := r.group, curPc := pc }).isSome = true) {fbuf : AList FaultRec}
    {g' : Group} (hteam : g'.team = g.team) :
    ∃ v, ({ ({ s with fbuf := fbuf } : State).setGroup r.group g' with cur := r.group, curPc := pc } : State).view? = some v := by
  have hlook : look (({ s with fbuf := fbuf } : State).setGroup r.group g').groups r.group = some (g'.settle s.cycle) := look_put_same ..
  have hteam' : (g'.settle s.cycle).team = g.team := by
    obtain ⟨_, _, _, e, -⟩ := settle_settled s.cycle g'
    rw [e, hteam]
  refine Option.isSome_iff_exists.1 ?_
  unfold State.view? at hview ⊢
  simp only [hp.look_group] at hview
  simp only [hlook, hteam']
  cases htm : look s.teams g.team with
  | none => simp [htm] at hview
  | some tm =>
    cases hcx : look s.ctxs tm.ctx with
    | none => simp [htm, hcx] at hview
    | some cx => simp [State.setGroup, htm, hcx]

theorem answerFault_replay :
    s.answerFault tag r false = ({ s with fbuf := del s.fbuf tag } : State).setGroup r.group (g.retryAt tag false pc) := by
  have hwait : (g.answerStreams tag false).wait = .parked pc r (some tag) := hp.wait
  unfold State.answerFault
  simp only [hp.look_group, hwait, hp.notLog, Bool.false_and, Bool.false_eq_true, if_false, ne_eq, not_true_eq_false]
  rfl

/-- A converted fault is a PROT of the parked group at its instruction. -/
theorem answerFault_convert (hacc : r.acc ≠ .qslice) {v : View}
    (hv : ({ ({ s with fbuf := del s.fbuf tag } : State).setGroup r.group (g.retryAt tag true pc) with
      cur := r.group, curPc := pc } : State).view? = some v) :
    s.answerFault tag r true =
      { v.trapHere 0x11 r.tmask (if r.acc == .fetch then pc.toNat % 2 ^ 64 else r.low.toNat % 2 ^ 64) with
        cur := s.cur, curPc := s.curPc } := by
  have hwait : (g.answerStreams tag true).wait = .parked pc r (some tag) := hp.wait
  have hne : (r.acc != .qslice) = true := by simpa using hacc
  unfold State.answerFault
  simp only [hp.look_group, hwait, hp.notLog, hne, Bool.false_and, Bool.false_eq_true, if_false, ne_eq, not_true_eq_false, Bool.and_self,
    if_true]
  split
  next w hw => rw [Option.some.inj (hw.symm.trans hv)]; rfl
  next hw => cases hw.symm.trans hv
end

/-- What O38 says of an invalidation, given which entries it names and whether the caller may. -/
theorem tlbInv_cases {i : Instr} {s : State} {w : View} {m : Mask} {ok : Bool} {p : TlbE → Bool} (he : exec i s = w.tlbInv i m ok p)
    {good : Prop} (hgood : ok = true ↔ good) {named : TlbE → Prop} (hnamed : ∀ e, p e = true ↔ named e) :
    let w' := { w with g := w.g.addRelease .dev }
    (w.g.quiet .dev = false → ∃ t, exec i s = .next t ∧ Holds w.s w.u t w.g)
    ∧ (w.g.quiet .dev = true → good → ∃ t s1, exec i s = .next t ∧ Answers i w' m s1 0 t ∧ s1.mem = w.s.mem ∧ s1.groups = w.s.groups
        ∧ (∀ e, e ∈ s1.tlb1 ↔ e ∈ w.s.tlb1 ∧ ¬named e) ∧ (∀ e, e ∈ s1.tlb2 ↔ e ∈ w.s.tlb2 ∧ ¬named e))
    ∧ (w.g.quiet .dev = true → ¬good → ∃ t s1, exec i s = .next t ∧ Answers i w' m s1 1 t ∧ s1.mem = w.s.mem ∧ s1.groups = w.s.groups
        ∧ s1.tlb1 = w.s.tlb1 ∧ s1.tlb2 = w.s.tlb2) := by
  rw [he]
  obtain rfl : named = fun e => p e = true := funext fun e => propext (hnamed e).symm
  refine ⟨tlbInv_holds ok p, fun hquiet hg => ?_, fun hquiet hg => ?_⟩
  · rw [hgood.2 hg]
    exact tlbInv_drops p hquiet
  · rw [Bool.eq_false_iff.2 (mt hgood.1 hg)]
    exact tlbInv_refuses p hquiet

section
variable {x : SdA} {s : State} {w : View} {m : Mask} (h : Issues (.fbresp x) s w m)
include h

/-- FBRESP of an entry, issued (R355). -/
theorem exec_fbresp_some {a : Nat} (ha : w.n32 x.a (lowest m) = a) {r : FaultRec} (hr : look w.s.fbuf (fbTag a) = some r) :
    exec (.fbresp x) s =
      if a / 2 ^ 24 % 4 < 2 ∧ (w.cx.priv = .hyp ∨ w.cx.zone = r.zone) then
        if r.group = w.u then .next (w.finishS (.fbresp x) m { w.s with fbuf := del w.s.fbuf (fbTag a) }
          (w.g.answerStreams (fbTag a) (decide (a / 2 ^ 24 % 4 = 1))) 0)
        else .next (w.finishS (.fbresp x) m (w.s.answerFault (fbTag a) r (decide (a / 2 ^ 24 % 4 = 1))) w.g 0)
      else .next (w.finishS (.fbresp x) m w.s w.g 1) := by
  subst ha
  rw [exec_fbresp, execFbresp, issue_runs h]
  generalize w.n32 x.a (lowest m) = a at *
  have htag : bitsOf a 16 3 * 512 + a % 512 = fbTag a := by rw [bitsOf_eq]; rfl
  have hconv : (bitsOf a 24 2 == 1) = decide (a / 2 ^ 24 % 4 = 1) := by rw [bitsOf_eq]; rfl
  have hone : bitsOf a 24 2 ≤ 1 ↔ a / 2 ^ 24 % 4 < 2 := by rw [bitsOf_eq]; exact Nat.lt_succ_iff.symm
  simp only [htag, hr, hconv, hone, Bool.and_eq_true, decide_eq_true_eq, mayAct_iff]

theorem fbresp_refuses {a : Nat} (ha : w.n32 x.a (lowest m) = a)
    (hno : ∀ r, look w.s.fbuf (fbTag a) = some r → 2 ≤ a / 2 ^ 24 % 4 ∨ ¬(w.cx.priv = .hyp ∨ w.cx.zone = r.zone)) :
    ∃ t, exec (.fbresp x) s = .next t ∧ Answers (.fbresp x) w m w.s 1 t := by
  refine ⟨_, ?_, finishS_answers_beside (.fbresp x) w m w.s w.g 1 rfl rfl rfl⟩
  cases hr : look w.s.fbuf (fbTag a) with
  | some r =>
    rw [exec_fbresp_some h ha hr, if_neg]
    rintro ⟨hlt, hacts⟩
    exact (hno r hr).elim (Nat.not_le.2 hlt) fun hno => hno hacts
  | none =>
    subst ha
    have htag : bitsOf (w.n32 x.a (lowest m)) 16 3 * 512 + w.n32 x.a (lowest m) % 512 = fbTag (w.n32 x.a (lowest m)) := by
      rw [bitsOf_eq]; rfl
    rw [exec_fbresp, execFbresp, issue_runs h]
    simp only [htag, hr]

/-- An answer to a record of the caller's own group, which is one of its streams'. -/
theorem fbresp_own {a : Nat} (ha : w.n32 x.a (lowest m) = a) {r : FaultRec} (hr : look w.s.fbuf (fbTag a) = some r)
    (hlt : a / 2 ^ 24 % 4 < 2) (hacts : w.cx.priv = .hyp ∨ w.cx.zone = r.zone) (hu : r.group = w.u) :
    ∃ t, exec (.fbresp x) s = .next t ∧ Answers (.fbresp x) { w with g := w.g.answerStreams (fbTag a) (decide (a / 2 ^ 24 % 4 = 1)) } m
      { w.s with fbuf := del w.s.fbuf (fbTag a) } 0 t := by
  exact ⟨_, (exec_fbresp_some h ha hr).trans ((if_pos ⟨hlt, hacts⟩).trans (if_pos hu)),
    finishS_answers_beside (.fbresp x) w m _ (w.g.answerStreams _ _) 0 rfl rfl rfl⟩

/-- The answer to another group's record. -/
theorem fbresp_answers {a : Nat} (ha : w.n32 x.a (lowest m) = a) {r : FaultRec} (hr : look w.s.fbuf (fbTag a) = some r)
    (hlt : a / 2 ^ 24 % 4 < 2) (hacts : w.cx.priv = .hyp ∨ w.cx.zone = r.zone) (hu : r.group ≠ w.u) {s1 : State}
    (hs1 : w.s.answerFault (fbTag a) r (decide (a / 2 ^ 24 % 4 = 1)) = s1) (hpc : s1.curPc = w.s.curPc) (hmask : s1.curMask = w.s.curMask) :
    ∃ t, exec (.fbresp x) s = .next t ∧ Answers (.fbresp x) w m s1 0 t := by
  refine ⟨_, (exec_fbresp_some h ha hr).trans ?_, finishS_answers_beside (.fbresp x) w m s1 w.g 0 hpc hmask rfl⟩
  rw [if_pos ⟨hlt, hacts⟩, if_neg hu, hs1]

variable {a : Nat} (ha : w.n32 x.a (lowest m) = a) {r : FaultRec} (hr : look w.s.fbuf (fbTag a) = some r)
  (hacts : w.cx.priv = .hyp ∨ w.cx.zone = r.zone) (hu : r.group ≠ w.u) {g : Group} {pc : VA} (hp : ParkedOn w.s (fbTag a) r g pc)
include ha hr hacts hu hp

theorem fbresp_replays (h0 : a / 2 ^ 24 % 4 = 0) :
    ∃ s1 g', (∃ t, exec (.fbresp x) s = .next t ∧ Answers (.fbresp x) w m s1 0 t) ∧ s1.mem = w.s.mem
      ∧ (∀ j, look s1.fbuf j = if j = fbTag a then none else look w.s.fbuf j) ∧ look s1.groups r.group = some g'
      ∧ g'.core = (g.answerStreams (fbTag a) false).core ∧ g'.wait = .retry pc (if g.issuedAs = none then .again else .kept) := by
  have hs1 : w.s.answerFault (fbTag a) r (decide (a / 2 ^ 24 % 4 = 1))
      = ({ w.s with fbuf := del w.s.fbuf (fbTag a) } : State).setGroup r.group (g.retryAt (fbTag a) false pc) := by
    rw [h0]
    exact answerFault_replay hp
  have hset := settle_settled w.s.cycle (g.retryAt (fbTag a) false pc)
  refine ⟨_, _, fbresp_answers h ha hr (by omega) hacts hu hs1 rfl rfl, rfl, fun j => look_del .., look_put_same .., hset.core, ?_⟩
  refine hset.wait.trans (congrArg (GWait.retry pc) ?_)
  unfold Group.afterWalk
  cases g.issuedAs <;> rfl

theorem fbresp_converts (h1 : a / 2 ^ 24 % 4 = 1) (hacc : r.acc ≠ .qslice)
    (hview : (State.view? { w.s with cur := r.group, curPc := pc }).isSome = true) :
    ∃ s1 g', (∃ t, exec (.fbresp x) s = .next t ∧ Answers (.fbresp x) w m s1 0 t)
      ∧ (∀ j, look s1.fbuf j = if j = fbTag a then none else look w.s.fbuf j) ∧ look s1.groups r.group = some g'
      ∧ g'.cause = 0x11 ∧ g'.tmask = r.tmask ∧ g'.tinfo = BitVec.ofNat 64 (if r.acc = .fetch then pc.toNat else r.low.toNat) := by
  obtain ⟨v, hv⟩ := hp.view_retry hview (fbuf := del w.s.fbuf (fbTag a)) (g' := g.retryAt (fbTag a) true pc) rfl
  obtain ⟨hvs, hvu, -, -, -⟩ := view?_eq hv
  have htrap := trapHere_taken hv 0x11 r.tmask (if r.acc == .fetch then pc.toNat % 2 ^ 64 else r.low.toNat % 2 ^ 64)
  obtain ⟨g', hg', hcause, htmask, htinfo⟩ := htrap.regs
  obtain ⟨seq, groups, teams, evq, evHeld, hframe⟩ : ∃ seq groups teams evq evHeld,
      v.trapHere 0x11 r.tmask (if r.acc == .fetch then pc.toNat % 2 ^ 64 else r.low.toNat % 2 ^ 64)
        = { v.s with trapSeq := seq, groups := groups, teams := teams, evq := evq, evHeld := evHeld } := takeTrap_frame ..
  have hs1 := (congrArg (w.s.answerFault (fbTag a) r) (decide_eq_true h1)).trans (answerFault_convert hp hacc hv)
  refine ⟨_, g', fbresp_answers h ha hr (by omega) hacts hu hs1 rfl ?_, fun j => ?_, ?_, hcause, htmask, htinfo.trans ?_⟩
  · rw [hframe, hvs]
    rfl
  · rw [hframe, hvs]
    exact look_del ..
  · rw [hvu] at hg'
    exact hg'
  · refine BitVec.eq_of_toNat_eq ?_
    simp only [beq_iff_eq]
    split <;> simp
end


/-- The zone of the queue and of the context, and the slot, are ones the caller may give (R360). -/
def View.qmapOk (w : View) (a n : Nat) : Bool :=
  let e := w.s.qd (a % 256)
  e.valid && w.cx.mayAct e.zone && (w.s.zoneOf e.zone).slots.contains (bitsOf a 8 6)
    && ((look w.s.ctxs n).map fun c : Ctx => c.zone) == some e.zone && w.ctxActs n

theorem qmapOk_iff (w : View) (a n : Nat) :
    w.qmapOk a n = true ↔ (w.s.qd (a % 256)).valid = true ∧ (w.cx.priv = .hyp ∨ w.cx.zone = (w.s.qd (a % 256)).zone)
      ∧ a / 2 ^ 8 % 2 ^ 6 ∈ (w.s.zoneOf (w.s.qd (a % 256)).zone).slots
      ∧ (n < 4096 ∧ ∃ cx, look w.s.ctxs n = some cx ∧ (w.cx.priv = .hyp ∨ w.cx.zone = cx.zone))
      ∧ (look w.s.ctxs n).map (·.zone) = some (w.s.qd (a % 256)).zone := by
  simp only [View.qmapOk, Bool.and_eq_true, mayAct_iff, List.contains_iff_mem, beq_iff_eq, ctxActs_iff, bitsOf_eq]
  constructor
  · rintro ⟨⟨⟨⟨hv, hz⟩, hk⟩, hc⟩, hl⟩
    exact ⟨hv, hz, hk, hl, hc⟩
  · rintro ⟨hv, hz, hk, hl, hc⟩
    exact ⟨⟨⟨⟨hv, hz⟩, hk⟩, hc⟩, hl⟩

/-- What a queue's slot holds when it has been mapped: the QCB from memory, with the last write of RDIDX. -/
def State.mappedSlot (s : State) (q n : Nat) : Slot :=
  { queue := q, ctx := n, qcb := s.homeBytes ((s.qd q).qcbpa * 64) 64 : Slot }.set 0x10 4 (s.qd q).lastw.toNat

/-- A queue is in its slot. -/
def State.mapQueue (s : State) (q k n : Nat) : State :=
  { s with slots := put s.slots k (s.mappedSlot q n) }.updQd q fun e => { e with slot := some k, pending := false }

section
variable {x : SdAB} {s : State} {w : View} {m : Mask} (h : Issues (.qmap x) s w m) {a n k : Nat} (ha : w.n32 x.a (lowest m) = a)
  (hn : w.n32 x.b (lowest m) = n) (hk : bitsOf a 8 6 = k)
include h ha hn hk

theorem exec_qmap_eq :
    exec (.qmap x) s =
      let e := w.s.qd (a % 256)
      if !w.qmapOk a n then .next (w.finishS (.qmap x) m w.s w.g 1)
      else if e.slot.isSome || (look w.s.slots k).isSome then .next (w.finishS (.qmap x) m w.s w.g 2)
      else if ((w.s.zoneOf e.zone).shrink.any fun n => n / 2 ^ 60 == 3 && n % 64 == k) then .next (w.hold .away)
      else if w.s.lineQueued (lineOf (w.s.ownPa (e.qcbpa * 64))) then .next (w.hold .away)
      else if w.s.badLine (lineOf (w.s.ownPa (e.qcbpa * 64))) || (w.s.backer (e.qcbpa * 64)).isNone then
        .next (w.finishS (.qmap x) m w.s w.g 7)
      else .next (w.finishS (.qmap x) m (if (w.s.mappedSlot (a % 256) n).overfull || (w.s.mappedSlot (a % 256) n).invalid
        then (w.s.mapQueue (a % 256) k n).stopQueue (a % 256) else w.s.mapQueue (a % 256) k n) w.g 0) := by
  subst ha hn hk
  rw [exec_qmap, execQmap, issue_runs h]
  rfl

theorem qmap_refuses (hno : w.qmapOk a n = false) : ∃ t, exec (.qmap x) s = .next t ∧ Answers (.qmap x) w m w.s 1 t := by
  refine ⟨_, (exec_qmap_eq h ha hn hk).trans (if_pos ?_), finishS_answers (.qmap x) w m w.s 1 ⟨rfl, rfl⟩⟩
  rw [hno]
  rfl

variable (hgood : w.qmapOk a n = true)
include hgood

theorem qmap_taken (htaken : (w.s.qd (a % 256)).slot ≠ none ∨ look w.s.slots k ≠ none) :
    ∃ t, exec (.qmap x) s = .next t ∧ Answers (.qmap x) w m w.s 2 t := by
  refine ⟨_, (exec_qmap_eq h ha hn hk).trans ((if_neg ?_).trans (if_pos ?_)), finishS_answers (.qmap x) w m w.s 2 ⟨rfl, rfl⟩⟩
  · rw [hgood]; exact Bool.false_ne_true
  · simpa [Option.isSome_iff_ne_none] using htaken

variable (hslot : (w.s.qd (a % 256)).slot = none) (hfree : look w.s.slots k = none)
include hslot hfree

/-- A request for the QCB's line that waits at its home comes first (R400). -/
theorem qmap_holds (hq : w.s.lineQueued (lineOf (w.s.ownPa ((w.s.qd (a % 256)).qcbpa * 64))) = true) :
    ∃ t, exec (.qmap x) s = .next t ∧ Holds w.s w.u t w.g := by
  rw [exec_qmap_eq h ha hn hk]
  simp only [hgood, hslot, hfree, hq, Bool.not_true, Bool.false_eq_true, if_false, Option.isSome_none, Bool.or_self, if_true, ite_self]
  exact ⟨_, rfl, hold_holds ..⟩

variable (hshrink : (w.s.zoneOf (w.s.qd (a % 256)).zone).shrink = [])
  (hq : w.s.lineQueued (lineOf (w.s.ownPa ((w.s.qd (a % 256)).qcbpa * 64))) = false)
include hshrink hq

theorem qmap_lost (hlost : w.s.badLine (lineOf (w.s.ownPa ((w.s.qd (a % 256)).qcbpa * 64))) = true
      ∨ w.s.backer ((w.s.qd (a % 256)).qcbpa * 64) = none) :
    ∃ t, exec (.qmap x) s = .next t ∧ Answers (.qmap x) w m w.s 7 t := by
  have hlost' : (w.s.badLine (lineOf (w.s.ownPa ((w.s.qd (a % 256)).qcbpa * 64)))
      || (w.s.backer ((w.s.qd (a % 256)).qcbpa * 64)).isNone) = true := by simpa using hlost
  refine ⟨_, (exec_qmap_eq h ha hn hk).trans ?_, finishS_answers (.qmap x) w m w.s 7 ⟨rfl, rfl⟩⟩
  simp only [hgood, hslot, hfree, hq, hshrink, hlost', Bool.not_true, Bool.false_eq_true, if_false, Option.isSome_none, Bool.or_self, if_true,
    List.any_nil]

theorem qmap_maps (hbad : w.s.badLine (lineOf (w.s.ownPa ((w.s.qd (a % 256)).qcbpa * 64))) = false)
    (hback : (w.s.backer ((w.s.qd (a % 256)).qcbpa * 64)).isSome = true) (hover : (w.s.mappedSlot (a % 256) n).overfull = false)
    (hvalid : (w.s.mappedSlot (a % 256) n).invalid = false) :
    ∃ t, exec (.qmap x) s = .next t ∧ Answers (.qmap x) w m (w.s.mapQueue (a % 256) k n) 0 t := by
  have hnone : (w.s.backer ((w.s.qd (a % 256)).qcbpa * 64)).isNone = false := by
    rw [Option.isNone_eq_false_iff]; exact hback
  refine ⟨_, (exec_qmap_eq h ha hn hk).trans ?_, finishS_answers (.qmap x) w m (w.s.mapQueue (a % 256) k n) 0 ⟨rfl, rfl⟩⟩
  simp only [hgood, hslot, hfree, hq, hshrink, hbad, hnone, hover, hvalid, Bool.not_true, Bool.false_eq_true, if_false, Option.isSome_none,
    Bool.or_self, List.any_nil]
end

/-- A queue has left its slot, its QCB not yet back. -/
def State.unslot (s : State) (q k : Nat) : State := { s with slots := del s.slots k }.updQd q fun e => { e with slot := none }

theorem unmap_of_slot {s : State} {q k : Nat} {sl : Slot} (hk : (s.qd q).slot = some k) (hsl : look s.slots k = some sl)
    (hcode : s.isCode (s.ownPa ((s.qd q).qcbpa * 64)) = false) :
    s.unmap q = (s.unslot q k).homePut (s.qd q).zone ((s.qd q).qcbpa * 64) sl.qcb := by
  unfold State.unmap
  simp only [hk, hsl, Option.bind_some, Option.map_some]
  exact if_neg fun hc => Bool.false_ne_true (hcode.symm.trans hc)

/-- An address on the device keeps its place in the local space. -/
theorem paLocal_ownPa_local (s : State) (a : Nat) : paLocal (s.ownPa a) = paLocal a := by
  unfold paLocal State.ownPa
  omega

section
variable {x : SdA} {s : State} {w : View} {m : Mask} (h : Issues (.qunmap x) s w m) {q : Nat} (ha : w.n32 x.a (lowest m) = q)
include h ha

theorem exec_qunmap_eq :
    exec (.qunmap x) s = if 256 ≤ q ∨ (w.s.qd q).valid = false ∨ ¬(w.cx.priv = .hyp ∨ w.cx.zone = (w.s.qd q).zone) ∨ (w.s.qd q).slot = none
      then .next (w.finishS (.qunmap x) m w.s w.g 1) else .next (w.finishS (.qunmap x) m (w.s.unmap q) w.g 0) := by
  subst ha
  rw [exec_qunmap, execQunmap, issue_runs h]
  generalize w.n32 x.a (lowest m) = q
  refine if_congr ?_ rfl rfl
  simp [← mayAct_iff, or_assoc]

theorem qunmap_refuses (hno : 256 ≤ q ∨ (w.s.qd q).valid = false ∨ ¬(w.cx.priv = .hyp ∨ w.cx.zone = (w.s.qd q).zone)
      ∨ (w.s.qd q).slot = none) : ∃ t, exec (.qunmap x) s = .next t ∧ Answers (.qunmap x) w m w.s 1 t :=
  ⟨_, (exec_qunmap_eq h ha).trans (if_pos hno), finishS_answers (.qunmap x) w m w.s 1 ⟨rfl, rfl⟩⟩

/-- The QCB goes back to its place in memory, and the slot is free. -/
theorem qunmap_frees {k : Nat} {sl : Slot} (hq : q < 256) (hvalid : (w.s.qd q).valid = true)
    (hacts : w.cx.priv = .hyp ∨ w.cx.zone = (w.s.qd q).zone) (hk : (w.s.qd q).slot = some k) (hsl : look w.s.slots k = some sl)
    (hlen : sl.qcb.length = 64) (hhbm : regionOf (paLocal ((w.s.qd q).qcbpa * 64)) ≠ .host)
    (hcode : w.s.isCode (w.s.ownPa ((w.s.qd q).qcbpa * 64)) = false) :
    ∃ s1, (∃ t, exec (.qunmap x) s = .next t ∧ Answers (.qunmap x) w m s1 0 t)
      ∧ readBytes s1.mem (paLocal ((w.s.qd q).qcbpa * 64)) 64 = sl.qcb
      ∧ (∀ a, a < paLocal ((w.s.qd q).qcbpa * 64) ∨ paLocal ((w.s.qd q).qcbpa * 64) + 64 ≤ a → readByte s1.mem a = readByte w.s.mem a)
      ∧ look s1.slots k = none ∧ (s1.qd q).slot = none ∧ s1.groups = w.s.groups := by
  obtain ⟨t, hmoved, hput⟩ := homePut_eq (w.s.unslot q k) (w.s.qd q).zone (a := (w.s.qd q).qcbpa * 64) (bytes := sl.qcb)
    (by rw [paLocal_ownPa_local]; exact hhbm)
  have hunmap : w.s.unmap q = { t with mem := writeBytes w.s.mem (paLocal ((w.s.qd q).qcbpa * 64)) sl.qcb } := by
    rw [unmap_of_slot hk hsl hcode, hput, paLocal_ownPa_local]
    rfl
  obtain ⟨_, _, _, _, _, _, _, rfl⟩ := hmoved
  refine ⟨w.s.unmap q, ⟨_, (exec_qunmap_eq h ha).trans (if_neg ?_), finishS_answers (.qunmap x) w m _ 0 ?_⟩, ?_⟩
  · simp [hvalid, hacts, hk, hq]
  · rw [hunmap]
    exact ⟨rfl, rfl⟩
  · rw [hunmap]
    refine ⟨hlen ▸ readBytes_writeBytes .., fun b hb => readByte_writeBytes_of_out _ _ _ _ (by omega), ?_, ?_, rfl⟩
    · exact (look_del ..).trans (if_pos rfl)
    · simp [State.unslot, State.updQd, State.qd, rget]
end

/-- Settles O38: by form, and within a form by the case that its operands and the state choose (R338, R354, R355, R360). -/
theorem tlbsFaultsAndQueues : Obligations.TlbsFaultsAndQueues := by
  intro s w m
  refine ⟨fun x h => ?va, fun x h => ?ctx, fun x h => ?zone, fun x h => ⟨fun hnone => ?none, fun r hr => ⟨fun hno => ?refuse,
    fun hu hlt hacts => ?own, fun g pc hu hacts hacc hlog hg hwait => ?other⟩⟩, fun x h => ?qmap,
    fun x h => ⟨fun hno => qunmap_refuses h rfl hno,
      fun k sl hq hv hacts hk hsl hlen hhbm hcode => qunmap_frees h rfl hq hv hacts hk hsl hlen hhbm hcode⟩⟩
  case va =>
    refine tlbInv_cases ((exec_tlbinvVa x s).trans (issue_runs h _)) (ctxActs_iff ..) fun e => ?_
    simp [BitVec.toNat_ofNat]
  case ctx => exact tlbInv_cases ((exec_tlbinvCtx x s).trans (issue_runs h _)) (ctxActs_iff ..) fun e => beq_iff_eq
  case zone => exact tlbInv_cases ((exec_tlbinvZone x s).trans (issue_runs h _)) decide_eq_true_iff fun e => beq_iff_eq
  case none => exact fbresp_refuses h rfl fun r hr => by cases hnone.symm.trans hr
  case refuse =>
    refine fbresp_refuses h rfl fun r' hr' => ?_
    obtain rfl := Option.some.inj (hr.symm.trans hr')
    exact hno
  case own => exact fbresp_own h rfl hr hlt hacts hu
  case other =>
    have hp : ParkedOn w.s (fbTag (w.n32 x.a (lowest m))) r g pc := ⟨hg, hwait, hlog⟩
    exact ⟨fun h0 => fbresp_replays h rfl hr hacts hu hp h0, fun h1 hview => fbresp_converts h rfl hr hacts hu hp h1 hacc hview⟩
  case qmap =>
    have hok := qmapOk_iff w (w.n32 x.a (lowest m)) (w.n32 x.b (lowest m))
    have hk := bitsOf_eq (w.n32 x.a (lowest m)) 8 6
    refine ⟨fun hno => qmap_refuses h rfl rfl hk (Bool.eq_false_iff.2 (mt hok.1 hno)),
      fun hgood htaken => qmap_taken h rfl rfl hk (hok.2 hgood) htaken,
      fun hgood hslot hfree hq => qmap_holds h rfl rfl hk (hok.2 hgood) hslot hfree hq,
      fun hgood hslot hfree hshrink hq => ⟨fun hlost => qmap_lost h rfl rfl hk (hok.2 hgood) hslot hfree hshrink hq hlost,
        fun hbad hback hover hvalid => qmap_maps h rfl rfl hk (hok.2 hgood) hslot hfree hshrink hq hbad hback hover hvalid⟩⟩

end Sys2Proof.Machine

/-! ## Private stores: what the statement leaves out (R433) -/

namespace Sys2Proof.Machine

/-- WBP.all, unguarded. -/
def writeAllBack : CtlOnly := { ctl := ⟨⟨false, 7⟩, ⟨0, false, 7, 0⟩⟩ }

/-- It stands at address 0 of a group that has no dirty byte; the leaf of a line written before is still there, and the chiplet of
that line's home is not ACTIVE. -/
def staleLeaf : State :=
  { (State.reset.withFetchWord 96 (encode (.wbpAll writeAllBack)).toNat).at_ 0 0 with
    groups := [(0, { fetchGroup with pleaf := [(lineOf 0x10000, { w := true, rd := true, k := 16, homed := 1, sh := false })] })]
    chips := [(1, { st := .fenced })] }

/-- What WBP.all sees there. -/
def staleView : View :=
  { s := staleLeaf, u := 0, g := (look staleLeaf.groups 0).getD {}, tm := (look staleLeaf.teams 0).getD {}, cx := { priv := .hyp } }

theorem writeAllBack_issues : Issues (.wbpAll writeAllBack) staleLeaf staleView (BitVec.allOnes 32) := by decide

/-- The reports that wait for group 0 after a step. -/
def reports0 : Out → Option (List Report)
  | .next t => (look t.groups 0).map (·.reports)
  | _ => none

theorem staleLeaf_reports :
    reports0 (exec (.wbpAll writeAllBack) staleLeaf) = some [⟨6, 0, BitVec.allOnes 32⟩] := by decide

/-- Refutes O22: WBP.all of a group without dirty bytes, whose last leaf is of a line with a lost home. The statement has it report nothing,
since no dirty byte is on a lost line; the model reports a write-back that has failed (R433). -/
theorem not_privateStores : ¬ Obligations.PrivateStores := by
  intro h
  obtain ⟨-, -, hall⟩ := h staleLeaf staleLeaf staleView (BitVec.allOnes 32)
  obtain ⟨t, l, r, ht, -, ⟨g, hg, hcore⟩, hr, -⟩ := hall writeAllBack writeAllBack_issues List.nodup_nil
  obtain rfl : r = [] := hr fun b hb => absurd hb List.not_mem_nil
  have hnone : g.reports = [] := congrArg Group.reports hcore
  have hsome := staleLeaf_reports
  rw [ht] at hsome
  simp only [reports0] at hsome
  rw [show look t.groups 0 = some g from hg, Option.map_some, hnone] at hsome
  exact absurd (Option.some.inj hsome) (by simp)

end Sys2Proof.Machine

/-! ## Prefetches: what the statement leaves out (R197, R433) -/

namespace Sys2Proof.Machine

/-- A prefetch to the L2 of the address in v6, unguarded. -/
def prefetchV6 : Pref := { ctl := ⟨⟨false, 7⟩, ⟨0, false, 7, 0⟩⟩, l2 := true, ad := ⟨.zero, .v 6 .plain, 0, true, 0⟩ }

/-- The leaf of a page of global data whose lines have their home in a chiplet. -/
def homedLeaf (chiplet : Nat) : Leaf := { rd := true, k := 16, homed := chiplet, sh := false }

/-- It stands at address 0 of a group of two threads, whose addresses lie in two pages on one frame. The first page's home is in chiplet 1,
which is not ACTIVE, the second page's in chiplet 0. -/
def twoHomes : State :=
  let s := (State.reset.withFetchWord 96 (encode (.pref prefetchV6)).toNat).at_ 0 0
  { s with
    groups := [(0, { fetchGroup with threads := [{ v := [(6, 0x10000)] }, { v := [(6, 0x20000)] }] })]
    chips := [(1, { st := .fenced })]
    tlb1 := [{ loc := 0, zone := 64, ctx := 0, vpn := 1, ppn := fetchPa / 2 ^ 16 + 1, leaf := homedLeaf 1 },
      { loc := 0, zone := 64, ctx := 0, vpn := 2, ppn := fetchPa / 2 ^ 16 + 1, leaf := homedLeaf 0 }] }

/-- What the prefetch sees there. -/
def twoHomesView : View :=
  { s := twoHomes, u := 0, g := (look twoHomes.groups 0).getD {}, tm := (look twoHomes.teams 0).getD {}, cx := { priv := .hyp } }

theorem prefetchV6_issues : Issues (.pref prefetchV6) twoHomes twoHomesView 3 := by decide

/-- The loads of group 0 after a step. -/
def loads0 : Out → Option (List LoadRec)
  | .next t => (look t.groups 0).map (·.loads)
  | _ => none

theorem twoHomes_loads : loads0 (exec (.pref prefetchV6) twoHomes) = some [] := by decide

/-- Refutes O25: two threads prefetch one line through pages with different homes. By its second thread's page the line is not lost, so the
statement has it asked for; the model asks by the first thread's page, whose home is lost (R433), and asks for nothing. -/
theorem not_constantLoadsAndPrefetches : ¬ Obligations.ConstantLoadsAndPrefetches := by
  intro h
  obtain ⟨t, l, ht, -, -, -, ⟨g, hg, hcore⟩, -, -, -, hasked, -⟩ :=
    h.2 twoHomes twoHomesView 3 prefetchV6 prefetchV6_issues (by decide)
  have hl : l ≠ [] := hasked ⟨(lineOf (fetchPa + 0x10000), homedLeaf 0), by decide, by decide, by decide, Or.inl rfl⟩
  have hloads : g.loads = l := congrArg Group.loads hcore
  have hnone := twoHomes_loads
  rw [ht] at hnone
  simp only [loads0] at hnone
  rw [show look t.groups 0 = some g from hg, Option.map_some, hloads] at hnone
  exact hl (Option.some.inj hnone)

end Sys2Proof.Machine

/-! ## Global stores: what the statement gets wrong (R172, R177, log 105) -/

namespace Sys2Proof.Machine

/-- STX of 64 bits to the address in s2 and s3, unguarded. -/
def storeWide : St := { ctl := ⟨⟨false, 7⟩, ⟨0, false, 7, 0⟩⟩, ty := .b64, var := false, ad := ⟨.s 2 .plain, .zero, 0, false, 0⟩, c := .zero }

/-- It stands at address 0 of a group of one thread; the address is that of byte 0 of the thread's own space, by the window, and its page lies on
device 3. -/
def farPrivate : State :=
  let s := (State.reset.withFetchWord 96 (encode (.stx storeWide)).toNat).at_ 0 0
  { s with
    groups := [(0, { fetchGroup with threads := [{}], s := [(2, 0x0100000000000000), (3, 0xFF)] })]
    teams := upd s.teams 0 fun tm => { tm with privBase := 0x10000, privL := 2 }
    tlb1 := [{ loc := 0, zone := 64, ctx := 0, vpn := 1, ppn := (2 ^ 46 * 3 + fetchPa) / 2 ^ 16, leaf := { rd := true, w := true, k := 16 } }] }

/-- What the store sees there. -/
def farView : View := { s := farPrivate, u := 0, g := (look farPrivate.groups 0).getD {}, tm := (look farPrivate.teams 0).getD {}, cx := { priv := .hyp } }

theorem storeWide_issues : Issues (.stx storeWide) farPrivate farView 1 := by decide

/-- The numbers of bytes that the parts of a group's buffered stores hold. -/
def Group.storeSizes (g : Group) : List Nat := g.sbuf.flatMap fun e => e.parts.map fun p => match p.op with
  | .store bytes => bytes.length
  | _ => 0

/-- The same of group 0 after a step. -/
def storeSizes0 : Out → Option (List Nat)
  | .next t => (look t.groups 0).map (·.storeSizes)
  | _ => none

/-- The datum goes out as two words, since the own space of threads is words of them in turn. -/
theorem farPrivate_sizes : storeSizes0 (exec (.stx storeWide) farPrivate) = some [4, 4] := by decide

/-- Refutes O20: STX of 64 bits to a thread's own space on another device, which is a global store of two words (log 105). The statement has each
of the two parts hold all 8 bytes of the datum. -/
theorem not_globalStoresIssue : ¬ Obligations.GlobalStoresIssue := by
  intro h
  have hstx := (h farPrivate farPrivate farView 1 storeWide).2 storeWide_issues (by decide) rfl (by decide) (by decide)
  obtain ⟨t, ht, -, -, hl⟩ := hstx.1 (by decide)
  obtain ⟨g, hg, hcore⟩ := hl.look
  have hsizes : g.storeSizes = [8, 8] := (congrArg Group.storeSizes hcore).trans (by decide)
  have hmodel := farPrivate_sizes
  rw [ht] at hmodel
  simp only [storeSizes0] at hmodel
  rw [show look t.groups 0 = some g from hg, Option.map_some, hsizes] at hmodel
  exact absurd hmodel (by decide)

end Sys2Proof.Machine

/-! ## Stores to scratchpads (R173 to R178, R196, R226) -/

namespace Sys2Proof.Machine

/-- The accesses land in scratchpads. -/
def AllScr (accs : List ThreadAcc) : Prop := ∀ a ∈ accs, ∃ k off, a.tgt = .scr k off

theorem AllScr.filter {accs : List ThreadAcc} (h : AllScr accs) (p : ThreadAcc → Bool) : AllScr (accs.filter p) :=
  fun a ha => h a (List.mem_of_mem_filter ha)

/-- The access covers a byte of a team's scratchpad, with a datum of n bytes. -/
def ThreadAcc.covers (n k o : Nat) (a : ThreadAcc) : Bool := match a.tgt with
  | .scr j off => j == k && off ≤ o && o < off + n
  | _ => false

/-- Where in the scratchpad it starts. -/
def ThreadAcc.scrOff (a : ThreadAcc) : Nat := match a.tgt with
  | .scr _ off => off
  | _ => 0

/-- The access goes to a scratchpad whose team cannot be reached now (R176). -/
def View.late (w : View) (a : ThreadAcc) : Bool := match a.tgt with
  | .scr k _ => w.s.heldFor w.g k
  | _ => false

section
variable {accs : List ThreadAcc}

/-- A store of scratchpad bytes changes teams alone. -/
theorem scratchStores_teams (accs : List ThreadAcc) (data : Nat → List Byte) (pts : Nat) (s : State) :
    ∃ teams, scratchStores accs data pts s = { s with teams := teams } := by
  unfold scratchStores
  refine List.foldlRecOn (motive := fun t : State => ∃ teams, t = { s with teams := teams }) accs _ ⟨s.teams, rfl⟩ fun t ht a _ => ?_
  obtain ⟨teams, rfl⟩ := ht
  split
  · exact ⟨_, rfl⟩
  · exact ⟨teams, rfl⟩

theorem readByte_scrWrite (tm : Team) {off n pts : Nat} {bytes : List Byte} (hn : bytes.length = n) (o : Nat) :
    readByte (tm.scrWrite off bytes pts).scratch o = if off ≤ o ∧ o < off + n then bytes.getD (o - off) 0 else readByte tm.scratch o := by
  subst hn
  show readByte (writeBytes tm.scratch off bytes) o = _
  split
  next h =>
    have hin := readByte_writeBytes_in tm.scratch off bytes (o - off) (by omega)
    rwa [Nat.add_sub_cancel' h.1] at hin
  next h => exact readByte_writeBytes_of_out _ _ _ _ (by omega)

/-- Of the accesses that cover a byte the last one's datum stays there. -/
theorem look_scratchStores (haccs : AllScr accs) {data : Nat → List Byte} {n : Nat} (hn : ∀ k, (data k).length = n) (pts : Nat) (s : State)
    {k : Nat} {tm : Team} (htm : look s.teams k = some tm) :
    ∃ tm', look (scratchStores accs data pts s).teams k = some tm' ∧ ∀ o,
      readByte tm'.scratch o = match accs.reverse.find? (ThreadAcc.covers n k o) with
        | some a => (data a.thr).getD (o - a.scrOff) 0
        | none => readByte tm.scratch o := by
  induction accs using List.reverseRecOn with
  | nil => exact ⟨tm, htm, fun _ => rfl⟩
  | append_singleton accs a ih =>
    obtain ⟨tm', htm', hbytes⟩ := ih fun b hb => haccs b (List.mem_append_left _ hb)
    obtain ⟨j, off, ha⟩ := haccs a (List.mem_append_right _ (List.mem_singleton_self a))
    have hstep : scratchStores (accs ++ [a]) data pts s
        = (scratchStores accs data pts s).updTeam j fun tm => tm.scrWrite off (data a.thr) pts := by
      simp only [scratchStores, List.foldl_append, List.foldl_cons, List.foldl_nil, ha]
    have hcovers : ∀ o, a.covers n k o = decide (j = k ∧ off ≤ o ∧ o < off + n) := fun o => by
      rw [Bool.eq_iff_iff]
      simp [ThreadAcc.covers, ha, and_assoc]
    have hoff : a.scrOff = off := by simp [ThreadAcc.scrOff, ha]
    rw [hstep]
    by_cases hj : k = j
    · subst hj
      refine ⟨_, by rw [State.updTeam, look_upd_self, htm', Option.map_some], fun o => ?_⟩
      rw [readByte_scrWrite tm' (hn a.thr), List.reverse_append, List.reverse_singleton, List.singleton_append, List.find?_cons, hcovers]
      by_cases ho : off ≤ o ∧ o < off + n
      · simp [ho, hoff]
      · simp [ho, hbytes o]
    · refine ⟨tm', by rw [State.updTeam, look_upd, if_neg hj, htm'], fun o => ?_⟩
      rw [List.reverse_append, List.reverse_singleton, List.singleton_append, List.find?_cons, hcovers]
      simp [Ne.symm hj, hbytes o]
end


/-- An instruction with pending effects that issues changes its threads and their last-use sources. -/
theorem startPend_eq (g : Group) (i : Instr) (m moved : Mask) : ∃ ths s, g.startPend i m moved = { g with threads := ths, s := s } := by
  obtain ⟨⟨s, e⟩, -⟩ := releaseS_spec i.uses.srcs g
  simp only [Group.startPend, e, Group.mapThreads]
  exact ⟨_, s, rfl⟩

theorem startPend_unpause_eq (g : Group) (i : Instr) (m moved : Mask) :
    ∃ ths s, (g.startPend i m moved).unpause m = { g with threads := ths, s := s } := by
  obtain ⟨ths, s, e⟩ := startPend_eq g i m moved
  rw [e]
  exact ⟨_, s, rfl⟩

/-- No line of a thread's own space is lost. -/
theorem goneReport_nil (w : View) : w.goneReport (maskOf fun t => ([] : List Nat).contains t) = [] := by
  unfold View.goneReport
  exact if_pos (by decide)

section
variable {w : View} {accs : List ThreadAcc} (haccs : AllScr accs)
include haccs

theorem AllScr.any_isGlob : accs.any isGlob = false := by
  rw [List.any_eq_false]
  intro a ha
  obtain ⟨k, off, e⟩ := haccs a ha
  simp [isGlob, e]

theorem AllScr.any_isPriv : accs.any isPriv = false := by
  rw [List.any_eq_false]
  intro a ha
  obtain ⟨k, off, e⟩ := haccs a ha
  simp [isPriv, e]

theorem AllScr.privBehind (w : View) : w.privBehind accs = false := by
  unfold View.privBehind
  rw [List.any_eq_false]
  intro a ha
  obtain ⟨k, off, e⟩ := haccs a ha
  simp [isPriv, e]

theorem AllScr.clean (w : View) : w.clean accs = w := by
  have hglob : accs.filter isGlob = [] := by
    rw [List.filter_eq_nil_iff]
    exact List.any_eq_false.1 haccs.any_isGlob
  unfold View.clean
  simp [hglob]

theorem AllScr.privGone (w : View) : w.privGone accs = [] := by
  unfold View.privGone
  rw [List.map_eq_nil_iff, List.filter_eq_nil_iff]
  intro a ha
  obtain ⟨k, off, e⟩ := haccs a ha
  simp [e]

theorem AllScr.globParts (op : Nat → TPiece → SOp) : globParts accs op = [] := by
  unfold Sys2Proof.Machine.globParts
  rw [List.flatMap_eq_nil_iff]
  intro a ha
  obtain ⟨k, off, e⟩ := haccs a ha
  simp [e]

/-- What goes to teams that are away is held at the cluster, the rest written (R176, R196). -/
theorem runStore_scratch (hrel : w.g.releasePending = false) (i : Instr) (m : Mask) (data : Nat → List Byte) :
    ∃ t, w.runStore i m accs data = .next t
      ∧ Leaves (scratchStores (accs.filter fun a => !w.late a) data w.g.pts w.s) w.u t
          { (w.g.startPend i m w.sel).unpause m with
            seq := w.g.seq + 1
            cluOut := w.g.cluOut ++ (accs.filter w.late).filterMap fun a => match a.tgt with
              | .scr j off => some { id := w.g.seq, team := j, off := off, bytes := data a.thr, pts := w.g.pts }
              | _ => none } := by
  have hheld : w.heldAccs accs = accs.filter w.late := rfl
  have hlate : (accs.filter fun a => !(w.heldAccs accs).contains a) = accs.filter fun a => !w.late a := by
    refine List.filter_congr fun a ha => ?_
    congr 1
    rw [hheld, Bool.eq_iff_iff, List.contains_iff_mem, List.mem_filter]
    exact and_iff_right ha
  have hpriv : ∀ s, w.privStores accs data s w.g = (s, w.g) := fun s => by
    unfold View.privStores
    rw [haccs.any_isPriv]
    rfl
  unfold View.runStore
  simp only [haccs.any_isGlob, haccs.privBehind, hrel, haccs.clean, hlate, hpriv, haccs.globParts, haccs.privGone, Bool.and_false, Bool.false_and,
    Bool.or_self, Bool.false_eq_true, if_false]
  refine ⟨_, rfl, (issued_leaves ..).of_core ((track_core ..).trans ?_)⟩
  obtain ⟨ths, sr, e⟩ := startPend_unpause_eq w.g i m w.sel
  rw [e, goneReport_nil]
  simp only [List.isEmpty_nil, if_true, List.append_nil]
  rfl
end

/-- What a store to scratchpads does when its data have n bytes (R196): memory and other groups stay, its own group takes its place in
program order, and of the accesses to a byte the last one stays. -/
theorem runStore_scratch_written {w : View} {accs : List ThreadAcc} (haccs : AllScr accs) (hrel : w.g.releasePending = false) (i : Instr)
    (m : Mask) {data : Nat → List Byte} {n : Nat} (hn : ∀ k, (data k).length = n) :
    ∃ t, w.runStore i m accs data = .next t ∧ t.mem = w.s.mem
      ∧ GroupIs t w.u { (w.g.startPend i m w.sel).unpause m with
          seq := w.g.seq + 1
          cluOut := w.g.cluOut ++ (accs.filter w.late).filterMap fun a => match a.tgt with
            | .scr j off => some { id := w.g.seq, team := j, off := off, bytes := data a.thr, pts := w.g.pts }
            | _ => none }
      ∧ (∀ v, v ≠ w.u → look t.groups v = look w.s.groups v)
      ∧ ∀ k tm, look w.s.teams k = some tm → ∃ tm', look t.teams k = some tm' ∧ ∀ o,
          readByte tm'.scratch o = match (accs.filter fun a => !w.late a).reverse.find? (ThreadAcc.covers n k o) with
            | some a => (data a.thr).getD (o - a.scrOff) 0
            | none => readByte tm.scratch o := by
  obtain ⟨t, ht, hl⟩ := runStore_scratch haccs hrel i m data
  obtain ⟨teams, hteams⟩ := scratchStores_teams (accs.filter fun a => !w.late a) data w.g.pts w.s
  refine ⟨t, ht, ?_, hl.look, fun v hv => (hl.other hv).trans (by rw [hteams]), fun k tm htm => ?_⟩
  · obtain ⟨g', e, -⟩ := hl
    rw [e, hteams]
  · obtain ⟨tm', htm', hbytes⟩ := look_scratchStores (haccs.filter fun a => !w.late a) hn w.g.pts w.s htm
    refine ⟨tm', ?_, hbytes⟩
    obtain ⟨g', e, -⟩ := hl
    rw [e]
    exact htm'

/-- Settles O21: the bytes are written in the order of the threads, so that the last writer's stays (R178, R196). -/
theorem scratchpadStores : Obligations.ScratchpadStores := by
  intro s s1 w m
  refine ⟨fun x h hacc hpass haccs hrel => ?sts, fun x h hacc haccs hrel => ?mcst⟩
  case sts =>
    obtain ⟨o, rfl⟩ := Passes.objs hpass
    rw [exec_sts, execSts, storeOp, issue_runs h, access_of_accessible hacc, raced_of_passes hpass]
    exact runStore_scratch_written (w := { w with s := { w.s with objs := o } }) haccs hrel (.sts x) m fun k => bytesOf_length ..
  case mcst =>
    rw [exec_mcst, execMcst, issue_runs h]
    dsimp only
    rw [access_of_accessible hacc]
    exact runStore_scratch_written haccs hrel (.mcst x) m fun k => bytesOf_length ..

end Sys2Proof.Machine

/-! ## Pending destinations that are written at once (R39, R41, R44, R150) -/

namespace Sys2Proof.Machine

/-! What last-use sources leave, as functions of the registers alone. -/

/-- The v registers of a thread after last-use sources have been read (R39). -/
def releasedV (srcs : List SrcUse) (v : AList W32) : AList W32 := (releaseV srcs { v := v }).v

/-- The s registers of a group after last-use sources have been read (R39). -/
def releasedS (srcs : List SrcUse) (s : AList W64) : AList W64 := (releaseS srcs { s := s }).s

theorem poisonRun_congr (b k : Nat) {th th' : Thread} (h : th.v = th'.v) :
    ((List.range k).foldl (fun (th : Thread) j => th.setV (b + j) poison32) th).v
      = ((List.range k).foldl (fun (th : Thread) j => th.setV (b + j) poison32) th').v := by
  induction k with
  | zero => exact h
  | succ k ih =>
    rw [List.range_succ, List.foldl_append, List.foldl_append]
    exact congrArg (fun v => rput 0 v (b + k) poison32) ih

theorem relV1_congr (x : SrcUse) {th th' : Thread} (h : th.v = th'.v) : (relV1 x th).v = (relV1 x th').v := by
  unfold relV1
  split
  · exact poisonRun_congr _ _ h
  · exact h

theorem releaseV_congr (srcs : List SrcUse) {th th' : Thread} (h : th.v = th'.v) : (releaseV srcs th).v = (releaseV srcs th').v := by
  induction srcs generalizing th th' with
  | nil => exact h
  | cons x xs ih =>
    rw [releaseV_cons, releaseV_cons]
    exact ih (relV1_congr x h)

theorem releaseV_eq (srcs : List SrcUse) (th : Thread) : releaseV srcs th = { th with v := releasedV srcs th.v } := by
  obtain ⟨v, e⟩ := (releaseV_spec srcs th).1
  have hv : v = releasedV srcs th.v := (congrArg Thread.v e).symm.trans (releaseV_congr srcs rfl)
  rw [e, hv]

theorem relS1_congr (x : SrcUse) {g g' : Group} (h : g.s = g'.s) : (relS1 x g).s = (relS1 x g').s := by
  unfold relS1
  split
  · split <;> simp only [Group.setS, h]
  · exact h

theorem releaseS_congr (srcs : List SrcUse) {g g' : Group} (h : g.s = g'.s) : (releaseS srcs g).s = (releaseS srcs g').s := by
  induction srcs generalizing g g' with
  | nil => exact h
  | cons x xs ih =>
    rw [releaseS_cons, releaseS_cons]
    exact ih (relS1_congr x h)

theorem releaseS_eq (srcs : List SrcUse) (g : Group) : releaseS srcs g = { g with s := releasedS srcs g.s } := by
  obtain ⟨s, e⟩ := (releaseS_spec srcs g).1
  have hs : s = releasedS srcs g.s := (congrArg Group.s e).symm.trans (releaseS_congr srcs rfl)
  rw [e, hs]

/-! The start of an instruction whose destination comes later. -/

/-- One thread of `startPend`. -/
def pendThread (i : Instr) (m moved : Mask) (t : Nat) (th : Thread) : Thread :=
  let th := if inMask m t then
      let th := releaseV i.uses.srcs th
      if i.latches then th.shiftLatch 0 else th
    else th
  if inMask moved t then th.step12 else th

/-- A start changes the threads and the s registers that are used for the last time, and what they were decides what they are. -/
theorem startPend_spec (g : Group) (i : Instr) (m moved : Mask) :
    g.startPend i m moved = { g with threads := g.threads.mapIdx (pendThread i m moved), s := releasedS i.uses.srcs g.s } := by
  show (releaseS i.uses.srcs g).mapThreads (pendThread i m moved) = _
  rw [releaseS_eq]
  rfl

/-- The pausing flag of a thread that stores or does an atomic (R150). -/
def unpauseThread (m : Mask) (t : Nat) (th : Thread) : Thread := if inMask m t then { th with pausing := false } else th

theorem unpause_spec (g : Group) (m : Mask) : g.unpause m = { g with threads := g.threads.mapIdx (unpauseThread m) } := rfl

theorem pendThread_unpause (i : Instr) (m moved : Mask) (t : Nat) (th : Thread) :
    unpauseThread m t (pendThread i m moved t th) = pendThread i m moved t (unpauseThread m t th) := by
  unfold unpauseThread pendThread
  cases inMask m t <;> cases inMask moved t <;> cases i.latches <;>
    simp only [if_true, if_false, Bool.false_eq_true, releaseV_eq] <;> rfl

/-- The pausing flags fall before or after the start alike. -/
theorem unpause_startPend (g : Group) (i : Instr) (m moved : Mask) :
    (g.startPend i m moved).unpause m = (g.unpause m).startPend i m moved := by
  simp only [startPend_spec, unpause_spec, List.mapIdx_mapIdx]
  have h : (fun t => unpauseThread m t ∘ pendThread i m moved t) = fun t => pendThread i m moved t ∘ unpauseThread m t :=
    funext fun t => funext fun th => pendThread_unpause i m moved t th
  rw [h]

/-- What a start has left of a thread. -/
theorem pendThread_spec (i : Instr) (m moved : Mask) (t : Nat) (th : Thread) :
    (pendThread i m moved t th).pc = (if inMask moved t then th.pc + 12 else th.pc)
      ∧ (pendThread i m moved t th).stat = th.stat ∧ (pendThread i m moved t th).pausing = th.pausing
      ∧ (pendThread i m moved t th).rctr = th.rctr ∧ (pendThread i m moved t th).fpc = th.fpc
      ∧ (pendThread i m moved t th).fstat = th.fstat ∧ (pendThread i m moved t th).fpausing = th.fpausing
      ∧ (pendThread i m moved t th).fpreds = th.fpreds ∧ (pendThread i m moved t th).preds = th.preds
      ∧ (pendThread i m moved t th).v = if inMask m t then releasedV i.uses.srcs th.v else th.v := by
  unfold pendThread
  cases inMask m t <;> cases inMask moved t <;> cases i.latches <;>
    simp [releaseV_eq, Thread.shiftLatch, Thread.step12]


/-! The values of a destination that are there when its instruction issues. -/

/-- One thread of `deliver`. -/
def deliverThread (p : Pend) (t : Nat) (th : Thread) : Thread :=
  if inMask p.mask t then
    let th := th.write (some ⟨p.dst, .vs p.ty.regw⟩) [] (.bits (p.value t))
    match p.lat.find? fun x => x.1 == t with
    | some x => th.setLatch (th.lseq - x.2) (BitVec.ofNat 32 (p.value t))
    | none => th
  else th

theorem setLatch_bare (th : Thread) (n : Nat) (x : W32) : (th.setLatch n x).bare = th.bare := by
  unfold Thread.setLatch
  split <;> rfl

/-- A thread of the mask takes its value; its latches apart it is as the write leaves it. -/
theorem deliverThread_bare (p : Pend) (t : Nat) (th : Thread) :
    (deliverThread p t th).bare
      = (if inMask p.mask t then th.write (some ⟨p.dst, .vs p.ty.regw⟩) [] (.bits (p.value t)) else th).bare := by
  unfold deliverThread
  split
  · split
    · exact setLatch_bare ..
    · rfl
  · rfl

theorem mem_mapIdx_thread (g : Group) (f : Nat → Thread → Thread) (k : Nat) (hk : k < g.threads.length) :
    (g.threads.mapIdx f).getD k {} = f k (g.thread k) := mapThreads_thread g f k hk

section
variable {i : Instr} {w : View} {m : Mask} {p : Pend} {r : DRole}

/-- A destination is v or s registers of the width of its type. -/
structure Pend.Fits (p : Pend) (i : Instr) (m : Mask) : Prop where
  dst : ∃ r, i.uses.dst = some ⟨p.dst, r⟩ ∧ r.width = p.ty.regw
  file : (∃ n nwb, p.dst = .v n nwb) ∨ ∃ n, p.dst = .s n
  pds : i.uses.pds = []
  mask : p.mask = m


theorem vreg_releasedV {srcs : List SrcUse} {th th' : Thread} (h : th'.v = releasedV srcs th.v) (n : Nat) :
    th'.vreg n = if lastVIn srcs n then poison32 else th.vreg n := by
  rw [← (releaseV_spec srcs th).2 n, releaseV_eq]
  simp only [Thread.vreg, h]

theorem sreg_releasedS {srcs : List SrcUse} {g g' : Group} (h : g'.s = releasedS srcs g.s) (n : Nat) :
    g'.sreg n = if lastSIn srcs n then poison64 else g.sreg n := by
  rw [← (releaseS_spec srcs g).2 n, releaseS_eq]
  simp only [Group.sreg, h]

/-- The write of a value to its destination alone. -/
abbrev Pend.use (p : Pend) : Uses := { ctl := ⟨⟨false, 7⟩, ⟨0, false, 7, 0⟩⟩, dst := some ⟨p.dst, .vs p.ty.regw⟩ }

section
variable (hf : p.Fits i m)
include hf

/-- Sources go first, then the destination is written: what one write after them leaves (R39). -/
theorem Pend.Fits.vAfter_use (d : Nat) {old old' : Nat → W32} (hold : ∀ n, old' n = if lastVIn i.uses.srcs n then poison32 else old n) (n : Nat) :
    vAfter p.use d old' n = vAfter i.uses d old n := by
  obtain ⟨⟨r, hdst, hr⟩, hfile, -, -⟩ := hf
  have hkept : (if lastV i.uses n then poison32 else old n) = old' n := (hold n).symm
  unfold vAfter
  rw [hdst, hkept, show p.use.dst = some ⟨p.dst, .vs p.ty.regw⟩ from rfl]
  obtain ⟨b, nwb, hp⟩ | ⟨b, hp⟩ := hfile
  · rw [hp]
    cases nwb <;> simp only [hr] <;> rfl
  · rw [hp]
    rfl

theorem Pend.Fits.sAfter_use (sx : Bool) (d : Nat) {old old' : Nat → W64}
    (hold : ∀ n, old' n = if lastSIn i.uses.srcs n then poison64 else old n) (n : Nat) : sAfter p.use sx d old' n = sAfter i.uses sx d old n := by
  obtain ⟨⟨r, hdst, hr⟩, hfile, -, -⟩ := hf
  have hkept : (if lastS i.uses n then poison64 else old n) = old' n := (hold n).symm
  unfold sAfter
  rw [hdst, hkept, show p.use.dst = some ⟨p.dst, .vs p.ty.regw⟩ from rfl]
  obtain ⟨b, nwb, hp⟩ | ⟨b, hp⟩ := hfile
  · rw [hp]
    rfl
  · rw [hp]
    simp only [hr]
    rfl

/-- No h register is a destination that comes later. -/
theorem Pend.Fits.hAfter_use (d : Nat) (old : Nat → W64) (n : Nat) : hAfter p.use d old n = old n ∧ hAfter i.uses d old n = old n := by
  obtain ⟨⟨r, hdst, -⟩, hfile, -, -⟩ := hf
  unfold hAfter
  rw [hdst, show p.use.dst = some ⟨p.dst, .vs p.ty.regw⟩ from rfl]
  obtain ⟨b, nwb, hp⟩ | ⟨b, hp⟩ := hfile <;> rw [hp] <;> exact ⟨rfl, rfl⟩

theorem Pend.Fits.predAfter_use (q : Bool) (old : BitVec 3 → Bool) (n : BitVec 3) :
    predAfter p.use q old n = old n ∧ predAfter i.uses q old n = old n := by
  obtain ⟨⟨r, hdst, -⟩, hfile, hpds, -⟩ := hf
  unfold predAfter
  rw [hdst, hpds, show p.use.dst = some ⟨p.dst, .vs p.ty.regw⟩ from rfl]
  obtain ⟨b, nwb, hp⟩ | ⟨b, hp⟩ := hfile <;> rw [hp] <;> simp

/-- One thread of a destination that is written when its instruction issues. -/
theorem Pend.Fits.thread {moved : Mask} (k : Nat) (th : Thread) :
    let th' := deliverThread p k (pendThread i m moved k th)
    th'.pc = (if inMask moved k then th.pc + 12 else th.pc) ∧ th'.stat = th.stat ∧ th'.pausing = th.pausing
      ∧ th'.rctr = (if inMask m k then th.rctr + BitVec.ofNat 64 0 else th.rctr) ∧ th'.fpc = th.fpc ∧ th'.fstat = th.fstat
      ∧ th'.fpausing = th.fpausing ∧ th'.fpreds = th.fpreds
      ∧ (∀ n, th'.vreg n = if inMask m k then vAfter i.uses (p.value k) th.vreg n else th.vreg n)
      ∧ ∀ n, th'.pred n = if inMask m k then predAfter i.uses false th.pred n else th.pred n := by
  obtain ⟨hpc, hstat, hpausing, hrctr, hfpc, hfstat, hfpausing, hfpreds, hpreds, hv⟩ := pendThread_spec i m moved k th
  have hpred : ∀ n, (pendThread i m moved k th).pred n = th.pred n := fun n => by simp only [Thread.pred, hpreds]
  have hbare := deliverThread_bare p k (pendThread i m moved k th)
  rw [hf.mask] at hbare
  generalize pendThread i m moved k th = th1 at *
  generalize deliverThread p k th1 = th2 at *
  have f := fun {α : Type} (q : Thread → α) (hq : ∀ t : Thread, q t.bare = q t) => (hq _).symm.trans ((congrArg q hbare).trans (hq _))
  have hrctr0 : th.rctr + BitVec.ofNat 64 0 = th.rctr := by simp
  rw [hrctr0, ite_self]
  cases hm : inMask m k with
  | false =>
    simp only [hm, Bool.false_eq_true, if_false] at f hv ⊢
    exact ⟨(f Thread.pc fun _ => rfl).trans hpc, (f Thread.stat fun _ => rfl).trans hstat, (f Thread.pausing fun _ => rfl).trans hpausing,
      (f Thread.rctr fun _ => rfl).trans hrctr, (f Thread.fpc fun _ => rfl).trans hfpc, (f Thread.fstat fun _ => rfl).trans hfstat,
      (f Thread.fpausing fun _ => rfl).trans hfpausing, (f Thread.fpreds fun _ => rfl).trans hfpreds,
      fun n => (f (fun t => t.vreg n) fun _ => rfl).trans (by simp only [Thread.vreg, hv]),
      fun n => (f (fun t => t.pred n) fun _ => rfl).trans (hpred n)⟩
  | true =>
    simp only [hm, if_true] at f hv ⊢
    obtain ⟨⟨v, ps, e⟩, hwv, hwp⟩ := write_spec p.use (.bits (p.value k)) th1
    rw [show releaseV p.use.srcs th1 = th1 from rfl, show p.use.pds = [] from rfl] at e hwv hwp
    have same := fun {α : Type} (q : Thread → α) (hq : ∀ t : Thread, q { t with v := v, preds := ps } = q t) =>
      (congrArg q e).trans (hq th1)
    refine ⟨(f Thread.pc fun _ => rfl).trans ((same Thread.pc fun _ => rfl).trans hpc),
      (f Thread.stat fun _ => rfl).trans ((same Thread.stat fun _ => rfl).trans hstat),
      (f Thread.pausing fun _ => rfl).trans ((same Thread.pausing fun _ => rfl).trans hpausing),
      (f Thread.rctr fun _ => rfl).trans ((same Thread.rctr fun _ => rfl).trans hrctr),
      (f Thread.fpc fun _ => rfl).trans ((same Thread.fpc fun _ => rfl).trans hfpc),
      (f Thread.fstat fun _ => rfl).trans ((same Thread.fstat fun _ => rfl).trans hfstat),
      (f Thread.fpausing fun _ => rfl).trans ((same Thread.fpausing fun _ => rfl).trans hfpausing),
      (f Thread.fpreds fun _ => rfl).trans ((same Thread.fpreds fun _ => rfl).trans hfpreds),
      fun n => (f (fun t => t.vreg n) fun _ => rfl).trans ((hwv n).trans (hf.vAfter_use _ (vreg_releasedV hv) n)),
      fun n => (f (fun t => t.pred n) fun _ => rfl).trans ((hwp n).trans ?_)⟩
    rw [(hf.predAfter_use _ _ n).1, (hf.predAfter_use _ _ n).2]
    exact hpred n

/-- A group that an instruction with a pending destination has started, its values delivered, is what a lane instruction leaves. -/
theorem deliver_gives {g1 : Group} (hthreads : g1.threads = w.g.threads.mapIdx (pendThread i m w.sel))
    (hs : g1.s = releasedS i.uses.srcs w.g.s) (hh : g1.h = w.g.h) (hrest : g1.rest = w.g.rest) :
    w.Gives i m p.ty.sfill (fun t => .bits (p.value t)) (g1.deliver p) := by
  obtain ⟨⟨sr, hr, ms, so, e⟩, hws, hwh⟩ :=
    gwrite_spec p.use p.mask p.ty.sfill (.bits (p.value (lowest p.mask))) (g1.mapThreads (deliverThread p))
  have hdel : g1.deliver p
      = { (g1.mapThreads (deliverThread p)).write p.mask p.use.dst p.ty.sfill (.bits (p.value (lowest p.mask))) with
          marks := p.marks ++ ((g1.mapThreads (deliverThread p)).write p.mask p.use.dst p.ty.sfill (.bits (p.value (lowest p.mask)))).marks } := rfl
  have hsreg : ∀ n, g1.sreg n = if lastSIn i.uses.srcs n then poison64 else w.g.sreg n := sreg_releasedS hs
  refine ⟨?_, ?_, fun k hk => ?_, fun n => ?_, fun n => ?_⟩
  · rw [hdel, e]
    exact hrest
  · rw [hdel, e]
    simp [Group.mapThreads, hthreads]
  · have hk' : k < g1.threads.length := by simpa [hthreads] using hk
    have hthread : (g1.deliver p).thread k = deliverThread p k (pendThread i m w.sel k (w.g.thread k)) := by
      rw [hdel, e]
      refine (mapThreads_thread g1 _ k hk').trans (congrArg (deliverThread p k) ?_)
      rw [← mapThreads_thread w.g (pendThread i m w.sel) k hk]
      simp only [Group.thread, Group.mapThreads, hthreads]
    rw [hthread]
    exact hf.thread k (w.g.thread k)
  · rw [hdel]
    refine Eq.trans ?_ ((hf.sAfter_use p.ty.sfill (p.value (lowest m)) hsreg n))
    refine (hws n).trans ?_
    rw [hf.mask]
    rfl
  · rw [hdel]
    refine (hwh n).trans ((hf.hAfter_use _ _ n).1.trans ?_)
    refine Eq.trans ?_ (hf.hAfter_use _ _ n).2.symm
    simp only [Group.hreg, Group.mapThreads, hh]
end

end
end Sys2Proof.Machine

/-! ## The threads' accesses (R172, R186, R194) -/

namespace Sys2Proof.Machine

theorem put_put {α : Type} (l : AList α) (k : Nat) (a b : α) : put (put l k a) k b = put l k b := by
  induction l with
  | nil => simp [put]
  | cons x l ih =>
    obtain ⟨j, c⟩ := x
    by_cases hlt : k < j
    · simp [put, hlt]
    · by_cases heq : j = k
      · simp [put, heq]
      · simp [put, hlt, heq, ih]

theorem upd_of_look {α : Type} {l : AList α} {k : Nat} {a : α} (h : look l k = some a) (f : α → α) : upd l k f = put l k (f a) := by
  simp only [upd, h]

theorem threadsOf_ne_nil {m : Mask} (h : m ≠ 0) : threadsOf m ≠ [] := by
  intro hnil
  refine h (BitVec.eq_of_getLsbD_eq fun t ht => ?_)
  have hmem : t ∉ threadsOf m := by
    rw [hnil]
    exact List.not_mem_nil
  simpa [mem_threadsOf, ht, inMask] using hmem

theorem lanes_ne_nil {u : Uses} {m : Mask} (h : m ≠ 0) : lanes u m ≠ [] := by
  unfold lanes
  split
  · exact List.cons_ne_nil _ _
  · exact threadsOf_ne_nil h

section
variable (w : View) (a : ThreadAcc)

@[simp] theorem settleTgt_thr : (w.settleTgt a).thr = a.thr := by
  unfold View.settleTgt
  repeat' split
  all_goals rfl

@[simp] theorem settleTgt_n : (w.settleTgt a).n = a.n := by
  unfold View.settleTgt
  repeat' split
  all_goals rfl

/-- Settling changes accesses to a thread's own space alone. -/
theorem settleTgt_of_scr {k off : Nat} (h : (w.settleTgt a).tgt = .scr k off) : w.settleTgt a = a := by
  unfold View.settleTgt at h ⊢
  split at h
  next b hb =>
    split at h
    · simp [hb] at h
    · simp at h
  next => rfl

theorem settleTgt_pcs_length : (w.settleTgt a).pcs.length = a.pcs.length := by
  unfold View.settleTgt
  repeat' split
  all_goals simp
end

section
variable {w : View} {u : Uses} {m : Mask} {n : Nat} {acc : Acc} {addr : Nat → AddrOut}

/-- A thread's access, translated, before one to its own space is settled. -/
def View.rawAcc (w : View) (n : Nat) (acc : Acc) (addr : Nat → AddrOut) (t : Nat) : ThreadAcc :=
  { thr := t, n := n, tgt := (addr t).tgt
    pcs := (w.vPieces t n (addr t).tgt).filterMap fun p =>
      (w.lookupVa p.1 (accOf acc (addr t).tgt)).map fun r => ⟨t, p.2.1, p.2.2, r.1, r.2, p.1⟩ }

theorem accsOf_eq : w.accsOf u m n acc addr = (lanes u m).map fun t => w.settleTgt (w.rawAcc n acc addr t) := rfl

theorem accsOf_ne_nil (h : m ≠ 0) : w.accsOf u m n acc addr ≠ [] := by
  rw [accsOf_eq, ne_eq, List.map_eq_nil_iff]
  exact lanes_ne_nil h

theorem accsOf_n {a : ThreadAcc} (ha : a ∈ w.accsOf u m n acc addr) : a.n = n := by
  rw [accsOf_eq, List.mem_map] at ha
  obtain ⟨t, -, rfl⟩ := ha
  simp [View.rawAcc]

theorem accsOf_thr : (w.accsOf u m n acc addr).map (·.thr) = lanes u m := by
  rw [accsOf_eq, List.map_map]
  conv_rhs => rw [← List.map_id (lanes u m)]
  refine List.map_congr_left fun t _ => ?_
  simp [View.rawAcc]

/-- An access to a scratchpad has no pieces to translate. -/
theorem accsOf_scr_pcs {a : ThreadAcc} (ha : a ∈ w.accsOf u m n acc addr) {k off : Nat} (hscr : a.tgt = .scr k off) : a.pcs = [] := by
  rw [accsOf_eq, List.mem_map] at ha
  obtain ⟨t, -, rfl⟩ := ha
  have hsettle := settleTgt_of_scr _ _ hscr
  rw [hsettle] at hscr ⊢
  have htgt : (addr t).tgt = .scr k off := hscr
  simp [View.rawAcc, htgt, View.vPieces]
end

end Sys2Proof.Machine

/-! ## Atomics on scratchpads (R177, R222, R242, R243) -/

namespace Sys2Proof.Machine

/-- What an acquire at a scope makes of the clocks, where the form is one, and its timestamp is among those seen (R217, R222). -/
theorem acquire_eq (g : Group) {sem : Sem} {scope : Scope} {ts : Nat} (h : ts ≤ g.lmax) :
    (if Sem.isAcq sem then g.acquire scope ts else g) = { g with
      pts := if Sem.isAcq sem ∧ scope ≠ Scope.grp then max g.pts g.lmax else g.pts
      ah := if Sem.isAcq sem ∧ scope ≠ Scope.grp ∧ Scope.wide scope then max g.pts g.lmax else g.ah } := by
  unfold Group.acquire
  cases Sem.isAcq sem with
  | false => simp
  | true =>
    by_cases hs : scope = .grp
    · simp [hs]
    · simp only [hs, beq_iff_eq, if_false, if_true, max_eq_left h, ne_eq, not_false_eq_true, and_self, true_and]

section
variable (n : Nat) (ty : Ty) (op : Aop) (b c : Nat → Nat)

/-- One thread's atomic on a scratchpad: the new bytes, and what the thread found (R243). -/
def scratchAtomic (r : Memory × List (Nat × Nat)) (a : ThreadAcc) : Memory × List (Nat × Nat) := match a.tgt with
  | .scr _ off => (writeNat r.1 off n (atomicNew op ty (readNat r.1 off n) (b a.thr) (c a.thr)), r.2 ++ [(a.thr, readNat r.1 off n)])
  | _ => r

/-- After some threads the model's run stands where the plain one on the scratchpad's bytes does. -/
structure AtomicRun (w : View) (k : Nat) (tm : Team) (x : LocalRun) (r : Memory × List (Nat × Nat)) : Prop where
  state : ∃ teams stamps bad past, x.s = { w.s with teams := teams } ∧ (∀ t, put teams k t = put w.s.teams k t)
    ∧ look teams k = some { tm with scratch := r.1, stamps := stamps, scrbad := bad, past := past } ∧ ∀ h ∈ bad, h ∈ tm.scrbad
  group : x.g = w.g
  old : x.old = r.2
  good : x.bad = [] ∧ x.gone = []

variable {w : View} {k : Nat} {tm : Team} {n ty op b c}

theorem AtomicRun.start (htm : look w.s.teams k = some tm) : AtomicRun w k tm { s := w.s, g := w.g } (tm.scratch, []) :=
  ⟨⟨w.s.teams, tm.stamps, tm.scrbad, tm.past, rfl, fun _ => rfl, htm, fun _ h => h⟩, rfl, rfl, rfl, rfl⟩

/-- The next thread's atomic, at a place without an uncorrectable half. The scratchpad's team is then put back once. -/
theorem AtomicRun.one {x : LocalRun} {r : Memory × List (Nat × Nat)} (h : AtomicRun w k tm x r) {a : ThreadAcc} {off : Nat}
    (htgt : a.tgt = .scr k off) (hn : a.n = n) (hgood : tm.scrBad off n = false) (pts : Nat) :
    let x' := x.one w a pts fun old => atomicNew op ty old (b a.thr) (c a.thr)
    AtomicRun w k tm x' (scratchAtomic n ty op b c r a)
      ∧ ∃ stamps bad past, x'.s = { w.s with teams := put w.s.teams k { tm with
          scratch := (scratchAtomic n ty op b c r a).1, stamps := stamps, scrbad := bad, past := past } } := by
  obtain ⟨⟨teams, stamps, bad, past, hs, hput, hlook, hsub⟩, hg, hold, hb, hgone⟩ := h
  subst hn
  generalize ht0 : ({ tm with scratch := r.1, stamps := stamps, scrbad := bad, past := past } : Team) = t0 at hlook
  have hbad : t0.scrBad off a.n = false := by
    subst ht0
    unfold Team.scrBad at hgood ⊢
    rw [List.any_eq_false] at hgood ⊢
    exact fun h hh => hgood h (hsub h hh)
  have hscratch : t0.scratch = r.1 := by rw [← ht0]
  let new := bytesOf a.n (atomicNew op ty (readNat r.1 off a.n) (b a.thr) (c a.thr))
  have hone : x.one w a pts (fun old => atomicNew op ty old (b a.thr) (c a.thr))
      = { x.note a (readNat r.1 off a.n) false with
          ts := max x.ts (t0.stampOf off)
          s := { w.s with teams := put w.s.teams k { t0.scrWrite off new pts with scrbad := (t0.scrWrite off new pts).scrbad } } } := by
    unfold LocalRun.one
    simp only [htgt, hs, hlook, hbad, Bool.false_eq_true, if_false, Team.scrBytes, hscratch, State.updTeam, upd_of_look hlook, hput]
    rfl
  have hscr : scratchAtomic a.n ty op b c r a = (writeBytes r.1 off new, r.2 ++ [(a.thr, readNat r.1 off a.n)]) := by
    unfold scratchAtomic
    rw [htgt]
    rfl
  have hteam : ({ t0.scrWrite off new pts with scrbad := (t0.scrWrite off new pts).scrbad } : Team)
      = { tm with scratch := writeBytes r.1 off new, stamps := (t0.scrWrite off new pts).stamps, scrbad := (t0.scrWrite off new pts).scrbad,
                  past := (t0.scrWrite off new pts).past } := by
    subst ht0
    rfl
  have hless : ∀ h ∈ (t0.scrWrite off new pts).scrbad, h ∈ tm.scrbad := fun h hh => by
    have hin : h ∈ t0.scrbad := by
      simp only [Team.scrWrite] at hh
      split at hh
      · exact absurd hh List.not_mem_nil
      · exact List.mem_of_mem_filter hh
    rw [← ht0] at hin
    exact hsub h hin
  rw [hteam] at hone
  dsimp only
  rw [hone, hscr]
  refine ⟨⟨⟨_, _, _, _, rfl, fun t => put_put .., look_put_same .., hless⟩, hg, ?_, ?_, hgone⟩, _, _, _, rfl⟩
  · simp [LocalRun.note, hold]
  · simp [LocalRun.note, hb]

/-- The threads' atomics one after another. -/
theorem AtomicRun.all (htm : look w.s.teams k = some tm) {accs : List ThreadAcc} (haccs : ∀ a ∈ accs, (∃ off, a.tgt = .scr k off) ∧ a.n = n)
    (hgood : ∀ a ∈ accs, ∀ off, a.tgt = .scr k off → tm.scrBad off n = false) (hne : accs ≠ []) (pts : Nat) :
    let x := accs.foldl (fun (x : LocalRun) a => x.one w a pts fun old => atomicNew op ty old (b a.thr) (c a.thr)) { s := w.s, g := w.g }
    let r := accs.foldl (scratchAtomic n ty op b c) (tm.scratch, [])
    AtomicRun w k tm x r ∧ ∃ stamps bad past,
      x.s = w.s.updTeam k fun tm => { tm with scratch := r.1, stamps := stamps, scrbad := bad, past := past } := by
  induction accs using List.reverseRecOn with
  | nil => exact absurd rfl hne
  | append_singleton accs a ih =>
    have hrun : AtomicRun w k tm
        (accs.foldl (fun (x : LocalRun) a => x.one w a pts fun old => atomicNew op ty old (b a.thr) (c a.thr)) { s := w.s, g := w.g })
        (accs.foldl (scratchAtomic n ty op b c) (tm.scratch, [])) := by
      by_cases hnil : accs = []
      · subst hnil
        exact AtomicRun.start htm
      · exact (ih (fun a' ha' => haccs a' (List.mem_append_left _ ha')) (fun a' ha' => hgood a' (List.mem_append_left _ ha')) hnil).1
    have ha : a ∈ accs ++ [a] := List.mem_append_right _ (List.mem_singleton_self a)
    obtain ⟨⟨off, htgt⟩, hn⟩ := haccs a ha
    obtain ⟨hstep, stamps, bad, past, hs⟩ := hrun.one (ty := ty) (op := op) (b := b) (c := c) htgt hn (hgood a ha off htgt) pts
    simp only [List.foldl_append, List.foldl_cons, List.foldl_nil]
    refine ⟨hstep, stamps, bad, past, hs.trans ?_⟩
    rw [State.updTeam, upd_of_look htm]
end


/-! The accesses of an atomic on one scratchpad. -/

section
variable {w : View} {accs : List ThreadAcc} {k n : Nat} {tm : Team}

theorem scrBad_of_badPriv (htm : look w.s.teams k = some tm) (hbad : w.badPriv accs = []) (hn : ∀ a ∈ accs, a.n = n) :
    ∀ a ∈ accs, ∀ off, a.tgt = .scr k off → tm.scrBad off n = false := by
  intro a ha off htgt
  unfold View.badPriv at hbad
  rw [List.map_eq_nil_iff, List.filter_eq_nil_iff] at hbad
  have h := hbad a ha
  simp only [htgt, htm, Bool.not_eq_true] at h
  rw [← hn a ha]
  exact h

theorem AllScr.filter_isFar (h : AllScr accs) : accs.filter isFar = [] := by
  rw [List.filter_eq_nil_iff]
  intro a ha
  obtain ⟨k, off, e⟩ := h a ha
  simp [isFar, isGlob, e]

theorem AllScr.any_isScr (h : AllScr accs) (hne : accs ≠ []) : accs.any isScr = true := by
  obtain ⟨a, ha⟩ := List.exists_mem_of_ne_nil _ hne
  obtain ⟨k, off, e⟩ := h a ha
  rw [List.any_eq_true]
  exact ⟨a, ha, by simp [isScr, e]⟩

theorem AllScr.any_not_isGlob (h : AllScr accs) (hne : accs ≠ []) : (accs.any fun a => !isGlob a) = true := by
  obtain ⟨a, ha⟩ := List.exists_mem_of_ne_nil _ hne
  obtain ⟨k, off, e⟩ := h a ha
  rw [List.any_eq_true]
  exact ⟨a, ha, by simp [isGlob, e]⟩

/-- Without pieces no access reaches a register of the device. -/
theorem atomRegs_of_no_pcs (w : View) (h : ∀ a ∈ accs, a.pcs = []) : w.atomRegs accs = 0 := by
  have hany : (fun t => accs.any fun a => a.thr == t && a.pcs.any fun p => !w.s.isRemote (lineOf p.pa) && isRegLine (lineOf p.pa))
      = fun _ => false := by
    funext t
    rw [List.any_eq_false]
    intro a ha
    simp [h a ha]
  unfold View.atomRegs
  rw [hany]
  decide
end

/-- A view whose group's pausing flags have fallen selects the same threads. -/
theorem sel_of_unpause {w w' : View} {m : Mask} (hs : w'.s.curPc = w.s.curPc ∧ w'.s.curMask = w.s.curMask)
    (hthreads : w'.g.threads = w.g.threads.mapIdx (unpauseThread m)) : w'.sel = w.sel := by
  have hthread : ∀ t, (w'.g.thread t).running = (w.g.thread t).running ∧ (w'.g.thread t).pc = (w.g.thread t).pc := fun t => by
    unfold Group.thread
    rw [hthreads, List.getD_eq_getElem?_getD, List.getD_eq_getElem?_getD, List.getElem?_mapIdx]
    cases w.g.threads[t]? with
    | none => exact ⟨rfl, rfl⟩
    | some th =>
      simp only [Option.map_some, Option.getD_some, unpauseThread]
      split <;> exact ⟨rfl, rfl⟩
  unfold View.sel Group.maskIf
  simp only [hs, hthread, hthreads, List.length_mapIdx]

theorem ite_id_apply {α : Type} {q : Prop} [Decidable q] (f : α → α) (a : α) : (if q then f else id) a = if q then f a else a := by
  split <;> rfl

section
variable {w : View} {accs : List ThreadAcc} {k n : Nat} {tm : Team} (htm : look w.s.teams k = some tm)
  (haccs : ∀ a ∈ accs, ∃ off, a.tgt = .scr k off) (hn : ∀ a ∈ accs, a.n = n) (hpcs : ∀ a ∈ accs, a.pcs = []) (hne : accs ≠ [])
  (haway : w.away accs = false) (hbad : w.badPriv accs = []) (hrel : w.g.releasePending = false)
include htm haccs hn hpcs hne haway hbad hrel

/-- An atomic on a scratchpad, done at issue: what it leaves of state and group before its destination is written (R243). -/
theorem runAtomic_scratch {i : Instr} {m : Mask} {ty : Ty} {d : DstUse} (hdst : i.uses.dst = some d) {op : Aop} {sem : Sem} {scope : Scope}
    {b c : Nat → Nat} (hquiet : Sem.isRel sem = true → w.g.quiet scope = true) (hreads : Sem.isAcq sem = true → w.g.reads = []) :
    let r := accs.foldl (scratchAtomic n ty op b c) (tm.scratch, [])
    let g0 := if Sem.isRel sem then w.g.addRelease scope else w.g
    ∃ t ts stamps bad past lat, w.runAtomic i m ty op sem scope b c accs = .next t ∧
      let l := max w.g.lmax ts
      let p : Pend := { id := g0.seq, dst := d.dst, ty := ty, unif := i.uses.uniform, mask := m, lat := lat, got := r.2, bad := [] }
      Leaves ((if Sem.isRel sem then fun s : State => s.updTeam w.g.team (fun tm => tm.countRelease scope) else id)
          (w.s.updTeam k fun tm => { tm with scratch := r.1, stamps := stamps, scrbad := bad, past := past })) w.u t
        (Group.deliver { (g0.startPend i m w.sel).unpause m with
          seq := g0.seq + 1, lmax := l
          pts := if Sem.isAcq sem ∧ scope ≠ Scope.grp then max w.g.pts l else w.g.pts
          ah := if Sem.isAcq sem ∧ scope ≠ Scope.grp ∧ Scope.wide scope then max w.g.pts l else w.g.ah } p) := by
  have hall : AllScr accs := fun a ha => ⟨k, haccs a ha⟩
  obtain ⟨hrun, stamps, bad, past, hs⟩ := AtomicRun.all (ty := ty) (op := op) (b := b) (c := c) htm
    (fun a ha => ⟨haccs a ha, hn a ha⟩) (scrBad_of_badPriv htm hbad hn) hne w.g.pts
  intro r g0
  have hwait : (w.g.releasePending || (Sem.isRel sem && !w.g.quiet scope)) = false := by
    cases hr : Sem.isRel sem <;> simp_all
  have hreads' : (Sem.isAcq sem && !w.g.reads.isEmpty) = false := by
    cases ha : Sem.isAcq sem <;> simp_all
  unfold View.runAtomic
  simp only [atomRegs_of_no_pcs w hpcs, haway, hall.any_isGlob, hall.privBehind, hwait, hreads', hall.any_not_isGlob hne, Bool.true_and,
    Bool.and_false, Bool.false_and, Bool.or_self, Bool.false_eq_true, if_false, bne_self_eq_false, View.readFar, hall.filter_isFar, hall.clean,
    List.foldl_nil, hall.globParts, List.isEmpty_nil, if_true, hdst, Option.map_some]
  generalize List.foldl _ ({ s := w.s, g := w.g } : LocalRun) accs = x at hrun hs ⊢
  obtain ⟨-, hg, hold, hbad, hgone⟩ := hrun
  simp only [hs, hg, hold, hbad, hgone, goneReport_nil, List.append_nil, acquire_eq, le_max_iff, le_refl, or_true]
  refine ⟨_, x.ts, stamps, bad, past, ((g0.startPend i m w.sel).unpause m).latPlaces i m, rfl, ?_⟩
  rw [ite_id_apply (fun s : State => s.updTeam w.g.team fun tm => tm.countRelease scope)]
  refine (issued_leaves ..).of_core ((track_core ..).trans ?_)
  simp only [g0, startPend_spec, unpause_spec]
  cases Sem.isRel sem <;> rfl
end

/-- The destination of a legal form that takes a value later is v or s registers (R37). -/
theorem Issues.fits {i : Instr} {s : State} {w : View} {m : Mask} (h : Issues i s w m) {p : Pend} (hpds : i.uses.pds = [])
    (hdst : i.uses.dst = dstVS p.ty.regw p.dst ∨ i.uses.dst = dstV p.ty.regw p.dst) (hmask : p.mask = m) : p.Fits i m := by
  obtain ⟨r, hr, hrole⟩ : ∃ r, i.uses.dst = some ⟨p.dst, r⟩ ∧ (r = .vs p.ty.regw ∨ r = .v p.ty.regw) :=
    hdst.elim (fun e => ⟨_, e, .inl rfl⟩) fun e => ⟨_, e, .inr rfl⟩
  have haccepts : r.accepts p.dst = true := by
    have hlegal := h.2.1
    simp only [Uses.legal, hr, Bool.and_eq_true] at hlegal
    exact hlegal.1.1.2
  refine ⟨⟨r, hr, ?_⟩, ?_, hpds, hmask⟩
  · obtain rfl | rfl := hrole <;> rfl
  · cases hd : p.dst with
    | v n nwb => exact .inl ⟨n, nwb, rfl⟩
    | s n => exact .inr ⟨n, rfl⟩
    | _ => obtain rfl | rfl := hrole <;> simp [hd, DRole.accepts, dstIsV, dstIsS] at haccepts

/-- A destination that is written at issue, of an instruction that clears the pausing flags of its threads (R150): the group as it is to be
apart from the destination is `g'`, the one that the value is delivered to is `gd`. -/
theorem deliver_unpaused {i : Instr} {w : View} {m : Mask} {p : Pend} (hf : p.Fits i m) {s1 t : State} {g0 g' gd : Group}
    (hs1 : s1.curPc = w.s.curPc ∧ s1.curMask = w.s.curMask) (hg0 : g0.threads = w.g.threads) (hg' : g'.SameRegs (g0.unpause m))
    (hgd : gd.SameRegs ((g0.startPend i m w.sel).unpause m)) (hrest : gd.rest = g'.rest) (hl : Leaves s1 w.u t (gd.deliver p)) :
    LaneDone i { w with s := s1, g := g' } m p.ty.sfill (fun j => .bits (p.value j)) t := by
  obtain ⟨ht, hs, hh⟩ := hg'
  obtain ⟨hdt, hds, hdh⟩ := hgd
  rw [unpause_startPend, startPend_spec] at hdt hds hdh
  have hsel : View.sel { w with s := s1, g := g' } = w.sel := sel_of_unpause (m := m) hs1 (by rw [ht, unpause_spec, hg0])
  refine (deliver_gives hf ?_ ?_ ?_ hrest).done hl
  · rw [hsel, hdt, ht]
  · rw [hds, hs]
  · rw [hdh, hh]

section
variable {s : State} {w : View} {m : Mask} {k : Nat} {tm : Team} (htm : look w.s.teams k = some tm)
include htm

/-- An atomic on a scratchpad that issues, its checks passed, gives its threads what they found (R243). -/
theorem scratchAtomic_done {i : Instr} (h : Issues i s w m) {ty : Ty} {d : Dst} (hdst : i.uses.dst = dstVS ty.regw d) (hpds : i.uses.pds = [])
    {op : Aop} {sem : Sem} {scope : Scope} {b c : Nat → Nat} {addr : Nat → AddrOut} (he : exec i s = w.access i.uses m (ty.width / 8) .atomic addr
      (w.runAtomic i m ty op sem scope b c)) (hacc : w.accessible i.uses m (ty.width / 8) .atomic addr = true)
    (haccs : ∀ a ∈ w.accsOf i.uses m (ty.width / 8) .atomic addr, ∃ off, a.tgt = .scr k off)
    (haway : w.away (w.accsOf i.uses m (ty.width / 8) .atomic addr) = false)
    (hbad : w.badPriv (w.accsOf i.uses m (ty.width / 8) .atomic addr) = []) (hrel : w.g.releasePending = false)
    (hquiet : Sem.isRel sem = true → w.g.quiet scope = true) (hreads : Sem.isAcq sem = true → w.g.reads = []) :
    let run := (w.accsOf i.uses m (ty.width / 8) .atomic addr).foldl (scratchAtomic (ty.width / 8) ty op b c) (tm.scratch, [])
    let g1 := (if Sem.isRel sem then w.g.addRelease scope else w.g).unpause m
    ∃ t l s1 stamps bad past, exec i s = .next t ∧ w.g.lmax ≤ l
      ∧ s1 = (if Sem.isRel sem then fun s : State => s.updTeam w.g.team (fun tm => tm.countRelease scope) else id)
          (w.s.updTeam k fun tm => { tm with scratch := run.1, stamps := stamps, scrbad := bad, past := past })
      ∧ LaneDone i { w with s := s1, g := { g1 with
          seq := g1.seq + 1, lmax := l
          pts := if Sem.isAcq sem ∧ scope ≠ Scope.grp then max w.g.pts l else w.g.pts
          ah := if Sem.isAcq sem ∧ scope ≠ Scope.grp ∧ Scope.wide scope then max w.g.pts l else w.g.ah } } m ty.sfill
          (fun j => .bits (((run.2.find? fun x => x.1 == j).map (·.2)).getD 0)) t := by
  intro run g1
  obtain ⟨t, ts, stamps, bad, past, lat, hrun, hl⟩ := runAtomic_scratch htm haccs (fun a ha => accsOf_n ha)
    (fun a ha => accsOf_scr_pcs ha (haccs a ha).choose_spec) (accsOf_ne_nil h.2.2.2.2.2.1) haway hbad hrel (m := m) (ty := ty) hdst (op := op)
    (b := b) (c := c) hquiet hreads
  refine ⟨t, max w.g.lmax ts, _, stamps, bad, past, (he.trans (access_of_accessible hacc _)).trans hrun, le_max_left .., rfl, ?_⟩
  have hsched : ∀ s0 : State, s0.curPc = w.s.curPc ∧ s0.curMask = w.s.curMask →
      ((if Sem.isRel sem then fun s : State => s.updTeam w.g.team (fun tm => tm.countRelease scope) else id) s0).curPc = w.s.curPc
        ∧ ((if Sem.isRel sem then fun s : State => s.updTeam w.g.team (fun tm => tm.countRelease scope) else id) s0).curMask = w.s.curMask :=
    fun s0 hs0 => by split <;> exact hs0
  have hthreads : (if Sem.isRel sem then w.g.addRelease scope else w.g).threads = w.g.threads := by split <;> rfl
  let p : Pend := { id := (if Sem.isRel sem then w.g.addRelease scope else w.g).seq, dst := d, ty := ty, unif := i.uses.uniform, mask := m,
                    lat := lat, got := run.2, bad := [] }
  have hf : p.Fits i m := h.fits hpds (.inl hdst) rfl
  refine deliver_unpaused hf (hsched _ ⟨rfl, rfl⟩) hthreads ?_ ?_ ?_ hl
  · exact ⟨rfl, rfl, rfl⟩
  · exact ⟨rfl, rfl, rfl⟩
  · simp only [startPend_spec, unpause_spec, g1]
    split <;> rfl
end

/-- Settles O27: the threads' atomics one after another are a run on the scratchpad's bytes, and what it has found is delivered at issue. -/
theorem scratchpadAtomics : Obligations.ScratchpadAtomics := by
  intro s w m k tm htm
  refine ⟨fun x h hacc haccs haway hbad hrel hquiet hreads => ?_, fun x h hacc haccs haway hbad hrel hquiet hreads => ?_⟩
  · refine scratchAtomic_done htm h rfl rfl ?_ hacc haccs haway hbad hrel hquiet hreads
    rw [exec_atoms, execAtoms, issue_runs h]
  · refine scratchAtomic_done htm h rfl rfl ?_ hacc haccs haway hbad hrel hquiet hreads
    rw [exec_atomx, execAtomx, atomOp, issue_runs h]

end Sys2Proof.Machine

/-! ## Atomics on global memory (R179, R217, R242, R243) -/

namespace Sys2Proof.Machine

/-! What a write-back of dirty bytes leaves of the state. -/

/-- The state has changed only at homes, in memory and in the copies of lines. -/
def LinesMoved (s t : State) : Prop :=
  ∃ uid chanq zones homes rcopies l2 bases mem badLines l1,
    t = { s with uid := uid, chanq := chanq, zones := zones, homes := homes, rcopies := rcopies, l2 := l2, bases := bases, mem := mem
                 badLines := badLines, l1 := l1 }

theorem LinesMoved.refl (s : State) : LinesMoved s s :=
  ⟨s.uid, s.chanq, s.zones, s.homes, s.rcopies, s.l2, s.bases, s.mem, s.badLines, s.l1, rfl⟩

theorem LinesMoved.trans {s t u : State} (h : LinesMoved s t) (h' : LinesMoved t u) : LinesMoved s u := by
  obtain ⟨_, _, _, _, _, _, _, _, _, _, rfl⟩ := h
  obtain ⟨_, _, _, _, _, _, _, _, _, _, rfl⟩ := h'
  exact ⟨_, _, _, _, _, _, _, _, _, _, rfl⟩

/-- Groups, teams and contexts stay, and with them the choice of threads. -/
theorem LinesMoved.keeps {s t : State} (h : LinesMoved s t) :
    t.groups = s.groups ∧ t.teams = s.teams ∧ t.ctxs = s.ctxs ∧ t.hostMem = s.hostMem ∧ t.curPc = s.curPc ∧ t.curMask = s.curMask := by
  obtain ⟨_, _, _, _, _, _, _, _, _, _, rfl⟩ := h
  exact ⟨rfl, rfl, rfl, rfl, rfl, rfl⟩

theorem writeLine_moved (s : State) (zn core p : Nat) (leaf : Leaf) (line : Nat) (bytes : AList Byte) :
    LinesMoved s (s.writeLine zn core p leaf line bytes) := by
  obtain ⟨uid, chanq, zones, homes, rcopies, l2, bases, e⟩ :=
    (HomeMoved.refl s).homeWrite zn (s.homeOf (s.zoneOf zn) leaf (line * 128)) line p leaf.unc
  unfold State.writeLine
  dsimp only
  split
  · exact .refl s
  · rw [e]
    exact ⟨uid, chanq, zones, homes, rcopies, _, bases, _, _, _, rfl⟩

theorem writeBack_moved (s : State) (zn : Nat) (g : Group) (sel : Nat → Bool) : LinesMoved s (s.writeBack zn g sel).1 :=
  List.foldlRecOn (motive := LinesMoved s) _ _ (.refl s) fun _ ht _ _ => ht.trans (writeLine_moved ..)

/-- A write-back writes lines and leaves the group's other fields. -/
theorem writeBack_eq (s : State) (zn : Nat) (g : Group) (sel : Nat → Bool) :
    s.writeBack zn g sel = ((s.writeBack zn g sel).1, { g with
      pdirty := g.pdirty.filter fun b => !sel (lineOf b.1), pleaf := g.pleaf.filter fun x => !sel x.1 }) := rfl

/-! Accesses that are all global. -/

/-- A dirty byte lies on a line of the accesses. -/
def olderByte (accs : List ThreadAcc) (b : Nat × Byte) : Bool := accs.any fun a => a.pcs.any fun p => lineOf p.pa == lineOf b.1

section
variable {w : View} {accs : List ThreadAcc} (hglob : ∀ a ∈ accs, isGlob a = true)
include hglob

theorem filter_isGlob : accs.filter isGlob = accs := List.filter_eq_self.2 hglob

theorem tgt_of_isGlob {a : ThreadAcc} (ha : a ∈ accs) : ∃ va, a.tgt = .glob va := by
  have h := hglob a ha
  cases e : a.tgt with
  | glob va => exact ⟨va, rfl⟩
  | _ => simp [isGlob, e] at h

theorem any_isScr_of_glob : accs.any isScr = false := by
  rw [List.any_eq_false]
  intro a ha
  obtain ⟨va, e⟩ := tgt_of_isGlob hglob ha
  simp [isScr, e]

theorem any_not_isGlob_of_glob : (accs.any fun a => !isGlob a) = false := by
  rw [List.any_eq_false]
  intro a ha
  simp [hglob a ha]

theorem away_of_glob (w : View) : w.away accs = false := by
  unfold View.away
  rw [List.any_eq_false]
  intro a ha
  obtain ⟨va, e⟩ := tgt_of_isGlob hglob ha
  simp [e]

theorem privBehind_of_glob (w : View) : w.privBehind accs = false := by
  unfold View.privBehind
  rw [List.any_eq_false]
  intro a ha
  obtain ⟨va, e⟩ := tgt_of_isGlob hglob ha
  simp [isPriv, e]

/-- The older dirty bytes of the accesses' lines go home first (R174). -/
theorem clean_of_glob (w : View) :
    ∃ s l, LinesMoved w.s s ∧ w.clean accs = { w with s := s, g := { w.g with pdirty := w.g.pdirty.filter fun b => !olderByte accs b, pleaf := l } }
      ∧ (w.g.pdirty.any (olderByte accs) = false → s = w.s ∧ l = w.g.pleaf ∧ (w.g.pdirty.filter fun b => !olderByte accs b) = w.g.pdirty) := by
  have hcontains : ∀ b : Nat × Byte, ((accs.filter isGlob).flatMap fun a => a.pcs.map fun p => lineOf p.pa).contains (lineOf b.1)
      = olderByte accs b := fun b => by
    rw [filter_isGlob hglob, Bool.eq_iff_iff, List.contains_iff_mem]
    simp [olderByte, List.mem_flatMap]
  unfold View.clean
  generalize hls : ((accs.filter isGlob).flatMap fun a => a.pcs.map fun p => lineOf p.pa) = ls at hcontains
  dsimp only
  rw [writeBack_eq]
  simp only [hcontains]
  split
  next hany => exact ⟨_, _, writeBack_moved .., rfl, fun hno => absurd (hany.symm.trans hno) (by simp)⟩
  next hany =>
    have hkeep : (w.g.pdirty.filter fun b => !olderByte accs b) = w.g.pdirty := by
      rw [List.filter_eq_self]
      intro b hb
      have := List.any_eq_false.1 (Bool.eq_false_iff.2 hany) b hb
      simpa using this
    exact ⟨w.s, w.g.pleaf, .refl _, by rw [hkeep], fun _ => ⟨rfl, rfl, hkeep⟩⟩

/-- A global access does nothing to a thread's own space and to scratchpads. -/
theorem foldl_one_of_glob (x : LocalRun) (w : View) (pts : Nat) (f : ThreadAcc → Nat → Nat) :
    accs.foldl (fun (x : LocalRun) a => x.one w a pts (f a)) x = x := by
  refine List.foldlRecOn (motive := fun y => y = x) accs _ rfl fun y hy a ha => ?_
  obtain ⟨va, e⟩ := tgt_of_isGlob hglob ha
  subst hy
  unfold LocalRun.one
  rw [e]

/-- Global accesses that have pieces give an entry of the store buffer its parts. -/
theorem globParts_ne_nil (hne : accs ≠ []) (hpcs : ∀ a ∈ accs, a.pcs ≠ []) (op : Nat → TPiece → SOp) : globParts accs op ≠ [] := by
  obtain ⟨a, ha⟩ := List.exists_mem_of_ne_nil _ hne
  obtain ⟨p, hp⟩ := List.exists_mem_of_ne_nil _ (hpcs a ha)
  obtain ⟨va, e⟩ := tgt_of_isGlob hglob ha
  refine List.ne_nil_of_mem (a := { va := p.va, thr := a.thr, pa := p.pa, n := p.n, leaf := p.leaf, op := op a.thr p }) ?_
  unfold globParts
  rw [List.mem_flatMap]
  refine ⟨a, ha, ?_⟩
  rw [e]
  exact List.mem_map_of_mem hp
end

/-- The entry of an atomic in the store buffer (R243). -/
def atomEntry (g : Group) (ty : Ty) (op : Aop) (sem : Sem) (scope : Scope) (b c : Nat → Nat) (accs : List ThreadAcc) : SEntry :=
  { id := g.seq, parts := globParts accs fun k _ => .atom ty op (b k) (c k), sem := sem, scope := scope }

section
variable {w : View} {accs : List ThreadAcc} (hglob : ∀ a ∈ accs, isGlob a = true) (hfar : accs.filter isFar = [])
  (hregs : w.atomRegs accs = 0)
include hglob hfar hregs

/-- An atomic on global memory that finds room: what it leaves of state and group (R179, R217, R243). -/
theorem runAtomic_glob (hne : accs ≠ []) (hpcs : ∀ a ∈ accs, a.pcs ≠ []) (hroom : w.g.sbuf.length < 16) (i : Instr) (m : Mask) (ty : Ty) (op : Aop)
    (sem : Sem) (scope : Scope) (b c : Nat → Nat) :
    let g0 := if Sem.isRel sem then w.g.addRelease scope else w.g
    ∃ t s l lat, w.runAtomic i m ty op sem scope b c accs = .next t ∧ LinesMoved w.s s
      ∧ (w.g.pdirty.any (olderByte accs) = false → s = w.s ∧ l = w.g.pleaf ∧ (w.g.pdirty.filter fun b => !olderByte accs b) = w.g.pdirty)
      ∧ Leaves (if Sem.isRel sem then s.updTeam w.g.team (fun tm => tm.countRelease scope) else s) w.u t
          { (g0.startPend i m w.sel).unpause m with
            seq := g0.seq + 1, sbuf := w.g.sbuf ++ [atomEntry g0 ty op sem scope b c accs]
            pdirty := w.g.pdirty.filter fun b => !olderByte accs b, pleaf := l
            pends := w.g.pends ++ (i.uses.dst.map fun d =>
              ({ id := g0.seq, dst := d.dst, ty := ty, unif := i.uses.uniform, mask := m, lat := lat, got := [], bad := [] } : Pend)).toList } := by
  obtain ⟨s, l, hmoved, hclean, hsame⟩ := clean_of_glob hglob w
  intro g0
  have hroom' : decide (16 ≤ w.g.sbuf.length) = false := by simpa using hroom
  have hparts := globParts_ne_nil hglob hne hpcs fun t _ => .atom ty op (b t) (c t)
  have hempty : (globParts accs fun t _ => SOp.atom ty op (b t) (c t)).isEmpty = false := by
    simpa [List.isEmpty_eq_false_iff] using hparts
  unfold View.runAtomic
  simp only [hregs, away_of_glob hglob, any_isScr_of_glob hglob, any_not_isGlob_of_glob hglob, privBehind_of_glob hglob, hroom',
    Bool.false_and, Bool.and_false, Bool.or_self, Bool.false_eq_true, if_false, bne_self_eq_false, View.readFar, hfar,
    foldl_one_of_glob hglob, List.foldl_nil, List.find?_nil, hempty, goneReport_nil, List.append_nil]
  have hsel : (w.clean accs).sel = w.sel := by
    obtain ⟨-, -, -, -, hpc, hmask⟩ := hmoved.keeps
    rw [hclean]
    unfold View.sel Group.maskIf Group.thread
    simp only [hpc, hmask]
  generalize w.clean accs = w1 at hclean hsel ⊢
  have hs1 : w1.s = s := by rw [hclean]
  have hu1 : w1.u = w.u := by rw [hclean]
  have hg1 : w1.g = { w.g with pdirty := w.g.pdirty.filter fun b => !olderByte accs b, pleaf := l } := by rw [hclean]
  clear hclean
  rw [hs1, hsel, hu1, show w1.g.team = w.g.team by rw [hg1]]
  refine ⟨_, s, l, (((if Sem.isRel sem then w1.g.addRelease scope else w1.g).startPend i m w.sel).unpause m).latPlaces i m, rfl, hmoved, hsame,
    (issued_leaves ..).of_core ((track_core ..).trans ?_)⟩
  simp only [startPend_spec, unpause_spec, g0, hg1, Nat.max_zero]
  cases i.uses.dst with
  | none =>
    rw [Option.map_none, Option.map_none, Option.toList_none, List.append_nil]
    cases Sem.isRel sem <;> rfl
  | some d => cases Sem.isRel sem <;> rfl
end

/-! The pieces of accesses whose checks have passed. -/

theorem cutAt_ne_nil {unit a n : Nat} (h : 0 < n) : cutAt unit a n ≠ [] := by
  obtain ⟨k, rfl⟩ := Nat.exists_eq_add_of_lt h
  simp [cutAt, cutWith]

/-- The types of an atomic's operation are 32 bits or wider (R242). -/
theorem bytes_pos_of_aopOk {op : Aop} {ty : Ty} (h : aopOk op ty = true) : 0 < ty.width / 8 := by
  revert h
  cases op <;> cases ty <;> decide

section
variable {w : View} {u : Uses} {m : Mask} {n : Nat} {acc : Acc} {addr : Nat → AddrOut} (hacc : w.accessible u m n acc addr = true)
include hacc

/-- Every piece of a thread is translated. -/
theorem rawAcc_pcs_length {t : Nat} (ht : t ∈ lanes u m) : (w.rawAcc n acc addr t).pcs.length = (w.vPieces t n (addr t).tgt).length := by
  unfold View.accessible at hacc
  have h := List.all_eq_true.1 hacc t ht
  rw [Bool.and_eq_true, List.all_eq_true] at h
  unfold View.rawAcc
  refine List.filterMap_length_eq_length.2 fun p hp => ?_
  have hp' := h.2 p hp
  cases hl : w.lookupVa p.1 (accOf acc (addr t).tgt) with
  | none => simp [hl] at hp'
  | some r => rfl

/-- A global access has a piece. -/
theorem accsOf_pcs_ne_nil (hn : 0 < n) {a : ThreadAcc} (ha : a ∈ w.accsOf u m n acc addr) (hglob : isGlob a = true) : a.pcs ≠ [] := by
  rw [accsOf_eq, List.mem_map] at ha
  obtain ⟨t, ht, rfl⟩ := ha
  rw [← List.length_pos_iff_ne_nil, settleTgt_pcs_length, rawAcc_pcs_length hacc ht, List.length_pos_iff_ne_nil]
  cases htgt : (addr t).tgt with
  | glob va => simpa [View.vPieces] using cutAt_ne_nil hn
  | priv b => simpa [View.vPieces] using cutAt_ne_nil hn
  | scr k off =>
    have hraw : (w.rawAcc n acc addr t).tgt = .scr k off := htgt
    simp [View.settleTgt, hraw, isGlob] at hglob
end

section
variable {s : State} {w : View} {m : Mask}

/-- A global atomic that issues, its checks passed and with room in the store buffer. -/
theorem globAtomic_enters {i : Instr} (h : Issues i s w m) {ty : Ty} {op : Aop} (hop : aopOk op ty = true) {sem : Sem} {scope : Scope}
    {b c : Nat → Nat} {addr : Nat → AddrOut} (he : exec i s = w.access i.uses m (ty.width / 8) .atomic addr
      (w.runAtomic i m ty op sem scope b c)) (hacc : w.accessible i.uses m (ty.width / 8) .atomic addr = true)
    (hglob : ∀ a ∈ w.accsOf i.uses m (ty.width / 8) .atomic addr, isGlob a = true)
    (hfar : (w.accsOf i.uses m (ty.width / 8) .atomic addr).filter isFar = [])
    (hregs : w.atomRegs (w.accsOf i.uses m (ty.width / 8) .atomic addr) = 0) (hroom : w.g.sbuf.length < 16) :
    let accs := w.accsOf i.uses m (ty.width / 8) .atomic addr
    let g0 := if Sem.isRel sem then w.g.addRelease scope else w.g
    let g1 := { (g0.startPend i m w.sel).unpause m with seq := g0.seq + 1, sbuf := w.g.sbuf ++ [atomEntry g0 ty op sem scope b c accs] }
    let pend := fun (lat : List (Nat × Nat)) => (i.uses.dst.map fun d =>
      ({ id := g0.seq, dst := d.dst, ty := ty, unif := i.uses.uniform, mask := m, lat := lat, got := [], bad := [] } : Pend)).toList
    (w.g.pdirty.any (olderByte accs) = true → ∃ t l lat, exec i s = .next t
      ∧ GroupIs t w.u { g1 with pdirty := w.g.pdirty.filter fun b => !olderByte accs b, pleaf := l, pends := w.g.pends ++ pend lat })
    ∧ (w.g.pdirty.any (olderByte accs) = false → ∃ t lat, exec i s = .next t
      ∧ Leaves (if Sem.isRel sem then w.s.updTeam w.g.team (fun tm => tm.countRelease scope) else w.s) w.u t
          { g1 with pends := w.g.pends ++ pend lat }) := by
  obtain ⟨t, s1, l, lat, hrun, -, hsame, hl⟩ := runAtomic_glob hglob hfar hregs (accsOf_ne_nil h.2.2.2.2.2.1)
    (fun a ha => accsOf_pcs_ne_nil hacc (bytes_pos_of_aopOk hop) ha (hglob a ha)) hroom i m ty op sem scope b c
  have hexec := (he.trans (access_of_accessible hacc _)).trans hrun
  refine ⟨fun _ => ⟨t, l, lat, hexec, hl.look⟩, fun hno => ?_⟩
  obtain ⟨rfl, rfl, hdirty⟩ := hsame hno
  rw [hdirty] at hl
  refine ⟨t, lat, hexec, hl.of_core ?_⟩
  simp only [startPend_spec, unpause_spec]
  cases Sem.isRel sem <;> rfl

/-- One on a doorbell or a device register traps (R243). -/
theorem atomic_registers_traps {i : Instr} (h : Issues i s w m) {ty : Ty} {op : Aop} {sem : Sem} {scope : Scope} {b c : Nat → Nat}
    {accs : List ThreadAcc} (hregs : w.atomRegs accs ≠ 0) :
    ∃ t mask info, w.runAtomic i m ty op sem scope b c accs = .next t ∧ TrapTaken w w.g 0x11 mask w.pc64 info t := by
  unfold View.runAtomic
  simp only [bne_iff_ne.2 hregs, if_true]
  exact ⟨_, _, _, rfl, h.trapHere_taken ..⟩

/-- A global atomic waits for room in the store buffer (R179). -/
theorem runAtomic_full_holds {accs : List ThreadAcc} (hglob : ∀ a ∈ accs, isGlob a = true) (hne : accs ≠ []) (hregs : w.atomRegs accs = 0)
    (hfull : 16 ≤ w.g.sbuf.length) {i : Instr} {ty : Ty} {op : Aop} {sem : Sem} {scope : Scope} {b c : Nat → Nat} :
    ∃ t, w.runAtomic i m ty op sem scope b c accs = .next t ∧ Holds w.s w.u t w.g := by
  have hany : accs.any isGlob = true := by
    obtain ⟨a, ha⟩ := List.exists_mem_of_ne_nil _ hne
    exact List.any_eq_true.2 ⟨a, ha, hglob a ha⟩
  unfold View.runAtomic
  simp only [hregs, away_of_glob hglob, any_isScr_of_glob hglob, any_not_isGlob_of_glob hglob, hany, hfull, bne_self_eq_false, Bool.false_eq_true,
    Bool.false_and, if_false, decide_true, Bool.true_and, Bool.true_or, if_true]
  exact ⟨_, rfl, hold_holds ..⟩
end

/-- The types and operations of a legal form are those of R242. -/
theorem atomUses_aopOk {c : Ctl} {ty : Ty} {op : Aop} {d : Option DstUse} {k : Nat} {a b : Src} {e : Option Src} {q : Bool}
    (h : (atomUses c ty op d k a b e q).ok = true) : aopOk op ty = true := by
  simp only [atomUses, Bool.and_eq_true] at h
  exact h.1.2

/-- An atomic with a destination, in each of its cases on global memory. -/
theorem globalAtomic_cases {i : Instr} {x : Atom} {s : State} {w : View} {m : Mask} (h : Issues i s w m)
    (huses : i.uses = atomUses x.ctl x.ty x.aop (dstVS x.ty.regw x.d) 128 x.a x.b x.c (podOk x.scope (x.sem == .rlx))) {addr : Nat → AddrOut}
    (he : exec i s = w.access i.uses m (x.ty.width / 8) .atomic addr
      (w.runAtomic i m x.ty x.aop x.sem x.scope (w.rd x.ty x.b) (optSrc w x.ty x.c)))
    (hacc : w.accessible i.uses m (x.ty.width / 8) .atomic addr = true)
    (hglob : ∀ a ∈ w.accsOf i.uses m (x.ty.width / 8) .atomic addr, isGlob a = true)
    (hfar : (w.accsOf i.uses m (x.ty.width / 8) .atomic addr).filter isFar = []) :
    let accs := w.accsOf i.uses m (x.ty.width / 8) .atomic addr
    let g0 := if Sem.isRel x.sem then w.g.addRelease x.scope else w.g
    let g1 := { (g0.startPend i m w.sel).unpause m with
      seq := g0.seq + 1, sbuf := w.g.sbuf ++ [atomEntry g0 x.ty x.aop x.sem x.scope (w.rd x.ty x.b) (optSrc w x.ty x.c) accs] }
    (w.atomRegs accs = 0 → w.g.sbuf.length < 16 → w.g.pdirty.any (olderByte accs) = true →
      ∃ t p l, exec i s = .next t
        ∧ GroupIs t w.u { g1 with pdirty := w.g.pdirty.filter (fun b => !olderByte accs b), pleaf := l, pends := w.g.pends ++ [p] }
        ∧ p.id = g0.seq ∧ p.dst = x.d ∧ p.ty = x.ty ∧ p.mask = m)
    ∧ (w.atomRegs accs = 0 → w.g.sbuf.length < 16 → w.g.pdirty.any (olderByte accs) = false →
      ∃ t p, exec i s = .next t
        ∧ Leaves (if Sem.isRel x.sem then w.s.updTeam w.g.team (fun tm => tm.countRelease x.scope) else w.s) w.u t
            { g1 with pends := w.g.pends ++ [p] }
        ∧ p.id = g0.seq ∧ p.dst = x.d ∧ p.ty = x.ty ∧ p.mask = m)
    ∧ (w.atomRegs accs ≠ 0 → ∃ t mask info, exec i s = .next t ∧ TrapTaken w w.g 0x11 mask w.pc64 info t)
    ∧ (w.atomRegs accs = 0 → 16 ≤ w.g.sbuf.length → ∃ t, exec i s = .next t ∧ Holds w.s w.u t w.g) := by
  have hop : aopOk x.aop x.ty = true := atomUses_aopOk (huses ▸ h.ok)
  have hdst : i.uses.dst = dstVS x.ty.regw x.d := by rw [huses]; rfl
  have hrun := he.trans (access_of_accessible hacc _)
  refine ⟨fun hregs hroom hold => ?_, fun hregs hroom hno => ?_, fun hregs => ?_, fun hregs hfull => ?_⟩
  · obtain ⟨t, l, lat, hexec, hgroup⟩ := (globAtomic_enters h hop he hacc hglob hfar hregs hroom).1 hold
    rw [hdst] at hgroup
    exact ⟨t, _, l, hexec, hgroup, rfl, rfl, rfl, rfl⟩
  · obtain ⟨t, lat, hexec, hl⟩ := (globAtomic_enters h hop he hacc hglob hfar hregs hroom).2 hno
    rw [hdst] at hl
    exact ⟨t, _, hexec, hl, rfl, rfl, rfl, rfl⟩
  · rw [hrun]
    exact atomic_registers_traps h hregs
  · rw [hrun]
    exact runAtomic_full_holds hglob (accsOf_ne_nil h.2.2.2.2.2.1) hregs hfull

theorem Group.with_pends {g : Group} {l : List Pend} (h : l = g.pends) : { g with pends := l } = g := by
  subst h
  rfl

/-- Settles O26: the older dirty bytes of its lines apart, a global atomic adds its entry and its destination to those of its group. -/
theorem globalAtomicsIssue : Obligations.GlobalAtomicsIssue := by
  intro s w m n older opened after entry waits
  refine ⟨fun x h hacc hglob hfar => ?_, fun x h hacc hglob hfar => ?_, fun x => ?_⟩
  · refine globalAtomic_cases h rfl ?_ hacc hglob hfar
    rw [exec_atom, execAtom, atomOp, issue_runs h]
  · refine globalAtomic_cases h rfl ?_ hacc hglob hfar
    rw [exec_atomx, execAtomx, atomOp, issue_runs h]
  · intro sem addr accs h hacc hglob hfar hregs hroom
    have he : exec (.red x) s = w.access (Instr.red x).uses m (x.ty.width / 8) .atomic addr
        (w.runAtomic (.red x) m x.ty x.aop sem x.scope (w.rd x.ty x.b) fun _ => 0) := by
      rw [exec_red, execRed, issue_runs h]
    obtain ⟨hdirty, hclean⟩ := globAtomic_enters h (atomUses_aopOk h.ok) he hacc hglob hfar hregs hroom
    let e := entry (.red x) x.ty x.aop sem x.scope (w.rd x.ty x.b) (fun _ => 0) accs
    have hpends : w.g.pends ++ [] = e.pends := by
      simp only [e, entry, opened, startPend_spec, unpause_spec, List.append_nil]
      cases Sem.isRel sem <;> rfl
    refine ⟨fun hold => ?_, fun hno => ?_⟩
    · obtain ⟨t, l, lat, hexec, g', hlook, hcore⟩ := hdirty hold
      let e' : Group := { e with pdirty := w.g.pdirty.filter fun b => !olderByte accs b, pleaf := l }
      exact ⟨t, l, hexec, g', hlook, hcore.trans (congrArg Group.core (Group.with_pends (g := e') hpends))⟩
    · obtain ⟨t, lat, hexec, hl⟩ := hclean hno
      exact ⟨t, hexec, hl.of_core (congrArg Group.core (Group.with_pends (g := e) hpends))⟩

end Sys2Proof.Machine

/-! ## Loads whose bytes are at hand (R173 to R175, R179, R193, R207) -/

namespace Sys2Proof.Machine

/-! The pieces of an access lie side by side. -/

theorem cutWith_bounds {unit f a i n : Nat} {p : Nat × Nat × Nat} (hp : p ∈ cutWith unit f a i n) : i ≤ p.2.1 ∧ p.2.1 + p.2.2 ≤ i + n := by
  induction f generalizing a i n with
  | zero => simp [cutWith] at hp
  | succ f ih =>
    unfold cutWith at hp
    dsimp only at hp
    split at hp
    · simp at hp
    · obtain rfl | hp := List.mem_cons.1 hp
      · exact ⟨le_refl _, by simp⟩
      · have := ih hp
        omega

theorem cutWith_pairwise (unit f a i n : Nat) : (cutWith unit f a i n).Pairwise fun p q => p.2.1 + p.2.2 ≤ q.2.1 := by
  induction f generalizing a i n with
  | zero => exact .nil
  | succ f ih =>
    unfold cutWith
    dsimp only
    split
    · exact .nil
    · exact List.Pairwise.cons (fun q hq => (cutWith_bounds hq).1) (ih ..)

/-- A byte of a thread's access lies in a piece of it. -/
def TPiece.holds (p : TPiece) (j : Nat) : Prop := p.at_ ≤ j ∧ j < p.at_ + p.n

/-- The pieces are the thread's own, within the access, and no two share a byte. -/
structure ThreadAcc.Tidy (a : ThreadAcc) : Prop where
  thr : ∀ p ∈ a.pcs, p.thr = a.thr
  within : ∀ p ∈ a.pcs, p.at_ + p.n ≤ a.n
  apart : a.pcs.Pairwise fun p q => p.at_ + p.n ≤ q.at_

theorem ThreadAcc.Tidy.unique {a : ThreadAcc} (h : a.Tidy) {p q : TPiece} (hp : p ∈ a.pcs) (hq : q ∈ a.pcs) {j : Nat} (hpj : p.holds j)
    (hqj : q.holds j) : p = q := by
  obtain ⟨k, hk, rfl⟩ := List.getElem_of_mem hp
  obtain ⟨l, hl, rfl⟩ := List.getElem_of_mem hq
  have hapart := List.pairwise_iff_getElem.1 h.apart
  obtain ⟨hp1, hp2⟩ := hpj
  obtain ⟨hq1, hq2⟩ := hqj
  rcases Nat.lt_trichotomy k l with hlt | rfl | hlt
  · have := hapart k l hk hl hlt
    omega
  · rfl
  · have := hapart l k hl hk hlt
    omega

section
variable {w : View} {u : Uses} {m : Mask} {n : Nat} {acc : Acc} {addr : Nat → AddrOut}

theorem vPieces_tidy (w : View) (t n : Nat) (tgt : Tgt) :
    (∀ p ∈ w.vPieces t n tgt, p.2.1 + p.2.2 ≤ n) ∧ (w.vPieces t n tgt).Pairwise fun p q => p.2.1 + p.2.2 ≤ q.2.1 := by
  have hcut : ∀ (unit a : Nat) (f : Nat × Nat × Nat → VA), let l := (cutAt unit a n).map fun p => (f p, p.2.1, p.2.2)
      (∀ p ∈ l, p.2.1 + p.2.2 ≤ n) ∧ l.Pairwise fun p q => p.2.1 + p.2.2 ≤ q.2.1 := fun unit a f => by
    refine ⟨fun p hp => ?_, List.pairwise_map.2 (cutWith_pairwise ..)⟩
    obtain ⟨c, hc, rfl⟩ := List.mem_map.1 hp
    simpa using (cutWith_bounds hc).2
  cases tgt with
  | glob va => exact hcut ..
  | priv b => exact hcut ..
  | scr k off => exact ⟨by simp [View.vPieces], .nil⟩

theorem rawAcc_tidy (w : View) (n : Nat) (acc : Acc) (addr : Nat → AddrOut) (t : Nat) : (w.rawAcc n acc addr t).Tidy := by
  obtain ⟨hwithin, hapart⟩ := vPieces_tidy w t n (addr t).tgt
  have hpiece : ∀ {v : VA × Nat × Nat} {p : TPiece}, ((w.lookupVa v.1 (accOf acc (addr t).tgt)).map fun r => (⟨t, v.2.1, v.2.2, r.1, r.2, v.1⟩ : TPiece)) = some p →
      p.thr = t ∧ p.at_ = v.2.1 ∧ p.n = v.2.2 := fun {v p} h => by
    obtain ⟨r, -, rfl⟩ := Option.map_eq_some_iff.1 h
    exact ⟨rfl, rfl, rfl⟩
  refine ⟨fun p hp => ?_, fun p hp => ?_, List.pairwise_filterMap.2 (hapart.imp fun {v v'} hvv p hp q hq => ?_)⟩
  · obtain ⟨v, -, hv⟩ := List.mem_filterMap.1 hp
    exact (hpiece hv).1
  · obtain ⟨v, hmem, hv⟩ := List.mem_filterMap.1 hp
    rw [(hpiece hv).2.1, (hpiece hv).2.2]
    exact hwithin v hmem
  · rw [(hpiece hp).2.1, (hpiece hp).2.2, (hpiece hq).2.1]
    exact hvv

theorem ThreadAcc.Tidy.settled {a : ThreadAcc} (h : a.Tidy) (w : View) : (w.settleTgt a).Tidy := by
  unfold View.settleTgt
  split
  next b _ =>
    split
    · exact h
    · refine ⟨fun p hp => ?_, fun p hp => ?_, List.pairwise_map.2 h.apart⟩
      · obtain ⟨q, hq, rfl⟩ := List.mem_map.1 hp
        exact h.thr q hq
      · obtain ⟨q, hq, rfl⟩ := List.mem_map.1 hp
        exact h.within q hq
  next => exact h

theorem accsOf_tidy {a : ThreadAcc} (ha : a ∈ w.accsOf u m n acc addr) : a.Tidy := by
  rw [accsOf_eq, List.mem_map] at ha
  obtain ⟨t, -, rfl⟩ := ha
  exact (rawAcc_tidy ..).settled w
end

/-! What a load finds without asking, and in L1. -/

theorem readBytes_eq_map (m : Memory) (a n : Nat) : readBytes m a n = (List.range n).map fun k => readByte m (a + k) := by
  induction n generalizing a with
  | zero => rfl
  | succ n ih =>
    rw [List.range_succ_eq_map, List.map_cons, List.map_map]
    exact congrArg _ ((ih (a + 1)).trans (List.map_congr_left fun k _ => by simp only [Function.comp]; congr 1; omega))

section
variable {w : View} {a : ThreadAcc}

/-- The piece that byte j is read from. -/
theorem ThreadAcc.Tidy.find {p : TPiece} (h : a.Tidy) (hp : p ∈ a.pcs) {j : Nat} (hj : p.holds j) :
    a.pcs.find? (fun p => decide (p.at_ ≤ j) && decide (j < p.at_ + p.n)) = some p := by
  cases hfind : a.pcs.find? (fun p => decide (p.at_ ≤ j) && decide (j < p.at_ + p.n)) with
  | none =>
    have := List.find?_eq_none.1 hfind p hp
    simp only [TPiece.holds] at hj
    simp [hj] at this
  | some q =>
    have hq : q.holds j := by simpa [TPiece.holds] using List.find?_some hfind
    rw [h.unique hp (List.mem_of_find?_eq_some hfind) hj hq]

/-- What a thread has without a line is the byte at hand (R173, R174, R179). -/
theorem byteNow_of_readyBytes (h : a.Tidy) {e : Nat × Nat × Byte} (he : e ∈ w.readyBytes a) :
    e.1 = a.thr ∧ w.byteNow a e.2.1 = some e.2.2 := by
  unfold View.readyBytes at he
  unfold View.byteNow
  dsimp only
  cases htgt : a.tgt with
  | scr k off =>
    cases htm : look w.s.teams k with
    | none => simp [htgt, htm] at he
    | some tm =>
      simp only [htgt, htm, List.mem_mapIdx] at he
      obtain ⟨i, hi, rfl⟩ := he
      simp [htm, Team.scrBytes, readBytes_eq_map]
  | priv b =>
    simp only [htgt, List.mem_flatMap, List.mem_map, List.mem_range] at he
    obtain ⟨p, hp, i, hi, rfl⟩ := he
    have hfind := h.find hp (j := p.at_ + i) ⟨by omega, by omega⟩
    simp [hfind]
  | glob va =>
    simp only [htgt, List.mem_flatMap, List.mem_filterMap, List.mem_range, Option.map_eq_some_iff] at he
    obtain ⟨p, hp, i, hi, y, hy, rfl⟩ := he
    have hfind := h.find hp (j := p.at_ + i) ⟨by omega, by omega⟩
    simp [hfind, hy]

/-- A byte at hand that is not there without a line is one of the copy in L1 of its piece's line (R207). -/
theorem l1Hit_of_byteNow (h : a.Tidy) {p : TPiece} (hp : p ∈ a.pcs) (hglob : isGlob a = true) {i : Nat} (hi : i < p.n) {y : Byte}
    (hnow : w.byteNow a (p.at_ + i) = some y) (hnot : ∀ y, (a.thr, p.at_ + i, y) ∉ w.readyBytes a) :
    ∃ c, w.l1Hit p.leaf (lineOf p.pa) = some c ∧ c.bad = false ∧ y = LineData.byte c.data (p.pa + i) := by
  obtain ⟨va, htgt⟩ := tgt_of_isGlob (accs := [a]) (by simpa using hglob) (List.mem_singleton_self a)
  have hfind := h.find hp (j := p.at_ + i) ⟨by omega, by omega⟩
  have hown : w.ownNow a.thr (p.pa + i) = none := by
    cases hown : w.ownNow a.thr (p.pa + i) with
    | none => rfl
    | some z =>
      refine absurd ?_ (hnot z)
      simp only [View.readyBytes, htgt, List.mem_flatMap, List.mem_filterMap, List.mem_range, Option.map_eq_some_iff]
      exact ⟨p, hp, i, hi, z, hown, rfl⟩
  simp only [View.byteNow, htgt, hfind, Option.bind_some, Nat.add_sub_cancel_left, hown, Option.map_eq_some_iff, Option.filter_eq_some_iff] at hnow
  obtain ⟨c, ⟨hc, hgood⟩, rfl⟩ := hnow
  exact ⟨c, hc, by simpa using hgood, rfl⟩

/-- A byte at hand lies in a piece, or is there without a line. -/
theorem mem_piece_of_byteNow {j : Nat} (hj : j < a.n) {y : Byte} (hnow : w.byteNow a j = some y) :
    (∃ y, (a.thr, j, y) ∈ w.readyBytes a) ∨ isGlob a = true ∧ ∃ p ∈ a.pcs, p.holds j := by
  cases htgt : a.tgt with
  | scr k off =>
    simp only [View.byteNow, htgt, Option.map_eq_some_iff] at hnow
    obtain ⟨tm, htm, -⟩ := hnow
    left
    simp [View.readyBytes, htgt, htm, Team.scrBytes, readBytes_eq_map, hj]
  | priv b =>
    simp only [View.byteNow, htgt, Option.map_eq_some_iff] at hnow
    obtain ⟨p, hfind, -⟩ := hnow
    have hp : p.holds j := by simpa [TPiece.holds] using List.find?_some hfind
    left
    simp only [View.readyBytes, htgt, List.mem_flatMap, List.mem_map, List.mem_range]
    exact ⟨_, p, List.mem_of_find?_eq_some hfind, j - p.at_, by have := hp.1; have := hp.2; omega, by rw [Nat.add_sub_cancel' hp.1]⟩
  | glob va =>
    simp only [View.byteNow, htgt, Option.bind_eq_some_iff] at hnow
    obtain ⟨p, hfind, -⟩ := hnow
    exact .inr ⟨by simp [isGlob, htgt], p, List.mem_of_find?_eq_some hfind, by simpa [TPiece.holds] using List.find?_some hfind⟩
end

/-! The lines of a load whose copies are all in L1 (R207). -/

/-- A hit in L1 is a valid copy that reaches the group's clock, of a cached line of this device that is not lost and that no earlier
load waits for. -/
theorem View.l1Hit_spec {w : View} {leaf : Leaf} {line : Nat} {cp : Copy} (h : w.l1Hit leaf line = some cp) :
    w.s.isRemote line = false ∧ isRegLine line = false ∧ w.s.lineLost w.cx.zone leaf line = false ∧ leaf.unc = false
      ∧ w.g.openLines.contains line = false ∧ w.s.hasL1 w.tm.core w.cx.zone = true
      ∧ (w.s.touchBase (l1Loc w.tm.core) w.cx.zone w.g.pts).getL1 w.tm.core w.cx.zone line = some cp ∧ cp.xp = false ∧ w.g.pts ≤ cp.rts := by
  unfold View.l1Hit at h
  split at h
  · cases h
  next hno =>
    obtain ⟨hget, hok⟩ := Option.filter_eq_some_iff.1 h
    simp only [Bool.or_eq_true, not_or, Bool.not_eq_true, Bool.not_eq_true', Bool.not_eq_false] at hno
    obtain ⟨⟨⟨⟨⟨hrem, hreg⟩, hlost⟩, hunc⟩, hopen⟩, hhas⟩ := hno
    simp only [Bool.and_eq_true, Bool.not_eq_true', decide_eq_true_eq] at hok
    exact ⟨hrem, hreg, hlost, hunc, hopen, hhas, hget, hok.1, hok.2⟩

section
variable {w : View} {r0 : LoadRec} {x : LoadRun} {k : Nat}

/-- The start of a line with a hit in L1 takes the copy's bytes (R207). -/
theorem LoadRun.Underway.start_hit (h : x.Underway w.s w.lineCtx r0 k) (hp : r0.p = w.g.pts) (hdata : r0.kind = .data) {q q0 : LineReq}
    (hq : x.r.lines[k]? = some q) (hq0 : r0.lines[k]? = some q0) {cp : Copy} (hhit : w.l1Hit q0.leaf q0.line = some cp) :
    ∃ ts, x.start w.lineCtx k = { x with
      s := x.s.touchBase (l1Loc w.tm.core) w.cx.zone x.r.p
      r := x.r.bind k q0.line (fun a => LineData.byte cp.data a) cp.bad, ts := ts } := by
  obtain ⟨q0', hq0', hline, hleaf⟩ := h.request hq
  obtain rfl : q0 = q0' := Option.some.inj (hq0.symm.trans hq0')
  obtain ⟨hrem, hreg, hlost, hunc, hopen, hhas, hget, hxp, hrts⟩ := View.l1Hit_spec hhit
  obtain ⟨bases, rout, seq, hs, -⟩ := h.state
  have hrem' : x.s.isRemote q0.line = false := by rw [← hrem, hs]; rfl
  have hlost' : x.s.lineLost w.cx.zone q0.leaf q0.line = false := by rw [← hlost, hs]; rfl
  have hhas' : (x.s.touchBase (l1Loc w.tm.core) w.cx.zone x.r.p).hasL1 w.tm.core w.cx.zone = true := by
    rw [State.touchBase_eq, hs]
    exact hhas
  have hget' := (h.getL1_touch hp q0.line).trans hget
  have hkind : x.r.kind = .data := h.kind.trans hdata
  have hrts' : x.r.p ≤ cp.rts := by rw [h.p, hp]; exact hrts
  refine ⟨max x.ts (max x.r.p cp.wts), ?_⟩
  unfold LoadRun.start
  simp only [hq, hline, hleaf, hunc, hrem', hreg, hkind, View.lineCtx, hlost', hhas', hget', hopen, hxp, hrts', LoadKind.fills,
    Bool.false_and, Bool.false_eq_true, if_false, if_true, and_self]
  rfl

end

/-- The load has a byte for a place of a thread. -/
def LoadRec.has (r : LoadRec) (t j : Nat) : Prop := ∃ y, (t, j, y) ∈ r.got

theorem LoadRec.any_got_iff (r : LoadRec) (t j : Nat) : (r.got.any fun x => x.1 == t && x.2.1 == j) = true ↔ r.has t j := by
  simp [LoadRec.has, List.any_eq_true]

theorem LoadRec.mem_addBytes (r : LoadRec) (p : Piece) (byte : Nat → Byte) (e : Nat × Nat × Byte) :
    e ∈ (r.addBytes p byte).got ↔ e ∈ r.got ∨ ∃ i, i < p.n ∧ ¬ r.has p.thr (p.at_ + i) ∧ e = (p.thr, p.at_ + i, byte (p.pa + i)) := by
  simp only [LoadRec.addBytes, List.mem_append, List.mem_map, List.mem_filter, List.mem_range, ← LoadRec.any_got_iff, Bool.not_eq_true',
    Bool.not_eq_true, and_assoc]
  exact or_congr_right (exists_congr fun i => and_congr_right fun _ => and_congr_right fun _ => eq_comm)

/-- The bytes of a line complete the pieces on it, and leave what is there. -/
theorem LoadRec.foldl_addBytes_got (byte : Nat → Byte) (ps : List Piece) (r : LoadRec) :
    let r' := ps.foldl (fun r p => r.addBytes p byte) r
    (∀ e ∈ r.got, e ∈ r'.got)
      ∧ (∀ e ∈ r'.got, e ∈ r.got ∨ ∃ p ∈ ps, ∃ i, i < p.n ∧ ¬ r.has p.thr (p.at_ + i) ∧ e = (p.thr, p.at_ + i, byte (p.pa + i)))
      ∧ ∀ p ∈ ps, ∀ i, i < p.n → r'.has p.thr (p.at_ + i) := by
  induction ps generalizing r with
  | nil => simp
  | cons p ps ih =>
    obtain ⟨hkept, hnew, hfull⟩ := ih (r.addBytes p byte)
    have hsub : ∀ e ∈ r.got, e ∈ (r.addBytes p byte).got := fun e he => (r.mem_addBytes p byte e).2 (.inl he)
    refine ⟨fun e he => hkept e (hsub e he), fun e he => ?_, fun p' hp' i hi => ?_⟩
    · obtain he | ⟨p', hp', i, hi, hno, rfl⟩ := hnew e he
      · obtain he | ⟨i, hi, hno, rfl⟩ := (r.mem_addBytes p byte e).1 he
        · exact .inl he
        · exact .inr ⟨p, List.mem_cons_self, i, hi, hno, rfl⟩
      · exact .inr ⟨p', List.mem_cons_of_mem _ hp', i, hi, fun ⟨y, hy⟩ => hno ⟨y, hsub _ hy⟩, rfl⟩
    · obtain rfl | hp' := List.mem_cons.1 hp'
      · by_cases hhas : r.has p'.thr (p'.at_ + i)
        · obtain ⟨y, hy⟩ := hhas
          exact ⟨y, hkept _ (hsub _ hy)⟩
        · exact ⟨_, hkept _ ((r.mem_addBytes p' byte _).2 (.inr ⟨i, hi, hhas, rfl⟩))⟩
      · exact hfull p' hp' i hi

/-- Good data of a line reach a load of data. -/
theorem LoadRec.bind_good {r : LoadRec} (hdata : r.kind = .data) (k line : Nat) (byte : Nat → Byte) :
    r.bind k line byte false = { r with
      got := ((r.piecesOn line).foldl (fun r p => r.addBytes p byte) r).got
      lines := setAt r.lines k fun q => { q with stat := .done } } := by
  obtain ⟨got, h⟩ := LoadRec.foldl_addBytes byte (r.piecesOn line) r
  unfold LoadRec.bind
  simp only [hdata, LoadKind.fills, if_true, h, Bool.false_eq_true, if_false]

/-- Each line of the load is a hit of a good copy, whose bytes complete those of `b` that are not there. -/
def LoadRec.Hits (r0 : LoadRec) (w : View) (n : Nat) (b : Nat → Nat → Byte) : Prop :=
  ∀ q ∈ r0.lines, ∃ cp, w.l1Hit q.leaf q.line = some cp ∧ cp.bad = false ∧ ∀ p ∈ r0.piecesOn q.line, ∀ i, i < p.n → p.at_ + i < n →
    ¬ r0.has p.thr (p.at_ + i) → LineData.byte cp.data (p.pa + i) = b p.thr (p.at_ + i)

/-- A load of data that finds its lines in L1 has started its first k lines: only BASEs of the state have changed, and it has the bytes of
those lines' pieces. -/
structure LoadRun.Supplied (w : View) (r0 : LoadRec) (n : Nat) (b : Nat → Nat → Byte) (k : Nat) (x : LoadRun) : Prop where
  state : ∃ bases, x.s = { w.s with bases := bases } ∧ (bases = w.s.bases ∨ bases = touchedBases (l1Loc w.tm.core) w.cx.zone r0.p w.s.bases)
  fail : x.fail = []
  record : ∃ got lines, x.r = { r0 with got := got, lines := lines }
  keys : x.r.lines.map LineReq.key = r0.lines.map LineReq.key
  done : ∀ j q, x.r.lines[j]? = some q → (q.stat = .done ↔ j < k)
  kept : ∀ e ∈ r0.got, e ∈ x.r.got
  sound : ∀ e ∈ x.r.got, e.2.1 < n → e.2.2 = b e.1 e.2.1
  full : ∀ j q, j < k → r0.lines[j]? = some q → ∀ p ∈ r0.piecesOn q.line, ∀ i, i < p.n → x.r.has p.thr (p.at_ + i)

section
variable {w : View} {r0 : LoadRec} {n : Nat} {b : Nat → Nat → Byte} {k : Nat} {x : LoadRun}

theorem LoadRun.Supplied.underway (h : x.Supplied w r0 n b k) (hk : k < r0.lines.length) : x.Underway w.s w.lineCtx r0 k := by
  obtain ⟨bases, hs, hb⟩ := h.state
  obtain ⟨got, lines, hr⟩ := h.record
  have hlen : k < x.r.lines.length := by
    have hlengths := congrArg List.length h.keys
    simp only [List.length_map] at hlengths
    omega
  refine { state := ⟨bases, w.s.rout, w.s.reqSeq, hs, hb⟩, fail := h.fail, id := by rw [hr], p := by rw [hr], kind := by rw [hr], keys := h.keys
           waits := ⟨x.r.lines[k], List.getElem?_eq_getElem hlen, fun hdone => ?_⟩ }
  exact absurd ((h.done k _ (List.getElem?_eq_getElem hlen)).1 hdone) (lt_irrefl k)

/-- The next line. -/
theorem LoadRun.Supplied.start (h : x.Supplied w r0 n b k) (hp : r0.p = w.g.pts) (hdata : r0.kind = .data) (hhits : r0.Hits w n b)
    (hk : k < r0.lines.length) : (x.start w.lineCtx k).Supplied w r0 n b (k + 1) := by
  have hunder := h.underway hk
  obtain ⟨q, hq, -⟩ := hunder.waits
  have hq0 : r0.lines[k]? = some r0.lines[k] := List.getElem?_eq_getElem hk
  obtain ⟨cp, hhit, hgood, hbytes⟩ := hhits _ (List.getElem_mem hk)
  obtain ⟨ts, hstart⟩ := hunder.start_hit hp hdata hq hq0 hhit
  obtain ⟨bases, hs, hb⟩ := h.state
  obtain ⟨got, lines, hr⟩ := h.record
  have hkind : x.r.kind = .data := by rw [hr]; exact hdata
  have hxp : x.r.p = r0.p := by rw [hr]
  have hpieces : x.r.piecesOn r0.lines[k].line = r0.piecesOn r0.lines[k].line := by rw [hr]; rfl
  rw [hstart, hgood, LoadRec.bind_good hkind, hpieces]
  obtain ⟨hkept, hnew, hfull⟩ := x.r.foldl_addBytes_got (fun a => LineData.byte cp.data a) (r0.piecesOn r0.lines[k].line)
  generalize ((r0.piecesOn r0.lines[k].line).foldl (fun r p => r.addBytes p fun a => LineData.byte cp.data a) x.r) = r' at hkept hnew hfull
  refine { state := ⟨touchedBases (l1Loc w.tm.core) w.cx.zone r0.p w.s.bases, ?_, .inr rfl⟩, fail := h.fail, record := ?_
           keys := (keys_setStat _ _ _).trans h.keys, done := fun j q' hq' => ?_, kept := fun e he => hkept e (h.kept e he)
           sound := fun e he hen => ?_, full := fun j q' hj hq' p hp i hi => ?_ }
  · rw [State.touchBase_eq, hxp, hs]
    obtain rfl | rfl := hb
    · rfl
    · simp only [touchedBases_idem]
  · rw [hr]
    exact ⟨_, _, rfl⟩
  · simp only [getElem?_setAt] at hq'
    split at hq'
    next hkj =>
      obtain ⟨q1, -, rfl⟩ := Option.map_eq_some_iff.1 hq'
      simp [hkj]
    next hkj => exact (h.done j q' hq').trans (by omega)
  · obtain he | ⟨p, hp, i, hi, hno, rfl⟩ := hnew e he
    · exact h.sound e he hen
    · exact hbytes p hp i hi hen fun ⟨y, hy⟩ => hno ⟨y, h.kept _ hy⟩
  · obtain hlt | rfl := Nat.lt_succ_iff_lt_or_eq.1 hj
    · obtain ⟨y, hy⟩ := h.full j q' hlt hq' p hp i hi
      exact ⟨y, hkept _ hy⟩
    · obtain rfl : r0.lines[j] = q' := Option.some.inj (hq0.symm.trans hq')
      exact hfull p hp i hi

/-- A load of data that finds its lines in L1 is finished when it has started. -/
theorem startAll_supplied (hp : r0.p = w.g.pts) (hdata : r0.kind = .data) (hhits : r0.Hits w n b) (hstat : ∀ q ∈ r0.lines, q.stat ≠ .done)
    (hsound : ∀ e ∈ r0.got, e.2.1 < n → e.2.2 = b e.1 e.2.1) :
    let y := LoadRun.startAll { s := w.s, r := r0 } w.lineCtx
    y.Supplied w r0 n b r0.lines.length ∧ y.r.finished = true := by
  have hall : ∀ k, k ≤ r0.lines.length →
      LoadRun.Supplied w r0 n b k ((List.range k).foldl (fun x k => x.start w.lineCtx k) { s := w.s, r := r0 }) := by
    intro k hk
    induction k with
    | zero => exact
        { state := ⟨w.s.bases, rfl, .inl rfl⟩, fail := rfl, record := ⟨_, _, rfl⟩, keys := rfl
          done := fun j q hq => by simpa using hstat q (List.mem_of_getElem? hq)
          kept := fun _ he => he, sound := hsound, full := fun _ _ h => absurd h (Nat.not_lt_zero _) }
    | succ k ih =>
      rw [List.range_succ, List.foldl_append]
      exact (ih (by omega)).start hp hdata hhits (by omega)
  have h := hall _ (le_refl _)
  have hfin : ((List.range r0.lines.length).foldl (fun x k => x.start w.lineCtx k) ({ s := w.s, r := r0 } : LoadRun)).r.finished = true := by
    rw [LoadRec.finished, List.all_eq_true]
    intro q hq
    obtain ⟨j, hj⟩ := List.getElem?_of_mem hq
    have hlengths := congrArg List.length h.keys
    simp only [List.length_map] at hlengths
    have hlt := (List.getElem?_eq_some_iff.1 hj).1
    simpa using (h.done j q hj).2 (by omega)
  unfold LoadRun.startAll
  simp only [hfin, if_true]
  exact ⟨h, trivial⟩

/-- A load that has every byte of a thread gives it those. -/
theorem LoadRun.Supplied.bytes (h : x.Supplied w r0 n b k) {t : Nat} (hhas : ∀ j, j < n → x.r.has t j) :
    x.r.bytes t n = (List.range n).map (b t) := by
  refine List.map_congr_left fun j hj => ?_
  have hjn := List.mem_range.1 hj
  obtain ⟨y, hy⟩ := hhas j hjn
  cases hfind : x.r.got.find? fun e => e.1 == t && e.2.1 == j with
  | none => simpa using List.find?_eq_none.1 hfind _ hy
  | some e =>
    have hkey : e.1 = t ∧ e.2.1 = j := by simpa using List.find?_some hfind
    obtain ⟨rfl, rfl⟩ := hkey
    exact h.sound e (List.mem_of_find?_eq_some hfind) hjn
end

/-! The load of a view's accesses. -/

section
variable {w : View} {accs : List ThreadAcc}

/-- A needed line is one of a global piece that lacks a byte. -/
theorem neededLines_spec {got : List (Nat × Nat × Byte)} {q : LineReq} (hq : q ∈ neededLines accs got) :
    ∃ a ∈ accs, isGlob a = true ∧ ∃ p ∈ a.pcs, lineOf p.pa = q.line ∧ p.leaf = q.leaf
      ∧ ∃ i, i < p.n ∧ ∀ y, (p.thr, p.at_ + i, y) ∉ got := by
  simp only [neededLines, List.mem_filterMap, Option.map_eq_some_iff] at hq
  obtain ⟨l, -, p, hfind, rfl⟩ := hq
  obtain ⟨hmem, hlack⟩ := List.mem_filter.1 (List.mem_of_find?_eq_some hfind)
  obtain ⟨a, ha, hp⟩ := List.mem_flatMap.1 hmem
  have hline : lineOf p.pa = l := by simpa using List.find?_some hfind
  have hglob : isGlob a = true := by
    cases htgt : a.tgt <;> simp [htgt, isGlob] at hp ⊢
  have hp' : p ∈ a.pcs := by
    cases htgt : a.tgt <;> simp [htgt] at hp ⊢
    exact hp
  simp only [List.any_eq_true, List.mem_range, Bool.not_eq_true', List.any_eq_false, Bool.and_eq_true, beq_iff_eq, not_and] at hlack
  obtain ⟨i, hi, hno⟩ := hlack
  exact ⟨a, ha, hglob, p, hp', hline, rfl, i, hi, fun y hy => hno _ hy rfl rfl⟩

theorem mem_dedup {l : List Nat} {a : Nat} : a ∈ dedup l ↔ a ∈ l := by
  induction l with
  | nil => rfl
  | cons c l ih =>
    simp only [dedup, List.mem_cons, List.mem_filter, ih, bne_iff_ne]
    by_cases h : a = c <;> simp [h]

/-- A global piece that lacks a byte needs its line. -/
theorem mem_neededLines {got : List (Nat × Nat × Byte)} {a : ThreadAcc} (ha : a ∈ accs) (hglob : isGlob a = true) {p : TPiece} (hp : p ∈ a.pcs)
    {i : Nat} (hi : i < p.n) (hno : ∀ y, (p.thr, p.at_ + i, y) ∉ got) : ∃ q ∈ neededLines accs got, q.line = lineOf p.pa := by
  obtain ⟨va, htgt⟩ := tgt_of_isGlob (accs := [a]) (by simpa using hglob) (List.mem_singleton_self a)
  unfold neededLines
  extract_lets ps need
  have hmem : p ∈ need := by
    refine List.mem_filter.2 ⟨List.mem_flatMap.2 ⟨a, ha, by simpa [htgt] using hp⟩, List.any_eq_true.2 ⟨i, List.mem_range.2 hi, ?_⟩⟩
    simp only [Bool.not_eq_true', List.any_eq_false, Bool.and_eq_true, beq_iff_eq, not_and]
    rintro ⟨t, j, y⟩ he rfl rfl
    exact hno y he
  have hfound : (need.find? fun q => lineOf q.pa == lineOf p.pa).isSome = true := List.find?_isSome.2 ⟨p, hmem, by simp⟩
  obtain ⟨q, hq⟩ := Option.isSome_iff_exists.1 hfound
  exact ⟨_, List.mem_filterMap.2 ⟨lineOf p.pa, mem_dedup.2 (List.mem_map_of_mem hmem), by rw [hq]; rfl⟩, rfl⟩

theorem mem_loadRec_piecesOn {ty : Ty} {nl1 : Bool} {line : Nat} {q : Piece} : q ∈ (w.loadRec ty nl1 accs).piecesOn line ↔
    ∃ a ∈ accs, isGlob a = true ∧ ∃ p ∈ a.pcs, lineOf p.pa = line ∧ q = ⟨p.thr, p.at_, p.pa, p.n⟩ := by
  simp only [LoadRec.piecesOn, View.loadRec, List.mem_filter, List.mem_flatMap, beq_iff_eq]
  constructor
  · rintro ⟨⟨a, ha, hq⟩, hline⟩
    cases htgt : a.tgt with
    | glob va =>
      obtain ⟨p, hp, rfl⟩ : ∃ p ∈ a.pcs, (⟨p.thr, p.at_, p.pa, p.n⟩ : Piece) = q := by simpa [htgt] using hq
      exact ⟨a, ha, by simp [isGlob, htgt], p, hp, hline, rfl⟩
    | priv b => simp [htgt] at hq
    | scr k off => simp [htgt] at hq
  · rintro ⟨a, ha, hglob, p, hp, hline, rfl⟩
    refine ⟨⟨a, ha, ?_⟩, hline⟩
    obtain ⟨va, htgt⟩ := tgt_of_isGlob (accs := [a]) (by simpa using hglob) (List.mem_singleton_self a)
    simp only [htgt, if_true]
    exact List.mem_map_of_mem hp
end

section
variable {w : View} {accs : List ThreadAcc} {n : Nat} {b : Nat → Nat → Byte} (htidy : ∀ a ∈ accs, a.Tidy ∧ a.n = n)
  (hnow : ∀ a ∈ accs, ∀ j, j < n → w.byteNow a j = some (b a.thr j))
include htidy hnow

/-- What is there without a line is right. -/
theorem loadRec_sound (ty : Ty) (nl1 : Bool) : ∀ e ∈ (w.loadRec ty nl1 accs).got, e.2.1 < n → e.2.2 = b e.1 e.2.1 := by
  intro e he hen
  obtain ⟨a, ha, hea⟩ := List.mem_flatMap.1 he
  obtain ⟨hthr, hbyte⟩ := byteNow_of_readyBytes (htidy a ha).1 hea
  rw [hthr]
  exact Option.some.inj (hbyte.symm.trans (hnow a ha _ hen))

/-- Bytes at hand that need lines are bytes of hits in L1. -/
theorem loadRec_hits (ty : Ty) (nl1 : Bool) : (w.loadRec ty nl1 accs).Hits w n b := by
  have hbyte : ∀ {a p i}, a ∈ accs → isGlob a = true → p ∈ a.pcs → i < p.n → (∀ y, (p.thr, p.at_ + i, y) ∉ accs.flatMap w.readyBytes) →
      ∃ c, w.l1Hit p.leaf (lineOf p.pa) = some c ∧ c.bad = false ∧ b p.thr (p.at_ + i) = LineData.byte c.data (p.pa + i) :=
    fun {a p i} ha hglob hp hi hno => by
      obtain ⟨htidy, hn⟩ := htidy a ha
      have hwithin := htidy.within p hp
      rw [htidy.thr p hp] at hno ⊢
      exact l1Hit_of_byteNow htidy hp hglob hi (hnow a ha _ (by omega)) fun y hy => hno y (List.mem_flatMap.2 ⟨a, ha, hy⟩)
  intro q hq
  obtain ⟨a, ha, hglob, p, hp, hline, hleaf, i, hi, hno⟩ := neededLines_spec hq
  obtain ⟨c, hhit, hgood, -⟩ := hbyte ha hglob hp hi hno
  rw [hline, hleaf] at hhit
  refine ⟨c, hhit, hgood, fun p' hp' i' hi' hin hlack => ?_⟩
  obtain ⟨a', ha', hglob', p1, hp1, hline', rfl⟩ := mem_loadRec_piecesOn.1 hp'
  have hno' : ∀ y, (p1.thr, p1.at_ + i', y) ∉ accs.flatMap w.readyBytes := fun y hy => hlack ⟨y, hy⟩
  obtain ⟨c', hhit', -, hb⟩ := hbyte ha' hglob' hp1 hi' hno'
  rw [hline'] at hhit'
  obtain ⟨-, -, -, -, -, -, hget, -⟩ := View.l1Hit_spec hhit
  obtain ⟨-, -, -, -, -, -, hget', -⟩ := View.l1Hit_spec hhit'
  obtain rfl : c = c' := Option.some.inj (hget.symm.trans hget')
  exact hb.symm

/-- A load whose lines have come has every byte of its threads. -/
theorem loadRec_full {ty : Ty} {nl1 : Bool} {x : LoadRun} (h : x.Supplied w (w.loadRec ty nl1 accs) n b (w.loadRec ty nl1 accs).lines.length)
    {a : ThreadAcc} (ha : a ∈ accs) {j : Nat} (hj : j < n) : x.r.has a.thr j := by
  obtain ⟨hthis, hn⟩ := htidy a ha
  by_cases hthere : (w.loadRec ty nl1 accs).has a.thr j
  · obtain ⟨y, hy⟩ := hthere
    exact ⟨y, h.kept _ hy⟩
  have hno : ∀ y, (a.thr, j, y) ∉ accs.flatMap w.readyBytes := fun y hy => hthere ⟨y, hy⟩
  obtain ⟨y, hy⟩ | ⟨hglob, p, hp, hpj⟩ := mem_piece_of_byteNow (hn ▸ hj) (hnow a ha j hj)
  · exact absurd (List.mem_flatMap.2 ⟨a, ha, hy⟩) (hno y)
  obtain ⟨hle, hlt⟩ := hpj
  obtain ⟨i, rfl⟩ := Nat.exists_eq_add_of_le hle
  rw [← hthis.thr p hp] at hno ⊢
  obtain ⟨q, hq, hline⟩ := mem_neededLines ha hglob hp (i := i) (by omega) hno
  obtain ⟨k, hk⟩ := List.getElem?_of_mem hq
  exact h.full k q (List.getElem?_eq_some_iff.1 hk).1 hk ⟨p.thr, p.at_, p.pa, p.n⟩
    (mem_loadRec_piecesOn.2 ⟨a, ha, hglob, p, hp, hline.symm, rfl⟩) i (Nat.lt_of_add_lt_add_left hlt)
end

/-- The lowest thread of a mask executes. -/
theorem lowest_mem_lanes (u : Uses) {m : Mask} (h : m ≠ 0) : lowest m ∈ lanes u m := by
  unfold lanes
  split
  · exact List.mem_singleton_self _
  · have hne := threadsOf_ne_nil h
    unfold lowest
    rw [List.headD_eq_head?_getD, List.head?_eq_some_head hne]
    exact List.head_mem hne

/-- Of a destination that is v or s registers only the values of the executing lanes count (R21). -/
theorem Pend.Fits.gives_congr {p : Pend} {i : Instr} {w : View} {m : Mask} {sx : Bool} {g : Group} (hf : p.Fits i m) (hm : m ≠ 0) {v v' : Nat → Nat}
    (h : ∀ t ∈ lanes i.uses m, v t = v' t) (hg : w.Gives i m sx (fun t => .bits (v t)) g) : w.Gives i m sx (fun t => .bits (v' t)) g := by
  have hlow := h _ (lowest_mem_lanes i.uses hm)
  have hvreg : ∀ k (old : Nat → W32) n, inMask m k = true → vAfter i.uses (v k) old n = vAfter i.uses (v' k) old n := fun k old n hk => by
    cases hu : i.uses.uniform with
    | false =>
      have hmem : k ∈ lanes i.uses m := by
        simp only [lanes, hu, Bool.false_eq_true, if_false]
        exact (mem_threadsOf m k).2 ⟨inMask_lt hk, hk⟩
      rw [h k hmem]
    | true =>
      obtain ⟨⟨r, hdst, -⟩, hfile, -, -⟩ := hf
      simp only [Uses.uniform, hdst, Bool.and_eq_true] at hu
      obtain ⟨b, nwb, hp⟩ | ⟨b, hp⟩ := hfile
      · simp [hp] at hu
      · simp only [vAfter, hdst, hp]
  obtain ⟨hrest, hlen, hthreads, hs, hh⟩ := hg
  refine ⟨hrest, hlen, fun k hk => ?_, fun n => (hs n).trans ?_, fun n => (hh n).trans ?_⟩
  · obtain ⟨c1, c2, c3, c4, c5, c6, c7, c8, hv, c10⟩ := hthreads k hk
    refine ⟨c1, c2, c3, c4, c5, c6, c7, c8, fun n => (hv n).trans ?_, c10⟩
    split
    next hkm => exact hvreg k _ n hkm
    · rfl
  · show sAfter i.uses sx (v (lowest m)) _ n = sAfter i.uses sx (v' (lowest m)) _ n
    rw [hlow]
  · exact (hf.hAfter_use _ _ n).2.trans (hf.hAfter_use _ _ n).2.symm

/-- What a destination takes of a load that no thread has failed in (R193). -/
theorem loaded_value {p : Pend} {r : LoadRec} (hgone : r.gone = []) {t : Nat} (ht : t ∈ if p.unif then [lowest p.mask] else threadsOf p.mask) :
    (p.loaded r).value t = loadValue p.ty (r.bytes t (sizeOf' p.ty)) := by
  have hfind : ∀ (l : List Nat) (f : Nat → Nat), t ∈ l → (l.map fun t => (t, f t)).find? (fun x => x.1 == t) = some (t, f t) := fun l f hl => by
    induction l with
    | nil => simp at hl
    | cons c l ih =>
      by_cases hc : c = t
      · simp [hc]
      · have hl' : t ∈ l := (List.mem_cons.1 hl).resolve_left (Ne.symm hc)
        rw [List.map_cons, List.find?_cons_of_neg (by simpa using hc)]
        exact ih hl'
  simp only [Pend.value, Pend.loaded, hfind _ _ ht, hgone, List.contains_nil, Bool.false_eq_true, if_false, Option.map_some, Option.getD_some]

theorem byteNow_objs (w : View) (o : AList Obj) (a : ThreadAcc) (j : Nat) :
    View.byteNow { w with s := { w.s with objs := o } } a j = w.byteNow a j := by
  simp only [View.byteNow, View.l1Hit_objs]
  rfl

section
variable {w : View} {accs : List ThreadAcc} {n : Nat} {b : Nat → Nat → Byte}

/-- A load of data whose every byte is at hand is done at issue: what it leaves of state and group. -/
theorem runLoad_at_once {i : Instr} {m : Mask} {ty : Ty} {nl1 : Bool} {d : DstUse} (hdst : i.uses.dst = some d)
    (htidy : ∀ a ∈ accs, a.Tidy ∧ a.n = ty.width / 8) (hnow : ∀ a ∈ accs, ∀ j, j < ty.width / 8 → w.byteNow a j = some (b a.thr j))
    (hlanes : accs.map (·.thr) = lanes i.uses m)
    (haway : w.away accs = false) (hblocked : w.loadBlocked accs = false) (hbad : w.badPriv accs = []) (hgone : w.privGone accs = []) :
    ∃ s2 t l p, w.runLoad i m ty nl1 .data accs = .next t ∧ SameMemory w.s s2 ∧ s2.curPc = w.s.curPc ∧ s2.curMask = w.s.curMask
      ∧ w.g.lmax ≤ l ∧ w.scrStamp accs ≤ l
      ∧ Leaves s2 w.u t (Group.deliver { w.g.startPend i m w.sel with
          seq := w.g.seq + 1, lmax := l, winLoad := w.g.winLoad || accs.any isGlob } p)
      ∧ p.dst = d.dst ∧ p.ty = ty ∧ p.mask = m
      ∧ ∀ t ∈ lanes i.uses m, p.value t = loadValue ty ((List.range (ty.width / 8)).map (b t)) := by
  obtain ⟨h, hfin⟩ := startAll_supplied (w := w) (r0 := w.loadRec ty nl1 accs) rfl rfl (loadRec_hits htidy hnow ty nl1)
    (fun q hq => by simp [neededLines_stat hq]) (loadRec_sound htidy hnow ty nl1)
  simp only [View.runLoad, haway, hblocked, hbad, hgone, hdst, beq_self_eq_true, Bool.true_and, Bool.false_eq_true, if_false, if_true,
    List.contains_nil, Bool.not_false, List.filter_true, List.flatMap_nil, List.append_nil, dedup, List.isEmpty_nil]
  generalize hy : LoadRun.startAll _ w.lineCtx = y
  rw [show LoadRun.startAll { s := w.s, r := w.loadRec ty nl1 accs } w.lineCtx = y from hy] at h hfin
  obtain ⟨bases, hs, -⟩ := h.state
  obtain ⟨got, lines, hr⟩ := h.record
  have hgood : y.r.bad.isEmpty = true := by rw [hr]; rfl
  have hnogone : y.r.gone = [] := by rw [hr]; rfl
  obtain ⟨hlmax, hwin, -, -, hreports⟩ := startPend_fields w.g i m w.sel
  simp only [y.logged_of_none h.fail, hgood, hfin, h.fail, hlmax, hwin, if_true, List.append_nil, Bool.and_true, List.foldl_cons, List.foldl_nil]
  refine ⟨y.s, _, max w.g.lmax (max y.ts (w.scrStamp accs)), Pend.loaded _ y.r, rfl, ?_, ?_, ?_, le_max_left .., ?_,
    (issued_leaves ..).of_core (track_core ..), rfl, rfl, rfl, fun t ht => ?_⟩
  · rw [hs]
    exact ⟨rfl, rfl, rfl, rfl, rfl⟩
  · rw [hs]
  · rw [hs]
  · exact le_trans (le_max_right ..) (le_max_right ..)
  · obtain ⟨a, ha, rfl⟩ := List.mem_map.1 (hlanes ▸ ht)
    exact (loaded_value hnogone ht).trans (congrArg (loadValue ty) (h.bytes fun j hj => loadRec_full htidy hnow h ha hj))
end

/-- A load form of class 0x5 that issues with every byte at hand completes with their value. -/
theorem loadOp_at_once {s s1 : State} {w : View} {m : Mask} {x : Ld} {b : Nat → Nat → Byte} {i : Instr} {acc : Acc} {race : Bool}
    {addr : View → Nat → AddrOut} (hdst : i.uses.dst = dstVS x.ty.regw x.d ∨ i.uses.dst = dstV x.ty.regw x.d) (hpds : i.uses.pds = [])
    (he : exec i s = loadOp i s x acc race addr) (h : Issues i s w m) (hacc : w.accessible i.uses m (x.ty.width / 8) acc (addr w) = true) :
    let accs := w.accsOf i.uses m (x.ty.width / 8) acc (addr w)
    (if race then w.Passes accs false s1 else s1 = w.s) →
    w.away accs = false → w.loadBlocked accs = false → w.badPriv accs = [] → w.privGone accs = [] →
    (∀ a ∈ accs, ∀ j, j < x.ty.width / 8 → w.byteNow a j = some (b a.thr j)) →
    ∃ s2 l t, exec i s = .next t ∧ SameMemory s1 s2 ∧ w.g.lmax ≤ l ∧ w.scrStamp accs ≤ l
      ∧ LaneDone i { w with s := s2, g := { w.g with seq := w.g.seq + 1, lmax := l, winLoad := w.g.winLoad || accs.any isGlob } } m
          x.ty.sfill (fun k => .bits (loadValue x.ty ((List.range (x.ty.width / 8)).map (b k)))) t := by
  intro accs hrace haway hblocked hbad hgone hnow
  obtain ⟨o, rfl⟩ : ∃ o, s1 = { w.s with objs := o } := by
    cases race with
    | false => exact ⟨w.s.objs, hrace⟩
    | true => exact Passes.objs hrace
  have hexec : exec i s = View.runLoad { w with s := { w.s with objs := o } } i m x.ty (x.var && acc == .load) .data accs := by
    rw [he, loadOp, issue_runs h, access_of_accessible hacc]
    cases race with
    | false =>
      have hs : ({ w.s with objs := o } : State) = w.s := hrace
      rw [hs]
      exact if_neg Bool.false_ne_true
    | true => exact (if_pos rfl).trans (raced_of_passes hrace _ _ _)
  have hdst' : i.uses.dst = some ⟨x.d, .vs x.ty.regw⟩ ∨ i.uses.dst = some ⟨x.d, .v x.ty.regw⟩ := hdst
  obtain ⟨d, hd, hdx⟩ : ∃ d, i.uses.dst = some d ∧ d.dst = x.d := hdst'.elim (fun e => ⟨_, e, rfl⟩) fun e => ⟨_, e, rfl⟩
  obtain ⟨s2, t, l, p, hrun, hsame, hpc, hmask, hl, hstamp, hleaves, hpd, hpt, hpm, hvalue⟩ :=
    runLoad_at_once (w := { w with s := { w.s with objs := o } }) (accs := accs) (i := i) (m := m) (ty := x.ty) (nl1 := x.var && acc == .load)
      (b := b) hd (fun a ha => ⟨accsOf_tidy ha, accsOf_n ha⟩) (fun a ha j hj => (byteNow_objs w o a j).trans (hnow a ha j hj)) accsOf_thr
      haway hblocked hbad hgone
  have hf : p.Fits i m := h.fits hpds (by rw [hpt, hpd, hdx]; exact hdst) hpm
  refine ⟨s2, l, t, hexec.trans hrun, hsame, hl, hstamp, ?_⟩
  have hsel : View.sel { w with s := s2, g := { w.g with seq := w.g.seq + 1, lmax := l, winLoad := w.g.winLoad || accs.any isGlob } }
      = w.sel := by
    unfold View.sel Group.maskIf Group.thread
    simp only [hpc, hmask]
  refine (hpt ▸ hf.gives_congr h.2.2.2.2.2.1 hvalue (deliver_gives hf ?_ ?_ ?_ ?_)).done hleaves
  · rw [hsel, startPend_spec]
    rfl
  · rw [startPend_spec]
  · rw [startPend_spec]
  · rw [startPend_spec]
    rfl

/-- Settles O18: the lines that the load needs are hits in L1, so it has all its bytes when it has started, and delivers them. -/
theorem loadsAtOnce : Obligations.LoadsAtOnce := by
  intro s s1 w m x b
  refine ⟨fun h hacc hrace => ?_, fun h hacc hrace => ?_, fun h hacc hrace => ?_, fun h hacc hrace => ?_, fun h hacc hrace => ?_⟩
  · exact loadOp_at_once (race := true) (addr := fun w t => w.globalOf x.ad (x.ty.width / 8) false true t) (.inl rfl) rfl rfl h hacc hrace
  · exact loadOp_at_once (race := true) (addr := fun w t => w.globalOf x.ad (x.ty.width / 8) false false t) (.inr rfl) rfl rfl h hacc hrace
  · exact loadOp_at_once (race := true) (addr := fun w t => w.globalOf x.ad (x.ty.width / 8) true true t) (.inl rfl) rfl rfl h hacc hrace
  · exact loadOp_at_once (race := false) (addr := fun w t => w.scratchOf x.ad x.var (x.ty.width / 8) t) (.inl rfl) rfl rfl h hacc hrace
  · exact loadOp_at_once (race := true) (addr := fun w t => w.privAddr (w.offsetOf x.ad (x.ty.width / 8) t) (x.ty.width / 8)) (.inr rfl) rfl rfl
      h hacc hrace

end Sys2Proof.Machine

/-! ## A page walk: what the statement leaves out (R366) -/

namespace Sys2Proof.Machine

/-- The root of the page tables of the state below. -/
def tableRoot : Nat := fetchPa + 0x20000

/-- Four words of page tables, in pages of their own; the last is a writable leaf of 1 GiB that maps the first GiB to HBM (R181). -/
def tableMem : Memory :=
  let m := writeNat State.reset.mem tableRoot 8 (tableRoot + 0x10001)
  let m := writeNat m (tableRoot + 0x10000) 8 (tableRoot + 0x20001)
  let m := writeNat m (tableRoot + 0x20000) 8 (tableRoot + 0x30001)
  writeNat m (tableRoot + 0x30000) 8 (fetchPa / 2 ^ 30 * 2 ^ 30 + 0x1BB)

/-- A zone whose range holds the tables, with one channel. -/
def tableZone (ch : Nat) : Zone := { hbmbase := fetchPa, hbmmax := 2 ^ 31, size := 2 ^ 31, chans := [(ch, 0)] }

/-- The group that walks, its team and its context. -/
def walkGroup : Group := { fetchGroup with wait := .walk 0 0x10000 .load [(1, 0x10000, 0x10000)] }
def walkTeam : Team := { groups := [0], regs := 256, textSize := 12 }
def walkCtx : Ctx := { zone := 3, priv := .hyp, ptroot := BitVec.ofNat 64 tableRoot }

/-- A group walks in zone 3. The ranges of zones 64 and 3 both hold its tables, zone 64 stands first among the zones, and of the two zones'
channels that of zone 3 is lost. -/
def twoBackers : State :=
  { State.reset with
    groups := [(0, walkGroup)]
    teams := [(0, walkTeam)]
    ctxs := [(0, walkCtx)]
    zones := [(64, tableZone 0), (3, tableZone 1)]
    deadChs := [1]
    mem := tableMem }

/-- What the TLBs hold for group 0's address after a step. -/
def found0 : Out → Option (Nat × Leaf)
  | .next t => t.tlbLookup walkTeam.core walkCtx.zone walkTeam.ctx 0x10000 .load walkCtx.priv
  | _ => none

/-- The leaf of the walk. -/
def giantLeaf : Leaf := { sh := true, u := true, w := true, rd := true, k := 30 }

theorem twoBackers_walks : twoBackers.walkVa walkCtx 0x10000 .load = .ok (fetchPa + 0x10000) giantLeaf := by decide

theorem twoBackers_marks : (twoBackers.markFrames (fetchPa + 0x10000) giantLeaf).isSome = true := by decide

theorem twoBackers_found : found0 (exec (.walk 0) twoBackers) = none := by decide

/-- Refutes O14: the statement has the walk succeed where the tables can be read before it, and the model charges the walk's reads to its zone
first. That puts zone 3 before zone 64, which stood first; now zone 3 counts as the tables' backer, and its channel is lost. -/
theorem not_walksAndFaults : ¬ Obligations.WalksAndFaults := by
  intro h
  obtain ⟨t, ht, hfound, -⟩ := (h.1 twoBackers 0 walkGroup walkTeam walkCtx 0 0x10000 .load [(1, 0x10000, 0x10000)] rfl rfl rfl rfl (by decide)).1
    _ _ twoBackers_walks (Option.isSome_iff_ne_none.1 twoBackers_marks)
  have hnone := twoBackers_found
  rw [ht] at hnone
  exact absurd (hfound.symm.trans hnone) (by simp)

end Sys2Proof.Machine

/-! ## Coherence objects: what the statement leaves out (R366) -/

namespace Sys2Proof.Machine

/-- OBJDECL of the record at the address in s2 and s3, unguarded. -/
def declareAt : Objdecl := { ctl := ⟨⟨false, 7⟩, ⟨0, false, 7, 0⟩⟩, race := false, d := 8, a := .s 2 .plain }

/-- A record of an object of one tile at 0x10000, a line of 32 words (R231, R284). -/
def lineRecord : List Byte :=
  bytesOf 8 0x10000 ++ bytesOf 4 (2 ^ 8 * 0x1A) ++ bytesOf 4 32 ++ bytesOf 4 1 ++ bytesOf 4 1 ++ bytesOf 8 128 ++ bytesOf 8 128
    ++ bytesOf 4 32 ++ bytesOf 4 1 ++ bytesOf 4 1 ++ bytesOf 12 0

/-- Its page, whose lines have their homes in the vaults, and its line. -/
def sharedLeaf : Leaf := { rd := true, k := 16, sh := true }
def recordLine : Nat := lineOf (fetchPa + 0x10000)

/-- OBJDECL stands at address 0 of a group of one thread that has read the record. It is of zone 3. The ranges of zones 64 and 3 both
hold the line, and zone 64 stands first among the zones: the line's home is the vault of that zone's channel. There zone 3 has given
timestamp 5. -/
def twoOwners : State :=
  let s := (State.reset.withFetchWord 96 (encode (.objdecl declareAt)).toNat).at_ 0 0
  { s with
    groups := [(0, { fetchGroup with threads := [{}], s := [(2, 0x10000)], formRead := some (lineRecord, false) })]
    ctxs := [(0, { zone := 3, priv := .hyp })]
    zones := [(64, tableZone 0), (3, { tableZone 96 with mts := [(0, 5)], oquota := 1 })]
    tlb1 := [{ loc := 0, zone := 3, ctx := 0, vpn := 1, ppn := fetchPa / 2 ^ 16 + 1, leaf := sharedLeaf }] }

/-- What OBJDECL sees there. -/
def ownersView : View :=
  { s := twoOwners, u := 0, g := (look twoOwners.groups 0).getD {}, tm := (look twoOwners.teams 0).getD {}, cx := { zone := 3, priv := .hyp } }

theorem declareAt_issues : Issues (.objdecl declareAt) twoOwners ownersView 1 := by decide

/-- The object's shape. -/
def lineShape : Shape :=
  { va := 0x10000, ty := .b32, planes := false, pln := 0, d0 := 32, d1 := 1, d2 := 1, s1 := 128, s2 := 128, t0 := 32, t1 := 1, t2 := 1
    spoff := 0, swoff := 0 }

theorem lineRecord_shape : Shape.read lineRecord false = some lineShape := by decide

/-- The state in which its lines are translated. -/
def ownersQuiet : State := ownersView.installQuiet .load ((List.range lineShape.ntile).flatMap lineShape.lineVas)

theorem ownersQuiet_tiles : ownTiles (View.objTiles { ownersView with s := ownersQuiet } lineShape) = [[(recordLine, sharedLeaf)]] := by decide

/-- The timestamp of the line after a step, as the statement asks for it. -/
def lineStamp : Out → Option Nat
  | .next t => some (t.homeRec 3 (ownersQuiet.lineHome 3 (recordLine, sharedLeaf)) recordLine).rts
  | _ => none

theorem ownersQuiet_stamp : lineStamp (.next ownersQuiet) = some 5 := by decide

theorem twoOwners_stamp : lineStamp (exec (.objdecl declareAt) twoOwners) = some 0 := by decide

/-- Refutes O31: the timestamps of the object's line are to go to the vault that zone 64's channel is at, and are charged to zone 3 on
the way. That puts zone 3 before zone 64, which stood first; now the line's home is the vault of zone 3's channel, where zone 3 has given
no timestamp, and the line's falls from 5 to 0. -/
theorem not_coherenceObjects : ¬ Obligations.CoherenceObjects := by
  intro h
  obtain ⟨-, -, -, hacts⟩ := (h twoOwners ownersView 1).1 declareAt declareAt_issues (by decide)
  obtain ⟨-, hshape⟩ := hacts lineRecord twoOwners rfl rfl
  obtain ⟨-, hwalked⟩ := hshape lineShape lineRecord_shape
  obtain ⟨-, hfree⟩ := hwalked (by decide) (by decide) (by decide)
  obtain ⟨-, hquota⟩ := hfree 0 (by decide)
  obtain ⟨-, hdeclares⟩ := hquota (by decide)
  obtain ⟨t, ht, -, -, -, -, hstamps⟩ := hdeclares (by decide)
  have hown : [(recordLine, sharedLeaf)] ∈ ownTiles (View.objTiles { ownersView with s := ownersQuiet } lineShape) := by
    rw [ownersQuiet_tiles]
    exact List.mem_singleton_self _
  have hkept : (ownersQuiet.homeRec 3 (ownersQuiet.lineHome 3 (recordLine, sharedLeaf)) recordLine).rts
      ≤ (t.homeRec 3 (ownersQuiet.lineHome 3 (recordLine, sharedLeaf)) recordLine).rts :=
    hstamps (by decide) _ hown (recordLine, sharedLeaf) (List.mem_singleton_self _)
  have hafter := twoOwners_stamp
  rw [ht] at hafter
  rw [Option.some.inj ownersQuiet_stamp, Option.some.inj hafter] at hkept
  exact absurd hkept (by decide)

end Sys2Proof.Machine
